-- ==== Sys2Proof/Word.lean ====
section
/-! DEFINITION. The word types of the 80386 (10 R15, R16; 20 R62). Bit-field, sign-extension and byte-order helpers
stand with the decoder and the machine, not here. -/

namespace Sys2Proof

/-- The unit of addressing (20 R59). -/
abbrev Byte := BitVec 8

/-- A 16-bit quantity: selectors, ports, 16-bit operands. -/
abbrev Word := BitVec 16

/-- A 32-bit quantity: registers, offsets, linear and physical addresses. -/
abbrev Dword := BitVec 32

end Sys2Proof
end

