-- ==== Sys2Proof/Syntax.lean ====
section
/-! DEFINITION. The instructions of the opcode table (30 R105-R121), one constructor for each mnemonic of
spec/opcode_table.json. A prefix byte is an instruction of its own here: its meaning records the prefix for the
instruction that follows it (30 R106, log 9). -/

namespace Sys2Proof

/-- Operand size or address size (30 R107). -/
inductive Size where
  | w16
  | w32
  deriving DecidableEq, Repr

/-- A general register by its number 0 to 7 (10 R15; 30 R112). -/
inductive Reg where
  | eax | ecx | edx | ebx | esp | ebp | esi | edi
  deriving DecidableEq, Repr

/-- An 8-bit register by its number 0 to 7 (10 R16; 30 R112). -/
inductive Reg8 where
  | al | cl | dl | bl | ah | ch | dh | bh
  deriving DecidableEq, Repr

/-- A segment register (10 R29). -/
inductive SegReg where
  | es | cs | ss | ds | fs | gs
  deriving DecidableEq, Repr

/-- The condition field of a conditional jump, 0 to 15 in order (30 R119). -/
inductive Cond where
  | o | no | b | nb | z | nz | be | nbe | s | ns | p | np | l | nl | le | nle
  deriving DecidableEq, Repr

/-- The base of a 16-bit memory operand, `rm` 0 to 7 in order (30 R109). -/
inductive Base16 where
  | bxSi | bxDi | bpSi | bpDi | si | di | bp | bx
  deriving DecidableEq, Repr

/-- The displacement of a 16-bit memory operand (30 R109). -/
inductive Disp16 where
  | none
  | d8 (d : BitVec 8)
  | d16 (d : BitVec 16)
  deriving DecidableEq, Repr

/-- The displacement of a 32-bit memory operand (30 R110). -/
inductive Disp32 where
  | none
  | d8 (d : BitVec 8)
  | d32 (d : BitVec 32)
  deriving DecidableEq, Repr

/-- A memory operand as encoded (30 R109, R110). In `sib` and `sibAbs` the index `esp` means no index. -/
inductive Mem where
  /-- `rm` with a base, 16-bit addressing -/
  | a16 (base : Base16) (disp : Disp16)
  /-- `mod` 00, `rm` 110: a 16-bit offset alone -/
  | abs16 (d : BitVec 16)
  /-- `rm` with a base register, 32-bit addressing -/
  | a32 (base : Reg) (disp : Disp32)
  /-- `mod` 00, `rm` 101: a 32-bit offset alone -/
  | abs32 (d : BitVec 32)
  /-- a SIB byte with a base register -/
  | sib (scale : BitVec 2) (index base : Reg) (disp : Disp32)
  /-- a SIB byte without a base register, with a 32-bit displacement -/
  | sibAbs (scale : BitVec 2) (index : Reg) (d : BitVec 32)
  deriving DecidableEq, Repr

/-- A register-or-memory operand (30 R108); `ρ` is the register file the register form names. -/
inductive RM (ρ : Type) where
  | reg (r : ρ)
  | mem (m : Mem)
  deriving DecidableEq, Repr

/-- The instructions. Immediates and displacements stand as encoded (`imm : BitVec 32` of an OS-sized immediate is
zero-extended when OS is 16); their extension is part of the meaning (30 R113). Numbers of segment, control, debug and
test registers stand as encoded: which of them exist is part of the meaning (30 R112). -/
inductive Instr where
  /-- SGDT m (M, R126) -/
  | sgdt (rm : RM Reg)
  /-- SIDT m (M, R128) -/
  | sidt (rm : RM Reg)
  /-- LGDT m16&32 (M, R125) -/
  | lgdt (rm : RM Reg)
  /-- LIDT m16&32 (M, R127) -/
  | lidt (rm : RM Reg)
  /-- SMSW r/m16 (M, R134) -/
  | smsw (rm : RM Reg)
  /-- LMSW r/m16 (M, R133) -/
  | lmsw (rm : RM Reg)
  /-- SLDT r/m16 (M, R130) -/
  | sldt (rm : RM Reg)
  /-- STR r/m16 (M, R132) -/
  | str (rm : RM Reg)
  /-- LLDT r/m16 (M, R129) -/
  | lldt (rm : RM Reg)
  /-- LTR r/m16 (M, R131) -/
  | ltr (rm : RM Reg)
  /-- VERR r/m16 (M, R148) -/
  | verr (rm : RM Reg)
  /-- VERW r/m16 (M, R149) -/
  | verw (rm : RM Reg)
  /-- CLTS (NP, R135) -/
  | clts
  /-- MOV r32, CRn (RR, R136) -/
  | movRCr (r : Reg) (n : BitVec 3)
  /-- MOV r32, DRn (RR, R138) -/
  | movRDr (r : Reg) (n : BitVec 3)
  /-- MOV CRn, r32 (RR, R137) -/
  | movCrR (n : BitVec 3) (r : Reg)
  /-- MOV DRn, r32 (RR, R139) -/
  | movDrR (n : BitVec 3) (r : Reg)
  /-- MOV r32, TRn (RR, R140) -/
  | movRTr (r : Reg) (n : BitVec 3)
  /-- MOV TRn, r32 (RR, R141) -/
  | movTrR (n : BitVec 3) (r : Reg)
  /-- HLT (NP, R143) -/
  | hlt
  /-- LAR r16/32, r/m16/32 (RM, R146) -/
  | lar (r : Reg) (rm : RM Reg)
  /-- LSL r16/32, r/m16/32 (RM, R147) -/
  | lsl (r : Reg) (rm : RM Reg)
  /-- ARPL r/m16, r16 (MR, R150) -/
  | arpl (rm : RM Reg) (r : Reg)
  /-- MOV Sreg, r/m16 (RM, R156) -/
  | movSregRm (n : BitVec 3) (rm : RM Reg)
  /-- MOV r/m16, Sreg (MR, R157) -/
  | movRmSreg (rm : RM Reg) (n : BitVec 3)
  /-- PUSH ES (NP, R158) -/
  | pushEs
  /-- PUSH CS (NP, R158) -/
  | pushCs
  /-- PUSH SS (NP, R158) -/
  | pushSs
  /-- PUSH DS (NP, R158) -/
  | pushDs
  /-- PUSH FS (NP, R158) -/
  | pushFs
  /-- PUSH GS (NP, R158) -/
  | pushGs
  /-- POP ES (NP, R159) -/
  | popEs
  /-- POP SS (NP, R159) -/
  | popSs
  /-- POP DS (NP, R159) -/
  | popDs
  /-- POP FS (NP, R159) -/
  | popFs
  /-- POP GS (NP, R159) -/
  | popGs
  /-- LES r16/32, m16:16/32 (RM, R162) -/
  | les (r : Reg) (rm : RM Reg)
  /-- LDS r16/32, m16:16/32 (RM, R161) -/
  | lds (r : Reg) (rm : RM Reg)
  /-- LSS r16/32, m16:16/32 (RM, R165) -/
  | lss (r : Reg) (rm : RM Reg)
  /-- LFS r16/32, m16:16/32 (RM, R163) -/
  | lfs (r : Reg) (rm : RM Reg)
  /-- LGS r16/32, m16:16/32 (RM, R164) -/
  | lgs (r : Reg) (rm : RM Reg)
  /-- JMP ptr16:16/32 (PTR, R177) -/
  | jmpPtr (off : BitVec 32) (sel : BitVec 16)
  /-- JMP m16:16/32 (M, R178) -/
  | jmpFarM (rm : RM Reg)
  /-- CALL ptr16:16/32 (PTR, R179) -/
  | callPtr (off : BitVec 32) (sel : BitVec 16)
  /-- CALL m16:16/32 (M, R180) -/
  | callFarM (rm : RM Reg)
  /-- RETF (NP, R181) -/
  | retf
  /-- RETF imm16 (I, R181) -/
  | retfImm16 (imm : BitVec 16)
  /-- IN AL, imm8 (I, R205) -/
  | inAlImm8 (imm : BitVec 8)
  /-- IN eAX, imm8 (I, R205) -/
  | inEaxImm8 (imm : BitVec 8)
  /-- IN AL, DX (NP, R205) -/
  | inAlDx
  /-- IN eAX, DX (NP, R205) -/
  | inEaxDx
  /-- OUT imm8, AL (I, R206) -/
  | outImm8Al (imm : BitVec 8)
  /-- OUT imm8, eAX (I, R206) -/
  | outImm8Eax (imm : BitVec 8)
  /-- OUT DX, AL (NP, R206) -/
  | outDxAl
  /-- OUT DX, eAX (NP, R206) -/
  | outDxEax
  /-- INSB (NP, R207) -/
  | insb
  /-- INSW / INSD (NP, R207) -/
  | insv
  /-- OUTSB (NP, R208) -/
  | outsb
  /-- OUTSW / OUTSD (NP, R208) -/
  | outsv
  /-- CLI (NP, R210) -/
  | cli
  /-- STI (NP, R211) -/
  | sti
  /-- PUSHF / PUSHFD (NP, R212) -/
  | pushf
  /-- POPF / POPFD (NP, R213) -/
  | popf
  /-- INT imm8 (I, R216) -/
  | intImm8 (imm : BitVec 8)
  /-- INT 3 (NP, R217) -/
  | int3
  /-- INTO (NP, R218) -/
  | into
  /-- BOUND r16/32, m16&16/m32&32 (RM, R219) -/
  | bound (r : Reg) (rm : RM Reg)
  /-- IRET / IRETD (NP, R220) -/
  | iret
  /-- ESC (ESC, R224) -/
  | esc (opc : BitVec 3) (reg : BitVec 3) (rm : RM Reg)
  /-- WAIT (NP, R226) -/
  | wait
  /-- LOCK (PFX, R230) -/
  | lock
  /-- XCHG r/m8, r8 (MR, R231) -/
  | xchgRm8R8 (rm : RM Reg8) (r : Reg8)
  /-- XCHG r/m16/32, r16/32 (MR, R231) -/
  | xchgRmR (rm : RM Reg) (r : Reg)
  /-- XCHG eAX, r16/32 (O, R231) -/
  | xchgEaxR (r : Reg)
  /-- NOP (NP, R235) -/
  | nop
  /-- MOV r/m8, r8 (MR, R236) -/
  | movRm8R8 (rm : RM Reg8) (r : Reg8)
  /-- MOV r/m16/32, r16/32 (MR, R236) -/
  | movRmR (rm : RM Reg) (r : Reg)
  /-- MOV r8, r/m8 (RM, R236) -/
  | movR8Rm8 (r : Reg8) (rm : RM Reg8)
  /-- MOV r16/32, r/m16/32 (RM, R236) -/
  | movRRm (r : Reg) (rm : RM Reg)
  /-- MOV r8, imm8 (OI, R237) -/
  | movR8Imm8 (r : Reg8) (imm : BitVec 8)
  /-- MOV r16/32, imm16/32 (OI, R237) -/
  | movRImm (r : Reg) (imm : BitVec 32)
  /-- MOV r/m8, imm8 (MI, R238) -/
  | movRm8Imm8 (rm : RM Reg8) (imm : BitVec 8)
  /-- MOV r/m16/32, imm16/32 (MI, R238) -/
  | movRmImm (rm : RM Reg) (imm : BitVec 32)
  /-- MOV AL, moffs8 (FD, R239) -/
  | movAlMoffs (off : BitVec 32)
  /-- MOV eAX, moffs16/32 (FD, R239) -/
  | movEaxMoffs (off : BitVec 32)
  /-- MOV moffs8, AL (TD, R239) -/
  | movMoffsAl (off : BitVec 32)
  /-- MOV moffs16/32, eAX (TD, R239) -/
  | movMoffsEax (off : BitVec 32)
  /-- PUSH r16/32 (O, R240) -/
  | pushR (r : Reg)
  /-- POP r16/32 (O, R241) -/
  | popR (r : Reg)
  /-- ADD r/m8, r8 (MR, R243) -/
  | addRm8R8 (rm : RM Reg8) (r : Reg8)
  /-- ADD r/m16/32, r16/32 (MR, R243) -/
  | addRmR (rm : RM Reg) (r : Reg)
  /-- ADD r8, r/m8 (RM, R243) -/
  | addR8Rm8 (r : Reg8) (rm : RM Reg8)
  /-- ADD r16/32, r/m16/32 (RM, R243) -/
  | addRRm (r : Reg) (rm : RM Reg)
  /-- ADD AL, imm8 (I, R243) -/
  | addAlImm8 (imm : BitVec 8)
  /-- ADD eAX, imm16/32 (I, R243) -/
  | addEaxImm (imm : BitVec 32)
  /-- ADD r/m8, imm8 (MI, R243) -/
  | addRm8Imm8 (rm : RM Reg8) (imm : BitVec 8)
  /-- ADD r/m16/32, imm16/32 (MI, R243) -/
  | addRmImm (rm : RM Reg) (imm : BitVec 32)
  /-- ADD r/m16/32, imm8 (MI, R243) -/
  | addRmImm8 (rm : RM Reg) (imm : BitVec 8)
  /-- OR r/m8, r8 (MR, R244) -/
  | orRm8R8 (rm : RM Reg8) (r : Reg8)
  /-- OR r/m16/32, r16/32 (MR, R244) -/
  | orRmR (rm : RM Reg) (r : Reg)
  /-- OR r8, r/m8 (RM, R244) -/
  | orR8Rm8 (r : Reg8) (rm : RM Reg8)
  /-- OR r16/32, r/m16/32 (RM, R244) -/
  | orRRm (r : Reg) (rm : RM Reg)
  /-- OR AL, imm8 (I, R244) -/
  | orAlImm8 (imm : BitVec 8)
  /-- OR eAX, imm16/32 (I, R244) -/
  | orEaxImm (imm : BitVec 32)
  /-- OR r/m8, imm8 (MI, R244) -/
  | orRm8Imm8 (rm : RM Reg8) (imm : BitVec 8)
  /-- OR r/m16/32, imm16/32 (MI, R244) -/
  | orRmImm (rm : RM Reg) (imm : BitVec 32)
  /-- OR r/m16/32, imm8 (MI, R244) -/
  | orRmImm8 (rm : RM Reg) (imm : BitVec 8)
  /-- ADC r/m8, r8 (MR, R245) -/
  | adcRm8R8 (rm : RM Reg8) (r : Reg8)
  /-- ADC r/m16/32, r16/32 (MR, R245) -/
  | adcRmR (rm : RM Reg) (r : Reg)
  /-- ADC r8, r/m8 (RM, R245) -/
  | adcR8Rm8 (r : Reg8) (rm : RM Reg8)
  /-- ADC r16/32, r/m16/32 (RM, R245) -/
  | adcRRm (r : Reg) (rm : RM Reg)
  /-- ADC AL, imm8 (I, R245) -/
  | adcAlImm8 (imm : BitVec 8)
  /-- ADC eAX, imm16/32 (I, R245) -/
  | adcEaxImm (imm : BitVec 32)
  /-- ADC r/m8, imm8 (MI, R245) -/
  | adcRm8Imm8 (rm : RM Reg8) (imm : BitVec 8)
  /-- ADC r/m16/32, imm16/32 (MI, R245) -/
  | adcRmImm (rm : RM Reg) (imm : BitVec 32)
  /-- ADC r/m16/32, imm8 (MI, R245) -/
  | adcRmImm8 (rm : RM Reg) (imm : BitVec 8)
  /-- SBB r/m8, r8 (MR, R246) -/
  | sbbRm8R8 (rm : RM Reg8) (r : Reg8)
  /-- SBB r/m16/32, r16/32 (MR, R246) -/
  | sbbRmR (rm : RM Reg) (r : Reg)
  /-- SBB r8, r/m8 (RM, R246) -/
  | sbbR8Rm8 (r : Reg8) (rm : RM Reg8)
  /-- SBB r16/32, r/m16/32 (RM, R246) -/
  | sbbRRm (r : Reg) (rm : RM Reg)
  /-- SBB AL, imm8 (I, R246) -/
  | sbbAlImm8 (imm : BitVec 8)
  /-- SBB eAX, imm16/32 (I, R246) -/
  | sbbEaxImm (imm : BitVec 32)
  /-- SBB r/m8, imm8 (MI, R246) -/
  | sbbRm8Imm8 (rm : RM Reg8) (imm : BitVec 8)
  /-- SBB r/m16/32, imm16/32 (MI, R246) -/
  | sbbRmImm (rm : RM Reg) (imm : BitVec 32)
  /-- SBB r/m16/32, imm8 (MI, R246) -/
  | sbbRmImm8 (rm : RM Reg) (imm : BitVec 8)
  /-- AND r/m8, r8 (MR, R247) -/
  | andRm8R8 (rm : RM Reg8) (r : Reg8)
  /-- AND r/m16/32, r16/32 (MR, R247) -/
  | andRmR (rm : RM Reg) (r : Reg)
  /-- AND r8, r/m8 (RM, R247) -/
  | andR8Rm8 (r : Reg8) (rm : RM Reg8)
  /-- AND r16/32, r/m16/32 (RM, R247) -/
  | andRRm (r : Reg) (rm : RM Reg)
  /-- AND AL, imm8 (I, R247) -/
  | andAlImm8 (imm : BitVec 8)
  /-- AND eAX, imm16/32 (I, R247) -/
  | andEaxImm (imm : BitVec 32)
  /-- AND r/m8, imm8 (MI, R247) -/
  | andRm8Imm8 (rm : RM Reg8) (imm : BitVec 8)
  /-- AND r/m16/32, imm16/32 (MI, R247) -/
  | andRmImm (rm : RM Reg) (imm : BitVec 32)
  /-- AND r/m16/32, imm8 (MI, R247) -/
  | andRmImm8 (rm : RM Reg) (imm : BitVec 8)
  /-- SUB r/m8, r8 (MR, R248) -/
  | subRm8R8 (rm : RM Reg8) (r : Reg8)
  /-- SUB r/m16/32, r16/32 (MR, R248) -/
  | subRmR (rm : RM Reg) (r : Reg)
  /-- SUB r8, r/m8 (RM, R248) -/
  | subR8Rm8 (r : Reg8) (rm : RM Reg8)
  /-- SUB r16/32, r/m16/32 (RM, R248) -/
  | subRRm (r : Reg) (rm : RM Reg)
  /-- SUB AL, imm8 (I, R248) -/
  | subAlImm8 (imm : BitVec 8)
  /-- SUB eAX, imm16/32 (I, R248) -/
  | subEaxImm (imm : BitVec 32)
  /-- SUB r/m8, imm8 (MI, R248) -/
  | subRm8Imm8 (rm : RM Reg8) (imm : BitVec 8)
  /-- SUB r/m16/32, imm16/32 (MI, R248) -/
  | subRmImm (rm : RM Reg) (imm : BitVec 32)
  /-- SUB r/m16/32, imm8 (MI, R248) -/
  | subRmImm8 (rm : RM Reg) (imm : BitVec 8)
  /-- XOR r/m8, r8 (MR, R249) -/
  | xorRm8R8 (rm : RM Reg8) (r : Reg8)
  /-- XOR r/m16/32, r16/32 (MR, R249) -/
  | xorRmR (rm : RM Reg) (r : Reg)
  /-- XOR r8, r/m8 (RM, R249) -/
  | xorR8Rm8 (r : Reg8) (rm : RM Reg8)
  /-- XOR r16/32, r/m16/32 (RM, R249) -/
  | xorRRm (r : Reg) (rm : RM Reg)
  /-- XOR AL, imm8 (I, R249) -/
  | xorAlImm8 (imm : BitVec 8)
  /-- XOR eAX, imm16/32 (I, R249) -/
  | xorEaxImm (imm : BitVec 32)
  /-- XOR r/m8, imm8 (MI, R249) -/
  | xorRm8Imm8 (rm : RM Reg8) (imm : BitVec 8)
  /-- XOR r/m16/32, imm16/32 (MI, R249) -/
  | xorRmImm (rm : RM Reg) (imm : BitVec 32)
  /-- XOR r/m16/32, imm8 (MI, R249) -/
  | xorRmImm8 (rm : RM Reg) (imm : BitVec 8)
  /-- CMP r/m8, r8 (MR, R250) -/
  | cmpRm8R8 (rm : RM Reg8) (r : Reg8)
  /-- CMP r/m16/32, r16/32 (MR, R250) -/
  | cmpRmR (rm : RM Reg) (r : Reg)
  /-- CMP r8, r/m8 (RM, R250) -/
  | cmpR8Rm8 (r : Reg8) (rm : RM Reg8)
  /-- CMP r16/32, r/m16/32 (RM, R250) -/
  | cmpRRm (r : Reg) (rm : RM Reg)
  /-- CMP AL, imm8 (I, R250) -/
  | cmpAlImm8 (imm : BitVec 8)
  /-- CMP eAX, imm16/32 (I, R250) -/
  | cmpEaxImm (imm : BitVec 32)
  /-- CMP r/m8, imm8 (MI, R250) -/
  | cmpRm8Imm8 (rm : RM Reg8) (imm : BitVec 8)
  /-- CMP r/m16/32, imm16/32 (MI, R250) -/
  | cmpRmImm (rm : RM Reg) (imm : BitVec 32)
  /-- CMP r/m16/32, imm8 (MI, R250) -/
  | cmpRmImm8 (rm : RM Reg) (imm : BitVec 8)
  /-- TEST r/m8, r8 (MR, R251) -/
  | testRm8R8 (rm : RM Reg8) (r : Reg8)
  /-- TEST r/m16/32, r16/32 (MR, R251) -/
  | testRmR (rm : RM Reg) (r : Reg)
  /-- TEST AL, imm8 (I, R251) -/
  | testAlImm8 (imm : BitVec 8)
  /-- TEST eAX, imm16/32 (I, R251) -/
  | testEaxImm (imm : BitVec 32)
  /-- TEST r/m8, imm8 (MI, R251) -/
  | testRm8Imm8 (rm : RM Reg8) (imm : BitVec 8)
  /-- TEST r/m16/32, imm16/32 (MI, R251) -/
  | testRmImm (rm : RM Reg) (imm : BitVec 32)
  /-- INC r16/32 (O, R252) -/
  | incR (r : Reg)
  /-- DEC r16/32 (O, R253) -/
  | decR (r : Reg)
  /-- INC r/m8 (M, R252) -/
  | incRm8 (rm : RM Reg8)
  /-- INC r/m16/32 (M, R252) -/
  | incRm (rm : RM Reg)
  /-- DEC r/m8 (M, R253) -/
  | decRm8 (rm : RM Reg8)
  /-- DEC r/m16/32 (M, R253) -/
  | decRm (rm : RM Reg)
  /-- NOT r/m8 (M, R254) -/
  | notRm8 (rm : RM Reg8)
  /-- NOT r/m16/32 (M, R254) -/
  | notRm (rm : RM Reg)
  /-- NEG r/m8 (M, R255) -/
  | negRm8 (rm : RM Reg8)
  /-- NEG r/m16/32 (M, R255) -/
  | negRm (rm : RM Reg)
  /-- DIV r/m8 (M, R256) -/
  | divRm8 (rm : RM Reg8)
  /-- DIV r/m16/32 (M, R256) -/
  | divRm (rm : RM Reg)
  /-- IDIV r/m8 (M, R257) -/
  | idivRm8 (rm : RM Reg8)
  /-- IDIV r/m16/32 (M, R257) -/
  | idivRm (rm : RM Reg)
  /-- SHL r/m8, 1 (M1, R259) -/
  | shlRm8One (rm : RM Reg8)
  /-- SHL r/m16/32, 1 (M1, R259) -/
  | shlRmOne (rm : RM Reg)
  /-- SHL r/m8, CL (MC, R259) -/
  | shlRm8Cl (rm : RM Reg8)
  /-- SHL r/m16/32, CL (MC, R259) -/
  | shlRmCl (rm : RM Reg)
  /-- SHL r/m8, imm8 (MI, R259) -/
  | shlRm8Imm8 (rm : RM Reg8) (imm : BitVec 8)
  /-- SHL r/m16/32, imm8 (MI, R259) -/
  | shlRmImm8 (rm : RM Reg) (imm : BitVec 8)
  /-- SHR r/m8, 1 (M1, R260) -/
  | shrRm8One (rm : RM Reg8)
  /-- SHR r/m16/32, 1 (M1, R260) -/
  | shrRmOne (rm : RM Reg)
  /-- SHR r/m8, CL (MC, R260) -/
  | shrRm8Cl (rm : RM Reg8)
  /-- SHR r/m16/32, CL (MC, R260) -/
  | shrRmCl (rm : RM Reg)
  /-- SHR r/m8, imm8 (MI, R260) -/
  | shrRm8Imm8 (rm : RM Reg8) (imm : BitVec 8)
  /-- SHR r/m16/32, imm8 (MI, R260) -/
  | shrRmImm8 (rm : RM Reg) (imm : BitVec 8)
  /-- SAR r/m8, 1 (M1, R261) -/
  | sarRm8One (rm : RM Reg8)
  /-- SAR r/m16/32, 1 (M1, R261) -/
  | sarRmOne (rm : RM Reg)
  /-- SAR r/m8, CL (MC, R261) -/
  | sarRm8Cl (rm : RM Reg8)
  /-- SAR r/m16/32, CL (MC, R261) -/
  | sarRmCl (rm : RM Reg)
  /-- SAR r/m8, imm8 (MI, R261) -/
  | sarRm8Imm8 (rm : RM Reg8) (imm : BitVec 8)
  /-- SAR r/m16/32, imm8 (MI, R261) -/
  | sarRmImm8 (rm : RM Reg) (imm : BitVec 8)
  /-- BTS r/m16/32, r16/32 (MR, R263) -/
  | btsRmR (rm : RM Reg) (r : Reg)
  /-- BTS r/m16/32, imm8 (MI, R263) -/
  | btsRmImm8 (rm : RM Reg) (imm : BitVec 8)
  /-- BTR r/m16/32, r16/32 (MR, R264) -/
  | btrRmR (rm : RM Reg) (r : Reg)
  /-- BTR r/m16/32, imm8 (MI, R264) -/
  | btrRmImm8 (rm : RM Reg) (imm : BitVec 8)
  /-- BTC r/m16/32, r16/32 (MR, R265) -/
  | btcRmR (rm : RM Reg) (r : Reg)
  /-- BTC r/m16/32, imm8 (MI, R265) -/
  | btcRmImm8 (rm : RM Reg) (imm : BitVec 8)
  /-- CLD (NP, R266) -/
  | cld
  /-- STD (NP, R267) -/
  | std
  /-- MOVSB (NP, R268) -/
  | movsb
  /-- MOVSW / MOVSD (NP, R268) -/
  | movsv
  /-- REP / REPE / REPZ (PFX, R269) -/
  | rep
  /-- JMP rel8 (D, R271) -/
  | jmpRel8 (rel : BitVec 8)
  /-- JMP rel16/32 (D, R271) -/
  | jmpRel (rel : BitVec 32)
  /-- JMP r/m16/32 (M, R271) -/
  | jmpRm (rm : RM Reg)
  /-- Jcc rel8 (D, R272) -/
  | jccRel8 (c : Cond) (rel : BitVec 8)
  /-- Jcc rel16/32 (D, R272) -/
  | jccRel (c : Cond) (rel : BitVec 32)
  /-- CALL rel16/32 (D, R273) -/
  | callRel (rel : BitVec 32)
  /-- CALL r/m16/32 (M, R273) -/
  | callRm (rm : RM Reg)
  /-- RET (NP, R274) -/
  | ret
  /-- RET imm16 (I, R274) -/
  | retImm16 (imm : BitVec 16)
  /-- ES: segment override (PFX, R106) -/
  | segEs
  /-- CS: segment override (PFX, R106) -/
  | segCs
  /-- SS: segment override (PFX, R106) -/
  | segSs
  /-- DS: segment override (PFX, R106) -/
  | segDs
  /-- FS: segment override (PFX, R106) -/
  | segFs
  /-- GS: segment override (PFX, R106) -/
  | segGs
  /-- operand-size override (PFX, R106) -/
  | opSize
  /-- address-size override (PFX, R106) -/
  | addrSize
  /-- REPNE / REPNZ (PFX, R106) -/
  | repne
  deriving DecidableEq, Repr

end Sys2Proof
end

