-- ==== Sys2Proof/WellFormed.lean ====
section
/-! DEFINITION. Which terms of `Instr` are encodings at operand size `os` and address size `as` (30 R107-R113): the
operands that the encoding has room for and that no other constructor encodes. -/

namespace Sys2Proof

/-- A memory operand that the address size can encode, in its one form (30 R109, R110): with 16-bit addressing BP
alone has a displacement; with 32-bit addressing ESP as a base takes a SIB byte and EBP alone has a displacement. -/
def Mem.WellFormed (as : Size) : Mem → Bool
  | .a16 b d => as == .w16 && !(b == .bp && d == .none)
  | .abs16 _ => as == .w16
  | .a32 b d => as == .w32 && b != .esp && !(b == .ebp && d == .none)
  | .abs32 _ => as == .w32
  | .sib _ _ b d => as == .w32 && !(b == .ebp && d == .none)
  | .sibAbs _ _ _ => as == .w32

/-- A register operand is always encodable, a memory operand by `Mem.WellFormed`. -/
def RM.WellFormed {ρ : Type} (as : Size) : RM ρ → Bool
  | .reg _ => true
  | .mem m => m.WellFormed as

/-- An OS-sized or AS-sized value fits its size (30 R113). -/
def Size.fits (z : Size) (v : BitVec 32) : Bool :=
  match z with
  | .w16 => v.ult 0x10000#32
  | .w32 => true

/-- The terms that `encode` writes at `os`, `as` and `decode` reads back. -/
def Instr.WellFormed (os as : Size) : Instr → Bool
  | .sgdt rm => rm.WellFormed as
  | .sidt rm => rm.WellFormed as
  | .lgdt rm => rm.WellFormed as
  | .lidt rm => rm.WellFormed as
  | .smsw rm => rm.WellFormed as
  | .lmsw rm => rm.WellFormed as
  | .sldt rm => rm.WellFormed as
  | .str rm => rm.WellFormed as
  | .lldt rm => rm.WellFormed as
  | .ltr rm => rm.WellFormed as
  | .verr rm => rm.WellFormed as
  | .verw rm => rm.WellFormed as
  | .clts => true
  | .movRCr _ _ => true
  | .movRDr _ _ => true
  | .movCrR _ _ => true
  | .movDrR _ _ => true
  | .movRTr _ _ => true
  | .movTrR _ _ => true
  | .hlt => true
  | .lar _ rm => rm.WellFormed as
  | .lsl _ rm => rm.WellFormed as
  | .arpl rm _ => rm.WellFormed as
  | .movSregRm _ rm => rm.WellFormed as
  | .movRmSreg rm _ => rm.WellFormed as
  | .pushEs => true
  | .pushCs => true
  | .pushSs => true
  | .pushDs => true
  | .pushFs => true
  | .pushGs => true
  | .popEs => true
  | .popSs => true
  | .popDs => true
  | .popFs => true
  | .popGs => true
  | .les _ rm => rm.WellFormed as
  | .lds _ rm => rm.WellFormed as
  | .lss _ rm => rm.WellFormed as
  | .lfs _ rm => rm.WellFormed as
  | .lgs _ rm => rm.WellFormed as
  | .jmpPtr off _ => os.fits off
  | .jmpFarM rm => rm.WellFormed as
  | .callPtr off _ => os.fits off
  | .callFarM rm => rm.WellFormed as
  | .retf => true
  | .retfImm16 _ => true
  | .inAlImm8 _ => true
  | .inEaxImm8 _ => true
  | .inAlDx => true
  | .inEaxDx => true
  | .outImm8Al _ => true
  | .outImm8Eax _ => true
  | .outDxAl => true
  | .outDxEax => true
  | .insb => true
  | .insv => true
  | .outsb => true
  | .outsv => true
  | .cli => true
  | .sti => true
  | .pushf => true
  | .popf => true
  | .intImm8 _ => true
  | .int3 => true
  | .into => true
  | .bound _ rm => rm.WellFormed as
  | .iret => true
  | .esc _ _ rm => rm.WellFormed as
  | .wait => true
  | .lock => true
  | .xchgRm8R8 rm _ => rm.WellFormed as
  | .xchgRmR rm _ => rm.WellFormed as
  | .xchgEaxR r => r != .eax
  | .nop => true
  | .movRm8R8 rm _ => rm.WellFormed as
  | .movRmR rm _ => rm.WellFormed as
  | .movR8Rm8 _ rm => rm.WellFormed as
  | .movRRm _ rm => rm.WellFormed as
  | .movR8Imm8 _ _ => true
  | .movRImm _ imm => os.fits imm
  | .movRm8Imm8 rm _ => rm.WellFormed as
  | .movRmImm rm imm => rm.WellFormed as && os.fits imm
  | .movAlMoffs off => as.fits off
  | .movEaxMoffs off => as.fits off
  | .movMoffsAl off => as.fits off
  | .movMoffsEax off => as.fits off
  | .pushR _ => true
  | .popR _ => true
  | .addRm8R8 rm _ => rm.WellFormed as
  | .addRmR rm _ => rm.WellFormed as
  | .addR8Rm8 _ rm => rm.WellFormed as
  | .addRRm _ rm => rm.WellFormed as
  | .addAlImm8 _ => true
  | .addEaxImm imm => os.fits imm
  | .addRm8Imm8 rm _ => rm.WellFormed as
  | .addRmImm rm imm => rm.WellFormed as && os.fits imm
  | .addRmImm8 rm _ => rm.WellFormed as
  | .orRm8R8 rm _ => rm.WellFormed as
  | .orRmR rm _ => rm.WellFormed as
  | .orR8Rm8 _ rm => rm.WellFormed as
  | .orRRm _ rm => rm.WellFormed as
  | .orAlImm8 _ => true
  | .orEaxImm imm => os.fits imm
  | .orRm8Imm8 rm _ => rm.WellFormed as
  | .orRmImm rm imm => rm.WellFormed as && os.fits imm
  | .orRmImm8 rm _ => rm.WellFormed as
  | .adcRm8R8 rm _ => rm.WellFormed as
  | .adcRmR rm _ => rm.WellFormed as
  | .adcR8Rm8 _ rm => rm.WellFormed as
  | .adcRRm _ rm => rm.WellFormed as
  | .adcAlImm8 _ => true
  | .adcEaxImm imm => os.fits imm
  | .adcRm8Imm8 rm _ => rm.WellFormed as
  | .adcRmImm rm imm => rm.WellFormed as && os.fits imm
  | .adcRmImm8 rm _ => rm.WellFormed as
  | .sbbRm8R8 rm _ => rm.WellFormed as
  | .sbbRmR rm _ => rm.WellFormed as
  | .sbbR8Rm8 _ rm => rm.WellFormed as
  | .sbbRRm _ rm => rm.WellFormed as
  | .sbbAlImm8 _ => true
  | .sbbEaxImm imm => os.fits imm
  | .sbbRm8Imm8 rm _ => rm.WellFormed as
  | .sbbRmImm rm imm => rm.WellFormed as && os.fits imm
  | .sbbRmImm8 rm _ => rm.WellFormed as
  | .andRm8R8 rm _ => rm.WellFormed as
  | .andRmR rm _ => rm.WellFormed as
  | .andR8Rm8 _ rm => rm.WellFormed as
  | .andRRm _ rm => rm.WellFormed as
  | .andAlImm8 _ => true
  | .andEaxImm imm => os.fits imm
  | .andRm8Imm8 rm _ => rm.WellFormed as
  | .andRmImm rm imm => rm.WellFormed as && os.fits imm
  | .andRmImm8 rm _ => rm.WellFormed as
  | .subRm8R8 rm _ => rm.WellFormed as
  | .subRmR rm _ => rm.WellFormed as
  | .subR8Rm8 _ rm => rm.WellFormed as
  | .subRRm _ rm => rm.WellFormed as
  | .subAlImm8 _ => true
  | .subEaxImm imm => os.fits imm
  | .subRm8Imm8 rm _ => rm.WellFormed as
  | .subRmImm rm imm => rm.WellFormed as && os.fits imm
  | .subRmImm8 rm _ => rm.WellFormed as
  | .xorRm8R8 rm _ => rm.WellFormed as
  | .xorRmR rm _ => rm.WellFormed as
  | .xorR8Rm8 _ rm => rm.WellFormed as
  | .xorRRm _ rm => rm.WellFormed as
  | .xorAlImm8 _ => true
  | .xorEaxImm imm => os.fits imm
  | .xorRm8Imm8 rm _ => rm.WellFormed as
  | .xorRmImm rm imm => rm.WellFormed as && os.fits imm
  | .xorRmImm8 rm _ => rm.WellFormed as
  | .cmpRm8R8 rm _ => rm.WellFormed as
  | .cmpRmR rm _ => rm.WellFormed as
  | .cmpR8Rm8 _ rm => rm.WellFormed as
  | .cmpRRm _ rm => rm.WellFormed as
  | .cmpAlImm8 _ => true
  | .cmpEaxImm imm => os.fits imm
  | .cmpRm8Imm8 rm _ => rm.WellFormed as
  | .cmpRmImm rm imm => rm.WellFormed as && os.fits imm
  | .cmpRmImm8 rm _ => rm.WellFormed as
  | .testRm8R8 rm _ => rm.WellFormed as
  | .testRmR rm _ => rm.WellFormed as
  | .testAlImm8 _ => true
  | .testEaxImm imm => os.fits imm
  | .testRm8Imm8 rm _ => rm.WellFormed as
  | .testRmImm rm imm => rm.WellFormed as && os.fits imm
  | .incR _ => true
  | .decR _ => true
  | .incRm8 rm => rm.WellFormed as
  | .incRm rm => rm.WellFormed as
  | .decRm8 rm => rm.WellFormed as
  | .decRm rm => rm.WellFormed as
  | .notRm8 rm => rm.WellFormed as
  | .notRm rm => rm.WellFormed as
  | .negRm8 rm => rm.WellFormed as
  | .negRm rm => rm.WellFormed as
  | .divRm8 rm => rm.WellFormed as
  | .divRm rm => rm.WellFormed as
  | .idivRm8 rm => rm.WellFormed as
  | .idivRm rm => rm.WellFormed as
  | .shlRm8One rm => rm.WellFormed as
  | .shlRmOne rm => rm.WellFormed as
  | .shlRm8Cl rm => rm.WellFormed as
  | .shlRmCl rm => rm.WellFormed as
  | .shlRm8Imm8 rm _ => rm.WellFormed as
  | .shlRmImm8 rm _ => rm.WellFormed as
  | .shrRm8One rm => rm.WellFormed as
  | .shrRmOne rm => rm.WellFormed as
  | .shrRm8Cl rm => rm.WellFormed as
  | .shrRmCl rm => rm.WellFormed as
  | .shrRm8Imm8 rm _ => rm.WellFormed as
  | .shrRmImm8 rm _ => rm.WellFormed as
  | .sarRm8One rm => rm.WellFormed as
  | .sarRmOne rm => rm.WellFormed as
  | .sarRm8Cl rm => rm.WellFormed as
  | .sarRmCl rm => rm.WellFormed as
  | .sarRm8Imm8 rm _ => rm.WellFormed as
  | .sarRmImm8 rm _ => rm.WellFormed as
  | .btsRmR rm _ => rm.WellFormed as
  | .btsRmImm8 rm _ => rm.WellFormed as
  | .btrRmR rm _ => rm.WellFormed as
  | .btrRmImm8 rm _ => rm.WellFormed as
  | .btcRmR rm _ => rm.WellFormed as
  | .btcRmImm8 rm _ => rm.WellFormed as
  | .cld => true
  | .std => true
  | .movsb => true
  | .movsv => true
  | .rep => true
  | .jmpRel8 _ => true
  | .jmpRel rel => os.fits rel
  | .jmpRm rm => rm.WellFormed as
  | .jccRel8 _ _ => true
  | .jccRel _ rel => os.fits rel
  | .callRel rel => os.fits rel
  | .callRm rm => rm.WellFormed as
  | .ret => true
  | .retImm16 _ => true
  | .segEs => true
  | .segCs => true
  | .segSs => true
  | .segDs => true
  | .segFs => true
  | .segGs => true
  | .opSize => true
  | .addrSize => true
  | .repne => true

end Sys2Proof
end

