-- ==== Sys2Proof/Decode.lean ====
section
/-! DEFINITION. The decoder and the encoder, written from the encoding tables of 30_encoding.md. The decoder is total:
it answers an instruction with its length, or that it needs more bytes, or rejects by name. A prefix byte decodes to its
own instruction (log 9); `os` and `as` are the sizes in force at the byte (30 R107). -/

namespace Sys2Proof

/-! ### Register and field numbers (30 R112) -/

def Reg.num : Reg → BitVec 3
  | .eax => 0 | .ecx => 1 | .edx => 2 | .ebx => 3 | .esp => 4 | .ebp => 5 | .esi => 6 | .edi => 7

def Reg.ofNum (n : BitVec 3) : Reg :=
  if n = 0 then .eax else if n = 1 then .ecx else if n = 2 then .edx else if n = 3 then .ebx
  else if n = 4 then .esp else if n = 5 then .ebp else if n = 6 then .esi else .edi

def Reg8.num : Reg8 → BitVec 3
  | .al => 0 | .cl => 1 | .dl => 2 | .bl => 3 | .ah => 4 | .ch => 5 | .dh => 6 | .bh => 7

def Reg8.ofNum (n : BitVec 3) : Reg8 :=
  if n = 0 then .al else if n = 1 then .cl else if n = 2 then .dl else if n = 3 then .bl
  else if n = 4 then .ah else if n = 5 then .ch else if n = 6 then .dh else .bh

def Base16.num : Base16 → BitVec 3
  | .bxSi => 0 | .bxDi => 1 | .bpSi => 2 | .bpDi => 3 | .si => 4 | .di => 5 | .bp => 6 | .bx => 7

def Base16.ofNum (n : BitVec 3) : Base16 :=
  if n = 0 then .bxSi else if n = 1 then .bxDi else if n = 2 then .bpSi else if n = 3 then .bpDi
  else if n = 4 then .si else if n = 5 then .di else if n = 6 then .bp else .bx

def Cond.num : Cond → BitVec 4
  | .o => 0 | .no => 1 | .b => 2 | .nb => 3 | .z => 4 | .nz => 5 | .be => 6 | .nbe => 7
  | .s => 8 | .ns => 9 | .p => 10 | .np => 11 | .l => 12 | .nl => 13 | .le => 14 | .nle => 15

def Cond.ofNum (n : BitVec 4) : Cond :=
  if n = 0 then .o else if n = 1 then .no else if n = 2 then .b else if n = 3 then .nb
  else if n = 4 then .z else if n = 5 then .nz else if n = 6 then .be else if n = 7 then .nbe
  else if n = 8 then .s else if n = 9 then .ns else if n = 10 then .p else if n = 11 then .np
  else if n = 12 then .l else if n = 13 then .nl else if n = 14 then .le else .nle

/-! ### Reading bytes -/

/-- What the decoder reads at an opcode: an instruction with the bytes after it, a wish for more bytes, an opcode that
the spec gives no rule (30 R117, R118 "outside", by its mnemonic), or one that it does not assign ("refuse"). -/
inductive Parse where
  | got (i : Instr) (rest : List Byte)
  | more
  | outside (mnemonic : String)
  | unassigned
  deriving DecidableEq, Repr

/-- One byte. -/
def u8 (bs : List Byte) (k : BitVec 8 → List Byte → Parse) : Parse :=
  match bs with
  | [] => .more
  | b :: t => k b t

/-- Two bytes, the low one first (20 R62). -/
def u16 (bs : List Byte) (k : BitVec 16 → List Byte → Parse) : Parse :=
  u8 bs fun lo t => u8 t fun hi t => k (hi ++ lo) t

/-- Four bytes, the low one first (20 R62). -/
def u32 (bs : List Byte) (k : BitVec 32 → List Byte → Parse) : Parse :=
  u16 bs fun lo t => u16 t fun hi t => k (hi ++ lo) t

/-- An immediate or offset of size `z`, zero-extended (30 R113). -/
def uv (z : Size) (bs : List Byte) (k : BitVec 32 → List Byte → Parse) : Parse :=
  match z with
  | .w16 => u16 bs fun v t => k (v.setWidth 32) t
  | .w32 => u32 bs k

/-- Bits 2:0, 5:3 and 7:6 of a ModR/M or SIB byte (30 R108, R110). -/
def lowBits (b : Byte) : BitVec 3 := b.extractLsb' 0 3
def midBits (b : Byte) : BitVec 3 := b.extractLsb' 3 3
def topBits (b : Byte) : BitVec 2 := b.extractLsb' 6 2

/-- The displacement and operand of a ModR/M byte with 16-bit addressing, `md` not 11 (30 R109). -/
def mem16 (md : BitVec 2) (rm : BitVec 3) (bs : List Byte) (k : Mem → List Byte → Parse) : Parse :=
  if md = 0 then
    if rm = 6 then u16 bs fun d t => k (.abs16 d) t else k (.a16 (Base16.ofNum rm) .none) bs
  else if md = 1 then u8 bs fun d t => k (.a16 (Base16.ofNum rm) (.d8 d)) t
  else u16 bs fun d t => k (.a16 (Base16.ofNum rm) (.d16 d)) t

/-- The displacement of a 32-bit memory operand, `md` not 11 (30 R110). -/
def disp32 (md : BitVec 2) (bs : List Byte) (k : Disp32 → List Byte → Parse) : Parse :=
  if md = 0 then k .none bs
  else if md = 1 then u8 bs fun d t => k (.d8 d) t
  else u32 bs fun d t => k (.d32 d) t

/-- The operand of a SIB byte (30 R110). -/
def sibOperand (md : BitVec 2) (b : Byte) (bs : List Byte) (k : Mem → List Byte → Parse) : Parse :=
  if md = 0 ∧ lowBits b = 5 then u32 bs fun d t => k (.sibAbs (topBits b) (Reg.ofNum (midBits b)) d) t
  else disp32 md bs fun d t => k (.sib (topBits b) (Reg.ofNum (midBits b)) (Reg.ofNum (lowBits b)) d) t

/-- The SIB byte, displacement and operand of a ModR/M byte with 32-bit addressing, `md` not 11 (30 R110). -/
def mem32 (md : BitVec 2) (rm : BitVec 3) (bs : List Byte) (k : Mem → List Byte → Parse) : Parse :=
  if rm = 4 then u8 bs fun b t => sibOperand md b t k
  else if md = 0 ∧ rm = 5 then u32 bs fun d t => k (.abs32 d) t
  else disp32 md bs fun d t => k (.a32 (Reg.ofNum rm) d) t

/-- A ModR/M byte and what follows it (30 R108): the `reg` field and the operand, `f` naming the register form. Where the
`reg` field selects an instruction without a rule, that is found after the SIB byte and the displacement: DEDUCED (log 40). -/
def modrm {ρ : Type} (f : BitVec 3 → ρ) (as : Size) (bs : List Byte)
    (k : BitVec 3 → RM ρ → List Byte → Parse) : Parse :=
  u8 bs fun b t =>
    if topBits b = 3 then k (midBits b) (.reg (f (lowBits b))) t
    else match as with
      | .w16 => mem16 (topBits b) (lowBits b) t fun m t => k (midBits b) (.mem m) t
      | .w32 => mem32 (topBits b) (lowBits b) t fun m t => k (midBits b) (.mem m) t

/-! ### The formats (30 R114) -/

def fmtI8 (c : BitVec 8 → Instr) (bs : List Byte) : Parse := u8 bs fun v t => .got (c v) t
def fmtI16 (c : BitVec 16 → Instr) (bs : List Byte) : Parse := u16 bs fun v t => .got (c v) t
def fmtIv (z : Size) (c : BitVec 32 → Instr) (bs : List Byte) : Parse := uv z bs fun v t => .got (c v) t
def fmtPtr (os : Size) (c : BitVec 32 → BitVec 16 → Instr) (bs : List Byte) : Parse :=
  uv os bs fun off t => u16 t fun sel t => .got (c off sel) t
def fmtMr8 (as : Size) (c : RM Reg8 → Reg8 → Instr) (bs : List Byte) : Parse :=
  modrm Reg8.ofNum as bs fun n rm t => .got (c rm (Reg8.ofNum n)) t
def fmtMr (as : Size) (c : RM Reg → Reg → Instr) (bs : List Byte) : Parse :=
  modrm Reg.ofNum as bs fun n rm t => .got (c rm (Reg.ofNum n)) t
def fmtRm8 (as : Size) (c : Reg8 → RM Reg8 → Instr) (bs : List Byte) : Parse :=
  modrm Reg8.ofNum as bs fun n rm t => .got (c (Reg8.ofNum n) rm) t
def fmtRm (as : Size) (c : Reg → RM Reg → Instr) (bs : List Byte) : Parse :=
  modrm Reg.ofNum as bs fun n rm t => .got (c (Reg.ofNum n) rm) t
def fmtNum (as : Size) (c : BitVec 3 → RM Reg → Instr) (bs : List Byte) : Parse :=
  modrm Reg.ofNum as bs fun n rm t => .got (c n rm) t
/-- `RR`: `mod` is taken as 11 whatever it is (40 R136). -/
def fmtRr (c : BitVec 3 → Reg → Instr) (bs : List Byte) : Parse :=
  u8 bs fun b t => .got (c (midBits b) (Reg.ofNum (lowBits b))) t


/-! ### Groups: the `reg` field of the ModR/M byte selects the instruction (30 R117, R118) -/

def group80 (as : Size) (bs : List Byte) : Parse :=
  modrm Reg8.ofNum as bs fun n rm t =>
    if n = 0 then fmtI8 (.addRm8Imm8 rm) t
    else if n = 1 then fmtI8 (.orRm8Imm8 rm) t
    else if n = 2 then fmtI8 (.adcRm8Imm8 rm) t
    else if n = 3 then fmtI8 (.sbbRm8Imm8 rm) t
    else if n = 4 then fmtI8 (.andRm8Imm8 rm) t
    else if n = 5 then fmtI8 (.subRm8Imm8 rm) t
    else if n = 6 then fmtI8 (.xorRm8Imm8 rm) t
    else if n = 7 then fmtI8 (.cmpRm8Imm8 rm) t
    else .unassigned

def group81 (os as : Size) (bs : List Byte) : Parse :=
  modrm Reg.ofNum as bs fun n rm t =>
    if n = 0 then fmtIv os (.addRmImm rm) t
    else if n = 1 then fmtIv os (.orRmImm rm) t
    else if n = 2 then fmtIv os (.adcRmImm rm) t
    else if n = 3 then fmtIv os (.sbbRmImm rm) t
    else if n = 4 then fmtIv os (.andRmImm rm) t
    else if n = 5 then fmtIv os (.subRmImm rm) t
    else if n = 6 then fmtIv os (.xorRmImm rm) t
    else if n = 7 then fmtIv os (.cmpRmImm rm) t
    else .unassigned

def group83 (as : Size) (bs : List Byte) : Parse :=
  modrm Reg.ofNum as bs fun n rm t =>
    if n = 0 then fmtI8 (.addRmImm8 rm) t
    else if n = 1 then fmtI8 (.orRmImm8 rm) t
    else if n = 2 then fmtI8 (.adcRmImm8 rm) t
    else if n = 3 then fmtI8 (.sbbRmImm8 rm) t
    else if n = 4 then fmtI8 (.andRmImm8 rm) t
    else if n = 5 then fmtI8 (.subRmImm8 rm) t
    else if n = 6 then fmtI8 (.xorRmImm8 rm) t
    else if n = 7 then fmtI8 (.cmpRmImm8 rm) t
    else .unassigned

def groupC0 (as : Size) (bs : List Byte) : Parse :=
  modrm Reg8.ofNum as bs fun n rm t =>
    if n = 0 then .outside "ROL"
    else if n = 1 then .outside "ROR"
    else if n = 2 then .outside "RCL"
    else if n = 3 then .outside "RCR"
    else if n = 4 then fmtI8 (.shlRm8Imm8 rm) t
    else if n = 5 then fmtI8 (.shrRm8Imm8 rm) t
    else if n = 6 then .outside "SAL"
    else if n = 7 then fmtI8 (.sarRm8Imm8 rm) t
    else .unassigned

def groupC1 (as : Size) (bs : List Byte) : Parse :=
  modrm Reg.ofNum as bs fun n rm t =>
    if n = 0 then .outside "ROL"
    else if n = 1 then .outside "ROR"
    else if n = 2 then .outside "RCL"
    else if n = 3 then .outside "RCR"
    else if n = 4 then fmtI8 (.shlRmImm8 rm) t
    else if n = 5 then fmtI8 (.shrRmImm8 rm) t
    else if n = 6 then .outside "SAL"
    else if n = 7 then fmtI8 (.sarRmImm8 rm) t
    else .unassigned

def groupC6 (as : Size) (bs : List Byte) : Parse :=
  modrm Reg8.ofNum as bs fun n rm t =>
    if n = 0 then fmtI8 (.movRm8Imm8 rm) t
    else .unassigned

def groupC7 (os as : Size) (bs : List Byte) : Parse :=
  modrm Reg.ofNum as bs fun n rm t =>
    if n = 0 then fmtIv os (.movRmImm rm) t
    else .unassigned

def groupD0 (as : Size) (bs : List Byte) : Parse :=
  modrm Reg8.ofNum as bs fun n rm t =>
    if n = 0 then .outside "ROL"
    else if n = 1 then .outside "ROR"
    else if n = 2 then .outside "RCL"
    else if n = 3 then .outside "RCR"
    else if n = 4 then .got (.shlRm8One rm) t
    else if n = 5 then .got (.shrRm8One rm) t
    else if n = 6 then .outside "SAL"
    else if n = 7 then .got (.sarRm8One rm) t
    else .unassigned

def groupD1 (as : Size) (bs : List Byte) : Parse :=
  modrm Reg.ofNum as bs fun n rm t =>
    if n = 0 then .outside "ROL"
    else if n = 1 then .outside "ROR"
    else if n = 2 then .outside "RCL"
    else if n = 3 then .outside "RCR"
    else if n = 4 then .got (.shlRmOne rm) t
    else if n = 5 then .got (.shrRmOne rm) t
    else if n = 6 then .outside "SAL"
    else if n = 7 then .got (.sarRmOne rm) t
    else .unassigned

def groupD2 (as : Size) (bs : List Byte) : Parse :=
  modrm Reg8.ofNum as bs fun n rm t =>
    if n = 0 then .outside "ROL"
    else if n = 1 then .outside "ROR"
    else if n = 2 then .outside "RCL"
    else if n = 3 then .outside "RCR"
    else if n = 4 then .got (.shlRm8Cl rm) t
    else if n = 5 then .got (.shrRm8Cl rm) t
    else if n = 6 then .outside "SAL"
    else if n = 7 then .got (.sarRm8Cl rm) t
    else .unassigned

def groupD3 (as : Size) (bs : List Byte) : Parse :=
  modrm Reg.ofNum as bs fun n rm t =>
    if n = 0 then .outside "ROL"
    else if n = 1 then .outside "ROR"
    else if n = 2 then .outside "RCL"
    else if n = 3 then .outside "RCR"
    else if n = 4 then .got (.shlRmCl rm) t
    else if n = 5 then .got (.shrRmCl rm) t
    else if n = 6 then .outside "SAL"
    else if n = 7 then .got (.sarRmCl rm) t
    else .unassigned

def groupF6 (as : Size) (bs : List Byte) : Parse :=
  modrm Reg8.ofNum as bs fun n rm t =>
    if n = 0 then fmtI8 (.testRm8Imm8 rm) t
    else if n = 2 then .got (.notRm8 rm) t
    else if n = 3 then .got (.negRm8 rm) t
    else if n = 4 then .outside "MUL"
    else if n = 5 then .outside "IMUL"
    else if n = 6 then .got (.divRm8 rm) t
    else if n = 7 then .got (.idivRm8 rm) t
    else .unassigned

def groupF7 (os as : Size) (bs : List Byte) : Parse :=
  modrm Reg.ofNum as bs fun n rm t =>
    if n = 0 then fmtIv os (.testRmImm rm) t
    else if n = 2 then .got (.notRm rm) t
    else if n = 3 then .got (.negRm rm) t
    else if n = 4 then .outside "MUL"
    else if n = 5 then .outside "IMUL"
    else if n = 6 then .got (.divRm rm) t
    else if n = 7 then .got (.idivRm rm) t
    else .unassigned

def groupFE (as : Size) (bs : List Byte) : Parse :=
  modrm Reg8.ofNum as bs fun n rm t =>
    if n = 0 then .got (.incRm8 rm) t
    else if n = 1 then .got (.decRm8 rm) t
    else .unassigned

def groupFF (as : Size) (bs : List Byte) : Parse :=
  modrm Reg.ofNum as bs fun n rm t =>
    if n = 0 then .got (.incRm rm) t
    else if n = 1 then .got (.decRm rm) t
    else if n = 2 then .got (.callRm rm) t
    else if n = 3 then .got (.callFarM rm) t
    else if n = 4 then .got (.jmpRm rm) t
    else if n = 5 then .got (.jmpFarM rm) t
    else if n = 6 then .outside "PUSH"
    else .unassigned

def group0F00 (as : Size) (bs : List Byte) : Parse :=
  modrm Reg.ofNum as bs fun n rm t =>
    if n = 0 then .got (.sldt rm) t
    else if n = 1 then .got (.str rm) t
    else if n = 2 then .got (.lldt rm) t
    else if n = 3 then .got (.ltr rm) t
    else if n = 4 then .got (.verr rm) t
    else if n = 5 then .got (.verw rm) t
    else .unassigned

def group0F01 (as : Size) (bs : List Byte) : Parse :=
  modrm Reg.ofNum as bs fun n rm t =>
    if n = 0 then .got (.sgdt rm) t
    else if n = 1 then .got (.sidt rm) t
    else if n = 2 then .got (.lgdt rm) t
    else if n = 3 then .got (.lidt rm) t
    else if n = 4 then .got (.smsw rm) t
    else if n = 6 then .got (.lmsw rm) t
    else .unassigned

def group0FBA (as : Size) (bs : List Byte) : Parse :=
  modrm Reg.ofNum as bs fun n rm t =>
    if n = 4 then .outside "BT"
    else if n = 5 then fmtI8 (.btsRmImm8 rm) t
    else if n = 6 then fmtI8 (.btrRmImm8 rm) t
    else if n = 7 then fmtI8 (.btcRmImm8 rm) t
    else .unassigned

/-! ### The opcode maps -/

/-- Two-byte opcodes, `b` the byte after 0FH (30 R118). -/
def opcode2 (os as : Size) (b : Byte) (t : List Byte) : Parse :=
  if b.extractLsb' 4 4 = 8 then fmtIv os (.jccRel (Cond.ofNum (b.extractLsb' 0 4))) t
  else match b.toNat with
  | 0x00 => group0F00 as t
  | 0x01 => group0F01 as t
  | 0x02 => fmtRm as .lar t
  | 0x03 => fmtRm as .lsl t
  | 0x06 => .got .clts t
  | 0x20 => fmtRr (fun n r => .movRCr r n) t
  | 0x21 => fmtRr (fun n r => .movRDr r n) t
  | 0x22 => fmtRr .movCrR t
  | 0x23 => fmtRr .movDrR t
  | 0x24 => fmtRr (fun n r => .movRTr r n) t
  | 0x26 => fmtRr .movTrR t
  | 0x90 => .outside "SETcc"
  | 0x91 => .outside "SETcc"
  | 0x92 => .outside "SETcc"
  | 0x93 => .outside "SETcc"
  | 0x94 => .outside "SETcc"
  | 0x95 => .outside "SETcc"
  | 0x96 => .outside "SETcc"
  | 0x97 => .outside "SETcc"
  | 0x98 => .outside "SETcc"
  | 0x99 => .outside "SETcc"
  | 0x9A => .outside "SETcc"
  | 0x9B => .outside "SETcc"
  | 0x9C => .outside "SETcc"
  | 0x9D => .outside "SETcc"
  | 0x9E => .outside "SETcc"
  | 0x9F => .outside "SETcc"
  | 0xA0 => .got .pushFs t
  | 0xA1 => .got .popFs t
  | 0xA3 => .outside "BT"
  | 0xA4 => .outside "SHLD"
  | 0xA5 => .outside "SHLD"
  | 0xA8 => .got .pushGs t
  | 0xA9 => .got .popGs t
  | 0xAB => fmtMr as .btsRmR t
  | 0xAC => .outside "SHRD"
  | 0xAD => .outside "SHRD"
  | 0xAF => .outside "IMUL"
  | 0xB2 => fmtRm as .lss t
  | 0xB3 => fmtMr as .btrRmR t
  | 0xB4 => fmtRm as .lfs t
  | 0xB5 => fmtRm as .lgs t
  | 0xB6 => .outside "MOVZX"
  | 0xB7 => .outside "MOVZX"
  | 0xBA => group0FBA as t
  | 0xBB => fmtMr as .btcRmR t
  | 0xBC => .outside "BSF"
  | 0xBD => .outside "BSR"
  | 0xBE => .outside "MOVSX"
  | 0xBF => .outside "MOVSX"
  | _ => .unassigned

/-- One-byte opcodes with a register number in bits 2:0, and the ESC opcodes (30 R114, R117): `hi` is bits 7:3. -/
def opcodeReg (os as : Size) (hi : BitVec 5) (n : BitVec 3) (t : List Byte) : Option Parse :=
  match hi.toNat with
  | 0x08 => some (.got (.incR (Reg.ofNum n)) t)
  | 0x09 => some (.got (.decR (Reg.ofNum n)) t)
  | 0x0A => some (.got (.pushR (Reg.ofNum n)) t)
  | 0x0B => some (.got (.popR (Reg.ofNum n)) t)
  | 0x12 => some (.got (if n = 0 then .nop else .xchgEaxR (Reg.ofNum n)) t)
  | 0x16 => some (fmtI8 (.movR8Imm8 (Reg8.ofNum n)) t)
  | 0x17 => some (fmtIv os (.movRImm (Reg.ofNum n)) t)
  | 0x1B => some (fmtNum as (fun reg rm => .esc n reg rm) t)
  | _ => none

/-- One-byte opcodes, `b` the opcode (30 R117) or a prefix byte (30 R106). 8FH is known at the opcode byte and is outside with
every digit, also /1 to /7, of which R117 says nothing: DESIGN CHOICE (log 40). -/
def opcode1 (os as : Size) (b : Byte) (t : List Byte) : Parse :=
  if b.extractLsb' 4 4 = 7 then fmtI8 (.jccRel8 (Cond.ofNum (b.extractLsb' 0 4))) t
  else match b.toNat with
  | 0x00 => fmtMr8 as .addRm8R8 t
  | 0x01 => fmtMr as .addRmR t
  | 0x02 => fmtRm8 as .addR8Rm8 t
  | 0x03 => fmtRm as .addRRm t
  | 0x04 => fmtI8 .addAlImm8 t
  | 0x05 => fmtIv os .addEaxImm t
  | 0x06 => .got .pushEs t
  | 0x07 => .got .popEs t
  | 0x08 => fmtMr8 as .orRm8R8 t
  | 0x09 => fmtMr as .orRmR t
  | 0x0A => fmtRm8 as .orR8Rm8 t
  | 0x0B => fmtRm as .orRRm t
  | 0x0C => fmtI8 .orAlImm8 t
  | 0x0D => fmtIv os .orEaxImm t
  | 0x0E => .got .pushCs t
  | 0x0F => u8 t fun b2 t => opcode2 os as b2 t
  | 0x10 => fmtMr8 as .adcRm8R8 t
  | 0x11 => fmtMr as .adcRmR t
  | 0x12 => fmtRm8 as .adcR8Rm8 t
  | 0x13 => fmtRm as .adcRRm t
  | 0x14 => fmtI8 .adcAlImm8 t
  | 0x15 => fmtIv os .adcEaxImm t
  | 0x16 => .got .pushSs t
  | 0x17 => .got .popSs t
  | 0x18 => fmtMr8 as .sbbRm8R8 t
  | 0x19 => fmtMr as .sbbRmR t
  | 0x1A => fmtRm8 as .sbbR8Rm8 t
  | 0x1B => fmtRm as .sbbRRm t
  | 0x1C => fmtI8 .sbbAlImm8 t
  | 0x1D => fmtIv os .sbbEaxImm t
  | 0x1E => .got .pushDs t
  | 0x1F => .got .popDs t
  | 0x20 => fmtMr8 as .andRm8R8 t
  | 0x21 => fmtMr as .andRmR t
  | 0x22 => fmtRm8 as .andR8Rm8 t
  | 0x23 => fmtRm as .andRRm t
  | 0x24 => fmtI8 .andAlImm8 t
  | 0x25 => fmtIv os .andEaxImm t
  | 0x26 => .got .segEs t
  | 0x27 => .outside "DAA"
  | 0x28 => fmtMr8 as .subRm8R8 t
  | 0x29 => fmtMr as .subRmR t
  | 0x2A => fmtRm8 as .subR8Rm8 t
  | 0x2B => fmtRm as .subRRm t
  | 0x2C => fmtI8 .subAlImm8 t
  | 0x2D => fmtIv os .subEaxImm t
  | 0x2E => .got .segCs t
  | 0x2F => .outside "DAS"
  | 0x30 => fmtMr8 as .xorRm8R8 t
  | 0x31 => fmtMr as .xorRmR t
  | 0x32 => fmtRm8 as .xorR8Rm8 t
  | 0x33 => fmtRm as .xorRRm t
  | 0x34 => fmtI8 .xorAlImm8 t
  | 0x35 => fmtIv os .xorEaxImm t
  | 0x36 => .got .segSs t
  | 0x37 => .outside "AAA"
  | 0x38 => fmtMr8 as .cmpRm8R8 t
  | 0x39 => fmtMr as .cmpRmR t
  | 0x3A => fmtRm8 as .cmpR8Rm8 t
  | 0x3B => fmtRm as .cmpRRm t
  | 0x3C => fmtI8 .cmpAlImm8 t
  | 0x3D => fmtIv os .cmpEaxImm t
  | 0x3E => .got .segDs t
  | 0x3F => .outside "AAS"
  | 0x60 => .outside "PUSHA"
  | 0x61 => .outside "POPA"
  | 0x62 => fmtRm as .bound t
  | 0x63 => fmtMr as .arpl t
  | 0x64 => .got .segFs t
  | 0x65 => .got .segGs t
  | 0x66 => .got .opSize t
  | 0x67 => .got .addrSize t
  | 0x68 => .outside "PUSH"
  | 0x69 => .outside "IMUL"
  | 0x6A => .outside "PUSH"
  | 0x6B => .outside "IMUL"
  | 0x6C => .got .insb t
  | 0x6D => .got .insv t
  | 0x6E => .got .outsb t
  | 0x6F => .got .outsv t
  | 0x80 => group80 as t
  | 0x81 => group81 os as t
  | 0x83 => group83 as t
  | 0x84 => fmtMr8 as .testRm8R8 t
  | 0x85 => fmtMr as .testRmR t
  | 0x86 => fmtMr8 as .xchgRm8R8 t
  | 0x87 => fmtMr as .xchgRmR t
  | 0x88 => fmtMr8 as .movRm8R8 t
  | 0x89 => fmtMr as .movRmR t
  | 0x8A => fmtRm8 as .movR8Rm8 t
  | 0x8B => fmtRm as .movRRm t
  | 0x8C => fmtNum as (fun n rm => .movRmSreg rm n) t
  | 0x8D => .outside "LEA"
  | 0x8E => fmtNum as .movSregRm t
  | 0x8F => .outside "POP"
  | 0x90 => .got .nop t
  | 0x98 => .outside "CBW"
  | 0x99 => .outside "CWD"
  | 0x9A => fmtPtr os .callPtr t
  | 0x9B => .got .wait t
  | 0x9C => .got .pushf t
  | 0x9D => .got .popf t
  | 0x9E => .outside "SAHF"
  | 0x9F => .outside "LAHF"
  | 0xA0 => fmtIv as .movAlMoffs t
  | 0xA1 => fmtIv as .movEaxMoffs t
  | 0xA2 => fmtIv as .movMoffsAl t
  | 0xA3 => fmtIv as .movMoffsEax t
  | 0xA4 => .got .movsb t
  | 0xA5 => .got .movsv t
  | 0xA6 => .outside "CMPS"
  | 0xA7 => .outside "CMPS"
  | 0xA8 => fmtI8 .testAlImm8 t
  | 0xA9 => fmtIv os .testEaxImm t
  | 0xAA => .outside "STOS"
  | 0xAB => .outside "STOS"
  | 0xAC => .outside "LODS"
  | 0xAD => .outside "LODS"
  | 0xAE => .outside "SCAS"
  | 0xAF => .outside "SCAS"
  | 0xC0 => groupC0 as t
  | 0xC1 => groupC1 as t
  | 0xC2 => fmtI16 .retImm16 t
  | 0xC3 => .got .ret t
  | 0xC4 => fmtRm as .les t
  | 0xC5 => fmtRm as .lds t
  | 0xC6 => groupC6 as t
  | 0xC7 => groupC7 os as t
  | 0xC8 => .outside "ENTER"
  | 0xC9 => .outside "LEAVE"
  | 0xCA => fmtI16 .retfImm16 t
  | 0xCB => .got .retf t
  | 0xCC => .got .int3 t
  | 0xCD => fmtI8 .intImm8 t
  | 0xCE => .got .into t
  | 0xCF => .got .iret t
  | 0xD0 => groupD0 as t
  | 0xD1 => groupD1 as t
  | 0xD2 => groupD2 as t
  | 0xD3 => groupD3 as t
  | 0xD4 => .outside "AAM"
  | 0xD5 => .outside "AAD"
  | 0xD7 => .outside "XLAT"
  | 0xE0 => .outside "LOOPNE"
  | 0xE1 => .outside "LOOPE"
  | 0xE2 => .outside "LOOP"
  | 0xE3 => .outside "JCXZ"
  | 0xE4 => fmtI8 .inAlImm8 t
  | 0xE5 => fmtI8 .inEaxImm8 t
  | 0xE6 => fmtI8 .outImm8Al t
  | 0xE7 => fmtI8 .outImm8Eax t
  | 0xE8 => fmtIv os .callRel t
  | 0xE9 => fmtIv os .jmpRel t
  | 0xEA => fmtPtr os .jmpPtr t
  | 0xEB => fmtI8 .jmpRel8 t
  | 0xEC => .got .inAlDx t
  | 0xED => .got .inEaxDx t
  | 0xEE => .got .outDxAl t
  | 0xEF => .got .outDxEax t
  | 0xF0 => .got .lock t
  | 0xF2 => .got .repne t
  | 0xF3 => .got .rep t
  | 0xF4 => .got .hlt t
  | 0xF5 => .outside "CMC"
  | 0xF6 => groupF6 as t
  | 0xF7 => groupF7 os as t
  | 0xF8 => .outside "CLC"
  | 0xF9 => .outside "STC"
  | 0xFA => .got .cli t
  | 0xFB => .got .sti t
  | 0xFC => .got .cld t
  | 0xFD => .got .std t
  | 0xFE => groupFE as t
  | 0xFF => groupFF as t
  | _ => .unassigned

/-- The instruction or prefix at the front of `bs`. -/
def parse (os as : Size) (bs : List Byte) : Parse :=
  u8 bs fun b t => (opcodeReg os as (b.extractLsb' 3 5) (b.extractLsb' 0 3) t).getD (opcode1 os as b t)

/-- What the decoder answers. -/
inductive Decoded where
  /-- an instruction and its length in bytes -/
  | ok (i : Instr) (len : Nat)
  /-- the bytes given are the front of an instruction -/
  | more
  /-- an 80386 instruction that the spec gives no rule (30 R117, R118) -/
  | outside (mnemonic : String)
  /-- an opcode value the spec does not assign (30 R117, R118) -/
  | unassigned
  deriving DecidableEq, Repr

/-- The decoder: total on any bytes (30 R115). -/
def decode (os as : Size) (bs : List Byte) : Decoded :=
  match parse os as bs with
  | .got i rest => .ok i (bs.length - rest.length)
  | .more => .more
  | .outside m => .outside m
  | .unassigned => .unassigned

/-- The bytes of the value `w`, the low byte first: byte i is bits 8i+7 to 8i. -/
def leBytes (w : Nat) : Nat → List Byte
  | 0 => []
  | n + 1 => BitVec.ofNat 8 w :: leBytes (w / 256) n

/-- The instruction the decoder reads in real-address mode (operand and address size 16) from bytes whose bits are `w`
as the opcode table numbers them; the table numbers bytes in instruction order, and bytes above `nbits` are zero. -/
def decodeTableWord (nbits w : Nat) : Option Instr :=
  match decode .w16 .w16 (leBytes (w % 2 ^ nbits) 15) with
  | .ok i _ => some i
  | _ => none

/-! ### The encoder -/

/-- Two bytes, low first. -/
def enc16 (v : BitVec 16) : List Byte := [v.extractLsb' 0 8, v.extractLsb' 8 8]

/-- Four bytes, low first. -/
def enc32 (v : BitVec 32) : List Byte := enc16 (v.extractLsb' 0 16) ++ enc16 (v.extractLsb' 16 16)

/-- A value of size `z`. -/
def encv (z : Size) (v : BitVec 32) : List Byte :=
  match z with
  | .w16 => enc16 (v.extractLsb' 0 16)
  | .w32 => enc32 v

/-- A ModR/M or SIB byte. -/
def pack (md : BitVec 2) (reg rm : BitVec 3) : Byte := md ++ reg ++ rm

def encDisp32 (reg rm : BitVec 3) (sib : List Byte) : Disp32 → List Byte
  | .none => pack 0 reg rm :: sib
  | .d8 d => pack 1 reg rm :: (sib ++ [d])
  | .d32 d => pack 2 reg rm :: (sib ++ enc32 d)

/-- ModR/M, SIB and displacement of a memory operand (30 R109, R110). -/
def encMem (reg : BitVec 3) : Mem → List Byte
  | .a16 b .none => [pack 0 reg b.num]
  | .a16 b (.d8 d) => [pack 1 reg b.num, d]
  | .a16 b (.d16 d) => pack 2 reg b.num :: enc16 d
  | .abs16 d => pack 0 reg 6 :: enc16 d
  | .a32 b d => encDisp32 reg b.num [] d
  | .abs32 d => pack 0 reg 5 :: enc32 d
  | .sib sc ix b d => encDisp32 reg 4 [pack sc ix.num b.num] d
  | .sibAbs sc ix d => pack 0 reg 4 :: pack sc ix.num 5 :: enc32 d

/-- ModR/M and what follows it. -/
def encRm {ρ : Type} (f : ρ → BitVec 3) (reg : BitVec 3) : RM ρ → List Byte
  | .reg r => [pack 3 reg (f r)]
  | .mem m => encMem reg m

/-- The bytes of a well-formed instruction (30 R105, R114, R117, R118). -/
def encode (os as : Size) : Instr → List Byte
  | .sgdt rm => 0x0F#8 :: 0x01#8 :: encRm Reg.num 0 rm
  | .sidt rm => 0x0F#8 :: 0x01#8 :: encRm Reg.num 1 rm
  | .lgdt rm => 0x0F#8 :: 0x01#8 :: encRm Reg.num 2 rm
  | .lidt rm => 0x0F#8 :: 0x01#8 :: encRm Reg.num 3 rm
  | .smsw rm => 0x0F#8 :: 0x01#8 :: encRm Reg.num 4 rm
  | .lmsw rm => 0x0F#8 :: 0x01#8 :: encRm Reg.num 6 rm
  | .sldt rm => 0x0F#8 :: 0x00#8 :: encRm Reg.num 0 rm
  | .str rm => 0x0F#8 :: 0x00#8 :: encRm Reg.num 1 rm
  | .lldt rm => 0x0F#8 :: 0x00#8 :: encRm Reg.num 2 rm
  | .ltr rm => 0x0F#8 :: 0x00#8 :: encRm Reg.num 3 rm
  | .verr rm => 0x0F#8 :: 0x00#8 :: encRm Reg.num 4 rm
  | .verw rm => 0x0F#8 :: 0x00#8 :: encRm Reg.num 5 rm
  | .clts => [0x0F#8, 0x06#8]
  | .movRCr r n => [0x0F#8, 0x20#8, pack 3 n r.num]
  | .movRDr r n => [0x0F#8, 0x21#8, pack 3 n r.num]
  | .movCrR n r => [0x0F#8, 0x22#8, pack 3 n r.num]
  | .movDrR n r => [0x0F#8, 0x23#8, pack 3 n r.num]
  | .movRTr r n => [0x0F#8, 0x24#8, pack 3 n r.num]
  | .movTrR n r => [0x0F#8, 0x26#8, pack 3 n r.num]
  | .hlt => [0xF4#8]
  | .lar r rm => 0x0F#8 :: 0x02#8 :: encRm Reg.num r.num rm
  | .lsl r rm => 0x0F#8 :: 0x03#8 :: encRm Reg.num r.num rm
  | .arpl rm r => 0x63#8 :: encRm Reg.num r.num rm
  | .movSregRm n rm => 0x8E#8 :: encRm Reg.num n rm
  | .movRmSreg rm n => 0x8C#8 :: encRm Reg.num n rm
  | .pushEs => [0x06#8]
  | .pushCs => [0x0E#8]
  | .pushSs => [0x16#8]
  | .pushDs => [0x1E#8]
  | .pushFs => [0x0F#8, 0xA0#8]
  | .pushGs => [0x0F#8, 0xA8#8]
  | .popEs => [0x07#8]
  | .popSs => [0x17#8]
  | .popDs => [0x1F#8]
  | .popFs => [0x0F#8, 0xA1#8]
  | .popGs => [0x0F#8, 0xA9#8]
  | .les r rm => 0xC4#8 :: encRm Reg.num r.num rm
  | .lds r rm => 0xC5#8 :: encRm Reg.num r.num rm
  | .lss r rm => 0x0F#8 :: 0xB2#8 :: encRm Reg.num r.num rm
  | .lfs r rm => 0x0F#8 :: 0xB4#8 :: encRm Reg.num r.num rm
  | .lgs r rm => 0x0F#8 :: 0xB5#8 :: encRm Reg.num r.num rm
  | .jmpPtr off sel => 0xEA#8 :: (encv os off ++ enc16 sel)
  | .jmpFarM rm => 0xFF#8 :: encRm Reg.num 5 rm
  | .callPtr off sel => 0x9A#8 :: (encv os off ++ enc16 sel)
  | .callFarM rm => 0xFF#8 :: encRm Reg.num 3 rm
  | .retf => [0xCB#8]
  | .retfImm16 imm => 0xCA#8 :: enc16 imm
  | .inAlImm8 imm => [0xE4#8, imm]
  | .inEaxImm8 imm => [0xE5#8, imm]
  | .inAlDx => [0xEC#8]
  | .inEaxDx => [0xED#8]
  | .outImm8Al imm => [0xE6#8, imm]
  | .outImm8Eax imm => [0xE7#8, imm]
  | .outDxAl => [0xEE#8]
  | .outDxEax => [0xEF#8]
  | .insb => [0x6C#8]
  | .insv => [0x6D#8]
  | .outsb => [0x6E#8]
  | .outsv => [0x6F#8]
  | .cli => [0xFA#8]
  | .sti => [0xFB#8]
  | .pushf => [0x9C#8]
  | .popf => [0x9D#8]
  | .intImm8 imm => [0xCD#8, imm]
  | .int3 => [0xCC#8]
  | .into => [0xCE#8]
  | .bound r rm => 0x62#8 :: encRm Reg.num r.num rm
  | .iret => [0xCF#8]
  | .esc opc reg rm => (0xD8#8 ||| opc.setWidth 8) :: encRm Reg.num reg rm
  | .wait => [0x9B#8]
  | .lock => [0xF0#8]
  | .xchgRm8R8 rm r => 0x86#8 :: encRm Reg8.num r.num rm
  | .xchgRmR rm r => 0x87#8 :: encRm Reg.num r.num rm
  | .xchgEaxR r => [0x90#8 ||| r.num.setWidth 8]
  | .nop => [0x90#8]
  | .movRm8R8 rm r => 0x88#8 :: encRm Reg8.num r.num rm
  | .movRmR rm r => 0x89#8 :: encRm Reg.num r.num rm
  | .movR8Rm8 r rm => 0x8A#8 :: encRm Reg8.num r.num rm
  | .movRRm r rm => 0x8B#8 :: encRm Reg.num r.num rm
  | .movR8Imm8 r imm => [0xB0#8 ||| r.num.setWidth 8, imm]
  | .movRImm r imm => (0xB8#8 ||| r.num.setWidth 8) :: encv os imm
  | .movRm8Imm8 rm imm => 0xC6#8 :: (encRm Reg8.num 0 rm ++ [imm])
  | .movRmImm rm imm => 0xC7#8 :: (encRm Reg.num 0 rm ++ encv os imm)
  | .movAlMoffs off => 0xA0#8 :: encv as off
  | .movEaxMoffs off => 0xA1#8 :: encv as off
  | .movMoffsAl off => 0xA2#8 :: encv as off
  | .movMoffsEax off => 0xA3#8 :: encv as off
  | .pushR r => [0x50#8 ||| r.num.setWidth 8]
  | .popR r => [0x58#8 ||| r.num.setWidth 8]
  | .addRm8R8 rm r => 0x00#8 :: encRm Reg8.num r.num rm
  | .addRmR rm r => 0x01#8 :: encRm Reg.num r.num rm
  | .addR8Rm8 r rm => 0x02#8 :: encRm Reg8.num r.num rm
  | .addRRm r rm => 0x03#8 :: encRm Reg.num r.num rm
  | .addAlImm8 imm => [0x04#8, imm]
  | .addEaxImm imm => 0x05#8 :: encv os imm
  | .addRm8Imm8 rm imm => 0x80#8 :: (encRm Reg8.num 0 rm ++ [imm])
  | .addRmImm rm imm => 0x81#8 :: (encRm Reg.num 0 rm ++ encv os imm)
  | .addRmImm8 rm imm => 0x83#8 :: (encRm Reg.num 0 rm ++ [imm])
  | .orRm8R8 rm r => 0x08#8 :: encRm Reg8.num r.num rm
  | .orRmR rm r => 0x09#8 :: encRm Reg.num r.num rm
  | .orR8Rm8 r rm => 0x0A#8 :: encRm Reg8.num r.num rm
  | .orRRm r rm => 0x0B#8 :: encRm Reg.num r.num rm
  | .orAlImm8 imm => [0x0C#8, imm]
  | .orEaxImm imm => 0x0D#8 :: encv os imm
  | .orRm8Imm8 rm imm => 0x80#8 :: (encRm Reg8.num 1 rm ++ [imm])
  | .orRmImm rm imm => 0x81#8 :: (encRm Reg.num 1 rm ++ encv os imm)
  | .orRmImm8 rm imm => 0x83#8 :: (encRm Reg.num 1 rm ++ [imm])
  | .adcRm8R8 rm r => 0x10#8 :: encRm Reg8.num r.num rm
  | .adcRmR rm r => 0x11#8 :: encRm Reg.num r.num rm
  | .adcR8Rm8 r rm => 0x12#8 :: encRm Reg8.num r.num rm
  | .adcRRm r rm => 0x13#8 :: encRm Reg.num r.num rm
  | .adcAlImm8 imm => [0x14#8, imm]
  | .adcEaxImm imm => 0x15#8 :: encv os imm
  | .adcRm8Imm8 rm imm => 0x80#8 :: (encRm Reg8.num 2 rm ++ [imm])
  | .adcRmImm rm imm => 0x81#8 :: (encRm Reg.num 2 rm ++ encv os imm)
  | .adcRmImm8 rm imm => 0x83#8 :: (encRm Reg.num 2 rm ++ [imm])
  | .sbbRm8R8 rm r => 0x18#8 :: encRm Reg8.num r.num rm
  | .sbbRmR rm r => 0x19#8 :: encRm Reg.num r.num rm
  | .sbbR8Rm8 r rm => 0x1A#8 :: encRm Reg8.num r.num rm
  | .sbbRRm r rm => 0x1B#8 :: encRm Reg.num r.num rm
  | .sbbAlImm8 imm => [0x1C#8, imm]
  | .sbbEaxImm imm => 0x1D#8 :: encv os imm
  | .sbbRm8Imm8 rm imm => 0x80#8 :: (encRm Reg8.num 3 rm ++ [imm])
  | .sbbRmImm rm imm => 0x81#8 :: (encRm Reg.num 3 rm ++ encv os imm)
  | .sbbRmImm8 rm imm => 0x83#8 :: (encRm Reg.num 3 rm ++ [imm])
  | .andRm8R8 rm r => 0x20#8 :: encRm Reg8.num r.num rm
  | .andRmR rm r => 0x21#8 :: encRm Reg.num r.num rm
  | .andR8Rm8 r rm => 0x22#8 :: encRm Reg8.num r.num rm
  | .andRRm r rm => 0x23#8 :: encRm Reg.num r.num rm
  | .andAlImm8 imm => [0x24#8, imm]
  | .andEaxImm imm => 0x25#8 :: encv os imm
  | .andRm8Imm8 rm imm => 0x80#8 :: (encRm Reg8.num 4 rm ++ [imm])
  | .andRmImm rm imm => 0x81#8 :: (encRm Reg.num 4 rm ++ encv os imm)
  | .andRmImm8 rm imm => 0x83#8 :: (encRm Reg.num 4 rm ++ [imm])
  | .subRm8R8 rm r => 0x28#8 :: encRm Reg8.num r.num rm
  | .subRmR rm r => 0x29#8 :: encRm Reg.num r.num rm
  | .subR8Rm8 r rm => 0x2A#8 :: encRm Reg8.num r.num rm
  | .subRRm r rm => 0x2B#8 :: encRm Reg.num r.num rm
  | .subAlImm8 imm => [0x2C#8, imm]
  | .subEaxImm imm => 0x2D#8 :: encv os imm
  | .subRm8Imm8 rm imm => 0x80#8 :: (encRm Reg8.num 5 rm ++ [imm])
  | .subRmImm rm imm => 0x81#8 :: (encRm Reg.num 5 rm ++ encv os imm)
  | .subRmImm8 rm imm => 0x83#8 :: (encRm Reg.num 5 rm ++ [imm])
  | .xorRm8R8 rm r => 0x30#8 :: encRm Reg8.num r.num rm
  | .xorRmR rm r => 0x31#8 :: encRm Reg.num r.num rm
  | .xorR8Rm8 r rm => 0x32#8 :: encRm Reg8.num r.num rm
  | .xorRRm r rm => 0x33#8 :: encRm Reg.num r.num rm
  | .xorAlImm8 imm => [0x34#8, imm]
  | .xorEaxImm imm => 0x35#8 :: encv os imm
  | .xorRm8Imm8 rm imm => 0x80#8 :: (encRm Reg8.num 6 rm ++ [imm])
  | .xorRmImm rm imm => 0x81#8 :: (encRm Reg.num 6 rm ++ encv os imm)
  | .xorRmImm8 rm imm => 0x83#8 :: (encRm Reg.num 6 rm ++ [imm])
  | .cmpRm8R8 rm r => 0x38#8 :: encRm Reg8.num r.num rm
  | .cmpRmR rm r => 0x39#8 :: encRm Reg.num r.num rm
  | .cmpR8Rm8 r rm => 0x3A#8 :: encRm Reg8.num r.num rm
  | .cmpRRm r rm => 0x3B#8 :: encRm Reg.num r.num rm
  | .cmpAlImm8 imm => [0x3C#8, imm]
  | .cmpEaxImm imm => 0x3D#8 :: encv os imm
  | .cmpRm8Imm8 rm imm => 0x80#8 :: (encRm Reg8.num 7 rm ++ [imm])
  | .cmpRmImm rm imm => 0x81#8 :: (encRm Reg.num 7 rm ++ encv os imm)
  | .cmpRmImm8 rm imm => 0x83#8 :: (encRm Reg.num 7 rm ++ [imm])
  | .testRm8R8 rm r => 0x84#8 :: encRm Reg8.num r.num rm
  | .testRmR rm r => 0x85#8 :: encRm Reg.num r.num rm
  | .testAlImm8 imm => [0xA8#8, imm]
  | .testEaxImm imm => 0xA9#8 :: encv os imm
  | .testRm8Imm8 rm imm => 0xF6#8 :: (encRm Reg8.num 0 rm ++ [imm])
  | .testRmImm rm imm => 0xF7#8 :: (encRm Reg.num 0 rm ++ encv os imm)
  | .incR r => [0x40#8 ||| r.num.setWidth 8]
  | .decR r => [0x48#8 ||| r.num.setWidth 8]
  | .incRm8 rm => 0xFE#8 :: encRm Reg8.num 0 rm
  | .incRm rm => 0xFF#8 :: encRm Reg.num 0 rm
  | .decRm8 rm => 0xFE#8 :: encRm Reg8.num 1 rm
  | .decRm rm => 0xFF#8 :: encRm Reg.num 1 rm
  | .notRm8 rm => 0xF6#8 :: encRm Reg8.num 2 rm
  | .notRm rm => 0xF7#8 :: encRm Reg.num 2 rm
  | .negRm8 rm => 0xF6#8 :: encRm Reg8.num 3 rm
  | .negRm rm => 0xF7#8 :: encRm Reg.num 3 rm
  | .divRm8 rm => 0xF6#8 :: encRm Reg8.num 6 rm
  | .divRm rm => 0xF7#8 :: encRm Reg.num 6 rm
  | .idivRm8 rm => 0xF6#8 :: encRm Reg8.num 7 rm
  | .idivRm rm => 0xF7#8 :: encRm Reg.num 7 rm
  | .shlRm8One rm => 0xD0#8 :: encRm Reg8.num 4 rm
  | .shlRmOne rm => 0xD1#8 :: encRm Reg.num 4 rm
  | .shlRm8Cl rm => 0xD2#8 :: encRm Reg8.num 4 rm
  | .shlRmCl rm => 0xD3#8 :: encRm Reg.num 4 rm
  | .shlRm8Imm8 rm imm => 0xC0#8 :: (encRm Reg8.num 4 rm ++ [imm])
  | .shlRmImm8 rm imm => 0xC1#8 :: (encRm Reg.num 4 rm ++ [imm])
  | .shrRm8One rm => 0xD0#8 :: encRm Reg8.num 5 rm
  | .shrRmOne rm => 0xD1#8 :: encRm Reg.num 5 rm
  | .shrRm8Cl rm => 0xD2#8 :: encRm Reg8.num 5 rm
  | .shrRmCl rm => 0xD3#8 :: encRm Reg.num 5 rm
  | .shrRm8Imm8 rm imm => 0xC0#8 :: (encRm Reg8.num 5 rm ++ [imm])
  | .shrRmImm8 rm imm => 0xC1#8 :: (encRm Reg.num 5 rm ++ [imm])
  | .sarRm8One rm => 0xD0#8 :: encRm Reg8.num 7 rm
  | .sarRmOne rm => 0xD1#8 :: encRm Reg.num 7 rm
  | .sarRm8Cl rm => 0xD2#8 :: encRm Reg8.num 7 rm
  | .sarRmCl rm => 0xD3#8 :: encRm Reg.num 7 rm
  | .sarRm8Imm8 rm imm => 0xC0#8 :: (encRm Reg8.num 7 rm ++ [imm])
  | .sarRmImm8 rm imm => 0xC1#8 :: (encRm Reg.num 7 rm ++ [imm])
  | .btsRmR rm r => 0x0F#8 :: 0xAB#8 :: encRm Reg.num r.num rm
  | .btsRmImm8 rm imm => 0x0F#8 :: 0xBA#8 :: (encRm Reg.num 5 rm ++ [imm])
  | .btrRmR rm r => 0x0F#8 :: 0xB3#8 :: encRm Reg.num r.num rm
  | .btrRmImm8 rm imm => 0x0F#8 :: 0xBA#8 :: (encRm Reg.num 6 rm ++ [imm])
  | .btcRmR rm r => 0x0F#8 :: 0xBB#8 :: encRm Reg.num r.num rm
  | .btcRmImm8 rm imm => 0x0F#8 :: 0xBA#8 :: (encRm Reg.num 7 rm ++ [imm])
  | .cld => [0xFC#8]
  | .std => [0xFD#8]
  | .movsb => [0xA4#8]
  | .movsv => [0xA5#8]
  | .rep => [0xF3#8]
  | .jmpRel8 rel => [0xEB#8, rel]
  | .jmpRel rel => 0xE9#8 :: encv os rel
  | .jmpRm rm => 0xFF#8 :: encRm Reg.num 4 rm
  | .jccRel8 c rel => [0x70#8 ||| c.num.setWidth 8, rel]
  | .jccRel c rel => 0x0F#8 :: (0x80#8 ||| c.num.setWidth 8) :: encv os rel
  | .callRel rel => 0xE8#8 :: encv os rel
  | .callRm rm => 0xFF#8 :: encRm Reg.num 2 rm
  | .ret => [0xC3#8]
  | .retImm16 imm => 0xC2#8 :: enc16 imm
  | .segEs => [0x26#8]
  | .segCs => [0x2E#8]
  | .segSs => [0x36#8]
  | .segDs => [0x3E#8]
  | .segFs => [0x64#8]
  | .segGs => [0x65#8]
  | .opSize => [0x66#8]
  | .addrSize => [0x67#8]
  | .repne => [0xF2#8]

end Sys2Proof
end

