-- ==== Sys2Proof/Config.lean ====
section
/-! DEFINITION. What the manual leaves free (00 R11, 92 D3): constants without a body, so no proof can learn a value.
Each is applied to a plain counter of the state (log 6). -/

namespace Sys2Proof

/-- `draw(N)` of the spec (00 R11): an undefined value, a fresh one for each count. DESIGN CHOICE (log 6), safe. -/
opaque Config.draw : Nat → BitVec 32

/-- What a device or an I/O port answers to a read (20 R60, 45 R199, `P_IO`, `P_PHYS`), a fresh one for each count.
DESIGN CHOICE (log 6), safe. -/
opaque Config.device : Nat → BitVec 32

/-- Which of the eight entries of an associative block a linear page uses (10 R54: not stated). DESIGN CHOICE (log 12), safe. -/
opaque Config.tlbSlot : BitVec 20 → BitVec 3

end Sys2Proof
end

