-- ==== Sys2Proof/Machine/State.lean ====
section
/-! DEFINITION. The state of the machine: every piece of state of 10_state.md, the platform around it, and the model's
own bookkeeping. INVENTORY.md lists each field with its rule and reset value. -/

namespace Sys2Proof.Machine

open Sys2Proof

/-- Why the machine stops with a fault. -/
inductive Fault where
  /-- Another bus master writes at an address beyond the 32-bit physical address space (00 R7), which does not exist.
  Raised by a step whose input holds such a write. Safe: the model stops. -/
  | outsideMemory (address : Nat)
  deriving DecidableEq, Repr

/-- Why the machine stops with a refusal: what the manual gives no effect (93). Each is safe: the model stops where the
hardware does something the manual does not say. -/
inductive Refusal where
  /-- An access to a physical address where the platform has nothing (20 R60, 92 D13; U35), raised by every physical
  access. -/
  | noMemory (pa : BitVec 32)
  /-- An instruction without a meaning yet, raised by `exec`. -/
  | notModelled (mnemonic : String)
  /-- An opcode that 30 R117, R118 name but give no rule (U28), raised by the fetch. -/
  | outsideOpcode (mnemonic : String)
  /-- An opcode value the manual does not assign (U28), raised by the fetch. -/
  | unassignedOpcode
  /-- F2H before any instruction, or F3H before one that is not MOVS, INS or OUTS (U49), raised by the fetch. -/
  | repeatPrefix
  /-- CR1, CR4 to CR7 (U27), raised by MOV. -/
  | controlRegister
  /-- DR4, DR5 (U27), raised by MOV. -/
  | debugRegister
  /-- TR0 to TR5 (U27), raised by MOV. -/
  | testRegister
  /-- An ESC instruction past its entry checks (U29), raised by ESC. -/
  | coprocessor
  /-- The instruction after a change of PE is not a JMP (U30), raised by the fetch. -/
  | jumpAfterPe
  /-- The instruction after a change of PG is not a JMP and not identity-mapped (U31), raised by the fetch. -/
  | jumpAfterPg
  /-- Bytes stored since the last control transfer are executed (U33), raised by the fetch. -/
  | storedAhead
  /-- The instruction pointer passes FFFFFFFFH (U39), raised by the fetch, by completion, and by a CALL, an INT or a task switch
  that would save an offset past it. -/
  | eipWrap
  /-- A pushed operand wraps around the stack segment (U38), raised by pushes. -/
  | stackWrap
  /-- An I/O access past port FFFFH (U36), raised by IN, OUT, INS, OUTS. -/
  | portWrap
  /-- TR is needed before LTR or a task switch loaded it (U23), raised by whatever reads the TSS. -/
  | taskRegister
  /-- A descriptor of 80286 format is used (U26), raised by transfers, task switches and deliveries. -/
  | format286
  /-- EFLAGS.VM would become 1 (U25), raised by IRET and task switches. -/
  | virtual8086
  /-- A delivery through an interrupt table that was not loaded since PE changed (60 R297, 70 R342), raised by
  deliveries. -/
  | wrongModeIdt
  /-- An enabled breakpoint with an undefined R/W or LEN (10 R50, 61 R320), raised where it is evaluated. -/
  | breakpointEncoding
  /-- A TR6 lookup with an undefined attribute pair (10 R52, 40 R142), raised by MOV to TR6. -/
  | tlbAttributes
  /-- A TLB write with TR7.HT = 0 (10 R53, 40 R142), raised by MOV to TR6. -/
  | tlbHit
  /-- A TLB write or lookup that meets two entries of one tag (40 R142), raised by MOV to TR6. -/
  | tlbDuplicate
  deriving DecidableEq, Repr

/-- The general registers (10 R15). -/
structure Gpr where
  eax : BitVec 32
  ecx : BitVec 32
  edx : BitVec 32
  ebx : BitVec 32
  esp : BitVec 32
  ebp : BitVec 32
  esi : BitVec 32
  edi : BitVec 32
  deriving DecidableEq, Repr

/-- The fields of EFLAGS (10 R20). Its other bits are constant (92 D9), so the fields are the whole register. -/
structure Flags where
  cf : Bool
  pf : Bool
  af : Bool
  zf : Bool
  sf : Bool
  tf : Bool
  if_ : Bool
  df : Bool
  of : Bool
  iopl : BitVec 2
  nt : Bool
  rf : Bool
  vm : Bool
  deriving DecidableEq, Repr

/-- A segment register: the selector and the hidden part (10 R29, R30). `ec` is E of a data segment and C of a code
segment; `wr` is W of a data segment and R of a code segment. -/
structure Seg where
  selector : BitVec 16
  base : BitVec 32
  limit : BitVec 32
  present : Bool
  dpl : BitVec 2
  s : Bool
  exec : Bool
  ec : Bool
  wr : Bool
  accessed : Bool
  g : Bool
  db : Bool
  valid : Bool
  deriving DecidableEq, Repr

/-- The six segment registers (10 R29). -/
structure SegRegs where
  es : Seg
  cs : Seg
  ss : Seg
  ds : Seg
  fs : Seg
  gs : Seg
  deriving DecidableEq, Repr

/-- GDTR and IDTR (10 R32, R33). -/
structure TableReg where
  base : BitVec 32
  limit : BitVec 16
  deriving DecidableEq, Repr

/-- LDTR and TR: the selector and the hidden base and limit (10 R34, R35). `valid` = false: LDTR names no LDT; for TR it
is the spec's flag `tr_loaded`. -/
structure SysSeg where
  selector : BitVec 16
  base : BitVec 32
  limit : BitVec 32
  valid : Bool
  deriving DecidableEq, Repr

/-- The fields of CR0 (10 R37). -/
structure Cr0 where
  pe : Bool
  mp : Bool
  em : Bool
  ts : Bool
  et : Bool
  pg : Bool
  deriving DecidableEq, Repr

/-- One entry of the TLB (10 R54). `written` says that the test registers wrote it (40 R142), so that its place is known;
`block` is its associative block, of no meaning for any other entry, whose block is open (92 D15, log 13). -/
structure TlbEntry where
  page : BitVec 20
  frame : BitVec 20
  v : Bool
  d : Bool
  u : Bool
  w : Bool
  block : BitVec 2
  written : Bool
  deriving DecidableEq, Repr

/-- What event is being delivered (60 R296). -/
inductive Delivering where
  | none | benign | contributory | pageFault | double
  deriving DecidableEq, Repr

/-- A page mapping: whether pages are translated, by which directory, and what the TLB held when it ended. `first` and
`last`: how many bytes had been stored since the last control transfer when it came into force and when it ended. -/
structure PageMap where
  pg : Bool
  pdbr : BitVec 20
  tlb : List TlbEntry
  first : Nat
  last : Nat
  deriving DecidableEq, Repr

/-- A byte stored to memory: its physical address, the byte that was there before, and whether the same access had stored a
byte just before (20 R63: an aligned access is one). -/
structure Stored where
  pa : Nat
  old : Byte
  rest : Bool
  deriving DecidableEq, Repr

/-- What prefetching makes visible (20 R103, 70 R344): PE changed by the last instruction, and the default operand size
with it, PG changed by the last instruction, the earlier page mappings under which bytes may have been prefetched since the last control transfer,
the bytes stored since then (the latest first in both), and the TLB entries replaced since then. -/
structure Prefetch where
  pe : Bool
  resized : Bool
  pg : Bool
  maps : List PageMap
  stored : List Stored
  gone : List TlbEntry
  deriving DecidableEq, Repr

/-- What lies at a physical address (20 R60). -/
inductive Kind where
  | ram | rom | device | nothing
  deriving DecidableEq, Repr

/-- A range of physical addresses, `size` bytes from `base`. -/
structure Region where
  base : Nat
  size : Nat
  kind : Kind
  deriving DecidableEq, Repr

/-- What happens outside before one step (61 R333): events, pin levels from now on, writes of other bus masters. -/
structure StepInput where
  reset : Bool
  nmi : Bool
  intr : Option Byte
  busy : Bool
  error : Bool
  ice : Bool
  writes : List Host.Cell
  deriving DecidableEq, Repr

/-- One device or I/O access of the processor (20 R60, 45 R199), `n` bytes wide. -/
inductive BusEvent where
  | memRead (pa : BitVec 32) (n : Nat) (v : BitVec 32)
  | memWrite (pa : BitVec 32) (n : Nat) (v : BitVec 32)
  | ioRead (port : BitVec 16) (n : Nat) (v : BitVec 32)
  | ioWrite (port : BitVec 16) (n : Nat) (v : BitVec 32)
  deriving DecidableEq, Repr

/-- The self-test parameter (00 R8, 70 R338). A failed test leaves `v` in EAX; the parameter is nonzero, and 0 stands for
1. -/
inductive SelfTest where
  | notRequested | passed
  | failed (v : BitVec 32)
  deriving DecidableEq, Repr

/-- The coprocessor parameter (00 R8, 47 R223). -/
inductive Coproc where
  | none | i80287 | i80387
  deriving DecidableEq, Repr

/-- The CS selector after reset: 0000H or F000H (10 R57, 92 D11). -/
inductive ResetCs where
  | h0000 | hF000
  deriving DecidableEq, Repr

def ResetCs.selector : ResetCs → BitVec 16
  | .h0000 => 0x0000#16
  | .hF000 => 0xF000#16

/-- Parameters of the part and the board (00 R8). -/
structure Platform where
  stepping : Byte
  selfTest : SelfTest
  coproc : Coproc
  csSelector : ResetCs
  deriving DecidableEq, Repr

/-- The world around the processor (61 R333): the pins' levels, the inputs of the coming steps, the physical map, the
answers of devices and the free values still to be used, and the record of device accesses. -/
structure Env where
  intr : Option Byte
  busy : Bool
  error : Bool
  ice : Bool
  inputs : List StepInput
  physMap : List Region
  devIn : List (BitVec 32)
  draws : List (BitVec 32)
  drawn : Nat
  bus : List BusEvent
  platform : Platform
  deriving DecidableEq, Repr

/-- The instruction being run, as far as its prefixes go (30 R106): the model's own field, empty between steps. `len` is
the number of bytes met so far. `stale`: the queue decoded it under the default sizes from before a change of PE (70 R344). -/
structure Insn where
  lock : Bool
  rep : Bool
  repne : Bool
  seg : Option SegReg
  opSize : Bool
  addrSize : Bool
  stale : Bool
  len : Nat
  deriving DecidableEq, Repr

/-- No prefix met, no byte read. -/
def Insn.empty : Insn :=
  { lock := false, rep := false, repne := false, seg := none, opSize := false, addrSize := false, stale := false,
    len := 0 }

/-- Nothing prefetched that could be stale. -/
def Prefetch.empty : Prefetch := { pe := false, resized := false, pg := false, maps := [], stored := [], gone := [] }

/-- The whole state. `tlbWritten`: the blocks and pages of the TLB entries that the test registers wrote since reset
(40 R142). `dr6`, `pendingDbg` and `lateDbg` have the layout of DR6, `dr7`, `tr6` and `tr7` that of the
registers, with reserved bits 0 (92 D9). -/
structure State where
  gpr : Gpr
  eip : BitVec 32
  flags : Flags
  cpl : BitVec 2
  segs : SegRegs
  gdtr : TableReg
  idtr : TableReg
  ldtr : SysSeg
  tr : SysSeg
  cr0 : Cr0
  cr2 : BitVec 32
  pdbr : BitVec 20
  dr0 : BitVec 32
  dr1 : BitVec 32
  dr2 : BitVec 32
  dr3 : BitVec 32
  dr6 : BitVec 32
  dr7 : BitVec 32
  tr6 : BitVec 32
  tr7 : BitVec 32
  tlb : List TlbEntry
  tlbWritten : List (BitVec 2 × BitVec 20)
  nmiInService : Bool
  pendingNmi : Bool
  intShadow : Bool
  stiShadow : Bool
  halted : Bool
  inShutdown : Bool
  pendingDbg : BitVec 32
  lateDbg : BitVec 32
  delivering : Delivering
  idtStale : Bool
  prefetch : Prefetch
  mem : List Host.Cell
  env : Env
  insn : Insn
  deriving DecidableEq, Repr

/-- EFLAGS after reset: 00000002H (10 R57). -/
def Flags.reset : Flags :=
  { cf := false, pf := false, af := false, zf := false, sf := false, tf := false, if_ := false, df := false,
    of := false, iopl := 0, nt := false, rf := false, vm := false }

/-- A segment register in real-address mode: present, readable, writable, limit FFFFH (20 R65; 10 R57). -/
def Seg.real (selector : BitVec 16) (base : BitVec 32) : Seg :=
  { selector := selector, base := base, limit := 0xFFFF#32, present := true, dpl := 0, s := true, exec := false,
    ec := false, wr := true, accessed := true, g := false, db := false, valid := true }

/-- The segment registers after reset (10 R57): CS based at FFFF0000H, the others at 0 (log 2, log 3). -/
def SegRegs.reset (csSelector : BitVec 16) : SegRegs :=
  { es := Seg.real 0 0, cs := { Seg.real csSelector 0xFFFF0000#32 with exec := true }, ss := Seg.real 0 0,
    ds := Seg.real 0 0, fs := Seg.real 0 0, gs := Seg.real 0 0 }

/-- The platform of `State.reset`: no self-test, no coprocessor, stepping 0, CS selector F000H (log 1, log 2). -/
def Platform.default : Platform :=
  { stepping := 0, selfTest := .notRequested, coproc := .none, csSelector := .hF000 }

/-- The world of `State.reset`: all memory is RAM, no input, no recorded access (log 5, log 7). -/
def Env.default : Env :=
  { intr := none, busy := false, error := false, ice := false, inputs := [], physMap := [], devIn := [], draws := [],
    drawn := 0, bus := [], platform := Platform.default }

/-- The machine right after reset (10 R57, R58; 70 R337). Registers the manual leaves undefined hold 0: DESIGN CHOICE
(log 1), unsafe. -/
def State.reset : State where
  gpr := { eax := 0, ecx := 0, edx := 0x300#32, ebx := 0, esp := 0, ebp := 0, esi := 0, edi := 0 }
  eip := 0xFFF0#32
  flags := Flags.reset
  cpl := 0
  segs := SegRegs.reset 0xF000#16
  gdtr := { base := 0, limit := 0 }
  idtr := { base := 0, limit := 0x3FF#16 }
  ldtr := { selector := 0, base := 0, limit := 0, valid := false }
  tr := { selector := 0, base := 0, limit := 0, valid := false }
  cr0 := { pe := false, mp := false, em := false, ts := false, et := false, pg := false }
  cr2 := 0
  pdbr := 0
  dr0 := 0
  dr1 := 0
  dr2 := 0
  dr3 := 0
  dr6 := 0
  dr7 := 0
  tr6 := 0
  tr7 := 0
  tlb := []
  tlbWritten := []
  nmiInService := false
  pendingNmi := false
  intShadow := false
  stiShadow := false
  halted := false
  inShutdown := false
  pendingDbg := 0
  lateDbg := 0
  delivering := .none
  idtStale := false
  prefetch := Prefetch.empty
  mem := []
  env := Env.default
  insn := Insn.empty

end Sys2Proof.Machine
end

