-- ==== Sys2Proof/Machine/Bytes.lean ====
section
/-! DEFINITION. Bits, bytes and widths: byte order (20 R62), sign extension, the aliases of registers (10 R16), the
layouts of EFLAGS (10 R20) and CR0 (10 R37). -/

namespace Sys2Proof

/-- Bytes and bits of a size (30 R107). -/
def Size.bytes : Size → Nat
  | .w16 => 2
  | .w32 => 4

def Size.bits : Size → Nat
  | .w16 => 16
  | .w32 => 32

/-- The other size. -/
def Size.toggle : Size → Size
  | .w16 => .w32
  | .w32 => .w16

/-- A value cut to a size, zero-extended. -/
def Size.trunc (z : Size) (v : BitVec 32) : BitVec 32 :=
  match z with
  | .w16 => v &&& 0xFFFF#32
  | .w32 => v

/-- `old` with its low `z` bits replaced by those of `v` (10 R16). -/
def Size.merge (z : Size) (old v : BitVec 32) : BitVec 32 :=
  match z with
  | .w16 => old.extractLsb' 16 16 ++ v.extractLsb' 0 16
  | .w32 => v

/-- `sext_32` of a value of size `z` held zero-extended (30 R113). -/
def Size.sext (z : Size) (v : BitVec 32) : BitVec 32 :=
  match z with
  | .w16 => (v.extractLsb' 0 16).signExtend 32
  | .w32 => v

/-- Sums modulo 2^16 or 2^32: the offset arithmetic of addresses and the stack pointer (30 R109, R110; 48 R234). -/
def Size.add (z : Size) (a b : BitVec 32) : BitVec 32 := z.trunc (a + b)

/-- The register that holds an 8-bit register, and whether it is its bits 15:8 (10 R16). -/
def Reg8.home : Reg8 → Reg × Bool
  | .al => (.eax, false) | .cl => (.ecx, false) | .dl => (.edx, false) | .bl => (.ebx, false)
  | .ah => (.eax, true) | .ch => (.ecx, true) | .dh => (.edx, true) | .bh => (.ebx, true)

/-- The segment register numbered `n` (10 R29); 6 and 7 name none (30 R112). -/
def SegReg.ofNum (n : BitVec 3) : Option SegReg :=
  if n = 0 then some .es else if n = 1 then some .cs else if n = 2 then some .ss else if n = 3 then some .ds
  else if n = 4 then some .fs else if n = 5 then some .gs else none

end Sys2Proof

namespace Sys2Proof.Machine

open Sys2Proof

/-- `sext_32` of an 8-bit value (30 R113). -/
def sext8 (v : BitVec 8) : BitVec 32 := v.signExtend 32

/-- Byte `i` of a value, byte 0 the lowest (20 R62). -/
def byteOf (v : BitVec 32) (i : Nat) : Byte := v.extractLsb' (8 * i) 8

/-- The value of bytes in ascending address order (20 R62). -/
def ofBytes : List Byte → BitVec 32
  | [] => 0
  | b :: t => (ofBytes t <<< 8) ||| b.setWidth 32

/-- The low `n` bytes of a value, in ascending address order. -/
def toBytes (n : Nat) (v : BitVec 32) : List Byte := (List.range n).map (byteOf v)

/-- The low half of a doubleword. -/
def lo16 (v : BitVec 32) : BitVec 16 := v.extractLsb' 0 16

/-- The high half of a doubleword. -/
def hi16 (v : BitVec 32) : BitVec 16 := v.extractLsb' 16 16

/-- Bit `i`. -/
def bit (v : BitVec 32) (i : Nat) : Bool := v.getLsbD i

/-- A mask with bit `i` as given. -/
def bitMask (b : Bool) (i : Nat) : BitVec 32 := if b then 1#32 <<< i else 0#32

/-! ### General registers (10 R15, R16) -/

def Gpr.get (g : Gpr) : Reg → BitVec 32
  | .eax => g.eax | .ecx => g.ecx | .edx => g.edx | .ebx => g.ebx
  | .esp => g.esp | .ebp => g.ebp | .esi => g.esi | .edi => g.edi

def Gpr.set (g : Gpr) (r : Reg) (v : BitVec 32) : Gpr :=
  match r with
  | .eax => { g with eax := v } | .ecx => { g with ecx := v } | .edx => { g with edx := v }
  | .ebx => { g with ebx := v } | .esp => { g with esp := v } | .ebp => { g with ebp := v }
  | .esi => { g with esi := v } | .edi => { g with edi := v }

/-- A 32-bit register. -/
def State.reg (s : State) (r : Reg) : BitVec 32 := s.gpr.get r

def State.setReg (s : State) (r : Reg) (v : BitVec 32) : State := { s with gpr := s.gpr.set r v }

/-- A 16- or 32-bit register, zero-extended. -/
def State.regv (s : State) (z : Size) (r : Reg) : BitVec 32 := z.trunc (s.reg r)

/-- A write at size `z` leaves the bits above it (10 R16). -/
def State.setRegv (s : State) (z : Size) (r : Reg) (v : BitVec 32) : State := s.setReg r (z.merge (s.reg r) v)

/-- An 8-bit register. -/
def State.reg8 (s : State) (r : Reg8) : Byte :=
  if r.home.2 then (s.reg r.home.1).extractLsb' 8 8 else (s.reg r.home.1).extractLsb' 0 8

/-- A write of an 8-bit register leaves the other 24 bits (10 R16). -/
def State.setReg8 (s : State) (r : Reg8) (v : Byte) : State :=
  let old := s.reg r.home.1
  s.setReg r.home.1
    (if r.home.2 then old.extractLsb' 16 16 ++ v ++ old.extractLsb' 0 8 else old.extractLsb' 8 24 ++ v)

/-! ### Segment registers (10 R29) -/

def SegRegs.get (g : SegRegs) : SegReg → Seg
  | .es => g.es | .cs => g.cs | .ss => g.ss | .ds => g.ds | .fs => g.fs | .gs => g.gs

def SegRegs.set (g : SegRegs) (r : SegReg) (v : Seg) : SegRegs :=
  match r with
  | .es => { g with es := v } | .cs => { g with cs := v } | .ss => { g with ss := v }
  | .ds => { g with ds := v } | .fs => { g with fs := v } | .gs => { g with gs := v }

def State.seg (s : State) (r : SegReg) : Seg := s.segs.get r

def State.setSeg (s : State) (r : SegReg) (v : Seg) : State := { s with segs := s.segs.set r v }

/-! ### EFLAGS and CR0 -/

/-- EFLAGS as a doubleword (10 R20). -/
def Flags.toBits (f : Flags) : BitVec 32 :=
  2#32 ||| bitMask f.cf 0 ||| bitMask f.pf 2 ||| bitMask f.af 4 ||| bitMask f.zf 6 ||| bitMask f.sf 7
    ||| bitMask f.tf 8 ||| bitMask f.if_ 9 ||| bitMask f.df 10 ||| bitMask f.of 11 ||| (f.iopl.setWidth 32 <<< 12)
    ||| bitMask f.nt 14 ||| bitMask f.rf 16 ||| bitMask f.vm 17

/-- The fields of an EFLAGS image; its reserved bits are ignored (10 R20, 92 D9). -/
def Flags.ofBits (v : BitVec 32) : Flags :=
  { cf := bit v 0, pf := bit v 2, af := bit v 4, zf := bit v 6, sf := bit v 7, tf := bit v 8, if_ := bit v 9,
    df := bit v 10, of := bit v 11, iopl := v.extractLsb' 12 2, nt := bit v 14, rf := bit v 16, vm := bit v 17 }

/-- The defined bits of CR0 as a doubleword (10 R37). -/
def Cr0.toBits (c : Cr0) : BitVec 32 :=
  bitMask c.pe 0 ||| bitMask c.mp 1 ||| bitMask c.em 2 ||| bitMask c.ts 3 ||| bitMask c.et 4 ||| bitMask c.pg 31

def Cr0.ofBits (v : BitVec 32) : Cr0 :=
  { pe := bit v 0, mp := bit v 1, em := bit v 2, ts := bit v 3, et := bit v 4, pg := bit v 31 }

/-- Bits of CR0 that hold nothing (10 R37): a read gives a free value there (92 D9). -/
def cr0Reserved : BitVec 32 := 0x7FFFFFE0#32

/-- CPL as the checks see it: 0 in real-address mode (10 R31, 20 R65). -/
def State.effCpl (s : State) : BitVec 2 := if s.cr0.pe then s.cpl else 0

/-- The default operand and address size (30 R107), or the other one where the instruction was decoded before a change of
PE that changed it (70 R344; log 16). -/
def State.defaultSize (s : State) : Size := if (s.cr0.pe && s.segs.cs.db) != s.insn.stale then .w32 else .w16

/-- The operand size in force for the instruction with the prefixes met so far (30 R107). -/
def State.os (s : State) : Size := if s.insn.opSize then s.defaultSize.toggle else s.defaultSize

/-- The address size in force (30 R107). -/
def State.as (s : State) : Size := if s.insn.addrSize then s.defaultSize.toggle else s.defaultSize

/-- The stack address size (20 R82). -/
def State.stackSize (s : State) : Size := if s.segs.ss.db then .w32 else .w16

end Sys2Proof.Machine
end

