-- ==== Sys2Proof/Machine/Memory.lean ====
section
/-! DEFINITION. Physical memory as data (20 R59, R60): a list of cells in one canonical form. A byte not listed reads 0:
DESIGN CHOICE (log 4), unsafe. -/

namespace Sys2Proof.Machine

open Sys2Proof

/-- The byte at `a`: what an unlisted address reads as is 0 (log 4). -/
def Memory.read : List Host.Cell → Nat → Byte
  | [], _ => 0
  | (k, v) :: t, a => if k = a then v else Memory.read t a

/-- Store `v` at `a`, keeping the canonical form. -/
def Memory.write : List Host.Cell → Nat → Byte → List Host.Cell
  | [], a, v => if v = 0 then [] else [(a, v)]
  | (k, w) :: t, a, v =>
    if a < k then (if v = 0 then (k, w) :: t else (a, v) :: (k, w) :: t)
    else if a = k then (if v = 0 then t else (a, v) :: t)
    else (k, w) :: Memory.write t a v

/-- Cells with addresses from `lo` up, strictly rising and below 2^32, none holding 0. -/
def Memory.sorted : Nat → List Host.Cell → Bool
  | _, [] => true
  | lo, (k, v) :: t => decide (lo ≤ k) && decide (k < 2 ^ 32) && decide (v ≠ 0) && Memory.sorted (k + 1) t

/-- The canonical form. -/
def Memory.wf (m : List Host.Cell) : Bool := Memory.sorted 0 m

/-- What lies at a physical address: the first region that covers it, RAM where none does (20 R60, log 5). -/
def kindAt : List Region → Nat → Kind
  | [], _ => .ram
  | r :: t, a => if r.base ≤ a ∧ a < r.base + r.size then r.kind else kindAt t a

def State.kindAt (s : State) (pa : BitVec 32) : Kind := Machine.kindAt s.env.physMap pa.toNat

/-- The byte stored at a physical address. -/
def State.byteAt (s : State) (pa : BitVec 32) : Byte := Memory.read s.mem pa.toNat

/-- A store by an agent outside, or the last step of the processor's own store: RAM keeps it, ROM and an absent memory
do not (20 R60). -/
def State.putByte (s : State) (pa : BitVec 32) (v : Byte) : State :=
  if s.kindAt pa = .ram then { s with mem := Memory.write s.mem pa.toNat v } else s

/-- The doubleword at `pa` when it is plain memory, without any bus access. -/
def State.peek (s : State) (pa : BitVec 32) : Option (BitVec 32) :=
  let plain (i : BitVec 32) : Bool := s.kindAt (pa + i) == .ram || s.kindAt (pa + i) == .rom
  if plain 0 && plain 1 && plain 2 && plain 3 then
    some (ofBytes [s.byteAt pa, s.byteAt (pa + 1), s.byteAt (pa + 2), s.byteAt (pa + 3)])
  else none

end Sys2Proof.Machine
end

