-- ==== Sys2Proof/Machine/Work.lean ====
section
/-! DEFINITION. How a meaning is written: a sequence of reads, checks and writes over a state, which may stop with an
exception (60 R278), a fault or a refusal. -/

namespace Sys2Proof.Machine

open Sys2Proof

/-- The exceptions that a rule may raise (60 R277), with the low word of the error code (60 R295) or, for a page fault,
the linear address and code (60 R312). #BP and #OF are not raised: INT 3 and INTO deliver them (46 R217, R218). -/
inductive Exc where
  | de
  /-- the general detect fault (61 R323), with the B bits of DR6 that it reports besides BD (61 R326) -/
  | db (bits : BitVec 32)
  | br
  | ud
  | nm
  | ts (ec : BitVec 16)
  | np (ec : BitVec 16)
  | ss (ec : BitVec 16)
  | gp (ec : BitVec 16)
  | pf (la : BitVec 32) (ec : BitVec 3)
  | mf
  deriving DecidableEq, Repr

/-- Why a meaning stops before its end. -/
inductive Stop where
  | exc (e : Exc)
  | fault (f : Fault)
  | refuse (r : Refusal)
  /-- the processor shuts down (60 R296, R297; 61 R331) -/
  | shutdown
  deriving DecidableEq, Repr

/-- What a meaning carries besides the state. `sticky`: bits set in memory that an exception does not undo (60 R278).
`hitOn`, `hitOff`: enabled and disabled data breakpoints met (61 R322). `jumped`: the meaning set EIP itself. `keepRf`:
RF is not cleared at the end (61 R327). `waiting`: the instruction has not completed and runs again (47 R226).
`repeating`: one element of a REP string is done and more are to come (45 R209). `committed`: a task switch has passed
its commit point, so its effects stay (44 R195). `ext`: the EXT bit of error codes (60 R295). `quiet`: accesses are the
processor's own and meet no data breakpoint (61 R322). `taskTrap`: the event delivered is a debug exception for a task
switch (61 R325). -/
structure Work where
  s : State
  sticky : List (BitVec 32 × Byte)
  hitOn : BitVec 32
  hitOff : BitVec 32
  jumped : Bool
  keepRf : Bool
  waiting : Bool
  repeating : Bool
  committed : Bool
  ext : Bool
  quiet : Bool
  taskTrap : Bool
  deriving DecidableEq, Repr

/-- At the start of an instruction or of a delivery. -/
def Work.start (s : State) (ext : Bool) : Work :=
  { s := s, sticky := [], hitOn := 0, hitOff := 0, jumped := false, keepRf := false, waiting := false,
    repeating := false, committed := false, ext := ext, quiet := false, taskTrap := false }

/-- A part of a meaning. -/
abbrev M (α : Type) := EStateM Stop Work α

/-- The state. -/
def st : M State := fun w => .ok w.s w

/-- Change the state. -/
def upd (f : State → State) : M Unit := fun w => .ok () { w with s := f w.s }

/-- Change the bookkeeping. -/
def mark (f : Work → Work) : M Unit := fun w => .ok () (f w)

/-- Raise an exception (60 R278). -/
def raise {α : Type} (e : Exc) : M α := fun w => .error (.exc e) w

/-- Refuse. -/
def refuse {α : Type} (r : Refusal) : M α := fun w => .error (.refuse r) w

/-- Shut down. -/
def shutdown {α : Type} : M α := fun w => .error .shutdown w

/-- A machine fault. -/
def faultWith {α : Type} (f : Fault) : M α := fun w => .error (.fault f) w

/-- Go on only where the condition holds. -/
def check (c : Bool) (e : Exc) : M Unit := if c then pure () else raise e

/-- Go on only where the condition holds. -/
def need (c : Bool) (r : Refusal) : M Unit := if c then pure () else refuse r

/-- `EIP_next` (30 R113). -/
def State.nextEip (s : State) : BitVec 32 := s.eip + BitVec.ofNat 32 s.insn.len

/-- The instruction that `s` runs does not end at offset FFFFFFFFH, so EIP may move past it, and a CALL, an INT or a task switch
may save the offset after it (10 R18): EIP is not incremented past FFFFFFFFH, where 93 U39 refuses (log 17). -/
def needNext (s : State) : M Unit := need (decide (s.eip.toNat + s.insn.len < 2 ^ 32)) .eipWrap

/-- The EXT bit as a word (60 R295). -/
def extBit : M (BitVec 16) := fun w => .ok (if w.ext then 1#16 else 0#16) w

/-- `#XX(sel)`: the selector without its RPL, with EXT (60 R295). -/
def selCode (sel : BitVec 16) : M (BitVec 16) := do
  let x ← extBit
  pure ((sel &&& 0xFFFC#16) ||| x)

/-- Which exception carries a selector code. -/
inductive CodeExc where
  | ts | np | ss | gp
  deriving DecidableEq, Repr

def CodeExc.mk : CodeExc → BitVec 16 → Exc
  | .ts => .ts | .np => .np | .ss => .ss | .gp => .gp

/-- `if not c then raise #XX(sel)`. -/
def checkSel (c : Bool) (k : CodeExc) (sel : BitVec 16) : M Unit := do
  let x ← selCode sel
  check c (k.mk x)

/-- `draw(32)` (00 R11): the next free value of the world, and after those a constant without a body. -/
def draw : M (BitVec 32) := do
  let s ← st
  match s.env.draws with
  | [] => do
    upd fun s => { s with env := { s.env with drawn := s.env.drawn + 1 } }
    pure (Config.draw s.env.drawn)
  | v :: t => do
    upd fun s => { s with env := { s.env with draws := t } }
    pure v

/-- `draw(16)`. -/
def draw16 : M (BitVec 16) := do
  let v ← draw
  pure (lo16 v)

/-- `draw(1)`. -/
def drawBit : M Bool := do
  let v ← draw
  pure (bit v 0)

/-- `m`, answering an exception that it raises instead of raising it. -/
def attempt {α : Type} (m : M α) : M (Except Exc α) := fun w =>
  match m w with
  | .ok a v => .ok (.ok a) v
  | .error (.exc e) v => .ok (.error e) v
  | .error x v => .error x v

/-- Raise the first exception of those given, if there is one. -/
def raiseFirst : List (Option Exc) → M Unit
  | [] => pure ()
  | some e :: _ => raise e
  | none :: t => raiseFirst t

/-- What a device answers (20 R60, 45 R199): the next answer of the world, and after those a constant without a body. -/
def deviceIn : M (BitVec 32) := do
  let s ← st
  match s.env.devIn with
  | [] => do
    upd fun s => { s with env := { s.env with drawn := s.env.drawn + 1 } }
    pure (Config.device s.env.drawn)
  | v :: t => do
    upd fun s => { s with env := { s.env with devIn := t } }
    pure v

/-- Record a device access. -/
def busEvent (e : BusEvent) : M Unit := upd fun s => { s with env := { s.env with bus := s.env.bus ++ [e] } }

/-- Do `f` for each element in order. -/
def each {α : Type} (f : α → M Unit) : List α → M Unit
  | [] => pure ()
  | a :: t => do
    f a
    each f t

/-- The results of `f` for each element in order. -/
def gather {α β : Type} (f : α → M β) : List α → M (List β)
  | [] => pure []
  | a :: t => do
    let b ← f a
    let l ← gather f t
    pure (b :: l)

end Sys2Proof.Machine
end

