-- ==== Sys2Proof/Machine/Paging.lean ====
section
/-! DEFINITION. Physical accesses (20 R60, R63), page translation (20 R84-R92) and the TLB (20 R94-R96). -/

namespace Sys2Proof.Machine

open Sys2Proof

/-! ### Physical accesses -/

/-- A value cut to its low `n` bytes. -/
def lowBytes (n : Nat) (v : BitVec 32) : BitVec 32 := ofBytes (toBytes n v)

/-- One byte read at a physical address; where the platform has nothing the model refuses (20 R60, 92 D13). -/
def physReadByte (pa : BitVec 32) : M Byte := do
  let s ← st
  match s.kindAt pa with
  | .ram | .rom => pure (s.byteAt pa)
  | .device => do
    let v ← deviceIn
    busEvent (.memRead pa 1 (lowBytes 1 v))
    pure (byteOf v 0)
  | .nothing => refuse (.noMemory pa)

/-- One byte written at a physical address. RAM keeps it and remembers that it may be prefetched stale (20 R103); a write
to ROM has no effect (20 R60). -/
def physWriteByte (pa : BitVec 32) (v : Byte) : M Unit := do
  let s ← st
  match s.kindAt pa with
  | .ram => upd fun s => { s with
      mem := Memory.write s.mem pa.toNat v
      prefetch := { s.prefetch with stored := ⟨pa.toNat, s.byteAt pa, false⟩ :: s.prefetch.stored } }
  | .rom => pure ()
  | .device => busEvent (.memWrite pa 1 (v.setWidth 32))
  | .nothing => refuse (.noMemory pa)

/-- An aligned access whose bytes all lie in device memory: one bus access (20 R63, 92 D5). -/
def oneDeviceAccess (s : State) (pas : List (BitVec 32)) : Bool :=
  decide ((pas.headD 0).toNat % pas.length = 0) && pas.all fun a => s.kindAt a == .device

/-- A read of the bytes at `pas`, in ascending order: an aligned device access is one access, any other one byte
accesses, each where its byte lies (20 R60, R63, 92 D5; log 14). -/
def physReadAt (pas : List (BitVec 32)) : M (BitVec 32) := do
  let s ← st
  let pa := pas.headD 0
  if oneDeviceAccess s pas then do
    let v ← deviceIn
    busEvent (.memRead pa pas.length (lowBytes pas.length v))
    pure (lowBytes pas.length v)
  else do
    let bs ← gather physReadByte pas
    pure (ofBytes bs)

/-- The bytes that an aligned write has just stored in RAM are one access (20 R63). -/
def State.joinStores (s : State) (pas : List (BitVec 32)) : State :=
  if (pas.headD 0).toNat % pas.length = 0 ∧ (pas.all fun a => s.kindAt a == .ram) = true then
    let k := pas.length - 1
    let rest := (s.prefetch.stored.take k).map fun c => { c with rest := true }
    { s with prefetch := { s.prefetch with stored := rest ++ s.prefetch.stored.drop k } }
  else s

/-- A write of the low bytes of `v` at `pas`. -/
def physWriteAt (pas : List (BitVec 32)) (v : BitVec 32) : M Unit := do
  let s ← st
  let pa := pas.headD 0
  if oneDeviceAccess s pas then
    busEvent (.memWrite pa pas.length (lowBytes pas.length v))
  else do
    each (fun p => physWriteByte p.1 p.2) (pas.zip (toBytes pas.length v))
    upd fun s => s.joinStores pas

/-- The `n` addresses from `a` (modulo 2^32, 20 R66). -/
def span (a : BitVec 32) (n : Nat) : List (BitVec 32) := (List.range n).map fun i => a + BitVec.ofNat 32 i

/-- `PhysRead(pa, n)`. -/
def physRead (pa : BitVec 32) (n : Nat) : M (BitVec 32) := physReadAt (span pa n)

/-- The processor's locked update that sets bits of a byte in a table: it stays when the instruction faults later
(60 R278). Of a page-table entry the byte that holds the bits is read and written, not the whole entry: DESIGN CHOICE,
20 R64 gives no width (log 14). -/
def setBits (pa : BitVec 32) (mask : Byte) : M Unit := do
  let b ← physReadByte pa
  physWriteByte pa (b ||| mask)
  mark fun w => { w with sticky := w.sticky ++ [(pa, mask)] }

/-! ### Page tables (20 R85-R91) -/

/-- The page number of a linear address. -/
def pageOf (la : BitVec 32) : BitVec 20 := la.extractLsb' 12 20

/-- A frame number and the offset of a linear address. -/
def inFrame (frame : BitVec 20) (la : BitVec 32) : BitVec 32 := frame ++ la.extractLsb' 0 12

def pdeAddr (s : State) (la : BitVec 32) : BitVec 32 := s.pdbr ++ (la.extractLsb' 22 10 ++ 0#2)

def pteAddr (pde la : BitVec 32) : BitVec 32 := pde.extractLsb' 12 20 ++ (la.extractLsb' 12 10 ++ 0#2)

/-- The error code of a page fault (60 R312): P, W/R, U/S. -/
def pfCode (p write user : Bool) : BitVec 3 := BitVec.ofBool user ++ BitVec.ofBool write ++ BitVec.ofBool p

/-- A translation that has passed its checks. `pdeA` and `pteBits` are the updates that the access still has to make in
the tables; `fill` is the walk's result for the TLB. -/
structure Xlat where
  pa : BitVec 32
  pde : BitVec 32
  pdeA : Bool
  pte : BitVec 32
  pteBits : Byte
  fill : Option TlbEntry
  deriving DecidableEq, Repr

/-- Page-level protection (20 R89, R90): user accesses need the combined U/S, and the combined R/W to write. -/
def pageAllows (write user u w : Bool) : Bool := !user || (u && (!write || w))

/-- A translation that needs no update. -/
def Xlat.plain (pa : BitVec 32) : Xlat :=
  { pa := pa, pde := 0, pdeA := false, pte := 0, pteBits := 0, fill := none }

/-- The walk of the tables (20 R87), without the updates. The block of the entry it yields is open (92 D15): the 0 here is
read by nothing, since a lookup that meets such an entry reports a free block (`tlbLookup`, log 13). -/
def pageWalk (la : BitVec 32) (write user : Bool) : M Xlat := do
  let s ← st
  let pdeA := pdeAddr s la
  let pde ← physRead pdeA 4
  check (bit pde 0) (.pf la (pfCode false write user))
  let pteA := pteAddr pde la
  let pte ← physRead pteA 4
  check (bit pte 0) (.pf la (pfCode false write user))
  let u := bit pde 2 && bit pte 2
  let w := bit pde 1 && bit pte 1
  check (pageAllows write user u w) (.pf la (pfCode true write user))
  pure {
    pa := inFrame (pte.extractLsb' 12 20) la
    pde := pdeA
    pdeA := !bit pde 5
    pte := pteA
    pteBits := if !bit pte 5 || (write && !bit pte 6) then (if write then 0x60#8 else 0x20#8) else 0
    fill := some { page := pageOf la, frame := pte.extractLsb' 12 20, v := true, d := write || bit pte 6, u := u,
                   w := w, block := 0, written := false } }

/-- A TLB entry that agrees with what a walk would give now, the dirty bit included, with nothing to update. -/
def tlbAgrees (s : State) (la : BitVec 32) (e : TlbEntry) : Bool :=
  match s.peek (pdeAddr s la) with
  | none => false
  | some pde =>
    match s.peek (pteAddr pde la) with
    | none => false
    | some pte =>
      bit pde 0 && bit pte 0 && bit pde 5 && bit pte 5 && e.d == bit pte 6 &&
        e.frame == pte.extractLsb' 12 20 && e.u == (bit pde 2 && bit pte 2) && e.w == (bit pde 1 && bit pte 1)

/-- Dropping the entry and walking for it anew would leave what the entry gives and the TLB as they are: it agrees with the
tables, no other entry answers in its stead, and there is no entry of known place that the walk's result could displace
(`fillTlb`). -/
def dropUnseen (s : State) (la : BitVec 32) (e : TlbEntry) (others : List TlbEntry) : Bool :=
  tlbAgrees s la e && others.isEmpty && !s.tlb.any fun o => o.written

/-- Use one of the TLB entries given, or walk: any entry may have been dropped or may still be there, by a free choice, which
is not asked for only where it shows in nothing (20 R94, R95; 92 D15; log 11). A write through an entry with D = 0 walks
(20 R94). -/
def lookOrWalk (la : BitVec 32) (write user : Bool) : List TlbEntry → M Xlat
  | [] => pageWalk la write user
  | e :: rest => do
    let s ← st
    if write && !e.d then lookOrWalk la write user rest
    else do
      let use ← (if dropUnseen s la e rest then pure true else drawBit)
      if use then do
        check (pageAllows write user e.u e.w) (.pf la (pfCode true write user))
        pure (Xlat.plain (inFrame e.frame la))
      else lookOrWalk la write user rest

/-- The translation of one linear address with its checks, nothing updated yet (20 R84, R87, R94). -/
def translate (la : BitVec 32) (write user : Bool) : M Xlat := do
  let s ← st
  if s.cr0.pg then lookOrWalk la write user (s.tlb.filter fun e => e.v && e.page == pageOf la)
  else pure (Xlat.plain la)

/-- TLB entries are replaced: while pages are translated, bytes may have been prefetched through them (20 R94, R103;
log 16). -/
def State.replaced (s : State) (l : List TlbEntry) : Prefetch :=
  { s.prefetch with gone := if s.cr0.pg then (l.filter fun o => o.v) ++ s.prefetch.gone else s.prefetch.gone }

/-- Enter a walk's result. It takes the place of an entry for its page, and of an unknown other one: from now on no entry
is known to be in its place (20 R94, log 11). -/
def fillTlb (e : TlbEntry) (s : State) : State :=
  let same (o : TlbEntry) : Bool := o.v && o.page == e.page
  { s with
    tlb := e :: (s.tlb.filter fun o => !same o).map fun o => { o with written := false }
    prefetch := s.replaced (s.tlb.filter same) }

/-- A walk's result enters the TLB. One with D = 1 may stay out where the entry of its page has D = 0, and that entry then
stays, by a free choice (20 R94, 92 D15; log 11). Whether any other result was entered shows only in whether it is used, which
is a free choice at each access (`lookOrWalk`). -/
def enterTlb (e : TlbEntry) : M Unit := do
  let s ← st
  let stays ← (if s.tlb.any fun o => o.v && o.page == e.page && !o.d && e.d then drawBit else pure false)
  if stays then pure () else upd (fillTlb e)

/-- The updates of a translation that has passed every check: accessed and dirty bits (20 R88, 92 D14) and the TLB. -/
def commitXlat (x : Xlat) : M Unit := do
  if x.pdeA then setBits x.pde 0x20#8 else pure ()
  if x.pteBits = 0 then pure () else setBits x.pte x.pteBits
  match x.fill with
  | none => pure ()
  | some e => enterTlb e

/-- How many of `n` bytes from `la` lie in its page. -/
def bytesInPage (la : BitVec 32) (n : Nat) : Nat := min n (4096 - (la.extractLsb' 0 12).toNat)

/-- The translations of an access of `n` bytes: one page, or two (20 R92). -/
def translateAll (la : BitVec 32) (n : Nat) (write user : Bool) : M (List Xlat) := do
  let x ← translate la write user
  if bytesInPage la n < n then do
    let y ← translate (la + BitVec.ofNat 32 (bytesInPage la n)) write user
    pure [x, y]
  else pure [x]

/-- The physical addresses of `n` bytes, given their pages' translations. -/
def physSpan (la : BitVec 32) (n : Nat) : List Xlat → List (BitVec 32)
  | [] => []
  | [x] => span x.pa n
  | x :: y :: _ => span x.pa (bytesInPage la n) ++ span y.pa (n - bytesInPage la n)

/-- The page checks of an access, without any effect of it. -/
def linProbe (la : BitVec 32) (n : Nat) (write user : Bool) : M Unit := do
  let _ ← translateAll la n write user
  pure ()

/-- The physical addresses of an access whose checks have passed, with the tables updated. -/
def linAccess (la : BitVec 32) (n : Nat) (write user : Bool) : M (List (BitVec 32)) := do
  let xs ← translateAll la n write user
  each commitXlat xs
  pure (physSpan la n xs)

/-- `LinRead(la, n, pl)` (20 R92). -/
def linRead (la : BitVec 32) (n : Nat) (user : Bool) : M (BitVec 32) := do
  let pas ← linAccess la n false user
  physReadAt pas

/-- `LinWrite(la, n, v, pl)` (20 R92). -/
def linWrite (la : BitVec 32) (n : Nat) (v : BitVec 32) (user : Bool) : M Unit := do
  let pas ← linAccess la n true user
  physWriteAt pas v

/-- The page mapping in force, as it stands now (20 R103). -/
def State.pageMap (s : State) : PageMap :=
  { pg := s.cr0.pg, pdbr := s.pdbr, tlb := s.tlb, first := (s.prefetch.maps.head?.map PageMap.last).getD 0,
    last := s.prefetch.stored.length }

/-- All entries of the TLB become invalid, their tags stay (20 R96, 10 R54): a lookup with V = 0 finds the entries whose
place is known, and each other one by a free choice (40 R142; log 11). -/
def flushTlb (s : State) : State := { s with tlb := s.tlb.map fun e => { e with v := false } }

end Sys2Proof.Machine
end

