-- ==== Sys2Proof/Machine/Access.lean ====
section
/-! DEFINITION. Accesses through a segment register (20 R78-R83, R93), data breakpoints (61 R320, R322) and the stack
primitives (48 R234). -/

namespace Sys2Proof.Machine

open Sys2Proof

/-! ### Data breakpoints -/

/-- The two-bit R/W and LEN fields of breakpoint `n` in DR7 (10 R50). -/
def dr7Rw (dr7 : BitVec 32) (n : Nat) : BitVec 2 := dr7.extractLsb' (16 + 4 * n) 2

def dr7Len (dr7 : BitVec 32) (n : Nat) : BitVec 2 := dr7.extractLsb' (18 + 4 * n) 2

/-- Breakpoint `n` is enabled: Ln or Gn (61 R320). -/
def dr7Enabled (dr7 : BitVec 32) (n : Nat) : Bool := bit dr7 (2 * n) || bit dr7 (2 * n + 1)

/-- The fields of breakpoint `n` are defined encodings (10 R50). -/
def dr7Defined (dr7 : BitVec 32) (n : Nat) : Bool :=
  dr7Rw dr7 n != 2 && dr7Len dr7 n != 2 && !(dr7Rw dr7 n == 0 && dr7Len dr7 n != 0)

/-- The address register of breakpoint `n`. -/
def State.drAddr (s : State) (n : Nat) : BitVec 32 :=
  match n with
  | 0 => s.dr0
  | 1 => s.dr1
  | 2 => s.dr2
  | _ => s.dr3

/-- The length of a breakpoint field (61 R320). -/
def lenBytes (len : BitVec 2) : Nat := if len = 0 then 1 else if len = 1 then 2 else 4

/-- An access of `k` bytes at `la` meets the field of breakpoint `n` (61 R320). -/
def fieldMeets (s : State) (n : Nat) (la : BitVec 32) (k : Nat) : Bool :=
  let len := lenBytes (dr7Len s.dr7 n)
  let start := s.drAddr n &&& ~~~(BitVec.ofNat 32 (len - 1))
  (span la k).any fun a => (span start len).any fun b => a == b

/-- Data breakpoint `n` matches an access (61 R322). -/
def dataMatch (s : State) (la : BitVec 32) (k : Nat) (write : Bool) (n : Nat) : Bool :=
  dr7Defined s.dr7 n && (dr7Rw s.dr7 n == 3 || (write && dr7Rw s.dr7 n == 1)) && fieldMeets s n la k

/-- The bits of the breakpoints for which `p` holds. -/
def dbgBits (p : Nat → Bool) : BitVec 32 := bitMask (p 0) 0 ||| bitMask (p 1) 1 ||| bitMask (p 2) 2 ||| bitMask (p 3) 3

/-- The test of 61 R321 at a boundary meets no undefined encoding in breakpoint `n`: it evaluates those of R/W = 00, whose LEN is
then 00, and one of R/W = 10, of which no rule says what it breaks on: DEDUCED (log 45). -/
def fetchDefined (dr7 : BitVec 32) (n : Nat) : Bool := dr7Rw dr7 n != 2 && !(dr7Rw dr7 n == 0 && dr7Len dr7 n != 0)

/-- The comparison of 61 R322 at a data access meets no undefined encoding in breakpoint `n`: it evaluates those of R/W = 11, for a
write those of R/W = 01 too, and one of R/W = 10, of which no rule says what it breaks on: DEDUCED (log 45). -/
def accessDefined (write : Bool) (dr7 : BitVec 32) (n : Nat) : Bool :=
  dr7Rw dr7 n != 2 && !((dr7Rw dr7 n == 3 || (write && dr7Rw dr7 n == 1)) && dr7Len dr7 n == 2)

/-- Every enabled breakpoint passes `defined` (61 R320). -/
def breakpointsDefined (defined : BitVec 32 → Nat → Bool) (s : State) : Bool :=
  [0, 1, 2, 3].all fun n => !dr7Enabled s.dr7 n || defined s.dr7 n

/-- Note the data breakpoints that an access meets, enabled or not (20 R93 step 4; 61 R322, R326). -/
def noteData (la : BitVec 32) (k : Nat) (write : Bool) : M Unit := do
  let w ← get
  let s := w.s
  if w.quiet then pure ()
  else do
    need (breakpointsDefined (accessDefined write) s) .breakpointEncoding
    mark fun w => { w with
      hitOn := w.hitOn ||| dbgBits fun n => dr7Enabled s.dr7 n && dataMatch s la k write n
      hitOff := w.hitOff ||| dbgBits fun n => !dr7Enabled s.dr7 n && dataMatch s la k write n }

/-! ### Segment checks -/

/-- An access is made at user level exactly at CPL 3 (20 R89). -/
def userLevel (s : State) : Bool := s.effCpl == 3

/-- The type check (20 R79): write needs a writable data segment, read anything but execute-only code. -/
def typeOk (g : Seg) (write : Bool) : Bool := if write then !g.exec && g.wr else !g.exec || g.wr

/-- An expand-down data segment (20 R73). -/
def Seg.expandDown (g : Seg) : Bool := g.s && !g.exec && g.ec

/-- The limit check of `n` bytes at `off` (20 R80), computed without wrap-around. -/
def limitOk (g : Seg) (off : BitVec 32) (n : Nat) : Bool :=
  if g.expandDown then
    decide (g.limit.toNat < off.toNat) &&
      decide (off.toNat + n ≤ (if g.db then 2 ^ 32 else 2 ^ 16))
  else decide (off.toNat + n ≤ g.limit.toNat + 1)

/-- #SS(0) through SS, #GP(0) through any other register (20 R80), with EXT during a delivery (60 R295). -/
def segExc (r : SegReg) : M Exc := do
  let x ← extBit
  pure (if r = .ss then .ss x else .gp x)

/-- The segment checks of an access (20 R79, R80; real-address mode: 20 R65), and its linear address (20 R66). -/
def segCheck (r : SegReg) (off : BitVec 32) (n : Nat) (write : Bool) : M (BitVec 32) := do
  let s ← st
  let g := s.seg r
  let x ← extBit
  let e ← segExc r
  check g.valid e
  check (!s.cr0.pe || typeOk g write) (.gp x)
  check (limitOk g off n) e
  pure (g.base + off)

/-- A data read at a linear address that passed its segment checks, at the level of CPL. -/
def dataRead (la : BitVec 32) (n : Nat) : M (BitVec 32) := do
  let s ← st
  let pas ← linAccess la n false (userLevel s)
  noteData la n false
  physReadAt pas

/-- A data write at a linear address that passed its segment checks, at the level of CPL. -/
def dataWrite (la : BitVec 32) (n : Nat) (v : BitVec 32) : M Unit := do
  let s ← st
  let pas ← linAccess la n true (userLevel s)
  noteData la n true
  physWriteAt pas v

/-- `MemRead(seg, off, n)` (20 R93). -/
def memRead (r : SegReg) (off : BitVec 32) (n : Nat) : M (BitVec 32) := do
  let la ← segCheck r off n false
  dataRead la n

/-- `MemWrite(seg, off, n, v)` (20 R93). -/
def memWrite (r : SegReg) (off : BitVec 32) (n : Nat) (v : BitVec 32) : M Unit := do
  let la ← segCheck r off n true
  dataWrite la n v

/-- The checks of an access alone: an instruction that reads and writes an operand makes the write checks first
(48 R232). -/
def memProbe (r : SegReg) (off : BitVec 32) (n : Nat) (write : Bool) : M Unit := do
  let s ← st
  let la ← segCheck r off n write
  linProbe la n write (userLevel s)

/-- A read of an operand wider than 4 bytes or of two parts: the segment checks cover its whole length (20 R80), then the
parts are read in order. -/
def memRead2 (r : SegReg) (off : BitVec 32) (n m : Nat) : M (BitVec 32 × BitVec 32) := do
  let s ← st
  let la ← segCheck r off (n + m) false
  linProbe la (n + m) false (userLevel s)
  let a ← dataRead la n
  let b ← dataRead (la + BitVec.ofNat 32 n) m
  pure (a, b)

/-- A write of an operand of two parts, checked over its whole length first. -/
def memWrite2 (r : SegReg) (off : BitVec 32) (n m : Nat) (a b : BitVec 32) : M Unit := do
  let s ← st
  let la ← segCheck r off (n + m) true
  linProbe la (n + m) true (userLevel s)
  dataWrite la n a
  dataWrite (la + BitVec.ofNat 32 n) m b

/-! ### The stack (20 R82; 48 R234) -/

/-- `SP*` (00 R12). -/
def State.sp (s : State) : BitVec 32 := s.regv s.stackSize .esp

/-- A write of `SP*` (20 R82). -/
def State.setSp (s : State) (v : BitVec 32) : State := s.setRegv s.stackSize .esp v

/-- `n` bytes at `a` do not wrap around the stack address size (48 R234, U38). -/
def noWrap (z : Size) (a : BitVec 32) (n : Nat) : Bool := decide (a.toNat + n ≤ 2 ^ z.bits)

/-- The address where a push of `n` bytes stores. -/
def State.pushAddr (s : State) (n : Nat) : BitVec 32 := s.stackSize.add s.sp (-(BitVec.ofNat 32 n))

/-- `Push(v, n)` (48 R234). -/
def push (v : BitVec 32) (n : Nat) : M Unit := do
  let s ← st
  need (noWrap s.stackSize (s.pushAddr n) n) .stackWrap
  memWrite .ss (s.pushAddr n) n v
  upd fun t => t.setSp (s.pushAddr n)

/-- `MemRead(SS, SP* + k, n)`: the value `k` bytes above `SP*`, nothing popped (43 R176, R181, R183; 46 R220; 48 R234). The
sum is modulo 2^32 (00 R10). -/
def stackRead (k n : Nat) : M (BitVec 32) := do
  let s ← st
  memRead .ss (s.sp + BitVec.ofNat 32 k) n

/-- `SP* <- SP* + k`. -/
def stackDrop (k : BitVec 32) : M Unit := upd fun s => s.setSp (s.stackSize.add s.sp k)

/-- `Pop(n)` (48 R234). -/
def pop (n : Nat) : M (BitVec 32) := do
  let v ← stackRead 0 n
  stackDrop (BitVec.ofNat 32 n)
  pure v

end Sys2Proof.Machine
end

