-- ==== Sys2Proof/Machine/Descriptor.lean ====
section
/-! DEFINITION. Selectors and descriptors (20 R67-R77), the loads of segment registers (42 R151-R154) and the stacks the
TSS names (43 R175, R176). -/

namespace Sys2Proof.Machine

open Sys2Proof

/-! ### Selectors (20 R67, R68) -/

def selRpl (sel : BitVec 16) : BitVec 2 := sel.extractLsb' 0 2

def selTi (sel : BitVec 16) : Bool := sel.getLsbD 2

/-- `index * 8`. -/
def selOffset (sel : BitVec 16) : BitVec 32 := (sel &&& 0xFFF8#16).setWidth 32

/-- A null selector: index 0 and TI 0, any RPL (20 R68). -/
def isNull (sel : BitVec 16) : Bool := sel &&& 0xFFFC#16 == 0

/-- A selector with the RPL replaced: `(sel AND FFFCH) OR pl`. -/
def withRpl (sel : BitVec 16) (pl : BitVec 2) : BitVec 16 := (sel &&& 0xFFFC#16) ||| pl.setWidth 16

/-! ### Descriptors (20 R71-R76) -/

/-- The doublewords at offsets 0 and 4 of a descriptor. -/
structure Desc where
  lo : BitVec 32
  hi : BitVec 32
  deriving DecidableEq, Repr

def Desc.base (d : Desc) : BitVec 32 := d.hi.extractLsb' 24 8 ++ d.hi.extractLsb' 0 8 ++ d.lo.extractLsb' 16 16

def Desc.limit20 (d : Desc) : BitVec 20 := d.hi.extractLsb' 16 4 ++ d.lo.extractLsb' 0 16

def Desc.g (d : Desc) : Bool := bit d.hi 23

/-- `EffLimit` (20 R72). -/
def Desc.effLimit (d : Desc) : BitVec 32 := if d.g then d.limit20 ++ 0xFFF#12 else d.limit20.setWidth 32

/-- Bits 11:8, the type of a system descriptor (20 R75). -/
def Desc.typ (d : Desc) : BitVec 4 := d.hi.extractLsb' 8 4

/-- A code or data segment, not a system segment or gate (20 R71). -/
def Desc.s (d : Desc) : Bool := bit d.hi 12

def Desc.dpl (d : Desc) : BitVec 2 := d.hi.extractLsb' 13 2

def Desc.p (d : Desc) : Bool := bit d.hi 15

/-- Bit 11: executable (20 R74). -/
def Desc.exec (d : Desc) : Bool := bit d.hi 11

/-- Bit 10: expand-down or conforming (20 R73, R74). -/
def Desc.ec (d : Desc) : Bool := bit d.hi 10

/-- Bit 9: writable or readable (20 R73, R74). -/
def Desc.wr (d : Desc) : Bool := bit d.hi 9

/-- Bit 8: accessed (20 R77). -/
def Desc.a (d : Desc) : Bool := bit d.hi 8

/-- Bit 22: big or default (20 R73, R74). -/
def Desc.db (d : Desc) : Bool := bit d.hi 22

def Desc.isCode (d : Desc) : Bool := d.s && d.exec

def Desc.isConforming (d : Desc) : Bool := d.isCode && d.ec

def Desc.isWritableData (d : Desc) : Bool := d.s && !d.exec && d.wr

/-- The selector field of a gate (43 R172, 44 R187, 60 R286). -/
def Desc.gateSel (d : Desc) : BitVec 16 := hi16 d.lo

/-- The 32-bit offset field of a gate (43 R172, 60 R286). -/
def Desc.gateOffset (d : Desc) : BitVec 32 := hi16 d.hi ++ lo16 d.lo

/-- The doubleword count of a call gate (43 R172). -/
def Desc.gateCount (d : Desc) : Nat := (d.hi.extractLsb' 0 5).toNat

/-- The hidden part loaded from a descriptor, with A = 1 (10 R30, 20 R77). -/
def Desc.toSeg (d : Desc) (sel : BitVec 16) : Seg :=
  { selector := sel, base := d.base, limit := d.effLimit, present := d.p, dpl := d.dpl, s := d.s, exec := d.exec,
    ec := d.ec, wr := d.wr, accessed := true, g := d.g, db := d.db, valid := true }

/-! ### Reading a descriptor (20 R70) -/

/-- The linear address of the descriptor a selector names, none outside its table; without an LDT, or with a null selector in
LDTR, every LDT selector is outside. -/
def descAddr (s : State) (sel : BitVec 16) : Option (BitVec 32) :=
  if selTi sel then
    if !isNull s.ldtr.selector && s.ldtr.valid && decide ((selOffset sel).toNat + 7 ≤ s.ldtr.limit.toNat) then some (s.ldtr.base + selOffset sel)
    else none
  else if (selOffset sel).toNat + 7 ≤ s.gdtr.limit.toNat then some (s.gdtr.base + selOffset sel)
  else none

/-- The eight bytes of a descriptor, read at supervisor level. -/
def readDescAt (la : BitVec 32) : M Desc := do
  let lo ← linRead la 4 false
  let hi ← linRead (la + 4) 4 false
  pure { lo := lo, hi := hi }

/-- `ReadDescriptor(sel)`; none is `OutsideTable`. -/
def readDescriptor (sel : BitVec 16) : M (Option Desc) := do
  let s ← st
  match descAddr s sel with
  | none => pure none
  | some la => do
    let d ← readDescAt la
    pure (some d)

/-- The descriptor a selector names; outside its table the exception `k` with the selector. -/
def fetchDesc (sel : BitVec 16) (k : CodeExc) : M Desc := do
  let o ← readDescriptor sel
  match o with
  | some d => pure d
  | none => do
    let c ← selCode sel
    raise (k.mk c)

/-- Where the access byte of a selector's descriptor lies (20 R71). -/
def accessByte (s : State) (sel : BitVec 16) : BitVec 32 :=
  (if selTi sel then s.ldtr.base else s.gdtr.base) + selOffset sel + 5

/-- Set bits of the access byte in memory, a locked update at supervisor level (20 R77, R99). -/
def setAccessBits (sel : BitVec 16) (mask : Byte) : M Unit := do
  let s ← st
  let pas ← linAccess (accessByte s sel) 1 true false
  setBits (pas.headD 0) mask

/-- The accessed bit of a segment descriptor that is loaded (20 R77). -/
def setAccessed (sel : BitVec 16) (d : Desc) : M Unit := if d.a then pure () else setAccessBits sel 1

/-- The larger of two privilege levels. -/
def maxPl (a b : BitVec 2) : BitVec 2 := if a.ult b then b else a

/-- `DPL >= max(CPL, RPL)`. -/
def privOk (dpl cpl rpl : BitVec 2) : Bool := (maxPl cpl rpl).ule dpl

/-! ### Loading segment registers (42 R152-R154) -/

/-- The load of a segment register in real-address mode: the selector and the base, the rest of the hidden part as it is
(42 R154). The register becomes valid, whatever the selector: PRESUMED, R154 does not name `valid` (log 3). -/
def loadReal (r : SegReg) (sel : BitVec 16) : M Unit :=
  upd fun s => s.setSeg r { s.seg r with selector := sel, base := sel.setWidth 32 <<< 4, valid := true }

/-- `LoadDataSeg` (42 R152). -/
def loadDataSeg (r : SegReg) (sel : BitVec 16) : M Unit := do
  if isNull sel then upd fun s => s.setSeg r { s.seg r with selector := sel, valid := false }
  else do
    let d ← fetchDesc sel .gp
    let s ← st
    checkSel d.s .gp sel
    checkSel (!d.exec || d.wr) .gp sel
    checkSel (d.isConforming || privOk d.dpl s.effCpl (selRpl sel)) .gp sel
    checkSel d.p .np sel
    setAccessed sel d
    upd fun s => s.setSeg r (d.toSeg sel)

/-- `LoadSS` (42 R153). -/
def loadSs (sel : BitVec 16) : M Unit := do
  let x ← extBit
  check (!isNull sel) (.gp x)
  let d ← fetchDesc sel .gp
  let s ← st
  checkSel (selRpl sel == s.effCpl) .gp sel
  checkSel d.isWritableData .gp sel
  checkSel (d.dpl == s.effCpl) .gp sel
  checkSel d.p .ss sel
  setAccessed sel d
  upd fun s => s.setSeg .ss (d.toSeg sel)

/-- The load of SS, DS, ES, FS or GS by MOV, POP, LDS and their kin, in both modes (42 R156, R159, R160). -/
def loadSeg (r : SegReg) (sel : BitVec 16) : M Unit := do
  let s ← st
  if !s.cr0.pe then loadReal r sel
  else if r = .ss then loadSs sel
  else loadDataSeg r sel

/-- Load CS from a descriptor that has passed its checks: the accessed bit, the selector with RPL `pl`, the hidden part
and the new EIP; whatever was prefetched is discarded (43 R169; 70 R344). -/
def loadCs (sel : BitVec 16) (pl : BitVec 2) (d : Desc) (eip : BitVec 32) : M Unit := do
  setAccessed sel d
  upd fun s => { s.setSeg .cs (d.toSeg (withRpl sel pl)) with eip := eip, prefetch := Prefetch.empty }
  mark fun w => { w with jumped := true }

/-- Load CS in real-address mode (43 R171). -/
def loadCsReal (sel : BitVec 16) (eip : BitVec 32) : M Unit := do
  loadReal .cs sel
  upd fun s => { s with eip := eip, prefetch := Prefetch.empty }
  mark fun w => { w with jumped := true }

/-- A near transfer that has passed its limit check (48 R270). -/
def jumpTo (eip : BitVec 32) : M Unit := do
  upd fun s => { s with eip := eip, prefetch := Prefetch.empty }
  mark fun w => { w with jumped := true }

/-! ### Stacks of inner levels (43 R175, R176; 60 R292) -/

/-- `count` pushes of `n` bytes below `sp` all lie inside the segment (43 R170, R176; 60 R291, R292). Each item is checked
where its push stores it, its offset taken modulo the stack size: for an inner stack or a CALL, whose rules do not say
how the extent wraps, that is DEDUCED from 60 R291 (log 40). -/
def roomBelow (g : Seg) (sp : BitVec 32) (n count : Nat) : Bool :=
  let z : Size := if g.db then .w32 else .w16
  (List.range count).all fun i => limitOk g (z.add sp (-(BitVec.ofNat 32 (n * (i + 1))))) n

/-- `TssStack(pl)` (43 R175): the stack selector and pointer of an inner level. -/
def tssStack (pl : BitVec 2) : M (BitVec 16 × BitVec 32) := do
  let s ← st
  need s.tr.valid .taskRegister
  let off := 8 * pl.toNat
  checkSel (decide (off + 11 ≤ s.tr.limit.toNat)) .ts s.tr.selector
  let esp ← linRead (s.tr.base + BitVec.ofNat 32 (off + 4)) 4 false
  let ss ← linRead (s.tr.base + BitVec.ofNat 32 (off + 8)) 2 false
  pure (lo16 ss, esp)

/-- The stack of level `npl` with its checks (43 R176, 60 R292): the descriptor, the selector and the stack pointer;
`count` doublewords must fit. -/
def innerStack (npl : BitVec 2) (count : Nat) : M (Desc × BitVec 16 × BitVec 32) := do
  let (nss, nesp) ← tssStack npl
  checkSel (!isNull nss) .ts nss
  let d ← fetchDesc nss .ts
  checkSel (selRpl nss == npl) .ts nss
  checkSel d.isWritableData .ts nss
  checkSel (d.dpl == npl) .ts nss
  checkSel d.p .ss nss
  checkSel (roomBelow (d.toSeg nss) nesp 4 count) .ss nss
  pure (d, nss, nesp)

/-- Switch to the checked stack of an inner level (43 R176, 60 R292). -/
def enterStack (npl : BitVec 2) (d : Desc) (nss : BitVec 16) (nesp : BitVec 32) : M Unit := do
  setAccessed nss d
  upd fun s => { s.setSeg .ss (d.toSeg nss) with cpl := npl }
  upd fun s => s.setReg .esp nesp

/-- Push a selector as `n` bytes: with 4 the upper word is free (42 R158, 43 R170). -/
def pushSel (sel : BitVec 16) (n : Nat) : M Unit := do
  let u ← (if n = 4 then draw16 else pure 0#16)
  push (u ++ sel) n

/-- Interrupts and 80386 gates of the wrong generation (20 R75, 92 D19). -/
def is286 (d : Desc) : Bool := !d.s && (d.typ == 1 || d.typ == 3 || d.typ == 4)

end Sys2Proof.Machine
end

