-- ==== Sys2Proof/Machine/Task.lean ====
section
/-! DEFINITION. The task switch (44_task_switch.md). -/

namespace Sys2Proof.Machine

open Sys2Proof

/-- What started a task switch (44 R188). -/
inductive SwitchKind where
  | jmp | call | iret
  deriving DecidableEq, Repr

/-- Offsets of the TSS (44 R185). -/
def tssReg : Reg → BitVec 32
  | .eax => 0x28 | .ecx => 0x2C | .edx => 0x30 | .ebx => 0x34 | .esp => 0x38 | .ebp => 0x3C | .esi => 0x40 | .edi => 0x44

def tssSeg : SegReg → BitVec 32
  | .es => 0x48 | .cs => 0x4C | .ss => 0x50 | .ds => 0x54 | .fs => 0x58 | .gs => 0x5C

def allRegs : List Reg := [.eax, .ecx, .edx, .ebx, .esp, .ebp, .esi, .edi]

def allSegs : List SegReg := [.es, .cs, .ss, .ds, .fs, .gs]

/-- The page checks made before anything is written, so that a page fault of parts A to C leaves the outgoing task
unchanged (44 R195). -/
def probeSwitch (kind : SwitchKind) (nsel : BitVec 16) (d : Desc) : M Unit := do
  let s ← st
  linProbe (s.tr.base + 0x20) 0x3E true false
  linProbe d.base 104 false false
  if kind = .call then linProbe d.base 2 true false else pure ()
  if kind = .iret then pure () else linProbe (accessByte s nsel) 1 true false
  if kind = .call then pure () else linProbe (accessByte s s.tr.selector) 1 true false

/-- Part B: the outgoing task's registers into its TSS (44 R192 B2). -/
def saveTask (eipSave : BitVec 32) (fl : Flags) : M Unit := do
  let s ← st
  linWrite (s.tr.base + 0x20) 4 eipSave false
  linWrite (s.tr.base + 0x24) 4 fl.toBits false
  each (fun r => linWrite (s.tr.base + tssReg r) 4 (s.reg r) false) allRegs
  each (fun r => linWrite (s.tr.base + tssSeg r) 2 ((s.seg r).selector.setWidth 32) false) allSegs

/-- A locked update of the access byte of a TSS descriptor that is undone with the switch (44 R192 B3, C1; R195). -/
def changeAccess (sel : BitVec 16) (f : Byte → Byte) : M Unit := do
  let s ← st
  let pas ← linAccess (accessByte s sel) 1 true false
  let b ← physReadByte (pas.headD 0)
  physWriteByte (pas.headD 0) (f b)

/-- Clear the busy bit of the outgoing task's descriptor (44 R192 B3). -/
def clearBusy (sel : BitVec 16) : M Unit := changeAccess sel fun b => b &&& 0xFD#8

/-- Set the busy bit of the incoming task's descriptor (44 R192 C1). -/
def setBusy (sel : BitVec 16) : M Unit := changeAccess sel fun b => b ||| 2#8

/-- Part C: TR, TS and the local breakpoint enables (44 R192 C2, C3). -/
def commitSwitch (nsel : BitVec 16) (d : Desc) (s : State) : State :=
  { s with
    tr := { selector := nsel, base := d.base, limit := d.effLimit, valid := true }
    cr0 := { s.cr0 with ts := true }
    dr7 := s.dr7 &&& 0xFFFFFEAA#32 }

/-- The segment registers and LDTR of the outgoing task are of no use any more (44 R192 D2, R195; 92 D21). -/
def dropTask (s : State) : State :=
  { s with
    segs := {
      es := { s.segs.es with valid := false }, cs := { s.segs.cs with valid := false },
      ss := { s.segs.ss with valid := false }, ds := { s.segs.ds with valid := false },
      fs := { s.segs.fs with valid := false }, gs := { s.segs.gs with valid := false } }
    ldtr := { s.ldtr with valid := false } }

/-- The flags of the incoming task, NT by the kind of switch (44 R192 D2, R193). -/
def taskFlags (kind : SwitchKind) (fl : BitVec 32) : Flags :=
  { Flags.ofBits fl with
    nt := match kind with
      | .call => true
      | .jmp => false
      | .iret => bit fl 14 }

/-- What step D2 takes from the incoming task's TSS (44 R192). -/
inductive TaskItem where
  | ldt | eip | flags
  | gpr (r : Reg)
  | sel (r : SegReg)
  deriving DecidableEq, Repr

/-- Its offset in the TSS. -/
def TaskItem.offset : TaskItem → BitVec 32
  | .ldt => 0x60
  | .eip => 0x20
  | .flags => 0x24
  | .gpr r => tssReg r
  | .sel r => tssSeg r

/-- How many bytes of it are read. -/
def TaskItem.bytes : TaskItem → Nat
  | .ldt => 2
  | .sel _ => 2
  | _ => 4

/-- The register takes its value: a segment register is not valid yet, and CPL comes with the selector of CS (44 R192 D2;
92 D21). EFLAGS with VM set are refused (00 R6). -/
def TaskItem.load (kind : SwitchKind) (v : BitVec 32) : TaskItem → M Unit
  | .ldt => upd fun s => { s with ldtr := { s.ldtr with selector := lo16 v } }
  | .eip => upd fun s => { s with eip := v }
  | .flags => do
    need (!bit v 17) .virtual8086
    upd fun s => { s with flags := taskFlags kind v }
  | .gpr r => upd fun s => s.setReg r v
  | .sel r => upd fun s => { s.setSeg r { s.seg r with selector := lo16 v, valid := false } with
      cpl := if r = .cs then selRpl (lo16 v) else s.cpl }

/-- The items of step D2 in its order (44 R192). -/
def taskItems : List TaskItem :=
  [.ldt, .eip, .flags] ++ allRegs.map .gpr ++ [SegReg.es, .cs, .ss, .ds, .fs, .gs].map .sel

/-- One item of step D2. The register of an item that cannot be read, whose page fault is answered, holds a free value: an
exception from here on is the incoming task's (44 R195), and no rule gives the value (log 39). -/
def loadItem (kind : SwitchKind) (i : TaskItem) : M (Option Exc) := do
  let s ← st
  let r ← attempt (linRead (s.tr.base + i.offset) i.bytes false)
  match r with
  | .ok v => do
    i.load kind v
    pure none
  | .error e => do
    let v ← draw
    i.load kind (if i = .flags then v &&& 0xFFFDFFFF#32 else v)
    pure (some e)

/-- Step D1: the incoming task's page directory (44 R192); a page fault of its read is answered, and CR3 then stays. -/
def switchDirectory : M (Option Exc) := do
  let s ← st
  if s.cr0.pg then do
    let r ← attempt (linRead (s.tr.base + 0x1C) 4 false)
    match r with
    | .ok v => do
      upd fun s => flushTlb { s with pdbr := v.extractLsb' 12 20 }
      pure none
    | .error e => pure (some e)
  else pure none

/-- Steps D1 and D2: the page directory and the registers of the incoming task, its segment registers not yet valid (44
R192). A page fault of one of the reads is raised when all have been made, so that it saves the incoming task's CS, EIP and
EFLAGS as far as they can be read, and every segment register holds its new selector (44 R195, 92 D21): DEDUCED (log 39). -/
def loadTask (kind : SwitchKind) : M Unit := do
  upd dropTask
  let dir ← switchDirectory
  let items ← gather (loadItem kind) taskItems
  raiseFirst (dir :: items)

/-- Step D3: the LDT of the incoming task (44 R192). -/
def loadTaskLdt : M Unit := do
  let s ← st
  let sel := s.ldtr.selector
  if isNull sel then pure ()
  else do
    checkSel (!selTi sel) .ts sel
    let d ← fetchDesc sel .ts
    checkSel (!d.s && d.typ == 2) .ts sel
    checkSel d.p .ts sel
    upd fun s => { s with ldtr := { selector := sel, base := d.base, limit := d.effLimit, valid := true } }

/-- Step D4: CS of the incoming task (44 R192). -/
def loadTaskCs : M Unit := do
  let s ← st
  let sel := s.segs.cs.selector
  checkSel (!isNull sel) .ts sel
  let d ← fetchDesc sel .ts
  checkSel d.isCode .ts sel
  checkSel d.p .np sel
  checkSel (d.ec || d.dpl == selRpl sel) .ts sel
  checkSel (!d.ec || d.dpl.ule (selRpl sel)) .ts sel
  setAccessed sel d
  upd fun s => s.setSeg .cs (d.toSeg sel)

/-- Step D5: SS of the incoming task (44 R192). -/
def loadTaskSs : M Unit := do
  let s ← st
  let sel := s.segs.ss.selector
  checkSel (!isNull sel) .ts sel
  let d ← fetchDesc sel .ts
  checkSel d.isWritableData .ts sel
  checkSel d.p .ss sel
  checkSel (d.dpl == s.cpl) .ts sel
  checkSel (selRpl sel == s.cpl) .ts sel
  setAccessed sel d
  upd fun s => s.setSeg .ss (d.toSeg sel)

/-- Step D6: one of DS, ES, FS, GS of the incoming task (44 R192). -/
def loadTaskData (r : SegReg) : M Unit := do
  let s ← st
  let sel := (s.seg r).selector
  if isNull sel then pure ()
  else do
    let d ← fetchDesc sel .ts
    checkSel (d.s && (!d.exec || d.wr)) .ts sel
    checkSel d.p .np sel
    checkSel (d.isConforming || privOk d.dpl s.cpl (selRpl sel)) .ts sel
    setAccessed sel d
    upd fun s => s.setSeg r (d.toSeg sel)

/-- Part D: the incoming task (44 R192). Exceptions from here on are taken in the new task
(44 R195). -/
def enterTask (kind : SwitchKind) : M Unit := do
  loadTask kind
  loadTaskLdt
  loadTaskCs
  loadTaskSs
  each loadTaskData [.ds, .es, .fs, .gs]
  let s ← st
  let x ← extBit
  check (s.eip.ule s.segs.cs.limit) (.gp x)
  let t ← linRead (s.tr.base + 0x64) 2 false
  if bit t 0 then upd fun s => { s with pendingDbg := s.pendingDbg ||| 0x8000#32 } else pure ()

/-- Parts A to C of `TaskSwitch(kind, nsel, d)` (44 R192): `eipSave` and `fl` are what the outgoing task's TSS receives. An
instruction that ends at offset FFFFFFFFH has no `eipSave`, which step B2 is the first to need (93 U39; log 17); an event or an
exception has it, and no instruction is then being run. After part C the switch is committed (44 R195). -/
def leaveTask (kind : SwitchKind) (nsel : BitVec 16) (d : Desc) (eipSave : BitVec 32) (fl : Flags) : M Unit := do
  let s ← st
  need s.tr.valid .taskRegister
  checkSel d.p .np nsel
  checkSel (kind == .iret || d.typ != 0xB) .gp nsel
  checkSel (decide (103 ≤ d.effLimit.toNat)) .ts nsel
  probeSwitch kind nsel d
  needNext s
  saveTask eipSave (if kind = .iret then { fl with nt := false } else fl)
  if kind = .call then pure () else clearBusy s.tr.selector
  if kind = .iret then pure () else setBusy nsel
  upd (commitSwitch nsel d)
  if kind = .call then linWrite d.base 2 (s.tr.selector.setWidth 32) false else pure ()
  mark fun w => { w with committed := true, jumped := true, keepRf := true }
  upd fun s => { s with prefetch := Prefetch.empty }

/-- `TaskSwitch(kind, nsel, d)` (44 R192). The queue is emptied with the commit, so accessed bits that part D sets count as
stored since the transfer: DESIGN CHOICE (log 44). -/
def taskSwitch (kind : SwitchKind) (nsel : BitVec 16) (d : Desc) (eipSave : BitVec 32) (fl : Flags) : M Unit := do
  leaveTask kind nsel d eipSave fl
  enterTask kind

/-- A debug trap for the T bit of the current task's own TSS is being delivered, and the gate leads to that very task: the
processor loops (61 R325). -/
def debugLoop (w : Work) (tsel : BitVec 16) (d : Desc) : Bool :=
  w.taskTrap && tsel.extractLsb' 3 13 == w.s.tr.selector.extractLsb' 3 13 && d.p && d.typ == 0xB

/-- A selector of a TSS descriptor taken from a task gate, and the switch (44 R190, 60 R294). The debug handler whose own TSS has
T = 1 is not switched to again, which 44 R192 (A2) and R193 forbid: its trap is due once more, so that the processor does nothing
else from then on, 'a hang, not a fault' (61 R325): DEDUCED (log 46). -/
def switchThroughGate (kind : SwitchKind) (tsel : BitVec 16) (eipSave : BitVec 32) (fl : Flags) : M Unit := do
  checkSel (!isNull tsel && !selTi tsel) .gp tsel
  let d ← fetchDesc tsel .gp
  need (!(!d.s && (d.typ == 1 || d.typ == 3))) .format286
  checkSel (!d.s && (d.typ == 9 || d.typ == 0xB)) .gp tsel
  let w ← get
  if debugLoop w tsel d then upd fun s => { s with pendingDbg := s.pendingDbg ||| 0x8000#32 }
  else taskSwitch kind tsel d eipSave fl

/-- IRET with NT = 1: back to the task the back link names (44 R191). -/
def switchBack (eipSave : BitVec 32) (fl : Flags) : M Unit := do
  let s ← st
  need s.tr.valid .taskRegister
  let b ← linRead s.tr.base 2 false
  let bsel := lo16 b
  checkSel (!isNull bsel && !selTi bsel) .ts bsel
  let d ← fetchDesc bsel .ts
  need (!(!d.s && (d.typ == 1 || d.typ == 3))) .format286
  checkSel (!d.s && d.typ == 0xB) .ts bsel
  taskSwitch .iret bsel d eipSave fl

end Sys2Proof.Machine
end

