-- ==== Sys2Proof/Machine/Ops.lean ====
section
/-! DEFINITION. Taking an exception or interrupt and returning from one (60 R287-R297, 46 R220, R221), and how an
instruction's meaning is run to its end (60 R278, R283 step B9). Memory and register operations stand in Bytes, Memory,
Paging, Access and Descriptor. -/

namespace Sys2Proof.Machine

open Sys2Proof

/-! ### Entering a handler -/

/-- The error code a delivery pushes (60 R295, R312). -/
inductive ErrCode where
  | none
  | word (c : BitVec 16)
  | page (c : BitVec 3)
  deriving DecidableEq, Repr

/-- How many doublewords the error code takes. -/
def ErrCode.count : ErrCode → Nat
  | .none => 0
  | .word _ => 1
  | .page _ => 1

/-- Push the error code; its undefined bits are free (60 R295, R312). -/
def pushErr : ErrCode → M Unit
  | .none => pure ()
  | .word c => do
    let u ← draw16
    push (u ++ c) 4
  | .page c => do
    let v ← draw
    push ((v &&& 0xFFFFFFF8#32) ||| c.setWidth 32) 4

/-- The flags on entry through an interrupt or trap gate (60 R293). -/
def entryFlags (interruptGate : Bool) (f : Flags) : Flags :=
  { f with tf := false, if_ := f.if_ && !interruptGate, nt := false, rf := false }

/-- Entry without a change of level (60 R291). -/
def enterSame (tsel : BitVec 16) (t : Desc) (toff : BitVec 32) (image : Flags) (err : ErrCode) (ret : BitVec 32) :
    M Unit := do
  let s ← st
  let x ← extBit
  check (roomBelow s.segs.ss s.sp 4 (3 + err.count)) (.ss x)
  check (toff.ule t.effLimit) (.gp x)
  push image.toBits 4
  pushSel s.segs.cs.selector 4
  push ret 4
  pushErr err
  loadCs tsel s.cpl t toff

/-- Entry to an inner level (60 R292). -/
def enterInner (tsel : BitVec 16) (t : Desc) (toff : BitVec 32) (image : Flags) (err : ErrCode) (ret : BitVec 32) :
    M Unit := do
  let s ← st
  let x ← extBit
  let (sd, nss, nesp) ← innerStack t.dpl (5 + err.count)
  check (toff.ule t.effLimit) (.gp x)
  enterStack t.dpl sd nss nesp
  pushSel s.segs.ss.selector 4
  push (s.reg .esp) 4
  push image.toBits 4
  pushSel s.segs.cs.selector 4
  push ret 4
  pushErr err
  loadCs tsel t.dpl t toff

/-- Entry through an interrupt or trap gate (60 R289, R293). -/
def enterGate (g : Desc) (image : Flags) (err : ErrCode) (ret : BitVec 32) : M Unit := do
  let s ← st
  let x ← extBit
  let tsel := g.gateSel
  check (!isNull tsel) (.gp x)
  let t ← fetchDesc tsel .gp
  checkSel t.isCode .gp tsel
  checkSel (t.dpl.ule s.cpl) .gp tsel
  checkSel t.p .np tsel
  if !t.ec && t.dpl.ult s.cpl then enterInner tsel t g.gateOffset image err ret
  else enterSame tsel t g.gateOffset image err ret
  upd fun s => { s with flags := entryFlags (g.typ == 0xE) s.flags }

/-- Entry through a task gate (60 R294). -/
def enterTaskGate (g : Desc) (image : Flags) (err : ErrCode) (ret : BitVec 32) : M Unit := do
  switchThroughGate .call g.gateSel ret image
  pushErr err
  let s ← st
  let x ← extBit
  check (s.eip.ule s.segs.cs.limit) (.gp x)

/-- Delivery in real-address mode (60 R297). A vector beyond the table becomes exception 8, and what goes wrong from then
on goes wrong in a double fault: DEDUCED from 60 R296 (log 34). -/
def deliverReal (vec : Byte) (ret : BitVec 32) : M Unit := do
  let s ← st
  let lim := s.idtr.limit.toNat
  let inside := decide (4 * vec.toNat + 3 ≤ lim)
  let v := if inside then vec else 8#8
  if inside then pure () else upd fun s => { s with delivering := .double }
  if 4 * v.toNat + 3 ≤ lim then do
    need (!s.idtStale) .wrongModeIdt
    let entry ← physRead (s.idtr.base + (v.setWidth 32 <<< 2)) 4
    push s.flags.toBits 2
    push (s.segs.cs.selector.setWidth 32) 2
    push ret 2
    upd fun s => { s with flags := { s.flags with if_ := false, tf := false } }
    loadCsReal (hi16 entry) ((lo16 entry).setWidth 32)
  else shutdown

/-- Delivery in protected mode (60 R287, R288). -/
def deliverProtected (vec : Byte) (fault : Bool) (err : ErrCode) (soft : Bool) (ret : BitVec 32) : M Unit := do
  let s ← st
  let x ← extBit
  let ec := (vec.setWidth 16 <<< 3) + 2#16 + x
  check (decide (8 * vec.toNat + 7 ≤ s.idtr.limit.toNat)) (.gp ec)
  need (!s.idtStale) .wrongModeIdt
  let g ← readDescAt (s.idtr.base + (vec.setWidth 32 <<< 3))
  need (!(!g.s && (g.typ == 6 || g.typ == 7))) .format286
  check (!g.s && (g.typ == 5 || g.typ == 0xE || g.typ == 0xF)) (.gp ec)
  check (!soft || s.cpl.ule g.dpl) (.gp ec)
  check g.p (.np ec)
  let image := { s.flags with rf := s.flags.rf || fault }
  if g.typ = 5 then enterTaskGate g image err ret else enterGate g image err ret

/-- `Deliver` (60 R287). The accesses are the processor's own: no data breakpoint meets them (61 R322). -/
def deliver (vec : Byte) (fault : Bool) (err : ErrCode) (soft : Bool) (ret : BitVec 32) : M Unit := do
  mark fun w => { w with quiet := true }
  let s ← st
  if s.cr0.pe then deliverProtected vec fault err soft ret else deliverReal vec ret
  upd fun s => { s with delivering := .none, prefetch := Prefetch.empty }
  mark fun w => { w with quiet := false, jumped := true }

/-! ### Exceptions during instructions and deliveries (60 R278, R296) -/

/-- The vector of an exception (60 R277). -/
def Exc.vector : Exc → Byte
  | .de => 0 | .db _ => 1 | .br => 5 | .ud => 6 | .nm => 7 | .ts _ => 10 | .np _ => 11 | .ss _ => 12 | .gp _ => 13
  | .pf _ _ => 14 | .mf => 16

/-- The error code of an exception (60 R277). -/
def Exc.err : Exc → ErrCode
  | .ts c => .word c
  | .np c => .word c
  | .ss c => .word c
  | .gp c => .word c
  | .pf _ c => .page c
  | _ => .none

/-- The double-fault class of an exception (60 R296, Table 9-3). -/
def Exc.cls : Exc → Delivering
  | .de => .contributory
  | .ts _ => .contributory
  | .np _ => .contributory
  | .ss _ => .contributory
  | .gp _ => .contributory
  | .pf _ _ => .pageFault
  | _ => .benign

/-- A second exception that cannot be handled serially (60 R296, Table 9-4). -/
def isDouble (first second : Delivering) : Bool :=
  match first, second with
  | .contributory, .contributory => true
  | .pageFault, .contributory => true
  | .pageFault, .pageFault => true
  | _, _ => false

/-- What an exception writes before its delivery: CR2 (60 R312), DR6.BD and what is reported with it (61 R323, R326). -/
def Exc.note (e : Exc) (s : State) : State :=
  match e with
  | .pf la _ => { s with cr2 := la }
  | .db b => { s with dr6 := s.dr6 ||| 0x2000#32 ||| b }
  | _ => s

/-- Bits that the processor set in memory and that an exception does not undo (60 R278). -/
def replay (s : State) : List (BitVec 32 × Byte) → State
  | [] => s
  | (pa, m) :: t =>
    replay { s.putByte pa (s.byteAt pa ||| m) with
      prefetch := { s.prefetch with stored := ⟨pa.toNat, s.byteAt pa, false⟩ :: s.prefetch.stored } } t

/-- The state in which an exception is delivered: `s0` with the bits set in tables, the TLB and the world as they have
become; past the commit point of a task switch the new task's state (60 R278, 44 R195). -/
def rollback (s0 : State) (w : Work) : State :=
  if w.committed then { w.s with insn := Insn.empty }
  else { replay s0 w.sticky with
    tlb := w.s.tlb, env := w.s.env, delivering := w.s.delivering, insn := Insn.empty }

/-- The end of an instruction or a delivery: nothing of the instruction is left. -/
def endStep (s : State) : State := { s with insn := Insn.empty }

/-- Shutdown (61 R331). -/
def shutDown (s : State) : State := { s with inShutdown := true, insn := Insn.empty }

/-- `raise #XX` (60 R296): deliver the exception, a double fault in its place, or shut down. A delivery that raises again
is abandoned and the next one begins; no chain is longer than five (benign, contributory, page fault, double, shutdown). -/
def raiseExc : Nat → State → Exc → Host.Outcome State Fault Refusal
  | 0, s, _ => .next (shutDown s)
  | fuel + 1, s, e =>
    let s := e.note s
    if s.delivering = .double then .next (shutDown s)
    else
      let twice := isDouble s.delivering e.cls
      let s := { s with delivering := if twice then .double else e.cls }
      let d := if twice then deliver 8 false (.word 0) false s.eip else deliver e.vector true e.err false s.eip
      match d (Work.start s true) with
      | .ok _ w => .next (endStep w.s)
      | .error (.exc e') w => raiseExc fuel (rollback s w) e'
      | .error (.fault f) _ => .fault f
      | .error (.refuse r) _ => .refused r
      | .error .shutdown w => .next (shutDown (rollback s w))

/-- What comes of a meaning or a delivery that began in `s0`. -/
def settle (s0 : State) : EStateM.Result Stop Work Unit → Host.Outcome State Fault Refusal
  | .ok _ w => .next (endStep w.s)
  | .error (.exc e) w => raiseExc 6 (rollback s0 w) e
  | .error (.fault f) _ => .fault f
  | .error (.refuse r) _ => .refused r
  | .error .shutdown w => .next (shutDown (rollback s0 w))

/-- Deliver an event that is not an exception of an instruction: a debug exception, NMI or INTR (60 R283, R296).
`taskTrap`: a debug exception for a task switch (61 R325). -/
def deliverEvent (vec : Byte) (fault taskTrap : Bool) (s : State) : Host.Outcome State Fault Refusal :=
  let s := { s with delivering := .benign }
  settle s (deliver vec fault .none false s.eip { Work.start s true with taskTrap := taskTrap })

/-! ### Running an instruction -/

/-- The offset that EIP moves on to (10 R18); past FFFFFFFFH there is none (10 R19, 93 U39). -/
def eipNext : M (BitVec 32) := do
  let s ← st
  needNext s
  pure s.nextEip

/-- LOCK is allowed before the forms of 47 R230 only, REP before the string instructions only (30 R106). -/
def prefixesOk (lockable repeatable : Bool) : M Unit := do
  let s ← st
  check (!s.insn.lock || lockable) .ud
  need (!s.insn.repne && (!s.insn.rep || repeatable)) .repeatPrefix

/-- The DR6 bits of the disabled data breakpoints met: each is free (61 R322, R326). -/
def disabledBits : M (BitVec 32) := do
  let w ← get
  if w.hitOff = 0 then pure 0
  else do
    let v ← draw
    pure (w.hitOff &&& v)

/-- Collect the debug traps of a completed instruction (61 R322, R324): the enabled data breakpoints met exactly when LE or
GE is set, otherwise at this boundary, one instruction later or not at all, by a free choice. The bits of the disabled
ones go with whatever trap is reported (61 R326); after MOV SS and POP SS no trap of the instruction is (42 R155), so there
they go with an enabled one alone (61 R322). -/
def collectTraps (tf0 : Bool) (exact : Bool) : M Unit := do
  let off ← disabledBits
  upd fun s => { s with
    pendingDbg := s.pendingDbg ||| s.lateDbg ||| (if tf0 then 0x4000#32 else 0)
    lateDbg := 0 }
  upd fun s => if s.pendingDbg = 0 ∨ s.intShadow = true then s else { s with pendingDbg := s.pendingDbg ||| off }
  let w ← get
  let bits := w.hitOn ||| off
  if w.hitOn = 0 then pure ()
  else if exact then upd fun s => { s with pendingDbg := s.pendingDbg ||| bits }
  else do
    let v ← draw
    if bit v 0 then upd fun s => { s with pendingDbg := s.pendingDbg ||| bits }
    else if bit v 1 then upd fun s => { s with lateDbg := bits }
    else pure ()

/-- The end of an instruction that began in `s0` (60 R283 step B9): EIP advances unless the instruction set it, RF is
cleared but for the exceptions of 61 R327, and the debug traps are collected. A WAIT that waits has not ended (47 R226);
a REP with elements to come stays where it is (45 R209). Which data breakpoints are enabled is asked at each access, and
LE and GE are those with which the instruction began; after a JMP or CALL through memory that switches tasks, which clears
some of them (44 R192 C3), 61 R322 could be read otherwise: DEDUCED (log 21). -/
def finish (s0 : State) : M Unit := do
  let w ← get
  if w.waiting then pure ()
  else do
    if w.jumped || w.repeating then pure ()
    else do
      let e ← eipNext
      upd fun s => { s with eip := e }
    if w.keepRf || w.repeating then pure () else upd fun s => { s with flags := { s.flags with rf := false } }
    collectTraps s0.flags.tf (bit s0.dr7 8 || bit s0.dr7 9)

/-- Run a meaning from `s` to its end. -/
def runWith (lockable repeatable : Bool) (body : M Unit) (s : State) : Host.Outcome State Fault Refusal :=
  settle s ((do
    prefixesOk lockable repeatable
    body
    finish s : M Unit) (Work.start s false))

/-- An instruction that takes neither LOCK nor REP. -/
def run (body : M Unit) (s : State) : Host.Outcome State Fault Refusal := runWith false false body s

/-- `SoftInt(vec)` (46 R215): a delivery within the instruction, with EXT = 0 and the gate's DPL tested. What the delivery raises
is raised whatever offset it would save (93 U39; log 17). -/
def softInt (vec : Byte) : M Unit := do
  let s ← st
  upd fun s => { s with delivering := .benign }
  deliver vec false .none true s.nextEip
  needNext s

/-! ### Returning from a handler (46 R220, R221; 43 R181-R183) -/

/-- The checks on a popped CS selector and its descriptor (43 R181). -/
def returnCs (rcs : BitVec 16) : M Desc := do
  let s ← st
  checkSel (s.cpl.ule (selRpl rcs)) .gp rcs
  checkSel (!isNull rcs) .gp rcs
  let c ← fetchDesc rcs .gp
  checkSel c.isCode .gp rcs
  checkSel c.p .np rcs
  checkSel (c.ec || c.dpl == selRpl rcs) .gp rcs
  checkSel (!c.ec || c.dpl.ule (selRpl rcs)) .gp rcs
  pure c

/-- The checks on a popped SS selector and its descriptor (43 R183). -/
def returnSs (rss : BitVec 16) (pl : BitVec 2) : M Desc := do
  checkSel (!isNull rss) .gp rss
  let d ← fetchDesc rss .gp
  checkSel d.isWritableData .gp rss
  checkSel d.p .ss rss
  checkSel (d.dpl == pl) .gp rss
  checkSel (selRpl rss == d.dpl) .gp rss
  pure d

/-- A data segment register keeps what it holds at level `pl`, or becomes null (43 R183). -/
def dropSeg (pl : BitVec 2) (g : Seg) : Seg :=
  if g.valid && g.dpl.ult pl && !(g.s && g.exec && g.ec) then { g with selector := 0, valid := false } else g

/-- DS, ES, FS and GS after a return to an outer level (43 R183). -/
def dropSegs (pl : BitVec 2) (s : State) : State :=
  { s with segs := { s.segs with
      ds := dropSeg pl s.segs.ds, es := dropSeg pl s.segs.es, fs := dropSeg pl s.segs.fs, gs := dropSeg pl s.segs.gs } }

/-- The `k` bytes from `SP*` lie inside SS (43 R181, R183; 46 R220). -/
def roomAbove (k : Nat) : M Unit := do
  let s ← st
  let x ← extBit
  check (limitOk s.segs.ss s.sp k) (.ss x)

/-- The return to an outer level after its checks: CS, SS, the stack pointer with `adjust` added, and the data segment
registers (43 R183). The queue is emptied with the load of CS:EIP, so the accessed bit of SS counts as stored since the
transfer: DESIGN CHOICE (log 44). -/
def returnOuter (rcs rss : BitVec 16) (c sd : Desc) (roff resp adjust : BitVec 32) : M Unit := do
  upd fun s => { s with cpl := selRpl rcs }
  loadCs rcs (selRpl rcs) c roff
  setAccessed rss sd
  upd fun s => s.setSeg .ss (sd.toSeg rss)
  upd fun s => s.setSp (s.stackSize.add resp adjust)
  upd (dropSegs (selRpl rcs))

/-- `LoadFlags` (46 R221). -/
def loadFlags (v : BitVec 32) (z : Size) (pe : Bool) (cpl iopl : BitVec 2) (f : Flags) : Flags :=
  let n := Flags.ofBits v
  { n with
    if_ := if !pe || cpl.ule iopl then n.if_ else f.if_
    iopl := if !pe || cpl == 0 then n.iopl else f.iopl
    rf := match z with
      | .w16 => f.rf
      | .w32 => n.rf
    vm := f.vm }

/-- IRET in real-address mode (46 R220). -/
def iretReal : M Unit := do
  let s ← st
  let n := s.os.bytes
  let ip ← pop n
  let cs ← pop n
  let fl ← pop n
  let x ← extBit
  check (ip.ule s.segs.cs.limit) (.gp x)
  loadCsReal (lo16 cs) ip
  upd fun t => { t with flags := loadFlags fl s.os false 0 s.flags.iopl t.flags }

/-- IRET in protected mode with NT = 0 (46 R220). -/
def iretStack : M Unit := do
  let s ← st
  let n := s.os.bytes
  let x ← extBit
  roomAbove (3 * n)
  let roff ← stackRead 0 n
  let cs ← stackRead n n
  let fl ← stackRead (2 * n) n
  need (!(s.os == .w32 && bit fl 17 && s.cpl == 0)) .virtual8086
  let rcs := lo16 cs
  let c ← returnCs rcs
  if selRpl rcs = s.cpl then do
    check (roff.ule c.effLimit) (.gp x)
    loadCs rcs (selRpl rcs) c roff
    stackDrop (BitVec.ofNat 32 (3 * n))
  else do
    roomAbove (5 * n)
    let resp ← stackRead (3 * n) n
    let ss ← stackRead (4 * n) n
    let sd ← returnSs (lo16 ss) (selRpl rcs)
    check (roff.ule c.effLimit) (.gp x)
    returnOuter rcs (lo16 ss) c sd roff resp 0
  upd fun t => { t with flags := loadFlags fl s.os true s.cpl s.flags.iopl t.flags }

/-- IRET (46 R220): any return that completes ends the service of an NMI (60 R279), and RF stays as loaded (61 R327). One
whose task switch stops past its commit point has not completed: DEDUCED (log 39). -/
def iretBody : M Unit := do
  let s ← st
  if !s.cr0.pe then iretReal
  else if s.flags.nt then switchBack s.nextEip s.flags
  else iretStack
  upd fun s => { s with nmiInService := false }
  mark fun w => { w with keepRf := true }

end Sys2Proof.Machine
end

