-- ==== Sys2Proof/Machine/Flags.lean ====
section
/-! DEFINITION. The status flags (10 R21, 48 R233), the arithmetic of the support subset with its flags (48 R243-R265),
and the conditions (30 R119). -/

namespace Sys2Proof.Machine

open Sys2Proof

/-- An operand width in bits. -/
inductive Width where
  | w8 | w16 | w32
  deriving DecidableEq, Repr

def Width.bits : Width → Nat
  | .w8 => 8
  | .w16 => 16
  | .w32 => 32

def Width.bytes : Width → Nat
  | .w8 => 1
  | .w16 => 2
  | .w32 => 4

/-- The six status flags. -/
structure Status where
  cf : Bool
  pf : Bool
  af : Bool
  zf : Bool
  sf : Bool
  of : Bool
  deriving DecidableEq, Repr

/-- PF: the low byte has an even number of one bits (48 R233). -/
def parity (b : Byte) : Bool :=
  !((((((((b.getLsbD 0 ^^ b.getLsbD 1) ^^ b.getLsbD 2) ^^ b.getLsbD 3) ^^ b.getLsbD 4) ^^ b.getLsbD 5)
    ^^ b.getLsbD 6) ^^ b.getLsbD 7))

/-- ZF, SF and PF of a result, with the other three as given (48 R233). -/
def resultFlags {n : Nat} (r : BitVec n) (cf af of : Bool) : Status :=
  { cf := cf, pf := parity (r.setWidth 8), af := af, zf := r == 0, sf := r.msb, of := of }

/-- The sum `a + b + c` with its flags (48 R233). -/
def addWith {n : Nat} (a b : BitVec n) (c : Bool) : BitVec n × Status :=
  let r := a + b + BitVec.ofNat n c.toNat
  (r, resultFlags r (decide (2 ^ n ≤ a.toNat + b.toNat + c.toNat)) ((a ^^^ b ^^^ r).getLsbD 4)
    ((a ^^^ r) &&& (b ^^^ r)).msb)

/-- The difference `a - b - c` with its flags (48 R233). -/
def subWith {n : Nat} (a b : BitVec n) (c : Bool) : BitVec n × Status :=
  let r := a - b - BitVec.ofNat n c.toNat
  (r, resultFlags r (decide (a.toNat < b.toNat + c.toNat)) ((a ^^^ b ^^^ r).getLsbD 4)
    ((a ^^^ b) &&& (a ^^^ r)).msb)

/-- A logical result: CF = OF = 0, AF as given (48 R233). -/
def logicResult {n : Nat} (r : BitVec n) (af : Bool) : BitVec n × Status := (r, resultFlags r false af false)

/-- The two-operand operations in the order of their encodings, and TEST (48 R242-R251). -/
inductive AluOp where
  | add | or | adc | sbb | and | sub | xor | cmp | test
  deriving DecidableEq, Repr

/-- The result is written to the destination: all but CMP and TEST. -/
def AluOp.writes : AluOp → Bool
  | .cmp => false
  | .test => false
  | _ => true

/-- The operation leaves AF undefined (48 R233). -/
def AluOp.isLogic : AluOp → Bool
  | .or => true
  | .and => true
  | .xor => true
  | .test => true
  | _ => false

/-- Result and flags; `c` is the old CF, `af` the free value of a logical operation's AF (48 R243-R251). -/
def AluOp.apply {n : Nat} (op : AluOp) (a b : BitVec n) (c af : Bool) : BitVec n × Status :=
  match op with
  | .add => addWith a b false
  | .or => logicResult (a ||| b) af
  | .adc => addWith a b c
  | .sbb => subWith a b c
  | .and => logicResult (a &&& b) af
  | .sub => subWith a b false
  | .xor => logicResult (a ^^^ b) af
  | .cmp => subWith a b false
  | .test => logicResult (a &&& b) af

/-- The shifts (48 R258). -/
inductive ShiftOp where
  | shl | shr | sar
  deriving DecidableEq, Repr

/-- Result and flags of a shift by `c` from 1 to 31; `u` supplies CF, AF and OF where they are undefined
(48 R258-R261). -/
def ShiftOp.apply {n : Nat} (op : ShiftOp) (a : BitVec n) (c : Nat) (u : Status) : BitVec n × Status :=
  match op with
  | .shl =>
    let r := a <<< c
    let cf := if c ≤ n then a.getLsbD (n - c) else u.cf
    (r, resultFlags r cf u.af (if c = 1 then r.msb ^^ cf else u.of))
  | .shr =>
    let r := a >>> c
    let cf := if c ≤ n then a.getLsbD (c - 1) else u.cf
    (r, resultFlags r cf u.af (if c = 1 then a.msb else u.of))
  | .sar =>
    let r := a.sshiftRight c
    let cf := if c ≤ n then a.getLsbD (c - 1) else a.msb
    (r, resultFlags r cf u.af (if c = 1 then false else u.of))

/-- An operation on two operands of a width, on values held zero-extended. -/
def Width.binary (w : Width) (f : {n : Nat} → BitVec n → BitVec n → BitVec n × Status) (a b : BitVec 32) :
    BitVec 32 × Status :=
  match w with
  | .w8 => ((f (a.setWidth 8) (b.setWidth 8)).1.setWidth 32, (f (a.setWidth 8) (b.setWidth 8)).2)
  | .w16 => ((f (a.setWidth 16) (b.setWidth 16)).1.setWidth 32, (f (a.setWidth 16) (b.setWidth 16)).2)
  | .w32 => f a b

/-- An operation on one operand of a width. -/
def Width.unary (w : Width) (f : {n : Nat} → BitVec n → BitVec n × Status) (a : BitVec 32) : BitVec 32 × Status :=
  w.binary (fun x _ => f x) a 0

/-- The bit operations (48 R263-R265). -/
inductive BitOp where
  | bts | btr | btc
  deriving DecidableEq, Repr

/-- The item with bit `i` set, reset or complemented. -/
def BitOp.apply (op : BitOp) (v : BitVec 32) (i : Nat) : BitVec 32 :=
  match op with
  | .bts => v ||| (1#32 <<< i)
  | .btr => v &&& ~~~(1#32 <<< i)
  | .btc => v ^^^ (1#32 <<< i)

/-- The status flags of EFLAGS replaced. -/
def Flags.withStatus (f : Flags) (t : Status) : Flags :=
  { f with cf := t.cf, pf := t.pf, af := t.af, zf := t.zf, sf := t.sf, of := t.of }

/-- Write the status flags. -/
def setStatus (t : Status) : M Unit := upd fun s => { s with flags := s.flags.withStatus t }

/-- Write the status flags but CF (48 R252, R253). -/
def setStatusKeepCf (t : Status) : M Unit :=
  upd fun s => { s with flags := s.flags.withStatus { t with cf := s.flags.cf } }

/-- Six free flags. -/
def Status.ofDraw (v : BitVec 32) : Status :=
  { cf := bit v 0, pf := bit v 2, af := bit v 4, zf := bit v 6, sf := bit v 7, of := bit v 11 }

/-- Status flags that the manual leaves undefined (48 R256; 40 R136). -/
def drawStatus : M Status := do
  let v ← draw
  pure (Status.ofDraw v)

/-- Write ZF alone (41 R144). -/
def setZf (b : Bool) : M Unit := upd fun s => { s with flags := { s.flags with zf := b } }

end Sys2Proof.Machine

namespace Sys2Proof

/-- The condition of a conditional jump (30 R119). -/
def Cond.holds (c : Cond) (f : Machine.Flags) : Bool :=
  match c with
  | .o => f.of
  | .no => !f.of
  | .b => f.cf
  | .nb => !f.cf
  | .z => f.zf
  | .nz => !f.zf
  | .be => f.cf || f.zf
  | .nbe => !f.cf && !f.zf
  | .s => f.sf
  | .ns => !f.sf
  | .p => f.pf
  | .np => !f.pf
  | .l => f.sf != f.of
  | .nl => f.sf == f.of
  | .le => f.zf || f.sf != f.of
  | .nle => !f.zf && f.sf == f.of

end Sys2Proof
end

