-- ==== Sys2Proof/Machine/Operands.lean ====
section
/-! DEFINITION. Operand forms: effective addresses (30 R109-R111), the segment used (20 R83), and operands as places that
are read, checked and written at a width (48 R232). -/

namespace Sys2Proof

/-- The width of an operand of size `z`. -/
def Size.width : Size → Machine.Width
  | .w16 => .w16
  | .w32 => .w32

end Sys2Proof

namespace Sys2Proof.Machine

open Sys2Proof

/-- The value of a 16-bit base (30 R109), modulo 2^16 later. -/
def base16 (s : State) : Base16 → BitVec 32
  | .bxSi => s.reg .ebx + s.reg .esi
  | .bxDi => s.reg .ebx + s.reg .edi
  | .bpSi => s.reg .ebp + s.reg .esi
  | .bpDi => s.reg .ebp + s.reg .edi
  | .si => s.reg .esi
  | .di => s.reg .edi
  | .bp => s.reg .ebp
  | .bx => s.reg .ebx

def dispValue16 : Disp16 → BitVec 32
  | .none => 0
  | .d8 d => sext8 d
  | .d16 d => d.setWidth 32

def dispValue32 : Disp32 → BitVec 32
  | .none => 0
  | .d8 d => sext8 d
  | .d32 d => d

/-- The scaled index of a SIB byte; number 4 is no index (30 R110). -/
def indexValue (s : State) (scale : BitVec 2) (index : Reg) : BitVec 32 :=
  if index = .esp then 0 else s.reg index <<< scale.toNat

/-- The offset of a memory operand, "effective address" (30 R109, R110). It reads no memory and raises nothing
(30 R111). -/
def effAddr (s : State) : Mem → BitVec 32
  | .a16 b d => Size.w16.trunc (base16 s b + dispValue16 d)
  | .abs16 d => d.setWidth 32
  | .a32 b d => s.reg b + dispValue32 d
  | .abs32 d => d
  | .sib sc ix b d => s.reg b + indexValue s sc ix + dispValue32 d
  | .sibAbs sc ix d => indexValue s sc ix + d

/-- The default segment of a memory operand: SS with a BP, EBP or ESP base, else DS (20 R83, 30 R109, R110). -/
def defaultSeg : Mem → SegReg
  | .a16 .bpSi _ => .ss
  | .a16 .bpDi _ => .ss
  | .a16 .bp _ => .ss
  | .a32 .ebp _ => .ss
  | .sib _ _ .esp _ => .ss
  | .sib _ _ .ebp _ => .ss
  | _ => .ds

/-- The segment of a memory operand: an override replaces the default (30 R106). -/
def State.dataSeg (s : State) (dflt : SegReg) : SegReg := s.insn.seg.getD dflt

/-- Where an operand is: a register, or memory at an offset of a segment. -/
inductive Place where
  | reg8 (r : Reg8)
  | reg (z : Size) (r : Reg)
  | mem (seg : SegReg) (off : BitVec 32) (w : Width)
  deriving DecidableEq, Repr

def Place.width : Place → Width
  | .reg8 _ => .w8
  | .reg z _ => z.width
  | .mem _ _ w => w

/-- The operand is in memory. -/
def Place.isMem : Place → Bool
  | .mem _ _ _ => true
  | _ => false

/-- The place of a memory operand. -/
def memPlace (s : State) (m : Mem) (w : Width) : Place := .mem (s.dataSeg (defaultSeg m)) (effAddr s m) w

/-- The place of an 8-bit ModR/M operand. -/
def place8 (s : State) : RM Reg8 → Place
  | .reg r => .reg8 r
  | .mem m => memPlace s m .w8

/-- The place of a ModR/M operand of size `z`. -/
def placev (s : State) (z : Size) : RM Reg → Place
  | .reg r => .reg z r
  | .mem m => memPlace s m z.width

/-- The operand's value, zero-extended (48 R232). -/
def Place.read : Place → M (BitVec 32)
  | .reg8 r => do
    let s ← st
    pure ((s.reg8 r).setWidth 32)
  | .reg z r => do
    let s ← st
    pure (s.regv z r)
  | .mem g off w => memRead g off w.bytes

/-- Write the operand; a register keeps the bits above the width (10 R16). -/
def Place.write (p : Place) (v : BitVec 32) : M Unit :=
  match p with
  | .reg8 r => upd fun s => s.setReg8 r (v.setWidth 8)
  | .reg z r => upd fun s => s.setRegv z r v
  | .mem g off w => memWrite g off w.bytes v

/-- The write checks of an operand that is read first (48 R232). -/
def Place.probe : Place → M Unit
  | .reg8 _ => pure ()
  | .reg _ _ => pure ()
  | .mem g off w => memProbe g off w.bytes true

/-- A memory operand is required: a register form raises #UD (30 R120). -/
def needMem (rm : RM Reg) : M Mem :=
  match rm with
  | .mem m => pure m
  | .reg _ => raise .ud

/-- A memory destination, so that LOCK is allowed (47 R230). -/
def isMem {ρ : Type} : RM ρ → Bool
  | .mem _ => true
  | .reg _ => false

/-- A 16-bit operand: a register's low half or two bytes of memory (40, 41, 42). -/
def read16 (rm : RM Reg) : M (BitVec 16) := do
  let s ← st
  let v ← (placev s .w16 rm).read
  pure (lo16 v)

/-- Store a 16-bit value: two bytes of memory, or a register of size OS whose upper half is free when OS = 32
(40 R130, R132, R134; 42 R157). -/
def write16 (rm : RM Reg) (v : BitVec 16) : M Unit := do
  let s ← st
  match rm with
  | .mem m => (memPlace s m .w16).write (v.setWidth 32)
  | .reg r =>
    match s.os with
    | .w16 => upd fun t => t.setRegv .w16 r (v.setWidth 32)
    | .w32 => do
      let u ← draw16
      upd fun t => t.setReg r (u ++ v)

/-- A far pointer in memory: an offset of OS bits, then a selector (30 R113). -/
def readFarPtr (m : Mem) : M (BitVec 32 × BitVec 16) := do
  let s ← st
  let p ← memRead2 (s.dataSeg (defaultSeg m)) (effAddr s m) s.os.bytes 2
  pure (p.1, lo16 p.2)

end Sys2Proof.Machine
end

