-- ==== Sys2Proof/Machine/Fetch.lean ====
section
/-! DEFINITION. Reset as an event (70 R337), the instruction boundary (60 R283), and the fetch of an instruction with its
prefixes (30 R115, R116) under the hazards of the prefetch queue (70 R344). -/

namespace Sys2Proof.Machine

open Sys2Proof

/-! ### Reset -/

/-- Entry `i` of the TLB after reset: undefined (10 R58), its block by its place. -/
def drawTlbEntry (i : Nat) : M TlbEntry := do
  let a ← draw
  let b ← draw
  pure { page := a.extractLsb' 12 20, frame := b.extractLsb' 12 20, v := bit a 0, d := bit a 1, u := bit a 2,
         w := bit a 3, block := BitVec.ofNat 2 (i / 8), written := false }

/-- EAX after reset by the self-test (70 R338). -/
def resetEax (t : SelfTest) : M (BitVec 32) :=
  match t with
  | .passed => pure 0
  | .notRequested => draw
  | .failed v => pure (if v = 0 then 1 else v)

/-- The RESET signal (70 R337): the defined registers of 10 R57, a free value for each one of 10 R58, memory and the
world unchanged. -/
def resetSignal : M Unit := do
  let s ← st
  let p := s.env.platform
  let eax ← resetEax p.selfTest
  let edx ← draw
  let ecx ← draw
  let ebx ← draw
  let esp ← draw
  let ebp ← draw
  let esi ← draw
  let edi ← draw
  let cr2 ← draw
  let cr3 ← draw
  let gb ← draw
  let gl ← draw16
  let lb ← draw
  let ll ← draw
  let ls ← draw16
  let lv ← drawBit
  let tb ← draw
  let tl ← draw
  let ts ← draw16
  let d0 ← draw
  let d1 ← draw
  let d2 ← draw
  let d3 ← draw
  let d6 ← draw
  let d7 ← draw
  let t6 ← draw
  let t7 ← draw
  let tlb ← gather drawTlbEntry (List.range 32)
  upd fun s => { State.reset with
    gpr := { eax := eax, ecx := ecx, edx := hi16 edx ++ (3#8 ++ p.stepping), ebx := ebx, esp := esp, ebp := ebp,
             esi := esi, edi := edi }
    segs := SegRegs.reset p.csSelector.selector
    cr0 := { State.reset.cr0 with et := p.coproc == .i80387 }
    cr2 := cr2
    pdbr := cr3.extractLsb' 12 20
    gdtr := { base := gb, limit := gl }
    ldtr := { selector := ls, base := lb, limit := ll, valid := lv }
    tr := { selector := ts, base := tb, limit := tl, valid := false }
    dr0 := d0
    dr1 := d1
    dr2 := d2
    dr3 := d3
    dr6 := d6 &&& 0xE00F#32
    dr7 := d7 &&& 0xFFFF0000#32
    tr6 := t6 &&& 0xFFFFFFE1#32
    tr7 := t7 &&& 0xFFFFF01C#32
    tlb := tlb
    mem := s.mem
    env := s.env }

/-! ### The inputs of a step (61 R333) -/

/-- A write of another bus master (20 R97); bytes it writes to RAM may have been prefetched (20 R103). Executing one of them before
the next control transfer is refused like a byte that the program itself stored, of which alone 20 R103, 92 D7 and 70 R344
(item 3) speak; the old or the new byte by a free choice is the other reading: DESIGN CHOICE (log 16). Beyond the physical address
space there is nothing to write to (00 R7; `outsideWrite`). -/
def masterWrite (s : State) (c : Host.Cell) : State :=
  let pa := BitVec.ofNat 32 c.1
  if c.1 < 2 ^ 32 ∧ s.kindAt pa = .ram then
    { s.putByte pa c.2 with prefetch := { s.prefetch with stored := ⟨pa.toNat, s.byteAt pa, false⟩ :: s.prefetch.stored } }
  else s

def masterWrites (s : State) : List Host.Cell → State
  | [] => s
  | c :: t => masterWrites (masterWrite s c) t

/-- What the coming step meets: the first of the inputs, or nothing new. -/
def nextInput (s : State) : StepInput :=
  match s.env.inputs with
  | i :: _ => i
  | [] => { reset := false, nmi := false, intr := s.env.intr, busy := s.env.busy, error := s.env.error,
            ice := s.env.ice, writes := [] }

/-- Without a coprocessor BUSY# and ERROR# are tied inactive (47 R223). -/
def Platform.coprocPin (p : Platform) (level : Bool) : Bool := level && p.coproc != .none

/-- The pins take the levels of the input and the other masters have written (log 7). -/
def takeInput (s : State) : State :=
  let i := nextInput s
  masterWrites { s with env := { s.env with
    intr := i.intr, busy := s.env.platform.coprocPin i.busy, error := s.env.platform.coprocPin i.error, ice := i.ice,
    inputs := s.env.inputs.tail } } i.writes

/-- A write of another bus master beyond the physical address space (00 R7): a processor that runs stops with a fault. -/
def outsideWrite (i : StepInput) : Option Nat := (i.writes.map Prod.fst).find? fun a => decide (2 ^ 32 ≤ a)

/-! ### The boundary (60 R283) -/

/-- What the processor does at a boundary. -/
inductive Action where
  /-- deliver an event: its identifier, whether it is a fault, and whether it is a debug trap for a task switch (60 R283 B3
  to B6; 61 R325) -/
  | event (vec : Byte) (fault taskTrap : Bool)
  /-- halted, nothing to do (B7) -/
  | idle
  /-- run an instruction (B8) -/
  | instruction
  deriving DecidableEq, Repr

/-- Step B2: the shadow of MOV SS and POP SS ends, NMI is sampled, and traps of the shadowed instruction are recorded
without a delivery (42 R155, 60 R284). -/
def sample (nmi : Bool) (s : State) : State :=
  { s with
    intShadow := false
    stiShadow := false
    pendingNmi := s.pendingNmi || (nmi && !s.nmiInService)
    dr6 := if s.intShadow then s.dr6 ||| s.pendingDbg else s.dr6
    pendingDbg := if s.intShadow then 0 else s.pendingDbg }

/-- The instruction breakpoints at an address, enabled or not (61 R321). -/
def fetchMatch (s : State) (la : BitVec 32) (n : Nat) : Bool :=
  dr7Defined s.dr7 n && dr7Rw s.dr7 n == 0 && s.drAddr n == la

/-- Steps B3 to B7 after B2 made of `s0` the state at hand: what comes first. -/
def boundary (shadow sti : Bool) : M Action := do
  let s ← st
  if s.pendingDbg ≠ 0 then do
    upd fun s => { s with dr6 := s.dr6 ||| s.pendingDbg, pendingDbg := 0, halted := false }
    pure (.event 1 false (bit s.pendingDbg 15))
  else do
    let la := s.segs.cs.base + s.eip
    let watch := !s.halted && !shadow && !s.flags.rf && s.dr7.extractLsb' 0 8 != 0
    need (!watch || breakpointsDefined fetchDefined s) .breakpointEncoding
    let on := dbgBits fun n => dr7Enabled s.dr7 n && fetchMatch s la n
    let off := dbgBits fun n => !dr7Enabled s.dr7 n && fetchMatch s la n
    if watch && on != 0 then do
      let v ← (if off = 0 then pure 0 else draw)
      upd fun s => { s with dr6 := s.dr6 ||| on ||| (off &&& v) }
      pure (.event 1 true false)
    else if s.pendingNmi && !shadow then do
      upd fun s => { s with pendingNmi := false, nmiInService := true, halted := false }
      pure (.event 2 false false)
    else do
      let go : Option Byte := if s.flags.if_ && !shadow then s.env.intr else none
      match go with
      | some vec => do
        let held ← (if sti then drawBit else pure false)
        if held then pure (if s.halted then .idle else .instruction)
        else do
          upd fun s => { s with halted := false }
          pure (.event vec false false)
      | none => pure (if s.halted then .idle else .instruction)

/-! ### The fetch -/

/-- A prefix byte (30 R106). -/
def isPfx : Instr → Bool
  | .lock => true
  | .rep => true
  | .repne => true
  | .segEs => true
  | .segCs => true
  | .segSs => true
  | .segDs => true
  | .segFs => true
  | .segGs => true
  | .opSize => true
  | .addrSize => true
  | _ => false

/-- A JMP, as the hazards of PE and PG require (70 R343, R344). -/
def isJmp : Instr → Bool
  | .jmpRel8 _ => true
  | .jmpRel _ => true
  | .jmpRm _ => true
  | .jmpPtr _ _ => true
  | .jmpFarM _ => true
  | _ => false

/-- A code byte at a physical address. One stored since the last control transfer may be the old or the new one: refused
(70 R344). -/
def codeByteAt (pa : BitVec 32) : M Byte := do
  let s ← st
  need (!s.prefetch.stored.any fun c => c.pa == pa.toNat) .storedAhead
  physReadByte pa

/-- A code byte through the page mapping in force. -/
def codeByte (la : BitVec 32) : M Byte := do
  let s ← st
  let pas ← linAccess la 1 false (userLevel s)
  codeByteAt (pas.headD 0)

/-- A page mapping and the memory that its tables were read from. -/
abbrev Moment := PageMap × List Host.Cell

/-- The mappings of `maps` that were in force when `n` bytes had been stored. At the end of a mapping the TLB is asked for
every entry that it held up to then (those replaced before are in `Prefetch.gone`); at the other moments the tables alone. -/
def mapsAt (maps : List PageMap) (n : Nat) : List PageMap :=
  (maps.filter fun m => decide (m.first ≤ n) && decide (n ≤ m.last)).map fun m =>
    { m with tlb := if n = m.last then m.tlb else [] }

/-- The moments at which one of the mappings `maps` was in force, going back store by store from the memory given (20 R103, 70
R344); none is within an access (`within`). -/
def moments (maps : List PageMap) : Bool → List Host.Cell → List Stored → List Moment
  | within, mem, stored =>
    let here := if within then [] else (mapsAt maps stored.length).map fun m => (m, mem)
    match stored with
    | [] => here
    | c :: t => here ++ moments maps c.rest (Memory.write mem c.pa c.old) t

/-- Where a page mapping puts a linear address for the fetch, none where it puts it nowhere (a page fault, tables where nothing
responds). Prefetching raises no exception (70 R344 item 4). That it changes nothing but the free values drawn, so that a read-ahead
through the page tables sets no accessed bit and fills no TLB entry, no rule says: DESIGN CHOICE (log 16). -/
def mappedBy (la : BitVec 32) (m : Moment) : M (Option (BitVec 32)) := fun w =>
  let drawn (v : Work) : Work := { w with s := { w.s with env := { v.s.env with bus := w.s.env.bus } } }
  match translate la false (userLevel w.s)
      { w with s := { w.s with cr0 := { w.s.cr0 with pg := m.1.pg }, pdbr := m.1.pdbr, tlb := m.1.tlb, mem := m.2 } } with
  | .ok x v => .ok (some x.pa) (drawn v)
  | .error _ v => .ok none (drawn v)

/-- Where the TLB entries replaced since the last control transfer put a linear address, as far as they let it be fetched. -/
def goneAt (s : State) (la : BitVec 32) : List (BitVec 32) :=
  (s.prefetch.gone.filter fun e => e.page == pageOf la && pageAllows false (userLevel s) e.u e.w).map fun e => inFrame e.frame la

/-- A place from which the queue may hold a byte: none where nothing responds (92 D13; log 16). -/
def prefetchable (s : State) (o : Option (BitVec 32)) : Option (BitVec 32) := o.filter fun pa => s.kindAt pa != .nothing

/-- The places other than `here` among those given. -/
def elsewhere (here : Option (BitVec 32)) (l : List (Option (BitVec 32))) : List (BitVec 32) :=
  (l.filterMap id).filter fun pa => here != some pa

/-- The byte that the queue holds from one of the places given, or else what `fresh` answers, by a free choice (20 R103; log
16). -/
def heldOr (fresh : M Byte) : List (BitVec 32) → M Byte
  | [] => fresh
  | pa :: t => do
    let held ← drawBit
    if held then codeByteAt pa else heldOr fresh t

/-- A code byte where bytes may have been prefetched under another page mapping, by other tables or through a TLB entry that has
been replaced, and whether it is identity-mapped as a change of PG requires (20 R103; 70 R343, R344). It is fetched by the mapping
in force or was prefetched from wherever one of the earlier ones puts it, by a free choice. Right after a change of PG the newest
mapping before the change is asked: where that puts the byte elsewhere than the mapping in force, it is the queue's, which only a
JMP may be made of, and where the queue cannot hold it from there (no page, or nothing that responds), no instruction but a JMP
may be made of it either: DEDUCED (log 16). -/
def queuedByte (la : BitVec 32) : M (Byte × Bool) := do
  let s ← st
  let now ← mappedBy la (s.pageMap, s.mem)
  let own ← gather (mappedBy la) (moments [s.pageMap] false s.mem s.prefetch.stored).tail
  let earlier ← gather (mappedBy la) (moments s.prefetch.maps false s.mem s.prefetch.stored)
  let own := own.map (prefetchable s)
  let earlier := earlier.map (prefetchable s)
  let gone := (goneAt s la).map fun pa => prefetchable s (some pa)
  if (own ++ earlier ++ gone).all (fun o => o == now) then do
    let b ← codeByte la
    pure (b, true)
  else
    match s.prefetch.pg, earlier with
    | true, some pa :: older =>
      if now == some pa then do
        let b ← heldOr (codeByte la) (elsewhere now (own ++ older ++ gone))
        pure (b, true)
      else do
        let b ← heldOr (codeByteAt pa) (elsewhere (some pa) (older ++ gone))
        pure (b, false)
    | pg, _ => do
      let b ← heldOr (codeByte la) (elsewhere now (own ++ earlier ++ gone))
      pure (b, !pg)

/-- Byte `k` of the instruction at CS:EIP (30 R116), and whether it is identity-mapped as a change of PG requires. The bytes
of an instruction are read when it runs and none is read ahead of it: that the queue may have read further, which only a
device next to the code could see (70 R344 item 5), is not in the record of bus accesses: DESIGN CHOICE (log 16). The limit
of CS is the one in force, also for the JMP after a change of PE, which may have been prefetched under another: DESIGN
CHOICE (log 16). -/
def fetchByte (k : Nat) : M (Byte × Bool) := do
  let s ← st
  need (decide (s.eip.toNat + k < 2 ^ 32)) .eipWrap
  let off := s.eip + BitVec.ofNat 32 k
  check (limitOk s.segs.cs off 1) (.gp 0)
  let la := s.segs.cs.base + off
  if s.prefetch.maps.isEmpty && (s.prefetch.stored.isEmpty || !s.cr0.pg) && (goneAt s la).isEmpty then do
    let b ← codeByte la
    pure (b, true)
  else queuedByte la

/-- The hazards of a change of PE or PG at the instruction about to run, a JMP or not: right after the change, a JMP, or for PG
code that lies at the same place as before (70 R343, R344). For later instructions after a change of PG no rule asks more than
for any other change of the mapping: DEDUCED (log 16). -/
def hazardStop (s : State) (jmp ident : Bool) : Option Refusal :=
  if s.prefetch.pe && !jmp then some .jumpAfterPe
  else if s.prefetch.pg && !jmp && !ident then some .jumpAfterPg
  else none

/-- An instruction outside the subset, which the model refuses (92 D16). With LOCK before it it is #UD, as none of them may
take LOCK (30 R120 c, 47 R230). -/
def outsideInstr {α : Type} (m : String) (ident : Bool) : M α := do
  let s ← st
  if s.insn.lock then
    match hazardStop s false ident with
    | some r => refuse r
    | none => raise .ud
  else refuse (.outsideOpcode m)

/-- Read and decode one instruction or prefix: bytes are fetched as the decoder asks for them, no more than 15 with the
prefixes (30 R115, R122). `bytes` are those read so far. An opcode without a rule is refused or #UD as soon as the decoder
knows it, so no exception of the bytes after those comes first (a length over 15, a fault of their fetch): DEDUCED (log 40). -/
def fetchInstr : Nat → List Byte → Bool → M (Instr × Nat × Bool)
  | 0, _, _ => raise (.gp 0)
  | fuel + 1, bytes, ident => do
    let s ← st
    match decode s.os s.as bytes with
    | .ok i n => pure (i, n, ident)
    | .outside m => outsideInstr m ident
    | .unassigned => refuse .unassignedOpcode
    | .more => do
      check (decide (s.insn.len + bytes.length < 15)) (.gp 0)
      let (b, same) ← fetchByte (s.insn.len + bytes.length)
      fetchInstr fuel (bytes ++ [b]) (ident && same)

/-- After a change of PE that changed the default sizes the bytes ahead may have been decoded under the old ones or not: a
free choice (20 R103, 70 R344; log 16). -/
def chooseSizes : M Unit := do
  let s ← st
  if s.prefetch.resized then do
    let old ← drawBit
    upd fun s => { s with insn := { s.insn with stale := old } }
  else pure ()

/-- The state in which the instruction runs: its length is known, and the hazards of PE and PG are past. -/
def beginInstr (s : State) (n : Nat) : State :=
  { s with
    insn := { s.insn with len := s.insn.len + n }
    prefetch := { s.prefetch with
      pe := false
      resized := false
      pg := false } }

/-- Prefixes and then the instruction itself, each run by `ex` (log 9). -/
def runInstr (ex : Instr → State → Host.Outcome State Fault Refusal) :
    Nat → Bool → State → Host.Outcome State Fault Refusal
  | 0, _, s => settle s (raise (.gp 0) (Work.start s false))
  | fuel + 1, ident, s =>
    match fetchInstr 16 [] ident (Work.start s false) with
    | .ok (i, n, same) w =>
      if isPfx i then
        match ex i w.s with
        | .next t => runInstr ex fuel same t
        | .fault f => .fault f
        | .refused r => .refused r
      else
        match hazardStop w.s (isJmp i) same with
        | some r => .refused r
        | none => ex i (beginInstr w.s n)
    | .error e w => settle s (.error e w)

/-- One step of the processor (60 R283), `ex` running one instruction. -/
def processorStep (ex : Instr → State → Host.Outcome State Fault Refusal) (s : State) :
    Host.Outcome State Fault Refusal :=
  let i := nextInput s
  let s := takeInput s
  if i.reset then
    match resetSignal (Work.start s false) with
    | .ok _ w => .next w.s
    | .error e w => settle s (.error e w)
  else if s.inShutdown then .next s
  else if let some a := outsideWrite i then .fault (.outsideMemory a)
  else
    match boundary s.intShadow s.stiShadow (Work.start (sample i.nmi s) false) with
    | .ok (.event vec fault taskTrap) w => deliverEvent vec fault taskTrap w.s
    | .ok .idle w => .next w.s
    | .ok .instruction w =>
      match chooseSizes w with
      | .ok _ v => runInstr ex 16 true v.s
      | .error e v => settle s (.error e v)
    | .error e w => settle s (.error e w)

/-! ### Placing an instruction -/

/-- Where a linear address lies, by the tables as they are, without any effect; the address itself where no translation
is. -/
def placeOf (s : State) (la : BitVec 32) : BitVec 32 :=
  if s.cr0.pg then
    match s.peek (pdeAddr s la) with
    | some pde =>
      match s.peek (pteAddr pde la) with
      | some pte => inFrame (pte.extractLsb' 12 20) la
      | none => la
    | none => la
  else la

/-- Store bytes at linear addresses from `la`. -/
def placeBytes (s : State) (la : BitVec 32) : List Byte → State
  | [] => s
  | b :: t => placeBytes (s.putByte (placeOf s la) b) (la + 1) t

/-- `s` with the bytes of an instruction where the next fetch reads, and nothing prefetched that could be stale. -/
def placeInstr (s : State) (bytes : List Byte) : State :=
  { placeBytes s (s.segs.cs.base + s.eip) bytes with prefetch := Prefetch.empty }

end Sys2Proof.Machine
end

