-- ==== Sys2Proof/Machine/System.lean ====
section
/-! DEFINITION. The system-register instructions (40_system_registers.md). -/

namespace Sys2Proof.Machine

open Sys2Proof

/-- Privileged instructions run at CPL 0 only (40 R124). -/
def privileged : M Unit := do
  let s ← st
  check (s.effCpl == 0) (.gp 0)

/-- Instructions of protected mode only (30 R120). -/
def protectedOnly : M Unit := do
  let s ← st
  check s.cr0.pe .ud

/-! ### Descriptor-table registers -/

/-- A limit and base in memory (40 R125, R127): with OS = 16 the base has 24 bits. -/
def readTableReg (m : Mem) : M TableReg := do
  let s ← st
  let p ← memRead2 (s.dataSeg (defaultSeg m)) (effAddr s m) 2 4
  pure { limit := lo16 p.1, base := match s.os with
    | .w16 => p.2 &&& 0xFFFFFF#32
    | .w32 => p.2 }

/-- Store a limit and base (40 R126, R128): with OS = 16 the sixth byte is free. -/
def writeTableReg (m : Mem) (t : TableReg) : M Unit := do
  let s ← st
  let base ← (match s.os with
    | .w32 => pure t.base
    | .w16 => do
      let v ← draw
      pure ((t.base &&& 0xFFFFFF#32) ||| (v &&& 0xFF000000#32)) : M (BitVec 32))
  memWrite2 (s.dataSeg (defaultSeg m)) (effAddr s m) 2 4 (t.limit.setWidth 32) base

/-- LGDT (40 R125). -/
def execLgdt (rm : RM Reg) (s : State) : Host.Outcome State Fault Refusal :=
  run (do
    let m ← needMem rm
    privileged
    let t ← readTableReg m
    upd fun s => { s with gdtr := t }) s

/-- SGDT (40 R126). -/
def execSgdt (rm : RM Reg) (s : State) : Host.Outcome State Fault Refusal :=
  run (do
    let m ← needMem rm
    let s ← st
    writeTableReg m s.gdtr) s

/-- LIDT (40 R127): from now on the table is the one software loaded for this mode (70 R342). -/
def execLidt (rm : RM Reg) (s : State) : Host.Outcome State Fault Refusal :=
  run (do
    let m ← needMem rm
    privileged
    let t ← readTableReg m
    upd fun s => { s with idtr := t, idtStale := false }) s

/-- SIDT (40 R128). -/
def execSidt (rm : RM Reg) (s : State) : Host.Outcome State Fault Refusal :=
  run (do
    let m ← needMem rm
    let s ← st
    writeTableReg m s.idtr) s

/-- LLDT (40 R129). -/
def execLldt (rm : RM Reg) (s : State) : Host.Outcome State Fault Refusal :=
  run (do
    protectedOnly
    privileged
    let sel ← read16 rm
    if isNull sel then upd fun s => { s with ldtr := { s.ldtr with selector := sel, valid := false } }
    else do
      checkSel (!selTi sel) .gp sel
      let d ← fetchDesc sel .gp
      checkSel (!d.s && d.typ == 2) .gp sel
      checkSel d.p .np sel
      upd fun s => { s with ldtr := { selector := sel, base := d.base, limit := d.effLimit, valid := true } }) s

/-- SLDT (40 R130). -/
def execSldt (rm : RM Reg) (s : State) : Host.Outcome State Fault Refusal :=
  run (do
    protectedOnly
    let s ← st
    write16 rm s.ldtr.selector) s

/-! ### Task register -/

/-- LTR (40 R131). -/
def execLtr (rm : RM Reg) (s : State) : Host.Outcome State Fault Refusal :=
  run (do
    protectedOnly
    privileged
    let sel ← read16 rm
    check (!isNull sel) (.gp 0)
    checkSel (!selTi sel) .gp sel
    let d ← fetchDesc sel .gp
    need (!(!d.s && d.typ == 1)) .format286
    checkSel (!d.s && d.typ == 9) .gp sel
    checkSel d.p .np sel
    setAccessBits sel 2
    upd fun s => { s with tr := { selector := sel, base := d.base, limit := d.effLimit, valid := true } }) s

/-- STR (40 R132); before LTR or a task switch the value is free (10 R35). -/
def execStr (rm : RM Reg) (s : State) : Host.Outcome State Fault Refusal :=
  run (do
    protectedOnly
    let s ← st
    let v ← (if s.tr.valid then pure s.tr.selector else draw16)
    write16 rm v) s

/-! ### CR0 -/

/-- A segment register after a return to real-address mode: its base stays, its limit is FFFFH and its attributes are
those of real-address mode (20 R65; log 30). -/
def Seg.toReal (code : Bool) (g : Seg) : Seg := { Seg.real g.selector g.base with exec := code, valid := g.valid }

/-- The segment registers after a return to real-address mode (20 R65; log 30). -/
def SegRegs.toReal (g : SegRegs) : SegRegs :=
  { es := g.es.toReal false, cs := g.cs.toReal true, ss := g.ss.toReal false, ds := g.ds.toReal false,
    fs := g.fs.toReal false, gs := g.gs.toReal false }

/-- CR0 takes a new value: entering and leaving protected mode and paging with their hazards (40 R137; 70 R341, R343,
R344). A change of PE leaves the interrupt table in the format of the other mode (70 R342), and the bytes ahead decoded in
the old mode where CS has 32-bit default sizes (70 R344; log 16). Leaving protected mode makes the segment registers those
of real-address mode: DEDUCED (log 30). -/
def writeCr0 (c : Cr0) (s : State) : State :=
  let peChange := c.pe != s.cr0.pe
  let pgChange := c.pg != s.cr0.pg
  { s with
    cr0 := c
    cpl := if peChange then 0 else s.cpl
    segs := if s.cr0.pe && !c.pe then s.segs.toReal else s.segs
    idtStale := s.idtStale || peChange
    prefetch := { s.prefetch with
      pe := s.prefetch.pe || peChange
      resized := s.prefetch.resized || (peChange && s.segs.cs.db)
      pg := s.prefetch.pg || pgChange
      maps := if pgChange then s.pageMap :: s.prefetch.maps else s.prefetch.maps } }

/-- CR3 takes a new directory: the TLB is flushed (20 R96), and with paging on the bytes ahead may have been prefetched
under the old one (20 R103; log 16). -/
def writeCr3 (v : BitVec 32) (s : State) : State :=
  flushTlb { s with
    pdbr := v.extractLsb' 12 20
    prefetch := { s.prefetch with
      maps := if s.cr0.pg then s.pageMap :: s.prefetch.maps else s.prefetch.maps } }

/-- LMSW (40 R133). -/
def execLmsw (rm : RM Reg) (s : State) : Host.Outcome State Fault Refusal :=
  run (do
    privileged
    let v ← read16 rm
    upd fun s => writeCr0 { s.cr0 with
      pe := s.cr0.pe || v.getLsbD 0, mp := v.getLsbD 1, em := v.getLsbD 2, ts := v.getLsbD 3 } s) s

/-- SMSW (40 R134). -/
def execSmsw (rm : RM Reg) (s : State) : Host.Outcome State Fault Refusal :=
  run (do
    let s ← st
    let u ← draw16
    write16 rm (lo16 s.cr0.toBits ||| (u &&& 0xFFE0#16))) s

/-- CLTS (40 R135). -/
def execClts (s : State) : Host.Outcome State Fault Refusal :=
  run (do
    privileged
    upd fun s => { s with cr0 := { s.cr0 with ts := false } }) s

/-- The status flags after a MOV to or from a control, debug or test register are free (40 R136). -/
def freeStatus : M Unit := do
  let t ← drawStatus
  setStatus t

/-- MOV r32, CRn (40 R136). -/
def execMovRCr (r : Reg) (n : BitVec 3) (s : State) : Host.Outcome State Fault Refusal :=
  run (do
    privileged
    need (n == 0 || n == 2 || n == 3) .controlRegister
    let s ← st
    let u ← draw
    let v := if n = 0 then s.cr0.toBits ||| (u &&& cr0Reserved)
      else if n = 2 then s.cr2
      else s.pdbr ++ u.extractLsb' 0 12
    upd fun s => s.setReg r v
    freeStatus) s

/-- MOV CRn, r32 (40 R137). -/
def execMovCrR (n : BitVec 3) (r : Reg) (s : State) : Host.Outcome State Fault Refusal :=
  run (do
    privileged
    need (n == 0 || n == 2 || n == 3) .controlRegister
    let s ← st
    let v := s.reg r
    if n = 0 then do
      check (!bit v 31 || bit v 0) (.gp 0)
      upd (writeCr0 (Cr0.ofBits v))
    else if n = 2 then upd fun s => { s with cr2 := v }
    else upd (writeCr3 v)
    freeStatus) s

/-! ### Debug registers -/

/-- The general detect fault while ICE-386 uses the debug registers (61 R323). An instruction breakpoint at the same address,
disabled or passed over because of RF or the shadow of MOV SS, may be reported with it (61 R326; log 22). -/
def generalDetect : M Unit := do
  let s ← st
  if s.env.ice then do
    let met := dbgBits (fetchMatch s (s.segs.cs.base + s.eip))
    let v ← (if met = 0 then pure 0 else draw)
    raise (.db (met &&& v))
  else pure ()

/-- MOV r32, DRn (40 R138). -/
def execMovRDr (r : Reg) (n : BitVec 3) (s : State) : Host.Outcome State Fault Refusal :=
  run (do
    privileged
    generalDetect
    need (n != 4 && n != 5) .debugRegister
    let s ← st
    let u ← draw
    let v := if n = 0 then s.dr0 else if n = 1 then s.dr1 else if n = 2 then s.dr2 else if n = 3 then s.dr3
      else if n = 6 then s.dr6 ||| (u &&& 0xFFFF1FF0#32)
      else s.dr7 ||| (u &&& 0xFC00#32)
    upd fun s => s.setReg r v
    freeStatus) s

/-- A write of a debug register; reserved bits of DR6 and DR7 store nothing (10 R49, R50). -/
def writeDr (n : BitVec 3) (v : BitVec 32) (s : State) : State :=
  if n = 0 then { s with dr0 := v } else if n = 1 then { s with dr1 := v } else if n = 2 then { s with dr2 := v }
  else if n = 3 then { s with dr3 := v } else if n = 6 then { s with dr6 := v &&& 0xE00F#32 }
  else { s with dr7 := v &&& 0xFFFF03FF#32 }

/-- MOV DRn, r32 (40 R139). -/
def execMovDrR (n : BitVec 3) (r : Reg) (s : State) : Host.Outcome State Fault Refusal :=
  run (do
    privileged
    generalDetect
    need (n != 4 && n != 5) .debugRegister
    upd fun s => writeDr n (s.reg r) s
    freeStatus) s

/-! ### Test registers and the TLB test (40 R140-R142; 10 R52, R53) -/

/-- MOV r32, TRn (40 R140). -/
def execMovRTr (r : Reg) (n : BitVec 3) (s : State) : Host.Outcome State Fault Refusal :=
  run (do
    privileged
    need (n == 6 || n == 7) .testRegister
    let s ← st
    let u ← draw
    let v := if n = 6 then s.tr6 ||| (u &&& 0x1E#32) else s.tr7 ||| (u &&& 0xFE3#32)
    upd fun s => s.setReg r v
    freeStatus) s

/-- Each attribute of a command in TR6 differs from its complement (10 R52, Table 10-1); a lookup with another pair is refused
(40 R142; 93 U16). -/
def properAttrs (v : BitVec 32) : Bool := bit v 10 != bit v 9 && bit v 8 != bit v 7 && bit v 6 != bit v 5

/-- The same place of the TLB: the same block, and the same entry of it (40 R142; log 12). -/
def samePlace (block : BitVec 2) (page : BitVec 20) (b : BitVec 2) (p : BitVec 20) : Bool :=
  b == block && (p == page || Config.tlbSlot p == Config.tlbSlot page)

/-- The attribute that a TLB write gives an entry, from its pair X, X# in TR6: where the pair is undefined, a free bit (40 R142),
though 93 (U16) would refuse such a write: DEDUCED (log 42). -/
def writtenAttr (x complement : Bool) : M Bool := if x != complement then pure x else drawBit

/-- TLB write (40 R142). An entry at an unknown place (made by a walk, drawn at RESET, or written by the test registers
before a later fill) counts as replaced when it has the same tag, where R142 would refuse if it were still there and
elsewhere: DESIGN CHOICE (log 13). -/
def tlbWrite (v : BitVec 32) : M Unit := do
  let s ← st
  need (bit s.tr7 4) .tlbHit
  let d ← writtenAttr (bit v 10) (bit v 9)
  let u ← writtenAttr (bit v 8) (bit v 7)
  let w ← writtenAttr (bit v 6) (bit v 5)
  let block := s.tr7.extractLsb' 2 2
  let page := pageOf v
  let e : TlbEntry := { page := page, frame := s.tr7.extractLsb' 12 20, v := bit v 11, d := d, u := u, w := w,
                        block := block, written := true }
  let there (o : TlbEntry) : Bool := o.written && samePlace block page o.block o.page
  let others := s.tlb.filter fun o => !there o
  need (!others.any fun o => o.written && o.page == page && o.v == e.v) .tlbDuplicate
  upd fun s => { s with
    tlb := e :: others.filter fun o => !(o.page == page && o.v == e.v)
    prefetch := s.replaced (s.tlb.filter fun o => there o || (o.page == page && o.v == e.v))
    tlbWritten := if s.tlbWritten.contains (block, page) then s.tlbWritten else (block, page) :: s.tlbWritten }

/-- The entries that are there: those whose place is known, and of the others each one or not, by a free choice
(92 D15). -/
def presentEntries : List TlbEntry → M (List TlbEntry)
  | [] => pure []
  | e :: t => do
    let here ← (if e.written then pure true else drawBit)
    let l ← presentEntries t
    pure (if here then e :: l else l)

/-- Every entry of the TLB has been written since reset: eight places in each of four blocks (40 R142). Only a write of the test
registers counts; whether a page walk that fills an entry has written it too R142 does not say, and where it has not the lookup
with V = 0 gives a free value: DESIGN CHOICE (log 13). -/
def tlbFull (s : State) : Bool :=
  [0#2, 1#2, 2#2, 3#2].all fun b =>
    [0#3, 1#3, 2#3, 3#3, 4#3, 5#3, 6#3, 7#3].all fun k => s.tlbWritten.any fun p => p.1 == b && Config.tlbSlot p.2 == k

/-- The block in which a lookup finds an entry: free for one that the test registers did not write (92 D15; 93 U51;
log 13). -/
def foundBlock (e : TlbEntry) : M (BitVec 2) :=
  if e.written then pure e.block
  else do
    let v ← draw
    pure (v.extractLsb' 2 2)

/-- TLB lookup (40 R142). -/
def tlbLookup (v : BitVec 32) : M Unit := do
  let s ← st
  need (properAttrs v) .tlbAttributes
  if !bit v 11 && !tlbFull s then do
    let u ← draw
    upd fun s => { s with tr7 := u &&& 0xFFFFF01C#32 }
  else do
    let l ← presentEntries (s.tlb.filter fun e =>
      e.page == pageOf v && e.v == bit v 11 && e.d == bit v 10 && e.u == bit v 8 && e.w == bit v 6)
    match l with
    | [] => do
      let u ← draw
      upd fun s => { s with tr7 := u &&& 0xFFFFF00C#32 }
    | [e] => do
      let rep ← foundBlock e
      upd fun s => { s with tr7 := (e.frame ++ 0#12) ||| 0x10#32 ||| (rep.setWidth 32 <<< 2) }
    | _ :: _ :: _ => refuse .tlbDuplicate

/-- MOV TRn, r32 (40 R141): a write of TR6 performs its command. -/
def execMovTrR (n : BitVec 3) (r : Reg) (s : State) : Host.Outcome State Fault Refusal :=
  run (do
    privileged
    need (n == 6 || n == 7) .testRegister
    let s ← st
    let v := s.reg r
    if n = 7 then upd fun s => { s with tr7 := v &&& 0xFFFFF01C#32 }
    else do
      upd fun s => { s with tr6 := v &&& 0xFFFFFFE1#32 }
      if bit v 0 then tlbLookup v else tlbWrite v
    freeStatus) s

/-! ### HLT -/

/-- HLT (40 R143). -/
def execHlt (s : State) : Host.Outcome State Fault Refusal :=
  run (do
    privileged
    upd fun s => { s with halted := true }) s

end Sys2Proof.Machine
end

