-- ==== Sys2Proof/Machine/Pointer.lean ====
section
/-! DEFINITION. The pointer-validation instructions (41_pointer_validation.md). -/

namespace Sys2Proof.Machine

open Sys2Proof

/-- The descriptor of a tested selector, none for a null selector or outside its table (41 R144). Whether the accessed
bit is then set is a free choice (41 R145, 92 D17; log 20). -/
def testedDesc (sel : BitVec 16) : M (Option Desc) := do
  if isNull sel then pure none
  else do
    let o ← readDescriptor sel
    match o with
    | none => pure none
    | some d => do
      if d.s && !d.a then do
        let sets ← drawBit
        if sets then setAccessBits sel 1 else pure ()
      else pure ()
      pure (some d)

/-- The DPL is at or above both CPL and RPL, or the segment is conforming code (41 R146-R148). -/
def visible (s : State) (sel : BitVec 16) (d : Desc) : Bool :=
  d.isConforming || privOk d.dpl s.effCpl (selRpl sel)

/-- The system types that LAR accepts: those Table 6-1 does not call reserved (41 R146). -/
def larType (t : BitVec 4) : Bool := !(t == 0 || t == 8 || t == 0xA || t == 0xD)

/-- The system types that LSL accepts (41 R147, Table 6-4). -/
def lslType (t : BitVec 4) : Bool := t == 1 || t == 2 || t == 3 || t == 9 || t == 0xB

/-- The selector operand of LAR and LSL: the low 16 bits of an operand of OS bits (41 R144). -/
def testedSel (rm : RM Reg) : M (BitVec 16) := do
  let s ← st
  let v ← (placev s s.os rm).read
  pure (lo16 v)

/-- LAR (41 R146). -/
def execLar (r : Reg) (rm : RM Reg) (s : State) : Host.Outcome State Fault Refusal :=
  run (do
    protectedOnly
    let sel ← testedSel rm
    let o ← testedDesc sel
    let s ← st
    match o with
    | none => setZf false
    | some d =>
      if (d.s || larType d.typ) && visible s sel d then do
        let u ← draw
        upd fun s => s.setRegv s.os r ((d.hi &&& 0xF0FF00#32) ||| (u &&& 0xF0000#32))
        setZf true
      else setZf false) s

/-- LSL (41 R147). -/
def execLsl (r : Reg) (rm : RM Reg) (s : State) : Host.Outcome State Fault Refusal :=
  run (do
    protectedOnly
    let sel ← testedSel rm
    let o ← testedDesc sel
    let s ← st
    match o with
    | none => setZf false
    | some d =>
      if (d.s || lslType d.typ) && visible s sel d then do
        upd fun s => s.setRegv s.os r d.effLimit
        setZf true
      else setZf false) s

/-- VERR (41 R148). -/
def execVerr (rm : RM Reg) (s : State) : Host.Outcome State Fault Refusal :=
  run (do
    protectedOnly
    let sel ← read16 rm
    let o ← testedDesc sel
    let s ← st
    match o with
    | none => setZf false
    | some d => setZf (d.s && (!d.exec || d.wr) && visible s sel d)) s

/-- VERW (41 R149). -/
def execVerw (rm : RM Reg) (s : State) : Host.Outcome State Fault Refusal :=
  run (do
    protectedOnly
    let sel ← read16 rm
    let o ← testedDesc sel
    let s ← st
    match o with
    | none => setZf false
    | some d => setZf (d.isWritableData && privOk d.dpl s.effCpl (selRpl sel))) s

/-- ARPL (41 R150). The operand is read first, as a read, and the checks of the write are made only where it is written: so
R150 gives its exceptions, although 48 R232 and 60 R312 say it otherwise of an operand read and written: DEDUCED (log 40). -/
def execArpl (rm : RM Reg) (r : Reg) (s : State) : Host.Outcome State Fault Refusal :=
  run (do
    protectedOnly
    let s ← st
    let dst ← read16 rm
    let rpl := selRpl (lo16 (s.reg r))
    if (selRpl dst).ult rpl then do
      (placev s .w16 rm).write ((withRpl dst rpl).setWidth 32)
      setZf true
    else setZf false) s

end Sys2Proof.Machine
end

