-- ==== Sys2Proof/Machine/SegLoad.lean ====
section
/-! DEFINITION. Segment-register loads and stores (42_segment_loads.md). -/

namespace Sys2Proof.Machine

open Sys2Proof

/-- The segment register a ModR/M byte names; 6 and 7 raise #UD (42 R156, R157). -/
def needSeg (n : BitVec 3) : M SegReg :=
  match SegReg.ofNum n with
  | some r => pure r
  | none => raise .ud

/-- After a load of SS by MOV or POP one boundary is shadowed (42 R155). -/
def shadowSs (r : SegReg) : M Unit := if r = .ss then upd fun s => { s with intShadow := true } else pure ()

/-- MOV Sreg, r/m16 (42 R156). -/
def execMovSregRm (n : BitVec 3) (rm : RM Reg) (s : State) : Host.Outcome State Fault Refusal :=
  run (do
    let r ← needSeg n
    check (r != .cs) .ud
    let v ← read16 rm
    loadSeg r v
    shadowSs r) s

/-- MOV r/m16, Sreg (42 R157). -/
def execMovRmSreg (rm : RM Reg) (n : BitVec 3) (s : State) : Host.Outcome State Fault Refusal :=
  run (do
    let r ← needSeg n
    let s ← st
    write16 rm (s.seg r).selector) s

/-- PUSH of a segment register (42 R158). -/
def pushSegBody (r : SegReg) : M Unit := do
  let s ← st
  pushSel (s.seg r).selector s.os.bytes

/-- POP of a segment register (42 R159): the increment is of the stack pointer before the load, and it is written at the
stack size before the load. For POP SS with a new B that width is not stated: DEDUCED (log 43). -/
def popSegBody (r : SegReg) : M Unit := do
  let s ← st
  let v ← stackRead 0 s.os.bytes
  loadSeg r (lo16 v)
  upd fun t => t.setRegv s.stackSize .esp (s.stackSize.add s.sp (BitVec.ofNat 32 s.os.bytes))
  shadowSs r

/-- The load of a full pointer (42 R160). -/
def loadPtrBody (sr : SegReg) (r : Reg) (rm : RM Reg) : M Unit := do
  let m ← needMem rm
  let s ← st
  let (off, sel) ← readFarPtr m
  loadSeg sr sel
  upd fun t => t.setRegv s.os r off

/-- PUSH ES (42 R158). -/
def execPushEs (s : State) : Host.Outcome State Fault Refusal := run (pushSegBody .es) s

/-- PUSH CS (42 R158). -/
def execPushCs (s : State) : Host.Outcome State Fault Refusal := run (pushSegBody .cs) s

/-- PUSH SS (42 R158). -/
def execPushSs (s : State) : Host.Outcome State Fault Refusal := run (pushSegBody .ss) s

/-- PUSH DS (42 R158). -/
def execPushDs (s : State) : Host.Outcome State Fault Refusal := run (pushSegBody .ds) s

/-- PUSH FS (42 R158). -/
def execPushFs (s : State) : Host.Outcome State Fault Refusal := run (pushSegBody .fs) s

/-- PUSH GS (42 R158). -/
def execPushGs (s : State) : Host.Outcome State Fault Refusal := run (pushSegBody .gs) s

/-- POP ES (42 R159). -/
def execPopEs (s : State) : Host.Outcome State Fault Refusal := run (popSegBody .es) s

/-- POP SS (42 R159). -/
def execPopSs (s : State) : Host.Outcome State Fault Refusal := run (popSegBody .ss) s

/-- POP DS (42 R159). -/
def execPopDs (s : State) : Host.Outcome State Fault Refusal := run (popSegBody .ds) s

/-- POP FS (42 R159). -/
def execPopFs (s : State) : Host.Outcome State Fault Refusal := run (popSegBody .fs) s

/-- POP GS (42 R159). -/
def execPopGs (s : State) : Host.Outcome State Fault Refusal := run (popSegBody .gs) s

/-- LDS (42 R161). -/
def execLds (r : Reg) (rm : RM Reg) (s : State) : Host.Outcome State Fault Refusal :=
  run (loadPtrBody .ds r rm) s

/-- LES (42 R162). -/
def execLes (r : Reg) (rm : RM Reg) (s : State) : Host.Outcome State Fault Refusal :=
  run (loadPtrBody .es r rm) s

/-- LFS (42 R163). -/
def execLfs (r : Reg) (rm : RM Reg) (s : State) : Host.Outcome State Fault Refusal :=
  run (loadPtrBody .fs r rm) s

/-- LGS (42 R164). -/
def execLgs (r : Reg) (rm : RM Reg) (s : State) : Host.Outcome State Fault Refusal :=
  run (loadPtrBody .gs r rm) s

/-- LSS (42 R165). -/
def execLss (r : Reg) (rm : RM Reg) (s : State) : Host.Outcome State Fault Refusal :=
  run (loadPtrBody .ss r rm) s

end Sys2Proof.Machine
end

