-- ==== Sys2Proof/Machine/Control.lean ====
section
/-! DEFINITION. Control transfers: far (43_control_transfer.md) and near (48 R270-R274). -/

namespace Sys2Proof.Machine

open Sys2Proof

/-- JMP or CALL. -/
inductive TransferKind where
  | jmp | call
  deriving DecidableEq, Repr

def TransferKind.switch : TransferKind → SwitchKind
  | .jmp => .jmp
  | .call => .call

/-! ### Far transfers -/

/-- Push the return pointer of a CALL as `n`-byte items (43 R170, R174). -/
def pushReturn (n : Nat) : M Unit := do
  let s ← st
  check (roomBelow s.segs.ss s.sp n 2) (.ss 0)
  pushSel s.segs.cs.selector n
  push s.nextEip n

/-- A transfer in real-address mode (43 R171). The limit of the target is tested before anything is pushed, an order that
R171 leaves open: DEDUCED from 43 R169 (log 40). -/
def farReal (kind : TransferKind) (sel : BitVec 16) (off : BitVec 32) : M Unit := do
  let s ← st
  check (off.ule s.segs.cs.limit) (.gp 0)
  if kind = .call then pushReturn s.os.bytes else pure ()
  loadCsReal sel off

/-- A transfer to a code segment without a gate (43 R169). -/
def farDirect (kind : TransferKind) (sel : BitVec 16) (d : Desc) (off : BitVec 32) : M Unit := do
  let s ← st
  checkSel (d.ec || (d.dpl == s.cpl && (selRpl sel).ule s.cpl)) .gp sel
  checkSel (!d.ec || d.dpl.ule s.cpl) .gp sel
  checkSel d.p .np sel
  check (off.ule d.effLimit) (.gp 0)
  if kind = .call then pushReturn s.os.bytes else pure ()
  loadCs sel s.cpl d off

/-- CALL to an inner level (43 R176). -/
def callInner (g : Desc) (tsel : BitVec 16) (t : Desc) : M Unit := do
  let s ← st
  let cnt := g.gateCount
  let (sd, nss, nesp) ← innerStack t.dpl (4 + cnt)
  check (g.gateOffset.ule t.effLimit) (.gp 0)
  let params ← gather (fun k => stackRead (4 * k) 4) (List.range cnt)
  enterStack t.dpl sd nss nesp
  pushSel s.segs.ss.selector 4
  push (s.reg .esp) 4
  each (fun v => push v 4) params.reverse
  pushSel s.segs.cs.selector 4
  push s.nextEip 4
  loadCs tsel t.dpl t g.gateOffset

/-- A transfer through a call gate without a change of level (43 R174). -/
def gateSame (kind : TransferKind) (tsel : BitVec 16) (t : Desc) (toff : BitVec 32) : M Unit := do
  let s ← st
  check (toff.ule t.effLimit) (.gp 0)
  if kind = .call then pushReturn 4 else pure ()
  loadCs tsel s.cpl t toff

/-- JMP or CALL through a 386 call gate (43 R173). -/
def farGate (kind : TransferKind) (gsel : BitVec 16) (g : Desc) : M Unit := do
  let s ← st
  checkSel (privOk g.dpl s.cpl (selRpl gsel)) .gp gsel
  checkSel g.p .np gsel
  let tsel := g.gateSel
  check (!isNull tsel) (.gp 0)
  let t ← fetchDesc tsel .gp
  checkSel t.isCode .gp tsel
  checkSel (!(kind == .jmp && !t.ec) || t.dpl == s.cpl) .gp tsel
  checkSel (!(kind == .call || t.ec) || t.dpl.ule s.cpl) .gp tsel
  checkSel t.p .np tsel
  if kind = .call ∧ t.ec = false ∧ t.dpl.ult s.cpl then callInner g tsel t
  else gateSame kind tsel t g.gateOffset

/-- JMP or CALL to a TSS (44 R189). -/
def farTss (kind : TransferKind) (sel : BitVec 16) (d : Desc) : M Unit := do
  let s ← st
  checkSel (!selTi sel) .gp sel
  checkSel (privOk d.dpl s.cpl (selRpl sel)) .gp sel
  taskSwitch kind.switch sel d s.nextEip s.flags

/-- JMP or CALL to a task gate (44 R190). -/
def farTaskGate (kind : TransferKind) (gsel : BitVec 16) (g : Desc) : M Unit := do
  let s ← st
  checkSel (privOk g.dpl s.cpl (selRpl gsel)) .gp gsel
  checkSel g.p .np gsel
  switchThroughGate kind.switch g.gateSel s.nextEip s.flags

/-- `FarTransfer` (43 R168). -/
def farTransfer (kind : TransferKind) (sel : BitVec 16) (off : BitVec 32) : M Unit := do
  check (!isNull sel) (.gp 0)
  let d ← fetchDesc sel .gp
  if d.isCode then farDirect kind sel d off
  else if !d.s && d.typ == 0xC then farGate kind sel d
  else if !d.s && d.typ == 5 then farTaskGate kind sel d
  else if !d.s && (d.typ == 9 || d.typ == 0xB) then farTss kind sel d
  else if is286 d then refuse .format286
  else checkSel false .gp sel

/-- A far JMP or CALL in both modes (43 R177, R179). A CALL saves the offset after it; what its checks and pushes raise is
raised whatever that is (93 U39; log 17). -/
def farBody (kind : TransferKind) (sel : BitVec 16) (off : BitVec 32) : M Unit := do
  let s ← st
  if s.cr0.pe then farTransfer kind sel off else farReal kind sel off
  if kind = .call then needNext s else pure ()

/-- A far JMP or CALL through memory (43 R178, R180). -/
def farMemBody (kind : TransferKind) (rm : RM Reg) : M Unit := do
  let m ← needMem rm
  let (off, sel) ← readFarPtr m
  farBody kind sel off

/-- JMP ptr16:16/32 (43 R177). -/
def execJmpPtr (off : BitVec 32) (sel : BitVec 16) (s : State) : Host.Outcome State Fault Refusal :=
  run (farBody .jmp sel off) s

/-- JMP m16:16/32 (43 R178). -/
def execJmpFarM (rm : RM Reg) (s : State) : Host.Outcome State Fault Refusal := run (farMemBody .jmp rm) s

/-- CALL ptr16:16/32 (43 R179). -/
def execCallPtr (off : BitVec 32) (sel : BitVec 16) (s : State) : Host.Outcome State Fault Refusal :=
  run (farBody .call sel off) s

/-- CALL m16:16/32 (43 R180). -/
def execCallFarM (rm : RM Reg) (s : State) : Host.Outcome State Fault Refusal := run (farMemBody .call rm) s

/-- The far return in real-address mode (43 R171, R181). -/
def retfReal (count : BitVec 16) : M Unit := do
  let s ← st
  let ip ← pop s.os.bytes
  let cs ← pop s.os.bytes
  check (ip.ule s.segs.cs.limit) (.gp 0)
  stackDrop (count.setWidth 32)
  loadCsReal (lo16 cs) ip

/-- The far return in protected mode (43 R181-R183). -/
def retfProtected (count : BitVec 16) : M Unit := do
  let s ← st
  let n := s.os.bytes
  roomAbove (2 * n)
  let roff ← stackRead 0 n
  let cs ← stackRead n n
  let rcs := lo16 cs
  let c ← returnCs rcs
  if selRpl rcs = s.cpl then do
    check (roff.ule c.effLimit) (.gp 0)
    loadCs rcs (selRpl rcs) c roff
    stackDrop (BitVec.ofNat 32 (2 * n) + count.setWidth 32)
  else do
    roomAbove (4 * n + count.toNat)
    let resp ← stackRead (2 * n + count.toNat) n
    let ss ← stackRead (3 * n + count.toNat) n
    let sd ← returnSs (lo16 ss) (selRpl rcs)
    check (roff.ule c.effLimit) (.gp 0)
    returnOuter rcs (lo16 ss) c sd roff resp (count.setWidth 32)

/-- RETF in both modes (43 R181). -/
def retfBody (count : BitVec 16) : M Unit := do
  let s ← st
  if s.cr0.pe then retfProtected count else retfReal count

/-- RETF (43 R181). -/
def execRetf (s : State) : Host.Outcome State Fault Refusal := run (retfBody 0) s

/-- RETF imm16 (43 R181). -/
def execRetfImm16 (imm : BitVec 16) (s : State) : Host.Outcome State Fault Refusal := run (retfBody imm) s

/-! ### Near transfers -/

/-- The target of a relative transfer (30 R113), a sum modulo 2^32 (00 R10), also of one that ends at offset FFFFFFFFH, whose EIP
goes to the target and not past that offset: DEDUCED (log 17). -/
def relTarget (rel : BitVec 32) : M (BitVec 32) := do
  let s ← st
  pure (s.os.trunc (s.nextEip + rel))

/-- The limit check of a near target (48 R270). -/
def checkTarget (target : BitVec 32) : M Unit := do
  let s ← st
  check (target.ule s.segs.cs.limit) (.gp 0)

/-- A near jump (48 R271). -/
def jmpNear (target : BitVec 32) : M Unit := do
  checkTarget target
  jumpTo target

/-- A relative jump (48 R271). -/
def jmpRelBody (rel : BitVec 32) : M Unit := do
  let t ← relTarget rel
  jmpNear t

/-- A conditional jump (48 R272). -/
def jccBody (c : Cond) (rel : BitVec 32) : M Unit := do
  let s ← st
  if c.holds s.flags then jmpRelBody rel else pure ()

/-- A near call (48 R273). What the limit check and the push raise is raised whatever offset it saves (93 U39; log 17). -/
def callNear (target : BitVec 32) : M Unit := do
  checkTarget target
  let s ← st
  push s.nextEip s.os.bytes
  jumpTo target
  needNext s

/-- JMP rel8 (48 R271). -/
def execJmpRel8 (rel : BitVec 8) (s : State) : Host.Outcome State Fault Refusal := run (jmpRelBody (sext8 rel)) s

/-- JMP rel16/32 (48 R271). -/
def execJmpRel (rel : BitVec 32) (s : State) : Host.Outcome State Fault Refusal := run (jmpRelBody (s.os.sext rel)) s

/-- JMP r/m16/32 (48 R271). -/
def execJmpRm (rm : RM Reg) (s : State) : Host.Outcome State Fault Refusal :=
  run (do
    let s ← st
    let t ← (placev s s.os rm).read
    jmpNear t) s

/-- Jcc rel8 (48 R272). -/
def execJccRel8 (c : Cond) (rel : BitVec 8) (s : State) : Host.Outcome State Fault Refusal :=
  run (jccBody c (sext8 rel)) s

/-- Jcc rel16/32 (48 R272). -/
def execJccRel (c : Cond) (rel : BitVec 32) (s : State) : Host.Outcome State Fault Refusal :=
  run (jccBody c (s.os.sext rel)) s

/-- CALL rel16/32 (48 R273). -/
def execCallRel (rel : BitVec 32) (s : State) : Host.Outcome State Fault Refusal :=
  run (do
    let t ← relTarget (s.os.sext rel)
    callNear t) s

/-- CALL r/m16/32 (48 R273). -/
def execCallRm (rm : RM Reg) (s : State) : Host.Outcome State Fault Refusal :=
  run (do
    let s ← st
    let t ← (placev s s.os rm).read
    callNear t) s

/-- A near return (48 R274). -/
def retBody (count : BitVec 16) : M Unit := do
  let s ← st
  let t ← stackRead 0 s.os.bytes
  checkTarget t
  stackDrop (BitVec.ofNat 32 s.os.bytes + count.setWidth 32)
  jumpTo t

/-- RET (48 R274). -/
def execRet (s : State) : Host.Outcome State Fault Refusal := run (retBody 0) s

/-- RET imm16 (48 R274). -/
def execRetImm16 (imm : BitVec 16) (s : State) : Host.Outcome State Fault Refusal := run (retBody imm) s

end Sys2Proof.Machine
end

