-- ==== Sys2Proof/Machine/Data.lean ====
section
/-! DEFINITION. Data movement (48 R236-R241). -/

namespace Sys2Proof.Machine

open Sys2Proof

/-- A move (48 R236). -/
def movBody (dst src : Place) : M Unit := do
  let v ← src.read
  dst.write v

/-- The place of a direct offset: the default segment is DS (48 R239). -/
def moffsPlace (s : State) (off : BitVec 32) (w : Width) : Place := .mem (s.dataSeg .ds) off w

/-- MOV r/m8, r8 (48 R236). -/
def execMovRm8R8 (rm : RM Reg8) (r : Reg8) (s : State) : Host.Outcome State Fault Refusal :=
  run (movBody (place8 s rm) (.reg8 r)) s

/-- MOV r/m16/32, r16/32 (48 R236). -/
def execMovRmR (rm : RM Reg) (r : Reg) (s : State) : Host.Outcome State Fault Refusal :=
  run (movBody (placev s s.os rm) (.reg s.os r)) s

/-- MOV r8, r/m8 (48 R236). -/
def execMovR8Rm8 (r : Reg8) (rm : RM Reg8) (s : State) : Host.Outcome State Fault Refusal :=
  run (movBody (.reg8 r) (place8 s rm)) s

/-- MOV r16/32, r/m16/32 (48 R236). -/
def execMovRRm (r : Reg) (rm : RM Reg) (s : State) : Host.Outcome State Fault Refusal :=
  run (movBody (.reg s.os r) (placev s s.os rm)) s

/-- MOV r8, imm8 (48 R237). -/
def execMovR8Imm8 (r : Reg8) (imm : BitVec 8) (s : State) : Host.Outcome State Fault Refusal :=
  run ((Place.reg8 r).write (imm.setWidth 32)) s

/-- MOV r16/32, imm16/32 (48 R237). -/
def execMovRImm (r : Reg) (imm : BitVec 32) (s : State) : Host.Outcome State Fault Refusal :=
  run ((Place.reg s.os r).write imm) s

/-- MOV r/m8, imm8 (48 R238). -/
def execMovRm8Imm8 (rm : RM Reg8) (imm : BitVec 8) (s : State) : Host.Outcome State Fault Refusal :=
  run ((place8 s rm).write (imm.setWidth 32)) s

/-- MOV r/m16/32, imm16/32 (48 R238). -/
def execMovRmImm (rm : RM Reg) (imm : BitVec 32) (s : State) : Host.Outcome State Fault Refusal :=
  run ((placev s s.os rm).write imm) s

/-- MOV AL, moffs8 (48 R239). -/
def execMovAlMoffs (off : BitVec 32) (s : State) : Host.Outcome State Fault Refusal :=
  run (movBody (.reg8 .al) (moffsPlace s off .w8)) s

/-- MOV eAX, moffs16/32 (48 R239). -/
def execMovEaxMoffs (off : BitVec 32) (s : State) : Host.Outcome State Fault Refusal :=
  run (movBody (.reg s.os .eax) (moffsPlace s off s.os.width)) s

/-- MOV moffs8, AL (48 R239). -/
def execMovMoffsAl (off : BitVec 32) (s : State) : Host.Outcome State Fault Refusal :=
  run (movBody (moffsPlace s off .w8) (.reg8 .al)) s

/-- MOV moffs16/32, eAX (48 R239). -/
def execMovMoffsEax (off : BitVec 32) (s : State) : Host.Outcome State Fault Refusal :=
  run (movBody (moffsPlace s off s.os.width) (.reg s.os .eax)) s

/-- PUSH r16/32 (48 R240): PUSH eSP pushes the value before the instruction. -/
def execPushR (r : Reg) (s : State) : Host.Outcome State Fault Refusal := run (push (s.regv s.os r) s.os.bytes) s

/-- POP r16/32 (48 R241): the increment comes before the register is written, so POP eSP keeps the popped value. -/
def execPopR (r : Reg) (s : State) : Host.Outcome State Fault Refusal :=
  run (do
    let v ← pop s.os.bytes
    (Place.reg s.os r).write v) s

end Sys2Proof.Machine
end

