-- ==== Sys2Proof/Machine/Arith.lean ====
section
/-! DEFINITION. Two-operand and one-operand arithmetic and logic (48 R242-R257). -/

namespace Sys2Proof.Machine

open Sys2Proof

/-- A two-operand operation: the destination's write checks come first, then the operands are read, the result is
written unless the operation is CMP or TEST, and the flags are set (48 R232, R242, R251). -/
def aluBody (op : AluOp) (dst : Place) (src : M (BitVec 32)) : M Unit := do
  if op.writes then dst.probe else pure ()
  let a ← dst.read
  let b ← src
  let s ← st
  let af ← (if op.isLogic then drawBit else pure false)
  let r := dst.width.binary (fun x y => op.apply x y s.flags.cf af) a b
  if op.writes then dst.write r.1 else pure ()
  setStatus r.2

/-- A two-operand instruction. LOCK is allowed where it writes memory (47 R230). -/
def runAlu (op : AluOp) (mem : Bool) (dst : Place) (src : M (BitVec 32)) (s : State) :
    Host.Outcome State Fault Refusal :=
  runWith (op.writes && mem) false (aluBody op dst src) s

/-- A one-operand operation that reads and writes its operand (48 R252-R255). -/
def unaryBody (dst : Place) (f : {n : Nat} → BitVec n → BitVec n × Status) (flags : Status → M Unit) : M Unit := do
  dst.probe
  let a ← dst.read
  let r := dst.width.unary f a
  dst.write r.1
  flags r.2

/-- INC (48 R252): CF is kept. -/
def incBody (dst : Place) : M Unit := unaryBody dst (fun x => addWith x 1 false) setStatusKeepCf

/-- DEC (48 R253): CF is kept. -/
def decBody (dst : Place) : M Unit := unaryBody dst (fun x => subWith x 1 false) setStatusKeepCf

/-- NOT (48 R254): no flag changes. -/
def notBody (dst : Place) : M Unit := unaryBody dst (fun x => logicResult (~~~x) false) (fun _ => pure ())

/-- NEG (48 R255). -/
def negBody (dst : Place) : M Unit := unaryBody dst (fun x => subWith 0 x false) setStatus

/-- The dividend of DIV and IDIV: AX, DX:AX or EDX:EAX (48 R256, R257). -/
def dividend (s : State) (w : Width) (signed : Bool) : BitVec 64 :=
  match w with
  | .w8 => if signed then (lo16 (s.reg .eax)).signExtend 64 else (lo16 (s.reg .eax)).setWidth 64
  | .w16 =>
    let d := lo16 (s.reg .edx) ++ lo16 (s.reg .eax)
    if signed then d.signExtend 64 else d.setWidth 64
  | .w32 => s.reg .edx ++ s.reg .eax

/-- Quotient and remainder to AL and AH, AX and DX, or EAX and EDX (48 R256). -/
def storeDiv (w : Width) (q r : BitVec 32) (s : State) : State :=
  match w with
  | .w8 => (s.setReg8 .al (q.setWidth 8)).setReg8 .ah (r.setWidth 8)
  | .w16 => (s.setRegv .w16 .eax q).setRegv .w16 .edx r
  | .w32 => (s.setReg .eax q).setReg .edx r

/-- DIV (48 R256): #DE for a divisor 0 or a quotient that does not fit. All six status flags become free. -/
def divBody (src : Place) : M Unit := do
  let d ← src.read
  let s ← st
  let n := (dividend s src.width false).toNat
  check (d != 0 && decide (n / d.toNat < 2 ^ src.width.bits)) .de
  upd (storeDiv src.width (BitVec.ofNat 32 (n / d.toNat)) (BitVec.ofNat 32 (n % d.toNat)))
  let t ← drawStatus
  setStatus t

/-- The value of an operand read as a two's-complement number. -/
def Width.toInt (w : Width) (v : BitVec 32) : Int :=
  match w with
  | .w8 => (v.setWidth 8).toInt
  | .w16 => (v.setWidth 16).toInt
  | .w32 => v.toInt

/-- IDIV (48 R257): the quotient is rounded toward zero, the remainder has the sign of the dividend. -/
def idivBody (src : Place) : M Unit := do
  let d ← src.read
  let s ← st
  let n := (dividend s src.width true).toInt
  let q := n.tdiv (src.width.toInt d)
  check (d != 0 && decide (-2 ^ (src.width.bits - 1) ≤ q) && decide (q < 2 ^ (src.width.bits - 1))) .de
  upd (storeDiv src.width (BitVec.ofInt 32 q) (BitVec.ofInt 32 (n.tmod (src.width.toInt d))))
  let t ← drawStatus
  setStatus t

/-- ADD r/m8, r8 (48 R243). -/
def execAddRm8R8 (rm : RM Reg8) (r : Reg8) (s : State) : Host.Outcome State Fault Refusal :=
  runAlu .add (isMem rm) (place8 s rm) (Place.reg8 r).read s

/-- ADD r/m16/32, r16/32 (48 R243). -/
def execAddRmR (rm : RM Reg) (r : Reg) (s : State) : Host.Outcome State Fault Refusal :=
  runAlu .add (isMem rm) (placev s s.os rm) (Place.reg s.os r).read s

/-- ADD r8, r/m8 (48 R243). -/
def execAddR8Rm8 (r : Reg8) (rm : RM Reg8) (s : State) : Host.Outcome State Fault Refusal :=
  runAlu .add false (.reg8 r) (place8 s rm).read s

/-- ADD r16/32, r/m16/32 (48 R243). -/
def execAddRRm (r : Reg) (rm : RM Reg) (s : State) : Host.Outcome State Fault Refusal :=
  runAlu .add false (.reg s.os r) (placev s s.os rm).read s

/-- ADD AL, imm8 (48 R243). -/
def execAddAlImm8 (imm : BitVec 8) (s : State) : Host.Outcome State Fault Refusal :=
  runAlu .add false (.reg8 .al) (pure (imm.setWidth 32)) s

/-- ADD eAX, imm16/32 (48 R243). -/
def execAddEaxImm (imm : BitVec 32) (s : State) : Host.Outcome State Fault Refusal :=
  runAlu .add false (.reg s.os .eax) (pure imm) s

/-- ADD r/m8, imm8 (48 R243). -/
def execAddRm8Imm8 (rm : RM Reg8) (imm : BitVec 8) (s : State) : Host.Outcome State Fault Refusal :=
  runAlu .add (isMem rm) (place8 s rm) (pure (imm.setWidth 32)) s

/-- ADD r/m16/32, imm16/32 (48 R243). -/
def execAddRmImm (rm : RM Reg) (imm : BitVec 32) (s : State) : Host.Outcome State Fault Refusal :=
  runAlu .add (isMem rm) (placev s s.os rm) (pure imm) s

/-- ADD r/m16/32, imm8 sign-extended (48 R243). -/
def execAddRmImm8 (rm : RM Reg) (imm : BitVec 8) (s : State) : Host.Outcome State Fault Refusal :=
  runAlu .add (isMem rm) (placev s s.os rm) (pure (sext8 imm)) s

/-- OR r/m8, r8 (48 R244). -/
def execOrRm8R8 (rm : RM Reg8) (r : Reg8) (s : State) : Host.Outcome State Fault Refusal :=
  runAlu .or (isMem rm) (place8 s rm) (Place.reg8 r).read s

/-- OR r/m16/32, r16/32 (48 R244). -/
def execOrRmR (rm : RM Reg) (r : Reg) (s : State) : Host.Outcome State Fault Refusal :=
  runAlu .or (isMem rm) (placev s s.os rm) (Place.reg s.os r).read s

/-- OR r8, r/m8 (48 R244). -/
def execOrR8Rm8 (r : Reg8) (rm : RM Reg8) (s : State) : Host.Outcome State Fault Refusal :=
  runAlu .or false (.reg8 r) (place8 s rm).read s

/-- OR r16/32, r/m16/32 (48 R244). -/
def execOrRRm (r : Reg) (rm : RM Reg) (s : State) : Host.Outcome State Fault Refusal :=
  runAlu .or false (.reg s.os r) (placev s s.os rm).read s

/-- OR AL, imm8 (48 R244). -/
def execOrAlImm8 (imm : BitVec 8) (s : State) : Host.Outcome State Fault Refusal :=
  runAlu .or false (.reg8 .al) (pure (imm.setWidth 32)) s

/-- OR eAX, imm16/32 (48 R244). -/
def execOrEaxImm (imm : BitVec 32) (s : State) : Host.Outcome State Fault Refusal :=
  runAlu .or false (.reg s.os .eax) (pure imm) s

/-- OR r/m8, imm8 (48 R244). -/
def execOrRm8Imm8 (rm : RM Reg8) (imm : BitVec 8) (s : State) : Host.Outcome State Fault Refusal :=
  runAlu .or (isMem rm) (place8 s rm) (pure (imm.setWidth 32)) s

/-- OR r/m16/32, imm16/32 (48 R244). -/
def execOrRmImm (rm : RM Reg) (imm : BitVec 32) (s : State) : Host.Outcome State Fault Refusal :=
  runAlu .or (isMem rm) (placev s s.os rm) (pure imm) s

/-- OR r/m16/32, imm8 sign-extended (48 R244). -/
def execOrRmImm8 (rm : RM Reg) (imm : BitVec 8) (s : State) : Host.Outcome State Fault Refusal :=
  runAlu .or (isMem rm) (placev s s.os rm) (pure (sext8 imm)) s

/-- ADC r/m8, r8 (48 R245). -/
def execAdcRm8R8 (rm : RM Reg8) (r : Reg8) (s : State) : Host.Outcome State Fault Refusal :=
  runAlu .adc (isMem rm) (place8 s rm) (Place.reg8 r).read s

/-- ADC r/m16/32, r16/32 (48 R245). -/
def execAdcRmR (rm : RM Reg) (r : Reg) (s : State) : Host.Outcome State Fault Refusal :=
  runAlu .adc (isMem rm) (placev s s.os rm) (Place.reg s.os r).read s

/-- ADC r8, r/m8 (48 R245). -/
def execAdcR8Rm8 (r : Reg8) (rm : RM Reg8) (s : State) : Host.Outcome State Fault Refusal :=
  runAlu .adc false (.reg8 r) (place8 s rm).read s

/-- ADC r16/32, r/m16/32 (48 R245). -/
def execAdcRRm (r : Reg) (rm : RM Reg) (s : State) : Host.Outcome State Fault Refusal :=
  runAlu .adc false (.reg s.os r) (placev s s.os rm).read s

/-- ADC AL, imm8 (48 R245). -/
def execAdcAlImm8 (imm : BitVec 8) (s : State) : Host.Outcome State Fault Refusal :=
  runAlu .adc false (.reg8 .al) (pure (imm.setWidth 32)) s

/-- ADC eAX, imm16/32 (48 R245). -/
def execAdcEaxImm (imm : BitVec 32) (s : State) : Host.Outcome State Fault Refusal :=
  runAlu .adc false (.reg s.os .eax) (pure imm) s

/-- ADC r/m8, imm8 (48 R245). -/
def execAdcRm8Imm8 (rm : RM Reg8) (imm : BitVec 8) (s : State) : Host.Outcome State Fault Refusal :=
  runAlu .adc (isMem rm) (place8 s rm) (pure (imm.setWidth 32)) s

/-- ADC r/m16/32, imm16/32 (48 R245). -/
def execAdcRmImm (rm : RM Reg) (imm : BitVec 32) (s : State) : Host.Outcome State Fault Refusal :=
  runAlu .adc (isMem rm) (placev s s.os rm) (pure imm) s

/-- ADC r/m16/32, imm8 sign-extended (48 R245). -/
def execAdcRmImm8 (rm : RM Reg) (imm : BitVec 8) (s : State) : Host.Outcome State Fault Refusal :=
  runAlu .adc (isMem rm) (placev s s.os rm) (pure (sext8 imm)) s

/-- SBB r/m8, r8 (48 R246). -/
def execSbbRm8R8 (rm : RM Reg8) (r : Reg8) (s : State) : Host.Outcome State Fault Refusal :=
  runAlu .sbb (isMem rm) (place8 s rm) (Place.reg8 r).read s

/-- SBB r/m16/32, r16/32 (48 R246). -/
def execSbbRmR (rm : RM Reg) (r : Reg) (s : State) : Host.Outcome State Fault Refusal :=
  runAlu .sbb (isMem rm) (placev s s.os rm) (Place.reg s.os r).read s

/-- SBB r8, r/m8 (48 R246). -/
def execSbbR8Rm8 (r : Reg8) (rm : RM Reg8) (s : State) : Host.Outcome State Fault Refusal :=
  runAlu .sbb false (.reg8 r) (place8 s rm).read s

/-- SBB r16/32, r/m16/32 (48 R246). -/
def execSbbRRm (r : Reg) (rm : RM Reg) (s : State) : Host.Outcome State Fault Refusal :=
  runAlu .sbb false (.reg s.os r) (placev s s.os rm).read s

/-- SBB AL, imm8 (48 R246). -/
def execSbbAlImm8 (imm : BitVec 8) (s : State) : Host.Outcome State Fault Refusal :=
  runAlu .sbb false (.reg8 .al) (pure (imm.setWidth 32)) s

/-- SBB eAX, imm16/32 (48 R246). -/
def execSbbEaxImm (imm : BitVec 32) (s : State) : Host.Outcome State Fault Refusal :=
  runAlu .sbb false (.reg s.os .eax) (pure imm) s

/-- SBB r/m8, imm8 (48 R246). -/
def execSbbRm8Imm8 (rm : RM Reg8) (imm : BitVec 8) (s : State) : Host.Outcome State Fault Refusal :=
  runAlu .sbb (isMem rm) (place8 s rm) (pure (imm.setWidth 32)) s

/-- SBB r/m16/32, imm16/32 (48 R246). -/
def execSbbRmImm (rm : RM Reg) (imm : BitVec 32) (s : State) : Host.Outcome State Fault Refusal :=
  runAlu .sbb (isMem rm) (placev s s.os rm) (pure imm) s

/-- SBB r/m16/32, imm8 sign-extended (48 R246). -/
def execSbbRmImm8 (rm : RM Reg) (imm : BitVec 8) (s : State) : Host.Outcome State Fault Refusal :=
  runAlu .sbb (isMem rm) (placev s s.os rm) (pure (sext8 imm)) s

/-- AND r/m8, r8 (48 R247). -/
def execAndRm8R8 (rm : RM Reg8) (r : Reg8) (s : State) : Host.Outcome State Fault Refusal :=
  runAlu .and (isMem rm) (place8 s rm) (Place.reg8 r).read s

/-- AND r/m16/32, r16/32 (48 R247). -/
def execAndRmR (rm : RM Reg) (r : Reg) (s : State) : Host.Outcome State Fault Refusal :=
  runAlu .and (isMem rm) (placev s s.os rm) (Place.reg s.os r).read s

/-- AND r8, r/m8 (48 R247). -/
def execAndR8Rm8 (r : Reg8) (rm : RM Reg8) (s : State) : Host.Outcome State Fault Refusal :=
  runAlu .and false (.reg8 r) (place8 s rm).read s

/-- AND r16/32, r/m16/32 (48 R247). -/
def execAndRRm (r : Reg) (rm : RM Reg) (s : State) : Host.Outcome State Fault Refusal :=
  runAlu .and false (.reg s.os r) (placev s s.os rm).read s

/-- AND AL, imm8 (48 R247). -/
def execAndAlImm8 (imm : BitVec 8) (s : State) : Host.Outcome State Fault Refusal :=
  runAlu .and false (.reg8 .al) (pure (imm.setWidth 32)) s

/-- AND eAX, imm16/32 (48 R247). -/
def execAndEaxImm (imm : BitVec 32) (s : State) : Host.Outcome State Fault Refusal :=
  runAlu .and false (.reg s.os .eax) (pure imm) s

/-- AND r/m8, imm8 (48 R247). -/
def execAndRm8Imm8 (rm : RM Reg8) (imm : BitVec 8) (s : State) : Host.Outcome State Fault Refusal :=
  runAlu .and (isMem rm) (place8 s rm) (pure (imm.setWidth 32)) s

/-- AND r/m16/32, imm16/32 (48 R247). -/
def execAndRmImm (rm : RM Reg) (imm : BitVec 32) (s : State) : Host.Outcome State Fault Refusal :=
  runAlu .and (isMem rm) (placev s s.os rm) (pure imm) s

/-- AND r/m16/32, imm8 sign-extended (48 R247). -/
def execAndRmImm8 (rm : RM Reg) (imm : BitVec 8) (s : State) : Host.Outcome State Fault Refusal :=
  runAlu .and (isMem rm) (placev s s.os rm) (pure (sext8 imm)) s

/-- SUB r/m8, r8 (48 R248). -/
def execSubRm8R8 (rm : RM Reg8) (r : Reg8) (s : State) : Host.Outcome State Fault Refusal :=
  runAlu .sub (isMem rm) (place8 s rm) (Place.reg8 r).read s

/-- SUB r/m16/32, r16/32 (48 R248). -/
def execSubRmR (rm : RM Reg) (r : Reg) (s : State) : Host.Outcome State Fault Refusal :=
  runAlu .sub (isMem rm) (placev s s.os rm) (Place.reg s.os r).read s

/-- SUB r8, r/m8 (48 R248). -/
def execSubR8Rm8 (r : Reg8) (rm : RM Reg8) (s : State) : Host.Outcome State Fault Refusal :=
  runAlu .sub false (.reg8 r) (place8 s rm).read s

/-- SUB r16/32, r/m16/32 (48 R248). -/
def execSubRRm (r : Reg) (rm : RM Reg) (s : State) : Host.Outcome State Fault Refusal :=
  runAlu .sub false (.reg s.os r) (placev s s.os rm).read s

/-- SUB AL, imm8 (48 R248). -/
def execSubAlImm8 (imm : BitVec 8) (s : State) : Host.Outcome State Fault Refusal :=
  runAlu .sub false (.reg8 .al) (pure (imm.setWidth 32)) s

/-- SUB eAX, imm16/32 (48 R248). -/
def execSubEaxImm (imm : BitVec 32) (s : State) : Host.Outcome State Fault Refusal :=
  runAlu .sub false (.reg s.os .eax) (pure imm) s

/-- SUB r/m8, imm8 (48 R248). -/
def execSubRm8Imm8 (rm : RM Reg8) (imm : BitVec 8) (s : State) : Host.Outcome State Fault Refusal :=
  runAlu .sub (isMem rm) (place8 s rm) (pure (imm.setWidth 32)) s

/-- SUB r/m16/32, imm16/32 (48 R248). -/
def execSubRmImm (rm : RM Reg) (imm : BitVec 32) (s : State) : Host.Outcome State Fault Refusal :=
  runAlu .sub (isMem rm) (placev s s.os rm) (pure imm) s

/-- SUB r/m16/32, imm8 sign-extended (48 R248). -/
def execSubRmImm8 (rm : RM Reg) (imm : BitVec 8) (s : State) : Host.Outcome State Fault Refusal :=
  runAlu .sub (isMem rm) (placev s s.os rm) (pure (sext8 imm)) s

/-- XOR r/m8, r8 (48 R249). -/
def execXorRm8R8 (rm : RM Reg8) (r : Reg8) (s : State) : Host.Outcome State Fault Refusal :=
  runAlu .xor (isMem rm) (place8 s rm) (Place.reg8 r).read s

/-- XOR r/m16/32, r16/32 (48 R249). -/
def execXorRmR (rm : RM Reg) (r : Reg) (s : State) : Host.Outcome State Fault Refusal :=
  runAlu .xor (isMem rm) (placev s s.os rm) (Place.reg s.os r).read s

/-- XOR r8, r/m8 (48 R249). -/
def execXorR8Rm8 (r : Reg8) (rm : RM Reg8) (s : State) : Host.Outcome State Fault Refusal :=
  runAlu .xor false (.reg8 r) (place8 s rm).read s

/-- XOR r16/32, r/m16/32 (48 R249). -/
def execXorRRm (r : Reg) (rm : RM Reg) (s : State) : Host.Outcome State Fault Refusal :=
  runAlu .xor false (.reg s.os r) (placev s s.os rm).read s

/-- XOR AL, imm8 (48 R249). -/
def execXorAlImm8 (imm : BitVec 8) (s : State) : Host.Outcome State Fault Refusal :=
  runAlu .xor false (.reg8 .al) (pure (imm.setWidth 32)) s

/-- XOR eAX, imm16/32 (48 R249). -/
def execXorEaxImm (imm : BitVec 32) (s : State) : Host.Outcome State Fault Refusal :=
  runAlu .xor false (.reg s.os .eax) (pure imm) s

/-- XOR r/m8, imm8 (48 R249). -/
def execXorRm8Imm8 (rm : RM Reg8) (imm : BitVec 8) (s : State) : Host.Outcome State Fault Refusal :=
  runAlu .xor (isMem rm) (place8 s rm) (pure (imm.setWidth 32)) s

/-- XOR r/m16/32, imm16/32 (48 R249). -/
def execXorRmImm (rm : RM Reg) (imm : BitVec 32) (s : State) : Host.Outcome State Fault Refusal :=
  runAlu .xor (isMem rm) (placev s s.os rm) (pure imm) s

/-- XOR r/m16/32, imm8 sign-extended (48 R249). -/
def execXorRmImm8 (rm : RM Reg) (imm : BitVec 8) (s : State) : Host.Outcome State Fault Refusal :=
  runAlu .xor (isMem rm) (placev s s.os rm) (pure (sext8 imm)) s

/-- CMP r/m8, r8 (48 R250). -/
def execCmpRm8R8 (rm : RM Reg8) (r : Reg8) (s : State) : Host.Outcome State Fault Refusal :=
  runAlu .cmp (isMem rm) (place8 s rm) (Place.reg8 r).read s

/-- CMP r/m16/32, r16/32 (48 R250). -/
def execCmpRmR (rm : RM Reg) (r : Reg) (s : State) : Host.Outcome State Fault Refusal :=
  runAlu .cmp (isMem rm) (placev s s.os rm) (Place.reg s.os r).read s

/-- CMP r8, r/m8 (48 R250). -/
def execCmpR8Rm8 (r : Reg8) (rm : RM Reg8) (s : State) : Host.Outcome State Fault Refusal :=
  runAlu .cmp false (.reg8 r) (place8 s rm).read s

/-- CMP r16/32, r/m16/32 (48 R250). -/
def execCmpRRm (r : Reg) (rm : RM Reg) (s : State) : Host.Outcome State Fault Refusal :=
  runAlu .cmp false (.reg s.os r) (placev s s.os rm).read s

/-- CMP AL, imm8 (48 R250). -/
def execCmpAlImm8 (imm : BitVec 8) (s : State) : Host.Outcome State Fault Refusal :=
  runAlu .cmp false (.reg8 .al) (pure (imm.setWidth 32)) s

/-- CMP eAX, imm16/32 (48 R250). -/
def execCmpEaxImm (imm : BitVec 32) (s : State) : Host.Outcome State Fault Refusal :=
  runAlu .cmp false (.reg s.os .eax) (pure imm) s

/-- CMP r/m8, imm8 (48 R250). -/
def execCmpRm8Imm8 (rm : RM Reg8) (imm : BitVec 8) (s : State) : Host.Outcome State Fault Refusal :=
  runAlu .cmp (isMem rm) (place8 s rm) (pure (imm.setWidth 32)) s

/-- CMP r/m16/32, imm16/32 (48 R250). -/
def execCmpRmImm (rm : RM Reg) (imm : BitVec 32) (s : State) : Host.Outcome State Fault Refusal :=
  runAlu .cmp (isMem rm) (placev s s.os rm) (pure imm) s

/-- CMP r/m16/32, imm8 sign-extended (48 R250). -/
def execCmpRmImm8 (rm : RM Reg) (imm : BitVec 8) (s : State) : Host.Outcome State Fault Refusal :=
  runAlu .cmp (isMem rm) (placev s s.os rm) (pure (sext8 imm)) s

/-- TEST r/m8, r8 (48 R251). -/
def execTestRm8R8 (rm : RM Reg8) (r : Reg8) (s : State) : Host.Outcome State Fault Refusal :=
  runAlu .test (isMem rm) (place8 s rm) (Place.reg8 r).read s

/-- TEST r/m16/32, r16/32 (48 R251). -/
def execTestRmR (rm : RM Reg) (r : Reg) (s : State) : Host.Outcome State Fault Refusal :=
  runAlu .test (isMem rm) (placev s s.os rm) (Place.reg s.os r).read s

/-- TEST AL, imm8 (48 R251). -/
def execTestAlImm8 (imm : BitVec 8) (s : State) : Host.Outcome State Fault Refusal :=
  runAlu .test false (.reg8 .al) (pure (imm.setWidth 32)) s

/-- TEST eAX, imm16/32 (48 R251). -/
def execTestEaxImm (imm : BitVec 32) (s : State) : Host.Outcome State Fault Refusal :=
  runAlu .test false (.reg s.os .eax) (pure imm) s

/-- TEST r/m8, imm8 (48 R251). -/
def execTestRm8Imm8 (rm : RM Reg8) (imm : BitVec 8) (s : State) : Host.Outcome State Fault Refusal :=
  runAlu .test (isMem rm) (place8 s rm) (pure (imm.setWidth 32)) s

/-- TEST r/m16/32, imm16/32 (48 R251). -/
def execTestRmImm (rm : RM Reg) (imm : BitVec 32) (s : State) : Host.Outcome State Fault Refusal :=
  runAlu .test (isMem rm) (placev s s.os rm) (pure imm) s

/-- INC r16/32 (48 R252). -/
def execIncR (r : Reg) (s : State) : Host.Outcome State Fault Refusal := run (incBody (.reg s.os r)) s

/-- DEC r16/32 (48 R253). -/
def execDecR (r : Reg) (s : State) : Host.Outcome State Fault Refusal := run (decBody (.reg s.os r)) s

/-- INC r/m8 (48 R252). -/
def execIncRm8 (rm : RM Reg8) (s : State) : Host.Outcome State Fault Refusal :=
  runWith (isMem rm) false (incBody (place8 s rm)) s

/-- INC r/m16/32 (48 R252). -/
def execIncRm (rm : RM Reg) (s : State) : Host.Outcome State Fault Refusal :=
  runWith (isMem rm) false (incBody (placev s s.os rm)) s

/-- DEC r/m8 (48 R253). -/
def execDecRm8 (rm : RM Reg8) (s : State) : Host.Outcome State Fault Refusal :=
  runWith (isMem rm) false (decBody (place8 s rm)) s

/-- DEC r/m16/32 (48 R253). -/
def execDecRm (rm : RM Reg) (s : State) : Host.Outcome State Fault Refusal :=
  runWith (isMem rm) false (decBody (placev s s.os rm)) s

/-- NOT r/m8 (48 R254). -/
def execNotRm8 (rm : RM Reg8) (s : State) : Host.Outcome State Fault Refusal :=
  runWith (isMem rm) false (notBody (place8 s rm)) s

/-- NOT r/m16/32 (48 R254). -/
def execNotRm (rm : RM Reg) (s : State) : Host.Outcome State Fault Refusal :=
  runWith (isMem rm) false (notBody (placev s s.os rm)) s

/-- NEG r/m8 (48 R255). -/
def execNegRm8 (rm : RM Reg8) (s : State) : Host.Outcome State Fault Refusal :=
  runWith (isMem rm) false (negBody (place8 s rm)) s

/-- NEG r/m16/32 (48 R255). -/
def execNegRm (rm : RM Reg) (s : State) : Host.Outcome State Fault Refusal :=
  runWith (isMem rm) false (negBody (placev s s.os rm)) s

/-- DIV r/m8 (48 R256). -/
def execDivRm8 (rm : RM Reg8) (s : State) : Host.Outcome State Fault Refusal := run (divBody (place8 s rm)) s

/-- DIV r/m16/32 (48 R256). -/
def execDivRm (rm : RM Reg) (s : State) : Host.Outcome State Fault Refusal := run (divBody (placev s s.os rm)) s

/-- IDIV r/m8 (48 R257). -/
def execIdivRm8 (rm : RM Reg8) (s : State) : Host.Outcome State Fault Refusal := run (idivBody (place8 s rm)) s

/-- IDIV r/m16/32 (48 R257). -/
def execIdivRm (rm : RM Reg) (s : State) : Host.Outcome State Fault Refusal := run (idivBody (placev s s.os rm)) s

end Sys2Proof.Machine
end

