-- ==== Sys2Proof/Machine/Shift.lean ====
section
/-! DEFINITION. Shifts (48 R258-R261). -/

namespace Sys2Proof.Machine

open Sys2Proof

/-- A shift by a count of which the low five bits are used. A count of 0 reads the operand and makes the write checks,
and changes nothing (48 R258). -/
def shiftBody (op : ShiftOp) (dst : Place) (count : Byte) : M Unit := do
  dst.probe
  let a ← dst.read
  let c := count.toNat % 32
  if c = 0 then pure ()
  else do
    let u ← drawStatus
    let r := dst.width.unary (fun x => op.apply x c u) a
    dst.write r.1
    setStatus r.2

/-- SHL r/m8, 1 (48 R258, R259). -/
def execShlRm8One (rm : RM Reg8) (s : State) : Host.Outcome State Fault Refusal :=
  run (shiftBody .shl (place8 s rm) 1) s

/-- SHL r/m16/32, 1 (48 R258, R259). -/
def execShlRmOne (rm : RM Reg) (s : State) : Host.Outcome State Fault Refusal :=
  run (shiftBody .shl (placev s s.os rm) 1) s

/-- SHL r/m8, CL (48 R258, R259). -/
def execShlRm8Cl (rm : RM Reg8) (s : State) : Host.Outcome State Fault Refusal :=
  run (shiftBody .shl (place8 s rm) (s.reg8 .cl)) s

/-- SHL r/m16/32, CL (48 R258, R259). -/
def execShlRmCl (rm : RM Reg) (s : State) : Host.Outcome State Fault Refusal :=
  run (shiftBody .shl (placev s s.os rm) (s.reg8 .cl)) s

/-- SHL r/m8, imm8 (48 R258, R259). -/
def execShlRm8Imm8 (rm : RM Reg8) (imm : BitVec 8) (s : State) : Host.Outcome State Fault Refusal :=
  run (shiftBody .shl (place8 s rm) imm) s

/-- SHL r/m16/32, imm8 (48 R258, R259). -/
def execShlRmImm8 (rm : RM Reg) (imm : BitVec 8) (s : State) : Host.Outcome State Fault Refusal :=
  run (shiftBody .shl (placev s s.os rm) imm) s

/-- SHR r/m8, 1 (48 R258, R260). -/
def execShrRm8One (rm : RM Reg8) (s : State) : Host.Outcome State Fault Refusal :=
  run (shiftBody .shr (place8 s rm) 1) s

/-- SHR r/m16/32, 1 (48 R258, R260). -/
def execShrRmOne (rm : RM Reg) (s : State) : Host.Outcome State Fault Refusal :=
  run (shiftBody .shr (placev s s.os rm) 1) s

/-- SHR r/m8, CL (48 R258, R260). -/
def execShrRm8Cl (rm : RM Reg8) (s : State) : Host.Outcome State Fault Refusal :=
  run (shiftBody .shr (place8 s rm) (s.reg8 .cl)) s

/-- SHR r/m16/32, CL (48 R258, R260). -/
def execShrRmCl (rm : RM Reg) (s : State) : Host.Outcome State Fault Refusal :=
  run (shiftBody .shr (placev s s.os rm) (s.reg8 .cl)) s

/-- SHR r/m8, imm8 (48 R258, R260). -/
def execShrRm8Imm8 (rm : RM Reg8) (imm : BitVec 8) (s : State) : Host.Outcome State Fault Refusal :=
  run (shiftBody .shr (place8 s rm) imm) s

/-- SHR r/m16/32, imm8 (48 R258, R260). -/
def execShrRmImm8 (rm : RM Reg) (imm : BitVec 8) (s : State) : Host.Outcome State Fault Refusal :=
  run (shiftBody .shr (placev s s.os rm) imm) s

/-- SAR r/m8, 1 (48 R258, R261). -/
def execSarRm8One (rm : RM Reg8) (s : State) : Host.Outcome State Fault Refusal :=
  run (shiftBody .sar (place8 s rm) 1) s

/-- SAR r/m16/32, 1 (48 R258, R261). -/
def execSarRmOne (rm : RM Reg) (s : State) : Host.Outcome State Fault Refusal :=
  run (shiftBody .sar (placev s s.os rm) 1) s

/-- SAR r/m8, CL (48 R258, R261). -/
def execSarRm8Cl (rm : RM Reg8) (s : State) : Host.Outcome State Fault Refusal :=
  run (shiftBody .sar (place8 s rm) (s.reg8 .cl)) s

/-- SAR r/m16/32, CL (48 R258, R261). -/
def execSarRmCl (rm : RM Reg) (s : State) : Host.Outcome State Fault Refusal :=
  run (shiftBody .sar (placev s s.os rm) (s.reg8 .cl)) s

/-- SAR r/m8, imm8 (48 R258, R261). -/
def execSarRm8Imm8 (rm : RM Reg8) (imm : BitVec 8) (s : State) : Host.Outcome State Fault Refusal :=
  run (shiftBody .sar (place8 s rm) imm) s

/-- SAR r/m16/32, imm8 (48 R258, R261). -/
def execSarRmImm8 (rm : RM Reg) (imm : BitVec 8) (s : State) : Host.Outcome State Fault Refusal :=
  run (shiftBody .sar (placev s s.os rm) imm) s

end Sys2Proof.Machine
end

