-- ==== Sys2Proof/Machine/Bits.lean ====
section
/-! DEFINITION. Bit test and change (48 R262-R265). -/

namespace Sys2Proof.Machine

open Sys2Proof

/-- How far from the operand the item of a register bit offset lies, in bytes: (W/8) * floor(s / W) with the offset read
as a signed number (48 R262). -/
def bitItem (z : Size) (offset : BitVec 32) : BitVec 32 :=
  match z with
  | .w16 => (z.sext offset).sshiftRight 4 <<< 1
  | .w32 => offset.sshiftRight 5 <<< 2

/-- The item that a register bit offset selects: the register, or memory at the adjusted address (48 R262). -/
def bitPlace (s : State) (rm : RM Reg) (offset : BitVec 32) : Place :=
  match rm with
  | .reg r => .reg s.os r
  | .mem m => .mem (s.dataSeg (defaultSeg m)) (s.as.add (effAddr s m) (bitItem s.os offset)) s.os.width

/-- Bit test and change: CF takes the old bit; the other five status flags become free (48 R262). -/
def bitBody (op : BitOp) (dst : Place) (offset : BitVec 32) : M Unit := do
  dst.probe
  let v ← dst.read
  let i := offset.toNat % dst.width.bits
  dst.write (op.apply v i)
  let t ← drawStatus
  setStatus { t with cf := bit v i }

/-- BTS r/m16/32, r16/32 (48 R263). -/
def execBtsRmR (rm : RM Reg) (r : Reg) (s : State) : Host.Outcome State Fault Refusal :=
  runWith (isMem rm) false (bitBody .bts (bitPlace s rm (s.regv s.os r)) (s.regv s.os r)) s

/-- BTS r/m16/32, imm8 (48 R263). -/
def execBtsRmImm8 (rm : RM Reg) (imm : BitVec 8) (s : State) : Host.Outcome State Fault Refusal :=
  runWith (isMem rm) false (bitBody .bts (placev s s.os rm) (imm.setWidth 32)) s

/-- BTR r/m16/32, r16/32 (48 R264). -/
def execBtrRmR (rm : RM Reg) (r : Reg) (s : State) : Host.Outcome State Fault Refusal :=
  runWith (isMem rm) false (bitBody .btr (bitPlace s rm (s.regv s.os r)) (s.regv s.os r)) s

/-- BTR r/m16/32, imm8 (48 R264). -/
def execBtrRmImm8 (rm : RM Reg) (imm : BitVec 8) (s : State) : Host.Outcome State Fault Refusal :=
  runWith (isMem rm) false (bitBody .btr (placev s s.os rm) (imm.setWidth 32)) s

/-- BTC r/m16/32, r16/32 (48 R265). -/
def execBtcRmR (rm : RM Reg) (r : Reg) (s : State) : Host.Outcome State Fault Refusal :=
  runWith (isMem rm) false (bitBody .btc (bitPlace s rm (s.regv s.os r)) (s.regv s.os r)) s

/-- BTC r/m16/32, imm8 (48 R265). -/
def execBtcRmImm8 (rm : RM Reg) (imm : BitVec 8) (s : State) : Host.Outcome State Fault Refusal :=
  runWith (isMem rm) false (bitBody .btc (placev s s.os rm) (imm.setWidth 32)) s

end Sys2Proof.Machine
end

