-- ==== Sys2Proof/Machine/StringOps.lean ====
section
/-! DEFINITION. The direction flag, MOVS and REP (48 R266-R269, 45 R209). -/

namespace Sys2Proof.Machine

open Sys2Proof

/-- SI, DI and CX or ESI, EDI and ECX, by the address size (45 R207, R209; 48 R268). -/
def State.index (s : State) (r : Reg) : BitVec 32 := s.regv s.as r

/-- An index register moves past an element of `n` bytes, up or down by DF (45 R207; 48 R268). -/
def State.stepIndex (s : State) (r : Reg) (n : Nat) : State :=
  s.setRegv s.as r (s.as.add (s.index r) (if s.flags.df then -(BitVec.ofNat 32 n) else BitVec.ofNat 32 n))

/-- REP (45 R209; 48 R269): nothing when the count is 0, else one element and the count less one; with more to come the
instruction runs again from its first prefix byte. Without REP one element. -/
def repeated (element : M Unit) : M Unit := do
  let s ← st
  if !s.insn.rep then element
  else if s.index .ecx = 0 then pure ()
  else do
    element
    upd fun t => t.setRegv t.as .ecx (t.as.add (t.index .ecx) (-1))
    if s.index .ecx = 1 then pure () else mark fun w => { w with repeating := true }

/-- One element of MOVS: the destination's write checks, then the read and the write (48 R268). -/
def movsElement (n : Nat) : M Unit := do
  let s ← st
  memProbe .es (s.index .edi) n true
  let v ← memRead (s.dataSeg .ds) (s.index .esi) n
  memWrite .es (s.index .edi) n v
  upd fun t => (t.stepIndex .esi n).stepIndex .edi n

/-- MOVSB (48 R268, R269). -/
def execMovsb (s : State) : Host.Outcome State Fault Refusal := runWith false true (repeated (movsElement 1)) s

/-- MOVSW, MOVSD (48 R268, R269). -/
def execMovsv (s : State) : Host.Outcome State Fault Refusal := runWith false true (repeated (movsElement s.os.bytes)) s

/-- CLD (48 R266). -/
def execCld (s : State) : Host.Outcome State Fault Refusal :=
  run (upd fun t => { t with flags := { t.flags with df := false } }) s

/-- STD (48 R267). -/
def execStd (s : State) : Host.Outcome State Fault Refusal :=
  run (upd fun t => { t with flags := { t.flags with df := true } }) s

end Sys2Proof.Machine
end

