-- ==== Sys2Proof/Machine/Io.lean ====
section
/-! DEFINITION. Input and output and the IOPL-sensitive instructions (45_io.md). -/

namespace Sys2Proof.Machine

open Sys2Proof

/-- A port's bit in the I/O permission map of the current TSS must be 0 (45 R203, R204). -/
def portPermitted (mapbase : Nat) (p : Nat) : M Unit := do
  let s ← st
  let off := mapbase + p / 8
  check (decide (off ≤ s.tr.limit.toNat)) (.gp 0)
  let b ← linRead (s.tr.base + BitVec.ofNat 32 off) 1 false
  check (!bit b (p % 8)) (.gp 0)

/-- `IoPermission(port, n)` (45 R204). -/
def ioPermission (port : BitVec 16) (n : Nat) : M Unit := do
  let s ← st
  if !s.cr0.pe || s.cpl.ule s.flags.iopl then pure ()
  else do
    need s.tr.valid .taskRegister
    let v ← linRead (s.tr.base + 0x66) 2 false
    check (decide (v.toNat < s.tr.limit.toNat)) (.gp 0)
    each (fun i => portPermitted v.toNat (port.toNat + i)) (List.range n)

/-- One bus access that reads a port (45 R200). -/
def portRead (n : Nat) (port : BitVec 16) : M (BitVec 32) := do
  let v ← deviceIn
  busEvent (.ioRead port n (lowBytes n v))
  pure (lowBytes n v)

/-- `IoRead(port, n)` (45 R200): one access when aligned, else byte accesses in ascending order (92 D5). -/
def ioRead (port : BitVec 16) (n : Nat) : M (BitVec 32) := do
  need (decide (port.toNat + n ≤ 2 ^ 16)) .portWrap
  if port.toNat % n = 0 then portRead n port
  else do
    let bs ← gather (fun i => portRead 1 (port + BitVec.ofNat 16 i)) (List.range n)
    pure (ofBytes (bs.map fun b => byteOf b 0))

/-- `IoWrite(port, n, v)` (45 R200). -/
def ioWrite (port : BitVec 16) (n : Nat) (v : BitVec 32) : M Unit := do
  need (decide (port.toNat + n ≤ 2 ^ 16)) .portWrap
  if port.toNat % n = 0 then busEvent (.ioWrite port n (lowBytes n v))
  else
    each (fun i => busEvent (.ioWrite (port + BitVec.ofNat 16 i) 1 ((byteOf v i).setWidth 32))) (List.range n)

/-- IN (45 R205). -/
def inBody (port : BitVec 16) (dst : Place) : M Unit := do
  ioPermission port dst.width.bytes
  let v ← ioRead port dst.width.bytes
  dst.write v

/-- OUT (45 R206). -/
def outBody (port : BitVec 16) (src : Place) : M Unit := do
  ioPermission port src.width.bytes
  let v ← src.read
  ioWrite port src.width.bytes v

/-- DX. -/
def State.dx (s : State) : BitVec 16 := lo16 (s.reg .edx)

/-- IN AL, imm8 (45 R205). -/
def execInAlImm8 (imm : BitVec 8) (s : State) : Host.Outcome State Fault Refusal :=
  run (inBody (imm.setWidth 16) (.reg8 .al)) s

/-- IN eAX, imm8 (45 R205). -/
def execInEaxImm8 (imm : BitVec 8) (s : State) : Host.Outcome State Fault Refusal :=
  run (inBody (imm.setWidth 16) (.reg s.os .eax)) s

/-- IN AL, DX (45 R205). -/
def execInAlDx (s : State) : Host.Outcome State Fault Refusal := run (inBody s.dx (.reg8 .al)) s

/-- IN eAX, DX (45 R205). -/
def execInEaxDx (s : State) : Host.Outcome State Fault Refusal := run (inBody s.dx (.reg s.os .eax)) s

/-- OUT imm8, AL (45 R206). -/
def execOutImm8Al (imm : BitVec 8) (s : State) : Host.Outcome State Fault Refusal :=
  run (outBody (imm.setWidth 16) (.reg8 .al)) s

/-- OUT imm8, eAX (45 R206). -/
def execOutImm8Eax (imm : BitVec 8) (s : State) : Host.Outcome State Fault Refusal :=
  run (outBody (imm.setWidth 16) (.reg s.os .eax)) s

/-- OUT DX, AL (45 R206). -/
def execOutDxAl (s : State) : Host.Outcome State Fault Refusal := run (outBody s.dx (.reg8 .al)) s

/-- OUT DX, eAX (45 R206). -/
def execOutDxEax (s : State) : Host.Outcome State Fault Refusal := run (outBody s.dx (.reg s.os .eax)) s

/-- One element of INS (45 R207): permission, then the checks and translation of the destination, then the port is read
and the element stored, so that a fault has not consumed data of the device (92 D18). -/
def insElement (n : Nat) : M Unit := do
  let s ← st
  ioPermission s.dx n
  let la ← segCheck .es (s.index .edi) n true
  let pas ← linAccess la n true (userLevel s)
  noteData la n true
  let v ← ioRead s.dx n
  physWriteAt pas v
  upd fun t => t.stepIndex .edi n

/-- One element of OUTS (45 R208). -/
def outsElement (n : Nat) : M Unit := do
  let s ← st
  ioPermission s.dx n
  let v ← memRead (s.dataSeg .ds) (s.index .esi) n
  ioWrite s.dx n v
  upd fun t => t.stepIndex .esi n

/-- INSB (45 R207, R209). -/
def execInsb (s : State) : Host.Outcome State Fault Refusal := runWith false true (repeated (insElement 1)) s

/-- INSW, INSD (45 R207, R209). -/
def execInsv (s : State) : Host.Outcome State Fault Refusal := runWith false true (repeated (insElement s.os.bytes)) s

/-- OUTSB (45 R208, R209). -/
def execOutsb (s : State) : Host.Outcome State Fault Refusal := runWith false true (repeated (outsElement 1)) s

/-- OUTSW, OUTSD (45 R208, R209). -/
def execOutsv (s : State) : Host.Outcome State Fault Refusal := runWith false true (repeated (outsElement s.os.bytes)) s

/-- CLI and STI need CPL <= IOPL in protected mode (45 R202). -/
def ioplSensitive : M Unit := do
  let s ← st
  check (!s.cr0.pe || s.cpl.ule s.flags.iopl) (.gp 0)

/-- CLI (45 R210). -/
def execCli (s : State) : Host.Outcome State Fault Refusal :=
  run (do
    ioplSensitive
    upd fun t => { t with flags := { t.flags with if_ := false } }) s

/-- STI (45 R211): whether INTR is recognized at the next boundary when IF was 0 is a free choice (92 D22, log 19). -/
def execSti (s : State) : Host.Outcome State Fault Refusal :=
  run (do
    ioplSensitive
    upd fun t => { t with stiShadow := !t.flags.if_, flags := { t.flags with if_ := true } }) s

/-- The image PUSHF stores: VM and RF are pushed as 0 (45 R212). -/
def pushfImage (f : Flags) : BitVec 32 := { f with rf := false, vm := false : Flags }.toBits

/-- PUSHF (45 R212). -/
def execPushf (s : State) : Host.Outcome State Fault Refusal := run (push (pushfImage s.flags) s.os.bytes) s

/-- POPF (45 R213): IOPL and IF by privilege, RF from a 32-bit image, and RF is not cleared afterwards. -/
def execPopf (s : State) : Host.Outcome State Fault Refusal :=
  run (do
    let v ← pop s.os.bytes
    upd fun t => { t with flags := loadFlags v s.os s.cr0.pe s.cpl s.flags.iopl t.flags }
    mark fun w => { w with keepRf := true }) s

end Sys2Proof.Machine
end

