-- ==== Sys2Proof/Machine/Interrupt.lean ====
section
/-! DEFINITION. The instructions that raise and return from interrupts (46_interrupt_instructions.md). -/

namespace Sys2Proof.Machine

open Sys2Proof

/-- INT imm8 (46 R216). -/
def execIntImm8 (imm : BitVec 8) (s : State) : Host.Outcome State Fault Refusal := run (softInt imm) s

/-- INT 3 (46 R217). -/
def execInt3 (s : State) : Host.Outcome State Fault Refusal := run (softInt 3) s

/-- INTO (46 R218). -/
def execInto (s : State) : Host.Outcome State Fault Refusal := run (if s.flags.of then softInt 4 else pure ()) s

/-- BOUND (46 R219): both bounds are read, then compared as signed numbers of the operand size. -/
def execBound (r : Reg) (rm : RM Reg) (s : State) : Host.Outcome State Fault Refusal :=
  run (do
    let m ← needMem rm
    let (lo, hi) ← memRead2 (s.dataSeg (defaultSeg m)) (effAddr s m) s.os.bytes s.os.bytes
    let ix := s.os.sext (s.reg r)
    check ((s.os.sext lo).sle ix && ix.sle (s.os.sext hi)) .br) s

/-- IRET, IRETD (46 R220). -/
def execIret (s : State) : Host.Outcome State Fault Refusal := run iretBody s

end Sys2Proof.Machine
end

