-- ==== Sys2Proof/Machine/Coproc.lean ====
section
/-! DEFINITION. ESC, WAIT, XCHG and NOP (47_coprocessor_lock.md, 48 R235). -/

namespace Sys2Proof.Machine

open Sys2Proof

/-- ESC (47 R224, R225): #NM with EM or TS; what lies behind is the coprocessor's and is refused (log 35). -/
def execEsc (_opc _reg : BitVec 3) (_rm : RM Reg) (s : State) : Host.Outcome State Fault Refusal :=
  run (do
    check (!s.cr0.em && !s.cr0.ts) .nm
    refuse .coprocessor) s

/-- WAIT (47 R226): while BUSY# is active the instruction does not complete (log 38). -/
def execWait (s : State) : Host.Outcome State Fault Refusal :=
  run (do
    check (!(s.cr0.mp && s.cr0.ts)) .nm
    if s.env.busy then mark fun w => { w with waiting := true }
    else check (s.cr0.em || !s.env.error) .mf) s

/-- An exchange with a register: the write checks come first (47 R231). -/
def xchgBody (dst reg : Place) : M Unit := do
  dst.probe
  let t ← dst.read
  let v ← reg.read
  dst.write v
  reg.write t

/-- XCHG r/m8, r8 (47 R231). -/
def execXchgRm8R8 (rm : RM Reg8) (r : Reg8) (s : State) : Host.Outcome State Fault Refusal :=
  runWith (isMem rm) false (xchgBody (place8 s rm) (.reg8 r)) s

/-- XCHG r/m16/32, r16/32 (47 R231). -/
def execXchgRmR (rm : RM Reg) (r : Reg) (s : State) : Host.Outcome State Fault Refusal :=
  runWith (isMem rm) false (xchgBody (placev s s.os rm) (.reg s.os r)) s

/-- XCHG eAX, r16/32 (47 R231). -/
def execXchgEaxR (r : Reg) (s : State) : Host.Outcome State Fault Refusal :=
  run (xchgBody (.reg s.os .eax) (.reg s.os r)) s

/-- NOP (48 R235). -/
def execNop (s : State) : Host.Outcome State Fault Refusal := run (pure ()) s

end Sys2Proof.Machine
end

