-- ==== Sys2Proof/Machine/Override.lean ====
section
/-! DEFINITION. The prefixes (30 R106): each is recorded for the instruction it stands before (log 9). -/

namespace Sys2Proof.Machine

open Sys2Proof

/-- One more prefix byte has been read. -/
def Insn.more (i : Insn) : Insn := { i with len := i.len + 1 }

/-- LOCK (47 R230). -/
def execLock (s : State) : Host.Outcome State Fault Refusal :=
  .next { s with insn := { s.insn.more with lock := true } }

/-- REP (45 R209). -/
def execRep (s : State) : Host.Outcome State Fault Refusal := .next { s with insn := { s.insn.more with rep := true } }

/-- REPNE (30 R106). -/
def execRepne (s : State) : Host.Outcome State Fault Refusal :=
  .next { s with insn := { s.insn.more with repne := true } }

/-- ES segment override (30 R106). -/
def execSegEs (s : State) : Host.Outcome State Fault Refusal :=
  .next { s with insn := { s.insn.more with seg := some .es } }

/-- CS segment override (30 R106). -/
def execSegCs (s : State) : Host.Outcome State Fault Refusal :=
  .next { s with insn := { s.insn.more with seg := some .cs } }

/-- SS segment override (30 R106). -/
def execSegSs (s : State) : Host.Outcome State Fault Refusal :=
  .next { s with insn := { s.insn.more with seg := some .ss } }

/-- DS segment override (30 R106). -/
def execSegDs (s : State) : Host.Outcome State Fault Refusal :=
  .next { s with insn := { s.insn.more with seg := some .ds } }

/-- FS segment override (30 R106). -/
def execSegFs (s : State) : Host.Outcome State Fault Refusal :=
  .next { s with insn := { s.insn.more with seg := some .fs } }

/-- GS segment override (30 R106). -/
def execSegGs (s : State) : Host.Outcome State Fault Refusal :=
  .next { s with insn := { s.insn.more with seg := some .gs } }

/-- Operand-size override (30 R106, R107). -/
def execOpSize (s : State) : Host.Outcome State Fault Refusal :=
  .next { s with insn := { s.insn.more with opSize := true } }

/-- Address-size override (30 R106, R107). -/
def execAddrSize (s : State) : Host.Outcome State Fault Refusal :=
  .next { s with insn := { s.insn.more with addrSize := true } }

end Sys2Proof.Machine
end

