-- ==== Sys2Proof/Machine/Dispatch.lean ====
section
/-! DEFINITION. One arm for each instruction: the direct call of its meaning. -/

namespace Sys2Proof.Machine

open Sys2Proof

def exec (i : Instr) (s : State) : Host.Outcome State Fault Refusal :=
  match i with
  | .sgdt rm => Sys2Proof.Machine.execSgdt rm s
  | .sidt rm => Sys2Proof.Machine.execSidt rm s
  | .lgdt rm => Sys2Proof.Machine.execLgdt rm s
  | .lidt rm => Sys2Proof.Machine.execLidt rm s
  | .smsw rm => Sys2Proof.Machine.execSmsw rm s
  | .lmsw rm => Sys2Proof.Machine.execLmsw rm s
  | .sldt rm => Sys2Proof.Machine.execSldt rm s
  | .str rm => Sys2Proof.Machine.execStr rm s
  | .lldt rm => Sys2Proof.Machine.execLldt rm s
  | .ltr rm => Sys2Proof.Machine.execLtr rm s
  | .verr rm => Sys2Proof.Machine.execVerr rm s
  | .verw rm => Sys2Proof.Machine.execVerw rm s
  | .clts => Sys2Proof.Machine.execClts s
  | .movRCr r n => Sys2Proof.Machine.execMovRCr r n s
  | .movRDr r n => Sys2Proof.Machine.execMovRDr r n s
  | .movCrR n r => Sys2Proof.Machine.execMovCrR n r s
  | .movDrR n r => Sys2Proof.Machine.execMovDrR n r s
  | .movRTr r n => Sys2Proof.Machine.execMovRTr r n s
  | .movTrR n r => Sys2Proof.Machine.execMovTrR n r s
  | .hlt => Sys2Proof.Machine.execHlt s
  | .lar r rm => Sys2Proof.Machine.execLar r rm s
  | .lsl r rm => Sys2Proof.Machine.execLsl r rm s
  | .arpl rm r => Sys2Proof.Machine.execArpl rm r s
  | .movSregRm n rm => Sys2Proof.Machine.execMovSregRm n rm s
  | .movRmSreg rm n => Sys2Proof.Machine.execMovRmSreg rm n s
  | .pushEs => Sys2Proof.Machine.execPushEs s
  | .pushCs => Sys2Proof.Machine.execPushCs s
  | .pushSs => Sys2Proof.Machine.execPushSs s
  | .pushDs => Sys2Proof.Machine.execPushDs s
  | .pushFs => Sys2Proof.Machine.execPushFs s
  | .pushGs => Sys2Proof.Machine.execPushGs s
  | .popEs => Sys2Proof.Machine.execPopEs s
  | .popSs => Sys2Proof.Machine.execPopSs s
  | .popDs => Sys2Proof.Machine.execPopDs s
  | .popFs => Sys2Proof.Machine.execPopFs s
  | .popGs => Sys2Proof.Machine.execPopGs s
  | .les r rm => Sys2Proof.Machine.execLes r rm s
  | .lds r rm => Sys2Proof.Machine.execLds r rm s
  | .lss r rm => Sys2Proof.Machine.execLss r rm s
  | .lfs r rm => Sys2Proof.Machine.execLfs r rm s
  | .lgs r rm => Sys2Proof.Machine.execLgs r rm s
  | .jmpPtr off sel => Sys2Proof.Machine.execJmpPtr off sel s
  | .jmpFarM rm => Sys2Proof.Machine.execJmpFarM rm s
  | .callPtr off sel => Sys2Proof.Machine.execCallPtr off sel s
  | .callFarM rm => Sys2Proof.Machine.execCallFarM rm s
  | .retf => Sys2Proof.Machine.execRetf s
  | .retfImm16 imm => Sys2Proof.Machine.execRetfImm16 imm s
  | .inAlImm8 imm => Sys2Proof.Machine.execInAlImm8 imm s
  | .inEaxImm8 imm => Sys2Proof.Machine.execInEaxImm8 imm s
  | .inAlDx => Sys2Proof.Machine.execInAlDx s
  | .inEaxDx => Sys2Proof.Machine.execInEaxDx s
  | .outImm8Al imm => Sys2Proof.Machine.execOutImm8Al imm s
  | .outImm8Eax imm => Sys2Proof.Machine.execOutImm8Eax imm s
  | .outDxAl => Sys2Proof.Machine.execOutDxAl s
  | .outDxEax => Sys2Proof.Machine.execOutDxEax s
  | .insb => Sys2Proof.Machine.execInsb s
  | .insv => Sys2Proof.Machine.execInsv s
  | .outsb => Sys2Proof.Machine.execOutsb s
  | .outsv => Sys2Proof.Machine.execOutsv s
  | .cli => Sys2Proof.Machine.execCli s
  | .sti => Sys2Proof.Machine.execSti s
  | .pushf => Sys2Proof.Machine.execPushf s
  | .popf => Sys2Proof.Machine.execPopf s
  | .intImm8 imm => Sys2Proof.Machine.execIntImm8 imm s
  | .int3 => Sys2Proof.Machine.execInt3 s
  | .into => Sys2Proof.Machine.execInto s
  | .bound r rm => Sys2Proof.Machine.execBound r rm s
  | .iret => Sys2Proof.Machine.execIret s
  | .esc opc reg rm => Sys2Proof.Machine.execEsc opc reg rm s
  | .wait => Sys2Proof.Machine.execWait s
  | .lock => Sys2Proof.Machine.execLock s
  | .xchgRm8R8 rm r => Sys2Proof.Machine.execXchgRm8R8 rm r s
  | .xchgRmR rm r => Sys2Proof.Machine.execXchgRmR rm r s
  | .xchgEaxR r => Sys2Proof.Machine.execXchgEaxR r s
  | .nop => Sys2Proof.Machine.execNop s
  | .movRm8R8 rm r => Sys2Proof.Machine.execMovRm8R8 rm r s
  | .movRmR rm r => Sys2Proof.Machine.execMovRmR rm r s
  | .movR8Rm8 r rm => Sys2Proof.Machine.execMovR8Rm8 r rm s
  | .movRRm r rm => Sys2Proof.Machine.execMovRRm r rm s
  | .movR8Imm8 r imm => Sys2Proof.Machine.execMovR8Imm8 r imm s
  | .movRImm r imm => Sys2Proof.Machine.execMovRImm r imm s
  | .movRm8Imm8 rm imm => Sys2Proof.Machine.execMovRm8Imm8 rm imm s
  | .movRmImm rm imm => Sys2Proof.Machine.execMovRmImm rm imm s
  | .movAlMoffs off => Sys2Proof.Machine.execMovAlMoffs off s
  | .movEaxMoffs off => Sys2Proof.Machine.execMovEaxMoffs off s
  | .movMoffsAl off => Sys2Proof.Machine.execMovMoffsAl off s
  | .movMoffsEax off => Sys2Proof.Machine.execMovMoffsEax off s
  | .pushR r => Sys2Proof.Machine.execPushR r s
  | .popR r => Sys2Proof.Machine.execPopR r s
  | .addRm8R8 rm r => Sys2Proof.Machine.execAddRm8R8 rm r s
  | .addRmR rm r => Sys2Proof.Machine.execAddRmR rm r s
  | .addR8Rm8 r rm => Sys2Proof.Machine.execAddR8Rm8 r rm s
  | .addRRm r rm => Sys2Proof.Machine.execAddRRm r rm s
  | .addAlImm8 imm => Sys2Proof.Machine.execAddAlImm8 imm s
  | .addEaxImm imm => Sys2Proof.Machine.execAddEaxImm imm s
  | .addRm8Imm8 rm imm => Sys2Proof.Machine.execAddRm8Imm8 rm imm s
  | .addRmImm rm imm => Sys2Proof.Machine.execAddRmImm rm imm s
  | .addRmImm8 rm imm => Sys2Proof.Machine.execAddRmImm8 rm imm s
  | .orRm8R8 rm r => Sys2Proof.Machine.execOrRm8R8 rm r s
  | .orRmR rm r => Sys2Proof.Machine.execOrRmR rm r s
  | .orR8Rm8 r rm => Sys2Proof.Machine.execOrR8Rm8 r rm s
  | .orRRm r rm => Sys2Proof.Machine.execOrRRm r rm s
  | .orAlImm8 imm => Sys2Proof.Machine.execOrAlImm8 imm s
  | .orEaxImm imm => Sys2Proof.Machine.execOrEaxImm imm s
  | .orRm8Imm8 rm imm => Sys2Proof.Machine.execOrRm8Imm8 rm imm s
  | .orRmImm rm imm => Sys2Proof.Machine.execOrRmImm rm imm s
  | .orRmImm8 rm imm => Sys2Proof.Machine.execOrRmImm8 rm imm s
  | .adcRm8R8 rm r => Sys2Proof.Machine.execAdcRm8R8 rm r s
  | .adcRmR rm r => Sys2Proof.Machine.execAdcRmR rm r s
  | .adcR8Rm8 r rm => Sys2Proof.Machine.execAdcR8Rm8 r rm s
  | .adcRRm r rm => Sys2Proof.Machine.execAdcRRm r rm s
  | .adcAlImm8 imm => Sys2Proof.Machine.execAdcAlImm8 imm s
  | .adcEaxImm imm => Sys2Proof.Machine.execAdcEaxImm imm s
  | .adcRm8Imm8 rm imm => Sys2Proof.Machine.execAdcRm8Imm8 rm imm s
  | .adcRmImm rm imm => Sys2Proof.Machine.execAdcRmImm rm imm s
  | .adcRmImm8 rm imm => Sys2Proof.Machine.execAdcRmImm8 rm imm s
  | .sbbRm8R8 rm r => Sys2Proof.Machine.execSbbRm8R8 rm r s
  | .sbbRmR rm r => Sys2Proof.Machine.execSbbRmR rm r s
  | .sbbR8Rm8 r rm => Sys2Proof.Machine.execSbbR8Rm8 r rm s
  | .sbbRRm r rm => Sys2Proof.Machine.execSbbRRm r rm s
  | .sbbAlImm8 imm => Sys2Proof.Machine.execSbbAlImm8 imm s
  | .sbbEaxImm imm => Sys2Proof.Machine.execSbbEaxImm imm s
  | .sbbRm8Imm8 rm imm => Sys2Proof.Machine.execSbbRm8Imm8 rm imm s
  | .sbbRmImm rm imm => Sys2Proof.Machine.execSbbRmImm rm imm s
  | .sbbRmImm8 rm imm => Sys2Proof.Machine.execSbbRmImm8 rm imm s
  | .andRm8R8 rm r => Sys2Proof.Machine.execAndRm8R8 rm r s
  | .andRmR rm r => Sys2Proof.Machine.execAndRmR rm r s
  | .andR8Rm8 r rm => Sys2Proof.Machine.execAndR8Rm8 r rm s
  | .andRRm r rm => Sys2Proof.Machine.execAndRRm r rm s
  | .andAlImm8 imm => Sys2Proof.Machine.execAndAlImm8 imm s
  | .andEaxImm imm => Sys2Proof.Machine.execAndEaxImm imm s
  | .andRm8Imm8 rm imm => Sys2Proof.Machine.execAndRm8Imm8 rm imm s
  | .andRmImm rm imm => Sys2Proof.Machine.execAndRmImm rm imm s
  | .andRmImm8 rm imm => Sys2Proof.Machine.execAndRmImm8 rm imm s
  | .subRm8R8 rm r => Sys2Proof.Machine.execSubRm8R8 rm r s
  | .subRmR rm r => Sys2Proof.Machine.execSubRmR rm r s
  | .subR8Rm8 r rm => Sys2Proof.Machine.execSubR8Rm8 r rm s
  | .subRRm r rm => Sys2Proof.Machine.execSubRRm r rm s
  | .subAlImm8 imm => Sys2Proof.Machine.execSubAlImm8 imm s
  | .subEaxImm imm => Sys2Proof.Machine.execSubEaxImm imm s
  | .subRm8Imm8 rm imm => Sys2Proof.Machine.execSubRm8Imm8 rm imm s
  | .subRmImm rm imm => Sys2Proof.Machine.execSubRmImm rm imm s
  | .subRmImm8 rm imm => Sys2Proof.Machine.execSubRmImm8 rm imm s
  | .xorRm8R8 rm r => Sys2Proof.Machine.execXorRm8R8 rm r s
  | .xorRmR rm r => Sys2Proof.Machine.execXorRmR rm r s
  | .xorR8Rm8 r rm => Sys2Proof.Machine.execXorR8Rm8 r rm s
  | .xorRRm r rm => Sys2Proof.Machine.execXorRRm r rm s
  | .xorAlImm8 imm => Sys2Proof.Machine.execXorAlImm8 imm s
  | .xorEaxImm imm => Sys2Proof.Machine.execXorEaxImm imm s
  | .xorRm8Imm8 rm imm => Sys2Proof.Machine.execXorRm8Imm8 rm imm s
  | .xorRmImm rm imm => Sys2Proof.Machine.execXorRmImm rm imm s
  | .xorRmImm8 rm imm => Sys2Proof.Machine.execXorRmImm8 rm imm s
  | .cmpRm8R8 rm r => Sys2Proof.Machine.execCmpRm8R8 rm r s
  | .cmpRmR rm r => Sys2Proof.Machine.execCmpRmR rm r s
  | .cmpR8Rm8 r rm => Sys2Proof.Machine.execCmpR8Rm8 r rm s
  | .cmpRRm r rm => Sys2Proof.Machine.execCmpRRm r rm s
  | .cmpAlImm8 imm => Sys2Proof.Machine.execCmpAlImm8 imm s
  | .cmpEaxImm imm => Sys2Proof.Machine.execCmpEaxImm imm s
  | .cmpRm8Imm8 rm imm => Sys2Proof.Machine.execCmpRm8Imm8 rm imm s
  | .cmpRmImm rm imm => Sys2Proof.Machine.execCmpRmImm rm imm s
  | .cmpRmImm8 rm imm => Sys2Proof.Machine.execCmpRmImm8 rm imm s
  | .testRm8R8 rm r => Sys2Proof.Machine.execTestRm8R8 rm r s
  | .testRmR rm r => Sys2Proof.Machine.execTestRmR rm r s
  | .testAlImm8 imm => Sys2Proof.Machine.execTestAlImm8 imm s
  | .testEaxImm imm => Sys2Proof.Machine.execTestEaxImm imm s
  | .testRm8Imm8 rm imm => Sys2Proof.Machine.execTestRm8Imm8 rm imm s
  | .testRmImm rm imm => Sys2Proof.Machine.execTestRmImm rm imm s
  | .incR r => Sys2Proof.Machine.execIncR r s
  | .decR r => Sys2Proof.Machine.execDecR r s
  | .incRm8 rm => Sys2Proof.Machine.execIncRm8 rm s
  | .incRm rm => Sys2Proof.Machine.execIncRm rm s
  | .decRm8 rm => Sys2Proof.Machine.execDecRm8 rm s
  | .decRm rm => Sys2Proof.Machine.execDecRm rm s
  | .notRm8 rm => Sys2Proof.Machine.execNotRm8 rm s
  | .notRm rm => Sys2Proof.Machine.execNotRm rm s
  | .negRm8 rm => Sys2Proof.Machine.execNegRm8 rm s
  | .negRm rm => Sys2Proof.Machine.execNegRm rm s
  | .divRm8 rm => Sys2Proof.Machine.execDivRm8 rm s
  | .divRm rm => Sys2Proof.Machine.execDivRm rm s
  | .idivRm8 rm => Sys2Proof.Machine.execIdivRm8 rm s
  | .idivRm rm => Sys2Proof.Machine.execIdivRm rm s
  | .shlRm8One rm => Sys2Proof.Machine.execShlRm8One rm s
  | .shlRmOne rm => Sys2Proof.Machine.execShlRmOne rm s
  | .shlRm8Cl rm => Sys2Proof.Machine.execShlRm8Cl rm s
  | .shlRmCl rm => Sys2Proof.Machine.execShlRmCl rm s
  | .shlRm8Imm8 rm imm => Sys2Proof.Machine.execShlRm8Imm8 rm imm s
  | .shlRmImm8 rm imm => Sys2Proof.Machine.execShlRmImm8 rm imm s
  | .shrRm8One rm => Sys2Proof.Machine.execShrRm8One rm s
  | .shrRmOne rm => Sys2Proof.Machine.execShrRmOne rm s
  | .shrRm8Cl rm => Sys2Proof.Machine.execShrRm8Cl rm s
  | .shrRmCl rm => Sys2Proof.Machine.execShrRmCl rm s
  | .shrRm8Imm8 rm imm => Sys2Proof.Machine.execShrRm8Imm8 rm imm s
  | .shrRmImm8 rm imm => Sys2Proof.Machine.execShrRmImm8 rm imm s
  | .sarRm8One rm => Sys2Proof.Machine.execSarRm8One rm s
  | .sarRmOne rm => Sys2Proof.Machine.execSarRmOne rm s
  | .sarRm8Cl rm => Sys2Proof.Machine.execSarRm8Cl rm s
  | .sarRmCl rm => Sys2Proof.Machine.execSarRmCl rm s
  | .sarRm8Imm8 rm imm => Sys2Proof.Machine.execSarRm8Imm8 rm imm s
  | .sarRmImm8 rm imm => Sys2Proof.Machine.execSarRmImm8 rm imm s
  | .btsRmR rm r => Sys2Proof.Machine.execBtsRmR rm r s
  | .btsRmImm8 rm imm => Sys2Proof.Machine.execBtsRmImm8 rm imm s
  | .btrRmR rm r => Sys2Proof.Machine.execBtrRmR rm r s
  | .btrRmImm8 rm imm => Sys2Proof.Machine.execBtrRmImm8 rm imm s
  | .btcRmR rm r => Sys2Proof.Machine.execBtcRmR rm r s
  | .btcRmImm8 rm imm => Sys2Proof.Machine.execBtcRmImm8 rm imm s
  | .cld => Sys2Proof.Machine.execCld s
  | .std => Sys2Proof.Machine.execStd s
  | .movsb => Sys2Proof.Machine.execMovsb s
  | .movsv => Sys2Proof.Machine.execMovsv s
  | .rep => Sys2Proof.Machine.execRep s
  | .jmpRel8 rel => Sys2Proof.Machine.execJmpRel8 rel s
  | .jmpRel rel => Sys2Proof.Machine.execJmpRel rel s
  | .jmpRm rm => Sys2Proof.Machine.execJmpRm rm s
  | .jccRel8 c rel => Sys2Proof.Machine.execJccRel8 c rel s
  | .jccRel c rel => Sys2Proof.Machine.execJccRel c rel s
  | .callRel rel => Sys2Proof.Machine.execCallRel rel s
  | .callRm rm => Sys2Proof.Machine.execCallRm rm s
  | .ret => Sys2Proof.Machine.execRet s
  | .retImm16 imm => Sys2Proof.Machine.execRetImm16 imm s
  | .segEs => Sys2Proof.Machine.execSegEs s
  | .segCs => Sys2Proof.Machine.execSegCs s
  | .segSs => Sys2Proof.Machine.execSegSs s
  | .segDs => Sys2Proof.Machine.execSegDs s
  | .segFs => Sys2Proof.Machine.execSegFs s
  | .segGs => Sys2Proof.Machine.execSegGs s
  | .opSize => Sys2Proof.Machine.execOpSize s
  | .addrSize => Sys2Proof.Machine.execAddrSize s
  | .repne => Sys2Proof.Machine.execRepne s

end Sys2Proof.Machine
end

