-- ==== Sys2Proof/Machine/Step.lean ====
section
/-! DEFINITION. One step: the boundary of 60 R283 with `exec` as the meaning of instructions. -/

namespace Sys2Proof.Machine

open Sys2Proof

/-- One step of the machine: a reset, a delivery, a halted or shut-down wait, or one instruction with its prefixes (one
element of a REP string). -/
def step (s : State) : Host.Outcome State Fault Refusal := processorStep exec s

/-- `s` with the instruction whose bits are `w` (the table's numbering: byte i is bits 8i+7 to 8i) and zero bytes up to
15, where the next step fetches it (log 8). -/
def State.withFetchWord (s : State) (nbits w : Nat) : State := placeInstr s (leBytes (w % 2 ^ nbits) 15)

end Sys2Proof.Machine
end

