-- ==== Sys2Proof/Machine/RunEnd.lean ====
section
/-! DEFINITION. The end of a run (70 R351, 92 D26): the processor itself never ends, so this is a definition about a run
of a program, not about a step. -/

namespace Sys2Proof.Machine

open Sys2Proof

/-- The step from `s` to `t` executed HLT at the linear address `endAddr`, and the halt is stable: IF = 0, no NMI and no
debug trap pending (70 R351). -/
def haltsAtEnd (endAddr : BitVec 32) (s t : State) : Bool :=
  !s.halted && t.halted && s.segs.cs.base + s.eip == endAddr && !t.flags.if_ && !t.pendingNmi && t.pendingDbg == 0

/-- The next instruction is a WAIT that BUSY# holds (47 R226). -/
def heldByWait (s : State) : Bool :=
  s.env.busy && !(s.cr0.mp && s.cr0.ts) &&
    match fetchInstr 16 [] true (Work.start s false) with
    | .ok (.wait, _, _) _ => true
    | _ => false

/-- How a run stands after a step. Only `ended` is an end (70 R351). -/
inductive Standing where
  /-- HLT at the end address, with nothing that could end the halt pending -/
  | ended
  /-- shut down: only RESET goes on (61 R331) -/
  | shutdown
  /-- any other halt -/
  | halted
  /-- a WAIT that BUSY# holds -/
  | waiting
  | running
  deriving DecidableEq, Repr

/-- How a run stands after the step from `s` to `t`. -/
def standing (endAddr : BitVec 32) (s t : State) : Standing :=
  if haltsAtEnd endAddr s t then .ended
  else if t.inShutdown then .shutdown
  else if t.halted then .halted
  else if t.eip == s.eip && heldByWait t then .waiting
  else .running

/-- What came of a run: its end, or one of the other named outcomes of 92 D26; `unfinished` where the steps given were
not enough, with how the run stood. -/
inductive RunResult where
  | ended (final : State)
  | shutdown (final : State)
  | unfinished (how : Standing) (last : State)
  | fault (f : Fault)
  | refused (r : Refusal)
  deriving DecidableEq, Repr

/-- A run of at most `n` steps of a program whose end address is `endAddr`; `how` says how it stands at `s`. -/
def runToEnd (endAddr : BitVec 32) : Nat → Standing → State → RunResult
  | 0, how, s => .unfinished how s
  | n + 1, _, s =>
    match step s with
    | .next t =>
      match standing endAddr s t with
      | .ended => .ended t
      | .shutdown => .shutdown t
      | k => runToEnd endAddr n k t
    | .fault f => .fault f
    | .refused r => .refused r

end Sys2Proof.Machine
end

