-- ==== Sys2Proof/Safety.lean ====
section
/-! DEFINITION. The terms in which statements speak: the invariant of a step, the conditions under which an instruction
runs, how one ends, what an access may change, and the operands of each instruction of a family, read from the opcode
table (30 R117, R118) apart from the meanings. -/

namespace Sys2Proof.Machine

open Sys2Proof

/-! ### The invariant -/

/-- What every step keeps: memory in canonical form; paging only in protected mode (10 R37); CPL 0 in real-address mode
(10 R31); VM never set (00 R6); no instruction and no delivery in progress between steps. -/
structure Inv (s : State) : Prop where
  mem : Memory.wf s.mem = true
  paging : s.cr0.pg = true → s.cr0.pe = true
  real : s.cr0.pe = false → s.cpl = 0
  vm : s.flags.vm = false
  insn : s.insn = Insn.empty
  delivering : s.inShutdown = false → s.delivering = .none

/-! ### Beginning and end of an instruction -/

/-- The next instruction's offset exists, no REP or REPNE prefix stands before the instruction, and LOCK only where it is
allowed (30 R106, 47 R230). -/
structure ReadyFor (lockable : Bool) (s : State) : Prop where
  room : s.eip.toNat + s.insn.len < 2 ^ 32
  lock : s.insn.lock = true → lockable = true
  rep : s.insn.rep = false
  repne : s.insn.repne = false

/-- The instruction has no such prefix and ends at offset FFFFFFFFH, past which EIP is not incremented (93 U39). -/
structure EndsPast (s : State) : Prop where
  past : 2 ^ 32 ≤ s.eip.toNat + s.insn.len
  lock : s.insn.lock = false
  rep : s.insn.rep = false
  repne : s.insn.repne = false

/-- As `ReadyFor`, for an instruction that takes no LOCK. -/
abbrev Ready (s : State) : Prop := ReadyFor false s

/-- The bookkeeping before any part of a meaning has run. -/
abbrev State.work (s : State) : Work := Work.start s false

/-- The end, at offset `e`, of an instruction that began in `s`, has made `u` of it and met no data breakpoint: RF is
cleared (61 R327) and a single-step trap is due if TF was set at the beginning (61 R324). -/
def State.completedAt (s u : State) (e : BitVec 32) : State :=
  { u with
    eip := e
    flags := { u.flags with rf := false }
    pendingDbg := u.pendingDbg ||| u.lateDbg ||| (if s.flags.tf then 0x4000#32 else 0)
    lateDbg := 0
    insn := Insn.empty }

/-- The end of an instruction that goes on to the next one. -/
def State.completed (s u : State) : State := s.completedAt u s.nextEip

/-- The world after free values have been drawn: nothing else of it has changed. -/
def Drawn (a b : Env) : Prop := b = { a with draws := b.draws, drawn := b.drawn }

/-- The end at offset `e` with whatever data breakpoints were met: the pending debug traps and the free values drawn may
differ from `completedAt`, nothing else (61 R322). -/
def EndsAt (s u : State) (e : BitVec 32) (t : State) : Prop :=
  t = { s.completedAt u e with pendingDbg := t.pendingDbg, lateDbg := t.lateDbg, env := t.env } ∧ Drawn u.env t.env

/-- The end of an instruction that goes on to the next one, with whatever data breakpoints were met. -/
def Ends (s u t : State) : Prop := EndsAt s u s.nextEip t

/-- The end of an instruction that has made `u` of `s` by a task switch: the flags stay as the switch loaded them
(61 R327). -/
def Switched (s u t : State) : Prop := EndsAt s u u.eip { t with flags := { t.flags with rf := false } } ∧ t.flags = u.flags

/-- The state in which an exception of an instruction that has changed nothing is delivered (60 R278). -/
def State.faulting (s : State) : State := { s with insn := Insn.empty }

/-- The general detect fault (61 R323): #DB with nothing changed but the free values drawn. Besides BD it reports only
instruction breakpoints at the address of the instruction (61 R326). -/
def DetectsIce (s : State) (i : Instr) : Prop :=
  ∃ (b : BitVec 32) (e : Env), Drawn s.env e ∧ exec i s = raiseExc 6 { s.faulting with env := e } (.db b) ∧
    ∀ n, bit b n = true → n < 4 ∧ dr7Rw s.dr7 n = 0#2 ∧ s.drAddr n = s.segs.cs.base + s.eip

/-! ### Accesses -/

/-- What an access to memory may change: memory (in canonical form), the TLB, the record of stored bytes, and the world
but its physical map. -/
structure Accesses (s t : State) : Prop where
  same : t = { s with mem := t.mem, tlb := t.tlb, prefetch := t.prefetch, env := t.env }
  map : t.env.physMap = s.env.physMap
  hazard : t.prefetch.pe = s.prefetch.pe ∧ t.prefetch.resized = s.prefetch.resized ∧ t.prefetch.pg = s.prefetch.pg ∧
    t.prefetch.maps = s.prefetch.maps
  wf : Memory.wf s.mem = true → Memory.wf t.mem = true

/-- Bytes outside `stored` read as before; with paging on, accessed and dirty bits (bits 5 and 6, 20 R88) of page-table
entries may have been set. -/
def FrameExcept (s t : State) (stored : List (BitVec 32)) : Prop :=
  ∀ a, a ∉ stored → t.byteAt a ||| 0x60#8 = s.byteAt a ||| 0x60#8 ∧ (s.cr0.pg = false → t.byteAt a = s.byteAt a)

/-- Everything but the general registers, EIP, the flags and what a memory access touches is as before: the segment,
control, debug, test and table registers, CPL, and what is pending or in service. -/
def KeepsSystem (s t : State) : Prop :=
  t = { s with
    gpr := t.gpr, eip := t.eip, flags := t.flags, mem := t.mem, tlb := t.tlb, prefetch := t.prefetch,
    pendingDbg := t.pendingDbg, lateDbg := t.lateDbg, env := t.env, insn := t.insn }

/-- As `FrameExcept` with nothing stored, where descriptors are loaded: accessed bits of descriptors (bit 0 of a byte,
20 R77) may also have been set. -/
def TablesOnly (s t : State) : Prop :=
  Memory.wf s.mem = true → ∀ a, t.byteAt a ||| 0x61#8 = s.byteAt a ||| 0x61#8

/-- The physical addresses that a write of `n` bytes at `off` of segment `r` goes to, from `w`. -/
def storedAt (w : Work) (r : SegReg) (off : BitVec 32) (n : Nat) : List (BitVec 32) :=
  match linAccess ((w.s.seg r).base + off) n true (userLevel w.s) w with
  | .ok pas _ => pas
  | .error _ _ => []

/-- The physical addresses that a write of an operand goes to, none for a register. -/
def Place.stores (p : Place) (w : Work) : List (BitVec 32) :=
  match p with
  | .mem r off z => storedAt w r off z.bytes
  | _ => []

/-- The physical address `a` lies in plain memory, for `n` bytes. -/
def PlainMemory (s : State) (a : BitVec 32) (n : Nat) : Prop := ∀ p ∈ span a n, s.kindAt p = .ram

/-- An access of `n` bytes at `off` of segment `r` passes its segment checks (20 R79, R80). -/
def SegmentAllows (s : State) (r : SegReg) (off : BitVec 32) (n : Nat) (write : Bool) : Prop :=
  (s.seg r).valid = true ∧ (s.cr0.pe = true → typeOk (s.seg r) write = true) ∧ limitOk (s.seg r) off n = true

/-- No breakpoint is one of data, enabled or not (10 R50; 61 R322): no data access meets any. -/
def NoDataBreakpoint (s : State) : Prop := ∀ n, n < 4 → dr7Rw s.dr7 n = 0#2

/-- Such an access in plain memory, with paging off and no data breakpoint. -/
structure FlatAccess (s : State) (r : SegReg) (off : BitVec 32) (n : Nat) (write : Bool) : Prop where
  paging : s.cr0.pg = false
  breakpoints : NoDataBreakpoint s
  segment : SegmentAllows s r off n write
  plain : PlainMemory s ((s.seg r).base + off) n

/-- The value of the `n` bytes at `a`, the low byte first (20 R62). -/
def State.valueAt (s : State) (a : BitVec 32) (n : Nat) : BitVec 32 := ofBytes ((span a n).map s.byteAt)

/-- Item `k` of the stack, each of `n` bytes, the top one being item 0 (48 R234). -/
def State.stackItem (s : State) (n k : Nat) : BitVec 32 := s.valueAt (s.segs.ss.base + s.sp + BitVec.ofNat 32 (n * k)) n

/-- The descriptor that a selector names, its table in plain memory (20 R70). -/
def State.descriptor (s : State) (sel : BitVec 16) : Option Desc :=
  (descAddr s sel).map fun la => { lo := s.valueAt la 4, hi := s.valueAt (la + 4) 4 }

/-- The stack selector and stack pointer of level `pl` in the TSS, the TSS in plain memory (43 R175). -/
def State.tssSs (s : State) (pl : BitVec 2) : BitVec 16 := lo16 (s.valueAt (s.tr.base + BitVec.ofNat 32 (8 * pl.toNat + 8)) 2)

def State.tssEsp (s : State) (pl : BitVec 2) : BitVec 32 := s.valueAt (s.tr.base + BitVec.ofNat 32 (8 * pl.toNat + 4)) 4

/-! ### Tests and stages -/

/-- EXT as the low bit of an error code (60 R295). -/
def Work.extCode (w : Work) : BitVec 16 := if w.ext then 1#16 else 0#16

/-- The error code of an exception that names a selector (60 R295). -/
def Work.code (w : Work) (sel : BitVec 16) : BitVec 16 := (sel &&& 0xFFFC#16) ||| w.extCode

/-- The tests of an operation in their order, each with its exception: the outcome `o` is the exception of the first test that
fails, raised in `v`; where all hold, `good`. -/
def FirstFailure {α : Type} (o : EStateM.Result Stop Work α) (v : Work) : List (Prop × Exc) → Prop → Prop
  | [], good => good
  | (holds, e) :: tests, good => (¬ holds → o = .error (.exc e) v) ∧ (holds → FirstFailure o v tests good)

/-- The tests of an operation on a selector and on the descriptor that it names: those of the selector, that it lies inside its
table, and those of the descriptor, which was read on the way to the work that `tests` and `good` are given. -/
def ChecksDescriptor {α : Type} (o : EStateM.Result Stop Work α) (w : Work) (sel : BitVec 16) (outside : CodeExc)
    (before : List (Prop × Exc)) (tests : Desc → List (Prop × Exc)) (good : Desc → Work → Prop) : Prop :=
  FirstFailure o w (before ++ [((descAddr w.s sel).isSome = true, outside.mk (w.code sel))])
    (∀ d v, fetchDesc sel outside w = .ok d v → FirstFailure o v (tests d) (good d v))

/-- The stages of an operation in their order: the first that stops gives the outcome `o`; where all end, `good` of what they
leave. -/
def RunsThrough (o : EStateM.Result Stop Work Unit) : List (M Unit) → Work → (Work → Prop) → Prop
  | [], w, good => good w
  | m :: stages, w, good =>
    (∀ e v, m w = .error e v → o = .error e v) ∧ ∀ v, m w = .ok () v → RunsThrough o stages v good

/-! ### Operands -/

/-- The value of a register operand. -/
def Place.value (p : Place) (s : State) : BitVec 32 :=
  match p with
  | .reg8 r => (s.reg8 r).setWidth 32
  | .reg z r => s.regv z r
  | .mem _ _ _ => 0

/-- A register operand replaced. -/
def Place.set (p : Place) (s : State) (v : BitVec 32) : State :=
  match p with
  | .reg8 r => s.setReg8 r (v.setWidth 8)
  | .reg z r => s.setRegv z r v
  | .mem _ _ _ => s

/-- A source: an operand or an immediate value. -/
inductive Src where
  | place (p : Place)
  | imm (v : BitVec 32)
  deriving DecidableEq, Repr

def Src.read : Src → M (BitVec 32)
  | .place p => p.read
  | .imm v => pure v

def Src.value (s : State) : Src → BitVec 32
  | .place p => p.value s
  | .imm v => v

def Src.isMem : Src → Bool
  | .place p => p.isMem
  | .imm _ => false

/-- Operation, destination and source of the two-operand instructions and TEST (48 R242, R251). -/
def aluForm (s : State) : Instr → Option (AluOp × Place × Src)
  | .addRm8R8 rm r => some (.add, place8 s rm, .place (.reg8 r))
  | .addRmR rm r => some (.add, placev s s.os rm, .place (.reg s.os r))
  | .addR8Rm8 r rm => some (.add, .reg8 r, .place (place8 s rm))
  | .addRRm r rm => some (.add, .reg s.os r, .place (placev s s.os rm))
  | .addAlImm8 imm => some (.add, .reg8 .al, .imm (imm.setWidth 32))
  | .addEaxImm imm => some (.add, .reg s.os .eax, .imm imm)
  | .addRm8Imm8 rm imm => some (.add, place8 s rm, .imm (imm.setWidth 32))
  | .addRmImm rm imm => some (.add, placev s s.os rm, .imm imm)
  | .addRmImm8 rm imm => some (.add, placev s s.os rm, .imm (sext8 imm))
  | .orRm8R8 rm r => some (.or, place8 s rm, .place (.reg8 r))
  | .orRmR rm r => some (.or, placev s s.os rm, .place (.reg s.os r))
  | .orR8Rm8 r rm => some (.or, .reg8 r, .place (place8 s rm))
  | .orRRm r rm => some (.or, .reg s.os r, .place (placev s s.os rm))
  | .orAlImm8 imm => some (.or, .reg8 .al, .imm (imm.setWidth 32))
  | .orEaxImm imm => some (.or, .reg s.os .eax, .imm imm)
  | .orRm8Imm8 rm imm => some (.or, place8 s rm, .imm (imm.setWidth 32))
  | .orRmImm rm imm => some (.or, placev s s.os rm, .imm imm)
  | .orRmImm8 rm imm => some (.or, placev s s.os rm, .imm (sext8 imm))
  | .adcRm8R8 rm r => some (.adc, place8 s rm, .place (.reg8 r))
  | .adcRmR rm r => some (.adc, placev s s.os rm, .place (.reg s.os r))
  | .adcR8Rm8 r rm => some (.adc, .reg8 r, .place (place8 s rm))
  | .adcRRm r rm => some (.adc, .reg s.os r, .place (placev s s.os rm))
  | .adcAlImm8 imm => some (.adc, .reg8 .al, .imm (imm.setWidth 32))
  | .adcEaxImm imm => some (.adc, .reg s.os .eax, .imm imm)
  | .adcRm8Imm8 rm imm => some (.adc, place8 s rm, .imm (imm.setWidth 32))
  | .adcRmImm rm imm => some (.adc, placev s s.os rm, .imm imm)
  | .adcRmImm8 rm imm => some (.adc, placev s s.os rm, .imm (sext8 imm))
  | .sbbRm8R8 rm r => some (.sbb, place8 s rm, .place (.reg8 r))
  | .sbbRmR rm r => some (.sbb, placev s s.os rm, .place (.reg s.os r))
  | .sbbR8Rm8 r rm => some (.sbb, .reg8 r, .place (place8 s rm))
  | .sbbRRm r rm => some (.sbb, .reg s.os r, .place (placev s s.os rm))
  | .sbbAlImm8 imm => some (.sbb, .reg8 .al, .imm (imm.setWidth 32))
  | .sbbEaxImm imm => some (.sbb, .reg s.os .eax, .imm imm)
  | .sbbRm8Imm8 rm imm => some (.sbb, place8 s rm, .imm (imm.setWidth 32))
  | .sbbRmImm rm imm => some (.sbb, placev s s.os rm, .imm imm)
  | .sbbRmImm8 rm imm => some (.sbb, placev s s.os rm, .imm (sext8 imm))
  | .andRm8R8 rm r => some (.and, place8 s rm, .place (.reg8 r))
  | .andRmR rm r => some (.and, placev s s.os rm, .place (.reg s.os r))
  | .andR8Rm8 r rm => some (.and, .reg8 r, .place (place8 s rm))
  | .andRRm r rm => some (.and, .reg s.os r, .place (placev s s.os rm))
  | .andAlImm8 imm => some (.and, .reg8 .al, .imm (imm.setWidth 32))
  | .andEaxImm imm => some (.and, .reg s.os .eax, .imm imm)
  | .andRm8Imm8 rm imm => some (.and, place8 s rm, .imm (imm.setWidth 32))
  | .andRmImm rm imm => some (.and, placev s s.os rm, .imm imm)
  | .andRmImm8 rm imm => some (.and, placev s s.os rm, .imm (sext8 imm))
  | .subRm8R8 rm r => some (.sub, place8 s rm, .place (.reg8 r))
  | .subRmR rm r => some (.sub, placev s s.os rm, .place (.reg s.os r))
  | .subR8Rm8 r rm => some (.sub, .reg8 r, .place (place8 s rm))
  | .subRRm r rm => some (.sub, .reg s.os r, .place (placev s s.os rm))
  | .subAlImm8 imm => some (.sub, .reg8 .al, .imm (imm.setWidth 32))
  | .subEaxImm imm => some (.sub, .reg s.os .eax, .imm imm)
  | .subRm8Imm8 rm imm => some (.sub, place8 s rm, .imm (imm.setWidth 32))
  | .subRmImm rm imm => some (.sub, placev s s.os rm, .imm imm)
  | .subRmImm8 rm imm => some (.sub, placev s s.os rm, .imm (sext8 imm))
  | .xorRm8R8 rm r => some (.xor, place8 s rm, .place (.reg8 r))
  | .xorRmR rm r => some (.xor, placev s s.os rm, .place (.reg s.os r))
  | .xorR8Rm8 r rm => some (.xor, .reg8 r, .place (place8 s rm))
  | .xorRRm r rm => some (.xor, .reg s.os r, .place (placev s s.os rm))
  | .xorAlImm8 imm => some (.xor, .reg8 .al, .imm (imm.setWidth 32))
  | .xorEaxImm imm => some (.xor, .reg s.os .eax, .imm imm)
  | .xorRm8Imm8 rm imm => some (.xor, place8 s rm, .imm (imm.setWidth 32))
  | .xorRmImm rm imm => some (.xor, placev s s.os rm, .imm imm)
  | .xorRmImm8 rm imm => some (.xor, placev s s.os rm, .imm (sext8 imm))
  | .cmpRm8R8 rm r => some (.cmp, place8 s rm, .place (.reg8 r))
  | .cmpRmR rm r => some (.cmp, placev s s.os rm, .place (.reg s.os r))
  | .cmpR8Rm8 r rm => some (.cmp, .reg8 r, .place (place8 s rm))
  | .cmpRRm r rm => some (.cmp, .reg s.os r, .place (placev s s.os rm))
  | .cmpAlImm8 imm => some (.cmp, .reg8 .al, .imm (imm.setWidth 32))
  | .cmpEaxImm imm => some (.cmp, .reg s.os .eax, .imm imm)
  | .cmpRm8Imm8 rm imm => some (.cmp, place8 s rm, .imm (imm.setWidth 32))
  | .cmpRmImm rm imm => some (.cmp, placev s s.os rm, .imm imm)
  | .cmpRmImm8 rm imm => some (.cmp, placev s s.os rm, .imm (sext8 imm))
  | .testRm8R8 rm r => some (.test, place8 s rm, .place (.reg8 r))
  | .testRmR rm r => some (.test, placev s s.os rm, .place (.reg s.os r))
  | .testAlImm8 imm => some (.test, .reg8 .al, .imm (imm.setWidth 32))
  | .testEaxImm imm => some (.test, .reg s.os .eax, .imm imm)
  | .testRm8Imm8 rm imm => some (.test, place8 s rm, .imm (imm.setWidth 32))
  | .testRmImm rm imm => some (.test, placev s s.os rm, .imm imm)
  | _ => none

/-- The one-operand instructions (48 R252-R255). -/
inductive UnOp where
  | inc | dec | not | neg
  deriving DecidableEq, Repr

/-- Result and flags: an addition of 1, a subtraction of 1 or from 0, or the complement; INC and DEC keep CF, NOT keeps
all flags (48 R252-R255). -/
def UnOp.apply (op : UnOp) (w : Width) (f : Flags) (a : BitVec 32) : BitVec 32 × Flags :=
  match op with
  | .inc =>
    let r := w.binary (fun x y => addWith x y false) a 1
    (r.1, { f.withStatus r.2 with cf := f.cf })
  | .dec =>
    let r := w.binary (fun x y => subWith x y false) a 1
    (r.1, { f.withStatus r.2 with cf := f.cf })
  | .not => ((w.binary (fun x y => (x ^^^ y, resultFlags x false false false)) a (BitVec.allOnes 32)).1, f)
  | .neg =>
    let r := w.binary (fun x y => subWith x y false) 0 a
    (r.1, f.withStatus r.2)

/-- Operation and operand of the one-operand instructions (48 R252-R255). -/
def unaryForm (s : State) : Instr → Option (UnOp × Place)
  | .incR r => some (.inc, .reg s.os r)
  | .decR r => some (.dec, .reg s.os r)
  | .incRm8 rm => some (.inc, place8 s rm)
  | .incRm rm => some (.inc, placev s s.os rm)
  | .decRm8 rm => some (.dec, place8 s rm)
  | .decRm rm => some (.dec, placev s s.os rm)
  | .notRm8 rm => some (.not, place8 s rm)
  | .notRm rm => some (.not, placev s s.os rm)
  | .negRm8 rm => some (.neg, place8 s rm)
  | .negRm rm => some (.neg, placev s s.os rm)
  | _ => none

/-- Signedness and divisor of DIV and IDIV (48 R256, R257). -/
def divForm (s : State) : Instr → Option (Bool × Place)
  | .divRm8 rm => some (false, place8 s rm)
  | .divRm rm => some (false, placev s s.os rm)
  | .idivRm8 rm => some (true, place8 s rm)
  | .idivRm rm => some (true, placev s s.os rm)
  | _ => none

/-- Operation, operand and count of the shifts (48 R258). -/
def shiftForm (s : State) : Instr → Option (ShiftOp × Place × Byte)
  | .shlRm8One rm => some (.shl, place8 s rm, 1)
  | .shlRmOne rm => some (.shl, placev s s.os rm, 1)
  | .shlRm8Cl rm => some (.shl, place8 s rm, s.reg8 .cl)
  | .shlRmCl rm => some (.shl, placev s s.os rm, s.reg8 .cl)
  | .shlRm8Imm8 rm imm => some (.shl, place8 s rm, imm)
  | .shlRmImm8 rm imm => some (.shl, placev s s.os rm, imm)
  | .shrRm8One rm => some (.shr, place8 s rm, 1)
  | .shrRmOne rm => some (.shr, placev s s.os rm, 1)
  | .shrRm8Cl rm => some (.shr, place8 s rm, s.reg8 .cl)
  | .shrRmCl rm => some (.shr, placev s s.os rm, s.reg8 .cl)
  | .shrRm8Imm8 rm imm => some (.shr, place8 s rm, imm)
  | .shrRmImm8 rm imm => some (.shr, placev s s.os rm, imm)
  | .sarRm8One rm => some (.sar, place8 s rm, 1)
  | .sarRmOne rm => some (.sar, placev s s.os rm, 1)
  | .sarRm8Cl rm => some (.sar, place8 s rm, s.reg8 .cl)
  | .sarRmCl rm => some (.sar, placev s s.os rm, s.reg8 .cl)
  | .sarRm8Imm8 rm imm => some (.sar, place8 s rm, imm)
  | .sarRmImm8 rm imm => some (.sar, placev s s.os rm, imm)
  | _ => none

/-- Operation, item and bit offset of BTS, BTR and BTC (48 R262). -/
def bitForm (s : State) : Instr → Option (BitOp × Place × BitVec 32)
  | .btsRmR rm r => some (.bts, bitPlace s rm (s.regv s.os r), s.regv s.os r)
  | .btsRmImm8 rm imm => some (.bts, placev s s.os rm, imm.setWidth 32)
  | .btrRmR rm r => some (.btr, bitPlace s rm (s.regv s.os r), s.regv s.os r)
  | .btrRmImm8 rm imm => some (.btr, placev s s.os rm, imm.setWidth 32)
  | .btcRmR rm r => some (.btc, bitPlace s rm (s.regv s.os r), s.regv s.os r)
  | .btcRmImm8 rm imm => some (.btc, placev s s.os rm, imm.setWidth 32)
  | _ => none

/-- Destination and source of the moves (48 R236-R239). -/
def movForm (s : State) : Instr → Option (Place × Src)
  | .movRm8R8 rm r => some (place8 s rm, .place (.reg8 r))
  | .movRmR rm r => some (placev s s.os rm, .place (.reg s.os r))
  | .movR8Rm8 r rm => some (.reg8 r, .place (place8 s rm))
  | .movRRm r rm => some (.reg s.os r, .place (placev s s.os rm))
  | .movR8Imm8 r imm => some (.reg8 r, .imm (imm.setWidth 32))
  | .movRImm r imm => some (.reg s.os r, .imm imm)
  | .movRm8Imm8 rm imm => some (place8 s rm, .imm (imm.setWidth 32))
  | .movRmImm rm imm => some (placev s s.os rm, .imm imm)
  | .movAlMoffs off => some (.reg8 .al, .place (.mem (s.dataSeg .ds) off .w8))
  | .movEaxMoffs off => some (.reg s.os .eax, .place (.mem (s.dataSeg .ds) off s.os.width))
  | .movMoffsAl off => some (.mem (s.dataSeg .ds) off .w8, .place (.reg8 .al))
  | .movMoffsEax off => some (.mem (s.dataSeg .ds) off s.os.width, .place (.reg s.os .eax))
  | _ => none

/-- The two operands of XCHG (47 R231). -/
def xchgForm (s : State) : Instr → Option (Place × Place)
  | .xchgRm8R8 rm r => some (place8 s rm, .reg8 r)
  | .xchgRmR rm r => some (placev s s.os rm, .reg s.os r)
  | .xchgEaxR r => some (.reg s.os .eax, .reg s.os r)
  | _ => none

/-- Port and destination of IN (45 R205). -/
def inForm (s : State) : Instr → Option (BitVec 16 × Place)
  | .inAlImm8 imm => some (imm.setWidth 16, .reg8 .al)
  | .inEaxImm8 imm => some (imm.setWidth 16, .reg s.os .eax)
  | .inAlDx => some (lo16 (s.reg .edx), .reg8 .al)
  | .inEaxDx => some (lo16 (s.reg .edx), .reg s.os .eax)
  | _ => none

/-- Port and source of OUT (45 R206). -/
def outForm (s : State) : Instr → Option (BitVec 16 × Place)
  | .outImm8Al imm => some (imm.setWidth 16, .reg8 .al)
  | .outImm8Eax imm => some (imm.setWidth 16, .reg s.os .eax)
  | .outDxAl => some (lo16 (s.reg .edx), .reg8 .al)
  | .outDxEax => some (lo16 (s.reg .edx), .reg s.os .eax)
  | _ => none

/-- The target of a near JMP, of JMP r/m in its register form (48 R271). -/
def jumpTarget (s : State) : Instr → Option (BitVec 32)
  | .jmpRel8 rel => some (s.os.trunc (s.nextEip + rel.signExtend 32))
  | .jmpRel rel => some (s.os.trunc (s.nextEip + s.os.sext rel))
  | .jmpRm (.reg r) => some (s.regv s.os r)
  | _ => none

/-- The target of a near CALL, of CALL r/m in its register form (48 R273). -/
def callTarget (s : State) : Instr → Option (BitVec 32)
  | .callRel rel => some (s.os.trunc (s.nextEip + s.os.sext rel))
  | .callRm (.reg r) => some (s.regv s.os r)
  | _ => none

/-- The element that a string instruction moves (45 R207, R208; 48 R268). -/
def stringElement (s : State) : Instr → Option (M Unit)
  | .movsb => some (movsElement 1)
  | .movsv => some (movsElement s.os.bytes)
  | .insb => some (insElement 1)
  | .insv => some (insElement s.os.bytes)
  | .outsb => some (outsElement 1)
  | .outsv => some (outsElement s.os.bytes)
  | _ => none

/-- Kind and pointer of a far JMP or CALL (43 R177-R180). -/
def farForm : Instr → Option (TransferKind × M (BitVec 32 × BitVec 16))
  | .jmpPtr off sel => some (.jmp, pure (off, sel))
  | .callPtr off sel => some (.call, pure (off, sel))
  | .jmpFarM (.mem m) => some (.jmp, readFarPtr m)
  | .callFarM (.mem m) => some (.call, readFarPtr m)
  | _ => none

/-- The segment register that a PUSH pushes (42 R158). -/
def pushSegForm : Instr → Option SegReg
  | .pushEs => some .es
  | .pushCs => some .cs
  | .pushSs => some .ss
  | .pushDs => some .ds
  | .pushFs => some .fs
  | .pushGs => some .gs
  | _ => none

/-- The segment register that a POP loads (42 R159). -/
def popSegForm : Instr → Option SegReg
  | .popEs => some .es
  | .popSs => some .ss
  | .popDs => some .ds
  | .popFs => some .fs
  | .popGs => some .gs
  | _ => none

/-- The segment register, the register and the operand of the full-pointer loads (42 R160-R165). -/
def loadPtrForm : Instr → Option (SegReg × Reg × RM Reg)
  | .lds r rm => some (.ds, r, rm)
  | .les r rm => some (.es, r, rm)
  | .lfs r rm => some (.fs, r, rm)
  | .lgs r rm => some (.gs, r, rm)
  | .lss r rm => some (.ss, r, rm)
  | _ => none

/-- What a prefix records (30 R106). -/
def prefixForm (p : Insn) : Instr → Option Insn
  | .lock => some { p with lock := true }
  | .rep => some { p with rep := true }
  | .repne => some { p with repne := true }
  | .segEs => some { p with seg := some .es }
  | .segCs => some { p with seg := some .cs }
  | .segSs => some { p with seg := some .ss }
  | .segDs => some { p with seg := some .ds }
  | .segFs => some { p with seg := some .fs }
  | .segGs => some { p with seg := some .gs }
  | .opSize => some { p with opSize := true }
  | .addrSize => some { p with addrSize := true }
  | _ => none

/-- A segment register as real-address mode loads it: the base is 16 times the selector (20 R65, 42 R154). -/
def Seg.realLoaded (g : Seg) (sel : BitVec 16) : Seg := { g with selector := sel, base := sel.setWidth 32 <<< 4, valid := true }

/-- Paging is off and every physical address is RAM. -/
structure AllRam (s : State) : Prop where
  paging : s.cr0.pg = false
  ram : ∀ a, s.kindAt a = .ram

/-- The stack of level `pl` that the TSS of `s` names is the stack of `t`, with `count` doublewords pushed (43 R175, R176;
60 R292). -/
structure OnInnerStack (s t : State) (pl : BitVec 2) (count : Nat) : Prop where
  ss : ∃ d, s.descriptor (s.tssSs pl) = some d ∧ t.segs.ss = d.toSeg (s.tssSs pl)
  sp : t.sp + BitVec.ofNat 32 (4 * count) = t.stackSize.trunc (s.tssEsp pl)

/-- What a return from `s` to the outer level `pl` makes of CPL, the segment registers and the stack pointer: CS and SS as
loaded, the data segment registers dropped that the level may not use, and `sp` in the new stack's size (43 R183). -/
structure Outward (s t : State) (pl : BitVec 2) (cs ss : Seg) (sp : BitVec 32) : Prop where
  cpl : t.cpl = pl
  segs : t.segs = { cs := cs, ss := ss, ds := dropSeg pl s.segs.ds, es := dropSeg pl s.segs.es, fs := dropSeg pl s.segs.fs,
                    gs := dropSeg pl s.segs.gs }
  gpr : t.gpr = (s.setRegv t.stackSize .esp sp).gpr

/-- The task state segments of a switch from `s` to the task of selector `nsel` at `base`, which leaves `t`, lie apart from
each other and from the descriptors that the switch may write to. -/
structure TasksApart (s t : State) (nsel : BitVec 16) (base : BitVec 32) : Prop where
  tasks : ∀ a ∈ span s.tr.base 104, a ∉ span base 104
  busy : ∀ sel, sel = s.tr.selector ∨ sel = nsel → accessByte s sel ∉ span s.tr.base 104 ++ span base 104
  accessed : ∀ sel, (descAddr t sel).isSome = true → accessByte t sel ∉ span s.tr.base 104 ++ span base 104

/-- The descriptors of `t` lie apart as far as their accessed bits go: the access byte of a descriptor is no byte of another
one, unless it is that one's access byte too. -/
def DescriptorsApart (t : State) : Prop :=
  ∀ a b la, (descAddr t a).isSome = true → descAddr t b = some la → accessByte t a ∈ span la 8 → accessByte t a = la + 5

/-- `g` holds the present segment that its selector names in the tables of `t` (20 R70-R74). -/
def State.Loaded (t : State) (g : Seg) : Prop :=
  ∃ d, t.descriptor g.selector = some d ∧ d.p = true ∧ g = d.toSeg g.selector

/-- Nothing comes before the next instruction at this boundary: no input, no pending trap, interrupt or breakpoint, and
the processor is not halted or shut down (60 R283). -/
structure QuietBoundary (s : State) : Prop where
  inputs : s.env.inputs = []
  shutdown : s.inShutdown = false
  halted : s.halted = false
  shadow : s.intShadow = false
  debug : s.pendingDbg = 0
  breakpoints : s.dr7.extractLsb' 0 8 = 0
  nmi : s.pendingNmi = false


/-- The forms before which LOCK is allowed: a listed instruction whose destination is memory (47 R230). -/
def lockable : Instr → Bool
  | .addRm8R8 rm _ => isMem rm
  | .addRmR rm _ => isMem rm
  | .addRm8Imm8 rm _ => isMem rm
  | .addRmImm rm _ => isMem rm
  | .addRmImm8 rm _ => isMem rm
  | .orRm8R8 rm _ => isMem rm
  | .orRmR rm _ => isMem rm
  | .orRm8Imm8 rm _ => isMem rm
  | .orRmImm rm _ => isMem rm
  | .orRmImm8 rm _ => isMem rm
  | .adcRm8R8 rm _ => isMem rm
  | .adcRmR rm _ => isMem rm
  | .adcRm8Imm8 rm _ => isMem rm
  | .adcRmImm rm _ => isMem rm
  | .adcRmImm8 rm _ => isMem rm
  | .sbbRm8R8 rm _ => isMem rm
  | .sbbRmR rm _ => isMem rm
  | .sbbRm8Imm8 rm _ => isMem rm
  | .sbbRmImm rm _ => isMem rm
  | .sbbRmImm8 rm _ => isMem rm
  | .andRm8R8 rm _ => isMem rm
  | .andRmR rm _ => isMem rm
  | .andRm8Imm8 rm _ => isMem rm
  | .andRmImm rm _ => isMem rm
  | .andRmImm8 rm _ => isMem rm
  | .subRm8R8 rm _ => isMem rm
  | .subRmR rm _ => isMem rm
  | .subRm8Imm8 rm _ => isMem rm
  | .subRmImm rm _ => isMem rm
  | .subRmImm8 rm _ => isMem rm
  | .xorRm8R8 rm _ => isMem rm
  | .xorRmR rm _ => isMem rm
  | .xorRm8Imm8 rm _ => isMem rm
  | .xorRmImm rm _ => isMem rm
  | .xorRmImm8 rm _ => isMem rm
  | .incRm8 rm => isMem rm
  | .incRm rm => isMem rm
  | .decRm8 rm => isMem rm
  | .decRm rm => isMem rm
  | .notRm8 rm => isMem rm
  | .notRm rm => isMem rm
  | .negRm8 rm => isMem rm
  | .negRm rm => isMem rm
  | .xchgRm8R8 rm _ => isMem rm
  | .xchgRmR rm _ => isMem rm
  | .btsRmR rm _ => isMem rm
  | .btsRmImm8 rm _ => isMem rm
  | .btrRmR rm _ => isMem rm
  | .btrRmImm8 rm _ => isMem rm
  | .btcRmR rm _ => isMem rm
  | .btcRmImm8 rm _ => isMem rm
  | _ => false

/-- The privileged instructions, LGDT and LIDT in their memory form (40 R124). -/
def isPrivileged : Instr → Bool
  | .lgdt rm => isMem rm
  | .lidt rm => isMem rm
  | .lldt _ => true
  | .ltr _ => true
  | .lmsw _ => true
  | .clts => true
  | .hlt => true
  | .movRCr _ _ => true
  | .movCrR _ _ => true
  | .movRDr _ _ => true
  | .movDrR _ _ => true
  | .movRTr _ _ => true
  | .movTrR _ _ => true
  | _ => false

/-- The instructions that real-address mode does not have (30 R120). -/
def isProtectedOnly : Instr → Bool
  | .lldt _ => true
  | .ltr _ => true
  | .sldt _ => true
  | .str _ => true
  | .lar _ _ => true
  | .lsl _ _ => true
  | .verr _ => true
  | .verw _ => true
  | .arpl _ _ => true
  | _ => false

/-- The forms that raise #UD in both modes: a register where the instruction takes memory alone, a segment register that does
not exist, and a load of CS by MOV (30 R120; 42 R156, R157). -/
def isUndefinedForm : Instr → Bool
  | .lgdt rm => !isMem rm
  | .lidt rm => !isMem rm
  | .sgdt rm => !isMem rm
  | .sidt rm => !isMem rm
  | .les _ rm => !isMem rm
  | .lds _ rm => !isMem rm
  | .lss _ rm => !isMem rm
  | .lfs _ rm => !isMem rm
  | .lgs _ rm => !isMem rm
  | .jmpFarM rm => !isMem rm
  | .callFarM rm => !isMem rm
  | .bound _ rm => !isMem rm
  | .movSregRm n _ => (SegReg.ofNum n).all (· == .cs)
  | .movRmSreg _ n => (SegReg.ofNum n).isNone
  | _ => false

end Sys2Proof.Machine
end

