-- ==== Sys2Proof/Certificates/Slice0/Obligations.lean ====
section
/-! DEFINITION. The statements for the provers. Each docstring names the rules of spec/ it rests on. -/

open Sys2Proof Sys2Proof.Machine

/-! ### Reset, the invariant, decoding -/

/-- What the RESET signal leaves (10 R57; 70 R337, R338), whatever the state before. Choices among the clauses: the selector in
CS, 0000H or F000H, is a parameter of the platform (92 D11, log 2), the attributes of the segment registers that R57 does not give are
the family's (log 3), bits 9:0 of DR7 and the cleared latches are the spec's own decision (10 R58; 92 D12), and a self-test
parameter of 0 stands for 1 (the model's, log 7). -/
def Obligations.ResetSignalState : Prop :=
  ∀ s : State, (nextInput s).reset = true →
    ∃ t, step s = .next t ∧ t.eip = 0xFFF0#32 ∧ t.flags = Flags.reset ∧ t.cpl = 0 ∧
      t.cr0 = { pe := false, mp := false, em := false, ts := false, et := s.env.platform.coproc == .i80387, pg := false } ∧
      t.segs = SegRegs.reset s.env.platform.csSelector.selector ∧ t.idtr = { base := 0, limit := 0x3FF#16 } ∧
      (t.reg .edx).extractLsb' 0 16 = 3#8 ++ s.env.platform.stepping ∧
      (s.env.platform.selfTest = .passed → t.reg .eax = 0) ∧
      (∀ v, s.env.platform.selfTest = .failed v → t.reg .eax ≠ 0 ∧ (v ≠ 0 → t.reg .eax = v)) ∧
      t.dr7.extractLsb' 0 10 = 0 ∧ t.halted = false ∧ t.inShutdown = false ∧ t.nmiInService = false ∧
      t.intShadow = false ∧ t.pendingDbg = 0 ∧ t.lateDbg = 0 ∧ t.delivering = .none ∧ t.mem = (takeInput s).mem

/-- The state of reset meets the invariant (10 R57; the registers the manual leaves undefined hold the model's values,
log 1, on which nothing here rests). -/
def Obligations.ResetInv : Prop := Inv State.reset

/-- Every step keeps the invariant: memory stays canonical, paging needs protected mode (10 R43, 40 R137), real-address mode
has CPL 0 (10 R31), VM stays 0 (00 R6), and no instruction or delivery is left half done (the record of an instruction's
prefixes is the model's, log 9). -/
def Obligations.StepKeepsInv : Prop := ∀ s t : State, Inv s → step s = .next t → Inv t

/-- Decoding what the encoder wrote gives the instruction back with its length, whatever bytes follow, and of no fewer
bytes does the decoder make anything (30 R105-R118). -/
def Obligations.DecodeEncode : Prop :=
  ∀ (os as : Size) (i : Instr), i.WellFormed os as = true →
    (∀ rest : List Byte, decode os as (encode os as i ++ rest) = .ok i (encode os as i).length) ∧
    ∀ k, k < (encode os as i).length → decode os as ((encode os as i).take k) = .more

/-- Words written out from the encoding tables (48 R236, R237, R249, R259, R263, R272; 47 R231; 40 R125): each decodes to its
instruction. -/
def Obligations.DecodeWords : Prop :=
  decode .w16 .w16 [0x8B, 0x47, 0x02] = .ok (.movRRm .eax (.mem (.a16 .bx (.d8 2)))) 3 ∧
  decode .w32 .w32 [0xBC, 0x28, 0, 0, 0] = .ok (.movRImm .esp 0x28#32) 5 ∧
  decode .w16 .w16 [0x33, 0xFF] = .ok (.xorRRm .edi (.reg .edi)) 2 ∧
  decode .w32 .w16 [0xC1, 0xE0, 0x10] = .ok (.shlRmImm8 (.reg .eax) 0x10#8) 3 ∧
  decode .w16 .w16 [0x0F, 0xBA, 0x2E, 0x00, 0x20, 0x00] = .ok (.btsRmImm8 (.mem (.abs16 0x2000#16)) 0#8) 6 ∧
  decode .w16 .w16 [0x87, 0x06, 0x00, 0x20] = .ok (.xchgRmR (.mem (.abs16 0x2000#16)) .eax) 4 ∧
  decode .w32 .w32 [0x75, 0xFD] = .ok (.jccRel8 .nz 0xFD#8) 2 ∧
  decode .w16 .w16 [0x0F, 0x01, 0x10] = .ok (.lgdt (.mem (.a16 .bxSi .none))) 3

/-! ### The step -/

/-- The step runs the decoded instruction. Where nothing comes first at the boundary it is the run of the instruction at
CS:EIP (60 R283); that run is `exec` of what the bytes decode to, past the hazards of the prefetch queue (20 R103, 70 R344;
how they are told is the model's, log 16), and a prefix is recorded and the fetch goes on (30 R106, R115; the record is the
model's, log 9). After a change of PE that changed the default sizes, whether the old or the new ones decode the JMP that
follows is free (log 16). With paging off and code in plain memory: where the bytes at CS:EIP are those of an instruction, the
step is `exec` of it, its length recorded. -/
def Obligations.StepRunsDecoded : Prop :=
  (∀ s : State, QuietBoundary s → (s.flags.if_ = true → s.env.intr = none) →
    (s.prefetch.resized = false → step s = runInstr exec 16 true (sample false (takeInput s))) ∧
    (s.prefetch.resized = true → ∃ (old : Bool) (e : Env), Drawn (takeInput s).env e ∧
      step s = runInstr exec 16 true { sample false (takeInput s) with env := e, insn := { s.insn with stale := old } })) ∧
  (∀ (s : State) (fuel : Nat) (ident : Bool) (i : Instr) (n : Nat) (same : Bool) (w : Work),
    fetchInstr 16 [] ident s.work = .ok (i, n, same) w →
      (isPfx i = false → hazardStop w.s (isJmp i) same = none →
        runInstr exec (fuel + 1) ident s = exec i (beginInstr w.s n)) ∧
      (∀ p, prefixForm w.s.insn i = some p →
        runInstr exec (fuel + 1) ident s =
          runInstr exec fuel same { w.s with insn := { p with len := w.s.insn.len + 1 } })) ∧
  ∀ (s : State) (i : Instr) (bytes : List Byte), QuietBoundary s → (s.flags.if_ = true → s.env.intr = none) →
    s.cr0.pg = false → s.prefetch = Prefetch.empty → s.insn = Insn.empty → isPfx i = false →
    decode s.os s.as bytes = .ok i bytes.length → (∀ k, k < bytes.length → decode s.os s.as (bytes.take k) = .more) →
    bytes.length ≤ 15 → s.eip.toNat + bytes.length ≤ 2 ^ 32 →
    (∀ j, j < bytes.length →
      limitOk s.segs.cs (s.eip + BitVec.ofNat 32 j) 1 = true ∧
      s.kindAt (s.segs.cs.base + (s.eip + BitVec.ofNat 32 j)) = .ram ∧
      some (s.byteAt (s.segs.cs.base + (s.eip + BitVec.ofNat 32 j))) = bytes[j]?) →
    step s = exec i (beginInstr (sample false (takeInput s)) bytes.length)

/-- A prefix byte records itself and its length, and changes nothing else (30 R106; the record is the model's, log 9). -/
def Obligations.PrefixesRecorded : Prop :=
  ∀ (i : Instr) (s : State) (p : Insn), prefixForm s.insn i = some p →
    exec i s = .next { s with insn := { p with len := s.insn.len + 1 } }

/-- LOCK before an instruction or form that does not allow it raises #UD with nothing changed (47 R230); that this comes
before every other check is the model's reading (log 40). The same before an opcode that this specification leaves outside
(30 R120), as soon as its bytes are known: no hazard of PE or PG is pending. -/
def Obligations.LockRaisesUd : Prop :=
  (∀ (i : Instr) (s : State), s.insn.lock = true → lockable i = false → isPfx i = false →
    exec i s = raiseExc 6 s.faulting .ud) ∧
  (∀ (w : Work) (bytes : List Byte) (fuel : Nat) (ident : Bool) (name : String),
    decode w.s.os w.s.as bytes = .outside name → w.s.insn.lock = true → w.s.prefetch.pe = false →
    w.s.prefetch.pg = false → fetchInstr (fuel + 1) bytes ident w = .error (.exc .ud) w) ∧
  ∀ (s : State) (fuel : Nat) (ident : Bool) (w : Work), fetchInstr 16 [] ident s.work = .error (.exc .ud) w →
    runInstr exec (fuel + 1) ident s = raiseExc 6 (rollback s w) .ud

/-! ### Operands and memory -/

/-- A register operand can always be read, checked and written, and a write changes that register alone (48 R232): of the
state only the general registers, and of those no other. A 32-bit write replaces the register, a 16-bit write keeps its
upper half, and an 8-bit write keeps the other 24 bits, so that ESP, EBP, ESI and EDI keep all of theirs (10 R16). -/
def Obligations.RegisterOperands : Prop :=
  (∀ (p : Place) (w : Work), p.isMem = false →
    p.probe w = .ok () w ∧ p.read w = .ok (p.value w.s) w ∧
      ∀ v, p.write v w = .ok () { w with s := p.set w.s v }) ∧
  (∀ (s : State) (r : Reg) (v : BitVec 32) (z : Size),
    s.setRegv z r v = { s with gpr := (s.setRegv z r v).gpr } ∧
    (∀ q : Reg, q ≠ r → (s.setRegv z r v).reg q = s.reg q) ∧
    (s.setRegv .w32 r v).reg r = v ∧
    lo16 ((s.setRegv .w16 r v).reg r) = lo16 v ∧ hi16 ((s.setRegv .w16 r v).reg r) = hi16 (s.reg r)) ∧
  ∀ (s : State) (q : Reg8) (b : Byte),
    s.setReg8 q b = { s with gpr := (s.setReg8 q b).gpr } ∧ (s.setReg8 q b).reg8 q = b ∧
    (∀ q' : Reg8, q' ≠ q → (s.setReg8 q b).reg8 q' = s.reg8 q') ∧
    (∀ r : Reg, hi16 ((s.setReg8 q b).reg r) = hi16 (s.reg r)) ∧
    (∀ r : Reg, r ≠ q.home.1 → (s.setReg8 q b).reg r = s.reg r) ∧
    (s.setReg8 q b).reg .esp = s.reg .esp ∧ (s.setReg8 q b).reg .ebp = s.reg .ebp ∧
    (s.setReg8 q b).reg .esi = s.reg .esi ∧ (s.setReg8 q b).reg .edi = s.reg .edi

/-- The effective limit of a descriptor (20 R72). -/
def Obligations.EffectiveLimit : Prop :=
  ∀ d : Desc,
    (d.g = false → d.effLimit = d.limit20.setWidth 32 ∧ d.effLimit.toNat ≤ 0xFFFFF) ∧
    (d.g = true → d.effLimit = (d.limit20.setWidth 32 <<< 12) ||| 0xFFF#32 ∧ 0xFFF ≤ d.effLimit.toNat) ∧
    ({ d with hi := d.hi ^^^ 0x800000#32 } : Desc).base = d.base

/-- The segment checks of an access (20 R79, R80): through an unusable register an exception in either mode (10 R30), else
in protected mode the type check, and the limit check for both kinds of segments, each with its exception. -/
def Obligations.LimitCheck : Prop :=
  ∀ (s : State) (r : SegReg) (off : BitVec 32) (n : Nat) (write : Bool), 1 ≤ n →
    let raises := segCheck r off n write s.work = .error (.exc (if r = .ss then .ss 0 else .gp 0)) s.work
    ((s.seg r).valid = false → raises) ∧
    ((s.seg r).valid = true → s.cr0.pe = true → typeOk (s.seg r) write = false →
      segCheck r off n write s.work = .error (.exc (.gp 0)) s.work) ∧
    ((s.seg r).valid = true → (s.cr0.pe = true → typeOk (s.seg r) write = true) →
      let limit := (s.seg r).limit.toNat
      let upper := if (s.seg r).db then 0xFFFFFFFF else 0xFFFF
      let inside := if (s.seg r).expandDown then limit < off.toNat ∧ off.toNat + (n - 1) ≤ upper
        else off.toNat + (n - 1) ≤ limit
      (inside → segCheck r off n write s.work = .ok ((s.seg r).base + off) s.work) ∧ (¬ inside → raises))

/-- A read of plain memory through a segment gives the bytes there, the low one first, and changes nothing
(20 R62, R66, R93). -/
def Obligations.FlatRead : Prop :=
  ∀ (w : Work) (r : SegReg) (off : BitVec 32) (n : Nat), 1 ≤ n → n ≤ 4 → FlatAccess w.s r off n false →
    memRead r off n w = .ok (w.s.valueAt ((w.s.seg r).base + off) n) w

/-- A write of plain memory through a segment stores the value's bytes, the low one first, and changes no other byte
(20 R62, R66, R93); the record of stored bytes is the model's (log 16). -/
def Obligations.FlatWrite : Prop :=
  ∀ (w : Work) (r : SegReg) (off : BitVec 32) (n : Nat) (v : BitVec 32), 1 ≤ n → n ≤ 4 → Memory.wf w.s.mem = true →
    FlatAccess w.s r off n true →
    ∃ m l, memWrite r off n v w =
        .ok () { w with s := { w.s with mem := m, prefetch := { w.s.prefetch with stored := l } } } ∧
      (∀ i, i < n → Memory.read m ((w.s.seg r).base + off + BitVec.ofNat 32 i).toNat = byteOf v i) ∧
      (∀ a : BitVec 32, a ∉ span ((w.s.seg r).base + off) n → Memory.read m a.toNat = w.s.byteAt a)

/-- The page walk in plain memory (20 R87, R89; 60 R312): a present, permitted page gives its frame, an absent or
forbidden one a page fault with its error code. The access then sets the accessed bit of both entries and, when it writes,
the dirty bit of the page-table entry, and changes nothing else in memory (20 R88). An access with paging on: where no
entry of the TLB serves it, its bytes lie in the frames of the walk of its page, or of its two pages, and a fault of either
walk is the access's, raised before anything is updated (R92); a write through an entry with D = 0 walks (R94). Where one
entry serves it and is used (whether it is, is free: log 11), the bytes lie in that entry's frame and its protection bits
decide (R90, R94); where it is not, having been dropped (R94), the access is that of a walk: said of an entry whose dirty bit
is not that of the tables. A read gives those bytes, a write stores them and no others (R93). -/
def Obligations.PageWalk : Prop :=
  (∀ (w : Work) (la : BitVec 32) (write user : Bool), (∀ a, w.s.kindAt a = .ram) →
    let pde := w.s.valueAt (w.s.pdbr ++ (la.extractLsb' 22 10 ++ 0#2)) 4
    let pte := w.s.valueAt (pde.extractLsb' 12 20 ++ (la.extractLsb' 12 10 ++ 0#2)) 4
    let access := (if user then 4#3 else 0#3) ||| (if write then 2#3 else 0#3)
    let allowed := user = true → (bit pde 2 && bit pte 2) = true ∧ (write = true → (bit pde 1 && bit pte 1) = true)
    (bit pde 0 = false ∨ bit pte 0 = false → pageWalk la write user w = .error (.exc (.pf la access)) w) ∧
    (bit pde 0 = true → bit pte 0 = true → ¬ allowed →
      pageWalk la write user w = .error (.exc (.pf la (access ||| 1#3))) w) ∧
    (bit pde 0 = true → bit pte 0 = true → allowed →
      ∃ x v, pageWalk la write user w = .ok x w ∧ x.pa = pte.extractLsb' 12 20 ++ la.extractLsb' 0 12 ∧
        commitXlat x w = .ok () v ∧ (Memory.wf w.s.mem = true → ∀ a, v.s.byteAt a = w.s.byteAt a |||
          (if a = w.s.pdbr ++ (la.extractLsb' 22 10 ++ 0#2) then 0x20#8 else 0) |||
          (if a = pde.extractLsb' 12 20 ++ (la.extractLsb' 12 10 ++ 0#2) then (if write then 0x60#8 else 0x20#8) else 0)))) ∧
  ∀ (w : Work) (la : BitVec 32) (n : Nat) (write user : Bool), w.s.cr0.pg = true → (∀ a, w.s.kindAt a = .ram) →
    Memory.wf w.s.mem = true → 1 ≤ n → n ≤ 4 →
    let access := linAccess la n write user w
    let left := 4096 - la.toNat % 4096
    let serves (e : TlbEntry) (a : BitVec 32) : Prop :=
      e ∈ w.s.tlb ∧ e.v = true ∧ e.page = pageOf a ∧ (write = true → e.d = true)
    ((∀ e, ¬ serves e la) →
      (∀ e v, pageWalk la write user w = .error e v → access = .error e w) ∧
      ∀ x, pageWalk la write user w = .ok x w →
        (n ≤ left → ∀ u, commitXlat x w = .ok () u → access = .ok (span x.pa n) u) ∧
        (left < n → (∀ e, ¬ serves e (la + BitVec.ofNat 32 left)) →
          (∀ e v, pageWalk (la + BitVec.ofNat 32 left) write user w = .error e v → access = .error e w) ∧
          ∀ y, pageWalk (la + BitVec.ofNat 32 left) write user w = .ok y w →
            ∀ u v, commitXlat x w = .ok () u → commitXlat y u = .ok () v →
              access = .ok (span x.pa left ++ span y.pa (n - left)) v)) ∧
    (∀ e b rest, serves e la → (∀ o ∈ w.s.tlb, o.v = true → o.page = pageOf la → o = e) → n ≤ left →
      w.s.env.draws = b :: rest → bit b 0 = true →
      ∃ env, Drawn w.s.env env ∧
        let u : Work := { w with s := { w.s with env := env } }
        let allowed := user = true → e.u = true ∧ (write = true → e.w = true)
        (¬ allowed → access = .error (.exc (.pf la
          ((if user then 4#3 else 0#3) ||| (if write then 2#3 else 0#3) ||| 1#3))) u) ∧
        (allowed → access = .ok (span (e.frame ++ la.extractLsb' 0 12) n) u)) ∧
    (∀ e b rest, serves e la → (w.s.tlb.filter fun o => o.v && o.page == pageOf la) = [e] → n ≤ left →
      w.s.env.draws = b :: rest → bit b 0 = false →
      (let pde := w.s.valueAt (w.s.pdbr ++ (la.extractLsb' 22 10 ++ 0#2)) 4
      e.d ≠ bit (w.s.valueAt (pde.extractLsb' 12 20 ++ (la.extractLsb' 12 10 ++ 0#2)) 4) 6) →
      ∃ env, Drawn w.s.env env ∧
        let u : Work := { w with s := { w.s with env := env } }
        (∀ x v, pageWalk la write user u = .error x v → access = .error x v) ∧
        ∀ x, pageWalk la write user u = .ok x u → ∀ v, commitXlat x u = .ok () v → access = .ok (span x.pa n) v) ∧
    (∀ e v, access = .error e v →
      (write = false → linRead la n user w = .error e v) ∧ (write = true → ∀ x, linWrite la n x user w = .error e v)) ∧
    ∀ pas u, access = .ok pas u →
      (write = false → linRead la n user w = .ok (ofBytes (pas.map u.s.byteAt)) u) ∧
      (write = true → ∀ x, ∃ v, linWrite la n x user w = .ok () v ∧ pas.map v.s.byteAt = toBytes n x ∧
        ∀ a, a ∉ pas → v.s.byteAt a = u.s.byteAt a)

/-! ### Arithmetic -/

/-- Addition with carry as arithmetic: the result modulo 2^W, the carries out of bits W-1 and 3, signed overflow, and the
parity of the low byte (48 R233). -/
def Obligations.AddArithmetic : Prop :=
  ∀ (w : Width) (a b : BitVec w.bits) (c : Bool),
    let r := addWith a b c
    r.1.toNat = (a.toNat + b.toNat + c.toNat) % 2 ^ w.bits ∧
    (r.2.cf = true ↔ 2 ^ w.bits ≤ a.toNat + b.toNat + c.toNat) ∧
    (r.2.af = true ↔ 16 ≤ a.toNat % 16 + b.toNat % 16 + c.toNat) ∧
    (r.2.of = true ↔ r.1.toInt ≠ a.toInt + b.toInt + (c.toNat : Int)) ∧
    (r.2.zf = true ↔ r.1 = 0) ∧ r.2.sf = r.1.msb ∧
    (r.2.pf = true ↔ ((List.range 8).filter r.1.getLsbD).length % 2 = 0)

/-- Subtraction with borrow as arithmetic (48 R233). -/
def Obligations.SubArithmetic : Prop :=
  ∀ (w : Width) (a b : BitVec w.bits) (c : Bool),
    let r := subWith a b c
    (r.1.toNat : Int) = (a.toNat - b.toNat - c.toNat : Int) % 2 ^ w.bits ∧
    (r.2.cf = true ↔ a.toNat < b.toNat + c.toNat) ∧
    (r.2.af = true ↔ a.toNat % 16 < b.toNat % 16 + c.toNat) ∧
    (r.2.of = true ↔ r.1.toInt ≠ a.toInt - b.toInt - (c.toNat : Int)) ∧
    (r.2.zf = true ↔ r.1 = 0) ∧ r.2.sf = r.1.msb ∧
    (r.2.pf = true ↔ ((List.range 8).filter r.1.getLsbD).length % 2 = 0)

/-- Shifts as arithmetic (48 R258-R261): the results, CF while the count is within the width, OF of a shift by one. CF of SAR
beyond the width is the sign (log 27). -/
def Obligations.ShiftArithmetic : Prop :=
  ∀ (w : Width) (a : BitVec w.bits) (c : Nat) (u : Status), 1 ≤ c → c ≤ 31 →
    let l := ShiftOp.shl.apply a c u
    let r := ShiftOp.shr.apply a c u
    let q := ShiftOp.sar.apply a c u
    l.1.toNat = a.toNat * 2 ^ c % 2 ^ w.bits ∧ r.1.toNat = a.toNat / 2 ^ c ∧ q.1.toInt = a.toInt / 2 ^ c ∧
    (c ≤ w.bits → l.2.cf = a.getLsbD (w.bits - c) ∧ r.2.cf = a.getLsbD (c - 1) ∧ q.2.cf = a.getLsbD (c - 1)) ∧
    (w.bits < c → q.2.cf = a.msb) ∧
    (c = 1 → l.2.of = (l.1.msb ^^ l.2.cf) ∧ r.2.of = a.msb ∧ q.2.of = false)

/-- ADD, OR, ADC, SBB, AND, SUB, XOR, CMP and TEST with register or immediate operands: exec answers exactly this state
(48 R242-R251). AF of a logical operation is a free value. -/
def Obligations.AluRegister : Prop :=
  ∀ (s : State) (i : Instr) (op : AluOp) (dst : Place) (src : Src), aluForm s i = some (op, dst, src) →
    dst.isMem = false → src.isMem = false → Ready s →
    ∃ af e, Drawn s.env e ∧ (op.isLogic = false → e = s.env) ∧
      let r := dst.width.binary (fun x y => op.apply x y s.flags.cf af) (dst.value s) (src.value s)
      exec i s = .next (s.completed { (if op.writes then dst.set s r.1 else s) with
        flags := s.flags.withStatus r.2, env := e })

/-- The two-operand instructions and TEST in every form: where the destination passes its write checks and the operands
can be read and written, exec answers a next state with the result in the destination and the flags set; registers other
than a register destination, and bytes other than those stored, are as before (48 R232, R242-R251). -/
def Obligations.AluCompletes : Prop :=
  ∀ (s : State) (i : Instr) (op : AluOp) (dst : Place) (src : Src), aluForm s i = some (op, dst, src) →
    ReadyFor (op.writes && dst.isMem) s →
    ∀ w1 a w2 b w3 af w4, (if op.writes then dst.probe else pure ()) s.work = .ok () w1 → dst.read w1 = .ok a w2 →
      src.read w2 = .ok b w3 → (if op.isLogic then drawBit else pure false) w3 = .ok af w4 →
    let r := dst.width.binary (fun x y => op.apply x y s.flags.cf af) a b
    ∀ w5, (if op.writes then dst.write r.1 else pure ()) w4 = .ok () w5 →
    ∃ t, exec i s = .next t ∧ Ends s { w5.s with flags := s.flags.withStatus r.2 } t ∧
      t.gpr = (if op.writes then dst.set s r.1 else s).gpr ∧ KeepsSystem s t ∧
      (Memory.wf s.mem = true → FrameExcept s t (if op.writes then dst.stores w4 else []))

/-- INC, DEC, NOT and NEG in every form; INC and DEC keep CF, NOT keeps every flag (48 R252-R255). -/
def Obligations.UnaryCompletes : Prop :=
  ∀ (s : State) (i : Instr) (op : UnOp) (dst : Place), unaryForm s i = some (op, dst) → ReadyFor dst.isMem s →
    ∀ w1 a w2, dst.probe s.work = .ok () w1 → dst.read w1 = .ok a w2 →
    let r := op.apply dst.width s.flags a
    ∀ w3, dst.write r.1 w2 = .ok () w3 →
    ∃ t, exec i s = .next t ∧ Ends s { w3.s with flags := r.2 } t ∧ t.gpr = (dst.set s r.1).gpr ∧ KeepsSystem s t ∧
      (Memory.wf s.mem = true → FrameExcept s t (dst.stores w2))

/-- DIV and IDIV with a quotient that fits: quotient and remainder by the division law, all six status flags free
(48 R256, R257). -/
def Obligations.DivideCompletes : Prop :=
  ∀ (s : State) (i : Instr) (signed : Bool) (src : Place), divForm s i = some (signed, src) → Ready s →
    ∀ d w1, src.read s.work = .ok d w1 →
    let n : Int := if signed then (dividend s src.width true).toInt else (dividend s src.width false).toNat
    let v : Int := if signed then src.width.toInt d else d.toNat
    ∀ q r : Int, v ≠ 0 → n = q * v + r → |r| < |v| → (r = 0 ∨ (0 < r ↔ 0 < n)) →
      (signed = true → -2 ^ (src.width.bits - 1) ≤ q ∧ q < 2 ^ (src.width.bits - 1)) →
      (signed = false → q < 2 ^ src.width.bits) →
    ∃ t u e, exec i s = .next t ∧ Drawn w1.s.env e ∧
      Ends s { storeDiv src.width (BitVec.ofInt 32 q) (BitVec.ofInt 32 r) { w1.s with env := e } with
        flags := s.flags.withStatus u } t ∧
      t.gpr = (storeDiv src.width (BitVec.ofInt 32 q) (BitVec.ofInt 32 r) s).gpr ∧
      KeepsSystem s t ∧ (Memory.wf s.mem = true → FrameExcept s t [])

/-- DIV and IDIV raise the divide error for a divisor 0 and for a quotient that does not fit, in the state from which the
instruction began: only what the read of the operand left in page tables, TLB and devices has changed (48 R256, R257;
60 R278). -/
def Obligations.DivideError : Prop :=
  ∀ (s : State) (i : Instr) (signed : Bool) (src : Place), divForm s i = some (signed, src) → Ready s →
    ∀ d w1, src.read s.work = .ok d w1 →
    let n : Int := if signed then (dividend s src.width true).toInt else (dividend s src.width false).toNat
    let v : Int := if signed then src.width.toInt d else d.toNat
    let lo : Int := if signed then -2 ^ (src.width.bits - 1) else 0
    let hi : Int := if signed then 2 ^ (src.width.bits - 1) else 2 ^ src.width.bits
    v = 0 ∨ n.tdiv v < lo ∨ hi ≤ n.tdiv v →
    exec i s = raiseExc 6 (rollback s w1) .de ∧ (src.isMem = false → rollback s w1 = s.faulting) ∧
      KeepsSystem s (rollback s w1) ∧ (rollback s w1).gpr = s.gpr ∧ (rollback s w1).eip = s.eip ∧
      (rollback s w1).flags = s.flags

/-- SHL, SHR and SAR in every form: a count of 0 changes nothing, any other writes the shifted operand and the flags
(48 R258-R261). What is undefined is a free value. -/
def Obligations.ShiftCompletes : Prop :=
  ∀ (s : State) (i : Instr) (op : ShiftOp) (dst : Place) (count : Byte), shiftForm s i = some (op, dst, count) →
    Ready s → ∀ w1 a w2, dst.probe s.work = .ok () w1 → dst.read w1 = .ok a w2 →
    let c := count.toNat % 32
    (c = 0 → ∃ t, exec i s = .next t ∧ Ends s w2.s t ∧ t.gpr = s.gpr ∧
      t.flags = { s.flags with rf := false } ∧ KeepsSystem s t ∧ (Memory.wf s.mem = true → FrameExcept s t [])) ∧
    (c ≠ 0 → ∀ u w3, drawStatus w2 = .ok u w3 →
      let r := dst.width.unary (fun x => op.apply x c u) a
      ∀ w4, dst.write r.1 w3 = .ok () w4 →
      ∃ t, exec i s = .next t ∧ Ends s { w4.s with flags := s.flags.withStatus r.2 } t ∧
        t.gpr = (dst.set s r.1).gpr ∧ KeepsSystem s t ∧ (Memory.wf s.mem = true → FrameExcept s t (dst.stores w3)))

/-- BTS, BTR and BTC in every form: CF takes the selected bit, that bit alone of the item changes (48 R262-R265). -/
def Obligations.BitTestCompletes : Prop :=
  ∀ (s : State) (i : Instr) (op : BitOp) (dst : Place) (offset : BitVec 32), bitForm s i = some (op, dst, offset) →
    ReadyFor dst.isMem s → ∀ w1 v w2, dst.probe s.work = .ok () w1 → dst.read w1 = .ok v w2 →
    let k := offset.toNat % dst.width.bits
    ∀ w3, dst.write (op.apply v k) w2 = .ok () w3 →
    ∃ (t : State) (u : Status) (e : Env), exec i s = .next t ∧ Drawn w3.s.env e ∧
      Ends s { w3.s with flags := s.flags.withStatus { u with cf := bit v k }, env := e } t ∧
      t.gpr = (dst.set s (op.apply v k)).gpr ∧ KeepsSystem s t ∧
      (Memory.wf s.mem = true → FrameExcept s t (dst.stores w2)) ∧
      ∀ j, j < dst.width.bits → bit (op.apply v k) j =
        if j = k then (match op with
          | .bts => true
          | .btr => false
          | .btc => !bit v k)
        else bit v j

/-! ### Data movement and the stack -/

/-- MOV in every form of 48 R236-R239: the destination takes the source, no flag changes. -/
def Obligations.MovCompletes : Prop :=
  ∀ (s : State) (i : Instr) (dst : Place) (src : Src), movForm s i = some (dst, src) → Ready s →
    ∀ v w1 w2, src.read s.work = .ok v w1 → dst.write v w1 = .ok () w2 →
    ∃ t, exec i s = .next t ∧ Ends s w2.s t ∧ t.gpr = (dst.set s v).gpr ∧ t.flags = { s.flags with rf := false } ∧
      KeepsSystem s t ∧ (Memory.wf s.mem = true → FrameExcept s t (dst.stores w1))

/-- XCHG in every form: the operands change places, no flag changes (47 R231). -/
def Obligations.XchgCompletes : Prop :=
  ∀ (s : State) (i : Instr) (dst reg : Place), xchgForm s i = some (dst, reg) → ReadyFor dst.isMem s →
    ∀ w1 a w2 w3, dst.probe s.work = .ok () w1 → dst.read w1 = .ok a w2 → dst.write (reg.value s) w2 = .ok () w3 →
    ∃ t, exec i s = .next t ∧ Ends s (reg.set w3.s a) t ∧ t.gpr = (reg.set (dst.set s (reg.value s)) a).gpr ∧
      t.flags = { s.flags with rf := false } ∧ KeepsSystem s t ∧
      (Memory.wf s.mem = true → FrameExcept s t (dst.stores w2))

/-- PUSH of a general register and PUSHF: the value of before the instruction is stored below the stack pointer
(48 R240, 45 R212); PUSH of a segment register stores its selector, with OS = 32 below a free upper word (42 R158). -/
def Obligations.PushCompletes : Prop :=
  (∀ (s : State) (i : Instr) (v : BitVec 32),
    (∃ r, i = .pushR r ∧ v = s.regv s.os r) ∨ (i = .pushf ∧ v = ({ s.flags with rf := false, vm := false } : Flags).toBits) →
    Ready s → ∀ w, push v s.os.bytes s.work = .ok () w →
    ∃ t, exec i s = .next t ∧ Ends s w.s t ∧ t.gpr = (s.setSp (s.pushAddr s.os.bytes)).gpr ∧
      t.flags = { s.flags with rf := false } ∧ KeepsSystem s t ∧ (Memory.wf s.mem = true → FrameExcept s t (storedAt s.work .ss (s.pushAddr s.os.bytes) s.os.bytes))) ∧
  (∀ (s : State) (i : Instr) (r : SegReg), pushSegForm i = some r → Ready s →
    ∀ u w1 w, (if s.os = .w32 then draw16 else pure 0#16) s.work = .ok u w1 →
      push (u ++ (s.seg r).selector) s.os.bytes w1 = .ok () w →
    ∃ t, exec i s = .next t ∧ Ends s w.s t ∧ t.gpr = (s.setSp (s.pushAddr s.os.bytes)).gpr ∧
      t.flags = { s.flags with rf := false } ∧ KeepsSystem s t ∧ (Memory.wf s.mem = true → FrameExcept s t (storedAt w1 .ss (s.pushAddr s.os.bytes) s.os.bytes)))

/-- POP of a general register: the stack pointer moves up first, so that POP eSP keeps the popped value (48 R241). POPF: IOPL
changes only at CPL 0, IF only with CPL at or below IOPL, RF only from a 32-bit image and it is not cleared afterwards, VM
never (45 R213). -/
def Obligations.PopCompletes : Prop :=
  (∀ (s : State) (r : Reg), Ready s → ∀ v w, stackRead 0 s.os.bytes s.work = .ok v w →
    ∃ t, exec (.popR r) s = .next t ∧
      Ends s ((w.s.setSp (s.stackSize.add s.sp (BitVec.ofNat 32 s.os.bytes))).setRegv s.os r v) t ∧
      t.gpr = ((s.setSp (s.stackSize.add s.sp (BitVec.ofNat 32 s.os.bytes))).setRegv s.os r v).gpr ∧
      t.flags = { s.flags with rf := false } ∧ KeepsSystem s t ∧ (Memory.wf s.mem = true → FrameExcept s t [])) ∧
  ∀ s : State, Ready s → ∀ v w, stackRead 0 s.os.bytes s.work = .ok v w →
    ∃ t, exec .popf s = .next t ∧
      t.flags = { Flags.ofBits v with
        iopl := if s.cr0.pe = false ∨ s.cpl = 0 then v.extractLsb' 12 2 else s.flags.iopl
        if_ := if s.cr0.pe = false ∨ s.cpl.toNat ≤ s.flags.iopl.toNat then bit v 9 else s.flags.if_
        rf := if s.os = .w32 then bit v 16 else s.flags.rf
        vm := s.flags.vm } ∧
      Ends s (w.s.setSp (s.stackSize.add s.sp (BitVec.ofNat 32 s.os.bytes)))
        { t with flags := { s.flags with rf := false } } ∧
      t.gpr = (s.setSp (s.stackSize.add s.sp (BitVec.ofNat 32 s.os.bytes))).gpr ∧ KeepsSystem s t ∧
      (Memory.wf s.mem = true → FrameExcept s t [])

/-! ### Flags and short instructions -/

/-- NOP: its encoding, and that it only goes on; XCHG eAX, eAX is the same (48 R235). -/
def Obligations.NopDoesNothing : Prop :=
  (∀ os as : Size, decode os as [0x90] = .ok .nop 1 ∧ encode os as .nop = [0x90]) ∧
  ∀ s : State, Ready s → exec .nop s = .next (s.completed s) ∧ exec (.xchgEaxR .eax) s = exec .nop s

/-- CLD and STD: their encodings, DF alone changes at any privilege level, and DF chooses the direction of the string
instructions (48 R266, R267). -/
def Obligations.DirectionFlag : Prop :=
  (∀ os as : Size, decode os as [0xFC] = .ok .cld 1 ∧ decode os as [0xFD] = .ok .std 1) ∧
  (∀ s : State, Ready s →
    exec .cld s = .next (s.completed { s with flags := { s.flags with df := false } }) ∧
    exec .std s = .next (s.completed { s with flags := { s.flags with df := true } })) ∧
  ∀ (s : State) (r : Reg) (n : Nat),
    (s.stepIndex r n).index r =
      s.as.add (s.index r) (if s.flags.df then -(BitVec.ofNat 32 n) else BitVec.ofNat 32 n)

/-- CLI and STI in real-address mode or with CPL at or below IOPL: IF alone of the flags changes (45 R210, R211); after an
STI that sets IF the next boundary may hold INTR back (92 D22, log 19). Otherwise #GP(0) with nothing changed (45 R202). -/
def Obligations.CliSti : Prop :=
  ∀ s : State, Ready s →
    (s.cr0.pe = false ∨ s.cpl.toNat ≤ s.flags.iopl.toNat →
      exec .cli s = .next (s.completed { s with flags := { s.flags with if_ := false } }) ∧
      exec .sti s = .next (s.completed { s with flags := { s.flags with if_ := true }, stiShadow := !s.flags.if_ })) ∧
    (s.cr0.pe = true → s.flags.iopl.toNat < s.cpl.toNat →
      exec .cli s = raiseExc 6 s.faulting (.gp 0) ∧ exec .sti s = raiseExc 6 s.faulting (.gp 0))

/-! ### Strings, ports -/

/-- The string instructions: without REP one element; with REP and a count of 0 nothing; else one element and the count
less one, EIP staying at the instruction while elements are to come (45 R209; 48 R268, R269). That RF is kept between
elements is the model's reading (log 40). -/
def Obligations.StringCompletes : Prop :=
  ∀ (s : State) (i : Instr) (element : M Unit), stringElement s i = some element →
    s.insn.lock = false → s.insn.repne = false → s.eip.toNat + s.insn.len < 2 ^ 32 →
    (s.insn.rep = true → s.index .ecx = 0 → exec i s = .next (s.completed s)) ∧
    ∀ w, element s.work = .ok () w →
      (s.insn.rep = false → ∃ t, exec i s = .next t ∧ Ends s w.s t ∧ KeepsSystem s t) ∧
      (s.insn.rep = true → s.index .ecx = 1 →
        ∃ t, exec i s = .next t ∧ Ends s (w.s.setRegv s.as .ecx 0) t ∧ KeepsSystem s t) ∧
      (s.insn.rep = true → s.index .ecx ≠ 0 → s.index .ecx ≠ 1 →
        ∃ t, exec i s = .next t ∧ t.eip = s.eip ∧ t.gpr = (w.s.setRegv s.as .ecx (s.index .ecx - 1)).gpr ∧
          t.mem = w.s.mem ∧ t.flags = s.flags ∧ KeepsSystem s t)

/-- The element of MOVS in plain memory: bytes of the source go to ES:eDI, both indexes step, nothing else changes
(48 R268). -/
def Obligations.MovsElement : Prop :=
  ∀ (s : State) (n : Nat), n = 1 ∨ n = 2 ∨ n = 4 → Memory.wf s.mem = true →
    FlatAccess s (s.dataSeg .ds) (s.index .esi) n false → FlatAccess s .es (s.index .edi) n true →
    let src := (s.seg (s.dataSeg .ds)).base + s.index .esi
    let dst := s.segs.es.base + s.index .edi
    ∃ w, movsElement n s.work = .ok () w ∧ w.s.gpr = ((s.stepIndex .esi n).stepIndex .edi n).gpr ∧
      w.s.flags = s.flags ∧ w.s.segs = s.segs ∧ w.s.env = s.env ∧
      (∀ j, j < n → w.s.byteAt (dst + BitVec.ofNat 32 j) = s.byteAt (src + BitVec.ofNat 32 j)) ∧
      (∀ a, a ∉ span dst n → w.s.byteAt a = s.byteAt a)

/-- The elements of INS and OUTS in plain memory, I/O permitted, an aligned port: one port access, the memory side and
the index (45 R207, R208); the record of port accesses is the model's (log 14). -/
def Obligations.PortStringElements : Prop :=
  ∀ (s : State) (n : Nat), n = 1 ∨ n = 2 ∨ n = 4 → Memory.wf s.mem = true →
    s.cr0.pe = false ∨ s.cpl.toNat ≤ s.flags.iopl.toNat →
    (lo16 (s.reg .edx)).toNat % n = 0 →
    (FlatAccess s .es (s.index .edi) n true →
      ∃ v w, insElement n s.work = .ok () w ∧ w.s.gpr = (s.stepIndex .edi n).gpr ∧ w.s.flags = s.flags ∧
        w.s.env.bus = s.env.bus ++ [.ioRead (lo16 (s.reg .edx)) n (lowBytes n v)] ∧
        (∀ j, j < n → w.s.byteAt (s.segs.es.base + s.index .edi + BitVec.ofNat 32 j) = byteOf v j) ∧
        (∀ a, a ∉ span (s.segs.es.base + s.index .edi) n → w.s.byteAt a = s.byteAt a)) ∧
    (FlatAccess s (s.dataSeg .ds) (s.index .esi) n false →
      ∃ w, outsElement n s.work = .ok () w ∧ w.s.gpr = (s.stepIndex .esi n).gpr ∧ w.s.flags = s.flags ∧
        w.s.mem = s.mem ∧
        w.s.env.bus = s.env.bus ++ [.ioWrite (lo16 (s.reg .edx)) n
          (s.valueAt ((s.seg (s.dataSeg .ds)).base + s.index .esi) n)])

/-- IN and OUT where I/O is permitted: the port's value goes to AL, AX or EAX alone, or the accumulator to the port; an
aligned port takes one access (45 R200, R205, R206). What a device answers is a free value and the record of
port accesses is the model's (log 6, log 14). -/
def Obligations.PortIo : Prop :=
  (∀ (s : State) (i : Instr) (port : BitVec 16) (dst : Place), inForm s i = some (port, dst) → Ready s →
    ∀ w1 v w2, ioPermission port dst.width.bytes s.work = .ok () w1 → ioRead port dst.width.bytes w1 = .ok v w2 →
    ∃ t, exec i s = .next t ∧ Ends s (dst.set w2.s v) t ∧ t.gpr = (dst.set s v).gpr ∧
      t.flags = { s.flags with rf := false } ∧ KeepsSystem s t ∧
      (Memory.wf s.mem = true → FrameExcept s t [])) ∧
  (∀ (s : State) (i : Instr) (port : BitVec 16) (src : Place), outForm s i = some (port, src) → Ready s →
    ∀ w1 w2, ioPermission port src.width.bytes s.work = .ok () w1 →
      ioWrite port src.width.bytes (src.value s) w1 = .ok () w2 →
    ∃ t, exec i s = .next t ∧ Ends s w2.s t ∧ t.gpr = s.gpr ∧ t.flags = { s.flags with rf := false } ∧ KeepsSystem s t ∧
      (Memory.wf s.mem = true → FrameExcept s t [])) ∧
  (∀ (w : Work) (port : BitVec 16) (n : Nat) (v : BitVec 32), n = 1 ∨ n = 2 ∨ n = 4 → port.toNat % n = 0 →
    (∃ x e, ioRead port n w = .ok (lowBytes n x) { w with s := { w.s with env := e } } ∧
      e.bus = w.s.env.bus ++ [.ioRead port n (lowBytes n x)]) ∧
    ioWrite port n v w = .ok () { w with s := { w.s with env := { w.s.env with
      bus := w.s.env.bus ++ [.ioWrite port n (lowBytes n v)] } } })

/-- The I/O permission check (45 R202-R204), TSS in plain memory: none in real-address mode or with CPL at or below IOPL;
else every port of the access needs a 0 bit inside the map, or #GP(0). -/
def Obligations.IoPermissionMap : Prop :=
  ∀ (s : State) (port : BitVec 16) (n : Nat), AllRam s → s.tr.valid = true →
    let mapbase := (s.valueAt (s.tr.base + 0x66#32) 2).toNat
    let permits (p : Nat) : Prop := mapbase + p / 8 ≤ s.tr.limit.toNat ∧
      bit (s.valueAt (s.tr.base + BitVec.ofNat 32 (mapbase + p / 8)) 1) (p % 8) = false
    let free := s.cr0.pe = false ∨ s.cpl.toNat ≤ s.flags.iopl.toNat
    (free ∨ (mapbase < s.tr.limit.toNat ∧ ∀ j, j < n → permits (port.toNat + j)) →
      ioPermission port n s.work = .ok () s.work) ∧
    (¬ free → ¬ (mapbase < s.tr.limit.toNat ∧ ∀ j, j < n → permits (port.toNat + j)) →
      ioPermission port n s.work = .error (.exc (.gp 0)) s.work)

/-! ### Near transfers -/

/-- JMP near: a target within the limit of CS is where execution goes, with the prefetch queue discarded; one beyond it
raises #GP(0) with nothing changed (48 R270, R271). -/
def Obligations.JumpNear : Prop :=
  (∀ (s : State) (i : Instr) (target : BitVec 32), jumpTarget s i = some target → Ready s →
    (target.toNat ≤ s.segs.cs.limit.toNat →
      exec i s = .next (s.completedAt { s with prefetch := Prefetch.empty } target)) ∧
    (s.segs.cs.limit.toNat < target.toNat → exec i s = raiseExc 6 s.faulting (.gp 0))) ∧
  (∀ (s : State) (m : Mem), Ready s → ∀ v w, (placev s s.os (.mem m)).read s.work = .ok v w →
    (v.toNat ≤ s.segs.cs.limit.toNat →
      ∃ t, exec (.jmpRm (.mem m)) s = .next t ∧ EndsAt s { w.s with prefetch := Prefetch.empty } v t ∧
        t.gpr = s.gpr ∧ t.flags = { s.flags with rf := false } ∧ KeepsSystem s t ∧
        (Memory.wf s.mem = true → FrameExcept s t [])) ∧
    (s.segs.cs.limit.toNat < v.toNat → exec (.jmpRm (.mem m)) s = raiseExc 6 (rollback s w) (.gp 0)))

/-- Jcc: the encodings of the condition field, the sixteen conditions, and that a branch whose condition holds goes to its
target while any other goes on (30 R119, 48 R272). One that ends at offset FFFFFFFFH is refused where it would go on (93 U39);
that it goes to its target otherwise is the model's reading (log 17). -/
def Obligations.ConditionalJump : Prop :=
  (∀ (os as : Size) (c : Cond) (b : Byte), decode os as [0x70#8 + c.num.setWidth 8, b] = .ok (.jccRel8 c b) 2) ∧
  (∀ (c : Cond) (b0 b1 : Byte), decode .w16 .w16 [0x0F#8, 0x80#8 + c.num.setWidth 8, b0, b1] =
    .ok (.jccRel c ((b1 ++ b0).setWidth 32)) 4) ∧
  (∀ f : Flags, Cond.o.holds f = f.of ∧ Cond.no.holds f = !f.of ∧ Cond.b.holds f = f.cf ∧ Cond.nb.holds f = !f.cf ∧
    Cond.z.holds f = f.zf ∧ Cond.nz.holds f = !f.zf ∧ Cond.be.holds f = (f.cf || f.zf) ∧
    Cond.nbe.holds f = (!f.cf && !f.zf) ∧ Cond.s.holds f = f.sf ∧ Cond.ns.holds f = !f.sf ∧ Cond.p.holds f = f.pf ∧
    Cond.np.holds f = !f.pf ∧ Cond.l.holds f = (f.sf != f.of) ∧ Cond.nl.holds f = (f.sf == f.of) ∧
    Cond.le.holds f = (f.zf || (f.sf != f.of)) ∧ Cond.nle.holds f = (!f.zf && (f.sf == f.of))) ∧
  (∀ (s : State) (c : Cond) (i : Instr) (rel : BitVec 32),
    (∃ b, i = .jccRel8 c b ∧ rel = b.signExtend 32) ∨ (∃ d, i = .jccRel c d ∧ rel = s.os.sext d) → Ready s →
    let target := s.os.trunc (s.nextEip + rel)
    (c.holds s.flags = false → exec i s = .next (s.completed s)) ∧
    (c.holds s.flags = true → target.toNat ≤ s.segs.cs.limit.toNat →
      exec i s = .next (s.completedAt { s with prefetch := Prefetch.empty } target)) ∧
    (c.holds s.flags = true → s.segs.cs.limit.toNat < target.toNat → exec i s = raiseExc 6 s.faulting (.gp 0))) ∧
  ∀ (s : State) (c : Cond) (i : Instr) (rel : BitVec 32),
    (∃ b, i = .jccRel8 c b ∧ rel = b.signExtend 32) ∨ (∃ d, i = .jccRel c d ∧ rel = s.os.sext d) → EndsPast s →
    let target := s.os.trunc (s.nextEip + rel)
    (c.holds s.flags = false → exec i s = .refused .eipWrap) ∧
    (c.holds s.flags = true → target.toNat ≤ s.segs.cs.limit.toNat →
      exec i s = .next (s.completedAt { s with prefetch := Prefetch.empty } target))

/-- Near CALL and RET: a target beyond the limit of CS raises #GP(0) before anything is pushed or popped; else the return
offset is pushed before the jump, and RET takes it back and releases the parameters (48 R270, R273, R274). A CALL that ends at
offset FFFFFFFFH raises what its push raises, and is refused where it would save the offset after it (93 U39; the model's
reading, log 17). -/
def Obligations.CallRet : Prop :=
  (∀ (s : State) (i : Instr) (target : BitVec 32), callTarget s i = some target → Ready s →
    (s.segs.cs.limit.toNat < target.toNat → exec i s = raiseExc 6 s.faulting (.gp 0)) ∧
    (target.toNat ≤ s.segs.cs.limit.toNat → ∀ w, push s.nextEip s.os.bytes s.work = .ok () w →
      ∃ t, exec i s = .next t ∧ EndsAt s { w.s with prefetch := Prefetch.empty } target t ∧
        t.gpr = (s.setSp (s.pushAddr s.os.bytes)).gpr ∧ t.flags = { s.flags with rf := false } ∧ KeepsSystem s t ∧
        (Memory.wf s.mem = true → FrameExcept s t (storedAt s.work .ss (s.pushAddr s.os.bytes) s.os.bytes)))) ∧
  (∀ (s : State) (i : Instr) (target : BitVec 32), callTarget s i = some target → EndsPast s →
    target.toNat ≤ s.segs.cs.limit.toNat →
    (∀ e w, push s.nextEip s.os.bytes s.work = .error (.exc e) w → exec i s = raiseExc 6 (rollback s w) e) ∧
    ∀ w, push s.nextEip s.os.bytes s.work = .ok () w → exec i s = .refused .eipWrap) ∧
  (∀ (s : State) (m : Mem), EndsPast s → ∀ v w1, (placev s s.os (.mem m)).read s.work = .ok v w1 →
    v.toNat ≤ s.segs.cs.limit.toNat →
    (∀ e w, push s.nextEip s.os.bytes w1 = .error (.exc e) w → exec (.callRm (.mem m)) s = raiseExc 6 (rollback s w) e) ∧
    ∀ w, push s.nextEip s.os.bytes w1 = .ok () w → exec (.callRm (.mem m)) s = .refused .eipWrap) ∧
  (∀ (s : State) (m : Mem), Ready s → ∀ v w1, (placev s s.os (.mem m)).read s.work = .ok v w1 →
    (s.segs.cs.limit.toNat < v.toNat → exec (.callRm (.mem m)) s = raiseExc 6 (rollback s w1) (.gp 0)) ∧
    (v.toNat ≤ s.segs.cs.limit.toNat → ∀ w, push s.nextEip s.os.bytes w1 = .ok () w →
      ∃ t, exec (.callRm (.mem m)) s = .next t ∧ EndsAt s { w.s with prefetch := Prefetch.empty } v t ∧
        t.gpr = (s.setSp (s.pushAddr s.os.bytes)).gpr ∧ t.flags = { s.flags with rf := false } ∧ KeepsSystem s t ∧
        (Memory.wf s.mem = true → FrameExcept s t (storedAt w1 .ss (s.pushAddr s.os.bytes) s.os.bytes)))) ∧
  (∀ (s : State) (i : Instr) (count : BitVec 16), (i = .ret ∧ count = 0) ∨ i = .retImm16 count → Ready s →
    ∀ v w, stackRead 0 s.os.bytes s.work = .ok v w →
    (v.toNat ≤ s.segs.cs.limit.toNat →
      ∃ t, exec i s = .next t ∧
        EndsAt s { w.s.setSp (s.stackSize.add s.sp (BitVec.ofNat 32 s.os.bytes + count.setWidth 32)) with
          prefetch := Prefetch.empty } v t ∧
        t.gpr = (s.setSp (s.stackSize.add s.sp (BitVec.ofNat 32 s.os.bytes + count.setWidth 32))).gpr ∧
        t.flags = { s.flags with rf := false } ∧ KeepsSystem s t ∧ (Memory.wf s.mem = true → FrameExcept s t [])) ∧
    (s.segs.cs.limit.toNat < v.toNat → exec i s = raiseExc 6 (rollback s w) (.gp 0)))

/-! ### Far transfers and segment registers -/

/-- Far JMP, CALL and RETF in real-address mode: CS takes the selector and 16 times it as base, EIP the offset; CALL
pushes CS and the return offset, RETF pops them and the parameters (43 R171, R177-R181). -/
def Obligations.FarRealMode : Prop :=
  ∀ s : State, Ready s → Memory.wf s.mem = true → s.cr0.pe = false → s.cr0.pg = false →
    let n := s.os.bytes
    let sp1 := s.pushAddr n
    let sp2 := (s.setSp sp1).pushAddr n
    let pushed (a : BitVec 32) : Prop := a ∈ span (s.segs.ss.base + sp1) n ∨ a ∈ span (s.segs.ss.base + sp2) n
    (∀ off sel, off.toNat ≤ s.segs.cs.limit.toNat →
      exec (.jmpPtr off sel) s = .next (s.completedAt
        { s.setSeg .cs (s.segs.cs.realLoaded sel) with prefetch := Prefetch.empty } off) ∧
      ∀ w, pushReturn n s.work = .ok () w →
        ∃ t, exec (.callPtr off sel) s = .next t ∧
          EndsAt s { w.s.setSeg .cs (s.segs.cs.realLoaded sel) with prefetch := Prefetch.empty } off t ∧
          t.gpr = ((s.setSp sp1).setSp sp2).gpr ∧ KeepsSystem s { t with segs := s.segs } ∧
          (∀ a, ¬ pushed a → t.byteAt a = s.byteAt a)) ∧
    (∀ m off sel w, readFarPtr m s.work = .ok (off, sel) w → off.toNat ≤ s.segs.cs.limit.toNat →
      (∃ t, exec (.jmpFarM (.mem m)) s = .next t ∧
        EndsAt s { w.s.setSeg .cs (s.segs.cs.realLoaded sel) with prefetch := Prefetch.empty } off t ∧
        t.gpr = s.gpr ∧ KeepsSystem s { t with segs := s.segs } ∧ (∀ a, t.byteAt a = s.byteAt a)) ∧
      ∀ v, pushReturn n w = .ok () v →
        ∃ t, exec (.callFarM (.mem m)) s = .next t ∧
          EndsAt s { v.s.setSeg .cs (s.segs.cs.realLoaded sel) with prefetch := Prefetch.empty } off t ∧
          t.gpr = ((s.setSp sp1).setSp sp2).gpr ∧ KeepsSystem s { t with segs := s.segs } ∧
          (∀ a, ¬ pushed a → t.byteAt a = s.byteAt a)) ∧
    (∀ i count ip cs w v, (i = .retf ∧ count = 0) ∨ i = .retfImm16 count → pop n s.work = .ok ip w →
      pop n w = .ok cs v → ip.toNat ≤ s.segs.cs.limit.toNat →
      ∃ t, exec i s = .next t ∧
        EndsAt s { (v.s.setSp (s.stackSize.add v.s.sp (count.setWidth 32))).setSeg .cs
          (s.segs.cs.realLoaded (lo16 cs)) with prefetch := Prefetch.empty } ip t ∧
        t.gpr = (s.setSp (s.stackSize.add s.sp (BitVec.ofNat 32 (2 * n) + count.setWidth 32))).gpr ∧
        KeepsSystem s { t with segs := s.segs } ∧ (∀ a, t.byteAt a = s.byteAt a))

/-- Far JMP and CALL in protected mode, the pointer in the instruction or in memory (43 R168-R170, R172-R180; 44 R187-R190):
the checks on a code segment, a call gate, a TSS and a task gate, each with its exception, and the completion of each. A CALL
pushes CS and the return offset; one to an inner level has the stack of that level from the TSS, with the old SS and ESP and
the parameters of the gate on it, and no other byte of memory changes but for the accessed bit of the stack segment. RETF
(R181-R183): to the same level it leaves the stack above the return pointer and the parameters, to an outer level it takes SS
and the stack pointer from the stack too; a frame beyond the limit of SS is #SS(0). What the checks of the popped CS and SS
are stands with IRET, those of an inner stack with the gates of the IDT, and those of a task switch with it; whatever they
raise the instruction raises. -/
def Obligations.FarJumpToCode : Prop :=
  (∀ (s : State) (i : Instr) (kind : TransferKind) (ptr : M (BitVec 32 × BitVec 16)), farForm i = some (kind, ptr) →
    Ready s → s.cr0.pe = true → ∀ off sel w0, ptr s.work = .ok (off, sel) w0 →
    let raises (w : Work) (e : Exc) : Prop := exec i s = raiseExc 6 (rollback s w) e
    let code := sel &&& 0xFFFC#16
    let enters (n : Nat) (w : Work) (tsel : BitVec 16) (t : Desc) (target : BitVec 32) : Prop :=
      (kind = .call → ∀ e u, pushReturn n w = .error (.exc e) u → raises u e) ∧
      ∀ u v, (if kind = .call then pushReturn n else pure ()) w = .ok () u → setAccessed tsel t u = .ok () v →
      ∃ y, exec i s = .next y ∧
        EndsAt s { v.s.setSeg .cs (t.toSeg (withRpl tsel s.cpl)) with prefetch := Prefetch.empty } target y ∧
        KeepsSystem s { y with segs := s.segs } ∧
        (kind = .jmp → y.gpr = s.gpr ∧ TablesOnly s y) ∧
        (kind = .call → y.gpr = ((s.setSp (s.pushAddr n)).setSp ((s.setSp (s.pushAddr n)).pushAddr n)).gpr ∧
          (AllRam s → Memory.wf s.mem = true → t.a = true → 2 * n ≤ s.sp.toNat →
            y.sp = s.sp - BitVec.ofNat 32 (2 * n) ∧ y.stackItem n 0 = lowBytes n s.nextEip ∧
            lo16 (y.stackItem n 1) = s.segs.cs.selector ∧
            ∀ a, a ∉ span (s.segs.ss.base + y.sp) (2 * n) → y.byteAt a = s.byteAt a))
    (isNull sel = true → raises w0 (.gp 0)) ∧
    (isNull sel = false → descAddr s sel = none → raises w0 (.gp code)) ∧
    ∀ d w, isNull sel = false → fetchDesc sel .gp w0 = .ok d w →
      let visible := s.cpl.toNat ≤ d.dpl.toNat ∧ (selRpl sel).toNat ≤ d.dpl.toNat
      let permitted := if d.ec then d.dpl.toNat ≤ s.cpl.toNat
        else d.dpl = s.cpl ∧ (selRpl sel).toNat ≤ s.cpl.toNat
      (d.isCode = true →
        (¬ permitted → raises w (.gp code)) ∧ (permitted → d.p = false → raises w (.np code)) ∧
        (permitted → d.p = true → d.effLimit.toNat < off.toNat → raises w (.gp 0)) ∧
        (permitted → d.p = true → off.toNat ≤ d.effLimit.toNat → enters s.os.bytes w sel d off)) ∧
      (d.s = false → d.typ = 0xC →
        (¬ visible → raises w (.gp code)) ∧ (visible → d.p = false → raises w (.np code)) ∧
        (visible → d.p = true → isNull d.gateSel = true → raises w (.gp 0)) ∧
        (visible → d.p = true → isNull d.gateSel = false → descAddr s d.gateSel = none →
          raises w (.gp (d.gateSel &&& 0xFFFC#16))) ∧
        (visible → d.p = true → isNull d.gateSel = false → ∀ t x, fetchDesc d.gateSel .gp w = .ok t x →
          let reach := t.isCode = true ∧
            if kind = .jmp ∧ t.ec = false then t.dpl = s.cpl else t.dpl.toNat ≤ s.cpl.toNat
          let inner := kind = .call ∧ t.ec = false ∧ t.dpl.toNat < s.cpl.toNat
          (¬ reach → raises x (.gp (d.gateSel &&& 0xFFFC#16))) ∧
          (reach → t.p = false → raises x (.np (d.gateSel &&& 0xFFFC#16))) ∧
          (reach → t.p = true → ¬ inner →
            (t.effLimit.toNat < d.gateOffset.toNat → raises x (.gp 0)) ∧
            (d.gateOffset.toNat ≤ t.effLimit.toNat → enters 4 x d.gateSel t d.gateOffset)) ∧
          (reach → t.p = true → inner →
            (∀ e v, innerStack t.dpl (4 + d.gateCount) x = .error (.exc e) v → raises v e) ∧
            ∀ q v, innerStack t.dpl (4 + d.gateCount) x = .ok q v → t.effLimit.toNat < d.gateOffset.toNat →
              raises v (.gp 0)) ∧
          (reach → t.p = true → inner → ∀ v, callInner d d.gateSel t x = .ok () v →
            ∃ y, exec i s = .next y ∧ EndsAt s v.s d.gateOffset y ∧ y.cpl = t.dpl ∧
              y.segs.cs = t.toSeg (withRpl d.gateSel t.dpl) ∧
              y.segs = { s.segs with cs := y.segs.cs, ss := y.segs.ss } ∧
              KeepsSystem s { y with segs := s.segs, cpl := s.cpl } ∧
              let n := d.gateCount
              (AllRam s → Memory.wf s.mem = true → t.a = true → s.sp.toNat + 4 * n ≤ 2 ^ s.stackSize.bits →
                4 * (4 + n) ≤ (y.stackSize.trunc (s.tssEsp t.dpl)).toNat →
                OnInnerStack s y t.dpl (4 + n) ∧ y.stackItem 4 0 = s.nextEip ∧
                lo16 (y.stackItem 4 1) = s.segs.cs.selector ∧
                (∀ k, k < n → y.stackItem 4 (2 + k) = s.stackItem 4 k) ∧
                y.stackItem 4 (2 + n) = s.reg .esp ∧ lo16 (y.stackItem 4 (3 + n)) = s.segs.ss.selector ∧
                ∀ a, a ∉ span (y.segs.ss.base + y.sp) (4 * (4 + n)) →
                  y.byteAt a ||| 1#8 = s.byteAt a ||| 1#8)))) ∧
      (d.s = false → d.typ = 9 ∨ d.typ = 0xB →
        (selTi sel = true ∨ ¬ visible → raises w (.gp code)) ∧
        (selTi sel = false → visible →
          ∀ e v, taskSwitch kind.switch sel d s.nextEip s.flags w = .error (.exc e) v → raises v e) ∧
        (selTi sel = false → visible → ∀ v, taskSwitch kind.switch sel d s.nextEip s.flags w = .ok () v →
          ∃ y, exec i s = .next y ∧ Switched s v.s y)) ∧
      (d.s = false → d.typ = 5 →
        (¬ visible → raises w (.gp code)) ∧ (visible → d.p = false → raises w (.np code)) ∧
        (visible → d.p = true →
          ∀ e v, switchThroughGate kind.switch d.gateSel s.nextEip s.flags w = .error (.exc e) v → raises v e) ∧
        (visible → d.p = true → ∀ v, switchThroughGate kind.switch d.gateSel s.nextEip s.flags w = .ok () v →
          ∃ y, exec i s = .next y ∧ Switched s v.s y)) ∧
      (d.s = false → d.typ = 1 ∨ d.typ = 3 ∨ d.typ = 4 → exec i s = .refused .format286) ∧
      (d.isCode = false → ¬ (d.s = false ∧ d.typ ∈ [1, 3, 4, 5, 9, 0xB, 0xC]) → raises w (.gp code))) ∧
  ∀ (s : State) (i : Instr) (count : BitVec 16), (i = .retf ∧ count = 0) ∨ i = .retfImm16 count → Ready s →
    s.cr0.pe = true →
    let n := s.os.bytes
    let rcs := lo16 (s.stackItem n 1)
    let roff := s.stackItem n 0
    let raises (w : Work) (e : Exc) : Prop := exec i s = raiseExc 6 (rollback s w) e
    (limitOk s.segs.ss s.sp (2 * n) = false → raises s.work (.ss 0)) ∧
    (FlatAccess s .ss s.sp (2 * n) false → ∀ e w, returnCs rcs s.work = .error (.exc e) w → raises w e) ∧
    (FlatAccess s .ss s.sp (2 * n) false → ∀ c w, returnCs rcs s.work = .ok c w →
      (selRpl rcs = s.cpl → c.effLimit.toNat < roff.toNat → raises w (.gp 0)) ∧
      (selRpl rcs = s.cpl → roff.toNat ≤ c.effLimit.toNat → ∀ v, setAccessed rcs c w = .ok () v →
        ∃ t, exec i s = .next t ∧ t.eip = roff ∧ t.segs = { s.segs with cs := c.toSeg rcs } ∧
          t.gpr = (s.setSp (s.stackSize.add s.sp (BitVec.ofNat 32 (2 * n) + count.setWidth 32))).gpr ∧
          t.flags = { s.flags with rf := false } ∧ KeepsSystem s { t with segs := s.segs } ∧ TablesOnly s t) ∧
      (selRpl rcs ≠ s.cpl → limitOk s.segs.ss s.sp (4 * n + count.toNat) = false → raises w (.ss 0)) ∧
      (selRpl rcs ≠ s.cpl → FlatAccess s .ss s.sp (4 * n + count.toNat) false →
        let at_ := s.segs.ss.base + s.sp + count.setWidth 32
        let resp := s.valueAt (at_ + BitVec.ofNat 32 (2 * n)) n
        let rss := lo16 (s.valueAt (at_ + BitVec.ofNat 32 (3 * n)) n)
        (∀ e x, returnSs rss (selRpl rcs) w = .error (.exc e) x → raises x e) ∧
        ∀ d x, returnSs rss (selRpl rcs) w = .ok d x →
          (c.effLimit.toNat < roff.toNat → raises x (.gp 0)) ∧
          (roff.toNat ≤ c.effLimit.toNat →
            ∀ v, returnOuter rcs rss c d roff resp (count.setWidth 32) x = .ok () v →
            ∃ t, exec i s = .next t ∧
              Outward s t (selRpl rcs) (c.toSeg rcs) (d.toSeg rss) (resp + count.setWidth 32) ∧ t.eip = roff ∧
              t.flags = { s.flags with rf := false } ∧ TablesOnly s t ∧
              KeepsSystem s { t with segs := s.segs, cpl := s.cpl })))

/-- MOV and POP to a segment register and the full-pointer loads: the value read goes through `loadSeg`; after a load of SS
by MOV or POP the next boundary is shadowed (42 R155, R156, R159-R165). That POP SS computes and writes the stack pointer at the
stack size of the SS before the load is the model's choice: 42 R159 does not say at which width (log 43). -/
def Obligations.SegmentLoads : Prop :=
  (∀ (s : State) (n : BitVec 3) (rm : RM Reg) (r : SegReg), SegReg.ofNum n = some r → r ≠ .cs → Ready s →
    ∀ v w1 w, read16 rm s.work = .ok v w1 → loadSeg r v w1 = .ok () w →
    ∃ t, exec (.movSregRm n rm) s = .next t ∧
      Ends s { w.s with intShadow := if r = .ss then true else s.intShadow } t ∧ t.gpr = s.gpr ∧
      t.flags = { s.flags with rf := false } ∧
      KeepsSystem s { t with segs := s.segs, intShadow := s.intShadow } ∧ TablesOnly s t) ∧
  (∀ (s : State) (i : Instr) (r : SegReg), popSegForm i = some r → Ready s →
    ∀ v w1 w, stackRead 0 s.os.bytes s.work = .ok v w1 → loadSeg r (lo16 v) w1 = .ok () w →
    let sp := s.stackSize.add s.sp (BitVec.ofNat 32 s.os.bytes)
    ∃ t, exec i s = .next t ∧
      Ends s { w.s.setRegv s.stackSize .esp sp with intShadow := if r = .ss then true else s.intShadow } t ∧
      t.gpr = (s.setSp sp).gpr ∧ t.flags = { s.flags with rf := false } ∧
      KeepsSystem s { t with segs := s.segs, intShadow := s.intShadow } ∧ TablesOnly s t) ∧
  (∀ (s : State) (i : Instr) (sr : SegReg) (r : Reg) (m : Mem), loadPtrForm i = some (sr, r, .mem m) → Ready s →
    ∀ off sel w1 w, readFarPtr m s.work = .ok (off, sel) w1 → loadSeg sr sel w1 = .ok () w →
    ∃ t, exec i s = .next t ∧ Ends s (w.s.setRegv s.os r off) t ∧ t.gpr = (s.setRegv s.os r off).gpr ∧
      t.flags = { s.flags with rf := false } ∧ KeepsSystem s { t with segs := s.segs } ∧ TablesOnly s t)

/-- What `loadSeg` does (42 R152-R154): in real-address mode any selector gives base 16 times it; a null selector makes a
data segment register unusable and is #GP(0) for SS; one outside its table is #GP with the selector; a good descriptor is
loaded, a bad one raises its exception. A load sets the accessed bit of the descriptor in memory where it is 0 (20 R77): with
paging off and memory plain that bit is the one change of memory. That a load
in real-address mode also makes the register valid and keeps the other attributes is the model's choice: 42 R154 does not name
the valid bit (log 3, PRESUMED). -/
def Obligations.LoadSegEffect : Prop :=
  (∀ (w : Work) (r : SegReg) (sel : BitVec 16), w.ext = false → r ≠ .cs →
    (w.s.cr0.pe = false → loadSeg r sel w = .ok () { w with s := w.s.setSeg r ((w.s.seg r).realLoaded sel) }) ∧
    (w.s.cr0.pe = true → isNull sel = true →
      (r = .ss → loadSeg r sel w = .error (.exc (.gp 0)) w) ∧
      (r ≠ .ss → loadSeg r sel w =
        .ok () { w with s := w.s.setSeg r { w.s.seg r with selector := sel, valid := false } })) ∧
    (w.s.cr0.pe = true → isNull sel = false → descAddr w.s sel = none →
      loadSeg r sel w = .error (.exc (.gp (sel &&& 0xFFFC#16))) w) ∧
    ∀ d v, w.s.cr0.pe = true → isNull sel = false → fetchDesc sel .gp w = .ok d v →
      let readable := d.s = true ∧ (d.exec = true → d.wr = true)
      let visible := d.isConforming = true ∨ (w.s.cpl.toNat ≤ d.dpl.toNat ∧ (selRpl sel).toNat ≤ d.dpl.toNat)
      let stack := selRpl sel = w.s.cpl ∧ d.isWritableData = true ∧ d.dpl = w.s.cpl
      (r ≠ .ss → ¬ (readable ∧ visible) → loadSeg r sel w = .error (.exc (.gp (sel &&& 0xFFFC#16))) v) ∧
      (r ≠ .ss → readable ∧ visible → d.p = false → loadSeg r sel w = .error (.exc (.np (sel &&& 0xFFFC#16))) v) ∧
      (r = .ss → ¬ stack → loadSeg r sel w = .error (.exc (.gp (sel &&& 0xFFFC#16))) v) ∧
      (r = .ss → stack → d.p = false → loadSeg r sel w = .error (.exc (.ss (sel &&& 0xFFFC#16))) v) ∧
      ((r = .ss → stack) → (r ≠ .ss → readable ∧ visible) → d.p = true → ∀ u, setAccessed sel d v = .ok () u →
        loadSeg r sel w = .ok () { u with s := u.s.setSeg r (d.toSeg sel) })) ∧
  ∀ (w : Work) (sel : BitVec 16) (d : Desc), AllRam w.s → Memory.wf w.s.mem = true →
    ∃ u, setAccessed sel d w = .ok () u ∧ Accesses w.s u.s ∧
      ∀ a, u.s.byteAt a = if d.a = false ∧ a = accessByte w.s sel then w.s.byteAt a ||| 1#8 else w.s.byteAt a

/-! ### System registers -/

/-- LGDT, LIDT, SGDT and SIDT (40 R125-R128): at CPL 0 the register takes limit and base from memory; the stores write
limit and base; with OS = 16 a base has 24 bits and the sixth stored byte is free. That LIDT makes the table one of the
mode in force (`idtStale`) is the model's (log 24). -/
def Obligations.TableRegisters : Prop :=
  (∀ (s : State) (m : Mem), Ready s → s.effCpl = 0 → ∀ t w, readTableReg m s.work = .ok t w →
    (∃ u, exec (.lgdt (.mem m)) s = .next u ∧ Ends s { w.s with gdtr := t } u ∧ u.gpr = s.gpr ∧
      KeepsSystem s { u with gdtr := s.gdtr } ∧ (Memory.wf s.mem = true → FrameExcept s u [])) ∧
    (∃ u, exec (.lidt (.mem m)) s = .next u ∧ Ends s { w.s with idtr := t, idtStale := false } u ∧ u.gpr = s.gpr ∧
      KeepsSystem s { u with idtr := s.idtr, idtStale := s.idtStale } ∧ (Memory.wf s.mem = true → FrameExcept s u []))) ∧
  (∀ (s : State) (m : Mem), FlatAccess s (s.dataSeg (defaultSeg m)) (effAddr s m) 6 false →
    let la := (s.seg (s.dataSeg (defaultSeg m))).base + effAddr s m
    readTableReg m s.work = .ok { limit := lo16 (s.valueAt la 2), base :=
      if s.os = .w16 then s.valueAt (la + 2) 4 &&& 0xFFFFFF#32 else s.valueAt (la + 2) 4 } s.work) ∧
  (∀ (s : State) (m : Mem), Ready s →
    (∀ w, writeTableReg m s.gdtr s.work = .ok () w →
      ∃ u, exec (.sgdt (.mem m)) s = .next u ∧ Ends s w.s u ∧ u.gpr = s.gpr ∧ KeepsSystem s u) ∧
    (∀ w, writeTableReg m s.idtr s.work = .ok () w →
      ∃ u, exec (.sidt (.mem m)) s = .next u ∧ Ends s w.s u ∧ u.gpr = s.gpr ∧ KeepsSystem s u)) ∧
  (∀ (s : State) (m : Mem) (t : TableReg), Memory.wf s.mem = true →
    FlatAccess s (s.dataSeg (defaultSeg m)) (effAddr s m) 6 true →
    let la := (s.seg (s.dataSeg (defaultSeg m))).base + effAddr s m
    ∃ w, writeTableReg m t s.work = .ok () w ∧ lo16 (w.s.valueAt la 2) = t.limit ∧
      w.s.valueAt (la + 2) 4 &&& 0xFFFFFF#32 = t.base &&& 0xFFFFFF#32 ∧
      (s.os = .w32 → w.s.valueAt (la + 2) 4 = t.base) ∧ w.s.gpr = s.gpr ∧
      (∀ a, a ∉ span la 6 → w.s.byteAt a = s.byteAt a))

/-- SLDT, STR, SMSW and MOV r/m, Sreg store a selector or the machine status word (40 R130, R132, R134; 42 R157); SMSW's
undefined bits are free. -/
def Obligations.SelectorStores : Prop :=
  (∀ (s : State) (rm : RM Reg) (u : BitVec 16) (w1 w : Work), Ready s → draw16 s.work = .ok u w1 →
    let stores (i : Instr) (from_ : Work) (after : Work) : Prop :=
      ∃ t, exec i s = .next t ∧ Ends s after.s t ∧ KeepsSystem s t ∧ t.flags = { s.flags with rf := false } ∧
        (∀ q, rm ≠ .reg q → t.reg q = s.reg q) ∧
        (Memory.wf s.mem = true → FrameExcept s t ((placev s .w16 rm).stores from_))
    (s.cr0.pe = true → write16 rm s.ldtr.selector s.work = .ok () w → stores (.sldt rm) s.work w) ∧
    (s.cr0.pe = true → s.tr.valid = true → write16 rm s.tr.selector s.work = .ok () w → stores (.str rm) s.work w) ∧
    (∀ n r, SegReg.ofNum n = some r → write16 rm (s.seg r).selector s.work = .ok () w →
      stores (.movRmSreg rm n) s.work w) ∧
    (write16 rm (lo16 s.cr0.toBits ||| (u &&& 0xFFE0#16)) w1 = .ok () w → stores (.smsw rm) w1 w)) ∧
  (∀ (s : State) (r : Reg) (v : BitVec 16),
    (s.os = .w16 → write16 (.reg r) v s.work = .ok () { s.work with s := s.setRegv .w16 r (v.setWidth 32) }) ∧
    (s.os = .w32 → ∃ (u : BitVec 16) (e : Env), Drawn s.env e ∧
      write16 (.reg r) v s.work = .ok () { s.work with s := ({ s with env := e } : State).setReg r ((u ++ v : BitVec 32)) })) ∧
  (∀ (s : State) (m : Mem) (v : BitVec 16),
    write16 (.mem m) v s.work = memWrite (s.dataSeg (defaultSeg m)) (effAddr s m) 2 (v.setWidth 32) s.work)

/-- LLDT and LTR at CPL 0 in protected mode (40 R129, R131): a null selector empties LDTR and is #GP(0) for LTR; a selector of
the LDT, one outside the GDT and a descriptor of another type raise #GP with the selector, an absent one #NP, and LTR of an
80286 TSS is refused (93 U26, log 29); a good descriptor is loaded, for LTR with its busy bit set. With paging off and memory
plain that bit is the one change of memory. -/
def Obligations.LoadLdtrTr : Prop :=
  ∀ (s : State) (rm : RM Reg), Ready s → s.cr0.pe = true → s.cpl = 0 → ∀ sel w, read16 rm s.work = .ok sel w →
    let raises (i : Instr) (u : Work) (e : Exc) : Prop := exec i s = raiseExc 6 (rollback s u) e
    let code := sel &&& 0xFFFC#16
    (isNull sel = true →
      (∃ t, exec (.lldt rm) s = .next t ∧ t.gpr = s.gpr ∧
        Ends s { w.s with ldtr := { s.ldtr with selector := sel, valid := false } } t ∧
        KeepsSystem s { t with ldtr := s.ldtr } ∧ TablesOnly s t) ∧
      raises (.ltr rm) w (.gp 0)) ∧
    (isNull sel = false → selTi sel = true ∨ s.gdtr.limit.toNat < (selOffset sel).toNat + 7 →
      raises (.lldt rm) w (.gp code) ∧ raises (.ltr rm) w (.gp code)) ∧
    ∀ d v, isNull sel = false → selTi sel = false → fetchDesc sel .gp w = .ok d v →
      (¬ (d.s = false ∧ d.typ = 2) → raises (.lldt rm) v (.gp code)) ∧
      (d.s = false → d.typ = 2 → d.p = false → raises (.lldt rm) v (.np code)) ∧
      (d.s = false → d.typ = 2 → d.p = true → ∃ t, exec (.lldt rm) s = .next t ∧
        Ends s { v.s with ldtr := { selector := sel, base := d.base, limit := d.effLimit, valid := true } } t ∧
        t.gpr = s.gpr ∧ KeepsSystem s { t with ldtr := s.ldtr } ∧ TablesOnly s t) ∧
      (d.s = false → d.typ = 1 → exec (.ltr rm) s = .refused .format286) ∧
      (¬ (d.s = false ∧ (d.typ = 1 ∨ d.typ = 9)) → raises (.ltr rm) v (.gp code)) ∧
      (d.s = false → d.typ = 9 → d.p = false → raises (.ltr rm) v (.np code)) ∧
      (d.s = false → d.typ = 9 → d.p = true → ∀ u, setAccessBits sel 2 v = .ok () u → ∃ t, exec (.ltr rm) s = .next t ∧
        Ends s { u.s with tr := { selector := sel, base := d.base, limit := d.effLimit, valid := true } } t ∧
        t.gpr = s.gpr ∧ KeepsSystem s { t with tr := s.tr } ∧
        (Memory.wf s.mem = true → ∀ a, t.byteAt a ||| 0x62#8 = s.byteAt a ||| 0x62#8) ∧
        (Memory.wf s.mem = true → AllRam s → ∀ a,
          t.byteAt a = if a = accessByte s sel then s.byteAt a ||| 2#8 else s.byteAt a))

/-- LMSW, CLTS and MOV to CR0, CR2 and CR3 at CPL 0 (40 R133, R135, R137): LMSW sets PE but never clears it, MOV CR0 sets
every defined bit and CPL is 0 once PE changes, PG without PE is #GP(0), a load of CR3 leaves no valid TLB entry (20 R96). The
status flags are free after a MOV (40 R136). The model's are what `writeCr0` and the load of CR3 record besides: the hazards of
the prefetch queue and earlier page mappings (log 16), the interrupt table of the other mode (log 24), and the segment
registers after PE is cleared (log 30). -/
def Obligations.ControlRegisterWrites : Prop :=
  ∀ s : State, Ready s → s.effCpl = 0 →
    exec .clts s = .next (s.completed { s with cr0 := { s.cr0 with ts := false } }) ∧
    (∀ rm v w, read16 rm s.work = .ok v w → ∃ t, exec (.lmsw rm) s = .next t ∧
      Ends s (writeCr0 t.cr0 w.s) t ∧ t.flags = { s.flags with rf := false } ∧ t.segs = s.segs ∧
      (Memory.wf s.mem = true → FrameExcept s t []) ∧
      t.cr0 = { s.cr0 with
        pe := s.cr0.pe || v.getLsbD 0, mp := v.getLsbD 1, em := v.getLsbD 2, ts := v.getLsbD 3 } ∧ t.gpr = s.gpr ∧
      t.cpl = (if s.cr0.pe then s.cpl else if v.getLsbD 0 then 0 else s.cpl)) ∧
    ∀ r : Reg,
      (bit (s.reg r) 31 = true → bit (s.reg r) 0 = false → exec (.movCrR 0 r) s = raiseExc 6 s.faulting (.gp 0)) ∧
      ((bit (s.reg r) 31 = true → bit (s.reg r) 0 = true) →
        ∃ t u e, Drawn s.env e ∧ exec (.movCrR 0 r) s = .next t ∧
          t.cr0 = { pe := bit (s.reg r) 0, mp := bit (s.reg r) 1, em := bit (s.reg r) 2, ts := bit (s.reg r) 3,
                    et := bit (s.reg r) 4, pg := bit (s.reg r) 31 } ∧
          t.cpl = (if s.cr0.pe = bit (s.reg r) 0 then s.cpl else 0) ∧
          (s.cr0.pe = false ∨ bit (s.reg r) 0 = true → t.segs = s.segs) ∧ t.gpr = s.gpr ∧ t.tlb = s.tlb ∧ t.mem = s.mem ∧
          t = s.completed { writeCr0 (Cr0.ofBits (s.reg r)) s with flags := s.flags.withStatus u, env := e }) ∧
      (∃ u e, Drawn s.env e ∧ exec (.movCrR 2 r) s = .next (s.completed
        { s with cr2 := s.reg r, flags := s.flags.withStatus u, env := e })) ∧
      (∃ u e l, Drawn s.env e ∧ (∀ x ∈ l, TlbEntry.v x = false) ∧ exec (.movCrR 3 r) s = .next (s.completed
        { s with
          pdbr := (s.reg r).extractLsb' 12 20, tlb := l, flags := s.flags.withStatus u, env := e
          prefetch := { s.prefetch with
            maps := if s.cr0.pg then s.pageMap :: s.prefetch.maps else s.prefetch.maps } }))

/-- MOV from CR0, CR2, CR3, the debug and the test registers at CPL 0 completes (40 R136, R138, R140): the defined bits are
read, reserved bits and the status flags are free. A MOV from or to any other number is refused: CR1 and CR4 to CR7, DR4 and
DR5, TR0 to TR5 do not exist (93 U27). While ICE-386 uses the debug registers any MOV from or to one is #DB (61 R323). -/
def Obligations.SystemRegisterReads : Prop :=
  ∀ (s : State) (r : Reg), Ready s → s.effCpl = 0 →
    let reads (i : Instr) (mask value : BitVec 32) : Prop :=
      ∃ v u e, Drawn s.env e ∧ v &&& mask = value &&& mask ∧ exec i s = .next (s.completed
        { s.setReg r v with flags := s.flags.withStatus u, env := e })
    (reads (.movRCr r 0) 0x8000001F#32 s.cr0.toBits ∧ reads (.movRCr r 2) 0xFFFFFFFF#32 s.cr2 ∧
      reads (.movRCr r 3) 0xFFFFF000#32 (s.pdbr ++ 0#12)) ∧
    (∀ n : BitVec 3, n ≠ 0 → n ≠ 2 → n ≠ 3 →
      exec (.movRCr r n) s = .refused .controlRegister ∧ exec (.movCrR n r) s = .refused .controlRegister) ∧
    (s.env.ice = false →
      (reads (.movRDr r 0) 0xFFFFFFFF#32 s.dr0 ∧ reads (.movRDr r 1) 0xFFFFFFFF#32 s.dr1 ∧
        reads (.movRDr r 2) 0xFFFFFFFF#32 s.dr2 ∧ reads (.movRDr r 3) 0xFFFFFFFF#32 s.dr3 ∧
        reads (.movRDr r 6) 0x0000E00F#32 s.dr6 ∧ reads (.movRDr r 7) 0xFFFF03FF#32 s.dr7) ∧
      ∀ n : BitVec 3, n = 4 ∨ n = 5 →
        exec (.movRDr r n) s = .refused .debugRegister ∧ exec (.movDrR n r) s = .refused .debugRegister) ∧
    (s.env.ice = true → ∀ n : BitVec 3, DetectsIce s (.movRDr r n) ∧ DetectsIce s (.movDrR n r)) ∧
    (reads (.movRTr r 6) 0xFFFFFFE1#32 s.tr6 ∧ reads (.movRTr r 7) 0xFFFFF01C#32 s.tr7) ∧
    (∀ n : BitVec 3, n ≠ 6 → n ≠ 7 →
      exec (.movRTr r n) s = .refused .testRegister ∧ exec (.movTrR n r) s = .refused .testRegister)

/-- MOV to the debug and test registers and HLT at CPL 0 (40 R139, R141-R143): the register takes its defined bits; while
ICE-386 uses the debug registers #DB (61 R323); HLT halts. A write of TR6 also performs its command. A TLB write with TR7.HT =
1 makes the entry of TR6 and TR7 the only one of its tag, provided no entry known to lie elsewhere has that tag; that an entry
of unknown place with the same tag counts as replaced is the model's choice, for which R142 gives no value (log 13). With HT =
0 it is refused. A lookup with V = 1 reports in TR7 the one entry that it matches, or no hit, where every matching entry was
written by the test registers (which others there are is open, log 13). A lookup with an undefined attribute pair is
refused, and a write leaves the attribute of such a pair free (R142's pseudocode; 93 U16 would refuse it: log 42). -/
def Obligations.DebugTestHalt : Prop :=
  ∀ s : State, Ready s → s.effCpl = 0 →
    exec .hlt s = .next (s.completed { s with halted := true }) ∧
    ∀ r : Reg,
      let v := s.reg r
      let writes (i : Instr) (u : State) : Prop := ∃ f e, Drawn s.env e ∧
        exec i s = .next (s.completed { u with flags := s.flags.withStatus f, env := e })
      (s.env.ice = false →
        writes (.movDrR 0 r) { s with dr0 := v } ∧ writes (.movDrR 1 r) { s with dr1 := v } ∧
        writes (.movDrR 2 r) { s with dr2 := v } ∧ writes (.movDrR 3 r) { s with dr3 := v } ∧
        writes (.movDrR 6 r) { s with dr6 := v &&& 0xE00F#32 } ∧
        writes (.movDrR 7 r) { s with dr7 := v &&& 0xFFFF03FF#32 }) ∧
      (s.env.ice = true → DetectsIce s (.movDrR 7 r) ∧ DetectsIce s (.movRDr r 7)) ∧
      writes (.movTrR 7 r) { s with tr7 := v &&& 0xFFFFF01C#32 } ∧
      let s6 : State := { s with tr6 := v &&& 0xFFFFFFE1#32 }
      (∀ w, (if bit v 0 then tlbLookup v else tlbWrite v) s6.work = .ok () w →
        ∃ f e t, Drawn w.s.env e ∧ exec (.movTrR 6 r) s = .next t ∧
          t = s.completed { w.s with flags := s.flags.withStatus f, env := e }) ∧
      (bit v 0 = false → bit s.tr7 4 = false → exec (.movTrR 6 r) s = .refused .tlbHit) ∧
      let proper := bit v 10 ≠ bit v 9 ∧ bit v 8 ≠ bit v 7 ∧ bit v 6 ≠ bit v 5
      let block := s.tr7.extractLsb' 2 2
      (bit v 0 = false → bit s.tr7 4 = true →
        (∀ o ∈ s.tlb, o.written = true → o.page = pageOf v → o.v = bit v 11 → o.block = block) →
        ∃ d u w t l g,
          let entry : TlbEntry := { page := pageOf v, frame := s.tr7.extractLsb' 12 20, v := bit v 11, d := d, u := u, w := w,
                                    block := block, written := true }
          (bit v 10 ≠ bit v 9 → d = bit v 10) ∧ (bit v 8 ≠ bit v 7 → u = bit v 8) ∧ (bit v 6 ≠ bit v 5 → w = bit v 6) ∧
          writes (.movTrR 6 r) { s6 with tlb := t, tlbWritten := l, prefetch := { s.prefetch with gone := g } } ∧ entry ∈ t ∧
          (∀ o ∈ t, o.page = entry.page → o.v = entry.v → o = entry) ∧ (entry.block, entry.page) ∈ l) ∧
      (¬ proper → bit v 0 = true → exec (.movTrR 6 r) s = .refused .tlbAttributes) ∧
      let matching := s.tlb.filter fun o =>
        o.page == pageOf v && o.v == bit v 11 && o.d == bit v 10 && o.u == bit v 8 && o.w == bit v 6
      (bit v 0 = true → bit v 11 = true → proper →
        (∀ o, matching = [o] → o.written = true →
          writes (.movTrR 6 r) { s6 with tr7 := (o.frame ++ 0#12) ||| 0x10#32 ||| (o.block.setWidth 32 <<< 2) }) ∧
        (matching = [] → ∃ x : BitVec 32, bit x 4 = false ∧ writes (.movTrR 6 r) { s6 with tr7 := x }))

/-- A privileged instruction at a CPL other than 0 raises #GP(0), an instruction of protected mode alone raises #UD in
real-address mode, and a form that no mode has raises #UD, all with nothing changed (40 R124; 30 R120).
That an undefined form comes before the privilege check is the model's reading (log 40). -/
def Obligations.ModeChecks : Prop :=
  (∀ (i : Instr) (s : State), isPrivileged i = true → Ready s → s.cr0.pe = true → s.cpl ≠ 0 →
    exec i s = raiseExc 6 s.faulting (.gp 0)) ∧
  (∀ (i : Instr) (s : State), isProtectedOnly i = true → Ready s → s.cr0.pe = false →
    exec i s = raiseExc 6 s.faulting .ud) ∧
  ∀ (i : Instr) (s : State), isUndefinedForm i = true → Ready s → exec i s = raiseExc 6 s.faulting .ud

/-- LAR, LSL, VERR, VERW and ARPL in protected mode (41 R146-R150): ZF tells whether the descriptor may be used, the
destination changes only when it may. -/
def Obligations.PointerValidation : Prop :=
  (∀ (s : State) (r : Reg) (rm : RM Reg) sel o w1 w, Ready s → s.cr0.pe = true → testedSel rm s.work = .ok sel w1 →
    testedDesc sel w1 = .ok o w →
    let seen (d : Desc) : Prop :=
      d.isConforming = true ∨ (s.cpl.toNat ≤ d.dpl.toNat ∧ (selRpl sel).toNat ≤ d.dpl.toNat)
    let lsl := ∃ d, o = some d ∧ (d.s = true ∨ lslType d.typ = true) ∧ seen d
    let lar := ∃ d, o = some d ∧ (d.s = true ∨ larType d.typ = true) ∧ seen d
    let answers (i : Instr) (u : State) (z : Bool) : Prop :=
      ∃ t, exec i s = .next t ∧ Ends s { u with flags := { s.flags with zf := z } } t ∧ KeepsSystem s t ∧ TablesOnly s t
    w.s.gpr = s.gpr ∧
    (¬ lsl → answers (.lsl r rm) w.s false) ∧
    (lsl → ∀ d, o = some d → answers (.lsl r rm) (w.s.setRegv s.os r d.effLimit) true) ∧
    (¬ lar → answers (.lar r rm) w.s false) ∧
    (lar → ∀ d, o = some d → ∃ u e, Drawn w.s.env e ∧
      answers (.lar r rm) ({ w.s with env := e }.setRegv s.os r ((d.hi &&& 0xF0FF00#32) ||| (u &&& 0xF0000#32))) true)) ∧
  (∀ (s : State) (rm : RM Reg) sel o w1 w, Ready s → s.cr0.pe = true → read16 rm s.work = .ok sel w1 →
    testedDesc sel w1 = .ok o w →
    let answers (i : Instr) (z : Bool) : Prop :=
      ∃ t, exec i s = .next t ∧ Ends s { w.s with flags := { s.flags with zf := z } } t ∧ t.gpr = s.gpr ∧
        KeepsSystem s t ∧ TablesOnly s t
    (∃ z, answers (.verr rm) z ∧
      (z = true ↔ ∃ d, o = some d ∧ d.s = true ∧ (d.exec = true → d.wr = true) ∧
        (d.isConforming = true ∨ (s.cpl.toNat ≤ d.dpl.toNat ∧ (selRpl sel).toNat ≤ d.dpl.toNat)))) ∧
    (∃ z, answers (.verw rm) z ∧
      (z = true ↔ ∃ d, o = some d ∧ d.isWritableData = true ∧
        s.cpl.toNat ≤ d.dpl.toNat ∧ (selRpl sel).toNat ≤ d.dpl.toNat))) ∧
  (∀ (s : State) (rm : RM Reg) (r : Reg) dst w, Ready s → s.cr0.pe = true → read16 rm s.work = .ok dst w →
    let rpl := selRpl (lo16 (s.reg r))
    let place := placev s .w16 rm
    (rpl.toNat ≤ (selRpl dst).toNat → ∃ t, exec (.arpl rm r) s = .next t ∧ t.gpr = s.gpr ∧
      Ends s { w.s with flags := { s.flags with zf := false } } t ∧ KeepsSystem s t ∧
      (Memory.wf s.mem = true → FrameExcept s t [])) ∧
    ((selRpl dst).toNat < rpl.toNat → ∀ v, place.write ((withRpl dst rpl).setWidth 32) w = .ok () v →
      ∃ t, exec (.arpl rm r) s = .next t ∧ Ends s { v.s with flags := { s.flags with zf := true } } t ∧
        t.gpr = (place.set s ((withRpl dst rpl).setWidth 32)).gpr ∧ KeepsSystem s t ∧
        (Memory.wf s.mem = true → FrameExcept s t (place.stores w))))

/-! ### Exceptions, interrupts, tasks, coprocessor -/

/-- INT n, INT 3 and INTO are deliveries of their vector with EXT = 0, the gate's DPL tested and the next instruction's
offset saved; INTO with OF = 0 only goes on (46 R215-R218). RF stays as loaded after a task switch. -/
def Obligations.SoftwareInterrupts : Prop :=
  ∀ (s : State) (i : Instr) (vec : Byte), Ready s →
    i = .intImm8 vec ∨ (i = .int3 ∧ vec = 3) ∨ (i = .into ∧ vec = 4 ∧ s.flags.of = true) →
    (∀ w, deliver vec false .none true s.nextEip ({ s with delivering := .benign } : State).work = .ok () w →
      ∃ t, exec i s = .next t ∧
        t = { s.completedAt w.s w.s.eip with
          flags := { w.s.flags with rf := if w.keepRf then w.s.flags.rf else false } }) ∧
    (s.flags.of = false → exec .into s = .next (s.completed s))

/-- A delivery in real-address mode, stack and table in plain memory (60 R297): flags, CS and the return offset are stored
below the stack pointer, IF and TF are cleared, and CS:IP come from the table entry. -/
def Obligations.RealModeDelivery : Prop :=
  ∀ (w : Work) (vec : Byte) (fault soft : Bool) (err : ErrCode) (ret : BitVec 32), AllRam w.s →
    w.s.cr0.pe = false → w.s.segs.ss.valid = true → w.s.idtStale = false → Memory.wf w.s.mem = true →
    4 * vec.toNat + 3 ≤ w.s.idtr.limit.toNat → w.s.segs.ss.db = false → w.s.segs.ss.expandDown = false →
    w.s.segs.ss.limit = 0xFFFF#32 → 6 ≤ w.s.sp.toNat →
    let entry := w.s.valueAt (w.s.idtr.base + (vec.setWidth 32 <<< 2)) 4
    let sp := w.s.sp - 6#32
    let top := w.s.segs.ss.base + sp
    ∃ v, deliver vec fault err soft ret w = .ok () v ∧ v.s.eip = entry &&& 0xFFFF#32 ∧
      v.s.segs.cs.selector = hi16 entry ∧ v.s.segs.cs.base = (hi16 entry).setWidth 32 <<< 4 ∧
      v.s.flags = { w.s.flags with if_ := false, tf := false } ∧ v.s.sp = sp ∧
      v.s.valueAt top 2 = ret &&& 0xFFFF#32 ∧
      v.s.valueAt (top + 2#32) 2 = w.s.segs.cs.selector.setWidth 32 ∧
      v.s.valueAt (top + 4#32) 2 = w.s.flags.toBits &&& 0xFFFF#32 ∧
      (∀ a, a ∉ span top 6 → v.s.byteAt a = w.s.byteAt a) ∧ v.s.delivering = .none ∧ v.s.cpl = w.s.cpl

/-- A delivery in protected mode. The checks of the IDT (60 R287, R288): a vector beyond its limit, an entry that is no gate and,
for a software interrupt, a gate whose DPL is below CPL raise #GP, an absent gate #NP, each with the code 8 times the vector,
plus 2, plus EXT; a gate of the 80286 is refused (log 29). Through a task gate the task switch comes first, and the error code
is pushed on the new task's stack (60 R294). Whatever the entry raises the delivery raises. Entry through an interrupt or trap
gate (60 R289-R293): a null selector in it is #GP(EXT); one outside its table, no code or a DPL above CPL #GP and an absent
segment #NP, with the selector and EXT; then, without a change of level, too little room on the stack #SS(EXT) and an offset
beyond the limit #GP(EXT). The stack of an inner level (43 R175, R176): a TSS that is too short #TS with TR; a null selector, one
outside its table, a wrong RPL, no writable data, a wrong DPL #TS, an absent segment and too little room #SS, with the selector
(how the extent wraps is the model's, log 40). An entry that goes through: the gate
names a present code segment of no lower privilege, within whose limit its offset lies. CPL becomes the DPL of a nonconforming
target that is more privileged, with the stack of that level from the TSS, and else stays. CS:EIP are the gate's; TF, NT and
RF are cleared, and IF by an interrupt gate only. With tables and stack in plain memory and the target already accessed, the
frame on the stack: the error code if any, the return offset, CS, the flags, and at an inner level the old ESP and SS; no other
byte of memory changes, but for the accessed bit of the new stack segment. -/
def Obligations.GateEntry : Prop :=
  (∀ (w : Work) (vec : Byte) (fault soft : Bool) (err : ErrCode) (ret : BitVec 32), w.s.cr0.pe = true →
    let q : Work := { w with quiet := true }
    let code := BitVec.ofNat 16 (8 * vec.toNat + 2 + w.ext.toNat)
    let stops (e : Stop) (u : Work) : Prop := deliver vec fault err soft ret w = .error e u
    let ends (u : Work) : Prop := deliver vec fault err soft ret w = .ok ()
      { u with s := { u.s with delivering := .none, prefetch := Prefetch.empty }, quiet := false, jumped := true }
    let inside := 8 * vec.toNat + 7 ≤ w.s.idtr.limit.toNat
    (¬ inside → stops (.exc (.gp code)) q) ∧
    (inside → w.s.idtStale = false → ∀ g u, readDescAt (w.s.idtr.base + (vec.setWidth 32 <<< 3)) q = .ok g u →
      let image := { w.s.flags with rf := w.s.flags.rf || fault }
      let gate := g.s = false ∧ g.typ ∈ [5, 0xE, 0xF]
      let open_ := gate ∧ (soft = true → w.s.cpl.toNat ≤ g.dpl.toNat)
      (g.s = false → g.typ = 6 ∨ g.typ = 7 → stops (.refuse .format286) u) ∧
      (¬ (g.s = false ∧ g.typ ∈ [5, 6, 7, 0xE, 0xF]) → stops (.exc (.gp code)) u) ∧
      (gate → ¬ open_ → stops (.exc (.gp code)) u) ∧ (open_ → g.p = false → stops (.exc (.np code)) u) ∧
      (open_ → g.p = true → g.typ ≠ 5 → (∀ e v, enterGate g image err ret u = .error e v → stops e v) ∧
        ∀ v, enterGate g image err ret u = .ok () v → ends v) ∧
      (open_ → g.p = true → g.typ = 5 →
        ∀ e v, switchThroughGate .call g.gateSel ret image u = .error e v → stops e v) ∧
      (open_ → g.p = true → g.typ = 5 → ∀ v x, switchThroughGate .call g.gateSel ret image u = .ok () v →
        pushErr err v = .ok () x → v.s.eip.toNat ≤ v.s.segs.cs.limit.toNat → ends x ∧
          (err = .none → x = v) ∧
          (AllRam v.s → Memory.wf v.s.mem = true → 4 ≤ v.s.sp.toNat →
            (∀ c, err = .word c → lo16 (x.s.stackItem 4 0) = c ∧ x.s.sp = v.s.sp - 4#32) ∧
            (∀ c, err = .page c → x.s.stackItem 4 0 &&& 7#32 = c.setWidth 32 ∧ x.s.sp = v.s.sp - 4#32))))) ∧
  (∀ (w : Work) (g : Desc) (image : Flags) (err : ErrCode) (ret : BitVec 32),
    let o := enterGate g image err ret w
    ChecksDescriptor o w g.gateSel .gp [(isNull g.gateSel = false, .gp w.extCode)]
      (fun t => [(t.isCode = true, .gp (w.code g.gateSel)), (t.dpl.toNat ≤ w.s.cpl.toNat, .gp (w.code g.gateSel)),
        (t.p = true, .np (w.code g.gateSel))])
      fun t u =>
        let inner := t.ec = false ∧ t.dpl.toNat < w.s.cpl.toNat
        (¬ inner → FirstFailure o u [(roomBelow w.s.segs.ss w.s.sp 4 (3 + err.count) = true, .ss w.extCode),
          (g.gateOffset.toNat ≤ t.effLimit.toNat, .gp w.extCode)] True) ∧
        (inner → (∀ e v, innerStack t.dpl (5 + err.count) u = .error e v → o = .error e v) ∧
          ∀ q v, innerStack t.dpl (5 + err.count) u = .ok q v → t.effLimit.toNat < g.gateOffset.toNat →
            o = .error (.exc (.gp w.extCode)) v)) ∧
  (∀ (w : Work) (pl : BitVec 2) (count : Nat), w.s.tr.valid = true →
    let o := innerStack pl count w
    (w.s.tr.limit.toNat < 8 * pl.toNat + 11 → o = .error (.exc (.ts (w.code w.s.tr.selector))) w) ∧
    (AllRam w.s → 8 * pl.toNat + 11 ≤ w.s.tr.limit.toNat → tssStack pl w = .ok (w.s.tssSs pl, w.s.tssEsp pl) w) ∧
    ∀ nss nesp v, tssStack pl w = .ok (nss, nesp) v →
      ChecksDescriptor o v nss .ts [(isNull nss = false, .ts (w.code nss))]
        (fun d => [(selRpl nss = pl, .ts (w.code nss)), (d.isWritableData = true, .ts (w.code nss)),
          (d.dpl = pl, .ts (w.code nss)), (d.p = true, .ss (w.code nss)),
          (roomBelow (d.toSeg nss) nesp 4 count = true, .ss (w.code nss))])
        fun d u => o = .ok (d, nss, nesp) u) ∧
  ∀ (w v : Work) (g : Desc) (image : Flags) (err : ErrCode) (ret : BitVec 32),
    enterGate g image err ret w = .ok () v →
    ∃ (t : Desc) (u : Work), isNull g.gateSel = false ∧ fetchDesc g.gateSel .gp w = .ok t u ∧ t.isCode = true ∧
      t.p = true ∧ t.dpl.toNat ≤ w.s.cpl.toNat ∧ g.gateOffset.toNat ≤ t.effLimit.toNat ∧
      let inner := t.ec = false ∧ t.dpl.toNat < w.s.cpl.toNat
      (inner → v.s.cpl = t.dpl) ∧ (¬ inner → v.s.cpl = w.s.cpl ∧ v.s.segs = { w.s.segs with cs := v.s.segs.cs }) ∧
      v.s.segs.cs = t.toSeg (withRpl g.gateSel v.s.cpl) ∧ v.s.eip = g.gateOffset ∧
      v.s.flags = { w.s.flags with tf := false, nt := false, rf := false, if_ := w.s.flags.if_ && !(g.typ == 0xE) } ∧
      v.jumped = true ∧
      v.s = { w.s with
        cpl := v.s.cpl, segs := { w.s.segs with cs := v.s.segs.cs, ss := v.s.segs.ss }, eip := v.s.eip, flags := v.s.flags,
        gpr := { w.s.gpr with esp := v.s.gpr.esp }, mem := v.s.mem, tlb := v.s.tlb, prefetch := v.s.prefetch,
        env := v.s.env } ∧
      (AllRam w.s → Memory.wf w.s.mem = true → t.a = true →
        let n := err.count
        let pushed := v.s.stackItem 4 n = ret ∧ lo16 (v.s.stackItem 4 (n + 1)) = w.s.segs.cs.selector ∧
          v.s.stackItem 4 (n + 2) = image.toBits ∧
          (match err with
            | .none => True
            | .word c => lo16 (v.s.stackItem 4 0) = c
            | .page c => v.s.stackItem 4 0 &&& 7#32 = c.setWidth 32)
        (¬ inner → 4 * (3 + n) ≤ w.s.sp.toNat → pushed ∧ v.s.sp = w.s.sp - BitVec.ofNat 32 (4 * (3 + n)) ∧
          ∀ a, a ∉ span (w.s.segs.ss.base + v.s.sp) (4 * (3 + n)) → v.s.byteAt a = w.s.byteAt a) ∧
        (inner → 4 * (5 + n) ≤ (v.s.stackSize.trunc (w.s.tssEsp t.dpl)).toNat → pushed ∧
          OnInnerStack w.s v.s t.dpl (5 + n) ∧ v.s.stackItem 4 (n + 3) = w.s.reg .esp ∧
          lo16 (v.s.stackItem 4 (n + 4)) = w.s.segs.ss.selector ∧
          ∀ a, a ∉ span (v.s.segs.ss.base + v.s.sp) (4 * (5 + n)) → v.s.byteAt a ||| 1#8 = w.s.byteAt a ||| 1#8))

/-- An exception raised while no other is being delivered is delivered under its own vector and error code, with the EIP of
its instruction; a page fault has first stored its linear address in CR2 (60 R312), a general detect fault has set DR6.BD
(61 R323) and the bits reported with it (R326). The double-fault rule and shutdown (60 R296): a second contributory exception, and a page fault after a page fault,
deliver vector 8 with error code 0; an exception during that delivery shuts the processor down, and a shut-down processor
changes nothing until RESET. Choices: the saved EIP of the double fault is the spec's own (60 R306), and that only RESET
leaves shutdown is its decision D25 (92; logs 25, 34). -/
def Obligations.DoubleFaultShutdown : Prop :=
  (∀ (s : State) (e : Exc) (n : Nat) (w : Work), s.delivering = .none →
    deliver e.vector true e.err false s.eip (Work.start { e.note s with delivering := e.cls } true) = .ok () w →
    raiseExc (n + 1) s e = .next (endStep w.s) ∧ (∀ la c, e = .pf la c → w.s.cr2 = la) ∧
      (∀ b, e = .db b → w.s.dr6 = s.dr6 ||| 0x2000#32 ||| b)) ∧
  (∀ (s : State) (e : Exc) (n : Nat) (w : Work),
    (s.delivering = .contributory ∧ e.cls = .contributory) ∨
      (s.delivering = .pageFault ∧ (e.cls = .contributory ∨ e.cls = .pageFault)) →
    deliver 8 false (.word 0) false s.eip (Work.start { e.note s with delivering := .double } true) = .ok () w →
    raiseExc (n + 1) s e = .next (endStep w.s)) ∧
  (∀ (s : State) (e : Exc) (n : Nat), s.delivering = .double → raiseExc (n + 1) s e = .next (shutDown (e.note s))) ∧
  ∀ s : State, s.inShutdown = true → (nextInput s).reset = false → step s = .next (takeInput s)

/-- What comes first at a boundary (60 R279-R284; 61 R321-R326). Debug traps that are due are delivered before all else, their
bits set in DR6; then an instruction breakpoint as a fault, unless RF is set, with its bits in DR6; then an NMI, which sets
`nmi_in_service`, whatever IF is; then INTR exactly when IF is set, outside the shadow of MOV SS and of STI. Each wakes a
halted processor but the breakpoint. While an NMI is in service further ones are lost. An access notes the enabled data
breakpoints that it meets. An enabled breakpoint of undefined encoding is refused where it is evaluated (61 R320); that one of
R/W = 10 is evaluated at every boundary and access is the model's reading (log 45). At the end of an instruction a single step is due if TF was set at its beginning; the breakpoints
met are due with it if LE or GE was set then, and with neither they are due there, one instruction later, or not at all (61
R322). That the enables are asked at each access, and LE and GE as the instruction began, is the model's choice: 61 R322 does not
say when (log 21). The boundary in the shadow of MOV SS (R283 B2) is not stated here. The end changes nothing else of the state but EIP, the flags and the free values drawn. -/
def Obligations.InterruptRecognition : Prop :=
  (∀ (s : State) (vec : Byte), s.env.inputs = [] → s.env.intr = some vec → s.inShutdown = false →
    s.intShadow = false → s.stiShadow = false → s.pendingDbg = 0 → s.dr7.extractLsb' 0 8 = 0 → s.pendingNmi = false →
    (s.flags.if_ = true → step s = deliverEvent vec false false { sample false (takeInput s) with halted := false }) ∧
    (s.flags.if_ = false → s.halted = true ∨ s.prefetch.resized = false → step s = if s.halted then .next (sample false (takeInput s))
      else runInstr exec 16 true (sample false (takeInput s)))) ∧
  (∀ s : State, (nextInput s).reset = false → (nextInput s).writes = [] → s.inShutdown = false → s.intShadow = false →
    let u := sample (nextInput s).nmi (takeInput s)
    let at_ := s.segs.cs.base + s.eip
    (s.nmiInService = true → u.pendingNmi = s.pendingNmi) ∧
    (s.pendingDbg ≠ 0 → step s =
      deliverEvent 1 false (bit s.pendingDbg 15) { u with dr6 := s.dr6 ||| s.pendingDbg, pendingDbg := 0, halted := false }) ∧
    (s.pendingDbg = 0 → s.halted = false → s.flags.rf = false →
      (∃ n, n < 4 ∧ dr7Enabled s.dr7 n = true ∧ (dr7Rw s.dr7 n = 2 ∨ (dr7Rw s.dr7 n = 0 ∧ dr7Len s.dr7 n ≠ 0))) →
      step s = .refused .breakpointEncoding) ∧
    (s.pendingDbg = 0 → s.halted = false → s.flags.rf = false →
      (∀ n, n < 4 → dr7Enabled s.dr7 n = true → dr7Rw s.dr7 n ≠ 2 ∧ (dr7Rw s.dr7 n = 0 → dr7Len s.dr7 n = 0)) →
      (∃ n, n < 4 ∧ dr7Enabled s.dr7 n = true ∧ dr7Rw s.dr7 n = 0 ∧ s.drAddr n = at_) →
      (∀ n, n < 4 → dr7Enabled s.dr7 n = false → ¬ (dr7Rw s.dr7 n = 0 ∧ s.drAddr n = at_)) →
      ∃ d, step s = deliverEvent 1 true false { u with dr6 := d } ∧ (∀ n, 4 ≤ n → bit d n = bit s.dr6 n) ∧
        ∀ n, n < 4 → (bit d n = true ↔ bit s.dr6 n = true ∨
          (dr7Enabled s.dr7 n = true ∧ dr7Rw s.dr7 n = 0 ∧ s.drAddr n = at_))) ∧
    (s.pendingDbg = 0 → s.dr7.extractLsb' 0 8 = 0 →
      s.pendingNmi = true ∨ ((nextInput s).nmi = true ∧ s.nmiInService = false) →
      step s = deliverEvent 2 false false { u with pendingNmi := false, nmiInService := true, halted := false })) ∧
  (∀ (w : Work) (la : BitVec 32) (k : Nat) (write : Bool), w.quiet = false →
    let evaluated (n : Nat) : Prop := dr7Rw w.s.dr7 n = 3 ∨ (dr7Rw w.s.dr7 n = 1 ∧ write = true)
    ((∃ n, n < 4 ∧ dr7Enabled w.s.dr7 n = true ∧ (dr7Rw w.s.dr7 n = 2 ∨ (evaluated n ∧ dr7Len w.s.dr7 n = 2))) →
      noteData la k write w = .error (.refuse .breakpointEncoding) w) ∧
    ((∀ n, n < 4 → dr7Enabled w.s.dr7 n = true → dr7Rw w.s.dr7 n ≠ 2 ∧ (evaluated n → dr7Len w.s.dr7 n ≠ 2)) →
    ∃ on off, noteData la k write w = .ok () { w with hitOn := on, hitOff := off } ∧
      ∀ n, n < 4 → (bit on n = true ↔ bit w.hitOn n = true ∨ (dr7Enabled w.s.dr7 n = true ∧
        evaluated n ∧
        let len := lenBytes (dr7Len w.s.dr7 n)
        ∃ a ∈ span la k, a ∈ span (w.s.drAddr n &&& ~~~(BitVec.ofNat 32 (len - 1))) len)))) ∧
  ∀ (s : State) (w : Work), w.hitOff = 0 → w.waiting = false →
    w.jumped = true ∨ w.repeating = true ∨ w.s.eip.toNat + w.s.insn.len < 2 ^ 32 →
    let due := w.s.pendingDbg ||| w.s.lateDbg ||| (if s.flags.tf then 0x4000#32 else 0)
    ∃ v, finish s w = .ok () v ∧
      v.s = { w.s with
        eip := v.s.eip, flags := v.s.flags, pendingDbg := v.s.pendingDbg, lateDbg := v.s.lateDbg, env := v.s.env } ∧
      Drawn w.s.env v.s.env ∧
      (bit s.dr7 8 = true ∨ bit s.dr7 9 = true → v.s.pendingDbg = due ||| w.hitOn ∧ v.s.lateDbg = 0) ∧
      (bit s.dr7 8 = false → bit s.dr7 9 = false →
        (v.s.pendingDbg = due ||| w.hitOn ∧ v.s.lateDbg = 0) ∨ (v.s.pendingDbg = due ∧ v.s.lateDbg = w.hitOn) ∨
          (v.s.pendingDbg = due ∧ v.s.lateDbg = 0))

/-- IRET (46 R220, R221), its frame in plain memory. In real-address mode it pops IP, CS and the flags. In protected mode with
NT = 0 a frame beyond the limit of SS is #SS(0), an offset beyond that of the new CS #GP(0). The frame's CS passes the checks of
43 R181, and a return to an outer level the frame's SS those of R183, or IRET raises the exception of the first that fails, with
the selector: RPL below CPL, null, outside its table, no code, DPL against RPL #GP, absent #NP; for SS null, outside, no
writable data, DPL or RPL against the level #GP, absent #SS. To the same level it leaves the stack above the frame, to an outer level it takes SS and the
stack pointer from the frame too and makes unusable the data segment registers that the outer level may not use (43 R183).
With NT = 1 it switches to the task that the back link names (44 R191); a link that names an 80286 TSS, busy or not, is
refused (92 D19, log 29: the spec's decision, not R191's words), and one that names anything else but a busy TSS raises #TS. Any
IRET that completes ends the service of an NMI (60 R279). The flags are checked against the CPL before the return. -/
def Obligations.IretCompletes : Prop :=
  (∀ s : State, Ready s → Memory.wf s.mem = true → s.flags.nt = false ∨ s.cr0.pe = false →
    FlatAccess s .ss s.sp (3 * s.os.bytes) false →
    let n := s.os.bytes
    let frame (k : Nat) : BitVec 32 := s.stackItem n k
    let rcs := lo16 (frame 1)
    let flags (cpl : BitVec 2) : Flags := { Flags.ofBits (frame 2) with
      iopl := if cpl = 0 then (frame 2).extractLsb' 12 2 else s.flags.iopl
      if_ := if cpl.toNat ≤ s.flags.iopl.toNat then bit (frame 2) 9 else s.flags.if_
      rf := if s.os = .w32 then bit (frame 2) 16 else s.flags.rf
      vm := s.flags.vm }
    (s.cr0.pe = false → s.sp.toNat + 3 * n ≤ 2 ^ s.stackSize.bits → (frame 0).toNat ≤ s.segs.cs.limit.toNat →
      ∃ t, exec .iret s = .next t ∧ t.eip = frame 0 ∧ t.segs = { s.segs with cs := s.segs.cs.realLoaded rcs } ∧
        t.gpr = (s.setSp (s.sp + BitVec.ofNat 32 (3 * n))).gpr ∧ t.mem = s.mem ∧ t.nmiInService = false ∧
        KeepsSystem s { t with segs := s.segs, nmiInService := s.nmiInService } ∧ t.flags = flags 0) ∧
    let raises (w : Work) (e : Exc) : Prop := exec .iret s = raiseExc 6 (rollback s w) e
    (s.cr0.pe = true → ¬ (s.os = .w32 ∧ bit (frame 2) 17 = true ∧ s.cpl = 0) →
      ∀ e w, returnCs rcs s.work = .error (.exc e) w → raises w e) ∧
    (s.cr0.pe = true → ¬ (s.os = .w32 ∧ bit (frame 2) 17 = true ∧ s.cpl = 0) → ∀ c w, returnCs rcs s.work = .ok c w →
      (selRpl rcs = s.cpl → c.effLimit.toNat < (frame 0).toNat → raises w (.gp 0)) ∧
      (selRpl rcs = s.cpl → (frame 0).toNat ≤ c.effLimit.toNat → ∀ v, setAccessed rcs c w = .ok () v →
        ∃ t, exec .iret s = .next t ∧ t.eip = frame 0 ∧ t.segs = { s.segs with cs := c.toSeg rcs } ∧
          t.gpr = (s.setSp (s.sp + BitVec.ofNat 32 (3 * n))).gpr ∧ t.nmiInService = false ∧
          KeepsSystem s { t with segs := s.segs, nmiInService := s.nmiInService } ∧ TablesOnly s t ∧ t.flags = flags s.cpl) ∧
      (selRpl rcs ≠ s.cpl → limitOk s.segs.ss s.sp (5 * n) = false → raises w (.ss 0)) ∧
      (selRpl rcs ≠ s.cpl → FlatAccess s .ss s.sp (5 * n) false →
        (∀ e x, returnSs (lo16 (frame 4)) (selRpl rcs) w = .error (.exc e) x → raises x e) ∧
        ∀ d x, returnSs (lo16 (frame 4)) (selRpl rcs) w = .ok d x →
          (c.effLimit.toNat < (frame 0).toNat → raises x (.gp 0)) ∧
          ((frame 0).toNat ≤ c.effLimit.toNat →
            ∀ v, returnOuter rcs (lo16 (frame 4)) c d (frame 0) (frame 3) 0 x = .ok () v →
            ∃ t, exec .iret s = .next t ∧ Outward s t (selRpl rcs) (c.toSeg rcs) (d.toSeg (lo16 (frame 4))) (frame 3) ∧
              t.eip = frame 0 ∧ t.nmiInService = false ∧ t.flags = flags s.cpl ∧ TablesOnly s t ∧
              KeepsSystem s { t with segs := s.segs, cpl := s.cpl, nmiInService := s.nmiInService })))) ∧
  (∀ s : State, Ready s → s.cr0.pe = true → s.flags.nt = false → limitOk s.segs.ss s.sp (3 * s.os.bytes) = false →
    exec .iret s = raiseExc 6 s.faulting (.ss 0)) ∧
  (∀ (w : Work) (rcs : BitVec 16),
    ChecksDescriptor (returnCs rcs w) w rcs .gp
      [(w.s.cpl.toNat ≤ (selRpl rcs).toNat, .gp (w.code rcs)), (isNull rcs = false, .gp (w.code rcs))]
      (fun c => [(c.isCode = true, .gp (w.code rcs)), (c.p = true, .np (w.code rcs)),
        (if c.ec then c.dpl.toNat ≤ (selRpl rcs).toNat else c.dpl = selRpl rcs, .gp (w.code rcs))])
      fun c v => returnCs rcs w = .ok c v) ∧
  (∀ (w : Work) (rss : BitVec 16) (pl : BitVec 2),
    ChecksDescriptor (returnSs rss pl w) w rss .gp [(isNull rss = false, .gp (w.code rss))]
      (fun d => [(d.isWritableData = true, .gp (w.code rss)), (d.p = true, .ss (w.code rss)),
        (d.dpl = pl, .gp (w.code rss)), (selRpl rss = d.dpl, .gp (w.code rss))])
      fun d v => returnSs rss pl w = .ok d v) ∧
  ∀ s : State, Ready s → s.cr0.pe = true → s.flags.nt = true → s.tr.valid = true →
    ∀ link w, linRead s.tr.base 2 false s.work = .ok link w →
    let sel := lo16 link
    let raises (w : Work) : Prop := exec .iret s = raiseExc 6 (rollback s w) (.ts (sel &&& 0xFFFC#16))
    (isNull sel = true ∨ selTi sel = true → raises w) ∧
    ∀ d u, isNull sel = false → selTi sel = false → fetchDesc sel .ts w = .ok d u →
      (d.s = false → d.typ = 1 ∨ d.typ = 3 → exec .iret s = .refused .format286) ∧
      (¬ (d.s = false ∧ (d.typ = 1 ∨ d.typ = 3 ∨ d.typ = 0xB)) → raises u) ∧
      (d.s = false → d.typ = 0xB → ∀ v, taskSwitch .iret sel d s.nextEip s.flags u = .ok () v →
        ∃ t, exec .iret s = .next t ∧ Switched s { v.s with nmiInService := false } t)

/-- BOUND: an index within both bounds goes on with nothing changed, any other raises #BR; a register operand is #UD
(46 R219). -/
def Obligations.BoundCompletes : Prop :=
  ∀ (s : State) (r : Reg), Ready s →
    (∀ q, exec (.bound r (.reg q)) s = raiseExc 6 s.faulting .ud) ∧
    ∀ m lo hi w, memRead2 (s.dataSeg (defaultSeg m)) (effAddr s m) s.os.bytes s.os.bytes s.work = .ok (lo, hi) w →
      let inside := (s.os.sext lo).toInt ≤ (s.os.sext (s.reg r)).toInt ∧
        (s.os.sext (s.reg r)).toInt ≤ (s.os.sext hi).toInt
      (inside → ∃ t, exec (.bound r (.mem m)) s = .next t ∧ Ends s w.s t ∧ t.gpr = s.gpr ∧
        t.flags = { s.flags with rf := false } ∧ KeepsSystem s t ∧ (Memory.wf s.mem = true → FrameExcept s t [])) ∧
      (¬ inside → exec (.bound r (.mem m)) s = raiseExc 6 (rollback s w) .br)

/-- A task switch (44 R190, R192, R193, R195). Its tests in the outgoing task: an absent TSS #NP, a busy one but for IRET #GP, one
too short #TS, each with the selector and nothing changed; past them, where the offset to save would lie past FFFFFFFFH, a refusal
(93 U39; log 17). Then the switch is committed, and what the tests of the incoming task raise, LDT, CS, SS,
DS, ES, FS, GS and the offset, in that order, is raised in it: TR and TS are the new ones and no segment register is valid that has
not been loaded. A task gate: a selector that is null, in the LDT, outside its table or names no TSS is #GP with it. A switch that
runs to its end leaves TR and TS, the nesting flag by its kind, CPL from the new CS, EIP inside it, and no other register of the
system. The trap of a debug handler whose own TSS has T = 1 is due again without a switch, the loop of 61 R325; that nothing else
changes in it is the model's reading (log 46). With paging off and the task state segments in plain memory and apart: the incoming task's registers are those of its TSS,
the outgoing task's are in its own, the back link names the outgoing task after a CALL, the busy bits are set and cleared as the
kind says, no other byte of memory changes but for accessed bits; and, the descriptors lying apart, the hidden parts of the
segment registers and LDTR are those that their selectors name. -/
def Obligations.TaskSwitchResult : Prop :=
  (∀ (kind : SwitchKind) (nsel : BitVec 16) (d : Desc) (eipSave : BitVec 32) (fl : Flags) (w : Work),
    w.s.tr.valid = true →
    let o := leaveTask kind nsel d eipSave fl w
    FirstFailure o w [(d.p = true, .np (w.code nsel)), (kind ≠ .iret → d.typ ≠ 0xB, .gp (w.code nsel)),
      (103 ≤ d.effLimit.toNat, .ts (w.code nsel))] (AllRam w.s →
        if w.s.eip.toNat + w.s.insn.len < 2 ^ 32 then ∃ x, o = .ok () x else ∃ x, o = .error (.refuse .eipWrap) x) ∧
    (∀ e v, o = .error e v → taskSwitch kind nsel d eipSave fl w = .error e v ∧ v.committed = w.committed) ∧
    ∀ x, o = .ok () x → taskSwitch kind nsel d eipSave fl w = enterTask kind x ∧ x.committed = true ∧
      x.s.tr = { selector := nsel, base := d.base, limit := d.effLimit, valid := true } ∧
      x.s.cr0 = { w.s.cr0 with ts := true }) ∧
  (∀ (kind : SwitchKind) (w : Work),
    let o := enterTask kind w
    (∀ e v, o = .error e v → v.committed = w.committed ∧ v.s.tr = w.s.tr ∧ v.s.cr0 = w.s.cr0) ∧
    (∀ v, loadTask kind w = .ok () v ∨ (∃ e, loadTask kind w = .error (.exc e) v) →
      (∀ r, (v.s.seg r).valid = false) ∧ v.s.ldtr.valid = false ∧ v.s.cpl = selRpl v.s.segs.cs.selector) ∧
    RunsThrough o ([loadTask kind, loadTaskLdt, loadTaskCs, loadTaskSs] ++ [.ds, .es, .fs, .gs].map loadTaskData) w
      fun v => FirstFailure o v [(v.s.eip.toNat ≤ v.s.segs.cs.limit.toNat, .gp w.extCode)]
        (∀ t u, linRead (v.s.tr.base + 0x64) 2 false v = .ok t u →
          o = .ok () { u with s := { u.s with
            pendingDbg := if bit t 0 then u.s.pendingDbg ||| 0x8000#32 else u.s.pendingDbg } })) ∧
  (∀ w : Work,
    let loads (o : EStateM.Result Stop Work Unit) (u : Work) (r : SegReg) (sel : BitVec 16) (d : Desc) : Prop :=
      ∀ x, setAccessed sel d u = .ok () x → o = .ok () { x with s := x.s.setSeg r (d.toSeg sel) }
    let ldt := w.s.ldtr.selector
    let cs := w.s.segs.cs.selector
    let ss := w.s.segs.ss.selector
    (isNull ldt = true → loadTaskLdt w = .ok () w) ∧
    (isNull ldt = false → ChecksDescriptor (loadTaskLdt w) w ldt .ts [(selTi ldt = false, .ts (w.code ldt))]
      (fun d => [(d.s = false ∧ d.typ = 2, .ts (w.code ldt)), (d.p = true, .ts (w.code ldt))])
      fun d u => loadTaskLdt w = .ok () { u with s := { u.s with
        ldtr := { selector := ldt, base := d.base, limit := d.effLimit, valid := true } } }) ∧
    ChecksDescriptor (loadTaskCs w) w cs .ts [(isNull cs = false, .ts (w.code cs))]
      (fun d => [(d.isCode = true, .ts (w.code cs)), (d.p = true, .np (w.code cs)),
        (if d.ec then d.dpl.toNat ≤ (selRpl cs).toNat else d.dpl = selRpl cs, .ts (w.code cs))])
      (fun d u => loads (loadTaskCs w) u .cs cs d) ∧
    ChecksDescriptor (loadTaskSs w) w ss .ts [(isNull ss = false, .ts (w.code ss))]
      (fun d => [(d.isWritableData = true, .ts (w.code ss)), (d.p = true, .ss (w.code ss)),
        (d.dpl = w.s.cpl, .ts (w.code ss)), (selRpl ss = w.s.cpl, .ts (w.code ss))])
      (fun d u => loads (loadTaskSs w) u .ss ss d) ∧
    ∀ r : SegReg,
      let sel := (w.s.seg r).selector
      (isNull sel = true → loadTaskData r w = .ok () w) ∧
      (isNull sel = false → ChecksDescriptor (loadTaskData r w) w sel .ts []
        (fun d => [(d.s = true ∧ (d.exec = true → d.wr = true), .ts (w.code sel)), (d.p = true, .np (w.code sel)),
          (d.isConforming = true ∨ (w.s.cpl.toNat ≤ d.dpl.toNat ∧ (selRpl sel).toNat ≤ d.dpl.toNat), .ts (w.code sel))])
        fun d u => loads (loadTaskData r w) u r sel d)) ∧
  (∀ (kind : SwitchKind) (tsel : BitVec 16) (eipSave : BitVec 32) (fl : Flags) (w : Work),
    let o := switchThroughGate kind tsel eipSave fl w
    ChecksDescriptor o w tsel .gp [(isNull tsel = false ∧ selTi tsel = false, .gp (w.code tsel))] (fun _ => [])
      fun d v =>
        (d.s = false → d.typ = 1 ∨ d.typ = 3 → o = .error (.refuse .format286) v) ∧
        (¬ (d.s = false ∧ d.typ ∈ [1, 3, 9, 0xB]) → o = .error (.exc (.gp (w.code tsel))) v) ∧
        (d.s = false → d.typ = 9 ∨ d.typ = 0xB → debugLoop v tsel d = false → o = taskSwitch kind tsel d eipSave fl v) ∧
        (d.s = false → d.typ = 0xB → d.p = true → v.taskTrap = true →
          tsel.extractLsb' 3 13 = v.s.tr.selector.extractLsb' 3 13 →
          o = .ok () { v with s := { v.s with pendingDbg := v.s.pendingDbg ||| 0x8000#32 } })) ∧
  ∀ (kind : SwitchKind) (nsel : BitVec 16) (d : Desc) (eipSave : BitVec 32) (fl : Flags) (w v : Work),
    taskSwitch kind nsel d eipSave fl w = .ok () v →
    v.s.tr = { selector := nsel, base := d.base, limit := d.effLimit, valid := true } ∧
      v.s.cr0 = { w.s.cr0 with ts := true } ∧
      (kind = .call → v.s.flags.nt = true) ∧ (kind = .jmp → v.s.flags.nt = false) ∧ v.s.flags.vm = false ∧
      v.s.cpl = selRpl v.s.segs.cs.selector ∧ v.s.segs.cs.valid = true ∧ v.s.segs.ss.valid = true ∧
      v.s.eip.toNat ≤ v.s.segs.cs.limit.toNat ∧ 103 ≤ d.effLimit.toNat ∧
      d.p = true ∧ (kind ≠ .iret → d.typ ≠ 0xB) ∧
      v.s.dr7 = w.s.dr7 &&& 0xFFFFFEAA#32 ∧ v.jumped = true ∧ v.keepRf = true ∧
      v.s = { w.s with
        gpr := v.s.gpr, eip := v.s.eip, flags := v.s.flags, cpl := v.s.cpl, segs := v.s.segs, ldtr := v.s.ldtr, tr := v.s.tr,
        cr0 := v.s.cr0, pdbr := v.s.pdbr, dr7 := v.s.dr7, tlb := v.s.tlb, pendingDbg := v.s.pendingDbg,
        prefetch := v.s.prefetch, mem := v.s.mem, env := v.s.env } ∧
      (AllRam w.s → Memory.wf w.s.mem = true → TasksApart w.s v.s nsel d.base →
        let new (off : BitVec 32) (n : Nat) : BitVec 32 := w.s.valueAt (d.base + off) n
        let old (off : BitVec 32) (n : Nat) : BitVec 32 := v.s.valueAt (w.s.tr.base + off) n
        let oldByte := accessByte w.s w.s.tr.selector
        let newByte := accessByte w.s nsel
        (∀ r, v.s.reg r = new (tssReg r) 4) ∧ v.s.eip = new 0x20 4 ∧
        v.s.flags = { Flags.ofBits (new 0x24 4) with
          nt := match kind with
            | .call => true
            | .jmp => false
            | .iret => bit (new 0x24 4) 14 } ∧
        (∀ r, (v.s.seg r).selector = lo16 (new (tssSeg r) 2)) ∧ v.s.ldtr.selector = lo16 (new 0x60 2) ∧
        v.s.pdbr = w.s.pdbr ∧ v.s.tlb = w.s.tlb ∧
        v.s.pendingDbg = (if bit (new 0x64 2) 0 then w.s.pendingDbg ||| 0x8000#32 else w.s.pendingDbg) ∧
        (∀ r, old (tssReg r) 4 = w.s.reg r) ∧ (∀ r, lo16 (old (tssSeg r) 2) = (w.s.seg r).selector) ∧
        old 0x20 4 = eipSave ∧ old 0x24 4 = (if kind = .iret then { fl with nt := false } else fl).toBits ∧
        (kind = .call → v.s.valueAt d.base 2 = w.s.tr.selector.setWidth 32) ∧
        (kind ≠ .iret → v.s.byteAt newByte &&& 2#8 = 2#8) ∧
        (kind ≠ .call → oldByte ≠ newByte ∨ kind = .iret → v.s.byteAt oldByte &&& 2#8 = 0#8) ∧
        ∀ a, a ∉ span (w.s.tr.base + 0x20#32) 0x3E → (kind ≠ .call → a ≠ oldByte) → (kind ≠ .iret → a ≠ newByte) →
          (kind = .call → a ∉ span d.base 2) → v.s.byteAt a ||| 1#8 = w.s.byteAt a ||| 1#8) ∧
      (AllRam w.s → Memory.wf w.s.mem = true → DescriptorsApart v.s →
        v.s.Loaded v.s.segs.cs ∧ v.s.Loaded v.s.segs.ss ∧
        (∀ r, isNull (v.s.seg r).selector = false → v.s.Loaded (v.s.seg r)) ∧
        (∀ r, isNull (v.s.seg r).selector = true → (v.s.seg r).valid = false) ∧
        (isNull v.s.ldtr.selector = true → v.s.ldtr.valid = false) ∧
        (isNull v.s.ldtr.selector = false → ∃ e, v.s.descriptor v.s.ldtr.selector = some e ∧ e.s = false ∧ e.typ = 2 ∧
          e.p = true ∧ v.s.ldtr = { selector := v.s.ldtr.selector, base := e.base, limit := e.effLimit, valid := true }))

/-- WAIT and ESC (47 R224-R226): #NM by their flags; WAIT waits in place while BUSY# is active, raises #MF for ERROR#
unless EM is set, else goes on. That a WAIT which waits is a step back to the same EIP is the model's (log 38). ESC itself
never completes: its first clause shows the entry of the handler of #NM, and one that gets past its checks is the
coprocessor's and is refused (log 35). -/
def Obligations.WaitEsc : Prop :=
  ∀ s : State, Ready s →
    (∀ opc reg rm,
      (s.cr0.em = true ∨ s.cr0.ts = true → exec (.esc opc reg rm) s = raiseExc 6 s.faulting .nm ∧
        ∀ w, s.delivering = .none →
          deliver 7 true .none false s.eip (Work.start { s.faulting with delivering := .benign } true) = .ok () w →
          exec (.esc opc reg rm) s = .next (endStep w.s)) ∧
      (s.cr0.em = false → s.cr0.ts = false → exec (.esc opc reg rm) s = .refused .coprocessor)) ∧
    (s.cr0.mp = true → s.cr0.ts = true → exec .wait s = raiseExc 6 s.faulting .nm) ∧
    (s.cr0.mp = false ∨ s.cr0.ts = false →
      (s.env.busy = true → exec .wait s = .next s.faulting) ∧
      (s.env.busy = false → s.cr0.em = false → s.env.error = true → exec .wait s = raiseExc 6 s.faulting .mf) ∧
      (s.env.busy = false → s.cr0.em = true ∨ s.env.error = false → exec .wait s = .next (s.completed s)))
end

