-- ==== Sys2Proof/Laws/State.lean ====
section
/-! SUPPORT. One lemma for each field and each update of the state, so that no proof unfolds an update. -/

namespace Sys2Proof.Machine

open Sys2Proof

@[simp] theorem State.setReg_eip (s : State) (r : Reg) (v : BitVec 32) : (s.setReg r v).eip = s.eip := rfl
@[simp] theorem State.setReg_flags (s : State) (r : Reg) (v : BitVec 32) : (s.setReg r v).flags = s.flags := rfl
@[simp] theorem State.setReg_cpl (s : State) (r : Reg) (v : BitVec 32) : (s.setReg r v).cpl = s.cpl := rfl
@[simp] theorem State.setReg_segs (s : State) (r : Reg) (v : BitVec 32) : (s.setReg r v).segs = s.segs := rfl
@[simp] theorem State.setReg_gdtr (s : State) (r : Reg) (v : BitVec 32) : (s.setReg r v).gdtr = s.gdtr := rfl
@[simp] theorem State.setReg_idtr (s : State) (r : Reg) (v : BitVec 32) : (s.setReg r v).idtr = s.idtr := rfl
@[simp] theorem State.setReg_ldtr (s : State) (r : Reg) (v : BitVec 32) : (s.setReg r v).ldtr = s.ldtr := rfl
@[simp] theorem State.setReg_tr (s : State) (r : Reg) (v : BitVec 32) : (s.setReg r v).tr = s.tr := rfl
@[simp] theorem State.setReg_cr0 (s : State) (r : Reg) (v : BitVec 32) : (s.setReg r v).cr0 = s.cr0 := rfl
@[simp] theorem State.setReg_cr2 (s : State) (r : Reg) (v : BitVec 32) : (s.setReg r v).cr2 = s.cr2 := rfl
@[simp] theorem State.setReg_pdbr (s : State) (r : Reg) (v : BitVec 32) : (s.setReg r v).pdbr = s.pdbr := rfl
@[simp] theorem State.setReg_dr0 (s : State) (r : Reg) (v : BitVec 32) : (s.setReg r v).dr0 = s.dr0 := rfl
@[simp] theorem State.setReg_dr1 (s : State) (r : Reg) (v : BitVec 32) : (s.setReg r v).dr1 = s.dr1 := rfl
@[simp] theorem State.setReg_dr2 (s : State) (r : Reg) (v : BitVec 32) : (s.setReg r v).dr2 = s.dr2 := rfl
@[simp] theorem State.setReg_dr3 (s : State) (r : Reg) (v : BitVec 32) : (s.setReg r v).dr3 = s.dr3 := rfl
@[simp] theorem State.setReg_dr6 (s : State) (r : Reg) (v : BitVec 32) : (s.setReg r v).dr6 = s.dr6 := rfl
@[simp] theorem State.setReg_dr7 (s : State) (r : Reg) (v : BitVec 32) : (s.setReg r v).dr7 = s.dr7 := rfl
@[simp] theorem State.setReg_tr6 (s : State) (r : Reg) (v : BitVec 32) : (s.setReg r v).tr6 = s.tr6 := rfl
@[simp] theorem State.setReg_tr7 (s : State) (r : Reg) (v : BitVec 32) : (s.setReg r v).tr7 = s.tr7 := rfl
@[simp] theorem State.setReg_tlb (s : State) (r : Reg) (v : BitVec 32) : (s.setReg r v).tlb = s.tlb := rfl
@[simp] theorem State.setReg_tlbWritten (s : State) (r : Reg) (v : BitVec 32) : (s.setReg r v).tlbWritten = s.tlbWritten := rfl
@[simp] theorem State.setReg_nmiInService (s : State) (r : Reg) (v : BitVec 32) : (s.setReg r v).nmiInService = s.nmiInService := rfl
@[simp] theorem State.setReg_pendingNmi (s : State) (r : Reg) (v : BitVec 32) : (s.setReg r v).pendingNmi = s.pendingNmi := rfl
@[simp] theorem State.setReg_intShadow (s : State) (r : Reg) (v : BitVec 32) : (s.setReg r v).intShadow = s.intShadow := rfl
@[simp] theorem State.setReg_stiShadow (s : State) (r : Reg) (v : BitVec 32) : (s.setReg r v).stiShadow = s.stiShadow := rfl
@[simp] theorem State.setReg_halted (s : State) (r : Reg) (v : BitVec 32) : (s.setReg r v).halted = s.halted := rfl
@[simp] theorem State.setReg_inShutdown (s : State) (r : Reg) (v : BitVec 32) : (s.setReg r v).inShutdown = s.inShutdown := rfl
@[simp] theorem State.setReg_pendingDbg (s : State) (r : Reg) (v : BitVec 32) : (s.setReg r v).pendingDbg = s.pendingDbg := rfl
@[simp] theorem State.setReg_lateDbg (s : State) (r : Reg) (v : BitVec 32) : (s.setReg r v).lateDbg = s.lateDbg := rfl
@[simp] theorem State.setReg_delivering (s : State) (r : Reg) (v : BitVec 32) : (s.setReg r v).delivering = s.delivering := rfl
@[simp] theorem State.setReg_idtStale (s : State) (r : Reg) (v : BitVec 32) : (s.setReg r v).idtStale = s.idtStale := rfl
@[simp] theorem State.setReg_prefetch (s : State) (r : Reg) (v : BitVec 32) : (s.setReg r v).prefetch = s.prefetch := rfl
@[simp] theorem State.setReg_mem (s : State) (r : Reg) (v : BitVec 32) : (s.setReg r v).mem = s.mem := rfl
@[simp] theorem State.setReg_env (s : State) (r : Reg) (v : BitVec 32) : (s.setReg r v).env = s.env := rfl
@[simp] theorem State.setReg_insn (s : State) (r : Reg) (v : BitVec 32) : (s.setReg r v).insn = s.insn := rfl

@[simp] theorem State.setRegv_eip (s : State) (z : Size) (r : Reg) (v : BitVec 32) : (s.setRegv z r v).eip = s.eip := rfl
@[simp] theorem State.setRegv_flags (s : State) (z : Size) (r : Reg) (v : BitVec 32) : (s.setRegv z r v).flags = s.flags := rfl
@[simp] theorem State.setRegv_cpl (s : State) (z : Size) (r : Reg) (v : BitVec 32) : (s.setRegv z r v).cpl = s.cpl := rfl
@[simp] theorem State.setRegv_segs (s : State) (z : Size) (r : Reg) (v : BitVec 32) : (s.setRegv z r v).segs = s.segs := rfl
@[simp] theorem State.setRegv_gdtr (s : State) (z : Size) (r : Reg) (v : BitVec 32) : (s.setRegv z r v).gdtr = s.gdtr := rfl
@[simp] theorem State.setRegv_idtr (s : State) (z : Size) (r : Reg) (v : BitVec 32) : (s.setRegv z r v).idtr = s.idtr := rfl
@[simp] theorem State.setRegv_ldtr (s : State) (z : Size) (r : Reg) (v : BitVec 32) : (s.setRegv z r v).ldtr = s.ldtr := rfl
@[simp] theorem State.setRegv_tr (s : State) (z : Size) (r : Reg) (v : BitVec 32) : (s.setRegv z r v).tr = s.tr := rfl
@[simp] theorem State.setRegv_cr0 (s : State) (z : Size) (r : Reg) (v : BitVec 32) : (s.setRegv z r v).cr0 = s.cr0 := rfl
@[simp] theorem State.setRegv_cr2 (s : State) (z : Size) (r : Reg) (v : BitVec 32) : (s.setRegv z r v).cr2 = s.cr2 := rfl
@[simp] theorem State.setRegv_pdbr (s : State) (z : Size) (r : Reg) (v : BitVec 32) : (s.setRegv z r v).pdbr = s.pdbr := rfl
@[simp] theorem State.setRegv_dr0 (s : State) (z : Size) (r : Reg) (v : BitVec 32) : (s.setRegv z r v).dr0 = s.dr0 := rfl
@[simp] theorem State.setRegv_dr1 (s : State) (z : Size) (r : Reg) (v : BitVec 32) : (s.setRegv z r v).dr1 = s.dr1 := rfl
@[simp] theorem State.setRegv_dr2 (s : State) (z : Size) (r : Reg) (v : BitVec 32) : (s.setRegv z r v).dr2 = s.dr2 := rfl
@[simp] theorem State.setRegv_dr3 (s : State) (z : Size) (r : Reg) (v : BitVec 32) : (s.setRegv z r v).dr3 = s.dr3 := rfl
@[simp] theorem State.setRegv_dr6 (s : State) (z : Size) (r : Reg) (v : BitVec 32) : (s.setRegv z r v).dr6 = s.dr6 := rfl
@[simp] theorem State.setRegv_dr7 (s : State) (z : Size) (r : Reg) (v : BitVec 32) : (s.setRegv z r v).dr7 = s.dr7 := rfl
@[simp] theorem State.setRegv_tr6 (s : State) (z : Size) (r : Reg) (v : BitVec 32) : (s.setRegv z r v).tr6 = s.tr6 := rfl
@[simp] theorem State.setRegv_tr7 (s : State) (z : Size) (r : Reg) (v : BitVec 32) : (s.setRegv z r v).tr7 = s.tr7 := rfl
@[simp] theorem State.setRegv_tlb (s : State) (z : Size) (r : Reg) (v : BitVec 32) : (s.setRegv z r v).tlb = s.tlb := rfl
@[simp] theorem State.setRegv_tlbWritten (s : State) (z : Size) (r : Reg) (v : BitVec 32) : (s.setRegv z r v).tlbWritten = s.tlbWritten := rfl
@[simp] theorem State.setRegv_nmiInService (s : State) (z : Size) (r : Reg) (v : BitVec 32) : (s.setRegv z r v).nmiInService = s.nmiInService := rfl
@[simp] theorem State.setRegv_pendingNmi (s : State) (z : Size) (r : Reg) (v : BitVec 32) : (s.setRegv z r v).pendingNmi = s.pendingNmi := rfl
@[simp] theorem State.setRegv_intShadow (s : State) (z : Size) (r : Reg) (v : BitVec 32) : (s.setRegv z r v).intShadow = s.intShadow := rfl
@[simp] theorem State.setRegv_stiShadow (s : State) (z : Size) (r : Reg) (v : BitVec 32) : (s.setRegv z r v).stiShadow = s.stiShadow := rfl
@[simp] theorem State.setRegv_halted (s : State) (z : Size) (r : Reg) (v : BitVec 32) : (s.setRegv z r v).halted = s.halted := rfl
@[simp] theorem State.setRegv_inShutdown (s : State) (z : Size) (r : Reg) (v : BitVec 32) : (s.setRegv z r v).inShutdown = s.inShutdown := rfl
@[simp] theorem State.setRegv_pendingDbg (s : State) (z : Size) (r : Reg) (v : BitVec 32) : (s.setRegv z r v).pendingDbg = s.pendingDbg := rfl
@[simp] theorem State.setRegv_lateDbg (s : State) (z : Size) (r : Reg) (v : BitVec 32) : (s.setRegv z r v).lateDbg = s.lateDbg := rfl
@[simp] theorem State.setRegv_delivering (s : State) (z : Size) (r : Reg) (v : BitVec 32) : (s.setRegv z r v).delivering = s.delivering := rfl
@[simp] theorem State.setRegv_idtStale (s : State) (z : Size) (r : Reg) (v : BitVec 32) : (s.setRegv z r v).idtStale = s.idtStale := rfl
@[simp] theorem State.setRegv_prefetch (s : State) (z : Size) (r : Reg) (v : BitVec 32) : (s.setRegv z r v).prefetch = s.prefetch := rfl
@[simp] theorem State.setRegv_mem (s : State) (z : Size) (r : Reg) (v : BitVec 32) : (s.setRegv z r v).mem = s.mem := rfl
@[simp] theorem State.setRegv_env (s : State) (z : Size) (r : Reg) (v : BitVec 32) : (s.setRegv z r v).env = s.env := rfl
@[simp] theorem State.setRegv_insn (s : State) (z : Size) (r : Reg) (v : BitVec 32) : (s.setRegv z r v).insn = s.insn := rfl

@[simp] theorem State.setReg8_eip (s : State) (r : Reg8) (v : Byte) : (s.setReg8 r v).eip = s.eip := rfl
@[simp] theorem State.setReg8_flags (s : State) (r : Reg8) (v : Byte) : (s.setReg8 r v).flags = s.flags := rfl
@[simp] theorem State.setReg8_cpl (s : State) (r : Reg8) (v : Byte) : (s.setReg8 r v).cpl = s.cpl := rfl
@[simp] theorem State.setReg8_segs (s : State) (r : Reg8) (v : Byte) : (s.setReg8 r v).segs = s.segs := rfl
@[simp] theorem State.setReg8_gdtr (s : State) (r : Reg8) (v : Byte) : (s.setReg8 r v).gdtr = s.gdtr := rfl
@[simp] theorem State.setReg8_idtr (s : State) (r : Reg8) (v : Byte) : (s.setReg8 r v).idtr = s.idtr := rfl
@[simp] theorem State.setReg8_ldtr (s : State) (r : Reg8) (v : Byte) : (s.setReg8 r v).ldtr = s.ldtr := rfl
@[simp] theorem State.setReg8_tr (s : State) (r : Reg8) (v : Byte) : (s.setReg8 r v).tr = s.tr := rfl
@[simp] theorem State.setReg8_cr0 (s : State) (r : Reg8) (v : Byte) : (s.setReg8 r v).cr0 = s.cr0 := rfl
@[simp] theorem State.setReg8_cr2 (s : State) (r : Reg8) (v : Byte) : (s.setReg8 r v).cr2 = s.cr2 := rfl
@[simp] theorem State.setReg8_pdbr (s : State) (r : Reg8) (v : Byte) : (s.setReg8 r v).pdbr = s.pdbr := rfl
@[simp] theorem State.setReg8_dr0 (s : State) (r : Reg8) (v : Byte) : (s.setReg8 r v).dr0 = s.dr0 := rfl
@[simp] theorem State.setReg8_dr1 (s : State) (r : Reg8) (v : Byte) : (s.setReg8 r v).dr1 = s.dr1 := rfl
@[simp] theorem State.setReg8_dr2 (s : State) (r : Reg8) (v : Byte) : (s.setReg8 r v).dr2 = s.dr2 := rfl
@[simp] theorem State.setReg8_dr3 (s : State) (r : Reg8) (v : Byte) : (s.setReg8 r v).dr3 = s.dr3 := rfl
@[simp] theorem State.setReg8_dr6 (s : State) (r : Reg8) (v : Byte) : (s.setReg8 r v).dr6 = s.dr6 := rfl
@[simp] theorem State.setReg8_dr7 (s : State) (r : Reg8) (v : Byte) : (s.setReg8 r v).dr7 = s.dr7 := rfl
@[simp] theorem State.setReg8_tr6 (s : State) (r : Reg8) (v : Byte) : (s.setReg8 r v).tr6 = s.tr6 := rfl
@[simp] theorem State.setReg8_tr7 (s : State) (r : Reg8) (v : Byte) : (s.setReg8 r v).tr7 = s.tr7 := rfl
@[simp] theorem State.setReg8_tlb (s : State) (r : Reg8) (v : Byte) : (s.setReg8 r v).tlb = s.tlb := rfl
@[simp] theorem State.setReg8_tlbWritten (s : State) (r : Reg8) (v : Byte) : (s.setReg8 r v).tlbWritten = s.tlbWritten := rfl
@[simp] theorem State.setReg8_nmiInService (s : State) (r : Reg8) (v : Byte) : (s.setReg8 r v).nmiInService = s.nmiInService := rfl
@[simp] theorem State.setReg8_pendingNmi (s : State) (r : Reg8) (v : Byte) : (s.setReg8 r v).pendingNmi = s.pendingNmi := rfl
@[simp] theorem State.setReg8_intShadow (s : State) (r : Reg8) (v : Byte) : (s.setReg8 r v).intShadow = s.intShadow := rfl
@[simp] theorem State.setReg8_stiShadow (s : State) (r : Reg8) (v : Byte) : (s.setReg8 r v).stiShadow = s.stiShadow := rfl
@[simp] theorem State.setReg8_halted (s : State) (r : Reg8) (v : Byte) : (s.setReg8 r v).halted = s.halted := rfl
@[simp] theorem State.setReg8_inShutdown (s : State) (r : Reg8) (v : Byte) : (s.setReg8 r v).inShutdown = s.inShutdown := rfl
@[simp] theorem State.setReg8_pendingDbg (s : State) (r : Reg8) (v : Byte) : (s.setReg8 r v).pendingDbg = s.pendingDbg := rfl
@[simp] theorem State.setReg8_lateDbg (s : State) (r : Reg8) (v : Byte) : (s.setReg8 r v).lateDbg = s.lateDbg := rfl
@[simp] theorem State.setReg8_delivering (s : State) (r : Reg8) (v : Byte) : (s.setReg8 r v).delivering = s.delivering := rfl
@[simp] theorem State.setReg8_idtStale (s : State) (r : Reg8) (v : Byte) : (s.setReg8 r v).idtStale = s.idtStale := rfl
@[simp] theorem State.setReg8_prefetch (s : State) (r : Reg8) (v : Byte) : (s.setReg8 r v).prefetch = s.prefetch := rfl
@[simp] theorem State.setReg8_mem (s : State) (r : Reg8) (v : Byte) : (s.setReg8 r v).mem = s.mem := rfl
@[simp] theorem State.setReg8_env (s : State) (r : Reg8) (v : Byte) : (s.setReg8 r v).env = s.env := rfl
@[simp] theorem State.setReg8_insn (s : State) (r : Reg8) (v : Byte) : (s.setReg8 r v).insn = s.insn := rfl

@[simp] theorem State.setSp_eip (s : State) (v : BitVec 32) : (s.setSp v).eip = s.eip := rfl
@[simp] theorem State.setSp_flags (s : State) (v : BitVec 32) : (s.setSp v).flags = s.flags := rfl
@[simp] theorem State.setSp_cpl (s : State) (v : BitVec 32) : (s.setSp v).cpl = s.cpl := rfl
@[simp] theorem State.setSp_segs (s : State) (v : BitVec 32) : (s.setSp v).segs = s.segs := rfl
@[simp] theorem State.setSp_gdtr (s : State) (v : BitVec 32) : (s.setSp v).gdtr = s.gdtr := rfl
@[simp] theorem State.setSp_idtr (s : State) (v : BitVec 32) : (s.setSp v).idtr = s.idtr := rfl
@[simp] theorem State.setSp_ldtr (s : State) (v : BitVec 32) : (s.setSp v).ldtr = s.ldtr := rfl
@[simp] theorem State.setSp_tr (s : State) (v : BitVec 32) : (s.setSp v).tr = s.tr := rfl
@[simp] theorem State.setSp_cr0 (s : State) (v : BitVec 32) : (s.setSp v).cr0 = s.cr0 := rfl
@[simp] theorem State.setSp_cr2 (s : State) (v : BitVec 32) : (s.setSp v).cr2 = s.cr2 := rfl
@[simp] theorem State.setSp_pdbr (s : State) (v : BitVec 32) : (s.setSp v).pdbr = s.pdbr := rfl
@[simp] theorem State.setSp_dr0 (s : State) (v : BitVec 32) : (s.setSp v).dr0 = s.dr0 := rfl
@[simp] theorem State.setSp_dr1 (s : State) (v : BitVec 32) : (s.setSp v).dr1 = s.dr1 := rfl
@[simp] theorem State.setSp_dr2 (s : State) (v : BitVec 32) : (s.setSp v).dr2 = s.dr2 := rfl
@[simp] theorem State.setSp_dr3 (s : State) (v : BitVec 32) : (s.setSp v).dr3 = s.dr3 := rfl
@[simp] theorem State.setSp_dr6 (s : State) (v : BitVec 32) : (s.setSp v).dr6 = s.dr6 := rfl
@[simp] theorem State.setSp_dr7 (s : State) (v : BitVec 32) : (s.setSp v).dr7 = s.dr7 := rfl
@[simp] theorem State.setSp_tr6 (s : State) (v : BitVec 32) : (s.setSp v).tr6 = s.tr6 := rfl
@[simp] theorem State.setSp_tr7 (s : State) (v : BitVec 32) : (s.setSp v).tr7 = s.tr7 := rfl
@[simp] theorem State.setSp_tlb (s : State) (v : BitVec 32) : (s.setSp v).tlb = s.tlb := rfl
@[simp] theorem State.setSp_tlbWritten (s : State) (v : BitVec 32) : (s.setSp v).tlbWritten = s.tlbWritten := rfl
@[simp] theorem State.setSp_nmiInService (s : State) (v : BitVec 32) : (s.setSp v).nmiInService = s.nmiInService := rfl
@[simp] theorem State.setSp_pendingNmi (s : State) (v : BitVec 32) : (s.setSp v).pendingNmi = s.pendingNmi := rfl
@[simp] theorem State.setSp_intShadow (s : State) (v : BitVec 32) : (s.setSp v).intShadow = s.intShadow := rfl
@[simp] theorem State.setSp_stiShadow (s : State) (v : BitVec 32) : (s.setSp v).stiShadow = s.stiShadow := rfl
@[simp] theorem State.setSp_halted (s : State) (v : BitVec 32) : (s.setSp v).halted = s.halted := rfl
@[simp] theorem State.setSp_inShutdown (s : State) (v : BitVec 32) : (s.setSp v).inShutdown = s.inShutdown := rfl
@[simp] theorem State.setSp_pendingDbg (s : State) (v : BitVec 32) : (s.setSp v).pendingDbg = s.pendingDbg := rfl
@[simp] theorem State.setSp_lateDbg (s : State) (v : BitVec 32) : (s.setSp v).lateDbg = s.lateDbg := rfl
@[simp] theorem State.setSp_delivering (s : State) (v : BitVec 32) : (s.setSp v).delivering = s.delivering := rfl
@[simp] theorem State.setSp_idtStale (s : State) (v : BitVec 32) : (s.setSp v).idtStale = s.idtStale := rfl
@[simp] theorem State.setSp_prefetch (s : State) (v : BitVec 32) : (s.setSp v).prefetch = s.prefetch := rfl
@[simp] theorem State.setSp_mem (s : State) (v : BitVec 32) : (s.setSp v).mem = s.mem := rfl
@[simp] theorem State.setSp_env (s : State) (v : BitVec 32) : (s.setSp v).env = s.env := rfl
@[simp] theorem State.setSp_insn (s : State) (v : BitVec 32) : (s.setSp v).insn = s.insn := rfl

@[simp] theorem State.stepIndex_eip (s : State) (r : Reg) (n : Nat) : (s.stepIndex r n).eip = s.eip := rfl
@[simp] theorem State.stepIndex_flags (s : State) (r : Reg) (n : Nat) : (s.stepIndex r n).flags = s.flags := rfl
@[simp] theorem State.stepIndex_cpl (s : State) (r : Reg) (n : Nat) : (s.stepIndex r n).cpl = s.cpl := rfl
@[simp] theorem State.stepIndex_segs (s : State) (r : Reg) (n : Nat) : (s.stepIndex r n).segs = s.segs := rfl
@[simp] theorem State.stepIndex_gdtr (s : State) (r : Reg) (n : Nat) : (s.stepIndex r n).gdtr = s.gdtr := rfl
@[simp] theorem State.stepIndex_idtr (s : State) (r : Reg) (n : Nat) : (s.stepIndex r n).idtr = s.idtr := rfl
@[simp] theorem State.stepIndex_ldtr (s : State) (r : Reg) (n : Nat) : (s.stepIndex r n).ldtr = s.ldtr := rfl
@[simp] theorem State.stepIndex_tr (s : State) (r : Reg) (n : Nat) : (s.stepIndex r n).tr = s.tr := rfl
@[simp] theorem State.stepIndex_cr0 (s : State) (r : Reg) (n : Nat) : (s.stepIndex r n).cr0 = s.cr0 := rfl
@[simp] theorem State.stepIndex_cr2 (s : State) (r : Reg) (n : Nat) : (s.stepIndex r n).cr2 = s.cr2 := rfl
@[simp] theorem State.stepIndex_pdbr (s : State) (r : Reg) (n : Nat) : (s.stepIndex r n).pdbr = s.pdbr := rfl
@[simp] theorem State.stepIndex_dr0 (s : State) (r : Reg) (n : Nat) : (s.stepIndex r n).dr0 = s.dr0 := rfl
@[simp] theorem State.stepIndex_dr1 (s : State) (r : Reg) (n : Nat) : (s.stepIndex r n).dr1 = s.dr1 := rfl
@[simp] theorem State.stepIndex_dr2 (s : State) (r : Reg) (n : Nat) : (s.stepIndex r n).dr2 = s.dr2 := rfl
@[simp] theorem State.stepIndex_dr3 (s : State) (r : Reg) (n : Nat) : (s.stepIndex r n).dr3 = s.dr3 := rfl
@[simp] theorem State.stepIndex_dr6 (s : State) (r : Reg) (n : Nat) : (s.stepIndex r n).dr6 = s.dr6 := rfl
@[simp] theorem State.stepIndex_dr7 (s : State) (r : Reg) (n : Nat) : (s.stepIndex r n).dr7 = s.dr7 := rfl
@[simp] theorem State.stepIndex_tr6 (s : State) (r : Reg) (n : Nat) : (s.stepIndex r n).tr6 = s.tr6 := rfl
@[simp] theorem State.stepIndex_tr7 (s : State) (r : Reg) (n : Nat) : (s.stepIndex r n).tr7 = s.tr7 := rfl
@[simp] theorem State.stepIndex_tlb (s : State) (r : Reg) (n : Nat) : (s.stepIndex r n).tlb = s.tlb := rfl
@[simp] theorem State.stepIndex_tlbWritten (s : State) (r : Reg) (n : Nat) : (s.stepIndex r n).tlbWritten = s.tlbWritten := rfl
@[simp] theorem State.stepIndex_nmiInService (s : State) (r : Reg) (n : Nat) : (s.stepIndex r n).nmiInService = s.nmiInService := rfl
@[simp] theorem State.stepIndex_pendingNmi (s : State) (r : Reg) (n : Nat) : (s.stepIndex r n).pendingNmi = s.pendingNmi := rfl
@[simp] theorem State.stepIndex_intShadow (s : State) (r : Reg) (n : Nat) : (s.stepIndex r n).intShadow = s.intShadow := rfl
@[simp] theorem State.stepIndex_stiShadow (s : State) (r : Reg) (n : Nat) : (s.stepIndex r n).stiShadow = s.stiShadow := rfl
@[simp] theorem State.stepIndex_halted (s : State) (r : Reg) (n : Nat) : (s.stepIndex r n).halted = s.halted := rfl
@[simp] theorem State.stepIndex_inShutdown (s : State) (r : Reg) (n : Nat) : (s.stepIndex r n).inShutdown = s.inShutdown := rfl
@[simp] theorem State.stepIndex_pendingDbg (s : State) (r : Reg) (n : Nat) : (s.stepIndex r n).pendingDbg = s.pendingDbg := rfl
@[simp] theorem State.stepIndex_lateDbg (s : State) (r : Reg) (n : Nat) : (s.stepIndex r n).lateDbg = s.lateDbg := rfl
@[simp] theorem State.stepIndex_delivering (s : State) (r : Reg) (n : Nat) : (s.stepIndex r n).delivering = s.delivering := rfl
@[simp] theorem State.stepIndex_idtStale (s : State) (r : Reg) (n : Nat) : (s.stepIndex r n).idtStale = s.idtStale := rfl
@[simp] theorem State.stepIndex_prefetch (s : State) (r : Reg) (n : Nat) : (s.stepIndex r n).prefetch = s.prefetch := rfl
@[simp] theorem State.stepIndex_mem (s : State) (r : Reg) (n : Nat) : (s.stepIndex r n).mem = s.mem := rfl
@[simp] theorem State.stepIndex_env (s : State) (r : Reg) (n : Nat) : (s.stepIndex r n).env = s.env := rfl
@[simp] theorem State.stepIndex_insn (s : State) (r : Reg) (n : Nat) : (s.stepIndex r n).insn = s.insn := rfl

@[simp] theorem State.setSeg_gpr (s : State) (r : SegReg) (v : Seg) : (s.setSeg r v).gpr = s.gpr := rfl
@[simp] theorem State.setSeg_eip (s : State) (r : SegReg) (v : Seg) : (s.setSeg r v).eip = s.eip := rfl
@[simp] theorem State.setSeg_flags (s : State) (r : SegReg) (v : Seg) : (s.setSeg r v).flags = s.flags := rfl
@[simp] theorem State.setSeg_cpl (s : State) (r : SegReg) (v : Seg) : (s.setSeg r v).cpl = s.cpl := rfl
@[simp] theorem State.setSeg_gdtr (s : State) (r : SegReg) (v : Seg) : (s.setSeg r v).gdtr = s.gdtr := rfl
@[simp] theorem State.setSeg_idtr (s : State) (r : SegReg) (v : Seg) : (s.setSeg r v).idtr = s.idtr := rfl
@[simp] theorem State.setSeg_ldtr (s : State) (r : SegReg) (v : Seg) : (s.setSeg r v).ldtr = s.ldtr := rfl
@[simp] theorem State.setSeg_tr (s : State) (r : SegReg) (v : Seg) : (s.setSeg r v).tr = s.tr := rfl
@[simp] theorem State.setSeg_cr0 (s : State) (r : SegReg) (v : Seg) : (s.setSeg r v).cr0 = s.cr0 := rfl
@[simp] theorem State.setSeg_cr2 (s : State) (r : SegReg) (v : Seg) : (s.setSeg r v).cr2 = s.cr2 := rfl
@[simp] theorem State.setSeg_pdbr (s : State) (r : SegReg) (v : Seg) : (s.setSeg r v).pdbr = s.pdbr := rfl
@[simp] theorem State.setSeg_dr0 (s : State) (r : SegReg) (v : Seg) : (s.setSeg r v).dr0 = s.dr0 := rfl
@[simp] theorem State.setSeg_dr1 (s : State) (r : SegReg) (v : Seg) : (s.setSeg r v).dr1 = s.dr1 := rfl
@[simp] theorem State.setSeg_dr2 (s : State) (r : SegReg) (v : Seg) : (s.setSeg r v).dr2 = s.dr2 := rfl
@[simp] theorem State.setSeg_dr3 (s : State) (r : SegReg) (v : Seg) : (s.setSeg r v).dr3 = s.dr3 := rfl
@[simp] theorem State.setSeg_dr6 (s : State) (r : SegReg) (v : Seg) : (s.setSeg r v).dr6 = s.dr6 := rfl
@[simp] theorem State.setSeg_dr7 (s : State) (r : SegReg) (v : Seg) : (s.setSeg r v).dr7 = s.dr7 := rfl
@[simp] theorem State.setSeg_tr6 (s : State) (r : SegReg) (v : Seg) : (s.setSeg r v).tr6 = s.tr6 := rfl
@[simp] theorem State.setSeg_tr7 (s : State) (r : SegReg) (v : Seg) : (s.setSeg r v).tr7 = s.tr7 := rfl
@[simp] theorem State.setSeg_tlb (s : State) (r : SegReg) (v : Seg) : (s.setSeg r v).tlb = s.tlb := rfl
@[simp] theorem State.setSeg_tlbWritten (s : State) (r : SegReg) (v : Seg) : (s.setSeg r v).tlbWritten = s.tlbWritten := rfl
@[simp] theorem State.setSeg_nmiInService (s : State) (r : SegReg) (v : Seg) : (s.setSeg r v).nmiInService = s.nmiInService := rfl
@[simp] theorem State.setSeg_pendingNmi (s : State) (r : SegReg) (v : Seg) : (s.setSeg r v).pendingNmi = s.pendingNmi := rfl
@[simp] theorem State.setSeg_intShadow (s : State) (r : SegReg) (v : Seg) : (s.setSeg r v).intShadow = s.intShadow := rfl
@[simp] theorem State.setSeg_stiShadow (s : State) (r : SegReg) (v : Seg) : (s.setSeg r v).stiShadow = s.stiShadow := rfl
@[simp] theorem State.setSeg_halted (s : State) (r : SegReg) (v : Seg) : (s.setSeg r v).halted = s.halted := rfl
@[simp] theorem State.setSeg_inShutdown (s : State) (r : SegReg) (v : Seg) : (s.setSeg r v).inShutdown = s.inShutdown := rfl
@[simp] theorem State.setSeg_pendingDbg (s : State) (r : SegReg) (v : Seg) : (s.setSeg r v).pendingDbg = s.pendingDbg := rfl
@[simp] theorem State.setSeg_lateDbg (s : State) (r : SegReg) (v : Seg) : (s.setSeg r v).lateDbg = s.lateDbg := rfl
@[simp] theorem State.setSeg_delivering (s : State) (r : SegReg) (v : Seg) : (s.setSeg r v).delivering = s.delivering := rfl
@[simp] theorem State.setSeg_idtStale (s : State) (r : SegReg) (v : Seg) : (s.setSeg r v).idtStale = s.idtStale := rfl
@[simp] theorem State.setSeg_prefetch (s : State) (r : SegReg) (v : Seg) : (s.setSeg r v).prefetch = s.prefetch := rfl
@[simp] theorem State.setSeg_mem (s : State) (r : SegReg) (v : Seg) : (s.setSeg r v).mem = s.mem := rfl
@[simp] theorem State.setSeg_env (s : State) (r : SegReg) (v : Seg) : (s.setSeg r v).env = s.env := rfl
@[simp] theorem State.setSeg_insn (s : State) (r : SegReg) (v : Seg) : (s.setSeg r v).insn = s.insn := rfl

@[simp] theorem State.putByte_gpr (s : State) (pa : BitVec 32) (v : Byte) : (s.putByte pa v).gpr = s.gpr := by
  unfold State.putByte
  split <;> rfl
@[simp] theorem State.putByte_eip (s : State) (pa : BitVec 32) (v : Byte) : (s.putByte pa v).eip = s.eip := by
  unfold State.putByte
  split <;> rfl
@[simp] theorem State.putByte_flags (s : State) (pa : BitVec 32) (v : Byte) : (s.putByte pa v).flags = s.flags := by
  unfold State.putByte
  split <;> rfl
@[simp] theorem State.putByte_cpl (s : State) (pa : BitVec 32) (v : Byte) : (s.putByte pa v).cpl = s.cpl := by
  unfold State.putByte
  split <;> rfl
@[simp] theorem State.putByte_segs (s : State) (pa : BitVec 32) (v : Byte) : (s.putByte pa v).segs = s.segs := by
  unfold State.putByte
  split <;> rfl
@[simp] theorem State.putByte_gdtr (s : State) (pa : BitVec 32) (v : Byte) : (s.putByte pa v).gdtr = s.gdtr := by
  unfold State.putByte
  split <;> rfl
@[simp] theorem State.putByte_idtr (s : State) (pa : BitVec 32) (v : Byte) : (s.putByte pa v).idtr = s.idtr := by
  unfold State.putByte
  split <;> rfl
@[simp] theorem State.putByte_ldtr (s : State) (pa : BitVec 32) (v : Byte) : (s.putByte pa v).ldtr = s.ldtr := by
  unfold State.putByte
  split <;> rfl
@[simp] theorem State.putByte_tr (s : State) (pa : BitVec 32) (v : Byte) : (s.putByte pa v).tr = s.tr := by
  unfold State.putByte
  split <;> rfl
@[simp] theorem State.putByte_cr0 (s : State) (pa : BitVec 32) (v : Byte) : (s.putByte pa v).cr0 = s.cr0 := by
  unfold State.putByte
  split <;> rfl
@[simp] theorem State.putByte_cr2 (s : State) (pa : BitVec 32) (v : Byte) : (s.putByte pa v).cr2 = s.cr2 := by
  unfold State.putByte
  split <;> rfl
@[simp] theorem State.putByte_pdbr (s : State) (pa : BitVec 32) (v : Byte) : (s.putByte pa v).pdbr = s.pdbr := by
  unfold State.putByte
  split <;> rfl
@[simp] theorem State.putByte_dr0 (s : State) (pa : BitVec 32) (v : Byte) : (s.putByte pa v).dr0 = s.dr0 := by
  unfold State.putByte
  split <;> rfl
@[simp] theorem State.putByte_dr1 (s : State) (pa : BitVec 32) (v : Byte) : (s.putByte pa v).dr1 = s.dr1 := by
  unfold State.putByte
  split <;> rfl
@[simp] theorem State.putByte_dr2 (s : State) (pa : BitVec 32) (v : Byte) : (s.putByte pa v).dr2 = s.dr2 := by
  unfold State.putByte
  split <;> rfl
@[simp] theorem State.putByte_dr3 (s : State) (pa : BitVec 32) (v : Byte) : (s.putByte pa v).dr3 = s.dr3 := by
  unfold State.putByte
  split <;> rfl
@[simp] theorem State.putByte_dr6 (s : State) (pa : BitVec 32) (v : Byte) : (s.putByte pa v).dr6 = s.dr6 := by
  unfold State.putByte
  split <;> rfl
@[simp] theorem State.putByte_dr7 (s : State) (pa : BitVec 32) (v : Byte) : (s.putByte pa v).dr7 = s.dr7 := by
  unfold State.putByte
  split <;> rfl
@[simp] theorem State.putByte_tr6 (s : State) (pa : BitVec 32) (v : Byte) : (s.putByte pa v).tr6 = s.tr6 := by
  unfold State.putByte
  split <;> rfl
@[simp] theorem State.putByte_tr7 (s : State) (pa : BitVec 32) (v : Byte) : (s.putByte pa v).tr7 = s.tr7 := by
  unfold State.putByte
  split <;> rfl
@[simp] theorem State.putByte_tlb (s : State) (pa : BitVec 32) (v : Byte) : (s.putByte pa v).tlb = s.tlb := by
  unfold State.putByte
  split <;> rfl
@[simp] theorem State.putByte_tlbWritten (s : State) (pa : BitVec 32) (v : Byte) : (s.putByte pa v).tlbWritten = s.tlbWritten := by
  unfold State.putByte
  split <;> rfl
@[simp] theorem State.putByte_nmiInService (s : State) (pa : BitVec 32) (v : Byte) : (s.putByte pa v).nmiInService = s.nmiInService := by
  unfold State.putByte
  split <;> rfl
@[simp] theorem State.putByte_pendingNmi (s : State) (pa : BitVec 32) (v : Byte) : (s.putByte pa v).pendingNmi = s.pendingNmi := by
  unfold State.putByte
  split <;> rfl
@[simp] theorem State.putByte_intShadow (s : State) (pa : BitVec 32) (v : Byte) : (s.putByte pa v).intShadow = s.intShadow := by
  unfold State.putByte
  split <;> rfl
@[simp] theorem State.putByte_stiShadow (s : State) (pa : BitVec 32) (v : Byte) : (s.putByte pa v).stiShadow = s.stiShadow := by
  unfold State.putByte
  split <;> rfl
@[simp] theorem State.putByte_halted (s : State) (pa : BitVec 32) (v : Byte) : (s.putByte pa v).halted = s.halted := by
  unfold State.putByte
  split <;> rfl
@[simp] theorem State.putByte_inShutdown (s : State) (pa : BitVec 32) (v : Byte) : (s.putByte pa v).inShutdown = s.inShutdown := by
  unfold State.putByte
  split <;> rfl
@[simp] theorem State.putByte_pendingDbg (s : State) (pa : BitVec 32) (v : Byte) : (s.putByte pa v).pendingDbg = s.pendingDbg := by
  unfold State.putByte
  split <;> rfl
@[simp] theorem State.putByte_lateDbg (s : State) (pa : BitVec 32) (v : Byte) : (s.putByte pa v).lateDbg = s.lateDbg := by
  unfold State.putByte
  split <;> rfl
@[simp] theorem State.putByte_delivering (s : State) (pa : BitVec 32) (v : Byte) : (s.putByte pa v).delivering = s.delivering := by
  unfold State.putByte
  split <;> rfl
@[simp] theorem State.putByte_idtStale (s : State) (pa : BitVec 32) (v : Byte) : (s.putByte pa v).idtStale = s.idtStale := by
  unfold State.putByte
  split <;> rfl
@[simp] theorem State.putByte_prefetch (s : State) (pa : BitVec 32) (v : Byte) : (s.putByte pa v).prefetch = s.prefetch := by
  unfold State.putByte
  split <;> rfl
@[simp] theorem State.putByte_env (s : State) (pa : BitVec 32) (v : Byte) : (s.putByte pa v).env = s.env := by
  unfold State.putByte
  split <;> rfl
@[simp] theorem State.putByte_insn (s : State) (pa : BitVec 32) (v : Byte) : (s.putByte pa v).insn = s.insn := by
  unfold State.putByte
  split <;> rfl

@[simp] theorem endStep_gpr (s : State) : (endStep s).gpr = s.gpr := rfl
@[simp] theorem endStep_eip (s : State) : (endStep s).eip = s.eip := rfl
@[simp] theorem endStep_flags (s : State) : (endStep s).flags = s.flags := rfl
@[simp] theorem endStep_cpl (s : State) : (endStep s).cpl = s.cpl := rfl
@[simp] theorem endStep_segs (s : State) : (endStep s).segs = s.segs := rfl
@[simp] theorem endStep_gdtr (s : State) : (endStep s).gdtr = s.gdtr := rfl
@[simp] theorem endStep_idtr (s : State) : (endStep s).idtr = s.idtr := rfl
@[simp] theorem endStep_ldtr (s : State) : (endStep s).ldtr = s.ldtr := rfl
@[simp] theorem endStep_tr (s : State) : (endStep s).tr = s.tr := rfl
@[simp] theorem endStep_cr0 (s : State) : (endStep s).cr0 = s.cr0 := rfl
@[simp] theorem endStep_cr2 (s : State) : (endStep s).cr2 = s.cr2 := rfl
@[simp] theorem endStep_pdbr (s : State) : (endStep s).pdbr = s.pdbr := rfl
@[simp] theorem endStep_dr0 (s : State) : (endStep s).dr0 = s.dr0 := rfl
@[simp] theorem endStep_dr1 (s : State) : (endStep s).dr1 = s.dr1 := rfl
@[simp] theorem endStep_dr2 (s : State) : (endStep s).dr2 = s.dr2 := rfl
@[simp] theorem endStep_dr3 (s : State) : (endStep s).dr3 = s.dr3 := rfl
@[simp] theorem endStep_dr6 (s : State) : (endStep s).dr6 = s.dr6 := rfl
@[simp] theorem endStep_dr7 (s : State) : (endStep s).dr7 = s.dr7 := rfl
@[simp] theorem endStep_tr6 (s : State) : (endStep s).tr6 = s.tr6 := rfl
@[simp] theorem endStep_tr7 (s : State) : (endStep s).tr7 = s.tr7 := rfl
@[simp] theorem endStep_tlb (s : State) : (endStep s).tlb = s.tlb := rfl
@[simp] theorem endStep_tlbWritten (s : State) : (endStep s).tlbWritten = s.tlbWritten := rfl
@[simp] theorem endStep_nmiInService (s : State) : (endStep s).nmiInService = s.nmiInService := rfl
@[simp] theorem endStep_pendingNmi (s : State) : (endStep s).pendingNmi = s.pendingNmi := rfl
@[simp] theorem endStep_intShadow (s : State) : (endStep s).intShadow = s.intShadow := rfl
@[simp] theorem endStep_stiShadow (s : State) : (endStep s).stiShadow = s.stiShadow := rfl
@[simp] theorem endStep_halted (s : State) : (endStep s).halted = s.halted := rfl
@[simp] theorem endStep_inShutdown (s : State) : (endStep s).inShutdown = s.inShutdown := rfl
@[simp] theorem endStep_pendingDbg (s : State) : (endStep s).pendingDbg = s.pendingDbg := rfl
@[simp] theorem endStep_lateDbg (s : State) : (endStep s).lateDbg = s.lateDbg := rfl
@[simp] theorem endStep_delivering (s : State) : (endStep s).delivering = s.delivering := rfl
@[simp] theorem endStep_idtStale (s : State) : (endStep s).idtStale = s.idtStale := rfl
@[simp] theorem endStep_prefetch (s : State) : (endStep s).prefetch = s.prefetch := rfl
@[simp] theorem endStep_mem (s : State) : (endStep s).mem = s.mem := rfl
@[simp] theorem endStep_env (s : State) : (endStep s).env = s.env := rfl
@[simp] theorem endStep_insn (s : State) : (endStep s).insn = Insn.empty := rfl

@[simp] theorem shutDown_gpr (s : State) : (shutDown s).gpr = s.gpr := rfl
@[simp] theorem shutDown_eip (s : State) : (shutDown s).eip = s.eip := rfl
@[simp] theorem shutDown_flags (s : State) : (shutDown s).flags = s.flags := rfl
@[simp] theorem shutDown_cpl (s : State) : (shutDown s).cpl = s.cpl := rfl
@[simp] theorem shutDown_segs (s : State) : (shutDown s).segs = s.segs := rfl
@[simp] theorem shutDown_gdtr (s : State) : (shutDown s).gdtr = s.gdtr := rfl
@[simp] theorem shutDown_idtr (s : State) : (shutDown s).idtr = s.idtr := rfl
@[simp] theorem shutDown_ldtr (s : State) : (shutDown s).ldtr = s.ldtr := rfl
@[simp] theorem shutDown_tr (s : State) : (shutDown s).tr = s.tr := rfl
@[simp] theorem shutDown_cr0 (s : State) : (shutDown s).cr0 = s.cr0 := rfl
@[simp] theorem shutDown_cr2 (s : State) : (shutDown s).cr2 = s.cr2 := rfl
@[simp] theorem shutDown_pdbr (s : State) : (shutDown s).pdbr = s.pdbr := rfl
@[simp] theorem shutDown_dr0 (s : State) : (shutDown s).dr0 = s.dr0 := rfl
@[simp] theorem shutDown_dr1 (s : State) : (shutDown s).dr1 = s.dr1 := rfl
@[simp] theorem shutDown_dr2 (s : State) : (shutDown s).dr2 = s.dr2 := rfl
@[simp] theorem shutDown_dr3 (s : State) : (shutDown s).dr3 = s.dr3 := rfl
@[simp] theorem shutDown_dr6 (s : State) : (shutDown s).dr6 = s.dr6 := rfl
@[simp] theorem shutDown_dr7 (s : State) : (shutDown s).dr7 = s.dr7 := rfl
@[simp] theorem shutDown_tr6 (s : State) : (shutDown s).tr6 = s.tr6 := rfl
@[simp] theorem shutDown_tr7 (s : State) : (shutDown s).tr7 = s.tr7 := rfl
@[simp] theorem shutDown_tlb (s : State) : (shutDown s).tlb = s.tlb := rfl
@[simp] theorem shutDown_tlbWritten (s : State) : (shutDown s).tlbWritten = s.tlbWritten := rfl
@[simp] theorem shutDown_nmiInService (s : State) : (shutDown s).nmiInService = s.nmiInService := rfl
@[simp] theorem shutDown_pendingNmi (s : State) : (shutDown s).pendingNmi = s.pendingNmi := rfl
@[simp] theorem shutDown_intShadow (s : State) : (shutDown s).intShadow = s.intShadow := rfl
@[simp] theorem shutDown_stiShadow (s : State) : (shutDown s).stiShadow = s.stiShadow := rfl
@[simp] theorem shutDown_halted (s : State) : (shutDown s).halted = s.halted := rfl
@[simp] theorem shutDown_pendingDbg (s : State) : (shutDown s).pendingDbg = s.pendingDbg := rfl
@[simp] theorem shutDown_lateDbg (s : State) : (shutDown s).lateDbg = s.lateDbg := rfl
@[simp] theorem shutDown_delivering (s : State) : (shutDown s).delivering = s.delivering := rfl
@[simp] theorem shutDown_idtStale (s : State) : (shutDown s).idtStale = s.idtStale := rfl
@[simp] theorem shutDown_prefetch (s : State) : (shutDown s).prefetch = s.prefetch := rfl
@[simp] theorem shutDown_mem (s : State) : (shutDown s).mem = s.mem := rfl
@[simp] theorem shutDown_env (s : State) : (shutDown s).env = s.env := rfl
@[simp] theorem shutDown_insn (s : State) : (shutDown s).insn = Insn.empty := rfl

@[simp] theorem flushTlb_gpr (s : State) : (flushTlb s).gpr = s.gpr := rfl
@[simp] theorem flushTlb_eip (s : State) : (flushTlb s).eip = s.eip := rfl
@[simp] theorem flushTlb_flags (s : State) : (flushTlb s).flags = s.flags := rfl
@[simp] theorem flushTlb_cpl (s : State) : (flushTlb s).cpl = s.cpl := rfl
@[simp] theorem flushTlb_segs (s : State) : (flushTlb s).segs = s.segs := rfl
@[simp] theorem flushTlb_gdtr (s : State) : (flushTlb s).gdtr = s.gdtr := rfl
@[simp] theorem flushTlb_idtr (s : State) : (flushTlb s).idtr = s.idtr := rfl
@[simp] theorem flushTlb_ldtr (s : State) : (flushTlb s).ldtr = s.ldtr := rfl
@[simp] theorem flushTlb_tr (s : State) : (flushTlb s).tr = s.tr := rfl
@[simp] theorem flushTlb_cr0 (s : State) : (flushTlb s).cr0 = s.cr0 := rfl
@[simp] theorem flushTlb_cr2 (s : State) : (flushTlb s).cr2 = s.cr2 := rfl
@[simp] theorem flushTlb_pdbr (s : State) : (flushTlb s).pdbr = s.pdbr := rfl
@[simp] theorem flushTlb_dr0 (s : State) : (flushTlb s).dr0 = s.dr0 := rfl
@[simp] theorem flushTlb_dr1 (s : State) : (flushTlb s).dr1 = s.dr1 := rfl
@[simp] theorem flushTlb_dr2 (s : State) : (flushTlb s).dr2 = s.dr2 := rfl
@[simp] theorem flushTlb_dr3 (s : State) : (flushTlb s).dr3 = s.dr3 := rfl
@[simp] theorem flushTlb_dr6 (s : State) : (flushTlb s).dr6 = s.dr6 := rfl
@[simp] theorem flushTlb_dr7 (s : State) : (flushTlb s).dr7 = s.dr7 := rfl
@[simp] theorem flushTlb_tr6 (s : State) : (flushTlb s).tr6 = s.tr6 := rfl
@[simp] theorem flushTlb_tr7 (s : State) : (flushTlb s).tr7 = s.tr7 := rfl
@[simp] theorem flushTlb_tlbWritten (s : State) : (flushTlb s).tlbWritten = s.tlbWritten := rfl
@[simp] theorem flushTlb_nmiInService (s : State) : (flushTlb s).nmiInService = s.nmiInService := rfl
@[simp] theorem flushTlb_pendingNmi (s : State) : (flushTlb s).pendingNmi = s.pendingNmi := rfl
@[simp] theorem flushTlb_intShadow (s : State) : (flushTlb s).intShadow = s.intShadow := rfl
@[simp] theorem flushTlb_stiShadow (s : State) : (flushTlb s).stiShadow = s.stiShadow := rfl
@[simp] theorem flushTlb_halted (s : State) : (flushTlb s).halted = s.halted := rfl
@[simp] theorem flushTlb_inShutdown (s : State) : (flushTlb s).inShutdown = s.inShutdown := rfl
@[simp] theorem flushTlb_pendingDbg (s : State) : (flushTlb s).pendingDbg = s.pendingDbg := rfl
@[simp] theorem flushTlb_lateDbg (s : State) : (flushTlb s).lateDbg = s.lateDbg := rfl
@[simp] theorem flushTlb_delivering (s : State) : (flushTlb s).delivering = s.delivering := rfl
@[simp] theorem flushTlb_idtStale (s : State) : (flushTlb s).idtStale = s.idtStale := rfl
@[simp] theorem flushTlb_prefetch (s : State) : (flushTlb s).prefetch = s.prefetch := rfl
@[simp] theorem flushTlb_mem (s : State) : (flushTlb s).mem = s.mem := rfl
@[simp] theorem flushTlb_env (s : State) : (flushTlb s).env = s.env := rfl
@[simp] theorem flushTlb_insn (s : State) : (flushTlb s).insn = s.insn := rfl

@[simp] theorem fillTlb_gpr (e : TlbEntry) (s : State) : (fillTlb e s).gpr = s.gpr := rfl
@[simp] theorem fillTlb_eip (e : TlbEntry) (s : State) : (fillTlb e s).eip = s.eip := rfl
@[simp] theorem fillTlb_flags (e : TlbEntry) (s : State) : (fillTlb e s).flags = s.flags := rfl
@[simp] theorem fillTlb_cpl (e : TlbEntry) (s : State) : (fillTlb e s).cpl = s.cpl := rfl
@[simp] theorem fillTlb_segs (e : TlbEntry) (s : State) : (fillTlb e s).segs = s.segs := rfl
@[simp] theorem fillTlb_gdtr (e : TlbEntry) (s : State) : (fillTlb e s).gdtr = s.gdtr := rfl
@[simp] theorem fillTlb_idtr (e : TlbEntry) (s : State) : (fillTlb e s).idtr = s.idtr := rfl
@[simp] theorem fillTlb_ldtr (e : TlbEntry) (s : State) : (fillTlb e s).ldtr = s.ldtr := rfl
@[simp] theorem fillTlb_tr (e : TlbEntry) (s : State) : (fillTlb e s).tr = s.tr := rfl
@[simp] theorem fillTlb_cr0 (e : TlbEntry) (s : State) : (fillTlb e s).cr0 = s.cr0 := rfl
@[simp] theorem fillTlb_cr2 (e : TlbEntry) (s : State) : (fillTlb e s).cr2 = s.cr2 := rfl
@[simp] theorem fillTlb_pdbr (e : TlbEntry) (s : State) : (fillTlb e s).pdbr = s.pdbr := rfl
@[simp] theorem fillTlb_dr0 (e : TlbEntry) (s : State) : (fillTlb e s).dr0 = s.dr0 := rfl
@[simp] theorem fillTlb_dr1 (e : TlbEntry) (s : State) : (fillTlb e s).dr1 = s.dr1 := rfl
@[simp] theorem fillTlb_dr2 (e : TlbEntry) (s : State) : (fillTlb e s).dr2 = s.dr2 := rfl
@[simp] theorem fillTlb_dr3 (e : TlbEntry) (s : State) : (fillTlb e s).dr3 = s.dr3 := rfl
@[simp] theorem fillTlb_dr6 (e : TlbEntry) (s : State) : (fillTlb e s).dr6 = s.dr6 := rfl
@[simp] theorem fillTlb_dr7 (e : TlbEntry) (s : State) : (fillTlb e s).dr7 = s.dr7 := rfl
@[simp] theorem fillTlb_tr6 (e : TlbEntry) (s : State) : (fillTlb e s).tr6 = s.tr6 := rfl
@[simp] theorem fillTlb_tr7 (e : TlbEntry) (s : State) : (fillTlb e s).tr7 = s.tr7 := rfl
@[simp] theorem fillTlb_tlbWritten (e : TlbEntry) (s : State) : (fillTlb e s).tlbWritten = s.tlbWritten := rfl
@[simp] theorem fillTlb_nmiInService (e : TlbEntry) (s : State) : (fillTlb e s).nmiInService = s.nmiInService := rfl
@[simp] theorem fillTlb_pendingNmi (e : TlbEntry) (s : State) : (fillTlb e s).pendingNmi = s.pendingNmi := rfl
@[simp] theorem fillTlb_intShadow (e : TlbEntry) (s : State) : (fillTlb e s).intShadow = s.intShadow := rfl
@[simp] theorem fillTlb_stiShadow (e : TlbEntry) (s : State) : (fillTlb e s).stiShadow = s.stiShadow := rfl
@[simp] theorem fillTlb_halted (e : TlbEntry) (s : State) : (fillTlb e s).halted = s.halted := rfl
@[simp] theorem fillTlb_inShutdown (e : TlbEntry) (s : State) : (fillTlb e s).inShutdown = s.inShutdown := rfl
@[simp] theorem fillTlb_pendingDbg (e : TlbEntry) (s : State) : (fillTlb e s).pendingDbg = s.pendingDbg := rfl
@[simp] theorem fillTlb_lateDbg (e : TlbEntry) (s : State) : (fillTlb e s).lateDbg = s.lateDbg := rfl
@[simp] theorem fillTlb_delivering (e : TlbEntry) (s : State) : (fillTlb e s).delivering = s.delivering := rfl
@[simp] theorem fillTlb_idtStale (e : TlbEntry) (s : State) : (fillTlb e s).idtStale = s.idtStale := rfl
@[simp] theorem fillTlb_prefetch (e : TlbEntry) (s : State) :
    (fillTlb e s).prefetch = s.replaced (s.tlb.filter fun o => o.v && o.page == e.page) := rfl
@[simp] theorem replaced_pe (s : State) (l : List TlbEntry) : (s.replaced l).pe = s.prefetch.pe := rfl
@[simp] theorem replaced_resized (s : State) (l : List TlbEntry) : (s.replaced l).resized = s.prefetch.resized := rfl
@[simp] theorem replaced_pg (s : State) (l : List TlbEntry) : (s.replaced l).pg = s.prefetch.pg := rfl
@[simp] theorem replaced_maps (s : State) (l : List TlbEntry) : (s.replaced l).maps = s.prefetch.maps := rfl
@[simp] theorem replaced_stored (s : State) (l : List TlbEntry) : (s.replaced l).stored = s.prefetch.stored := rfl
@[simp] theorem fillTlb_mem (e : TlbEntry) (s : State) : (fillTlb e s).mem = s.mem := rfl
@[simp] theorem fillTlb_env (e : TlbEntry) (s : State) : (fillTlb e s).env = s.env := rfl
@[simp] theorem fillTlb_insn (e : TlbEntry) (s : State) : (fillTlb e s).insn = s.insn := rfl

@[simp] theorem writeCr0_gpr (c : Cr0) (s : State) : (writeCr0 c s).gpr = s.gpr := rfl
@[simp] theorem writeCr0_eip (c : Cr0) (s : State) : (writeCr0 c s).eip = s.eip := rfl
@[simp] theorem writeCr0_flags (c : Cr0) (s : State) : (writeCr0 c s).flags = s.flags := rfl
@[simp] theorem writeCr0_gdtr (c : Cr0) (s : State) : (writeCr0 c s).gdtr = s.gdtr := rfl
@[simp] theorem writeCr0_idtr (c : Cr0) (s : State) : (writeCr0 c s).idtr = s.idtr := rfl
@[simp] theorem writeCr0_ldtr (c : Cr0) (s : State) : (writeCr0 c s).ldtr = s.ldtr := rfl
@[simp] theorem writeCr0_tr (c : Cr0) (s : State) : (writeCr0 c s).tr = s.tr := rfl
@[simp] theorem writeCr0_cr2 (c : Cr0) (s : State) : (writeCr0 c s).cr2 = s.cr2 := rfl
@[simp] theorem writeCr0_pdbr (c : Cr0) (s : State) : (writeCr0 c s).pdbr = s.pdbr := rfl
@[simp] theorem writeCr0_dr0 (c : Cr0) (s : State) : (writeCr0 c s).dr0 = s.dr0 := rfl
@[simp] theorem writeCr0_dr1 (c : Cr0) (s : State) : (writeCr0 c s).dr1 = s.dr1 := rfl
@[simp] theorem writeCr0_dr2 (c : Cr0) (s : State) : (writeCr0 c s).dr2 = s.dr2 := rfl
@[simp] theorem writeCr0_dr3 (c : Cr0) (s : State) : (writeCr0 c s).dr3 = s.dr3 := rfl
@[simp] theorem writeCr0_dr6 (c : Cr0) (s : State) : (writeCr0 c s).dr6 = s.dr6 := rfl
@[simp] theorem writeCr0_dr7 (c : Cr0) (s : State) : (writeCr0 c s).dr7 = s.dr7 := rfl
@[simp] theorem writeCr0_tr6 (c : Cr0) (s : State) : (writeCr0 c s).tr6 = s.tr6 := rfl
@[simp] theorem writeCr0_tr7 (c : Cr0) (s : State) : (writeCr0 c s).tr7 = s.tr7 := rfl
@[simp] theorem writeCr0_tlb (c : Cr0) (s : State) : (writeCr0 c s).tlb = s.tlb := rfl
@[simp] theorem writeCr0_tlbWritten (c : Cr0) (s : State) : (writeCr0 c s).tlbWritten = s.tlbWritten := rfl
@[simp] theorem writeCr0_nmiInService (c : Cr0) (s : State) : (writeCr0 c s).nmiInService = s.nmiInService := rfl
@[simp] theorem writeCr0_pendingNmi (c : Cr0) (s : State) : (writeCr0 c s).pendingNmi = s.pendingNmi := rfl
@[simp] theorem writeCr0_intShadow (c : Cr0) (s : State) : (writeCr0 c s).intShadow = s.intShadow := rfl
@[simp] theorem writeCr0_stiShadow (c : Cr0) (s : State) : (writeCr0 c s).stiShadow = s.stiShadow := rfl
@[simp] theorem writeCr0_halted (c : Cr0) (s : State) : (writeCr0 c s).halted = s.halted := rfl
@[simp] theorem writeCr0_inShutdown (c : Cr0) (s : State) : (writeCr0 c s).inShutdown = s.inShutdown := rfl
@[simp] theorem writeCr0_pendingDbg (c : Cr0) (s : State) : (writeCr0 c s).pendingDbg = s.pendingDbg := rfl
@[simp] theorem writeCr0_lateDbg (c : Cr0) (s : State) : (writeCr0 c s).lateDbg = s.lateDbg := rfl
@[simp] theorem writeCr0_delivering (c : Cr0) (s : State) : (writeCr0 c s).delivering = s.delivering := rfl
@[simp] theorem writeCr0_mem (c : Cr0) (s : State) : (writeCr0 c s).mem = s.mem := rfl
@[simp] theorem writeCr0_env (c : Cr0) (s : State) : (writeCr0 c s).env = s.env := rfl
@[simp] theorem writeCr0_insn (c : Cr0) (s : State) : (writeCr0 c s).insn = s.insn := rfl

@[simp] theorem writeCr3_gpr (v : BitVec 32) (s : State) : (writeCr3 v s).gpr = s.gpr := rfl
@[simp] theorem writeCr3_eip (v : BitVec 32) (s : State) : (writeCr3 v s).eip = s.eip := rfl
@[simp] theorem writeCr3_flags (v : BitVec 32) (s : State) : (writeCr3 v s).flags = s.flags := rfl
@[simp] theorem writeCr3_cpl (v : BitVec 32) (s : State) : (writeCr3 v s).cpl = s.cpl := rfl
@[simp] theorem writeCr3_segs (v : BitVec 32) (s : State) : (writeCr3 v s).segs = s.segs := rfl
@[simp] theorem writeCr3_gdtr (v : BitVec 32) (s : State) : (writeCr3 v s).gdtr = s.gdtr := rfl
@[simp] theorem writeCr3_idtr (v : BitVec 32) (s : State) : (writeCr3 v s).idtr = s.idtr := rfl
@[simp] theorem writeCr3_ldtr (v : BitVec 32) (s : State) : (writeCr3 v s).ldtr = s.ldtr := rfl
@[simp] theorem writeCr3_tr (v : BitVec 32) (s : State) : (writeCr3 v s).tr = s.tr := rfl
@[simp] theorem writeCr3_cr0 (v : BitVec 32) (s : State) : (writeCr3 v s).cr0 = s.cr0 := rfl
@[simp] theorem writeCr3_cr2 (v : BitVec 32) (s : State) : (writeCr3 v s).cr2 = s.cr2 := rfl
@[simp] theorem writeCr3_dr0 (v : BitVec 32) (s : State) : (writeCr3 v s).dr0 = s.dr0 := rfl
@[simp] theorem writeCr3_dr1 (v : BitVec 32) (s : State) : (writeCr3 v s).dr1 = s.dr1 := rfl
@[simp] theorem writeCr3_dr2 (v : BitVec 32) (s : State) : (writeCr3 v s).dr2 = s.dr2 := rfl
@[simp] theorem writeCr3_dr3 (v : BitVec 32) (s : State) : (writeCr3 v s).dr3 = s.dr3 := rfl
@[simp] theorem writeCr3_dr6 (v : BitVec 32) (s : State) : (writeCr3 v s).dr6 = s.dr6 := rfl
@[simp] theorem writeCr3_dr7 (v : BitVec 32) (s : State) : (writeCr3 v s).dr7 = s.dr7 := rfl
@[simp] theorem writeCr3_tr6 (v : BitVec 32) (s : State) : (writeCr3 v s).tr6 = s.tr6 := rfl
@[simp] theorem writeCr3_tr7 (v : BitVec 32) (s : State) : (writeCr3 v s).tr7 = s.tr7 := rfl
@[simp] theorem writeCr3_tlbWritten (v : BitVec 32) (s : State) : (writeCr3 v s).tlbWritten = s.tlbWritten := rfl
@[simp] theorem writeCr3_nmiInService (v : BitVec 32) (s : State) : (writeCr3 v s).nmiInService = s.nmiInService := rfl
@[simp] theorem writeCr3_pendingNmi (v : BitVec 32) (s : State) : (writeCr3 v s).pendingNmi = s.pendingNmi := rfl
@[simp] theorem writeCr3_intShadow (v : BitVec 32) (s : State) : (writeCr3 v s).intShadow = s.intShadow := rfl
@[simp] theorem writeCr3_stiShadow (v : BitVec 32) (s : State) : (writeCr3 v s).stiShadow = s.stiShadow := rfl
@[simp] theorem writeCr3_halted (v : BitVec 32) (s : State) : (writeCr3 v s).halted = s.halted := rfl
@[simp] theorem writeCr3_inShutdown (v : BitVec 32) (s : State) : (writeCr3 v s).inShutdown = s.inShutdown := rfl
@[simp] theorem writeCr3_pendingDbg (v : BitVec 32) (s : State) : (writeCr3 v s).pendingDbg = s.pendingDbg := rfl
@[simp] theorem writeCr3_lateDbg (v : BitVec 32) (s : State) : (writeCr3 v s).lateDbg = s.lateDbg := rfl
@[simp] theorem writeCr3_delivering (v : BitVec 32) (s : State) : (writeCr3 v s).delivering = s.delivering := rfl
@[simp] theorem writeCr3_idtStale (v : BitVec 32) (s : State) : (writeCr3 v s).idtStale = s.idtStale := rfl
@[simp] theorem writeCr3_mem (v : BitVec 32) (s : State) : (writeCr3 v s).mem = s.mem := rfl
@[simp] theorem writeCr3_env (v : BitVec 32) (s : State) : (writeCr3 v s).env = s.env := rfl
@[simp] theorem writeCr3_insn (v : BitVec 32) (s : State) : (writeCr3 v s).insn = s.insn := rfl

@[simp] theorem dropTask_gpr (s : State) : (dropTask s).gpr = s.gpr := rfl
@[simp] theorem dropTask_eip (s : State) : (dropTask s).eip = s.eip := rfl
@[simp] theorem dropTask_flags (s : State) : (dropTask s).flags = s.flags := rfl
@[simp] theorem dropTask_cpl (s : State) : (dropTask s).cpl = s.cpl := rfl
@[simp] theorem dropTask_gdtr (s : State) : (dropTask s).gdtr = s.gdtr := rfl
@[simp] theorem dropTask_idtr (s : State) : (dropTask s).idtr = s.idtr := rfl
@[simp] theorem dropTask_tr (s : State) : (dropTask s).tr = s.tr := rfl
@[simp] theorem dropTask_cr0 (s : State) : (dropTask s).cr0 = s.cr0 := rfl
@[simp] theorem dropTask_cr2 (s : State) : (dropTask s).cr2 = s.cr2 := rfl
@[simp] theorem dropTask_pdbr (s : State) : (dropTask s).pdbr = s.pdbr := rfl
@[simp] theorem dropTask_dr0 (s : State) : (dropTask s).dr0 = s.dr0 := rfl
@[simp] theorem dropTask_dr1 (s : State) : (dropTask s).dr1 = s.dr1 := rfl
@[simp] theorem dropTask_dr2 (s : State) : (dropTask s).dr2 = s.dr2 := rfl
@[simp] theorem dropTask_dr3 (s : State) : (dropTask s).dr3 = s.dr3 := rfl
@[simp] theorem dropTask_dr6 (s : State) : (dropTask s).dr6 = s.dr6 := rfl
@[simp] theorem dropTask_dr7 (s : State) : (dropTask s).dr7 = s.dr7 := rfl
@[simp] theorem dropTask_tr6 (s : State) : (dropTask s).tr6 = s.tr6 := rfl
@[simp] theorem dropTask_tr7 (s : State) : (dropTask s).tr7 = s.tr7 := rfl
@[simp] theorem dropTask_tlb (s : State) : (dropTask s).tlb = s.tlb := rfl
@[simp] theorem dropTask_tlbWritten (s : State) : (dropTask s).tlbWritten = s.tlbWritten := rfl
@[simp] theorem dropTask_nmiInService (s : State) : (dropTask s).nmiInService = s.nmiInService := rfl
@[simp] theorem dropTask_pendingNmi (s : State) : (dropTask s).pendingNmi = s.pendingNmi := rfl
@[simp] theorem dropTask_intShadow (s : State) : (dropTask s).intShadow = s.intShadow := rfl
@[simp] theorem dropTask_stiShadow (s : State) : (dropTask s).stiShadow = s.stiShadow := rfl
@[simp] theorem dropTask_halted (s : State) : (dropTask s).halted = s.halted := rfl
@[simp] theorem dropTask_inShutdown (s : State) : (dropTask s).inShutdown = s.inShutdown := rfl
@[simp] theorem dropTask_pendingDbg (s : State) : (dropTask s).pendingDbg = s.pendingDbg := rfl
@[simp] theorem dropTask_lateDbg (s : State) : (dropTask s).lateDbg = s.lateDbg := rfl
@[simp] theorem dropTask_delivering (s : State) : (dropTask s).delivering = s.delivering := rfl
@[simp] theorem dropTask_idtStale (s : State) : (dropTask s).idtStale = s.idtStale := rfl
@[simp] theorem dropTask_prefetch (s : State) : (dropTask s).prefetch = s.prefetch := rfl
@[simp] theorem dropTask_mem (s : State) : (dropTask s).mem = s.mem := rfl
@[simp] theorem dropTask_env (s : State) : (dropTask s).env = s.env := rfl
@[simp] theorem dropTask_insn (s : State) : (dropTask s).insn = s.insn := rfl

@[simp] theorem commitSwitch_gpr (sel : BitVec 16) (d : Desc) (s : State) : (commitSwitch sel d s).gpr = s.gpr := rfl
@[simp] theorem commitSwitch_eip (sel : BitVec 16) (d : Desc) (s : State) : (commitSwitch sel d s).eip = s.eip := rfl
@[simp] theorem commitSwitch_flags (sel : BitVec 16) (d : Desc) (s : State) : (commitSwitch sel d s).flags = s.flags := rfl
@[simp] theorem commitSwitch_cpl (sel : BitVec 16) (d : Desc) (s : State) : (commitSwitch sel d s).cpl = s.cpl := rfl
@[simp] theorem commitSwitch_segs (sel : BitVec 16) (d : Desc) (s : State) : (commitSwitch sel d s).segs = s.segs := rfl
@[simp] theorem commitSwitch_gdtr (sel : BitVec 16) (d : Desc) (s : State) : (commitSwitch sel d s).gdtr = s.gdtr := rfl
@[simp] theorem commitSwitch_idtr (sel : BitVec 16) (d : Desc) (s : State) : (commitSwitch sel d s).idtr = s.idtr := rfl
@[simp] theorem commitSwitch_ldtr (sel : BitVec 16) (d : Desc) (s : State) : (commitSwitch sel d s).ldtr = s.ldtr := rfl
@[simp] theorem commitSwitch_cr2 (sel : BitVec 16) (d : Desc) (s : State) : (commitSwitch sel d s).cr2 = s.cr2 := rfl
@[simp] theorem commitSwitch_pdbr (sel : BitVec 16) (d : Desc) (s : State) : (commitSwitch sel d s).pdbr = s.pdbr := rfl
@[simp] theorem commitSwitch_dr0 (sel : BitVec 16) (d : Desc) (s : State) : (commitSwitch sel d s).dr0 = s.dr0 := rfl
@[simp] theorem commitSwitch_dr1 (sel : BitVec 16) (d : Desc) (s : State) : (commitSwitch sel d s).dr1 = s.dr1 := rfl
@[simp] theorem commitSwitch_dr2 (sel : BitVec 16) (d : Desc) (s : State) : (commitSwitch sel d s).dr2 = s.dr2 := rfl
@[simp] theorem commitSwitch_dr3 (sel : BitVec 16) (d : Desc) (s : State) : (commitSwitch sel d s).dr3 = s.dr3 := rfl
@[simp] theorem commitSwitch_dr6 (sel : BitVec 16) (d : Desc) (s : State) : (commitSwitch sel d s).dr6 = s.dr6 := rfl
@[simp] theorem commitSwitch_tr6 (sel : BitVec 16) (d : Desc) (s : State) : (commitSwitch sel d s).tr6 = s.tr6 := rfl
@[simp] theorem commitSwitch_tr7 (sel : BitVec 16) (d : Desc) (s : State) : (commitSwitch sel d s).tr7 = s.tr7 := rfl
@[simp] theorem commitSwitch_tlb (sel : BitVec 16) (d : Desc) (s : State) : (commitSwitch sel d s).tlb = s.tlb := rfl
@[simp] theorem commitSwitch_tlbWritten (sel : BitVec 16) (d : Desc) (s : State) : (commitSwitch sel d s).tlbWritten = s.tlbWritten := rfl
@[simp] theorem commitSwitch_nmiInService (sel : BitVec 16) (d : Desc) (s : State) : (commitSwitch sel d s).nmiInService = s.nmiInService := rfl
@[simp] theorem commitSwitch_pendingNmi (sel : BitVec 16) (d : Desc) (s : State) : (commitSwitch sel d s).pendingNmi = s.pendingNmi := rfl
@[simp] theorem commitSwitch_intShadow (sel : BitVec 16) (d : Desc) (s : State) : (commitSwitch sel d s).intShadow = s.intShadow := rfl
@[simp] theorem commitSwitch_stiShadow (sel : BitVec 16) (d : Desc) (s : State) : (commitSwitch sel d s).stiShadow = s.stiShadow := rfl
@[simp] theorem commitSwitch_halted (sel : BitVec 16) (d : Desc) (s : State) : (commitSwitch sel d s).halted = s.halted := rfl
@[simp] theorem commitSwitch_inShutdown (sel : BitVec 16) (d : Desc) (s : State) : (commitSwitch sel d s).inShutdown = s.inShutdown := rfl
@[simp] theorem commitSwitch_pendingDbg (sel : BitVec 16) (d : Desc) (s : State) : (commitSwitch sel d s).pendingDbg = s.pendingDbg := rfl
@[simp] theorem commitSwitch_lateDbg (sel : BitVec 16) (d : Desc) (s : State) : (commitSwitch sel d s).lateDbg = s.lateDbg := rfl
@[simp] theorem commitSwitch_delivering (sel : BitVec 16) (d : Desc) (s : State) : (commitSwitch sel d s).delivering = s.delivering := rfl
@[simp] theorem commitSwitch_idtStale (sel : BitVec 16) (d : Desc) (s : State) : (commitSwitch sel d s).idtStale = s.idtStale := rfl
@[simp] theorem commitSwitch_prefetch (sel : BitVec 16) (d : Desc) (s : State) : (commitSwitch sel d s).prefetch = s.prefetch := rfl
@[simp] theorem commitSwitch_mem (sel : BitVec 16) (d : Desc) (s : State) : (commitSwitch sel d s).mem = s.mem := rfl
@[simp] theorem commitSwitch_env (sel : BitVec 16) (d : Desc) (s : State) : (commitSwitch sel d s).env = s.env := rfl
@[simp] theorem commitSwitch_insn (sel : BitVec 16) (d : Desc) (s : State) : (commitSwitch sel d s).insn = s.insn := rfl

@[simp] theorem dropSegs_gpr (pl : BitVec 2) (s : State) : (dropSegs pl s).gpr = s.gpr := rfl
@[simp] theorem dropSegs_eip (pl : BitVec 2) (s : State) : (dropSegs pl s).eip = s.eip := rfl
@[simp] theorem dropSegs_flags (pl : BitVec 2) (s : State) : (dropSegs pl s).flags = s.flags := rfl
@[simp] theorem dropSegs_cpl (pl : BitVec 2) (s : State) : (dropSegs pl s).cpl = s.cpl := rfl
@[simp] theorem dropSegs_gdtr (pl : BitVec 2) (s : State) : (dropSegs pl s).gdtr = s.gdtr := rfl
@[simp] theorem dropSegs_idtr (pl : BitVec 2) (s : State) : (dropSegs pl s).idtr = s.idtr := rfl
@[simp] theorem dropSegs_ldtr (pl : BitVec 2) (s : State) : (dropSegs pl s).ldtr = s.ldtr := rfl
@[simp] theorem dropSegs_tr (pl : BitVec 2) (s : State) : (dropSegs pl s).tr = s.tr := rfl
@[simp] theorem dropSegs_cr0 (pl : BitVec 2) (s : State) : (dropSegs pl s).cr0 = s.cr0 := rfl
@[simp] theorem dropSegs_cr2 (pl : BitVec 2) (s : State) : (dropSegs pl s).cr2 = s.cr2 := rfl
@[simp] theorem dropSegs_pdbr (pl : BitVec 2) (s : State) : (dropSegs pl s).pdbr = s.pdbr := rfl
@[simp] theorem dropSegs_dr0 (pl : BitVec 2) (s : State) : (dropSegs pl s).dr0 = s.dr0 := rfl
@[simp] theorem dropSegs_dr1 (pl : BitVec 2) (s : State) : (dropSegs pl s).dr1 = s.dr1 := rfl
@[simp] theorem dropSegs_dr2 (pl : BitVec 2) (s : State) : (dropSegs pl s).dr2 = s.dr2 := rfl
@[simp] theorem dropSegs_dr3 (pl : BitVec 2) (s : State) : (dropSegs pl s).dr3 = s.dr3 := rfl
@[simp] theorem dropSegs_dr6 (pl : BitVec 2) (s : State) : (dropSegs pl s).dr6 = s.dr6 := rfl
@[simp] theorem dropSegs_dr7 (pl : BitVec 2) (s : State) : (dropSegs pl s).dr7 = s.dr7 := rfl
@[simp] theorem dropSegs_tr6 (pl : BitVec 2) (s : State) : (dropSegs pl s).tr6 = s.tr6 := rfl
@[simp] theorem dropSegs_tr7 (pl : BitVec 2) (s : State) : (dropSegs pl s).tr7 = s.tr7 := rfl
@[simp] theorem dropSegs_tlb (pl : BitVec 2) (s : State) : (dropSegs pl s).tlb = s.tlb := rfl
@[simp] theorem dropSegs_tlbWritten (pl : BitVec 2) (s : State) : (dropSegs pl s).tlbWritten = s.tlbWritten := rfl
@[simp] theorem dropSegs_nmiInService (pl : BitVec 2) (s : State) : (dropSegs pl s).nmiInService = s.nmiInService := rfl
@[simp] theorem dropSegs_pendingNmi (pl : BitVec 2) (s : State) : (dropSegs pl s).pendingNmi = s.pendingNmi := rfl
@[simp] theorem dropSegs_intShadow (pl : BitVec 2) (s : State) : (dropSegs pl s).intShadow = s.intShadow := rfl
@[simp] theorem dropSegs_stiShadow (pl : BitVec 2) (s : State) : (dropSegs pl s).stiShadow = s.stiShadow := rfl
@[simp] theorem dropSegs_halted (pl : BitVec 2) (s : State) : (dropSegs pl s).halted = s.halted := rfl
@[simp] theorem dropSegs_inShutdown (pl : BitVec 2) (s : State) : (dropSegs pl s).inShutdown = s.inShutdown := rfl
@[simp] theorem dropSegs_pendingDbg (pl : BitVec 2) (s : State) : (dropSegs pl s).pendingDbg = s.pendingDbg := rfl
@[simp] theorem dropSegs_lateDbg (pl : BitVec 2) (s : State) : (dropSegs pl s).lateDbg = s.lateDbg := rfl
@[simp] theorem dropSegs_delivering (pl : BitVec 2) (s : State) : (dropSegs pl s).delivering = s.delivering := rfl
@[simp] theorem dropSegs_idtStale (pl : BitVec 2) (s : State) : (dropSegs pl s).idtStale = s.idtStale := rfl
@[simp] theorem dropSegs_prefetch (pl : BitVec 2) (s : State) : (dropSegs pl s).prefetch = s.prefetch := rfl
@[simp] theorem dropSegs_mem (pl : BitVec 2) (s : State) : (dropSegs pl s).mem = s.mem := rfl
@[simp] theorem dropSegs_env (pl : BitVec 2) (s : State) : (dropSegs pl s).env = s.env := rfl
@[simp] theorem dropSegs_insn (pl : BitVec 2) (s : State) : (dropSegs pl s).insn = s.insn := rfl

@[simp] theorem writeCr0_cr0 (c : Cr0) (s : State) : (writeCr0 c s).cr0 = c := rfl

@[simp] theorem writeCr3_pdbr (v : BitVec 32) (s : State) : (writeCr3 v s).pdbr = v.extractLsb' 12 20 := rfl

@[simp] theorem shutDown_inShutdown (s : State) : (shutDown s).inShutdown = true := rfl

/-! ### Registers -/

@[simp] theorem Gpr.get_set (g : Gpr) (r : Reg) (v : BitVec 32) : (g.set r v).get r = v := by cases r <;> rfl

theorem Gpr.get_set_ne (g : Gpr) {r q : Reg} (v : BitVec 32) (h : q ≠ r) : (g.set r v).get q = g.get q := by
  cases r <;> cases q <;> first | rfl | exact absurd rfl h

@[simp] theorem State.reg_setReg (s : State) (r : Reg) (v : BitVec 32) : (s.setReg r v).reg r = v := Gpr.get_set _ _ _

theorem State.reg_setReg_ne (s : State) {r q : Reg} (v : BitVec 32) (h : q ≠ r) : (s.setReg r v).reg q = s.reg q :=
  Gpr.get_set_ne _ _ h

@[simp] theorem SegRegs.get_set (g : SegRegs) (r : SegReg) (v : Seg) : (g.set r v).get r = v := by cases r <;> rfl

theorem SegRegs.get_set_ne (g : SegRegs) {r q : SegReg} (v : Seg) (h : q ≠ r) : (g.set r v).get q = g.get q := by
  cases r <;> cases q <;> first | rfl | exact absurd rfl h

@[simp] theorem State.seg_setSeg (s : State) (r : SegReg) (v : Seg) : (s.setSeg r v).seg r = v := SegRegs.get_set _ _ _

theorem State.seg_setSeg_ne (s : State) {r q : SegReg} (v : Seg) (h : q ≠ r) : (s.setSeg r v).seg q = s.seg q :=
  SegRegs.get_set_ne _ _ h

/-- A write of size 16 leaves the upper half (10 R16). -/
theorem Size.merge_trunc (z : Size) (a b : BitVec 32) : z.trunc (z.merge a b) = z.trunc b := by
  cases z
  · simp only [Size.trunc, Size.merge]
    ext i hi
    simp only [BitVec.getElem_and, BitVec.getElem_append]
    have hm : (0xFFFF#32)[i] = decide (i < 16) := by
      clear a b
      revert i
      decide
    by_cases h : i < 16
    · simp [h, ← BitVec.getLsbD_eq_getElem]
    · simp [hm, h]
  · rfl

@[simp] theorem State.regv_setRegv (s : State) (z : Size) (r : Reg) (v : BitVec 32) :
    (s.setRegv z r v).regv z r = z.trunc v := by
  simp [State.setRegv, State.regv, Size.merge_trunc]

/-- Which bytes were stored together is of the record alone. -/
theorem State.joinStores_same (s : State) (pas : List (BitVec 32)) :
    ∃ l, s.joinStores pas = { s with prefetch := { s.prefetch with stored := l } } := by
  unfold State.joinStores
  split
  · exact ⟨_, rfl⟩
  · exact ⟨s.prefetch.stored, rfl⟩

@[simp] theorem State.joinStores_gpr (s : State) (l : List (BitVec 32)) : (s.joinStores l).gpr = s.gpr := by
  obtain ⟨_, h⟩ := s.joinStores_same l
  rw [h]
@[simp] theorem State.joinStores_eip (s : State) (l : List (BitVec 32)) : (s.joinStores l).eip = s.eip := by
  obtain ⟨_, h⟩ := s.joinStores_same l
  rw [h]
@[simp] theorem State.joinStores_flags (s : State) (l : List (BitVec 32)) : (s.joinStores l).flags = s.flags := by
  obtain ⟨_, h⟩ := s.joinStores_same l
  rw [h]
@[simp] theorem State.joinStores_cpl (s : State) (l : List (BitVec 32)) : (s.joinStores l).cpl = s.cpl := by
  obtain ⟨_, h⟩ := s.joinStores_same l
  rw [h]
@[simp] theorem State.joinStores_segs (s : State) (l : List (BitVec 32)) : (s.joinStores l).segs = s.segs := by
  obtain ⟨_, h⟩ := s.joinStores_same l
  rw [h]
@[simp] theorem State.joinStores_gdtr (s : State) (l : List (BitVec 32)) : (s.joinStores l).gdtr = s.gdtr := by
  obtain ⟨_, h⟩ := s.joinStores_same l
  rw [h]
@[simp] theorem State.joinStores_idtr (s : State) (l : List (BitVec 32)) : (s.joinStores l).idtr = s.idtr := by
  obtain ⟨_, h⟩ := s.joinStores_same l
  rw [h]
@[simp] theorem State.joinStores_ldtr (s : State) (l : List (BitVec 32)) : (s.joinStores l).ldtr = s.ldtr := by
  obtain ⟨_, h⟩ := s.joinStores_same l
  rw [h]
@[simp] theorem State.joinStores_tr (s : State) (l : List (BitVec 32)) : (s.joinStores l).tr = s.tr := by
  obtain ⟨_, h⟩ := s.joinStores_same l
  rw [h]
@[simp] theorem State.joinStores_cr0 (s : State) (l : List (BitVec 32)) : (s.joinStores l).cr0 = s.cr0 := by
  obtain ⟨_, h⟩ := s.joinStores_same l
  rw [h]
@[simp] theorem State.joinStores_cr2 (s : State) (l : List (BitVec 32)) : (s.joinStores l).cr2 = s.cr2 := by
  obtain ⟨_, h⟩ := s.joinStores_same l
  rw [h]
@[simp] theorem State.joinStores_pdbr (s : State) (l : List (BitVec 32)) : (s.joinStores l).pdbr = s.pdbr := by
  obtain ⟨_, h⟩ := s.joinStores_same l
  rw [h]
@[simp] theorem State.joinStores_dr0 (s : State) (l : List (BitVec 32)) : (s.joinStores l).dr0 = s.dr0 := by
  obtain ⟨_, h⟩ := s.joinStores_same l
  rw [h]
@[simp] theorem State.joinStores_dr1 (s : State) (l : List (BitVec 32)) : (s.joinStores l).dr1 = s.dr1 := by
  obtain ⟨_, h⟩ := s.joinStores_same l
  rw [h]
@[simp] theorem State.joinStores_dr2 (s : State) (l : List (BitVec 32)) : (s.joinStores l).dr2 = s.dr2 := by
  obtain ⟨_, h⟩ := s.joinStores_same l
  rw [h]
@[simp] theorem State.joinStores_dr3 (s : State) (l : List (BitVec 32)) : (s.joinStores l).dr3 = s.dr3 := by
  obtain ⟨_, h⟩ := s.joinStores_same l
  rw [h]
@[simp] theorem State.joinStores_dr6 (s : State) (l : List (BitVec 32)) : (s.joinStores l).dr6 = s.dr6 := by
  obtain ⟨_, h⟩ := s.joinStores_same l
  rw [h]
@[simp] theorem State.joinStores_dr7 (s : State) (l : List (BitVec 32)) : (s.joinStores l).dr7 = s.dr7 := by
  obtain ⟨_, h⟩ := s.joinStores_same l
  rw [h]
@[simp] theorem State.joinStores_tr6 (s : State) (l : List (BitVec 32)) : (s.joinStores l).tr6 = s.tr6 := by
  obtain ⟨_, h⟩ := s.joinStores_same l
  rw [h]
@[simp] theorem State.joinStores_tr7 (s : State) (l : List (BitVec 32)) : (s.joinStores l).tr7 = s.tr7 := by
  obtain ⟨_, h⟩ := s.joinStores_same l
  rw [h]
@[simp] theorem State.joinStores_tlb (s : State) (l : List (BitVec 32)) : (s.joinStores l).tlb = s.tlb := by
  obtain ⟨_, h⟩ := s.joinStores_same l
  rw [h]
@[simp] theorem State.joinStores_tlbWritten (s : State) (l : List (BitVec 32)) : (s.joinStores l).tlbWritten = s.tlbWritten := by
  obtain ⟨_, h⟩ := s.joinStores_same l
  rw [h]
@[simp] theorem State.joinStores_nmiInService (s : State) (l : List (BitVec 32)) : (s.joinStores l).nmiInService = s.nmiInService := by
  obtain ⟨_, h⟩ := s.joinStores_same l
  rw [h]
@[simp] theorem State.joinStores_pendingNmi (s : State) (l : List (BitVec 32)) : (s.joinStores l).pendingNmi = s.pendingNmi := by
  obtain ⟨_, h⟩ := s.joinStores_same l
  rw [h]
@[simp] theorem State.joinStores_intShadow (s : State) (l : List (BitVec 32)) : (s.joinStores l).intShadow = s.intShadow := by
  obtain ⟨_, h⟩ := s.joinStores_same l
  rw [h]
@[simp] theorem State.joinStores_stiShadow (s : State) (l : List (BitVec 32)) : (s.joinStores l).stiShadow = s.stiShadow := by
  obtain ⟨_, h⟩ := s.joinStores_same l
  rw [h]
@[simp] theorem State.joinStores_halted (s : State) (l : List (BitVec 32)) : (s.joinStores l).halted = s.halted := by
  obtain ⟨_, h⟩ := s.joinStores_same l
  rw [h]
@[simp] theorem State.joinStores_inShutdown (s : State) (l : List (BitVec 32)) : (s.joinStores l).inShutdown = s.inShutdown := by
  obtain ⟨_, h⟩ := s.joinStores_same l
  rw [h]
@[simp] theorem State.joinStores_pendingDbg (s : State) (l : List (BitVec 32)) : (s.joinStores l).pendingDbg = s.pendingDbg := by
  obtain ⟨_, h⟩ := s.joinStores_same l
  rw [h]
@[simp] theorem State.joinStores_lateDbg (s : State) (l : List (BitVec 32)) : (s.joinStores l).lateDbg = s.lateDbg := by
  obtain ⟨_, h⟩ := s.joinStores_same l
  rw [h]
@[simp] theorem State.joinStores_delivering (s : State) (l : List (BitVec 32)) : (s.joinStores l).delivering = s.delivering := by
  obtain ⟨_, h⟩ := s.joinStores_same l
  rw [h]
@[simp] theorem State.joinStores_idtStale (s : State) (l : List (BitVec 32)) : (s.joinStores l).idtStale = s.idtStale := by
  obtain ⟨_, h⟩ := s.joinStores_same l
  rw [h]
@[simp] theorem State.joinStores_mem (s : State) (l : List (BitVec 32)) : (s.joinStores l).mem = s.mem := by
  obtain ⟨_, h⟩ := s.joinStores_same l
  rw [h]
@[simp] theorem State.joinStores_env (s : State) (l : List (BitVec 32)) : (s.joinStores l).env = s.env := by
  obtain ⟨_, h⟩ := s.joinStores_same l
  rw [h]
@[simp] theorem State.joinStores_insn (s : State) (l : List (BitVec 32)) : (s.joinStores l).insn = s.insn := by
  obtain ⟨_, h⟩ := s.joinStores_same l
  rw [h]

end Sys2Proof.Machine
end

