-- ==== Sys2Proof/Laws/Monad.lean ====
section
/-! SUPPORT. How meanings are run: one lemma for each primitive of `M`, the inversion of a sequence, and `Within`, a
relation between before and after that every part of a meaning keeps. -/

namespace Sys2Proof.Machine

open Sys2Proof

variable {α β : Type}

/-! ### Running the primitives -/

@[simp] theorem M.run_pure (a : α) (w : Work) : (pure a : M α) w = .ok a w := rfl

@[simp] theorem M.run_bind (x : M α) (f : α → M β) (w : Work) :
    (x >>= f) w = match x w with
      | .ok a w' => f a w'
      | .error e w' => .error e w' := by
  change EStateM.bind x f w = _
  unfold EStateM.bind
  cases x w <;> rfl

@[simp] theorem run_st (w : Work) : st w = .ok w.s w := rfl

@[simp] theorem run_get (w : Work) : (get : M Work) w = .ok w w := rfl

@[simp] theorem run_upd (f : State → State) (w : Work) : upd f w = .ok () { w with s := f w.s } := rfl

@[simp] theorem run_mark (f : Work → Work) (w : Work) : mark f w = .ok () (f w) := rfl

@[simp] theorem run_raise (e : Exc) (w : Work) : (raise e : M α) w = .error (.exc e) w := rfl

@[simp] theorem run_refuse (r : Refusal) (w : Work) : (refuse r : M α) w = .error (.refuse r) w := rfl

@[simp] theorem run_shutdown (w : Work) : (shutdown : M α) w = .error .shutdown w := rfl

@[simp] theorem run_faultWith (f : Fault) (w : Work) : (faultWith f : M α) w = .error (.fault f) w := rfl

/-- A part of a meaning that raises nothing is attempted with its result. -/
theorem run_attempt_ok {m : M α} {a : α} {w v : Work} (h : m w = .ok a v) : attempt m w = .ok (.ok a) v := by
  unfold attempt
  rw [h]

/-- An exception that a part of a meaning raises is answered. -/
theorem run_attempt_exc {m : M α} {e : Exc} {w v : Work} (h : m w = .error (.exc e) v) :
    attempt m w = .ok (.error e) v := by
  unfold attempt
  rw [h]

@[simp] theorem raiseFirst_nil : raiseFirst [] = pure () := rfl
@[simp] theorem raiseFirst_none (t : List (Option Exc)) : raiseFirst (none :: t) = raiseFirst t := rfl
@[simp] theorem raiseFirst_some (e : Exc) (t : List (Option Exc)) : raiseFirst (some e :: t) = raise e := rfl

theorem run_check (c : Bool) (e : Exc) (w : Work) :
    check c e w = if c then .ok () w else .error (.exc e) w := by
  unfold check
  split <;> rfl

theorem run_need (c : Bool) (r : Refusal) (w : Work) :
    need c r w = if c then .ok () w else .error (.refuse r) w := by
  unfold need
  split <;> rfl

@[simp] theorem run_check_true (e : Exc) (w : Work) : check true e w = .ok () w := rfl

@[simp] theorem run_check_false (e : Exc) (w : Work) : check false e w = .error (.exc e) w := rfl

@[simp] theorem run_need_true (r : Refusal) (w : Work) : need true r w = .ok () w := rfl

@[simp] theorem run_need_false (r : Refusal) (w : Work) : need false r w = .error (.refuse r) w := rfl

@[simp] theorem run_extBit (w : Work) : extBit w = .ok (if w.ext then 1#16 else 0#16) w := rfl

@[simp] theorem run_busEvent (e : BusEvent) (w : Work) :
    busEvent e w = .ok () { w with s := { w.s with env := { w.s.env with bus := w.s.env.bus ++ [e] } } } := rfl

/-- A sequence ends well exactly when both parts do. -/
theorem bind_eq_ok {x : M α} {f : α → M β} {w w' : Work} {b : β} :
    (x >>= f) w = .ok b w' ↔ ∃ a v, x w = .ok a v ∧ f a v = .ok b w' := by
  rw [M.run_bind]
  cases h : x w with
  | ok a v =>
    constructor
    · intro hb
      exact ⟨a, v, rfl, hb⟩
    · rintro ⟨a', v', h1, h2⟩
      cases h1
      exact h2
  | error e v =>
    constructor
    · intro hb
      cases hb
    · rintro ⟨_, _, h1, _⟩
      cases h1

/-- A check ends well exactly when its condition holds. -/
theorem check_eq_ok {c : Bool} {e : Exc} {w w' : Work} {u : Unit} : check c e w = .ok u w' ↔ c = true ∧ w' = w := by
  rw [run_check]
  cases c <;> simp [eq_comm]

/-- A demand ends well exactly when its condition holds. -/
theorem need_eq_ok {c : Bool} {r : Refusal} {w w' : Work} {u : Unit} : need c r w = .ok u w' ↔ c = true ∧ w' = w := by
  rw [run_need]
  cases c <;> simp [eq_comm]

/-! ### Relations that every part keeps -/

/-- What a part of a meaning leaves, whether it ends well or not. -/
def leftWork : EStateM.Result Stop Work α → Work
  | .ok _ w => w
  | .error _ w => w

/-- A reflexive and transitive relation. -/
structure StepRel (R : Work → Work → Prop) : Prop where
  refl : ∀ w, R w w
  trans : ∀ u v w, R u v → R v w → R u w

/-- `m` changes the work only as `R` allows. -/
def Within (R : Work → Work → Prop) (m : M α) : Prop := ∀ w, R w (leftWork (m w))

variable {R : Work → Work → Prop}

theorem Within.ok {m : M α} (h : Within R m) {w w' : Work} {a : α} (e : m w = .ok a w') : R w w' := by
  have := h w
  rw [e] at this
  exact this

theorem Within.error {m : M α} (h : Within R m) {w w' : Work} {x : Stop} (e : m w = .error x w') : R w w' := by
  have := h w
  rw [e] at this
  exact this

theorem within_pure (hR : StepRel R) (a : α) : Within R (pure a : M α) := fun _ => hR.refl _

theorem within_bind (hR : StepRel R) {x : M α} {f : α → M β} (hx : Within R x) (hf : ∀ a, Within R (f a)) :
    Within R (x >>= f) := by
  intro w
  rw [M.run_bind]
  cases h : x w with
  | ok a v => exact hR.trans _ _ _ (hx.ok h) (hf a v)
  | error e v => exact hx.error h

theorem within_st (hR : StepRel R) : Within R st := fun _ => hR.refl _

/-- An attempt changes what the part attempted changes. -/
theorem within_attempt {R : Work → Work → Prop} {m : M α} (h : Within R m) : Within R (attempt m) := by
  intro w
  have hw := h w
  unfold attempt
  cases hm : m w with
  | ok a v => rw [hm] at hw; exact hw
  | error e v => rw [hm] at hw; cases e <;> exact hw

theorem within_get (hR : StepRel R) : Within R (get : M Work) := fun _ => hR.refl _

theorem within_upd {f : State → State} (h : ∀ w, R w { w with s := f w.s }) : Within R (upd f) := fun w => h w

theorem within_mark {f : Work → Work} (h : ∀ w, R w (f w)) : Within R (mark f) := fun w => h w

theorem within_raise (hR : StepRel R) (e : Exc) : Within R (raise e : M α) := fun _ => hR.refl _

theorem within_refuse (hR : StepRel R) (r : Refusal) : Within R (refuse r : M α) := fun _ => hR.refl _

theorem within_faultWith (hR : StepRel R) (f : Fault) : Within R (faultWith f : M α) := fun _ => hR.refl _

theorem within_check (hR : StepRel R) (c : Bool) (e : Exc) : Within R (check c e) := by
  unfold check
  split
  · exact within_pure hR _
  · exact within_raise hR _

theorem within_need (hR : StepRel R) (c : Bool) (r : Refusal) : Within R (need c r) := by
  unfold need
  split
  · exact within_pure hR _
  · exact within_refuse hR _

theorem within_each (hR : StepRel R) {f : α → M Unit} (hf : ∀ a, Within R (f a)) (l : List α) :
    Within R (each f l) := by
  induction l with
  | nil => exact within_pure hR _
  | cons a t ih => exact within_bind hR (hf a) fun _ => ih

theorem within_gather (hR : StepRel R) {f : α → M β} (hf : ∀ a, Within R (f a)) (l : List α) :
    Within R (gather f l) := by
  induction l with
  | nil => exact within_pure hR _
  | cons a t ih => exact within_bind hR (hf a) fun _ => within_bind hR ih fun _ => within_pure hR _

end Sys2Proof.Machine
end

