-- ==== Sys2Proof/Laws/Memory.lean ====
section
/-! SUPPORT. Memory: what a read gives after a write, and that every operation keeps the canonical form. -/

namespace Sys2Proof.Machine

open Sys2Proof

/-- A sorted list lists nothing below its bound. -/
theorem Memory.read_below {lo : Nat} {m : List Host.Cell} (h : Memory.sorted lo m = true) {a : Nat} (ha : a < lo) :
    Memory.read m a = 0 := by
  induction m generalizing lo with
  | nil => rfl
  | cons c t ih =>
    obtain ⟨k, v⟩ := c
    simp only [Memory.sorted, Bool.and_eq_true, decide_eq_true_eq] at h
    obtain ⟨⟨⟨h1, _⟩, _⟩, h2⟩ := h
    have hk : k ≠ a := by omega
    simp only [Memory.read, hk, if_false]
    exact ih h2 (by omega)

/-- A smaller bound holds too. -/
theorem Memory.sorted_mono {lo lo' : Nat} {m : List Host.Cell} (h : Memory.sorted lo m = true) (hl : lo' ≤ lo) :
    Memory.sorted lo' m = true := by
  cases m with
  | nil => rfl
  | cons c t =>
    obtain ⟨k, v⟩ := c
    simp only [Memory.sorted, Bool.and_eq_true, decide_eq_true_eq] at h ⊢
    exact ⟨⟨⟨by omega, h.1.1.2⟩, h.1.2⟩, h.2⟩

/-- A write keeps the order. -/
theorem Memory.sorted_write {lo : Nat} {m : List Host.Cell} (h : Memory.sorted lo m = true) {a : Nat} (hlo : lo ≤ a)
    (ha : a < 2 ^ 32) (v : Byte) : Memory.sorted lo (Memory.write m a v) = true := by
  induction m generalizing lo with
  | nil =>
    unfold Memory.write
    split
    · rfl
    · simp_all [Memory.sorted]
  | cons c t ih =>
    obtain ⟨k, w⟩ := c
    have h0 := h
    simp only [Memory.sorted, Bool.and_eq_true, decide_eq_true_eq] at h
    obtain ⟨⟨⟨h1, h2⟩, h3⟩, h4⟩ := h
    simp only [Memory.write]
    split
    · rename_i hak
      split
      · exact h0
      · rename_i hv
        simp only [Memory.sorted, Bool.and_eq_true, decide_eq_true_eq]
        exact ⟨⟨⟨hlo, ha⟩, hv⟩, ⟨⟨by omega, h2⟩, h3⟩, h4⟩
    · split
      · rename_i hak
        split
        · exact Memory.sorted_mono h4 (by omega)
        · rename_i hv
          subst hak
          simp only [Memory.sorted, Bool.and_eq_true, decide_eq_true_eq]
          exact ⟨⟨⟨hlo, ha⟩, hv⟩, h4⟩
      · simp only [Memory.sorted, Bool.and_eq_true, decide_eq_true_eq]
        exact ⟨⟨⟨h1, h2⟩, h3⟩, ih h4 (by omega)⟩

/-- A write keeps the canonical form. -/
theorem Memory.wf_write {m : List Host.Cell} (h : Memory.wf m = true) (pa : BitVec 32) (v : Byte) :
    Memory.wf (Memory.write m pa.toNat v) = true :=
  Memory.sorted_write h (Nat.zero_le _) pa.isLt v

/-- What a read gives after a write. -/
theorem Memory.read_write_sorted {lo : Nat} {m : List Host.Cell} (h : Memory.sorted lo m = true) (a b : Nat) (v : Byte) :
    Memory.read (Memory.write m a v) b = if b = a then v else Memory.read m b := by
  induction m generalizing lo with
  | nil =>
    simp only [Memory.write]
    split
    · rename_i hv
      simp [Memory.read, hv]
    · simp only [Memory.read, eq_comm]
  | cons c t ih =>
    obtain ⟨k, w⟩ := c
    have h0 := h
    simp only [Memory.sorted, Bool.and_eq_true, decide_eq_true_eq] at h
    obtain ⟨⟨⟨h1, h2⟩, h3⟩, h4⟩ := h
    simp only [Memory.write]
    split
    · rename_i hak
      split
      · rename_i hv
        split
        · rename_i hba
          subst hba
          have hk : k ≠ b := by omega
          simp only [Memory.read, hk, if_false, hv]
          exact Memory.read_below h4 (by omega)
        · rfl
      · by_cases hba : b = a
        · simp [Memory.read, hba]
        · have : a ≠ b := fun e => hba e.symm
          simp [Memory.read, hba, this]
    · split
      · rename_i hak
        subst hak
        split
        · rename_i hv
          split
          · rename_i hba
            subst hba
            rw [hv]
            exact Memory.read_below h4 (by omega)
          · rename_i hba
            have : a ≠ b := fun e => hba e.symm
            simp [Memory.read, this]
        · by_cases hba : b = a
          · simp [Memory.read, hba]
          · have : a ≠ b := fun e => hba e.symm
            simp [Memory.read, hba, this]
      · by_cases hkb : k = b
        · have : b ≠ a := by omega
          simp [Memory.read, hkb, this]
        · simp only [Memory.read, hkb, if_false]
          exact ih h4

/-- What a read gives after a write to a canonical memory. -/
theorem Memory.read_write {m : List Host.Cell} (h : Memory.wf m = true) (a b : Nat) (v : Byte) :
    Memory.read (Memory.write m a v) b = if b = a then v else Memory.read m b :=
  Memory.read_write_sorted h a b v

theorem reset_mem_wf : Memory.wf State.reset.mem = true := rfl

theorem State.wf_putByte {s : State} (h : Memory.wf s.mem = true) (pa : BitVec 32) (v : Byte) :
    Memory.wf (s.putByte pa v).mem = true := by
  unfold State.putByte
  split
  · exact Memory.wf_write h pa v
  · exact h

/-- A byte after a store to RAM: the one stored, every other as before. -/
theorem State.byteAt_putByte {s : State} (h : Memory.wf s.mem = true) {pa : BitVec 32} (hk : s.kindAt pa = .ram)
    (v : Byte) (a : BitVec 32) : (s.putByte pa v).byteAt a = if a = pa then v else s.byteAt a := by
  simp only [State.putByte, hk, if_true, State.byteAt, Memory.read_write h, BitVec.toNat_inj]

end Sys2Proof.Machine
end

