-- ==== Sys2Proof/Laws/Access.lean ====
section
/-! SUPPORT. What an access to memory can change: memory, the TLB, what is prefetched stale and the world, nothing else;
and memory keeps its canonical form. One lemma for each operation. -/

namespace Sys2Proof.Machine

open Sys2Proof

theorem Accesses.refl (s : State) : Accesses s s := ⟨rfl, rfl, ⟨rfl, rfl, rfl, rfl⟩, id⟩

theorem Accesses.trans {s t u : State} (h1 : Accesses s t) (h2 : Accesses t u) : Accesses s u := by
  refine ⟨?_, h2.map.trans h1.map, ⟨h2.hazard.1.trans h1.hazard.1, h2.hazard.2.1.trans h1.hazard.2.1,
    h2.hazard.2.2.1.trans h1.hazard.2.2.1, h2.hazard.2.2.2.trans h1.hazard.2.2.2⟩, fun h => h2.wf (h1.wf h)⟩
  have e := h2.same
  rw [h1.same] at e
  exact e

/-- An access changes the state as `Accesses` says, and of the bookkeeping only the bits set in tables and the data
breakpoints met. -/
structure AccessesW (w v : Work) : Prop where
  state : Accesses w.s v.s
  same : v = { w with s := v.s, sticky := v.sticky, hitOn := v.hitOn, hitOff := v.hitOff }

theorem accesses_rel : StepRel AccessesW where
  refl w := ⟨Accesses.refl _, rfl⟩
  trans u v w h1 h2 := by
    refine ⟨h1.state.trans h2.state, ?_⟩
    have e := h2.same
    rw [h1.same] at e
    exact e

theorem accessesW_upd {f : State → State} (h : ∀ s, Accesses s (f s)) (w : Work) : AccessesW w { w with s := f w.s } :=
  ⟨h _, rfl⟩

theorem Accesses.gpr {s t : State} (h : Accesses s t) : t.gpr = s.gpr := by rw [h.same]
theorem Accesses.eip {s t : State} (h : Accesses s t) : t.eip = s.eip := by rw [h.same]
theorem Accesses.flags {s t : State} (h : Accesses s t) : t.flags = s.flags := by rw [h.same]
theorem Accesses.cpl {s t : State} (h : Accesses s t) : t.cpl = s.cpl := by rw [h.same]
theorem Accesses.segs {s t : State} (h : Accesses s t) : t.segs = s.segs := by rw [h.same]
theorem Accesses.gdtr {s t : State} (h : Accesses s t) : t.gdtr = s.gdtr := by rw [h.same]
theorem Accesses.idtr {s t : State} (h : Accesses s t) : t.idtr = s.idtr := by rw [h.same]
theorem Accesses.ldtr {s t : State} (h : Accesses s t) : t.ldtr = s.ldtr := by rw [h.same]
theorem Accesses.tr {s t : State} (h : Accesses s t) : t.tr = s.tr := by rw [h.same]
theorem Accesses.cr0 {s t : State} (h : Accesses s t) : t.cr0 = s.cr0 := by rw [h.same]
theorem Accesses.cr2 {s t : State} (h : Accesses s t) : t.cr2 = s.cr2 := by rw [h.same]
theorem Accesses.pdbr {s t : State} (h : Accesses s t) : t.pdbr = s.pdbr := by rw [h.same]
theorem Accesses.dr0 {s t : State} (h : Accesses s t) : t.dr0 = s.dr0 := by rw [h.same]
theorem Accesses.dr1 {s t : State} (h : Accesses s t) : t.dr1 = s.dr1 := by rw [h.same]
theorem Accesses.dr2 {s t : State} (h : Accesses s t) : t.dr2 = s.dr2 := by rw [h.same]
theorem Accesses.dr3 {s t : State} (h : Accesses s t) : t.dr3 = s.dr3 := by rw [h.same]
theorem Accesses.dr6 {s t : State} (h : Accesses s t) : t.dr6 = s.dr6 := by rw [h.same]
theorem Accesses.dr7 {s t : State} (h : Accesses s t) : t.dr7 = s.dr7 := by rw [h.same]
theorem Accesses.tr6 {s t : State} (h : Accesses s t) : t.tr6 = s.tr6 := by rw [h.same]
theorem Accesses.tr7 {s t : State} (h : Accesses s t) : t.tr7 = s.tr7 := by rw [h.same]
theorem Accesses.tlbWritten {s t : State} (h : Accesses s t) : t.tlbWritten = s.tlbWritten := by rw [h.same]
theorem Accesses.nmiInService {s t : State} (h : Accesses s t) : t.nmiInService = s.nmiInService := by rw [h.same]
theorem Accesses.pendingNmi {s t : State} (h : Accesses s t) : t.pendingNmi = s.pendingNmi := by rw [h.same]
theorem Accesses.intShadow {s t : State} (h : Accesses s t) : t.intShadow = s.intShadow := by rw [h.same]
theorem Accesses.stiShadow {s t : State} (h : Accesses s t) : t.stiShadow = s.stiShadow := by rw [h.same]
theorem Accesses.halted {s t : State} (h : Accesses s t) : t.halted = s.halted := by rw [h.same]
theorem Accesses.inShutdown {s t : State} (h : Accesses s t) : t.inShutdown = s.inShutdown := by rw [h.same]
theorem Accesses.pendingDbg {s t : State} (h : Accesses s t) : t.pendingDbg = s.pendingDbg := by rw [h.same]
theorem Accesses.lateDbg {s t : State} (h : Accesses s t) : t.lateDbg = s.lateDbg := by rw [h.same]
theorem Accesses.delivering {s t : State} (h : Accesses s t) : t.delivering = s.delivering := by rw [h.same]
theorem Accesses.idtStale {s t : State} (h : Accesses s t) : t.idtStale = s.idtStale := by rw [h.same]
theorem Accesses.insn {s t : State} (h : Accesses s t) : t.insn = s.insn := by rw [h.same]

theorem accesses_env (s : State) (e : Env) (h : e.physMap = s.env.physMap) : Accesses s { s with env := e } :=
  ⟨rfl, h, ⟨rfl, rfl, rfl, rfl⟩, id⟩

theorem accesses_tlb (s : State) (l g : List TlbEntry) :
    Accesses s { s with tlb := l, prefetch := { s.prefetch with gone := g } } := ⟨rfl, rfl, ⟨rfl, rfl, rfl, rfl⟩, id⟩

theorem accesses_write (s : State) (pa : BitVec 32) (v : Byte) (l : List Stored) :
    Accesses s { s with mem := Memory.write s.mem pa.toNat v, prefetch := { s.prefetch with stored := l } } :=
  ⟨rfl, rfl, ⟨rfl, rfl, rfl, rfl⟩, fun h => Memory.wf_write h pa v⟩

theorem draw_accesses : Within AccessesW draw := by
  intro w
  unfold draw
  simp only [M.run_bind, run_st]
  cases w.s.env.draws with
  | nil => exact ⟨accesses_env _ _ rfl, rfl⟩
  | cons v t => exact ⟨accesses_env _ _ rfl, rfl⟩

theorem deviceIn_accesses : Within AccessesW deviceIn := by
  intro w
  unfold deviceIn
  simp only [M.run_bind, run_st]
  cases w.s.env.devIn with
  | nil => exact ⟨accesses_env _ _ rfl, rfl⟩
  | cons v t => exact ⟨accesses_env _ _ rfl, rfl⟩

theorem busEvent_accesses (e : BusEvent) : Within AccessesW (busEvent e) := fun _ => ⟨accesses_env _ _ rfl, rfl⟩

theorem extBit_accesses : Within AccessesW extBit := fun _ => accesses_rel.refl _

theorem draw16_accesses : Within AccessesW (draw16) := by
  unfold draw16
  repeat' first
    | with_reducible exact draw_accesses
    | with_reducible refine within_bind accesses_rel ?_ fun _ => ?_
    | with_reducible exact within_pure accesses_rel _

theorem drawBit_accesses : Within AccessesW (drawBit) := by
  unfold drawBit
  repeat' first
    | with_reducible exact draw_accesses
    | with_reducible refine within_bind accesses_rel ?_ fun _ => ?_
    | with_reducible exact within_pure accesses_rel _

theorem selCode_accesses (sel : BitVec 16) : Within AccessesW (selCode sel) := by
  unfold selCode
  repeat' first
    | with_reducible exact extBit_accesses
    | with_reducible refine within_bind accesses_rel ?_ fun _ => ?_
    | with_reducible exact within_pure accesses_rel _

theorem checkSel_accesses (c : Bool) (k : CodeExc) (sel : BitVec 16) : Within AccessesW (checkSel c k sel) := by
  unfold checkSel
  repeat' first
    | with_reducible exact selCode_accesses _
    | with_reducible refine within_bind accesses_rel ?_ fun _ => ?_
    | with_reducible exact within_pure accesses_rel _
    | with_reducible exact within_check accesses_rel _ _

theorem physReadByte_accesses (pa : BitVec 32) : Within AccessesW (physReadByte pa) := by
  unfold physReadByte
  repeat' first
    | with_reducible exact deviceIn_accesses
    | with_reducible exact busEvent_accesses _
    | with_reducible refine within_bind accesses_rel ?_ fun _ => ?_
    | with_reducible exact within_pure accesses_rel _
    | with_reducible exact within_st accesses_rel
    | with_reducible exact within_refuse accesses_rel _
    | split

theorem physWriteByte_accesses (pa : BitVec 32) (v : Byte) : Within AccessesW (physWriteByte pa v) := by
  unfold physWriteByte
  refine within_bind accesses_rel (within_st accesses_rel) fun s => ?_
  split
  · exact within_upd (accessesW_upd fun s => accesses_write s pa v (⟨pa.toNat, s.byteAt pa, false⟩ :: s.prefetch.stored))
  · exact within_pure accesses_rel _
  · exact busEvent_accesses _
  · exact within_refuse accesses_rel _

theorem physReadAt_accesses (pas : List (BitVec 32)) : Within AccessesW (physReadAt pas) := by
  unfold physReadAt
  repeat' first
    | with_reducible exact deviceIn_accesses
    | with_reducible exact busEvent_accesses _
    | with_reducible exact physReadByte_accesses _
    | with_reducible refine within_bind accesses_rel ?_ fun _ => ?_
    | with_reducible exact within_pure accesses_rel _
    | with_reducible exact within_st accesses_rel
    | with_reducible refine within_gather accesses_rel (fun _ => ?_) _
    | dsimp only []
    | split

theorem accesses_join (s : State) (pas : List (BitVec 32)) : Accesses s (s.joinStores pas) := by
  obtain ⟨l, h⟩ := s.joinStores_same pas
  rw [h]
  exact ⟨rfl, rfl, ⟨rfl, rfl, rfl, rfl⟩, id⟩

theorem physWriteAt_accesses (pas : List (BitVec 32)) (v : BitVec 32) : Within AccessesW (physWriteAt pas v) := by
  unfold physWriteAt
  repeat' first
    | with_reducible exact within_upd (accessesW_upd fun s => accesses_join s pas)
    | with_reducible exact busEvent_accesses _
    | with_reducible exact physWriteByte_accesses _ _
    | with_reducible refine within_bind accesses_rel ?_ fun _ => ?_
    | with_reducible exact within_pure accesses_rel _
    | with_reducible exact within_st accesses_rel
    | with_reducible refine within_each accesses_rel (fun _ => ?_) _
    | dsimp only []
    | split

theorem physRead_accesses (pa : BitVec 32) (n : Nat) : Within AccessesW (physRead pa n) := physReadAt_accesses _

theorem setBits_accesses (pa : BitVec 32) (m : Byte) : Within AccessesW (setBits pa m) := by
  unfold setBits
  repeat' first
    | with_reducible exact physReadByte_accesses _
    | with_reducible exact physWriteByte_accesses _ _
    | with_reducible refine within_bind accesses_rel ?_ fun _ => ?_
    | with_reducible exact within_pure accesses_rel _
    | exact within_mark fun _ => ⟨Accesses.refl _, rfl⟩

theorem pageWalk_accesses (la : BitVec 32) (write user : Bool) : Within AccessesW (pageWalk la write user) := by
  unfold pageWalk
  repeat' first
    | with_reducible exact physRead_accesses _ _
    | with_reducible refine within_bind accesses_rel ?_ fun _ => ?_
    | with_reducible exact within_pure accesses_rel _
    | with_reducible exact within_st accesses_rel
    | with_reducible exact within_check accesses_rel _ _

theorem lookOrWalk_accesses (la : BitVec 32) (write user : Bool) (l : List TlbEntry) :
    Within AccessesW (lookOrWalk la write user l) := by
  induction l with
  | nil => exact pageWalk_accesses _ _ _
  | cons e t ih =>
    unfold lookOrWalk
    repeat' first
      | with_reducible exact drawBit_accesses
      | with_reducible exact pageWalk_accesses _ _ _
      | with_reducible exact ih
      | with_reducible refine within_bind accesses_rel ?_ fun _ => ?_
      | with_reducible exact within_pure accesses_rel _
      | with_reducible exact within_st accesses_rel
      | with_reducible exact within_check accesses_rel _ _
      | split

theorem translate_accesses (la : BitVec 32) (write user : Bool) : Within AccessesW (translate la write user) := by
  unfold translate
  repeat' first
    | with_reducible exact lookOrWalk_accesses _ _ _ _
    | with_reducible refine within_bind accesses_rel ?_ fun _ => ?_
    | with_reducible exact within_pure accesses_rel _
    | with_reducible exact within_st accesses_rel
    | split

theorem fillTlb_accesses (e : TlbEntry) (s : State) : Accesses s (fillTlb e s) := accesses_tlb _ _ _

theorem enterTlb_accesses (e : TlbEntry) : Within AccessesW (enterTlb e) := by
  unfold enterTlb
  repeat' first
    | with_reducible exact drawBit_accesses
    | with_reducible exact fillTlb_accesses _ _
    | with_reducible refine within_bind accesses_rel ?_ fun _ => ?_
    | with_reducible exact within_pure accesses_rel _
    | with_reducible exact within_st accesses_rel
    | refine within_upd (accessesW_upd fun _ => ?_)
    | split

theorem commitXlat_accesses (x : Xlat) : Within AccessesW (commitXlat x) := by
  unfold commitXlat
  repeat' first
    | with_reducible exact setBits_accesses _ _
    | with_reducible exact enterTlb_accesses _
    | with_reducible refine within_bind accesses_rel ?_ fun _ => ?_
    | with_reducible exact within_pure accesses_rel _
    | split

theorem translateAll_accesses (la : BitVec 32) (n : Nat) (write user : Bool) :
    Within AccessesW (translateAll la n write user) := by
  unfold translateAll
  repeat' first
    | with_reducible exact translate_accesses _ _ _
    | with_reducible refine within_bind accesses_rel ?_ fun _ => ?_
    | with_reducible exact within_pure accesses_rel _
    | split

theorem linProbe_accesses (la : BitVec 32) (n : Nat) (write user : Bool) :
    Within AccessesW (linProbe la n write user) := by
  unfold linProbe
  repeat' first
    | with_reducible exact translateAll_accesses _ _ _ _
    | with_reducible refine within_bind accesses_rel ?_ fun _ => ?_
    | with_reducible exact within_pure accesses_rel _

theorem linAccess_accesses (la : BitVec 32) (n : Nat) (write user : Bool) :
    Within AccessesW (linAccess la n write user) := by
  unfold linAccess
  repeat' first
    | with_reducible exact commitXlat_accesses _
    | with_reducible exact translateAll_accesses _ _ _ _
    | with_reducible refine within_bind accesses_rel ?_ fun _ => ?_
    | with_reducible exact within_pure accesses_rel _
    | with_reducible refine within_each accesses_rel (fun _ => ?_) _

theorem linRead_accesses (la : BitVec 32) (n : Nat) (user : Bool) : Within AccessesW (linRead la n user) := by
  unfold linRead
  repeat' first
    | with_reducible exact physReadAt_accesses _
    | with_reducible exact linAccess_accesses _ _ _ _
    | with_reducible refine within_bind accesses_rel ?_ fun _ => ?_

theorem linWrite_accesses (la : BitVec 32) (n : Nat) (v : BitVec 32) (user : Bool) :
    Within AccessesW (linWrite la n v user) := by
  unfold linWrite
  repeat' first
    | with_reducible exact physWriteAt_accesses _ _
    | with_reducible exact linAccess_accesses _ _ _ _
    | with_reducible refine within_bind accesses_rel ?_ fun _ => ?_

theorem noteData_accesses (la : BitVec 32) (k : Nat) (write : Bool) : Within AccessesW (noteData la k write) := by
  unfold noteData
  repeat' first
    | with_reducible refine within_bind accesses_rel ?_ fun _ => ?_
    | with_reducible exact within_pure accesses_rel _
    | with_reducible exact within_get accesses_rel
    | with_reducible exact within_need accesses_rel _ _
    | exact within_mark fun _ => ⟨Accesses.refl _, rfl⟩
    | dsimp only []
    | split

theorem segExc_accesses (r : SegReg) : Within AccessesW (segExc r) := by
  unfold segExc
  repeat' first
    | with_reducible exact extBit_accesses
    | with_reducible refine within_bind accesses_rel ?_ fun _ => ?_
    | with_reducible exact within_pure accesses_rel _

theorem segCheck_accesses (r : SegReg) (off : BitVec 32) (n : Nat) (write : Bool) :
    Within AccessesW (segCheck r off n write) := by
  unfold segCheck
  repeat' first
    | with_reducible exact extBit_accesses
    | with_reducible exact segExc_accesses _
    | with_reducible refine within_bind accesses_rel ?_ fun _ => ?_
    | with_reducible exact within_pure accesses_rel _
    | with_reducible exact within_st accesses_rel
    | with_reducible exact within_check accesses_rel _ _

theorem dataRead_accesses (la : BitVec 32) (n : Nat) : Within AccessesW (dataRead la n) := by
  unfold dataRead
  repeat' first
    | with_reducible exact physReadAt_accesses _
    | with_reducible exact linAccess_accesses _ _ _ _
    | with_reducible exact noteData_accesses _ _ _
    | with_reducible refine within_bind accesses_rel ?_ fun _ => ?_
    | with_reducible exact within_pure accesses_rel _
    | with_reducible exact within_st accesses_rel

theorem dataWrite_accesses (la : BitVec 32) (n : Nat) (v : BitVec 32) : Within AccessesW (dataWrite la n v) := by
  unfold dataWrite
  repeat' first
    | with_reducible exact physWriteAt_accesses _ _
    | with_reducible exact linAccess_accesses _ _ _ _
    | with_reducible exact noteData_accesses _ _ _
    | with_reducible refine within_bind accesses_rel ?_ fun _ => ?_
    | with_reducible exact within_pure accesses_rel _
    | with_reducible exact within_st accesses_rel

theorem memRead_accesses (r : SegReg) (off : BitVec 32) (n : Nat) : Within AccessesW (memRead r off n) := by
  unfold memRead
  repeat' first
    | with_reducible exact segCheck_accesses _ _ _ _
    | with_reducible exact dataRead_accesses _ _
    | with_reducible refine within_bind accesses_rel ?_ fun _ => ?_

theorem memWrite_accesses (r : SegReg) (off : BitVec 32) (n : Nat) (v : BitVec 32) :
    Within AccessesW (memWrite r off n v) := by
  unfold memWrite
  repeat' first
    | with_reducible exact segCheck_accesses _ _ _ _
    | with_reducible exact dataWrite_accesses _ _ _
    | with_reducible refine within_bind accesses_rel ?_ fun _ => ?_

theorem memProbe_accesses (r : SegReg) (off : BitVec 32) (n : Nat) (write : Bool) :
    Within AccessesW (memProbe r off n write) := by
  unfold memProbe
  repeat' first
    | with_reducible exact linProbe_accesses _ _ _ _
    | with_reducible exact segCheck_accesses _ _ _ _
    | with_reducible refine within_bind accesses_rel ?_ fun _ => ?_
    | with_reducible exact within_pure accesses_rel _
    | with_reducible exact within_st accesses_rel

theorem memRead2_accesses (r : SegReg) (off : BitVec 32) (n m : Nat) : Within AccessesW (memRead2 r off n m) := by
  unfold memRead2
  repeat' first
    | with_reducible exact linProbe_accesses _ _ _ _
    | with_reducible exact segCheck_accesses _ _ _ _
    | with_reducible exact dataRead_accesses _ _
    | with_reducible refine within_bind accesses_rel ?_ fun _ => ?_
    | with_reducible exact within_pure accesses_rel _
    | with_reducible exact within_st accesses_rel

theorem memWrite2_accesses (r : SegReg) (off : BitVec 32) (n m : Nat) (a b : BitVec 32) :
    Within AccessesW (memWrite2 r off n m a b) := by
  unfold memWrite2
  repeat' first
    | with_reducible exact linProbe_accesses _ _ _ _
    | with_reducible exact segCheck_accesses _ _ _ _
    | with_reducible exact dataWrite_accesses _ _ _
    | with_reducible refine within_bind accesses_rel ?_ fun _ => ?_
    | with_reducible exact within_pure accesses_rel _
    | with_reducible exact within_st accesses_rel

theorem stackRead_accesses (k n : Nat) : Within AccessesW (stackRead k n) := by
  unfold stackRead
  repeat' first
    | with_reducible exact memRead_accesses _ _ _
    | with_reducible refine within_bind accesses_rel ?_ fun _ => ?_
    | with_reducible exact within_pure accesses_rel _
    | with_reducible exact within_st accesses_rel

theorem readDescAt_accesses (la : BitVec 32) : Within AccessesW (readDescAt la) := by
  unfold readDescAt
  repeat' first
    | with_reducible exact linRead_accesses _ _ _
    | with_reducible refine within_bind accesses_rel ?_ fun _ => ?_
    | with_reducible exact within_pure accesses_rel _

theorem readDescriptor_accesses (sel : BitVec 16) : Within AccessesW (readDescriptor sel) := by
  unfold readDescriptor
  repeat' first
    | with_reducible exact readDescAt_accesses _
    | with_reducible refine within_bind accesses_rel ?_ fun _ => ?_
    | with_reducible exact within_pure accesses_rel _
    | with_reducible exact within_st accesses_rel
    | split

theorem fetchDesc_accesses (sel : BitVec 16) (k : CodeExc) : Within AccessesW (fetchDesc sel k) := by
  unfold fetchDesc
  repeat' first
    | with_reducible exact selCode_accesses _
    | with_reducible exact readDescriptor_accesses _
    | with_reducible refine within_bind accesses_rel ?_ fun _ => ?_
    | with_reducible exact within_pure accesses_rel _
    | with_reducible exact within_raise accesses_rel _
    | split

theorem setAccessBits_accesses (sel : BitVec 16) (m : Byte) : Within AccessesW (setAccessBits sel m) := by
  unfold setAccessBits
  repeat' first
    | with_reducible exact setBits_accesses _ _
    | with_reducible exact linAccess_accesses _ _ _ _
    | with_reducible refine within_bind accesses_rel ?_ fun _ => ?_
    | with_reducible exact within_pure accesses_rel _
    | with_reducible exact within_st accesses_rel

theorem setAccessed_accesses (sel : BitVec 16) (d : Desc) : Within AccessesW (setAccessed sel d) := by
  unfold setAccessed
  repeat' first
    | with_reducible exact setAccessBits_accesses _ _
    | with_reducible exact within_pure accesses_rel _
    | split

theorem tssStack_accesses (pl : BitVec 2) : Within AccessesW (tssStack pl) := by
  unfold tssStack
  repeat' first
    | with_reducible exact checkSel_accesses _ _ _
    | with_reducible exact linRead_accesses _ _ _
    | with_reducible refine within_bind accesses_rel ?_ fun _ => ?_
    | with_reducible exact within_pure accesses_rel _
    | with_reducible exact within_st accesses_rel
    | with_reducible exact within_need accesses_rel _ _

theorem innerStack_accesses (pl : BitVec 2) (n : Nat) : Within AccessesW (innerStack pl n) := by
  unfold innerStack
  repeat' first
    | with_reducible exact checkSel_accesses _ _ _
    | with_reducible exact fetchDesc_accesses _ _
    | with_reducible exact tssStack_accesses _
    | with_reducible refine within_bind accesses_rel ?_ fun _ => ?_
    | with_reducible exact within_pure accesses_rel _

theorem changeAccess_accesses (sel : BitVec 16) (f : Byte → Byte) : Within AccessesW (changeAccess sel f) := by
  unfold changeAccess
  repeat' first
    | with_reducible exact physReadByte_accesses _
    | with_reducible exact physWriteByte_accesses _ _
    | with_reducible exact linAccess_accesses _ _ _ _
    | with_reducible refine within_bind accesses_rel ?_ fun _ => ?_
    | with_reducible exact within_pure accesses_rel _
    | with_reducible exact within_st accesses_rel

theorem clearBusy_accesses (sel : BitVec 16) : Within AccessesW (clearBusy sel) := changeAccess_accesses _ _

theorem setBusy_accesses (sel : BitVec 16) : Within AccessesW (setBusy sel) := changeAccess_accesses _ _

theorem probeSwitch_accesses (kind : SwitchKind) (nsel : BitVec 16) (d : Desc) :
    Within AccessesW (probeSwitch kind nsel d) := by
  unfold probeSwitch
  repeat' first
    | with_reducible exact linProbe_accesses _ _ _ _
    | with_reducible refine within_bind accesses_rel ?_ fun _ => ?_
    | with_reducible exact within_pure accesses_rel _
    | with_reducible exact within_st accesses_rel
    | split

theorem saveTask_accesses (e : BitVec 32) (fl : Flags) : Within AccessesW (saveTask e fl) := by
  unfold saveTask
  repeat' first
    | with_reducible exact linWrite_accesses _ _ _ _
    | with_reducible refine within_bind accesses_rel ?_ fun _ => ?_
    | with_reducible exact within_pure accesses_rel _
    | with_reducible exact within_st accesses_rel
    | with_reducible refine within_each accesses_rel (fun _ => ?_) _

theorem Place.read_accesses (p : Place) : Within AccessesW (p.read) := by
  unfold Place.read
  repeat' first
    | with_reducible exact memRead_accesses _ _ _
    | with_reducible refine within_bind accesses_rel ?_ fun _ => ?_
    | with_reducible exact within_pure accesses_rel _
    | with_reducible exact within_st accesses_rel
    | split

theorem Place.probe_accesses (p : Place) : Within AccessesW (p.probe) := by
  unfold Place.probe
  repeat' first
    | with_reducible exact memProbe_accesses _ _ _ _
    | with_reducible exact within_pure accesses_rel _
    | split

theorem read16_accesses (rm : RM Reg) : Within AccessesW (read16 rm) := by
  unfold read16
  repeat' first
    | with_reducible exact Place.read_accesses _
    | with_reducible refine within_bind accesses_rel ?_ fun _ => ?_
    | with_reducible exact within_pure accesses_rel _
    | with_reducible exact within_st accesses_rel

theorem readFarPtr_accesses (m : Mem) : Within AccessesW (readFarPtr m) := by
  unfold readFarPtr
  repeat' first
    | with_reducible exact memRead2_accesses _ _ _ _
    | with_reducible refine within_bind accesses_rel ?_ fun _ => ?_
    | with_reducible exact within_pure accesses_rel _
    | with_reducible exact within_st accesses_rel

theorem needMem_accesses (rm : RM Reg) : Within AccessesW (needMem rm) := by
  unfold needMem
  repeat' first
    | with_reducible exact within_pure accesses_rel _
    | with_reducible exact within_raise accesses_rel _
    | split

theorem portPermitted_accesses (mapbase p : Nat) : Within AccessesW (portPermitted mapbase p) := by
  unfold portPermitted
  repeat' first
    | with_reducible exact linRead_accesses _ _ _
    | with_reducible refine within_bind accesses_rel ?_ fun _ => ?_
    | with_reducible exact within_pure accesses_rel _
    | with_reducible exact within_st accesses_rel
    | with_reducible exact within_check accesses_rel _ _

theorem ioPermission_accesses (port : BitVec 16) (n : Nat) : Within AccessesW (ioPermission port n) := by
  unfold ioPermission
  repeat' first
    | with_reducible exact linRead_accesses _ _ _
    | with_reducible exact portPermitted_accesses _ _
    | with_reducible refine within_bind accesses_rel ?_ fun _ => ?_
    | with_reducible exact within_pure accesses_rel _
    | with_reducible exact within_st accesses_rel
    | with_reducible exact within_check accesses_rel _ _
    | with_reducible exact within_need accesses_rel _ _
    | with_reducible refine within_each accesses_rel (fun _ => ?_) _
    | split

theorem portRead_accesses (n : Nat) (port : BitVec 16) : Within AccessesW (portRead n port) := by
  unfold portRead
  repeat' first
    | with_reducible exact deviceIn_accesses
    | with_reducible exact busEvent_accesses _
    | with_reducible refine within_bind accesses_rel ?_ fun _ => ?_
    | with_reducible exact within_pure accesses_rel _

theorem ioRead_accesses (port : BitVec 16) (n : Nat) : Within AccessesW (ioRead port n) := by
  unfold ioRead
  repeat' first
    | with_reducible exact portRead_accesses _ _
    | with_reducible refine within_bind accesses_rel ?_ fun _ => ?_
    | with_reducible exact within_pure accesses_rel _
    | with_reducible exact within_need accesses_rel _ _
    | with_reducible refine within_gather accesses_rel (fun _ => ?_) _
    | split

theorem ioWrite_accesses (port : BitVec 16) (n : Nat) (v : BitVec 32) : Within AccessesW (ioWrite port n v) := by
  unfold ioWrite
  repeat' first
    | with_reducible exact busEvent_accesses _
    | with_reducible refine within_bind accesses_rel ?_ fun _ => ?_
    | with_reducible exact within_pure accesses_rel _
    | with_reducible exact within_need accesses_rel _ _
    | with_reducible refine within_each accesses_rel (fun _ => ?_) _
    | split

theorem codeByteAt_accesses (pa : BitVec 32) : Within AccessesW (codeByteAt pa) := by
  unfold codeByteAt
  repeat' first
    | with_reducible exact physReadByte_accesses _
    | with_reducible refine within_bind accesses_rel ?_ fun _ => ?_
    | with_reducible exact within_pure accesses_rel _
    | with_reducible exact within_st accesses_rel
    | with_reducible exact within_need accesses_rel _ _

theorem codeByte_accesses (la : BitVec 32) : Within AccessesW (codeByte la) := by
  unfold codeByte
  repeat' first
    | with_reducible exact linAccess_accesses _ _ _ _
    | with_reducible exact codeByteAt_accesses _
    | with_reducible refine within_bind accesses_rel ?_ fun _ => ?_
    | with_reducible exact within_pure accesses_rel _
    | with_reducible exact within_st accesses_rel

/-- Looking where another mapping puts an address changes the world alone. -/
theorem mappedBy_accesses (la : BitVec 32) (m : Moment) : Within AccessesW (mappedBy la m) := by
  intro w
  unfold mappedBy
  have h := translate_accesses la false (userLevel w.s)
    { w with s := { w.s with cr0 := { w.s.cr0 with pg := m.1.pg }, pdbr := m.1.pdbr, tlb := m.1.tlb, mem := m.2 } }
  split
  · rename_i x v e
    rw [e] at h
    exact ⟨accesses_env _ _ h.state.map, rfl⟩
  · rename_i x v e
    rw [e] at h
    exact ⟨accesses_env _ _ h.state.map, rfl⟩

theorem heldOr_accesses {fresh : M Byte} (h : Within AccessesW fresh) (l : List (BitVec 32)) :
    Within AccessesW (heldOr fresh l) := by
  induction l with
  | nil => exact h
  | cons pa t ih =>
    refine within_bind accesses_rel drawBit_accesses fun held => ?_
    cases held with
    | true => exact codeByteAt_accesses pa
    | false => exact ih

theorem queuedByte_accesses (la : BitVec 32) : Within AccessesW (queuedByte la) := by
  unfold queuedByte
  repeat' first
    | with_reducible exact codeByteAt_accesses _
    | with_reducible exact codeByte_accesses _
    | with_reducible exact mappedBy_accesses _ _
    | with_reducible exact heldOr_accesses (codeByte_accesses _) _
    | with_reducible exact heldOr_accesses (codeByteAt_accesses _) _
    | with_reducible refine within_bind accesses_rel ?_ fun _ => ?_
    | with_reducible exact within_pure accesses_rel _
    | with_reducible exact within_st accesses_rel
    | with_reducible exact within_refuse accesses_rel _
    | with_reducible exact within_need accesses_rel _ _
    | with_reducible refine within_gather accesses_rel (fun _ => ?_) _
    | dsimp only []
    | split

theorem fetchByte_accesses (k : Nat) : Within AccessesW (fetchByte k) := by
  unfold fetchByte
  repeat' first
    | with_reducible exact codeByte_accesses _
    | with_reducible exact queuedByte_accesses _
    | with_reducible refine within_bind accesses_rel ?_ fun _ => ?_
    | with_reducible exact within_pure accesses_rel _
    | with_reducible exact within_st accesses_rel
    | with_reducible exact within_check accesses_rel _ _
    | with_reducible exact within_need accesses_rel _ _
    | dsimp only []
    | split

end Sys2Proof.Machine
end

