-- ==== Sys2Proof/Laws/Run.lean ====
section
/-! SUPPORT. What running a meaning to its end does, said once. -/

namespace Sys2Proof.Machine

open Sys2Proof

theorem Drawn.refl (a : Env) : Drawn a a := rfl

theorem Drawn.trans {a b c : Env} (h1 : Drawn a b) (h2 : Drawn b c) : Drawn a c := by
  unfold Drawn at h2
  rw [h1] at h2
  exact h2

/-- A free value changes the world as `Drawn` says, and nothing else. -/
theorem draw_ok (w : Work) :
    ∃ v e, draw w = .ok v { w with s := { w.s with env := e } } ∧ Drawn w.s.env e := by
  unfold draw
  simp only [M.run_bind, run_st]
  cases w.s.env.draws with
  | nil => exact ⟨_, _, rfl, rfl⟩
  | cons v t => exact ⟨_, _, rfl, rfl⟩

/-- A free bit. -/
theorem drawBit_ok (w : Work) :
    ∃ v e, drawBit w = .ok v { w with s := { w.s with env := e } } ∧ Drawn w.s.env e := by
  obtain ⟨v, e, h, hd⟩ := draw_ok w
  refine ⟨bit v 0, e, ?_, hd⟩
  unfold drawBit
  rw [M.run_bind, h]
  rfl

/-- A walk's result enters the TLB or stays out: only the TLB, the record of replaced entries and the world change. -/
theorem enterTlb_ok (x : TlbEntry) (w : Work) :
    ∃ t g e, enterTlb x w = .ok () { w with s := { w.s with
      tlb := t, prefetch := { w.s.prefetch with gone := g }, env := e } } ∧ Drawn w.s.env e := by
  unfold enterTlb
  rw [M.run_bind, run_st]
  dsimp only []
  rw [M.run_bind]
  have hx : ∃ stays e, (if (w.s.tlb.any fun o => o.v && o.page == x.page && !o.d && x.d) = true then drawBit else pure false) w =
      .ok stays { w with s := { w.s with env := e } } ∧ Drawn w.s.env e := by
    by_cases hc : (w.s.tlb.any fun o => o.v && o.page == x.page && !o.d && x.d) = true
    · rw [if_pos hc]
      exact drawBit_ok w
    · rw [if_neg hc]
      exact ⟨false, w.s.env, rfl, Drawn.refl _⟩
  obtain ⟨stays, e, h, hd⟩ := hx
  rw [h]
  cases stays with
  | true => exact ⟨_, _, e, rfl, hd⟩
  | false => exact ⟨_, _, e, rfl, hd⟩

/-- The answer `r` of a translation that goes on in `u`: a walk's, or that of one of the entries, never one with D = 0 for a
write (20 R94). -/
def LooksTo (la : BitVec 32) (write user : Bool) (l : List TlbEntry) (r : EStateM.Result Stop Work Xlat) (u : Work) : Prop :=
  r = pageWalk la write user u ∨
    ∃ e ∈ l, (write = true → e.d = true) ∧
      r = if pageAllows write user e.u e.w then .ok (Xlat.plain (inFrame e.frame la)) u
        else .error (.exc (.pf la (pfCode true write user))) u

/-- What a translation through the TLB gives, after free choices alone. -/
theorem lookOrWalk_cases (la : BitVec 32) (write user : Bool) (l : List TlbEntry) (w : Work) :
    ∃ n, Drawn w.s.env n ∧
      LooksTo la write user l (lookOrWalk la write user l w) { w with s := { w.s with env := n } } := by
  induction l generalizing w with
  | nil => exact ⟨w.s.env, Drawn.refl _, .inl rfl⟩
  | cons e t ih =>
    have rest (n : Env) (hd : Drawn w.s.env n)
        (h : lookOrWalk la write user (e :: t) w = lookOrWalk la write user t { w with s := { w.s with env := n } }) :
        ∃ n, Drawn w.s.env n ∧
          LooksTo la write user (e :: t) (lookOrWalk la write user (e :: t) w) { w with s := { w.s with env := n } } := by
      obtain ⟨n', hd', hc⟩ := ih { w with s := { w.s with env := n } }
      rw [h]
      exact ⟨n', hd.trans hd', hc.imp id fun ⟨o, ho, r⟩ => ⟨o, List.mem_cons_of_mem _ ho, r⟩⟩
    cases hc : write && !e.d with
    | true => exact rest w.s.env (Drawn.refl _) (by rw [lookOrWalk, M.run_bind, run_st]; simp [hc])
    | false =>
      have hx : ∃ use n, (if dropUnseen w.s la e t = true then pure true else drawBit : M Bool) w =
          .ok use { w with s := { w.s with env := n } } ∧ Drawn w.s.env n := by
        by_cases hs : dropUnseen w.s la e t = true
        · rw [if_pos hs]
          exact ⟨true, w.s.env, rfl, Drawn.refl _⟩
        · rw [if_neg hs]
          exact drawBit_ok w
      obtain ⟨use, n, h, hd⟩ := hx
      have step : lookOrWalk la write user (e :: t) w = (if use = true then (do
          check (pageAllows write user e.u e.w) (.pf la (pfCode true write user))
          pure (Xlat.plain (inFrame e.frame la)))
          else lookOrWalk la write user t : M Xlat) { w with s := { w.s with env := n } } := by
        rw [lookOrWalk, M.run_bind, run_st]
        simp only [hc, if_neg Bool.false_ne_true]
        rw [M.run_bind, h]
      cases use with
      | false => exact rest n hd step
      | true =>
        refine ⟨n, hd, .inr ⟨e, List.mem_cons_self, fun hw => by simpa [hw] using hc, step.trans ?_⟩⟩
        rw [if_pos rfl, M.run_bind]
        cases pageAllows write user e.u e.w <;> rfl

/-- The attribute that a TLB write gives: the bit of a proper pair, a free one of another. -/
theorem writtenAttr_ok (x y : Bool) (w : Work) :
    ∃ v e, writtenAttr x y w = .ok v { w with s := { w.s with env := e } } ∧ Drawn w.s.env e ∧ (x ≠ y → v = x) := by
  unfold writtenAttr
  by_cases h : x = y
  · obtain ⟨v, e, hv, hd⟩ := drawBit_ok w
    refine ⟨v, e, ?_, hd, fun hn => absurd h hn⟩
    rw [if_neg (by simp [h]), hv]
  · refine ⟨x, w.s.env, ?_, Drawn.refl _, fun _ => rfl⟩
    rw [if_pos (by simpa using h)]
    rfl

/-- What the queue may hold of a byte: it is one of the places given, or what `fresh` answers, after free choices alone. -/
theorem heldOr_cases (fresh : M Byte) (l : List (BitVec 32)) (w : Work) :
    ∃ e, Drawn w.s.env e ∧
      let u : Work := { w with s := { w.s with env := e } }
      (heldOr fresh l w = fresh u ∨ ∃ pa ∈ l, heldOr fresh l w = codeByteAt pa u) := by
  induction l generalizing w with
  | nil => exact ⟨w.s.env, Drawn.refl _, .inl rfl⟩
  | cons pa t ih =>
    obtain ⟨held, e, h, hd⟩ := drawBit_ok w
    have step : heldOr fresh (pa :: t) w =
        (if held then codeByteAt pa else heldOr fresh t) { w with s := { w.s with env := e } } := by
      change (drawBit >>= fun held => if held then codeByteAt pa else heldOr fresh t) w = _
      rw [M.run_bind, h]
    cases held with
    | true => exact ⟨e, hd, .inr ⟨pa, List.mem_cons_self, step⟩⟩
    | false =>
      obtain ⟨e', hd', hc⟩ := ih { w with s := { w.s with env := e } }
      refine ⟨e', hd.trans hd', ?_⟩
      rcases hc with hf | ⟨q, hq, hf⟩
      · exact .inl (step.trans hf)
      · exact .inr ⟨q, List.mem_cons_of_mem _ hq, step.trans hf⟩

/-- Sixteen free bits. -/
theorem draw16_ok (w : Work) :
    ∃ v e, draw16 w = .ok v { w with s := { w.s with env := e } } ∧ Drawn w.s.env e := by
  obtain ⟨v, e, h, hd⟩ := draw_ok w
  refine ⟨lo16 v, e, ?_, hd⟩
  unfold draw16
  rw [M.run_bind, h]
  rfl

/-- Six free flags. -/
theorem drawStatus_ok (w : Work) :
    ∃ v e, drawStatus w = .ok v { w with s := { w.s with env := e } } ∧ Drawn w.s.env e := by
  obtain ⟨v, e, h, hd⟩ := draw_ok w
  refine ⟨Status.ofDraw v, e, ?_, hd⟩
  unfold drawStatus
  rw [M.run_bind, h]
  rfl

/-- The bits of DR6 for the disabled data breakpoints met. -/
theorem disabledBits_ok (w : Work) :
    ∃ v e, disabledBits w = .ok v { w with s := { w.s with env := e } } ∧ Drawn w.s.env e ∧
      (w.hitOff = 0 → v = 0 ∧ e = w.s.env) := by
  unfold disabledBits
  simp only [M.run_bind, run_get]
  by_cases h1 : w.hitOff = 0
  · rw [if_pos h1]
    exact ⟨0, w.s.env, rfl, Drawn.refl _, fun _ => ⟨rfl, rfl⟩⟩
  · rw [if_neg h1]
    obtain ⟨v, e, h, hd⟩ := draw_ok w
    refine ⟨w.hitOff &&& v, e, ?_, hd, fun h => absurd h h1⟩
    rw [M.run_bind, h]
    rfl

/-- The debug traps of a completed instruction: only the pending traps and the world change. -/
theorem collectTraps_ok (tf exact : Bool) (w : Work) :
    ∃ pd ld e, collectTraps tf exact w =
        .ok () { w with s := { w.s with pendingDbg := pd, lateDbg := ld, env := e } } ∧ Drawn w.s.env e ∧
      (w.hitOn = 0 → w.hitOff = 0 →
        pd = w.s.pendingDbg ||| w.s.lateDbg ||| (if tf then 0x4000#32 else 0) ∧ ld = 0 ∧ e = w.s.env) := by
  unfold collectTraps
  obtain ⟨off, e, h, hd, hz⟩ := disabledBits_ok w
  generalize hp : w.s.pendingDbg ||| w.s.lateDbg ||| (if tf then 0x4000#32 else 0) = p
  have hpd : ∃ q, (if p = 0 ∨ w.s.intShadow = true then ({ w.s with env := e, pendingDbg := p, lateDbg := 0 } : State)
      else { w.s with env := e, pendingDbg := p ||| off, lateDbg := 0 }) =
        { w.s with env := e, pendingDbg := q, lateDbg := 0 } ∧ (off = 0 → q = p) := by
    by_cases h0 : p = 0 ∨ w.s.intShadow = true
    · exact ⟨p, if_pos h0, fun _ => rfl⟩
    · exact ⟨p ||| off, if_neg h0, fun ho => by rw [ho]; exact BitVec.or_zero⟩
  obtain ⟨q, hq, hq0⟩ := hpd
  simp only [M.run_bind, h, run_upd, run_get, hp, hq]
  by_cases hv : w.hitOn = 0
  · rw [if_pos hv]
    exact ⟨_, _, e, rfl, hd, fun _ h0 => ⟨hq0 (hz h0).1, rfl, (hz h0).2⟩⟩
  · rw [if_neg hv]
    cases exact with
    | true => exact ⟨_, _, e, rfl, hd, fun h0 => absurd h0 hv⟩
    | false =>
      rw [if_neg Bool.false_ne_true, M.run_bind]
      obtain ⟨v2, e2, h2, hd2⟩ := draw_ok { w with s := { w.s with env := e, pendingDbg := q, lateDbg := 0 } }
      rw [h2]
      simp only []
      by_cases hb : bit v2 0 = true
      · rw [if_pos hb]
        exact ⟨_, _, e2, rfl, hd.trans hd2, fun h0 => absurd h0 hv⟩
      · rw [if_neg hb]
        by_cases hb1 : bit v2 1 = true
        · rw [if_pos hb1]
          exact ⟨_, _, e2, rfl, hd.trans hd2, fun h0 => absurd h0 hv⟩
        · rw [if_neg hb1]
          exact ⟨_, _, e2, rfl, hd.trans hd2, fun h0 => absurd h0 hv⟩

/-- The prefixes of a ready instruction are in order. -/
theorem prefixesOk_ok {lockable repeatable : Bool} {s : State} (h : ReadyFor lockable s) :
    prefixesOk lockable repeatable s.work = .ok () s.work := by
  have h1 : (!s.insn.lock || lockable) = true := by
    cases hl : s.insn.lock with
    | false => rfl
    | true => rw [h.lock hl]; rfl
  simp [prefixesOk, State.work, Work.start, h1, h.rep, h.repne]

/-- An instruction that has room goes on. -/
theorem needNext_ok {s : State} (h : s.eip.toNat + s.insn.len < 2 ^ 32) (w : Work) : needNext s w = .ok () w := by
  unfold needNext
  rw [decide_eq_true h]
  rfl

/-- An instruction that ends at offset FFFFFFFFH is refused. -/
theorem needNext_past {s : State} (h : 2 ^ 32 ≤ s.eip.toNat + s.insn.len) (w : Work) :
    needNext s w = .error (.refuse .eipWrap) w := by
  unfold needNext
  rw [decide_eq_false (by omega)]
  rfl

/-- `EIP_next` of an instruction that has room. -/
theorem eipNext_ok {w : Work} (h : w.s.eip.toNat + w.s.insn.len < 2 ^ 32) : eipNext w = .ok w.s.nextEip w := by
  unfold eipNext
  simp only [M.run_bind, run_st, needNext_ok h]
  rfl

/-- The end of an instruction that goes on to the next one. -/
theorem finish_next {s : State} {w : Work} (hw : w.waiting = false) (hj : w.jumped = false)
    (hr : w.repeating = false) (hk : w.keepRf = false) (room : w.s.eip.toNat + w.s.insn.len < 2 ^ 32) :
    ∃ v, finish s w = .ok () v ∧ EndsAt s w.s w.s.nextEip (endStep v.s) ∧
      (w.hitOn = 0 → w.hitOff = 0 → endStep v.s = s.completedAt w.s w.s.nextEip) := by
  obtain ⟨pd, ld, e, h, hd, hz⟩ := collectTraps_ok s.flags.tf (bit s.dr7 8 || bit s.dr7 9)
    { w with s := { w.s with eip := w.s.nextEip, flags := { w.s.flags with rf := false } } }
  have hd' : Drawn w.s.env e := hd
  have hz' : w.hitOn = 0 → w.hitOff = 0 → pd = w.s.pendingDbg ||| w.s.lateDbg ||| (if s.flags.tf then 0x4000#32 else 0) ∧
      ld = 0 ∧ e = w.s.env := hz
  refine ⟨{ w with s := { w.s with
    eip := w.s.nextEip, flags := { w.s.flags with rf := false }, pendingDbg := pd, lateDbg := ld, env := e } }, ?_, ⟨rfl, hd'⟩, ?_⟩
  · unfold finish
    simpa [hw, hj, hr, hk, eipNext_ok room] using h
  · intro h0 h0'
    obtain ⟨h1, h2, h3⟩ := hz' h0 h0'
    rw [h1, h2, h3]
    rfl

/-- The end of an instruction that has set EIP. -/
theorem finish_jump {s : State} {w : Work} (hw : w.waiting = false) (hj : w.jumped = true)
    (hr : w.repeating = false) (hk : w.keepRf = false) :
    ∃ v, finish s w = .ok () v ∧ EndsAt s w.s w.s.eip (endStep v.s) ∧
      (w.hitOn = 0 → w.hitOff = 0 → endStep v.s = s.completedAt w.s w.s.eip) := by
  obtain ⟨pd, ld, e, h, hd, hz⟩ := collectTraps_ok s.flags.tf (bit s.dr7 8 || bit s.dr7 9)
    { w with s := { w.s with flags := { w.s.flags with rf := false } } }
  have hd' : Drawn w.s.env e := hd
  have hz' : w.hitOn = 0 → w.hitOff = 0 → pd = w.s.pendingDbg ||| w.s.lateDbg ||| (if s.flags.tf then 0x4000#32 else 0) ∧
      ld = 0 ∧ e = w.s.env := hz
  refine ⟨{ w with s := { w.s with
    flags := { w.s.flags with rf := false }, pendingDbg := pd, lateDbg := ld, env := e } }, ?_, ⟨rfl, hd'⟩, ?_⟩
  · unfold finish
    simpa [hw, hj, hr, hk] using h
  · intro h0 h0'
    obtain ⟨h1, h2, h3⟩ := hz' h0 h0'
    rw [h1, h2, h3]
    rfl

/-- Running a meaning that ends well. -/
theorem runWith_ok {lockable repeatable : Bool} {body : M Unit} {s : State} {w v : Work} (h : ReadyFor lockable s)
    (hb : body s.work = .ok () w) (hf : finish s w = .ok () v) :
    runWith lockable repeatable body s = .next (endStep v.s) := by
  unfold runWith
  rw [M.run_bind, prefixesOk_ok h]
  simp only [M.run_bind, hb, hf]
  rfl

/-- Running a meaning that stops with an exception. -/
theorem runWith_exc {lockable repeatable : Bool} {body : M Unit} {s : State} {w : Work} {e : Exc}
    (h : ReadyFor lockable s) (hb : body s.work = .error (.exc e) w) :
    runWith lockable repeatable body s = raiseExc 6 (rollback s w) e := by
  unfold runWith
  rw [M.run_bind, prefixesOk_ok h]
  simp only [M.run_bind, hb]
  rfl

/-- Running a meaning that ends well and goes on to the next instruction. -/
theorem runWith_ends {lockable repeatable : Bool} {body : M Unit} {s : State} {w : Work} (h : ReadyFor lockable s)
    (hb : body s.work = .ok () w) (hw : w.waiting = false) (hj : w.jumped = false) (hr : w.repeating = false)
    (hk : w.keepRf = false) (he : w.s.eip = s.eip) (hi : w.s.insn = s.insn) :
    ∃ t, runWith lockable repeatable body s = .next t ∧ Ends s w.s t ∧ (w.hitOn = 0 → w.hitOff = 0 → t = s.completed w.s) := by
  have hn : w.s.nextEip = s.nextEip := by
    unfold State.nextEip
    rw [he, hi]
  obtain ⟨v, h1, h2, h3⟩ := finish_next hw hj hr hk (by rw [he, hi]; exact h.room) (s := s)
  rw [hn] at h2 h3
  exact ⟨_, runWith_ok h hb h1, h2, h3⟩

/-- Running a meaning that ends well and has set EIP. -/
theorem runWith_jumps {lockable repeatable : Bool} {body : M Unit} {s : State} {w : Work} (h : ReadyFor lockable s)
    (hb : body s.work = .ok () w) (hw : w.waiting = false) (hj : w.jumped = true) (hr : w.repeating = false)
    (hk : w.keepRf = false) :
    ∃ t, runWith lockable repeatable body s = .next t ∧ EndsAt s w.s w.s.eip t ∧
      (w.hitOn = 0 → w.hitOff = 0 → t = s.completedAt w.s w.s.eip) := by
  obtain ⟨v, h1, h2, h3⟩ := finish_jump hw hj hr hk (s := s)
  exact ⟨_, runWith_ok h hb h1, h2, h3⟩

/-- An instruction that raises an exception before it has changed anything. -/
theorem rollback_work (s : State) : rollback s s.work = s.faulting := rfl

end Sys2Proof.Machine
end

