-- ==== Sys2Proof/Laws/Frame.lean ====
section
/-! SUPPORT. What accesses leave of memory: a read changes no byte but accessed and dirty bits of page tables, a write
none but the bytes it stores to. One lemma for each operation. -/

namespace Sys2Proof.Machine

open Sys2Proof

theorem FrameExcept.refl (s : State) (l : List (BitVec 32)) : FrameExcept s s l := fun _ _ => ⟨rfl, fun _ => rfl⟩

theorem FrameExcept.trans {s t u : State} {l : List (BitVec 32)} (h1 : FrameExcept s t l) (h2 : FrameExcept t u l)
    (hc : t.cr0 = s.cr0) : FrameExcept s u l := by
  intro a ha
  refine ⟨(h2 a ha).1.trans (h1 a ha).1, fun hp => ?_⟩
  rw [(h2 a ha).2 (by rw [hc]; exact hp), (h1 a ha).2 hp]

theorem FrameExcept.weaken {s t : State} {l : List (BitVec 32)} (h : FrameExcept s t []) : FrameExcept s t l :=
  fun a _ => h a List.not_mem_nil

theorem FrameExcept.of_mem {s t : State} (h : t.mem = s.mem) (l : List (BitVec 32)) : FrameExcept s t l := by
  intro a _
  unfold State.byteAt
  rw [h]
  exact ⟨rfl, fun _ => rfl⟩

/-- An access that only reads. -/
structure ReadsW (w v : Work) : Prop where
  acc : AccessesW w v
  frame : Memory.wf w.s.mem = true → FrameExcept w.s v.s []

theorem reads_rel : StepRel ReadsW where
  refl w := ⟨accesses_rel.refl w, fun _ => FrameExcept.refl _ _⟩
  trans u v w h1 h2 := by
    refine ⟨accesses_rel.trans _ _ _ h1.acc h2.acc, fun h => ?_⟩
    exact (h1.frame h).trans (h2.frame (h1.acc.state.wf h)) h1.acc.state.cr0

/-- An access after which memory is the same. -/
theorem ReadsW.of_mem {w v : Work} (h : AccessesW w v) (hm : v.s.mem = w.s.mem) : ReadsW w v :=
  ⟨h, fun _ => FrameExcept.of_mem hm _⟩

theorem draw_reads : Within ReadsW draw := by
  intro w
  refine ReadsW.of_mem (draw_accesses w) ?_
  unfold draw
  simp only [M.run_bind, run_st]
  cases w.s.env.draws <;> rfl

theorem deviceIn_reads : Within ReadsW deviceIn := by
  intro w
  refine ReadsW.of_mem (deviceIn_accesses w) ?_
  unfold deviceIn
  simp only [M.run_bind, run_st]
  cases w.s.env.devIn <;> rfl

theorem busEvent_reads (e : BusEvent) : Within ReadsW (busEvent e) := fun w => ReadsW.of_mem (busEvent_accesses e w) rfl

theorem extBit_reads : Within ReadsW extBit := fun _ => reads_rel.refl _

theorem draw16_reads : Within ReadsW (draw16) := by
  unfold draw16
  repeat' first
    | with_reducible exact draw_reads
    | with_reducible refine within_bind reads_rel ?_ fun _ => ?_
    | with_reducible exact within_pure reads_rel _

theorem drawBit_reads : Within ReadsW (drawBit) := by
  unfold drawBit
  repeat' first
    | with_reducible exact draw_reads
    | with_reducible refine within_bind reads_rel ?_ fun _ => ?_
    | with_reducible exact within_pure reads_rel _

theorem selCode_reads (sel : BitVec 16) : Within ReadsW (selCode sel) := by
  unfold selCode
  repeat' first
    | with_reducible exact extBit_reads
    | with_reducible refine within_bind reads_rel ?_ fun _ => ?_
    | with_reducible exact within_pure reads_rel _

theorem checkSel_reads (c : Bool) (k : CodeExc) (sel : BitVec 16) : Within ReadsW (checkSel c k sel) := by
  unfold checkSel
  repeat' first
    | with_reducible exact selCode_reads _
    | with_reducible refine within_bind reads_rel ?_ fun _ => ?_
    | with_reducible exact within_pure reads_rel _
    | with_reducible exact within_check reads_rel _ _

theorem physReadByte_reads (pa : BitVec 32) : Within ReadsW (physReadByte pa) := by
  unfold physReadByte
  repeat' first
    | with_reducible exact deviceIn_reads
    | with_reducible exact busEvent_reads _
    | with_reducible refine within_bind reads_rel ?_ fun _ => ?_
    | with_reducible exact within_pure reads_rel _
    | with_reducible exact within_st reads_rel
    | with_reducible exact within_refuse reads_rel _
    | split

theorem physReadAt_reads (pas : List (BitVec 32)) : Within ReadsW (physReadAt pas) := by
  unfold physReadAt
  repeat' first
    | with_reducible exact deviceIn_reads
    | with_reducible exact busEvent_reads _
    | with_reducible exact physReadByte_reads _
    | with_reducible refine within_bind reads_rel ?_ fun _ => ?_
    | with_reducible exact within_pure reads_rel _
    | with_reducible exact within_st reads_rel
    | with_reducible refine within_gather reads_rel (fun _ => ?_) _
    | dsimp only []
    | split

theorem physRead_reads (pa : BitVec 32) (n : Nat) : Within ReadsW (physRead pa n) := physReadAt_reads _

theorem pageWalk_reads (la : BitVec 32) (write user : Bool) : Within ReadsW (pageWalk la write user) := by
  unfold pageWalk
  repeat' first
    | with_reducible exact physRead_reads _ _
    | with_reducible refine within_bind reads_rel ?_ fun _ => ?_
    | with_reducible exact within_pure reads_rel _
    | with_reducible exact within_st reads_rel
    | with_reducible exact within_check reads_rel _ _

theorem lookOrWalk_reads (la : BitVec 32) (write user : Bool) (l : List TlbEntry) :
    Within ReadsW (lookOrWalk la write user l) := by
  induction l with
  | nil => exact pageWalk_reads _ _ _
  | cons e t ih =>
    unfold lookOrWalk
    repeat' first
      | with_reducible exact drawBit_reads
      | with_reducible exact pageWalk_reads _ _ _
      | with_reducible exact ih
      | with_reducible refine within_bind reads_rel ?_ fun _ => ?_
      | with_reducible exact within_pure reads_rel _
      | with_reducible exact within_st reads_rel
      | with_reducible exact within_check reads_rel _ _
      | split

theorem translate_reads (la : BitVec 32) (write user : Bool) : Within ReadsW (translate la write user) := by
  unfold translate
  repeat' first
    | with_reducible exact lookOrWalk_reads _ _ _ _
    | with_reducible refine within_bind reads_rel ?_ fun _ => ?_
    | with_reducible exact within_pure reads_rel _
    | with_reducible exact within_st reads_rel
    | split

theorem translateAll_reads (la : BitVec 32) (n : Nat) (write user : Bool) :
    Within ReadsW (translateAll la n write user) := by
  unfold translateAll
  repeat' first
    | with_reducible exact translate_reads _ _ _
    | with_reducible refine within_bind reads_rel ?_ fun _ => ?_
    | with_reducible exact within_pure reads_rel _
    | split

theorem linProbe_reads (la : BitVec 32) (n : Nat) (write user : Bool) : Within ReadsW (linProbe la n write user) := by
  unfold linProbe
  repeat' first
    | with_reducible exact translateAll_reads _ _ _ _
    | with_reducible refine within_bind reads_rel ?_ fun _ => ?_
    | with_reducible exact within_pure reads_rel _

/-! ### Writes -/

/-- A byte read: memory is the same, and RAM gives the byte there. -/
theorem physReadByte_mem (pa : BitVec 32) (w : Work) :
    (leftWork (physReadByte pa w)).s.mem = w.s.mem ∧
      (w.s.kindAt pa = .ram → physReadByte pa w = .ok (w.s.byteAt pa) w) := by
  unfold physReadByte
  simp only [M.run_bind, run_st]
  cases hk : w.s.kindAt pa with
  | ram => exact ⟨rfl, fun _ => rfl⟩
  | rom => exact ⟨rfl, fun _ => rfl⟩
  | nothing => exact ⟨rfl, fun h => by cases h⟩
  | device =>
    refine ⟨?_, fun h => by cases h⟩
    simp only [M.run_bind]
    unfold deviceIn
    simp only [M.run_bind, run_st]
    cases w.s.env.devIn <;> rfl

/-- One byte written. -/
theorem physWriteByte_bytes (pa : BitVec 32) (v : Byte) (w : Work) (hm : Memory.wf w.s.mem = true) (a : BitVec 32) :
    (leftWork (physWriteByte pa v w)).s.byteAt a =
      if a = pa ∧ w.s.kindAt pa = .ram then v else w.s.byteAt a := by
  unfold physWriteByte
  simp only [M.run_bind, run_st]
  cases hk : w.s.kindAt pa with
  | ram =>
    simp only [run_upd, leftWork, State.byteAt, and_true]
    rw [Memory.read_write hm]
    simp only [BitVec.toNat_inj]
  | rom => simp [leftWork]
  | nothing => simp [leftWork]
  | device => simp [leftWork, State.byteAt]

/-- Bytes written one after the other. -/
theorem each_write_frame {l : List (BitVec 32 × Byte)} {w w' : Work}
    (h : each (fun p => physWriteByte p.1 p.2) l w = .ok () w') (hm : Memory.wf w.s.mem = true) (a : BitVec 32) :
    (∀ p ∈ l, a ≠ p.1) → w'.s.byteAt a = w.s.byteAt a := by
  induction l generalizing w with
  | nil =>
    cases h
    exact fun _ => rfl
  | cons p t ih =>
    intro ha
    unfold each at h
    obtain ⟨_, v, h1, h2⟩ := bind_eq_ok.mp h
    rw [ih h2 (((physWriteByte_accesses _ _).ok h1).state.wf hm) fun q hq => ha q (List.mem_cons_of_mem _ hq)]
    have := physWriteByte_bytes p.1 p.2 w hm a
    rw [h1] at this
    rw [if_neg fun e => ha p List.mem_cons_self e.1] at this
    exact this

/-- A write leaves every byte but those it stores to. -/
theorem physWriteAt_frame {pas : List (BitVec 32)} {v : BitVec 32} {w w' : Work}
    (h : physWriteAt pas v w = .ok () w') (hm : Memory.wf w.s.mem = true) (a : BitVec 32) (ha : a ∉ pas) :
    w'.s.byteAt a = w.s.byteAt a := by
  unfold physWriteAt at h
  simp only [M.run_bind, run_st] at h
  by_cases hd : oneDeviceAccess w.s pas = true
  · rw [if_pos hd] at h
    cases h
    rfl
  · rw [if_neg hd] at h
    obtain ⟨_, u, h1, h2⟩ := bind_eq_ok.1 h
    cases h2
    simp only [State.byteAt, State.joinStores_mem]
    refine each_write_frame h1 hm a fun p hp e => ha ?_
    rw [e]
    exact (List.of_mem_zip hp).1

/-- Bits set in a byte of a table: no other bit of memory changes. -/
theorem setBits_bytes (pa : BitVec 32) (m : Byte) (w : Work) (hm : Memory.wf w.s.mem = true) (a : BitVec 32) :
    (leftWork (setBits pa m w)).s.byteAt a ||| m = w.s.byteAt a ||| m := by
  obtain ⟨h1, h2⟩ := physReadByte_mem pa w
  have hr := (physReadByte_accesses pa) w
  unfold setBits
  rw [M.run_bind]
  cases h : physReadByte pa w with
  | error e v =>
    rw [h] at h1
    simp only [leftWork, State.byteAt] at h1 ⊢
    rw [h1]
  | ok b v =>
    rw [h] at h1 hr
    simp only [leftWork] at h1 hr
    have hw := physWriteByte_bytes pa (b ||| m) v (by rw [h1]; exact hm) a
    have hk : v.s.kindAt pa = w.s.kindAt pa := by
      unfold State.kindAt
      rw [hr.state.map]
    have hb : (leftWork (physWriteByte pa (b ||| m) v)).s.byteAt a ||| m = w.s.byteAt a ||| m := by
      rw [hw]
      split
      · rename_i hc
        have := h2 (by rw [← hk]; exact hc.2)
        rw [h] at this
        cases this
        rw [hc.1, BitVec.or_assoc, BitVec.or_self]
      · simp only [State.byteAt, h1]
    simp only [M.run_bind]
    cases h3 : physWriteByte pa (b ||| m) v with
    | ok u v' =>
      rw [h3] at hb
      exact hb
    | error e v' =>
      rw [h3] at hb
      exact hb

/-- What a translation asks to be set in the tables: accessed and dirty bits, nothing with paging off. -/
structure Xlat.Sound (x : Xlat) (pg : Bool) : Prop where
  bits : x.pteBits ||| 0x60#8 = 0x60#8
  off : pg = false → x.pdeA = false ∧ x.pteBits = 0

theorem Xlat.plain_sound (pa : BitVec 32) (pg : Bool) : (Xlat.plain pa).Sound pg :=
  ⟨(by decide : (0#8 : Byte) ||| 0x60#8 = 0x60#8), fun _ => ⟨rfl, rfl⟩⟩

theorem pageWalk_sound {la : BitVec 32} {write user : Bool} {x : Xlat} {w w' : Work}
    (h : pageWalk la write user w = .ok x w') : x.Sound true := by
  unfold pageWalk at h
  dsimp only [] at h
  obtain ⟨_, _, _, h⟩ := bind_eq_ok.mp h
  obtain ⟨_, _, _, h⟩ := bind_eq_ok.mp h
  obtain ⟨_, _, _, h⟩ := bind_eq_ok.mp h
  obtain ⟨_, _, _, h⟩ := bind_eq_ok.mp h
  obtain ⟨_, _, _, h⟩ := bind_eq_ok.mp h
  obtain ⟨_, _, _, h⟩ := bind_eq_ok.mp h
  cases h
  refine ⟨?_, fun h => by cases h⟩
  dsimp only []
  split
  · split <;> rfl
  · rfl

theorem lookOrWalk_sound {la : BitVec 32} {write user : Bool} {l : List TlbEntry} {x : Xlat} {w w' : Work}
    (h : lookOrWalk la write user l w = .ok x w') : x.Sound true := by
  obtain ⟨n, _, hw | ⟨e, _, _, he⟩⟩ := lookOrWalk_cases la write user l w
  · exact pageWalk_sound (hw ▸ h)
  · rw [h] at he
    split at he
    · cases he
      exact Xlat.plain_sound _ _
    · cases he

/-- Every translation is sound. -/
theorem translate_sound {la : BitVec 32} {write user : Bool} {x : Xlat} {w w' : Work}
    (h : translate la write user w = .ok x w') : x.Sound w.s.cr0.pg := by
  unfold translate at h
  simp only [M.run_bind, run_st] at h
  cases hp : w.s.cr0.pg with
  | true =>
    rw [hp, if_pos rfl] at h
    exact lookOrWalk_sound h
  | false =>
    rw [hp, if_neg Bool.false_ne_true] at h
    cases h
    exact Xlat.plain_sound _ _

/-- The updates of a sound translation touch accessed and dirty bits alone. -/
theorem commitXlat_reads {x : Xlat} {w : Work} (hx : x.Sound w.s.cr0.pg) : ReadsW w (leftWork (commitXlat x w)) := by
  refine ⟨commitXlat_accesses x w, fun hm a _ => ?_⟩
  have low {b c m : Byte} (h : b ||| m = c ||| m) (hm : m ||| 0x60#8 = 0x60#8) : b ||| 0x60#8 = c ||| 0x60#8 := by
    rw [← hm, ← BitVec.or_assoc, h, BitVec.or_assoc]
  by_cases hp : w.s.cr0.pg = false
  · obtain ⟨h2, h3⟩ := hx.off hp
    unfold commitXlat
    rw [h2, h3]
    cases x.fill with
    | none => exact ⟨rfl, fun _ => rfl⟩
    | some e =>
      obtain ⟨t, g, n, h, _⟩ := enterTlb_ok e w
      have hb : (leftWork (enterTlb e w)).s.byteAt a = w.s.byteAt a := by rw [h]; rfl
      exact ⟨congrArg (· ||| 0x60#8) hb, fun _ => hb⟩
  · refine ⟨?_, fun h => absurd h hp⟩
    have fill : ∀ u : Work, (leftWork ((match x.fill with
          | none => pure ()
          | some e => enterTlb e : M Unit) u)).s.byteAt a = u.s.byteAt a := by
      intro u
      cases x.fill with
      | none => rfl
      | some e =>
        obtain ⟨t, g, n, h, _⟩ := enterTlb_ok e u
        simp only [h]
        rfl
    have tail : ∀ u : Work, Memory.wf u.s.mem = true → u.s.byteAt a ||| 0x60#8 = w.s.byteAt a ||| 0x60#8 →
        (leftWork ((if x.pteBits = 0 then (match x.fill with
            | none => pure ()
            | some e => enterTlb e)
          else setBits x.pte x.pteBits >>= fun _ => (match x.fill with
            | none => pure ()
            | some e => enterTlb e) : M Unit) u)).s.byteAt a ||| 0x60#8 = w.s.byteAt a ||| 0x60#8 := by
      intro u hu hb
      by_cases h0 : x.pteBits = 0
      · rw [if_pos h0, fill]
        exact hb
      · rw [if_neg h0, M.run_bind]
        have h2 := low (setBits_bytes x.pte x.pteBits u hu a) hx.bits
        cases h3 : setBits x.pte x.pteBits u with
        | ok _ v =>
          rw [h3] at h2
          simp only []
          rw [fill]
          exact h2.trans hb
        | error _ v =>
          rw [h3] at h2
          exact h2.trans hb
    have h1 := setBits_bytes x.pde 0x20#8 w hm a
    have h0 := (setBits_accesses x.pde 0x20#8) w
    by_cases hd : x.pdeA = true
    · have e : commitXlat x w = (setBits x.pde 0x20#8 >>= fun _ =>
          (if x.pteBits = 0 then (match x.fill with
            | none => pure ()
            | some e => enterTlb e)
          else setBits x.pte x.pteBits >>= fun _ => (match x.fill with
            | none => pure ()
            | some e => enterTlb e) : M Unit)) w := by
        unfold commitXlat
        rw [if_pos hd] <;> rfl
      rw [e, M.run_bind]
      cases h3 : setBits x.pde 0x20#8 w with
      | ok _ u =>
        rw [h3] at h1 h0
        exact tail u (h0.state.wf hm) (low h1 rfl)
      | error _ u =>
        rw [h3] at h1
        exact low h1 rfl
    · have e : commitXlat x w = (if x.pteBits = 0 then (match x.fill with
            | none => pure ()
            | some e => enterTlb e)
          else setBits x.pte x.pteBits >>= fun _ => (match x.fill with
            | none => pure ()
            | some e => enterTlb e) : M Unit) w := by
        unfold commitXlat
        rw [if_neg hd] <;> rfl
      rw [e]
      exact tail w hm rfl

/-- The updates of several sound translations. -/
theorem each_commitXlat_reads {l : List Xlat} {w : Work} (hx : ∀ x ∈ l, x.Sound w.s.cr0.pg) :
    ReadsW w (leftWork (each commitXlat l w)) := by
  induction l generalizing w with
  | nil => exact reads_rel.refl w
  | cons x t ih =>
    unfold each
    rw [M.run_bind]
    have h1 := commitXlat_reads (hx x List.mem_cons_self)
    cases h : commitXlat x w with
    | error e v =>
      rw [h] at h1
      exact h1
    | ok u v =>
      rw [h] at h1
      refine reads_rel.trans _ _ _ h1 (ih fun y hy => ?_)
      have hc : (leftWork (EStateM.Result.ok u v : EStateM.Result Stop Work Unit)).s.cr0 = w.s.cr0 := h1.acc.state.cr0
      rw [hc]
      exact hx y (List.mem_cons_of_mem _ hy)

theorem translateAll_sound {la : BitVec 32} {n : Nat} {write user : Bool} {l : List Xlat} {w w' : Work}
    (h : translateAll la n write user w = .ok l w') : ∀ x ∈ l, x.Sound w.s.cr0.pg := by
  unfold translateAll at h
  obtain ⟨x, v, h1, h⟩ := bind_eq_ok.mp h
  have hx := translate_sound h1
  have hc : v.s.cr0 = w.s.cr0 := ((translate_accesses _ _ _).ok h1).state.cr0
  by_cases hn : bytesInPage la n < n
  · rw [if_pos hn] at h
    obtain ⟨y, u, h2, h⟩ := bind_eq_ok.mp h
    cases h
    have hy := translate_sound h2
    rw [hc] at hy
    intro z hz
    rcases List.mem_cons.mp hz with rfl | hz
    · exact hx
    · rw [List.mem_singleton.mp hz]
      exact hy
  · rw [if_neg hn] at h
    cases h
    intro z hz
    rw [List.mem_singleton.mp hz]
    exact hx

/-- The translation of an access with its updates. -/
theorem linAccess_reads (la : BitVec 32) (n : Nat) (write user : Bool) : Within ReadsW (linAccess la n write user) := by
  intro w
  unfold linAccess
  rw [M.run_bind]
  have h1 := translateAll_reads la n write user w
  cases h : translateAll la n write user w with
  | error e v =>
    rw [h] at h1
    exact h1
  | ok l v =>
    rw [h] at h1
    have h2 := translateAll_sound h
    have hc : v.s.cr0 = w.s.cr0 := h1.acc.state.cr0
    have h3 := each_commitXlat_reads (l := l) (w := v) (by rw [hc]; exact h2)
    refine reads_rel.trans _ _ _ h1 ?_
    simp only [M.run_bind]
    cases h4 : each commitXlat l v with
    | error e u =>
      rw [h4] at h3
      exact h3
    | ok u v' =>
      rw [h4] at h3
      exact h3

/-! ### Operations that read -/

theorem linRead_reads (la : BitVec 32) (n : Nat) (user : Bool) : Within ReadsW (linRead la n user) := by
  unfold linRead
  repeat' first
    | with_reducible exact physReadAt_reads _
    | with_reducible exact linAccess_reads _ _ _ _
    | with_reducible refine within_bind reads_rel ?_ fun _ => ?_

theorem noteData_reads (la : BitVec 32) (k : Nat) (write : Bool) : Within ReadsW (noteData la k write) := by
  unfold noteData
  repeat' first
    | with_reducible refine within_bind reads_rel ?_ fun _ => ?_
    | with_reducible exact within_pure reads_rel _
    | with_reducible exact within_get reads_rel
    | with_reducible exact within_need reads_rel _ _
    | exact within_mark fun _ => ⟨⟨Accesses.refl _, rfl⟩, fun _ => FrameExcept.refl _ _⟩
    | dsimp only []
    | split

theorem segExc_reads (r : SegReg) : Within ReadsW (segExc r) := by
  unfold segExc
  repeat' first
    | with_reducible exact extBit_reads
    | with_reducible refine within_bind reads_rel ?_ fun _ => ?_
    | with_reducible exact within_pure reads_rel _

theorem segCheck_reads (r : SegReg) (off : BitVec 32) (n : Nat) (write : Bool) :
    Within ReadsW (segCheck r off n write) := by
  unfold segCheck
  repeat' first
    | with_reducible exact extBit_reads
    | with_reducible exact segExc_reads _
    | with_reducible refine within_bind reads_rel ?_ fun _ => ?_
    | with_reducible exact within_pure reads_rel _
    | with_reducible exact within_st reads_rel
    | with_reducible exact within_check reads_rel _ _

theorem dataRead_reads (la : BitVec 32) (n : Nat) : Within ReadsW (dataRead la n) := by
  unfold dataRead
  repeat' first
    | with_reducible exact physReadAt_reads _
    | with_reducible exact linAccess_reads _ _ _ _
    | with_reducible exact noteData_reads _ _ _
    | with_reducible refine within_bind reads_rel ?_ fun _ => ?_
    | with_reducible exact within_pure reads_rel _
    | with_reducible exact within_st reads_rel

theorem memRead_reads (r : SegReg) (off : BitVec 32) (n : Nat) : Within ReadsW (memRead r off n) := by
  unfold memRead
  repeat' first
    | with_reducible exact segCheck_reads _ _ _ _
    | with_reducible exact dataRead_reads _ _
    | with_reducible refine within_bind reads_rel ?_ fun _ => ?_

theorem memProbe_reads (r : SegReg) (off : BitVec 32) (n : Nat) (write : Bool) :
    Within ReadsW (memProbe r off n write) := by
  unfold memProbe
  repeat' first
    | with_reducible exact linProbe_reads _ _ _ _
    | with_reducible exact segCheck_reads _ _ _ _
    | with_reducible refine within_bind reads_rel ?_ fun _ => ?_
    | with_reducible exact within_pure reads_rel _
    | with_reducible exact within_st reads_rel

theorem memRead2_reads (r : SegReg) (off : BitVec 32) (n m : Nat) : Within ReadsW (memRead2 r off n m) := by
  unfold memRead2
  repeat' first
    | with_reducible exact linProbe_reads _ _ _ _
    | with_reducible exact segCheck_reads _ _ _ _
    | with_reducible exact dataRead_reads _ _
    | with_reducible refine within_bind reads_rel ?_ fun _ => ?_
    | with_reducible exact within_pure reads_rel _
    | with_reducible exact within_st reads_rel

theorem stackRead_reads (k n : Nat) : Within ReadsW (stackRead k n) := by
  unfold stackRead
  repeat' first
    | with_reducible exact memRead_reads _ _ _
    | with_reducible refine within_bind reads_rel ?_ fun _ => ?_
    | with_reducible exact within_pure reads_rel _
    | with_reducible exact within_st reads_rel

theorem readDescAt_reads (la : BitVec 32) : Within ReadsW (readDescAt la) := by
  unfold readDescAt
  repeat' first
    | with_reducible exact linRead_reads _ _ _
    | with_reducible refine within_bind reads_rel ?_ fun _ => ?_
    | with_reducible exact within_pure reads_rel _

theorem readDescriptor_reads (sel : BitVec 16) : Within ReadsW (readDescriptor sel) := by
  unfold readDescriptor
  repeat' first
    | with_reducible exact readDescAt_reads _
    | with_reducible refine within_bind reads_rel ?_ fun _ => ?_
    | with_reducible exact within_pure reads_rel _
    | with_reducible exact within_st reads_rel
    | split

theorem fetchDesc_reads (sel : BitVec 16) (k : CodeExc) : Within ReadsW (fetchDesc sel k) := by
  unfold fetchDesc
  repeat' first
    | with_reducible exact selCode_reads _
    | with_reducible exact readDescriptor_reads _
    | with_reducible refine within_bind reads_rel ?_ fun _ => ?_
    | with_reducible exact within_pure reads_rel _
    | with_reducible exact within_raise reads_rel _
    | split

theorem tssStack_reads (pl : BitVec 2) : Within ReadsW (tssStack pl) := by
  unfold tssStack
  repeat' first
    | with_reducible exact checkSel_reads _ _ _
    | with_reducible exact linRead_reads _ _ _
    | with_reducible refine within_bind reads_rel ?_ fun _ => ?_
    | with_reducible exact within_pure reads_rel _
    | with_reducible exact within_st reads_rel
    | with_reducible exact within_need reads_rel _ _

theorem innerStack_reads (pl : BitVec 2) (n : Nat) : Within ReadsW (innerStack pl n) := by
  unfold innerStack
  repeat' first
    | with_reducible exact checkSel_reads _ _ _
    | with_reducible exact fetchDesc_reads _ _
    | with_reducible exact tssStack_reads _
    | with_reducible refine within_bind reads_rel ?_ fun _ => ?_
    | with_reducible exact within_pure reads_rel _

theorem probeSwitch_reads (kind : SwitchKind) (nsel : BitVec 16) (d : Desc) :
    Within ReadsW (probeSwitch kind nsel d) := by
  unfold probeSwitch
  repeat' first
    | with_reducible exact linProbe_reads _ _ _ _
    | with_reducible refine within_bind reads_rel ?_ fun _ => ?_
    | with_reducible exact within_pure reads_rel _
    | with_reducible exact within_st reads_rel
    | split

theorem Place.read_reads (p : Place) : Within ReadsW (p.read) := by
  unfold Place.read
  repeat' first
    | with_reducible exact memRead_reads _ _ _
    | with_reducible refine within_bind reads_rel ?_ fun _ => ?_
    | with_reducible exact within_pure reads_rel _
    | with_reducible exact within_st reads_rel
    | split

theorem Place.probe_reads (p : Place) : Within ReadsW (p.probe) := by
  unfold Place.probe
  repeat' first
    | with_reducible exact memProbe_reads _ _ _ _
    | with_reducible exact within_pure reads_rel _
    | split

theorem read16_reads (rm : RM Reg) : Within ReadsW (read16 rm) := by
  unfold read16
  repeat' first
    | with_reducible exact Place.read_reads _
    | with_reducible refine within_bind reads_rel ?_ fun _ => ?_
    | with_reducible exact within_pure reads_rel _
    | with_reducible exact within_st reads_rel

theorem readFarPtr_reads (m : Mem) : Within ReadsW (readFarPtr m) := by
  unfold readFarPtr
  repeat' first
    | with_reducible exact memRead2_reads _ _ _ _
    | with_reducible refine within_bind reads_rel ?_ fun _ => ?_
    | with_reducible exact within_pure reads_rel _
    | with_reducible exact within_st reads_rel

theorem needMem_reads (rm : RM Reg) : Within ReadsW (needMem rm) := by
  unfold needMem
  repeat' first
    | with_reducible exact within_pure reads_rel _
    | with_reducible exact within_raise reads_rel _
    | split

theorem testedSel_reads (rm : RM Reg) : Within ReadsW (testedSel rm) := by
  unfold testedSel
  repeat' first
    | with_reducible exact Place.read_reads _
    | with_reducible refine within_bind reads_rel ?_ fun _ => ?_
    | with_reducible exact within_pure reads_rel _
    | with_reducible exact within_st reads_rel

theorem readTableReg_reads (m : Mem) : Within ReadsW (readTableReg m) := by
  unfold readTableReg
  repeat' first
    | with_reducible exact memRead2_reads _ _ _ _
    | with_reducible refine within_bind reads_rel ?_ fun _ => ?_
    | with_reducible exact within_pure reads_rel _
    | with_reducible exact within_st reads_rel

theorem portPermitted_reads (mapbase p : Nat) : Within ReadsW (portPermitted mapbase p) := by
  unfold portPermitted
  repeat' first
    | with_reducible exact linRead_reads _ _ _
    | with_reducible refine within_bind reads_rel ?_ fun _ => ?_
    | with_reducible exact within_pure reads_rel _
    | with_reducible exact within_st reads_rel
    | with_reducible exact within_check reads_rel _ _

theorem ioPermission_reads (port : BitVec 16) (n : Nat) : Within ReadsW (ioPermission port n) := by
  unfold ioPermission
  repeat' first
    | with_reducible exact linRead_reads _ _ _
    | with_reducible exact portPermitted_reads _ _
    | with_reducible refine within_bind reads_rel ?_ fun _ => ?_
    | with_reducible exact within_pure reads_rel _
    | with_reducible exact within_st reads_rel
    | with_reducible exact within_check reads_rel _ _
    | with_reducible exact within_need reads_rel _ _
    | with_reducible refine within_each reads_rel (fun _ => ?_) _
    | split

theorem portRead_reads (n : Nat) (port : BitVec 16) : Within ReadsW (portRead n port) := by
  unfold portRead
  repeat' first
    | with_reducible exact deviceIn_reads
    | with_reducible exact busEvent_reads _
    | with_reducible refine within_bind reads_rel ?_ fun _ => ?_
    | with_reducible exact within_pure reads_rel _

theorem ioRead_reads (port : BitVec 16) (n : Nat) : Within ReadsW (ioRead port n) := by
  unfold ioRead
  repeat' first
    | with_reducible exact portRead_reads _ _
    | with_reducible refine within_bind reads_rel ?_ fun _ => ?_
    | with_reducible exact within_pure reads_rel _
    | with_reducible exact within_need reads_rel _ _
    | with_reducible refine within_gather reads_rel (fun _ => ?_) _
    | split

theorem ioWrite_reads (port : BitVec 16) (n : Nat) (v : BitVec 32) : Within ReadsW (ioWrite port n v) := by
  unfold ioWrite
  repeat' first
    | with_reducible exact busEvent_reads _
    | with_reducible refine within_bind reads_rel ?_ fun _ => ?_
    | with_reducible exact within_pure reads_rel _
    | with_reducible exact within_need reads_rel _ _
    | with_reducible refine within_each reads_rel (fun _ => ?_) _
    | split

/-! ### Operations that write -/

/-- A write through a segment register changes no byte but those it stores to. -/
theorem memWrite_frame {r : SegReg} {off : BitVec 32} {n : Nat} {v : BitVec 32} {w w' : Work}
    (h : memWrite r off n v w = .ok () w') (hm : Memory.wf w.s.mem = true) :
    FrameExcept w.s w'.s (storedAt w r off n) := by
  unfold memWrite at h
  obtain ⟨la, w1, h1, h⟩ := bind_eq_ok.mp h
  have hla : la = (w.s.seg r).base + off ∧ w1 = w := by
    unfold segCheck at h1
    simp only [M.run_bind, run_st, run_extBit, segExc, M.run_pure] at h1
    rw [run_check] at h1
    split at h1
    · rename_i heq
      split at heq
      · cases heq
        rw [run_check] at h1
        split at h1
        · rename_i heq2
          split at heq2
          · cases heq2
            rw [run_check] at h1
            split at h1
            · rename_i heq3
              split at heq3
              · cases heq3
                cases h1
                exact ⟨rfl, rfl⟩
              · cases heq3
            · cases h1
          · cases heq2
        · cases h1
      · cases heq
    · cases h1
  obtain ⟨rfl, rfl⟩ := hla
  unfold dataWrite at h
  simp only [M.run_bind, run_st] at h
  unfold storedAt
  have r1 := linAccess_reads ((w1.s.seg r).base + off) n true (userLevel w1.s) w1
  cases h2 : linAccess ((w1.s.seg r).base + off) n true (userLevel w1.s) w1 with
  | error e v2 =>
    rw [h2] at h
    cases h
  | ok pas w2 =>
    rw [h2] at h r1
    simp only [] at h
    have r2 := noteData_reads ((w1.s.seg r).base + off) n true w2
    cases h3 : noteData ((w1.s.seg r).base + off) n true w2 with
    | error e v3 =>
      rw [h3] at h
      cases h
    | ok u w3 =>
      rw [h3] at h r2
      simp only [leftWork] at h r1 r2 ⊢
      have r3 := reads_rel.trans _ _ _ r1 r2
      have f := r3.frame hm
      intro a ha
      have hw := physWriteAt_frame h (r3.acc.state.wf hm) a ha
      rw [hw]
      exact f a List.not_mem_nil

/-- A write of an operand changes no byte but those it stores to. -/
theorem Place.write_frame {p : Place} {v : BitVec 32} {w w' : Work} (h : p.write v w = .ok () w')
    (hm : Memory.wf w.s.mem = true) : FrameExcept w.s w'.s (p.stores w) := by
  cases p with
  | reg8 r =>
    cases h
    exact FrameExcept.of_mem rfl _
  | reg z r =>
    cases h
    exact FrameExcept.of_mem rfl _
  | mem g off z => exact memWrite_frame h hm

/-- A locked update of an access byte changes only the bits it sets, and accessed and dirty bits of page tables. -/
theorem setAccessBits_bytes (sel : BitVec 16) (m : Byte) (w : Work) (hm : Memory.wf w.s.mem = true) (a : BitVec 32) :
    (leftWork (setAccessBits sel m w)).s.byteAt a ||| (m ||| 0x60#8) = w.s.byteAt a ||| (m ||| 0x60#8) := by
  unfold setAccessBits
  simp only [M.run_bind, run_st]
  have r1 := linAccess_reads (accessByte w.s sel) 1 true false w
  have wide {b c d : Byte} (h : b ||| d = c ||| d) (e : Byte) : b ||| (e ||| d) = c ||| (e ||| d) := by
    rw [BitVec.or_comm e d, ← BitVec.or_assoc, h, BitVec.or_assoc]
  cases h : linAccess (accessByte w.s sel) 1 true false w with
  | error e v =>
    rw [h] at r1
    exact wide ((r1.frame hm) a List.not_mem_nil).1 m
  | ok pas v =>
    rw [h] at r1
    have h2 := setBits_bytes (pas.headD 0) m v (r1.acc.state.wf hm) a
    have h3 : v.s.byteAt a ||| (m ||| 0x60#8) = w.s.byteAt a ||| (m ||| 0x60#8) :=
      wide ((r1.frame hm) a List.not_mem_nil).1 m
    refine Eq.trans ?_ h3
    dsimp only []
    rw [← BitVec.or_assoc, h2, BitVec.or_assoc]

end Sys2Proof.Machine
end

