-- ==== Sys2Proof/Laws/Flat.lean ====
section
/-! SUPPORT. Accesses with paging off, in plain memory and with no data breakpoint: what each part answers. -/

namespace Sys2Proof.Machine

open Sys2Proof

/-- A span is two spans, cut anywhere. -/
theorem span_append (a : BitVec 32) {k n : Nat} (h : k ≤ n) :
    span a k ++ span (a + BitVec.ofNat 32 k) (n - k) = span a n := by
  unfold span
  apply List.ext_getElem
  · simp
    omega
  · intro i h1 h2
    simp only [List.length_append, List.length_map, List.length_range] at h1 h2
    by_cases hi : i < k
    · simp [List.getElem_append_left, hi]
    · rw [List.getElem_append_right (by simpa using hi)]
      simp only [List.getElem_map, List.getElem_range, List.length_map, List.length_range]
      rw [BitVec.add_assoc, ← BitVec.ofNat_add]
      congr 2
      omega

/-- With paging off a linear address is the physical address. -/
theorem translate_flat {w : Work} (h : w.s.cr0.pg = false) (la : BitVec 32) (write user : Bool) :
    translate la write user w = .ok (Xlat.plain la) w := by
  unfold translate
  simp only [M.run_bind, run_st]
  rw [h]
  rfl

theorem commitXlat_plain (pa : BitVec 32) (w : Work) : commitXlat (Xlat.plain pa) w = .ok () w := rfl

/-- The translations of an access with paging off. -/
theorem translateAll_flat {w : Work} (h : w.s.cr0.pg = false) (la : BitVec 32) (n : Nat) (write user : Bool) :
    ∃ l, translateAll la n write user w = .ok l w ∧ physSpan la n l = span la n ∧
      each commitXlat l w = .ok () w := by
  unfold translateAll
  simp only [M.run_bind, translate_flat h]
  by_cases hn : bytesInPage la n < n
  · rw [if_pos hn]
    simp only [M.run_bind, translate_flat h]
    exact ⟨_, rfl, span_append la (Nat.le_of_lt hn), rfl⟩
  · rw [if_neg hn]
    exact ⟨_, rfl, rfl, rfl⟩

/-- With paging off an access goes to its linear addresses and changes nothing on the way. -/
theorem linAccess_flat {w : Work} (h : w.s.cr0.pg = false) (la : BitVec 32) (n : Nat) (write user : Bool) :
    linAccess la n write user w = .ok (span la n) w := by
  obtain ⟨l, h1, h2, h3⟩ := translateAll_flat h la n write user
  unfold linAccess
  simp only [M.run_bind, h1, h3, M.run_pure, h2]

theorem linProbe_flat {w : Work} (h : w.s.cr0.pg = false) (la : BitVec 32) (n : Nat) (write user : Bool) :
    linProbe la n write user w = .ok () w := by
  obtain ⟨l, h1, _, _⟩ := translateAll_flat h la n write user
  unfold linProbe
  simp only [M.run_bind, h1, M.run_pure]

/-- Where a write goes with paging off. -/
theorem storedAt_flat {w : Work} (h : w.s.cr0.pg = false) (r : SegReg) (off : BitVec 32) (n : Nat) :
    storedAt w r off n = span ((w.s.seg r).base + off) n := by
  unfold storedAt
  rw [linAccess_flat h]

/-- An access that its segment allows passes the segment checks. -/
theorem segCheck_ok {w : Work} {r : SegReg} {off : BitVec 32} {n : Nat} {write : Bool}
    (h : SegmentAllows w.s r off n write) : segCheck r off n write w = .ok ((w.s.seg r).base + off) w := by
  unfold segCheck
  have h2 : (!w.s.cr0.pe || typeOk (w.s.seg r) write) = true := by
    cases hp : w.s.cr0.pe with
    | false => rfl
    | true => rw [h.2.1 hp]; rfl
  simp only [M.run_bind, run_st, run_extBit, segExc, M.run_pure, h.1, h2, h.2.2, run_check_true]

/-- With no data breakpoint an access evaluates no undefined encoding. -/
theorem NoDataBreakpoint.defined {s : State} (h : NoDataBreakpoint s) (write : Bool) :
    breakpointsDefined (accessDefined write) s = true := by
  unfold breakpointsDefined
  rw [List.all_eq_true]
  intro n hn
  have hn4 : n < 4 := by
    simp only [List.mem_cons, List.not_mem_nil, or_false] at hn
    omega
  simp [accessDefined, h n hn4]

/-- With no data breakpoint no access meets one. -/
theorem NoDataBreakpoint.misses {s : State} (h : NoDataBreakpoint s) (la : BitVec 32) (k : Nat) (write : Bool) {n : Nat}
    (hn : n < 4) : dataMatch s la k write n = false := by
  simp [dataMatch, h n hn]

/-- With no data breakpoint an access notes nothing. -/
theorem noteData_off {w : Work} (h : NoDataBreakpoint w.s) (la : BitVec 32) (k : Nat) (write : Bool) :
    noteData la k write w = .ok () w := by
  unfold noteData
  simp only [M.run_bind, run_get]
  cases hq : w.quiet with
  | true => rfl
  | false =>
    rw [if_neg Bool.false_ne_true, h.defined write]
    simp [mark, dbgBits, bitMask, h.misses la k write]

/-- The processor's own accesses are not noted. -/
theorem noteData_quiet {w : Work} (h : w.quiet = true) (la : BitVec 32) (k : Nat) (write : Bool) :
    noteData la k write w = .ok () w := by
  unfold noteData
  simp only [M.run_bind, run_get]
  rw [if_pos h]
  rfl

theorem gather_ram {w : Work} {pas : List (BitVec 32)} (h : ∀ p ∈ pas, w.s.kindAt p = .ram) :
    gather physReadByte pas w = .ok (pas.map w.s.byteAt) w := by
  induction pas with
  | nil => rfl
  | cons a t ih =>
    unfold gather
    simp only [M.run_bind, (physReadByte_mem a w).2 (h a List.mem_cons_self),
      ih fun p hp => h p (List.mem_cons_of_mem _ hp), M.run_pure, List.map_cons]

/-- A read of RAM. -/
theorem physReadAt_ram {w : Work} {pas : List (BitVec 32)} (h : ∀ p ∈ pas, w.s.kindAt p = .ram) (hn : pas ≠ []) :
    physReadAt pas w = .ok (ofBytes (pas.map w.s.byteAt)) w := by
  unfold physReadAt
  simp only [M.run_bind, run_st]
  have h0 : oneDeviceAccess w.s pas = false := by
    cases pas with
    | nil => exact absurd rfl hn
    | cons a t => simp [oneDeviceAccess, h a List.mem_cons_self]
  rw [if_neg (by rw [h0]; exact Bool.false_ne_true)]
  simp only [M.run_bind, gather_ram h, M.run_pure]

/-- A read of RAM with paging off. -/
theorem linRead_flat {w : Work} (hp : w.s.cr0.pg = false) {la : BitVec 32} {n : Nat} (hn : n ≠ 0)
    (h : PlainMemory w.s la n) (user : Bool) : linRead la n user w = .ok (w.s.valueAt la n) w := by
  unfold linRead
  simp only [M.run_bind, linAccess_flat hp]
  refine physReadAt_ram h ?_
  unfold span
  simpa using hn

end Sys2Proof.Machine
end

