-- ==== Sys2Proof/Laws/Ram.lean ====
section
/-! SUPPORT. Stores, pushes and updates of tables with paging off, where every physical address is RAM: what each part
answers, in terms of one store. -/

namespace Sys2Proof.Machine

open Sys2Proof

/-- The state after bytes have been stored in RAM one by one. -/
def State.storeBytes (s : State) : List (BitVec 32 × Byte) → State
  | [] => s
  | (a, b) :: t =>
    State.storeBytes { s with
      mem := Memory.write s.mem a.toNat b, prefetch := { s.prefetch with stored := ⟨a.toNat, s.byteAt a, false⟩ :: s.prefetch.stored } } t

/-- The state after the low `n` bytes of `v` have been stored at `a`, the low byte first. -/
def State.store (s : State) (a : BitVec 32) (n : Nat) (v : BitVec 32) : State :=
  (s.storeBytes ((span a n).zip (toBytes n v))).joinStores (span a n)

/-- A store changes memory and the record of stored bytes, nothing else. -/
theorem State.storeBytes_same (s : State) (l : List (BitVec 32 × Byte)) :
    ∃ m st, s.storeBytes l = { s with mem := m, prefetch := { s.prefetch with stored := st } } := by
  induction l generalizing s with
  | nil => exact ⟨s.mem, s.prefetch.stored, rfl⟩
  | cons p t ih =>
    obtain ⟨m, st, h⟩ := ih { s with
      mem := Memory.write s.mem p.1.toNat p.2, prefetch := { s.prefetch with stored := ⟨p.1.toNat, s.byteAt p.1, false⟩ :: s.prefetch.stored } }
    exact ⟨m, st, h⟩

theorem State.store_same (s : State) (a : BitVec 32) (n : Nat) (v : BitVec 32) :
    ∃ m st, s.store a n v = { s with mem := m, prefetch := { s.prefetch with stored := st } } :=
by
  obtain ⟨m, st, h⟩ := s.storeBytes_same ((span a n).zip (toBytes n v))
  obtain ⟨l, h2⟩ := (s.storeBytes ((span a n).zip (toBytes n v))).joinStores_same (span a n)
  exact ⟨m, l, h2.trans (by rw [h])⟩

theorem State.wf_storeBytes {s : State} (h : Memory.wf s.mem = true) (l : List (BitVec 32 × Byte)) :
    Memory.wf (s.storeBytes l).mem = true := by
  induction l generalizing s with
  | nil => exact h
  | cons p t ih => exact ih (Memory.wf_write h p.1 p.2)

theorem State.wf_store {s : State} (h : Memory.wf s.mem = true) (a : BitVec 32) (n : Nat) (v : BitVec 32) :
    Memory.wf (s.store a n v).mem = true := by
  unfold State.store
  rw [State.joinStores_mem]
  exact State.wf_storeBytes h _

theorem AllRam.of_same {s t : State} (h : AllRam s) (hc : t.cr0 = s.cr0) (he : t.env.physMap = s.env.physMap) : AllRam t :=
  ⟨by rw [hc]; exact h.paging, fun a => by unfold State.kindAt; rw [he]; exact h.ram a⟩

theorem AllRam.store {s : State} (h : AllRam s) (a : BitVec 32) (n : Nat) (v : BitVec 32) : AllRam (s.store a n v) := by
  obtain ⟨m, st, e⟩ := s.store_same a n v
  rw [e]
  exact h.of_same rfl rfl

/-- A byte after a store elsewhere. -/
theorem State.byteAt_storeBytes_other {s : State} (h : Memory.wf s.mem = true) {l : List (BitVec 32 × Byte)}
    {a : BitVec 32} (ha : a ∉ l.map Prod.fst) : (s.storeBytes l).byteAt a = s.byteAt a := by
  induction l generalizing s with
  | nil => rfl
  | cons p t ih =>
    simp only [List.map_cons, List.mem_cons, not_or] at ha
    refine (ih (Memory.wf_write h p.1 p.2) ha.2).trans ?_
    simp only [State.byteAt, Memory.read_write h, BitVec.toNat_inj, if_neg ha.1]

/-- The addresses of a span are distinct. -/
theorem span_nodup (a : BitVec 32) {n : Nat} (hn : n ≤ 2 ^ 32) : (span a n).Nodup := by
  unfold span
  refine (List.nodup_map_iff_inj_on List.nodup_range).2 fun i hi j hj h => ?_
  rw [List.mem_range] at hi hj
  have h2 : BitVec.ofNat 32 i = BitVec.ofNat 32 j := by simpa using h
  have h3 := congrArg BitVec.toNat h2
  simp only [BitVec.toNat_ofNat] at h3
  omega

theorem mem_span {a b : BitVec 32} {n : Nat} : b ∈ span a n ↔ ∃ i, i < n ∧ b = a + BitVec.ofNat 32 i := by
  unfold span
  simp only [List.mem_map, List.mem_range, eq_comm]

theorem length_span (a : BitVec 32) (n : Nat) : (span a n).length = n := by simp [span]

theorem fst_zip_toBytes (a : BitVec 32) (n : Nat) (v : BitVec 32) : ((span a n).zip (toBytes n v)).map Prod.fst = span a n :=
  List.map_fst_zip (by simp [span, toBytes])

theorem State.byteAt_store (s : State) (a : BitVec 32) (n : Nat) (v b : BitVec 32) :
    (s.store a n v).byteAt b = (s.storeBytes ((span a n).zip (toBytes n v))).byteAt b := by
  simp only [State.store, State.byteAt, State.joinStores_mem]

/-- Bytes outside a store are as before. -/
theorem State.byteAt_store_other {s : State} (h : Memory.wf s.mem = true) {a b : BitVec 32} {n : Nat} {v : BitVec 32}
    (hb : b ∉ span a n) : (s.store a n v).byteAt b = s.byteAt b := by
  rw [State.byteAt_store]
  exact State.byteAt_storeBytes_other h (by rw [fst_zip_toBytes]; exact hb)

/-- What is stored is there afterwards, where no address is stored twice. -/
theorem State.map_byteAt_storeBytes {s : State} (h : Memory.wf s.mem = true) {l : List (BitVec 32 × Byte)}
    (hl : (l.map Prod.fst).Nodup) : (l.map Prod.fst).map (s.storeBytes l).byteAt = l.map Prod.snd := by
  induction l generalizing s with
  | nil => rfl
  | cons p t ih =>
    simp only [List.map_cons, List.nodup_cons] at hl
    simp only [List.map_cons]
    refine List.cons_eq_cons.2 ⟨?_, ih (Memory.wf_write h p.1 p.2) hl.2⟩
    refine (State.byteAt_storeBytes_other (Memory.wf_write h p.1 p.2) hl.1).trans ?_
    simp only [State.byteAt, Memory.read_write h, if_true]

theorem State.map_byteAt_store {s : State} (h : Memory.wf s.mem = true) (a : BitVec 32) {n : Nat} (hn : n ≤ 2 ^ 32)
    (v : BitVec 32) : (span a n).map (s.store a n v).byteAt = toBytes n v := by
  have := State.map_byteAt_storeBytes h (l := (span a n).zip (toBytes n v)) (by rw [fst_zip_toBytes]; exact span_nodup a hn)
  rw [fst_zip_toBytes, List.map_snd_zip (by simp [span, toBytes])] at this
  rw [← this]
  exact List.map_congr_left fun b _ => State.byteAt_store s a n v b

/-- The value stored is read back. -/
theorem State.valueAt_store {s : State} (h : Memory.wf s.mem = true) (a : BitVec 32) {n : Nat} (hn : n ≤ 4)
    (v : BitVec 32) : (s.store a n v).valueAt a n = lowBytes n v := by
  unfold State.valueAt lowBytes
  rw [State.map_byteAt_store h a (by omega) v]

/-- A value elsewhere is as before. -/
theorem State.valueAt_store_other {s : State} (h : Memory.wf s.mem = true) {a b : BitVec 32} {n k : Nat} {v : BitVec 32}
    (hb : ∀ x ∈ span b k, x ∉ span a n) : (s.store a n v).valueAt b k = s.valueAt b k := by
  unfold State.valueAt
  congr 1
  exact List.map_congr_left fun x hx => State.byteAt_store_other h (hb x hx)

theorem lowBytes_four (v : BitVec 32) : lowBytes 4 v = v := by
  unfold lowBytes toBytes
  simp only [List.range, List.range.loop, List.map, ofBytes, byteOf]
  ext i hi
  interval_cases i <;> simp

theorem lowBytes_two (v : BitVec 32) : lowBytes 2 v = v &&& 0xFFFF#32 := by
  unfold lowBytes toBytes
  simp only [List.range, List.range.loop, List.map, ofBytes, byteOf]
  ext i hi
  interval_cases i <;> simp

/-! ### Operations -/

theorem each_physWriteByte_ram {w : Work} (h : ∀ a, w.s.kindAt a = .ram) (l : List (BitVec 32 × Byte)) :
    each (fun p => physWriteByte p.1 p.2) l w = .ok () { w with s := w.s.storeBytes l } := by
  induction l generalizing w with
  | nil => rfl
  | cons p t ih =>
    unfold each
    have h1 : physWriteByte p.1 p.2 w = .ok () { w with s := { w.s with
        mem := Memory.write w.s.mem p.1.toNat p.2,
        prefetch := { w.s.prefetch with stored := ⟨p.1.toNat, w.s.byteAt p.1, false⟩ :: w.s.prefetch.stored } } } := by
      unfold physWriteByte
      simp only [M.run_bind, run_st, h p.1]
      rfl
    simp only [M.run_bind, h1]
    exact ih h

/-- A write of RAM. -/
theorem physWriteAt_ram {w : Work} (h : ∀ a, w.s.kindAt a = .ram) {a : BitVec 32} {n : Nat} (hn : n ≠ 0) (v : BitVec 32) :
    physWriteAt (span a n) v w = .ok () { w with s := w.s.store a n v } := by
  unfold physWriteAt
  simp only [M.run_bind, run_st]
  have h0 : oneDeviceAccess w.s (span a n) = false := by
    obtain ⟨k, rfl⟩ := Nat.exists_eq_succ_of_ne_zero hn
    simp [oneDeviceAccess, span, List.range_succ_eq_map, h]
  rw [if_neg (by rw [h0]; exact Bool.false_ne_true)]
  simp only [length_span, M.run_bind, each_physWriteByte_ram h]
  rfl

theorem linRead_ram {w : Work} (h : AllRam w.s) (la : BitVec 32) {n : Nat} (hn : n ≠ 0) (user : Bool) :
    linRead la n user w = .ok (w.s.valueAt la n) w := linRead_flat h.paging hn (fun p _ => h.ram p) user

theorem linWrite_ram {w : Work} (h : AllRam w.s) (la : BitVec 32) {n : Nat} (hn : n ≠ 0) (v : BitVec 32) (user : Bool) :
    linWrite la n v user w = .ok () { w with s := w.s.store la n v } := by
  unfold linWrite
  simp only [M.run_bind, linAccess_flat h.paging]
  exact physWriteAt_ram h.ram hn v

/-- What an access notes touches no state. -/
theorem noteData_eq_ok {la : BitVec 32} {k : Nat} {write : Bool} {w v : Work} (h : noteData la k write w = .ok () v) :
    ∃ on off, v = { w with hitOn := on, hitOff := off } := by
  unfold noteData at h
  simp only [M.run_bind, run_get] at h
  by_cases hq : w.quiet = true
  · rw [if_pos hq] at h
    cases h
    exact ⟨w.hitOn, w.hitOff, rfl⟩
  · rw [if_neg hq] at h
    obtain ⟨_, u, h1, h2⟩ := bind_eq_ok.1 h
    obtain ⟨_, rfl⟩ := need_eq_ok.1 h1
    cases h2
    exact ⟨_, _, rfl⟩

/-- What the segment checks that pass answer. -/
theorem segCheck_eq_ok {r : SegReg} {off la : BitVec 32} {n : Nat} {write : Bool} {w v : Work}
    (h : segCheck r off n write w = .ok la v) :
    v = w ∧ la = (w.s.seg r).base + off ∧ SegmentAllows w.s r off n write := by
  unfold segCheck at h
  simp only [M.run_bind, run_st, run_extBit, segExc, M.run_pure] at h
  cases h1 : (w.s.seg r).valid <;> simp only [h1, run_check_true, run_check_false] at h
  · cases h
  cases h2 : (!w.s.cr0.pe || typeOk (w.s.seg r) write) <;> simp only [h2, run_check_true, run_check_false] at h
  · cases h
  cases h3 : limitOk (w.s.seg r) off n <;> simp only [h3, run_check_true, run_check_false] at h
  · cases h
  cases h
  refine ⟨rfl, rfl, h1, fun hp => ?_, h3⟩
  rw [hp] at h2
  exact h2

/-- A write that goes through. -/
theorem memWrite_eq_ok {r : SegReg} {off v : BitVec 32} {n : Nat} {w u : Work} (h : AllRam w.s) (hn : n ≠ 0)
    (e : memWrite r off n v w = .ok () u) :
    ∃ on off', u = { w with s := w.s.store ((w.s.seg r).base + off) n v, hitOn := on, hitOff := off' } := by
  obtain ⟨la, w1, h1, h2⟩ := bind_eq_ok.1 e
  obtain ⟨rfl, rfl, _⟩ := segCheck_eq_ok h1
  unfold dataWrite at h2
  simp only [M.run_bind, run_st, linAccess_flat h.paging] at h2
  cases h3 : noteData ((w1.s.seg r).base + off) n true w1 with
  | error e u => rw [h3] at h2; cases h2
  | ok a w2 =>
    obtain ⟨on, off', rfl⟩ := noteData_eq_ok h3
    rw [h3] at h2
    simp only [] at h2
    rw [physWriteAt_ram (w := { w1 with hitOn := on, hitOff := off' }) h.ram hn] at h2
    cases h2
    exact ⟨on, off', rfl⟩

/-- What a push of `n` bytes makes of a state. -/
def State.pushed (s : State) (v : BitVec 32) (n : Nat) : State :=
  (s.store (s.segs.ss.base + s.pushAddr n) n v).setSp (s.pushAddr n)

/-- A push that goes through. -/
theorem push_eq_ok {v : BitVec 32} {n : Nat} {w u : Work} (h : AllRam w.s) (hn : n ≠ 0) (e : push v n w = .ok () u) :
    ∃ on off, u = { w with s := w.s.pushed v n, hitOn := on, hitOff := off } := by
  unfold push at e
  obtain ⟨_, w1, h1, h2⟩ := bind_eq_ok.1 e
  cases h1
  obtain ⟨_, w2, h3, h4⟩ := bind_eq_ok.1 h2
  obtain ⟨_, rfl⟩ := need_eq_ok.1 h3
  obtain ⟨_, w3, h5, h6⟩ := bind_eq_ok.1 h4
  obtain ⟨on, off, rfl⟩ := memWrite_eq_ok h hn h5
  cases h6
  exact ⟨on, off, rfl⟩

/-- Two spans whose starts are at least the first one's length apart have nothing in common. -/
theorem span_apart (a : BitVec 32) {d n k : Nat} (hd : n ≤ d) (hk : d + k ≤ 2 ^ 32) {x : BitVec 32}
    (h : x ∈ span (a + BitVec.ofNat 32 d) k) : x ∉ span a n := by
  intro h'
  obtain ⟨i, hi, rfl⟩ := mem_span.1 h
  obtain ⟨j, hj, hij⟩ := mem_span.1 h'
  rw [BitVec.add_assoc, ← BitVec.ofNat_add] at hij
  have hb := congrArg BitVec.toNat (BitVec.add_right_inj a |>.1 hij)
  simp only [BitVec.toNat_ofNat] at hb
  omega

/-! ### The stack -/

theorem Size.trunc_idem (z : Size) (v : BitVec 32) : z.trunc (z.trunc v) = z.trunc v := by
  cases z <;> simp [Size.trunc, BitVec.and_assoc]

theorem Size.trunc_merge (z : Size) (a v : BitVec 32) : z.trunc (z.merge a v) = z.trunc v := by
  cases z with
  | w32 => rfl
  | w16 =>
    simp only [Size.trunc, Size.merge]
    apply BitVec.eq_of_getLsbD_eq
    intro i hi
    rw [BitVec.getLsbD_and, BitVec.getLsbD_and, BitVec.getLsbD_append]
    by_cases h : i < 16
    · simp only [h, if_true, decide_true, BitVec.getLsbD_extractLsb', Nat.zero_add, Bool.true_and]
    · have h0 : (0xFFFF#32).getLsbD i = false := by interval_cases i <;> rfl
      rw [h0]
      simp only [Bool.and_false]

/-- A difference that does not go below 0 is a value of its size. -/
theorem Size.trunc_sub {z : Size} {x : BitVec 32} (hx : z.trunc x = x) {n : Nat} (h : n ≤ x.toNat) :
    z.trunc (x - BitVec.ofNat 32 n) = x - BitVec.ofNat 32 n := by
  cases z with
  | w32 => rfl
  | w16 =>
    simp only [Size.trunc] at hx ⊢
    have hb : x.toNat < 65536 := by
      rw [← hx, BitVec.toNat_and]
      exact Nat.lt_of_le_of_lt Nat.and_le_right (by decide)
    apply BitVec.eq_of_toNat_eq
    rw [BitVec.toNat_and, show (0xFFFF#32).toNat = 2 ^ 16 - 1 from rfl, Nat.and_two_pow_sub_one_eq_mod]
    refine Nat.mod_eq_of_lt ?_
    rw [BitVec.toNat_sub, BitVec.toNat_ofNat]
    omega

/-- A stack pointer that is written is read back, cut to the stack size. -/
theorem State.sp_setSp (s : State) (v : BitVec 32) : (s.setSp v).sp = s.stackSize.trunc v := by
  have h : (s.setSp v).reg .esp = s.stackSize.merge (s.reg .esp) v := rfl
  unfold State.sp State.regv
  rw [h]
  exact Size.trunc_merge _ _ _

/-- The stack pointer is a value of the stack size. -/
theorem State.trunc_sp (s : State) : s.stackSize.trunc s.sp = s.sp := Size.trunc_idem _ _

/-- Where a push stores, if the stack pointer has room. -/
theorem State.pushAddr_eq (s : State) {n : Nat} (h : n ≤ s.sp.toNat) : s.pushAddr n = s.sp - BitVec.ofNat 32 n := by
  unfold State.pushAddr Size.add
  rw [← BitVec.sub_eq_add_neg]
  exact Size.trunc_sub s.trunc_sp h

theorem State.sp_push (s : State) {n : Nat} (h : n ≤ s.sp.toNat) :
    (s.setSp (s.pushAddr n)).sp = s.sp - BitVec.ofNat 32 n := by
  rw [s.sp_setSp]
  refine Eq.trans ?_ (s.pushAddr_eq h)
  exact Size.trunc_idem _ _

theorem State.pushed_same (s : State) (v : BitVec 32) (n : Nat) :
    ∃ m st, s.pushed v n = { s with
      gpr := (s.setSp (s.pushAddr n)).gpr, mem := m, prefetch := { s.prefetch with stored := st } } := by
  unfold State.pushed
  obtain ⟨m, st, h⟩ := s.store_same (s.segs.ss.base + s.pushAddr n) n v
  rw [h]
  exact ⟨m, st, rfl⟩

theorem State.pushed_segs (s : State) (v : BitVec 32) (n : Nat) : (s.pushed v n).segs = s.segs := by
  obtain ⟨m, st, h⟩ := s.pushed_same v n
  rw [h]

theorem State.pushed_valueAt (s : State) (v : BitVec 32) (n : Nat) (b : BitVec 32) (k : Nat) :
    (s.pushed v n).valueAt b k = (s.store (s.segs.ss.base + s.pushAddr n) n v).valueAt b k := rfl

theorem State.pushed_sp (s : State) (v : BitVec 32) {n : Nat} (h : n ≤ s.sp.toNat) :
    (s.pushed v n).sp = s.sp - BitVec.ofNat 32 n := by
  obtain ⟨m, st, e⟩ := s.pushed_same v n
  rw [e]
  exact s.sp_push h

/-- The item pushed is the top of the stack. -/
theorem State.pushed_top {s : State} (hm : Memory.wf s.mem = true) (v : BitVec 32) {n : Nat} (hn : n ≤ 4)
    (h : n ≤ s.sp.toNat) : (s.pushed v n).stackItem n 0 = lowBytes n v := by
  unfold State.stackItem
  rw [s.pushed_sp v h, s.pushed_segs, s.pushed_valueAt, ← s.pushAddr_eq h, Nat.mul_zero, show BitVec.ofNat 32 0 = 0#32 from rfl,
    BitVec.add_zero]
  exact State.valueAt_store hm _ hn v

theorem item_below (b p z y : BitVec 32) : b + (p - z) + (y + z) = b + p + y := by
  rw [BitVec.add_assoc b p y, BitVec.add_assoc]
  congr 1
  rw [BitVec.add_comm y z, ← BitVec.add_assoc, BitVec.sub_add_cancel]

/-- The items that were on the stack lie below it. -/
theorem State.pushed_below {s : State} (hm : Memory.wf s.mem = true) (v : BitVec 32) {n : Nat} (hn : n ≤ 4)
    (h : n ≤ s.sp.toNat) {k : Nat} (hk : k < 1000) : (s.pushed v n).stackItem n (k + 1) = s.stackItem n k := by
  unfold State.stackItem
  rw [s.pushed_sp v h, s.pushed_segs, s.pushed_valueAt, ← s.pushAddr_eq h]
  have h1 : s.segs.ss.base + s.pushAddr n + BitVec.ofNat 32 (n * (k + 1)) =
      s.segs.ss.base + s.sp + BitVec.ofNat 32 (n * k) := by
    rw [s.pushAddr_eq h, Nat.mul_succ, BitVec.ofNat_add]
    exact item_below _ _ _ _
  rw [← h1]
  have hb : n * k ≤ 4 * 1000 := Nat.mul_le_mul hn (Nat.le_of_lt hk)
  exact State.valueAt_store_other hm fun x hx => span_apart _ (by rw [Nat.mul_succ]; omega) (by rw [Nat.mul_succ]; omega) hx

/-- Bytes elsewhere are as before. -/
theorem State.pushed_byteAt {s : State} (hm : Memory.wf s.mem = true) (v : BitVec 32) {n : Nat} (h : n ≤ s.sp.toNat)
    {a : BitVec 32} (ha : a ∉ span (s.segs.ss.base + (s.sp - BitVec.ofNat 32 n)) n) :
    (s.pushed v n).byteAt a = s.byteAt a := by
  rw [← s.pushAddr_eq h] at ha
  exact State.byteAt_store_other hm ha

theorem State.wf_pushed {s : State} (hm : Memory.wf s.mem = true) (v : BitVec 32) (n : Nat) :
    Memory.wf (s.pushed v n).mem = true := State.wf_store hm _ n v

theorem AllRam.pushed {s : State} (h : AllRam s) (v : BitVec 32) (n : Nat) : AllRam (s.pushed v n) := by
  obtain ⟨m, st, e⟩ := s.pushed_same v n
  rw [e]
  exact h.of_same rfl rfl

/-- A push of a selector that goes through: the upper word of a doubleword is free. -/
theorem pushSel_eq_ok {sel : BitVec 16} {n : Nat} {w u : Work} (h : AllRam w.s) (hn : n ≠ 0) (e : pushSel sel n w = .ok () u) :
    ∃ (x : BitVec 16) (env : Env) (on off : BitVec 32), Drawn w.s.env env ∧
      u = { w with s := ({ w.s with env := env } : State).pushed (x ++ sel) n, hitOn := on, hitOff := off } := by
  unfold pushSel at e
  obtain ⟨x, w1, h1, h2⟩ := bind_eq_ok.1 e
  have key : ∃ env, Drawn w.s.env env ∧ w1 = { w with s := { w.s with env := env } } := by
    by_cases h4 : n = 4
    · rw [if_pos h4] at h1
      obtain ⟨v, env, hd, hd'⟩ := draw16_ok w
      rw [hd] at h1
      cases h1
      exact ⟨env, hd', rfl⟩
    · rw [if_neg h4] at h1
      cases h1
      exact ⟨w.s.env, Drawn.refl _, rfl⟩
  obtain ⟨env, hd, rfl⟩ := key
  have hp : env.physMap = w.s.env.physMap := by rw [hd]
  obtain ⟨on, off, rfl⟩ := push_eq_ok (h.of_same (t := { w.s with env := env }) rfl hp) hn h2
  exact ⟨x, env, on, off, hd, rfl⟩

/-! ### Descriptors and the stacks of the TSS -/

theorem readDescAt_ram {w : Work} (h : AllRam w.s) (la : BitVec 32) :
    readDescAt la w = .ok { lo := w.s.valueAt la 4, hi := w.s.valueAt (la + 4) 4 } w := by
  unfold readDescAt
  simp only [M.run_bind, linRead_ram h _ (by decide : (4 : Nat) ≠ 0), M.run_pure]

/-- The descriptor that a selector names. -/
theorem readDescriptor_ram {w : Work} (h : AllRam w.s) (sel : BitVec 16) :
    readDescriptor sel w = .ok (w.s.descriptor sel) w := by
  unfold readDescriptor State.descriptor
  simp only [M.run_bind, run_st]
  cases descAddr w.s sel with
  | none => rfl
  | some la => simp only [M.run_bind, readDescAt_ram h, M.run_pure, Option.map_some]

theorem fetchDesc_eq_ok {sel : BitVec 16} {k : CodeExc} {d : Desc} {w u : Work} (h : AllRam w.s)
    (e : fetchDesc sel k w = .ok d u) : u = w ∧ w.s.descriptor sel = some d := by
  unfold fetchDesc at e
  simp only [M.run_bind, readDescriptor_ram h] at e
  cases hd : w.s.descriptor sel with
  | none =>
    rw [hd] at e
    obtain ⟨_, _, _, h2⟩ := bind_eq_ok.1 e
    cases h2
  | some d' =>
    rw [hd] at e
    cases e
    exact ⟨rfl, rfl⟩

theorem checkSel_eq_ok {c : Bool} {k : CodeExc} {sel : BitVec 16} {w u : Work} {x : Unit} (e : checkSel c k sel w = .ok x u) :
    c = true ∧ u = w := by
  unfold checkSel selCode at e
  simp only [M.run_bind, run_extBit, M.run_pure] at e
  exact check_eq_ok.1 e

/-- What the checks of an inner stack that pass answer. -/
theorem innerStack_eq_ok {pl : BitVec 2} {n : Nat} {d : Desc} {nss : BitVec 16} {nesp : BitVec 32} {w u : Work}
    (h : AllRam w.s) (e : innerStack pl n w = .ok (d, nss, nesp) u) :
    u = w ∧ nss = w.s.tssSs pl ∧ nesp = w.s.tssEsp pl ∧ w.s.descriptor nss = some d := by
  unfold innerStack at e
  obtain ⟨p, w1, h1, e⟩ := bind_eq_ok.1 e
  have ht : w1 = w ∧ p = (w.s.tssSs pl, w.s.tssEsp pl) := by
    unfold tssStack at h1
    obtain ⟨_, w2, h2, h1⟩ := bind_eq_ok.1 h1
    cases h2
    obtain ⟨_, w3, h3, h1⟩ := bind_eq_ok.1 h1
    obtain ⟨_, rfl⟩ := need_eq_ok.1 h3
    obtain ⟨_, w4, h4, h1⟩ := bind_eq_ok.1 h1
    obtain ⟨_, rfl⟩ := checkSel_eq_ok h4
    simp only [M.run_bind, linRead_ram h _ (by decide : (4 : Nat) ≠ 0), linRead_ram h _ (by decide : (2 : Nat) ≠ 0),
      M.run_pure] at h1
    cases h1
    exact ⟨rfl, rfl⟩
  obtain ⟨rfl, rfl⟩ := ht
  obtain ⟨_, _, h2, e⟩ := bind_eq_ok.1 e
  obtain ⟨_, rfl⟩ := checkSel_eq_ok h2
  obtain ⟨d', _, h3, e⟩ := bind_eq_ok.1 e
  obtain ⟨rfl, hd⟩ := fetchDesc_eq_ok h h3
  obtain ⟨_, _, h4, e⟩ := bind_eq_ok.1 e
  obtain ⟨_, rfl⟩ := checkSel_eq_ok h4
  obtain ⟨_, _, h5, e⟩ := bind_eq_ok.1 e
  obtain ⟨_, rfl⟩ := checkSel_eq_ok h5
  obtain ⟨_, _, h6, e⟩ := bind_eq_ok.1 e
  obtain ⟨_, rfl⟩ := checkSel_eq_ok h6
  obtain ⟨_, _, h7, e⟩ := bind_eq_ok.1 e
  obtain ⟨_, rfl⟩ := checkSel_eq_ok h7
  obtain ⟨_, _, h8, e⟩ := bind_eq_ok.1 e
  obtain ⟨_, rfl⟩ := checkSel_eq_ok h8
  cases e
  exact ⟨rfl, rfl, rfl, hd⟩

/-- The bits that an update of a descriptor's access byte sets. -/
theorem setAccessBits_ram {w : Work} (h : AllRam w.s) (sel : BitVec 16) (m : Byte) :
    setAccessBits sel m w = .ok () { w with
      s := w.s.storeBytes [(accessByte w.s sel, w.s.byteAt (accessByte w.s sel) ||| m)]
      sticky := w.sticky ++ [(accessByte w.s sel, m)] } := by
  have h1 : span (accessByte w.s sel) 1 = [accessByte w.s sel] := by simp [span]
  unfold setAccessBits setBits physReadByte physWriteByte
  simp only [M.run_bind, run_st, linAccess_flat h.paging, h1, List.headD_cons, h.ram]
  simp only [M.run_pure, h.ram]
  rfl

end Sys2Proof.Machine
end

