-- ==== Sys2Proof/Laws/Checks.lean ====
section
/-! SUPPORT. Tests in their order: how `FirstFailure`, `ChecksDescriptor` and `RunsThrough` go through a meaning, one test or
stage at a time. -/

namespace Sys2Proof.Machine

open Sys2Proof

variable {α : Type} {o : EStateM.Result Stop Work α} {w v : Work} {p good : Prop} {e : Exc} {tests : List (Prop × Exc)}

/-- Accesses leave EXT alone. -/
theorem AccessesW.ext {w v : Work} (h : AccessesW w v) : v.ext = w.ext := by
  rw [h.same]

theorem AccessesW.code {w v : Work} (h : AccessesW w v) (sel : BitVec 16) : v.code sel = w.code sel := by
  unfold Work.code Work.extCode
  rw [h.ext]

theorem run_checkSel (c : Bool) (k : CodeExc) (sel : BitVec 16) (w : Work) :
    checkSel c k sel w = if c then .ok () w else .error (.exc (k.mk (w.code sel))) w := by
  unfold checkSel selCode
  simp only [M.run_bind, run_extBit, M.run_pure, run_check]
  rfl

/-- A test with `check`. -/
theorem firstFailure_check {c : Bool} {m : Unit → M α} (ho : o = (check c e >>= m) w) (hp : p ↔ c = true)
    (h : c = true → o = m () w → FirstFailure o w tests good) : FirstFailure o w ((p, e) :: tests) good := by
  rw [M.run_bind, run_check] at ho
  cases c with
  | true => exact ⟨fun hn => absurd (hp.mpr rfl) hn, fun _ => h rfl ho⟩
  | false => exact ⟨fun _ => ho, fun hq => absurd (hp.mp hq) Bool.false_ne_true⟩

/-- A test with `checkSel`. -/
theorem firstFailure_checkSel {c : Bool} {k : CodeExc} {sel : BitVec 16} {m : Unit → M α}
    (ho : o = (checkSel c k sel >>= m) v) (hc : AccessesW w v) (he : e = k.mk (w.code sel)) (hp : p ↔ c = true)
    (h : c = true → o = m () v → FirstFailure o v tests good) : FirstFailure o v ((p, e) :: tests) good := by
  rw [M.run_bind, run_checkSel, hc.code, ← he] at ho
  cases c with
  | true => exact ⟨fun hn => absurd (hp.mpr rfl) hn, fun _ => h rfl ho⟩
  | false => exact ⟨fun _ => ho, fun hq => absurd (hp.mp hq) Bool.false_ne_true⟩

/-- The last test of a selector, and the tests of the descriptor that it names. -/
theorem firstFailure_fetchDesc {k : CodeExc} {sel : BitVec 16} {m : Desc → M α} {rest : Desc → List (Prop × Exc)}
    {ends : Desc → Work → Prop} (ho : o = (fetchDesc sel k >>= m) w)
    (h : ∀ d v, fetchDesc sel k w = .ok d v → AccessesW w v → o = m d v → FirstFailure o v (rest d) (ends d v)) :
    FirstFailure o w [((descAddr w.s sel).isSome = true, k.mk (w.code sel))]
      (∀ d v, fetchDesc sel k w = .ok d v → FirstFailure o v (rest d) (ends d v)) := by
  rw [M.run_bind] at ho
  refine ⟨fun hn => ?_, fun _ d v hd => h d v hd ((fetchDesc_accesses sel k).ok hd) ?_⟩
  · have hd : descAddr w.s sel = none := by simpa using hn
    rw [ho]
    unfold fetchDesc readDescriptor selCode
    simp only [M.run_bind, run_st, hd, M.run_pure, run_extBit, run_raise]
    rfl
  · rw [ho, hd]

/-- A stage, and the stages after it. -/
theorem runsThrough_bind {o : EStateM.Result Stop Work Unit} {m : M Unit} {n : Unit → M Unit} {stages : List (M Unit)}
    {ends : Work → Prop} (ho : o = (m >>= n) w) (h : ∀ v, m w = .ok () v → o = n () v → RunsThrough o stages v ends) :
    RunsThrough o (m :: stages) w ends := by
  rw [M.run_bind] at ho
  refine ⟨fun e v he => ?_, fun v hv => h v hv ?_⟩
  · rw [ho, he]
  · rw [ho, hv]

end Sys2Proof.Machine
end

