-- ==== Sys2Proof/Laws/PerInstr.lean ====
section
/-! SUPPORT. Facts of each instruction as syntax: an encoding has at least one byte and at most twelve. -/

namespace Sys2Proof.Laws

open Sys2Proof

/-- An encoding has one to twelve bytes, at either operand size and either address size. -/
def encodes.Statement (i : Instr) : Prop :=
  ∀ os as : Size, 1 ≤ (encode os as i).length ∧ (encode os as i).length ≤ 12

/-! ### Lengths of the parts -/

theorem length_enc16 (v : BitVec 16) : (enc16 v).length = 2 := rfl

theorem length_enc32 (v : BitVec 32) : (enc32 v).length = 4 := rfl

theorem length_encv (z : Size) (v : BitVec 32) : (encv z v).length ≤ 4 := by
  cases z <;> simp [encv, length_enc16, length_enc32]

theorem length_encDisp32 (reg rm : BitVec 3) (sib : List Byte) (d : Disp32) :
    (encDisp32 reg rm sib d).length ≤ sib.length + 5 := by
  cases d <;> simp [encDisp32, length_enc32]

theorem length_encMem (reg : BitVec 3) (m : Mem) : (encMem reg m).length ≤ 6 := by
  cases m with
  | a16 b d => cases d <;> simp [encMem, length_enc16]
  | abs16 d => simp [encMem, length_enc16]
  | a32 b d => exact (length_encDisp32 _ _ _ _).trans (by simp)
  | abs32 d => simp [encMem, length_enc32]
  | sib sc ix b d => exact length_encDisp32 _ _ _ _
  | sibAbs sc ix d => simp [encMem, length_enc32]

theorem length_encRm {ρ : Type} (f : ρ → BitVec 3) (reg : BitVec 3) (rm : RM ρ) : (encRm f reg rm).length ≤ 6 := by
  cases rm with
  | reg r => simp [encRm]
  | mem m => exact length_encMem reg m

/-! ### One lemma for each instruction -/

/-- One opcode byte. -/
theorem bounds_one {b : Byte} {l : List Byte} (h : l.length ≤ 10) : 1 ≤ (b :: l).length ∧ (b :: l).length ≤ 12 :=
  ⟨Nat.succ_le_succ (Nat.zero_le _), (Nat.succ_le_succ h).trans (by decide)⟩

/-- Two opcode bytes. -/
theorem bounds_two {a b : Byte} {l : List Byte} (h : l.length ≤ 10) :
    1 ≤ (a :: b :: l).length ∧ (a :: b :: l).length ≤ 12 :=
  ⟨Nat.succ_le_succ (Nat.zero_le _), Nat.succ_le_succ (Nat.succ_le_succ h)⟩

theorem bounds_append {k l : List Byte} (hk : k.length ≤ 6) (hl : l.length ≤ 4) : (k ++ l).length ≤ 10 :=
  List.length_append ▸ Nat.add_le_add hk hl

theorem encodes.sgdt (rm : RM Reg) : encodes.Statement (.sgdt rm) := fun _ _ =>
  bounds_two ((length_encRm _ _ _).trans (by decide))

theorem encodes.sidt (rm : RM Reg) : encodes.Statement (.sidt rm) := fun _ _ =>
  bounds_two ((length_encRm _ _ _).trans (by decide))

theorem encodes.lgdt (rm : RM Reg) : encodes.Statement (.lgdt rm) := fun _ _ =>
  bounds_two ((length_encRm _ _ _).trans (by decide))

theorem encodes.lidt (rm : RM Reg) : encodes.Statement (.lidt rm) := fun _ _ =>
  bounds_two ((length_encRm _ _ _).trans (by decide))

theorem encodes.smsw (rm : RM Reg) : encodes.Statement (.smsw rm) := fun _ _ =>
  bounds_two ((length_encRm _ _ _).trans (by decide))

theorem encodes.lmsw (rm : RM Reg) : encodes.Statement (.lmsw rm) := fun _ _ =>
  bounds_two ((length_encRm _ _ _).trans (by decide))

theorem encodes.sldt (rm : RM Reg) : encodes.Statement (.sldt rm) := fun _ _ =>
  bounds_two ((length_encRm _ _ _).trans (by decide))

theorem encodes.str (rm : RM Reg) : encodes.Statement (.str rm) := fun _ _ =>
  bounds_two ((length_encRm _ _ _).trans (by decide))

theorem encodes.lldt (rm : RM Reg) : encodes.Statement (.lldt rm) := fun _ _ =>
  bounds_two ((length_encRm _ _ _).trans (by decide))

theorem encodes.ltr (rm : RM Reg) : encodes.Statement (.ltr rm) := fun _ _ =>
  bounds_two ((length_encRm _ _ _).trans (by decide))

theorem encodes.verr (rm : RM Reg) : encodes.Statement (.verr rm) := fun _ _ =>
  bounds_two ((length_encRm _ _ _).trans (by decide))

theorem encodes.verw (rm : RM Reg) : encodes.Statement (.verw rm) := fun _ _ =>
  bounds_two ((length_encRm _ _ _).trans (by decide))

theorem encodes.clts : encodes.Statement .clts := fun _ _ =>
  ⟨Nat.le_of_ble_eq_true rfl, Nat.le_of_ble_eq_true rfl⟩

theorem encodes.movRCr (r : Reg) (n : BitVec 3) : encodes.Statement (.movRCr r n) := fun _ _ =>
  ⟨Nat.le_of_ble_eq_true rfl, Nat.le_of_ble_eq_true rfl⟩

theorem encodes.movRDr (r : Reg) (n : BitVec 3) : encodes.Statement (.movRDr r n) := fun _ _ =>
  ⟨Nat.le_of_ble_eq_true rfl, Nat.le_of_ble_eq_true rfl⟩

theorem encodes.movCrR (n : BitVec 3) (r : Reg) : encodes.Statement (.movCrR n r) := fun _ _ =>
  ⟨Nat.le_of_ble_eq_true rfl, Nat.le_of_ble_eq_true rfl⟩

theorem encodes.movDrR (n : BitVec 3) (r : Reg) : encodes.Statement (.movDrR n r) := fun _ _ =>
  ⟨Nat.le_of_ble_eq_true rfl, Nat.le_of_ble_eq_true rfl⟩

theorem encodes.movRTr (r : Reg) (n : BitVec 3) : encodes.Statement (.movRTr r n) := fun _ _ =>
  ⟨Nat.le_of_ble_eq_true rfl, Nat.le_of_ble_eq_true rfl⟩

theorem encodes.movTrR (n : BitVec 3) (r : Reg) : encodes.Statement (.movTrR n r) := fun _ _ =>
  ⟨Nat.le_of_ble_eq_true rfl, Nat.le_of_ble_eq_true rfl⟩

theorem encodes.hlt : encodes.Statement .hlt := fun _ _ =>
  ⟨Nat.le_of_ble_eq_true rfl, Nat.le_of_ble_eq_true rfl⟩

theorem encodes.lar (r : Reg) (rm : RM Reg) : encodes.Statement (.lar r rm) := fun _ _ =>
  bounds_two ((length_encRm _ _ _).trans (by decide))

theorem encodes.lsl (r : Reg) (rm : RM Reg) : encodes.Statement (.lsl r rm) := fun _ _ =>
  bounds_two ((length_encRm _ _ _).trans (by decide))

theorem encodes.arpl (rm : RM Reg) (r : Reg) : encodes.Statement (.arpl rm r) := fun _ _ =>
  bounds_one ((length_encRm _ _ _).trans (by decide))

theorem encodes.movSregRm (n : BitVec 3) (rm : RM Reg) : encodes.Statement (.movSregRm n rm) := fun _ _ =>
  bounds_one ((length_encRm _ _ _).trans (by decide))

theorem encodes.movRmSreg (rm : RM Reg) (n : BitVec 3) : encodes.Statement (.movRmSreg rm n) := fun _ _ =>
  bounds_one ((length_encRm _ _ _).trans (by decide))

theorem encodes.pushEs : encodes.Statement .pushEs := fun _ _ =>
  ⟨Nat.le_of_ble_eq_true rfl, Nat.le_of_ble_eq_true rfl⟩

theorem encodes.pushCs : encodes.Statement .pushCs := fun _ _ =>
  ⟨Nat.le_of_ble_eq_true rfl, Nat.le_of_ble_eq_true rfl⟩

theorem encodes.pushSs : encodes.Statement .pushSs := fun _ _ =>
  ⟨Nat.le_of_ble_eq_true rfl, Nat.le_of_ble_eq_true rfl⟩

theorem encodes.pushDs : encodes.Statement .pushDs := fun _ _ =>
  ⟨Nat.le_of_ble_eq_true rfl, Nat.le_of_ble_eq_true rfl⟩

theorem encodes.pushFs : encodes.Statement .pushFs := fun _ _ =>
  ⟨Nat.le_of_ble_eq_true rfl, Nat.le_of_ble_eq_true rfl⟩

theorem encodes.pushGs : encodes.Statement .pushGs := fun _ _ =>
  ⟨Nat.le_of_ble_eq_true rfl, Nat.le_of_ble_eq_true rfl⟩

theorem encodes.popEs : encodes.Statement .popEs := fun _ _ =>
  ⟨Nat.le_of_ble_eq_true rfl, Nat.le_of_ble_eq_true rfl⟩

theorem encodes.popSs : encodes.Statement .popSs := fun _ _ =>
  ⟨Nat.le_of_ble_eq_true rfl, Nat.le_of_ble_eq_true rfl⟩

theorem encodes.popDs : encodes.Statement .popDs := fun _ _ =>
  ⟨Nat.le_of_ble_eq_true rfl, Nat.le_of_ble_eq_true rfl⟩

theorem encodes.popFs : encodes.Statement .popFs := fun _ _ =>
  ⟨Nat.le_of_ble_eq_true rfl, Nat.le_of_ble_eq_true rfl⟩

theorem encodes.popGs : encodes.Statement .popGs := fun _ _ =>
  ⟨Nat.le_of_ble_eq_true rfl, Nat.le_of_ble_eq_true rfl⟩

theorem encodes.les (r : Reg) (rm : RM Reg) : encodes.Statement (.les r rm) := fun _ _ =>
  bounds_one ((length_encRm _ _ _).trans (by decide))

theorem encodes.lds (r : Reg) (rm : RM Reg) : encodes.Statement (.lds r rm) := fun _ _ =>
  bounds_one ((length_encRm _ _ _).trans (by decide))

theorem encodes.lss (r : Reg) (rm : RM Reg) : encodes.Statement (.lss r rm) := fun _ _ =>
  bounds_two ((length_encRm _ _ _).trans (by decide))

theorem encodes.lfs (r : Reg) (rm : RM Reg) : encodes.Statement (.lfs r rm) := fun _ _ =>
  bounds_two ((length_encRm _ _ _).trans (by decide))

theorem encodes.lgs (r : Reg) (rm : RM Reg) : encodes.Statement (.lgs r rm) := fun _ _ =>
  bounds_two ((length_encRm _ _ _).trans (by decide))

theorem encodes.jmpPtr (off : BitVec 32) (sel : BitVec 16) : encodes.Statement (.jmpPtr off sel) := fun os _ =>
  bounds_one (bounds_append ((length_encv os off).trans (by decide)) (Nat.le_of_ble_eq_true rfl))

theorem encodes.jmpFarM (rm : RM Reg) : encodes.Statement (.jmpFarM rm) := fun _ _ =>
  bounds_one ((length_encRm _ _ _).trans (by decide))

theorem encodes.callPtr (off : BitVec 32) (sel : BitVec 16) : encodes.Statement (.callPtr off sel) := fun os _ =>
  bounds_one (bounds_append ((length_encv os off).trans (by decide)) (Nat.le_of_ble_eq_true rfl))

theorem encodes.callFarM (rm : RM Reg) : encodes.Statement (.callFarM rm) := fun _ _ =>
  bounds_one ((length_encRm _ _ _).trans (by decide))

theorem encodes.retf : encodes.Statement .retf := fun _ _ =>
  ⟨Nat.le_of_ble_eq_true rfl, Nat.le_of_ble_eq_true rfl⟩

theorem encodes.retfImm16 (imm : BitVec 16) : encodes.Statement (.retfImm16 imm) := fun _ _ =>
  ⟨Nat.le_of_ble_eq_true rfl, Nat.le_of_ble_eq_true rfl⟩

theorem encodes.inAlImm8 (imm : BitVec 8) : encodes.Statement (.inAlImm8 imm) := fun _ _ =>
  ⟨Nat.le_of_ble_eq_true rfl, Nat.le_of_ble_eq_true rfl⟩

theorem encodes.inEaxImm8 (imm : BitVec 8) : encodes.Statement (.inEaxImm8 imm) := fun _ _ =>
  ⟨Nat.le_of_ble_eq_true rfl, Nat.le_of_ble_eq_true rfl⟩

theorem encodes.inAlDx : encodes.Statement .inAlDx := fun _ _ =>
  ⟨Nat.le_of_ble_eq_true rfl, Nat.le_of_ble_eq_true rfl⟩

theorem encodes.inEaxDx : encodes.Statement .inEaxDx := fun _ _ =>
  ⟨Nat.le_of_ble_eq_true rfl, Nat.le_of_ble_eq_true rfl⟩

theorem encodes.outImm8Al (imm : BitVec 8) : encodes.Statement (.outImm8Al imm) := fun _ _ =>
  ⟨Nat.le_of_ble_eq_true rfl, Nat.le_of_ble_eq_true rfl⟩

theorem encodes.outImm8Eax (imm : BitVec 8) : encodes.Statement (.outImm8Eax imm) := fun _ _ =>
  ⟨Nat.le_of_ble_eq_true rfl, Nat.le_of_ble_eq_true rfl⟩

theorem encodes.outDxAl : encodes.Statement .outDxAl := fun _ _ =>
  ⟨Nat.le_of_ble_eq_true rfl, Nat.le_of_ble_eq_true rfl⟩

theorem encodes.outDxEax : encodes.Statement .outDxEax := fun _ _ =>
  ⟨Nat.le_of_ble_eq_true rfl, Nat.le_of_ble_eq_true rfl⟩

theorem encodes.insb : encodes.Statement .insb := fun _ _ =>
  ⟨Nat.le_of_ble_eq_true rfl, Nat.le_of_ble_eq_true rfl⟩

theorem encodes.insv : encodes.Statement .insv := fun _ _ =>
  ⟨Nat.le_of_ble_eq_true rfl, Nat.le_of_ble_eq_true rfl⟩

theorem encodes.outsb : encodes.Statement .outsb := fun _ _ =>
  ⟨Nat.le_of_ble_eq_true rfl, Nat.le_of_ble_eq_true rfl⟩

theorem encodes.outsv : encodes.Statement .outsv := fun _ _ =>
  ⟨Nat.le_of_ble_eq_true rfl, Nat.le_of_ble_eq_true rfl⟩

theorem encodes.cli : encodes.Statement .cli := fun _ _ =>
  ⟨Nat.le_of_ble_eq_true rfl, Nat.le_of_ble_eq_true rfl⟩

theorem encodes.sti : encodes.Statement .sti := fun _ _ =>
  ⟨Nat.le_of_ble_eq_true rfl, Nat.le_of_ble_eq_true rfl⟩

theorem encodes.pushf : encodes.Statement .pushf := fun _ _ =>
  ⟨Nat.le_of_ble_eq_true rfl, Nat.le_of_ble_eq_true rfl⟩

theorem encodes.popf : encodes.Statement .popf := fun _ _ =>
  ⟨Nat.le_of_ble_eq_true rfl, Nat.le_of_ble_eq_true rfl⟩

theorem encodes.intImm8 (imm : BitVec 8) : encodes.Statement (.intImm8 imm) := fun _ _ =>
  ⟨Nat.le_of_ble_eq_true rfl, Nat.le_of_ble_eq_true rfl⟩

theorem encodes.int3 : encodes.Statement .int3 := fun _ _ =>
  ⟨Nat.le_of_ble_eq_true rfl, Nat.le_of_ble_eq_true rfl⟩

theorem encodes.into : encodes.Statement .into := fun _ _ =>
  ⟨Nat.le_of_ble_eq_true rfl, Nat.le_of_ble_eq_true rfl⟩

theorem encodes.bound (r : Reg) (rm : RM Reg) : encodes.Statement (.bound r rm) := fun _ _ =>
  bounds_one ((length_encRm _ _ _).trans (by decide))

theorem encodes.iret : encodes.Statement .iret := fun _ _ =>
  ⟨Nat.le_of_ble_eq_true rfl, Nat.le_of_ble_eq_true rfl⟩

theorem encodes.esc (opc : BitVec 3) (reg : BitVec 3) (rm : RM Reg) : encodes.Statement (.esc opc reg rm) := fun _ _ =>
  bounds_one ((length_encRm _ _ _).trans (by decide))

theorem encodes.wait : encodes.Statement .wait := fun _ _ =>
  ⟨Nat.le_of_ble_eq_true rfl, Nat.le_of_ble_eq_true rfl⟩

theorem encodes.lock : encodes.Statement .lock := fun _ _ =>
  ⟨Nat.le_of_ble_eq_true rfl, Nat.le_of_ble_eq_true rfl⟩

theorem encodes.xchgRm8R8 (rm : RM Reg8) (r : Reg8) : encodes.Statement (.xchgRm8R8 rm r) := fun _ _ =>
  bounds_one ((length_encRm _ _ _).trans (by decide))

theorem encodes.xchgRmR (rm : RM Reg) (r : Reg) : encodes.Statement (.xchgRmR rm r) := fun _ _ =>
  bounds_one ((length_encRm _ _ _).trans (by decide))

theorem encodes.xchgEaxR (r : Reg) : encodes.Statement (.xchgEaxR r) := fun _ _ =>
  ⟨Nat.le_of_ble_eq_true rfl, Nat.le_of_ble_eq_true rfl⟩

theorem encodes.nop : encodes.Statement .nop := fun _ _ =>
  ⟨Nat.le_of_ble_eq_true rfl, Nat.le_of_ble_eq_true rfl⟩

theorem encodes.movRm8R8 (rm : RM Reg8) (r : Reg8) : encodes.Statement (.movRm8R8 rm r) := fun _ _ =>
  bounds_one ((length_encRm _ _ _).trans (by decide))

theorem encodes.movRmR (rm : RM Reg) (r : Reg) : encodes.Statement (.movRmR rm r) := fun _ _ =>
  bounds_one ((length_encRm _ _ _).trans (by decide))

theorem encodes.movR8Rm8 (r : Reg8) (rm : RM Reg8) : encodes.Statement (.movR8Rm8 r rm) := fun _ _ =>
  bounds_one ((length_encRm _ _ _).trans (by decide))

theorem encodes.movRRm (r : Reg) (rm : RM Reg) : encodes.Statement (.movRRm r rm) := fun _ _ =>
  bounds_one ((length_encRm _ _ _).trans (by decide))

theorem encodes.movR8Imm8 (r : Reg8) (imm : BitVec 8) : encodes.Statement (.movR8Imm8 r imm) := fun _ _ =>
  ⟨Nat.le_of_ble_eq_true rfl, Nat.le_of_ble_eq_true rfl⟩

theorem encodes.movRImm (r : Reg) (imm : BitVec 32) : encodes.Statement (.movRImm r imm) := fun os _ =>
  bounds_one ((length_encv os imm).trans (by decide))

theorem encodes.movRm8Imm8 (rm : RM Reg8) (imm : BitVec 8) : encodes.Statement (.movRm8Imm8 rm imm) := fun _ _ =>
  bounds_one (bounds_append (length_encRm _ _ _) (Nat.le_of_ble_eq_true rfl))

theorem encodes.movRmImm (rm : RM Reg) (imm : BitVec 32) : encodes.Statement (.movRmImm rm imm) := fun os _ =>
  bounds_one (bounds_append (length_encRm _ _ _) (length_encv os imm))

theorem encodes.movAlMoffs (off : BitVec 32) : encodes.Statement (.movAlMoffs off) := fun _ as =>
  bounds_one ((length_encv as off).trans (by decide))

theorem encodes.movEaxMoffs (off : BitVec 32) : encodes.Statement (.movEaxMoffs off) := fun _ as =>
  bounds_one ((length_encv as off).trans (by decide))

theorem encodes.movMoffsAl (off : BitVec 32) : encodes.Statement (.movMoffsAl off) := fun _ as =>
  bounds_one ((length_encv as off).trans (by decide))

theorem encodes.movMoffsEax (off : BitVec 32) : encodes.Statement (.movMoffsEax off) := fun _ as =>
  bounds_one ((length_encv as off).trans (by decide))

theorem encodes.pushR (r : Reg) : encodes.Statement (.pushR r) := fun _ _ =>
  ⟨Nat.le_of_ble_eq_true rfl, Nat.le_of_ble_eq_true rfl⟩

theorem encodes.popR (r : Reg) : encodes.Statement (.popR r) := fun _ _ =>
  ⟨Nat.le_of_ble_eq_true rfl, Nat.le_of_ble_eq_true rfl⟩

theorem encodes.addRm8R8 (rm : RM Reg8) (r : Reg8) : encodes.Statement (.addRm8R8 rm r) := fun _ _ =>
  bounds_one ((length_encRm _ _ _).trans (by decide))

theorem encodes.addRmR (rm : RM Reg) (r : Reg) : encodes.Statement (.addRmR rm r) := fun _ _ =>
  bounds_one ((length_encRm _ _ _).trans (by decide))

theorem encodes.addR8Rm8 (r : Reg8) (rm : RM Reg8) : encodes.Statement (.addR8Rm8 r rm) := fun _ _ =>
  bounds_one ((length_encRm _ _ _).trans (by decide))

theorem encodes.addRRm (r : Reg) (rm : RM Reg) : encodes.Statement (.addRRm r rm) := fun _ _ =>
  bounds_one ((length_encRm _ _ _).trans (by decide))

theorem encodes.addAlImm8 (imm : BitVec 8) : encodes.Statement (.addAlImm8 imm) := fun _ _ =>
  ⟨Nat.le_of_ble_eq_true rfl, Nat.le_of_ble_eq_true rfl⟩

theorem encodes.addEaxImm (imm : BitVec 32) : encodes.Statement (.addEaxImm imm) := fun os _ =>
  bounds_one ((length_encv os imm).trans (by decide))

theorem encodes.addRm8Imm8 (rm : RM Reg8) (imm : BitVec 8) : encodes.Statement (.addRm8Imm8 rm imm) := fun _ _ =>
  bounds_one (bounds_append (length_encRm _ _ _) (Nat.le_of_ble_eq_true rfl))

theorem encodes.addRmImm (rm : RM Reg) (imm : BitVec 32) : encodes.Statement (.addRmImm rm imm) := fun os _ =>
  bounds_one (bounds_append (length_encRm _ _ _) (length_encv os imm))

theorem encodes.addRmImm8 (rm : RM Reg) (imm : BitVec 8) : encodes.Statement (.addRmImm8 rm imm) := fun _ _ =>
  bounds_one (bounds_append (length_encRm _ _ _) (Nat.le_of_ble_eq_true rfl))

theorem encodes.orRm8R8 (rm : RM Reg8) (r : Reg8) : encodes.Statement (.orRm8R8 rm r) := fun _ _ =>
  bounds_one ((length_encRm _ _ _).trans (by decide))

theorem encodes.orRmR (rm : RM Reg) (r : Reg) : encodes.Statement (.orRmR rm r) := fun _ _ =>
  bounds_one ((length_encRm _ _ _).trans (by decide))

theorem encodes.orR8Rm8 (r : Reg8) (rm : RM Reg8) : encodes.Statement (.orR8Rm8 r rm) := fun _ _ =>
  bounds_one ((length_encRm _ _ _).trans (by decide))

theorem encodes.orRRm (r : Reg) (rm : RM Reg) : encodes.Statement (.orRRm r rm) := fun _ _ =>
  bounds_one ((length_encRm _ _ _).trans (by decide))

theorem encodes.orAlImm8 (imm : BitVec 8) : encodes.Statement (.orAlImm8 imm) := fun _ _ =>
  ⟨Nat.le_of_ble_eq_true rfl, Nat.le_of_ble_eq_true rfl⟩

theorem encodes.orEaxImm (imm : BitVec 32) : encodes.Statement (.orEaxImm imm) := fun os _ =>
  bounds_one ((length_encv os imm).trans (by decide))

theorem encodes.orRm8Imm8 (rm : RM Reg8) (imm : BitVec 8) : encodes.Statement (.orRm8Imm8 rm imm) := fun _ _ =>
  bounds_one (bounds_append (length_encRm _ _ _) (Nat.le_of_ble_eq_true rfl))

theorem encodes.orRmImm (rm : RM Reg) (imm : BitVec 32) : encodes.Statement (.orRmImm rm imm) := fun os _ =>
  bounds_one (bounds_append (length_encRm _ _ _) (length_encv os imm))

theorem encodes.orRmImm8 (rm : RM Reg) (imm : BitVec 8) : encodes.Statement (.orRmImm8 rm imm) := fun _ _ =>
  bounds_one (bounds_append (length_encRm _ _ _) (Nat.le_of_ble_eq_true rfl))

theorem encodes.adcRm8R8 (rm : RM Reg8) (r : Reg8) : encodes.Statement (.adcRm8R8 rm r) := fun _ _ =>
  bounds_one ((length_encRm _ _ _).trans (by decide))

theorem encodes.adcRmR (rm : RM Reg) (r : Reg) : encodes.Statement (.adcRmR rm r) := fun _ _ =>
  bounds_one ((length_encRm _ _ _).trans (by decide))

theorem encodes.adcR8Rm8 (r : Reg8) (rm : RM Reg8) : encodes.Statement (.adcR8Rm8 r rm) := fun _ _ =>
  bounds_one ((length_encRm _ _ _).trans (by decide))

theorem encodes.adcRRm (r : Reg) (rm : RM Reg) : encodes.Statement (.adcRRm r rm) := fun _ _ =>
  bounds_one ((length_encRm _ _ _).trans (by decide))

theorem encodes.adcAlImm8 (imm : BitVec 8) : encodes.Statement (.adcAlImm8 imm) := fun _ _ =>
  ⟨Nat.le_of_ble_eq_true rfl, Nat.le_of_ble_eq_true rfl⟩

theorem encodes.adcEaxImm (imm : BitVec 32) : encodes.Statement (.adcEaxImm imm) := fun os _ =>
  bounds_one ((length_encv os imm).trans (by decide))

theorem encodes.adcRm8Imm8 (rm : RM Reg8) (imm : BitVec 8) : encodes.Statement (.adcRm8Imm8 rm imm) := fun _ _ =>
  bounds_one (bounds_append (length_encRm _ _ _) (Nat.le_of_ble_eq_true rfl))

theorem encodes.adcRmImm (rm : RM Reg) (imm : BitVec 32) : encodes.Statement (.adcRmImm rm imm) := fun os _ =>
  bounds_one (bounds_append (length_encRm _ _ _) (length_encv os imm))

theorem encodes.adcRmImm8 (rm : RM Reg) (imm : BitVec 8) : encodes.Statement (.adcRmImm8 rm imm) := fun _ _ =>
  bounds_one (bounds_append (length_encRm _ _ _) (Nat.le_of_ble_eq_true rfl))

theorem encodes.sbbRm8R8 (rm : RM Reg8) (r : Reg8) : encodes.Statement (.sbbRm8R8 rm r) := fun _ _ =>
  bounds_one ((length_encRm _ _ _).trans (by decide))

theorem encodes.sbbRmR (rm : RM Reg) (r : Reg) : encodes.Statement (.sbbRmR rm r) := fun _ _ =>
  bounds_one ((length_encRm _ _ _).trans (by decide))

theorem encodes.sbbR8Rm8 (r : Reg8) (rm : RM Reg8) : encodes.Statement (.sbbR8Rm8 r rm) := fun _ _ =>
  bounds_one ((length_encRm _ _ _).trans (by decide))

theorem encodes.sbbRRm (r : Reg) (rm : RM Reg) : encodes.Statement (.sbbRRm r rm) := fun _ _ =>
  bounds_one ((length_encRm _ _ _).trans (by decide))

theorem encodes.sbbAlImm8 (imm : BitVec 8) : encodes.Statement (.sbbAlImm8 imm) := fun _ _ =>
  ⟨Nat.le_of_ble_eq_true rfl, Nat.le_of_ble_eq_true rfl⟩

theorem encodes.sbbEaxImm (imm : BitVec 32) : encodes.Statement (.sbbEaxImm imm) := fun os _ =>
  bounds_one ((length_encv os imm).trans (by decide))

theorem encodes.sbbRm8Imm8 (rm : RM Reg8) (imm : BitVec 8) : encodes.Statement (.sbbRm8Imm8 rm imm) := fun _ _ =>
  bounds_one (bounds_append (length_encRm _ _ _) (Nat.le_of_ble_eq_true rfl))

theorem encodes.sbbRmImm (rm : RM Reg) (imm : BitVec 32) : encodes.Statement (.sbbRmImm rm imm) := fun os _ =>
  bounds_one (bounds_append (length_encRm _ _ _) (length_encv os imm))

theorem encodes.sbbRmImm8 (rm : RM Reg) (imm : BitVec 8) : encodes.Statement (.sbbRmImm8 rm imm) := fun _ _ =>
  bounds_one (bounds_append (length_encRm _ _ _) (Nat.le_of_ble_eq_true rfl))

theorem encodes.andRm8R8 (rm : RM Reg8) (r : Reg8) : encodes.Statement (.andRm8R8 rm r) := fun _ _ =>
  bounds_one ((length_encRm _ _ _).trans (by decide))

theorem encodes.andRmR (rm : RM Reg) (r : Reg) : encodes.Statement (.andRmR rm r) := fun _ _ =>
  bounds_one ((length_encRm _ _ _).trans (by decide))

theorem encodes.andR8Rm8 (r : Reg8) (rm : RM Reg8) : encodes.Statement (.andR8Rm8 r rm) := fun _ _ =>
  bounds_one ((length_encRm _ _ _).trans (by decide))

theorem encodes.andRRm (r : Reg) (rm : RM Reg) : encodes.Statement (.andRRm r rm) := fun _ _ =>
  bounds_one ((length_encRm _ _ _).trans (by decide))

theorem encodes.andAlImm8 (imm : BitVec 8) : encodes.Statement (.andAlImm8 imm) := fun _ _ =>
  ⟨Nat.le_of_ble_eq_true rfl, Nat.le_of_ble_eq_true rfl⟩

theorem encodes.andEaxImm (imm : BitVec 32) : encodes.Statement (.andEaxImm imm) := fun os _ =>
  bounds_one ((length_encv os imm).trans (by decide))

theorem encodes.andRm8Imm8 (rm : RM Reg8) (imm : BitVec 8) : encodes.Statement (.andRm8Imm8 rm imm) := fun _ _ =>
  bounds_one (bounds_append (length_encRm _ _ _) (Nat.le_of_ble_eq_true rfl))

theorem encodes.andRmImm (rm : RM Reg) (imm : BitVec 32) : encodes.Statement (.andRmImm rm imm) := fun os _ =>
  bounds_one (bounds_append (length_encRm _ _ _) (length_encv os imm))

theorem encodes.andRmImm8 (rm : RM Reg) (imm : BitVec 8) : encodes.Statement (.andRmImm8 rm imm) := fun _ _ =>
  bounds_one (bounds_append (length_encRm _ _ _) (Nat.le_of_ble_eq_true rfl))

theorem encodes.subRm8R8 (rm : RM Reg8) (r : Reg8) : encodes.Statement (.subRm8R8 rm r) := fun _ _ =>
  bounds_one ((length_encRm _ _ _).trans (by decide))

theorem encodes.subRmR (rm : RM Reg) (r : Reg) : encodes.Statement (.subRmR rm r) := fun _ _ =>
  bounds_one ((length_encRm _ _ _).trans (by decide))

theorem encodes.subR8Rm8 (r : Reg8) (rm : RM Reg8) : encodes.Statement (.subR8Rm8 r rm) := fun _ _ =>
  bounds_one ((length_encRm _ _ _).trans (by decide))

theorem encodes.subRRm (r : Reg) (rm : RM Reg) : encodes.Statement (.subRRm r rm) := fun _ _ =>
  bounds_one ((length_encRm _ _ _).trans (by decide))

theorem encodes.subAlImm8 (imm : BitVec 8) : encodes.Statement (.subAlImm8 imm) := fun _ _ =>
  ⟨Nat.le_of_ble_eq_true rfl, Nat.le_of_ble_eq_true rfl⟩

theorem encodes.subEaxImm (imm : BitVec 32) : encodes.Statement (.subEaxImm imm) := fun os _ =>
  bounds_one ((length_encv os imm).trans (by decide))

theorem encodes.subRm8Imm8 (rm : RM Reg8) (imm : BitVec 8) : encodes.Statement (.subRm8Imm8 rm imm) := fun _ _ =>
  bounds_one (bounds_append (length_encRm _ _ _) (Nat.le_of_ble_eq_true rfl))

theorem encodes.subRmImm (rm : RM Reg) (imm : BitVec 32) : encodes.Statement (.subRmImm rm imm) := fun os _ =>
  bounds_one (bounds_append (length_encRm _ _ _) (length_encv os imm))

theorem encodes.subRmImm8 (rm : RM Reg) (imm : BitVec 8) : encodes.Statement (.subRmImm8 rm imm) := fun _ _ =>
  bounds_one (bounds_append (length_encRm _ _ _) (Nat.le_of_ble_eq_true rfl))

theorem encodes.xorRm8R8 (rm : RM Reg8) (r : Reg8) : encodes.Statement (.xorRm8R8 rm r) := fun _ _ =>
  bounds_one ((length_encRm _ _ _).trans (by decide))

theorem encodes.xorRmR (rm : RM Reg) (r : Reg) : encodes.Statement (.xorRmR rm r) := fun _ _ =>
  bounds_one ((length_encRm _ _ _).trans (by decide))

theorem encodes.xorR8Rm8 (r : Reg8) (rm : RM Reg8) : encodes.Statement (.xorR8Rm8 r rm) := fun _ _ =>
  bounds_one ((length_encRm _ _ _).trans (by decide))

theorem encodes.xorRRm (r : Reg) (rm : RM Reg) : encodes.Statement (.xorRRm r rm) := fun _ _ =>
  bounds_one ((length_encRm _ _ _).trans (by decide))

theorem encodes.xorAlImm8 (imm : BitVec 8) : encodes.Statement (.xorAlImm8 imm) := fun _ _ =>
  ⟨Nat.le_of_ble_eq_true rfl, Nat.le_of_ble_eq_true rfl⟩

theorem encodes.xorEaxImm (imm : BitVec 32) : encodes.Statement (.xorEaxImm imm) := fun os _ =>
  bounds_one ((length_encv os imm).trans (by decide))

theorem encodes.xorRm8Imm8 (rm : RM Reg8) (imm : BitVec 8) : encodes.Statement (.xorRm8Imm8 rm imm) := fun _ _ =>
  bounds_one (bounds_append (length_encRm _ _ _) (Nat.le_of_ble_eq_true rfl))

theorem encodes.xorRmImm (rm : RM Reg) (imm : BitVec 32) : encodes.Statement (.xorRmImm rm imm) := fun os _ =>
  bounds_one (bounds_append (length_encRm _ _ _) (length_encv os imm))

theorem encodes.xorRmImm8 (rm : RM Reg) (imm : BitVec 8) : encodes.Statement (.xorRmImm8 rm imm) := fun _ _ =>
  bounds_one (bounds_append (length_encRm _ _ _) (Nat.le_of_ble_eq_true rfl))

theorem encodes.cmpRm8R8 (rm : RM Reg8) (r : Reg8) : encodes.Statement (.cmpRm8R8 rm r) := fun _ _ =>
  bounds_one ((length_encRm _ _ _).trans (by decide))

theorem encodes.cmpRmR (rm : RM Reg) (r : Reg) : encodes.Statement (.cmpRmR rm r) := fun _ _ =>
  bounds_one ((length_encRm _ _ _).trans (by decide))

theorem encodes.cmpR8Rm8 (r : Reg8) (rm : RM Reg8) : encodes.Statement (.cmpR8Rm8 r rm) := fun _ _ =>
  bounds_one ((length_encRm _ _ _).trans (by decide))

theorem encodes.cmpRRm (r : Reg) (rm : RM Reg) : encodes.Statement (.cmpRRm r rm) := fun _ _ =>
  bounds_one ((length_encRm _ _ _).trans (by decide))

theorem encodes.cmpAlImm8 (imm : BitVec 8) : encodes.Statement (.cmpAlImm8 imm) := fun _ _ =>
  ⟨Nat.le_of_ble_eq_true rfl, Nat.le_of_ble_eq_true rfl⟩

theorem encodes.cmpEaxImm (imm : BitVec 32) : encodes.Statement (.cmpEaxImm imm) := fun os _ =>
  bounds_one ((length_encv os imm).trans (by decide))

theorem encodes.cmpRm8Imm8 (rm : RM Reg8) (imm : BitVec 8) : encodes.Statement (.cmpRm8Imm8 rm imm) := fun _ _ =>
  bounds_one (bounds_append (length_encRm _ _ _) (Nat.le_of_ble_eq_true rfl))

theorem encodes.cmpRmImm (rm : RM Reg) (imm : BitVec 32) : encodes.Statement (.cmpRmImm rm imm) := fun os _ =>
  bounds_one (bounds_append (length_encRm _ _ _) (length_encv os imm))

theorem encodes.cmpRmImm8 (rm : RM Reg) (imm : BitVec 8) : encodes.Statement (.cmpRmImm8 rm imm) := fun _ _ =>
  bounds_one (bounds_append (length_encRm _ _ _) (Nat.le_of_ble_eq_true rfl))

theorem encodes.testRm8R8 (rm : RM Reg8) (r : Reg8) : encodes.Statement (.testRm8R8 rm r) := fun _ _ =>
  bounds_one ((length_encRm _ _ _).trans (by decide))

theorem encodes.testRmR (rm : RM Reg) (r : Reg) : encodes.Statement (.testRmR rm r) := fun _ _ =>
  bounds_one ((length_encRm _ _ _).trans (by decide))

theorem encodes.testAlImm8 (imm : BitVec 8) : encodes.Statement (.testAlImm8 imm) := fun _ _ =>
  ⟨Nat.le_of_ble_eq_true rfl, Nat.le_of_ble_eq_true rfl⟩

theorem encodes.testEaxImm (imm : BitVec 32) : encodes.Statement (.testEaxImm imm) := fun os _ =>
  bounds_one ((length_encv os imm).trans (by decide))

theorem encodes.testRm8Imm8 (rm : RM Reg8) (imm : BitVec 8) : encodes.Statement (.testRm8Imm8 rm imm) := fun _ _ =>
  bounds_one (bounds_append (length_encRm _ _ _) (Nat.le_of_ble_eq_true rfl))

theorem encodes.testRmImm (rm : RM Reg) (imm : BitVec 32) : encodes.Statement (.testRmImm rm imm) := fun os _ =>
  bounds_one (bounds_append (length_encRm _ _ _) (length_encv os imm))

theorem encodes.incR (r : Reg) : encodes.Statement (.incR r) := fun _ _ =>
  ⟨Nat.le_of_ble_eq_true rfl, Nat.le_of_ble_eq_true rfl⟩

theorem encodes.decR (r : Reg) : encodes.Statement (.decR r) := fun _ _ =>
  ⟨Nat.le_of_ble_eq_true rfl, Nat.le_of_ble_eq_true rfl⟩

theorem encodes.incRm8 (rm : RM Reg8) : encodes.Statement (.incRm8 rm) := fun _ _ =>
  bounds_one ((length_encRm _ _ _).trans (by decide))

theorem encodes.incRm (rm : RM Reg) : encodes.Statement (.incRm rm) := fun _ _ =>
  bounds_one ((length_encRm _ _ _).trans (by decide))

theorem encodes.decRm8 (rm : RM Reg8) : encodes.Statement (.decRm8 rm) := fun _ _ =>
  bounds_one ((length_encRm _ _ _).trans (by decide))

theorem encodes.decRm (rm : RM Reg) : encodes.Statement (.decRm rm) := fun _ _ =>
  bounds_one ((length_encRm _ _ _).trans (by decide))

theorem encodes.notRm8 (rm : RM Reg8) : encodes.Statement (.notRm8 rm) := fun _ _ =>
  bounds_one ((length_encRm _ _ _).trans (by decide))

theorem encodes.notRm (rm : RM Reg) : encodes.Statement (.notRm rm) := fun _ _ =>
  bounds_one ((length_encRm _ _ _).trans (by decide))

theorem encodes.negRm8 (rm : RM Reg8) : encodes.Statement (.negRm8 rm) := fun _ _ =>
  bounds_one ((length_encRm _ _ _).trans (by decide))

theorem encodes.negRm (rm : RM Reg) : encodes.Statement (.negRm rm) := fun _ _ =>
  bounds_one ((length_encRm _ _ _).trans (by decide))

theorem encodes.divRm8 (rm : RM Reg8) : encodes.Statement (.divRm8 rm) := fun _ _ =>
  bounds_one ((length_encRm _ _ _).trans (by decide))

theorem encodes.divRm (rm : RM Reg) : encodes.Statement (.divRm rm) := fun _ _ =>
  bounds_one ((length_encRm _ _ _).trans (by decide))

theorem encodes.idivRm8 (rm : RM Reg8) : encodes.Statement (.idivRm8 rm) := fun _ _ =>
  bounds_one ((length_encRm _ _ _).trans (by decide))

theorem encodes.idivRm (rm : RM Reg) : encodes.Statement (.idivRm rm) := fun _ _ =>
  bounds_one ((length_encRm _ _ _).trans (by decide))

theorem encodes.shlRm8One (rm : RM Reg8) : encodes.Statement (.shlRm8One rm) := fun _ _ =>
  bounds_one ((length_encRm _ _ _).trans (by decide))

theorem encodes.shlRmOne (rm : RM Reg) : encodes.Statement (.shlRmOne rm) := fun _ _ =>
  bounds_one ((length_encRm _ _ _).trans (by decide))

theorem encodes.shlRm8Cl (rm : RM Reg8) : encodes.Statement (.shlRm8Cl rm) := fun _ _ =>
  bounds_one ((length_encRm _ _ _).trans (by decide))

theorem encodes.shlRmCl (rm : RM Reg) : encodes.Statement (.shlRmCl rm) := fun _ _ =>
  bounds_one ((length_encRm _ _ _).trans (by decide))

theorem encodes.shlRm8Imm8 (rm : RM Reg8) (imm : BitVec 8) : encodes.Statement (.shlRm8Imm8 rm imm) := fun _ _ =>
  bounds_one (bounds_append (length_encRm _ _ _) (Nat.le_of_ble_eq_true rfl))

theorem encodes.shlRmImm8 (rm : RM Reg) (imm : BitVec 8) : encodes.Statement (.shlRmImm8 rm imm) := fun _ _ =>
  bounds_one (bounds_append (length_encRm _ _ _) (Nat.le_of_ble_eq_true rfl))

theorem encodes.shrRm8One (rm : RM Reg8) : encodes.Statement (.shrRm8One rm) := fun _ _ =>
  bounds_one ((length_encRm _ _ _).trans (by decide))

theorem encodes.shrRmOne (rm : RM Reg) : encodes.Statement (.shrRmOne rm) := fun _ _ =>
  bounds_one ((length_encRm _ _ _).trans (by decide))

theorem encodes.shrRm8Cl (rm : RM Reg8) : encodes.Statement (.shrRm8Cl rm) := fun _ _ =>
  bounds_one ((length_encRm _ _ _).trans (by decide))

theorem encodes.shrRmCl (rm : RM Reg) : encodes.Statement (.shrRmCl rm) := fun _ _ =>
  bounds_one ((length_encRm _ _ _).trans (by decide))

theorem encodes.shrRm8Imm8 (rm : RM Reg8) (imm : BitVec 8) : encodes.Statement (.shrRm8Imm8 rm imm) := fun _ _ =>
  bounds_one (bounds_append (length_encRm _ _ _) (Nat.le_of_ble_eq_true rfl))

theorem encodes.shrRmImm8 (rm : RM Reg) (imm : BitVec 8) : encodes.Statement (.shrRmImm8 rm imm) := fun _ _ =>
  bounds_one (bounds_append (length_encRm _ _ _) (Nat.le_of_ble_eq_true rfl))

theorem encodes.sarRm8One (rm : RM Reg8) : encodes.Statement (.sarRm8One rm) := fun _ _ =>
  bounds_one ((length_encRm _ _ _).trans (by decide))

theorem encodes.sarRmOne (rm : RM Reg) : encodes.Statement (.sarRmOne rm) := fun _ _ =>
  bounds_one ((length_encRm _ _ _).trans (by decide))

theorem encodes.sarRm8Cl (rm : RM Reg8) : encodes.Statement (.sarRm8Cl rm) := fun _ _ =>
  bounds_one ((length_encRm _ _ _).trans (by decide))

theorem encodes.sarRmCl (rm : RM Reg) : encodes.Statement (.sarRmCl rm) := fun _ _ =>
  bounds_one ((length_encRm _ _ _).trans (by decide))

theorem encodes.sarRm8Imm8 (rm : RM Reg8) (imm : BitVec 8) : encodes.Statement (.sarRm8Imm8 rm imm) := fun _ _ =>
  bounds_one (bounds_append (length_encRm _ _ _) (Nat.le_of_ble_eq_true rfl))

theorem encodes.sarRmImm8 (rm : RM Reg) (imm : BitVec 8) : encodes.Statement (.sarRmImm8 rm imm) := fun _ _ =>
  bounds_one (bounds_append (length_encRm _ _ _) (Nat.le_of_ble_eq_true rfl))

theorem encodes.btsRmR (rm : RM Reg) (r : Reg) : encodes.Statement (.btsRmR rm r) := fun _ _ =>
  bounds_two ((length_encRm _ _ _).trans (by decide))

theorem encodes.btsRmImm8 (rm : RM Reg) (imm : BitVec 8) : encodes.Statement (.btsRmImm8 rm imm) := fun _ _ =>
  bounds_two (bounds_append (length_encRm _ _ _) (Nat.le_of_ble_eq_true rfl))

theorem encodes.btrRmR (rm : RM Reg) (r : Reg) : encodes.Statement (.btrRmR rm r) := fun _ _ =>
  bounds_two ((length_encRm _ _ _).trans (by decide))

theorem encodes.btrRmImm8 (rm : RM Reg) (imm : BitVec 8) : encodes.Statement (.btrRmImm8 rm imm) := fun _ _ =>
  bounds_two (bounds_append (length_encRm _ _ _) (Nat.le_of_ble_eq_true rfl))

theorem encodes.btcRmR (rm : RM Reg) (r : Reg) : encodes.Statement (.btcRmR rm r) := fun _ _ =>
  bounds_two ((length_encRm _ _ _).trans (by decide))

theorem encodes.btcRmImm8 (rm : RM Reg) (imm : BitVec 8) : encodes.Statement (.btcRmImm8 rm imm) := fun _ _ =>
  bounds_two (bounds_append (length_encRm _ _ _) (Nat.le_of_ble_eq_true rfl))

theorem encodes.cld : encodes.Statement .cld := fun _ _ =>
  ⟨Nat.le_of_ble_eq_true rfl, Nat.le_of_ble_eq_true rfl⟩

theorem encodes.std : encodes.Statement .std := fun _ _ =>
  ⟨Nat.le_of_ble_eq_true rfl, Nat.le_of_ble_eq_true rfl⟩

theorem encodes.movsb : encodes.Statement .movsb := fun _ _ =>
  ⟨Nat.le_of_ble_eq_true rfl, Nat.le_of_ble_eq_true rfl⟩

theorem encodes.movsv : encodes.Statement .movsv := fun _ _ =>
  ⟨Nat.le_of_ble_eq_true rfl, Nat.le_of_ble_eq_true rfl⟩

theorem encodes.rep : encodes.Statement .rep := fun _ _ =>
  ⟨Nat.le_of_ble_eq_true rfl, Nat.le_of_ble_eq_true rfl⟩

theorem encodes.jmpRel8 (rel : BitVec 8) : encodes.Statement (.jmpRel8 rel) := fun _ _ =>
  ⟨Nat.le_of_ble_eq_true rfl, Nat.le_of_ble_eq_true rfl⟩

theorem encodes.jmpRel (rel : BitVec 32) : encodes.Statement (.jmpRel rel) := fun os _ =>
  bounds_one ((length_encv os rel).trans (by decide))

theorem encodes.jmpRm (rm : RM Reg) : encodes.Statement (.jmpRm rm) := fun _ _ =>
  bounds_one ((length_encRm _ _ _).trans (by decide))

theorem encodes.jccRel8 (c : Cond) (rel : BitVec 8) : encodes.Statement (.jccRel8 c rel) := fun _ _ =>
  ⟨Nat.le_of_ble_eq_true rfl, Nat.le_of_ble_eq_true rfl⟩

theorem encodes.jccRel (c : Cond) (rel : BitVec 32) : encodes.Statement (.jccRel c rel) := fun os _ =>
  bounds_two ((length_encv os rel).trans (by decide))

theorem encodes.callRel (rel : BitVec 32) : encodes.Statement (.callRel rel) := fun os _ =>
  bounds_one ((length_encv os rel).trans (by decide))

theorem encodes.callRm (rm : RM Reg) : encodes.Statement (.callRm rm) := fun _ _ =>
  bounds_one ((length_encRm _ _ _).trans (by decide))

theorem encodes.ret : encodes.Statement .ret := fun _ _ =>
  ⟨Nat.le_of_ble_eq_true rfl, Nat.le_of_ble_eq_true rfl⟩

theorem encodes.retImm16 (imm : BitVec 16) : encodes.Statement (.retImm16 imm) := fun _ _ =>
  ⟨Nat.le_of_ble_eq_true rfl, Nat.le_of_ble_eq_true rfl⟩

theorem encodes.segEs : encodes.Statement .segEs := fun _ _ =>
  ⟨Nat.le_of_ble_eq_true rfl, Nat.le_of_ble_eq_true rfl⟩

theorem encodes.segCs : encodes.Statement .segCs := fun _ _ =>
  ⟨Nat.le_of_ble_eq_true rfl, Nat.le_of_ble_eq_true rfl⟩

theorem encodes.segSs : encodes.Statement .segSs := fun _ _ =>
  ⟨Nat.le_of_ble_eq_true rfl, Nat.le_of_ble_eq_true rfl⟩

theorem encodes.segDs : encodes.Statement .segDs := fun _ _ =>
  ⟨Nat.le_of_ble_eq_true rfl, Nat.le_of_ble_eq_true rfl⟩

theorem encodes.segFs : encodes.Statement .segFs := fun _ _ =>
  ⟨Nat.le_of_ble_eq_true rfl, Nat.le_of_ble_eq_true rfl⟩

theorem encodes.segGs : encodes.Statement .segGs := fun _ _ =>
  ⟨Nat.le_of_ble_eq_true rfl, Nat.le_of_ble_eq_true rfl⟩

theorem encodes.opSize : encodes.Statement .opSize := fun _ _ =>
  ⟨Nat.le_of_ble_eq_true rfl, Nat.le_of_ble_eq_true rfl⟩

theorem encodes.addrSize : encodes.Statement .addrSize := fun _ _ =>
  ⟨Nat.le_of_ble_eq_true rfl, Nat.le_of_ble_eq_true rfl⟩

theorem encodes.repne : encodes.Statement .repne := fun _ _ =>
  ⟨Nat.le_of_ble_eq_true rfl, Nat.le_of_ble_eq_true rfl⟩

end Sys2Proof.Laws
end

