-- ==== Sys2Proof/Tests/Slice0.lean ====
section
/-! SUPPORT. Tests. The words are assembled from spec/opcode_table.json and the expected results are those of
spec/95_test_vectors.md, whose number each test names. The theorems test_meets_… show for each obligation with
hypotheses a state and operands that meet them all. -/

namespace Sys2Proof.Tests

open Sys2Proof Sys2Proof.Machine

-- One theorem after another: each evaluation in the kernel waits for the theorems before it.
set_option Elab.async false

/-! ### Small states -/

/-- Bytes at an address, as cells in canonical form. -/
def bytesAt (a : Nat) (l : List Nat) : List Host.Cell :=
  (l.zipIdx a).filterMap fun p => if p.1 = 0 then none else some ⟨p.2, BitVec.ofNat 8 p.1⟩

/-- A doubleword, low byte first. -/
def dw (n : Nat) : List Nat := [n % 256, n / 256 % 256, n / 65536 % 256, n / 16777216 % 256]

/-- The world of the tests: free values are 55555555H, so that Lean can evaluate what depends on them. -/
def world : Env := { Env.default with draws := List.replicate 16 0x55555555#32 }

/-- Real-address mode: CS based at 10000H, EIP = 0100H, SP = 1000H. -/
def real : State := { State.reset with
  segs := { State.reset.segs with cs := { Seg.real 0x1000 0x10000 with exec := true } }, eip := 0x100, env := world,
  gpr := { State.reset.gpr with esp := 0x1000, edx := 0 } }

/-- A flat code or data segment of privilege level `pl` (access byte `hi`). -/
def flatSeg (sel : BitVec 16) (access : BitVec 32) : Seg :=
  (⟨0xFFFF#32, 0xCF0000#32 ||| access <<< 8⟩ : Desc).toSeg sel

/-- The memory of the protected-mode states: a GDT with flat code and data of levels 0 and 3 and a TSS at 2000H. -/
def tables : List Host.Cell :=
  bytesAt 0x1008 (dw 0xFFFF ++ dw 0xCF9B00 ++ dw 0xFFFF ++ dw 0xCF9300 ++ dw 0xFFFF ++ dw 0xCFFB00 ++ dw 0xFFFF ++
    dw 0xCFF300 ++ dw 0x20000067 ++ dw 0x8B00) ++ bytesAt 0x2004 (dw 0x8000 ++ [0x10, 0])

/-- Protected mode at CPL 0: flat segments, EIP = 10000H, ESP = 7000H (95, S0). -/
def prot : State := { State.reset with
  cr0 := { State.reset.cr0 with pe := true }, eip := 0x10000, mem := tables, env := world,
  gdtr := { base := 0x1000, limit := 0x7F }, idtr := { base := 0x3000, limit := 0x1FF },
  gpr := { State.reset.gpr with esp := 0x7000, edx := 0 },
  tr := { selector := 0x28, base := 0x2000, limit := 0x67, valid := true },
  segs := { es := flatSeg 0x10 0x93, cs := flatSeg 8 0x9B, ss := flatSeg 0x10 0x93, ds := flatSeg 0x10 0x93,
            fs := flatSeg 0x10 0x93, gs := flatSeg 0x10 0x93 } }

/-- Protected mode at CPL 3, ESP = 5000H (95, S3). -/
def user : State := { prot with
  cpl := 3, gpr := { prot.gpr with esp := 0x5000 },
  segs := { es := flatSeg 0x23 0xF3, cs := flatSeg 0x1B 0xFB, ss := flatSeg 0x23 0xF3, ds := flatSeg 0x23 0xF3,
            fs := flatSeg 0x23 0xF3, gs := flatSeg 0x23 0xF3 } }

/-- Bytes stored at an address. -/
def poke (s : State) (a : Nat) (l : List Nat) : State :=
  { s with mem := (l.zipIdx a).foldl (fun m p => Memory.write m p.2 (BitVec.ofNat 8 p.1)) s.mem }

/-- A GDT entry replaced. -/
def entry (s : State) (i lo hi : Nat) : State := poke s (0x1000 + 8 * i) (dw lo ++ dw hi)

/-- An interrupt gate in the IDT (access byte `access`), whose handler is at 89000H + 16 v. -/
def gate (s : State) (v : Nat) (access : Nat := 0x8E) : State :=
  poke s (0x3000 + 8 * v) (dw (0x80000 + (0x9000 + 16 * v)) ++ dw (access * 256))

/-- A register set. -/
def put (s : State) (r : Reg) (v : Nat) : State := s.setReg r (BitVec.ofNat 32 v)

/-- The flags set from an image. -/
def flagged (s : State) (v : Nat) : State := { s with flags := Flags.ofBits (BitVec.ofNat 32 v) }

/-- The value of `n` bytes of memory. -/
def peek (s : State) (a n : Nat) : Nat := (s.valueAt (BitVec.ofNat 32 a) n).toNat

/-! ### Reading outcomes -/

/-- The step from `s` with these instruction bytes at CS:EIP. -/
def run (s : State) (l : List Nat) : Host.Outcome State Fault Refusal := step (placeInstr s (l.map (BitVec.ofNat 8)))

/-- A next state with a property. -/
def next (o : Host.Outcome State Fault Refusal) (p : State → Bool) : Bool :=
  match o with
  | .next t => p t
  | _ => false

/-- A refusal. -/
def refuses (o : Host.Outcome State Fault Refusal) (r : Refusal) : Bool :=
  match o with
  | .refused q => q == r
  | _ => false

/-- An exception of vector `v` without error code, taken from `s` in protected mode: the handler and the saved EIP. -/
def takes (s : State) (v : Nat) (l : List Nat) : Bool :=
  next (run (gate s v) l) fun t => t.eip.toNat == 0x9000 + 16 * v && peek t t.gpr.esp.toNat 4 == s.eip.toNat

/-- An exception of vector `v` with the error code `ec`. -/
def takesCode (s : State) (v ec : Nat) (l : List Nat) : Bool :=
  next (run (gate s v) l) fun t => t.eip.toNat == 0x9000 + 16 * v && peek t t.gpr.esp.toNat 2 == ec &&
    peek t (t.gpr.esp.toNat + 4) 4 == s.eip.toNat

/-- Flags CF, PF, AF, ZF, SF, OF; 2 says that the manual leaves the flag open or the test does not ask. -/
def six (t : State) (c p a z s o : Nat) : Bool :=
  let is := fun (x : Bool) (n : Nat) => n == 2 || x.toNat == n
  is t.flags.cf c && is t.flags.pf p && is t.flags.af a && is t.flags.zf z && is t.flags.sf s && is t.flags.of o

/-- Every word decodes, at operand and address size 16, to its instruction with its length. -/
def decodes (l : List (List Byte × Instr)) : Bool :=
  l.all fun p => decode .w16 .w16 p.1 == .ok p.2 p.1.length

/-! ### What well-formedness refuses -/

theorem test_wf_bp_without_displacement : Mem.WellFormed .w16 (.a16 .bp .none) = false := by decide +kernel

theorem test_wf_16_bit_address_at_size_32 : Mem.WellFormed .w32 (.a16 .si .none) = false := by decide +kernel

theorem test_wf_16_bit_absolute_at_size_32 : Mem.WellFormed .w32 (.abs16 0#16) = false := by decide +kernel

theorem test_wf_esp_base_without_sib : Mem.WellFormed .w32 (.a32 .esp .none) = false := by decide +kernel

theorem test_wf_ebp_without_displacement : Mem.WellFormed .w32 (.a32 .ebp .none) = false := by decide +kernel

theorem test_wf_32_bit_address_at_size_16 : Mem.WellFormed .w16 (.a32 .eax .none) = false := by decide +kernel

theorem test_wf_32_bit_absolute_at_size_16 : Mem.WellFormed .w16 (.abs32 0#32) = false := by decide +kernel

theorem test_wf_sib_ebp_without_displacement : Mem.WellFormed .w32 (.sib 0 .eax .ebp .none) = false := by decide +kernel

theorem test_wf_sib_at_size_16 :
    (Mem.WellFormed .w16 (.sib 0 .eax .ebx .none) || Mem.WellFormed .w16 (.sibAbs 0 .eax 0#32)) = false := by
  decide +kernel

theorem test_wf_immediate_beyond_size_16 :
    (Instr.WellFormed .w16 .w16 (.addEaxImm 0x10000#32) || Instr.WellFormed .w16 .w16 (.jmpRel 0x10000#32) ||
      Instr.WellFormed .w16 .w16 (.jmpPtr 0x10000#32 0)) = false := by
  decide +kernel

theorem test_wf_offset_beyond_address_size_16 : Instr.WellFormed .w32 .w16 (.movAlMoffs 0x10000#32) = false := by
  decide +kernel

theorem test_wf_xchg_eax_eax_is_nop : Instr.WellFormed .w32 .w32 (.xchgEaxR .eax) = false := by decide +kernel

theorem test_wf_ill_formed_operand : Instr.WellFormed .w16 .w16 (.lgdt (.mem (.a16 .bp .none))) = false := by
  decide +kernel

/-! ### Decoding -/

/-- Encodings of the system registers (40), from the opcode table. -/
theorem test_decode_system : decodes [
    ([0x0F, 0x01, 0x42, 0x44], .sgdt (.mem (.a16 .bpSi (.d8 0x44#8)))),
    ([0x0F, 0x01, 0x4A, 0x44], .sidt (.mem (.a16 .bpSi (.d8 0x44#8)))),
    ([0x0F, 0x01, 0x52, 0x44], .lgdt (.mem (.a16 .bpSi (.d8 0x44#8)))),
    ([0x0F, 0x01, 0x5A, 0x44], .lidt (.mem (.a16 .bpSi (.d8 0x44#8)))),
    ([0x0F, 0x01, 0xE2], .smsw (.reg .edx)),
    ([0x0F, 0x01, 0xF7], .lmsw (.reg .edi)),
    ([0x0F, 0x00, 0xC4], .sldt (.reg .esp)),
    ([0x0F, 0x00, 0xC9], .str (.reg .ecx)),
    ([0x0F, 0x00, 0xD6], .lldt (.reg .esi)),
    ([0x0F, 0x00, 0xDB], .ltr (.reg .ebx)),
    ([0x0F, 0x06], .clts),
    ([0x0F, 0x20, 0xCF], .movRCr .edi 1),
    ([0x0F, 0x21, 0xD4], .movRDr .esp 2),
    ([0x0F, 0x22, 0xD9], .movCrR 3 .ecx),
    ([0x0F, 0x23, 0xC6], .movDrR 0 .esi),
    ([0x0F, 0x24, 0xCB], .movRTr .ebx 1),
    ([0x0F, 0x26, 0xD0], .movTrR 2 .eax),
    ([0xF4], .hlt)] = true := by decide +kernel

/-- Encodings of pointer validation (41), from the opcode table. -/
theorem test_decode_pointer : decodes [
    ([0x0F, 0x00, 0xE0], .verr (.reg .eax)),
    ([0x0F, 0x00, 0xED], .verw (.reg .ebp)),
    ([0x0F, 0x02, 0xF2], .lar .esi (.reg .edx)),
    ([0x0F, 0x03, 0xCF], .lsl .ecx (.reg .edi)),
    ([0x63, 0xE4], .arpl (.reg .esp) .esp)] = true := by decide +kernel

/-- Encodings of segment registers (42), from the opcode table. -/
theorem test_decode_segment : decodes [
    ([0x8E, 0xE1], .movSregRm 4 (.reg .ecx)),
    ([0x8C, 0xEE], .movRmSreg (.reg .esi) 5),
    ([0x06], .pushEs),
    ([0x0E], .pushCs),
    ([0x16], .pushSs),
    ([0x1E], .pushDs),
    ([0x0F, 0xA0], .pushFs),
    ([0x0F, 0xA8], .pushGs),
    ([0x07], .popEs),
    ([0x17], .popSs),
    ([0x1F], .popDs),
    ([0x0F, 0xA1], .popFs),
    ([0x0F, 0xA9], .popGs),
    ([0xC4, 0x72, 0x44], .les .esi (.mem (.a16 .bpSi (.d8 0x44#8)))),
    ([0xC5, 0x4A, 0x44], .lds .ecx (.mem (.a16 .bpSi (.d8 0x44#8)))),
    ([0x0F, 0xB2, 0x62, 0x44], .lss .esp (.mem (.a16 .bpSi (.d8 0x44#8)))),
    ([0x0F, 0xB4, 0x7A, 0x44], .lfs .edi (.mem (.a16 .bpSi (.d8 0x44#8)))),
    ([0x0F, 0xB5, 0x52, 0x44], .lgs .edx (.mem (.a16 .bpSi (.d8 0x44#8))))] = true := by decide +kernel

/-- Encodings of far transfers (43), from the opcode table. -/
theorem test_decode_transfer : decodes [
    ([0xEA, 0x78, 0x56, 0x34, 0x12], .jmpPtr 0x5678#32 0x1234#16),
    ([0xFF, 0x6A, 0x44], .jmpFarM (.mem (.a16 .bpSi (.d8 0x44#8)))),
    ([0x9A, 0x78, 0x56, 0x34, 0x12], .callPtr 0x5678#32 0x1234#16),
    ([0xFF, 0x5A, 0x44], .callFarM (.mem (.a16 .bpSi (.d8 0x44#8)))),
    ([0xCB], .retf),
    ([0xCA, 0x56, 0x34], .retfImm16 0x3456#16)] = true := by decide +kernel

/-- Encodings of I/O and flags (45), from the opcode table. -/
theorem test_decode_io : decodes [
    ([0xE4, 0x9A], .inAlImm8 0x9A#8),
    ([0xE5, 0x9A], .inEaxImm8 0x9A#8),
    ([0xEC], .inAlDx),
    ([0xED], .inEaxDx),
    ([0xE6, 0x9A], .outImm8Al 0x9A#8),
    ([0xE7, 0x9A], .outImm8Eax 0x9A#8),
    ([0xEE], .outDxAl),
    ([0xEF], .outDxEax),
    ([0x6C], .insb),
    ([0x6D], .insv),
    ([0x6E], .outsb),
    ([0x6F], .outsv),
    ([0xFA], .cli),
    ([0xFB], .sti),
    ([0x9C], .pushf),
    ([0x9D], .popf)] = true := by decide +kernel

/-- Encodings of interrupts (46), from the opcode table. -/
theorem test_decode_interrupt : decodes [
    ([0xCD, 0x9A], .intImm8 0x9A#8),
    ([0xCC], .int3),
    ([0xCE], .into),
    ([0x62, 0x42, 0x44], .bound .eax (.mem (.a16 .bpSi (.d8 0x44#8)))),
    ([0xCF], .iret)] = true := by decide +kernel

/-- Encodings of coprocessor, LOCK and XCHG (47), from the opcode table. -/
theorem test_decode_coprocessor : decodes [
    ([0xDD, 0xF2], .esc 5 6 (.reg .edx)),
    ([0x9B], .wait),
    ([0xF0], .lock),
    ([0x86, 0xF9], .xchgRm8R8 (.reg .cl) .bh),
    ([0x87, 0xD6], .xchgRmR (.reg .esi) .edx),
    ([0x93], .xchgEaxR .ebx)] = true := by decide +kernel

/-- Encodings of MOV, PUSH, POP (48), from the opcode table. -/
theorem test_decode_move : decodes [
    ([0x90], .nop),
    ([0x88, 0xDD], .movRm8R8 (.reg .ch) .bl),
    ([0x89, 0xF2], .movRmR (.reg .edx) .esi),
    ([0x8A, 0xCF], .movR8Rm8 .cl (.reg .bh)),
    ([0x8B, 0xE4], .movRRm .esp (.reg .esp)),
    ([0xB1, 0x9A], .movR8Imm8 .cl 0x9A#8),
    ([0xBE, 0x56, 0x34], .movRImm .esi 0x3456#32),
    ([0xC6, 0xC3, 0x9A], .movRm8Imm8 (.reg .bl) 0x9A#8),
    ([0xC7, 0xC0, 0x56, 0x34], .movRmImm (.reg .eax) 0x3456#32),
    ([0xA0, 0x78, 0x56], .movAlMoffs 0x5678#32),
    ([0xA1, 0x78, 0x56], .movEaxMoffs 0x5678#32),
    ([0xA2, 0x78, 0x56], .movMoffsAl 0x5678#32),
    ([0xA3, 0x78, 0x56], .movMoffsEax 0x5678#32),
    ([0x51], .pushR .ecx),
    ([0x5E], .popR .esi)] = true := by decide +kernel

/-- Encodings of the two-operand instructions (48), from the opcode table. -/
theorem test_decode_arith_1 : decodes [
    ([0x00, 0xEB], .addRm8R8 (.reg .bl) .ch),
    ([0x01, 0xC0], .addRmR (.reg .eax) .eax),
    ([0x02, 0xDD], .addR8Rm8 .bl (.reg .ch)),
    ([0x03, 0xF2], .addRRm .esi (.reg .edx)),
    ([0x04, 0x9A], .addAlImm8 0x9A#8),
    ([0x05, 0x56, 0x34], .addEaxImm 0x3456#32),
    ([0x80, 0xC1, 0x9A], .addRm8Imm8 (.reg .cl) 0x9A#8),
    ([0x81, 0xC6, 0x56, 0x34], .addRmImm (.reg .esi) 0x3456#32),
    ([0x83, 0xC3, 0x9A], .addRmImm8 (.reg .ebx) 0x9A#8),
    ([0x08, 0xC0], .orRm8R8 (.reg .al) .al),
    ([0x09, 0xDD], .orRmR (.reg .ebp) .ebx),
    ([0x0A, 0xF2], .orR8Rm8 .dh (.reg .dl)),
    ([0x0B, 0xCF], .orRRm .ecx (.reg .edi)),
    ([0x0C, 0x9A], .orAlImm8 0x9A#8),
    ([0x0D, 0x56, 0x34], .orEaxImm 0x3456#32),
    ([0x80, 0xCE, 0x9A], .orRm8Imm8 (.reg .dh) 0x9A#8),
    ([0x81, 0xCB, 0x56, 0x34], .orRmImm (.reg .ebx) 0x3456#32),
    ([0x83, 0xC8, 0x9A], .orRmImm8 (.reg .eax) 0x9A#8),
    ([0x10, 0xDD], .adcRm8R8 (.reg .ch) .bl),
    ([0x11, 0xF2], .adcRmR (.reg .edx) .esi),
    ([0x12, 0xCF], .adcR8Rm8 .cl (.reg .bh)),
    ([0x13, 0xE4], .adcRRm .esp (.reg .esp)),
    ([0x14, 0x9A], .adcAlImm8 0x9A#8),
    ([0x15, 0x56, 0x34], .adcEaxImm 0x3456#32),
    ([0x80, 0xD3, 0x9A], .adcRm8Imm8 (.reg .bl) 0x9A#8),
    ([0x81, 0xD0, 0x56, 0x34], .adcRmImm (.reg .eax) 0x3456#32),
    ([0x83, 0xD5, 0x9A], .adcRmImm8 (.reg .ebp) 0x9A#8),
    ([0x18, 0xF2], .sbbRm8R8 (.reg .dl) .dh),
    ([0x19, 0xCF], .sbbRmR (.reg .edi) .ecx),
    ([0x1A, 0xE4], .sbbR8Rm8 .ah (.reg .ah)),
    ([0x1B, 0xF9], .sbbRRm .edi (.reg .ecx)),
    ([0x1C, 0x9A], .sbbAlImm8 0x9A#8),
    ([0x1D, 0x56, 0x34], .sbbEaxImm 0x3456#32),
    ([0x80, 0xD8, 0x9A], .sbbRm8Imm8 (.reg .al) 0x9A#8),
    ([0x81, 0xDD, 0x56, 0x34], .sbbRmImm (.reg .ebp) 0x3456#32)] = true := by decide +kernel

/-- Encodings of the two-operand instructions (48), from the opcode table. -/
theorem test_decode_arith_2 : decodes [
    ([0x83, 0xDA, 0x9A], .sbbRmImm8 (.reg .edx) 0x9A#8),
    ([0x20, 0xCF], .andRm8R8 (.reg .bh) .cl),
    ([0x21, 0xE4], .andRmR (.reg .esp) .esp),
    ([0x22, 0xF9], .andR8Rm8 .bh (.reg .cl)),
    ([0x23, 0xD6], .andRRm .edx (.reg .esi)),
    ([0x24, 0x9A], .andAlImm8 0x9A#8),
    ([0x25, 0x56, 0x34], .andEaxImm 0x3456#32),
    ([0x80, 0xE5, 0x9A], .andRm8Imm8 (.reg .ch) 0x9A#8),
    ([0x81, 0xE2, 0x56, 0x34], .andRmImm (.reg .edx) 0x3456#32),
    ([0x83, 0xE7, 0x9A], .andRmImm8 (.reg .edi) 0x9A#8),
    ([0x28, 0xE4], .subRm8R8 (.reg .ah) .ah),
    ([0x29, 0xF9], .subRmR (.reg .ecx) .edi),
    ([0x2A, 0xD6], .subR8Rm8 .dl (.reg .dh)),
    ([0x2B, 0xEB], .subRRm .ebp (.reg .ebx)),
    ([0x2C, 0x9A], .subAlImm8 0x9A#8),
    ([0x2D, 0x56, 0x34], .subEaxImm 0x3456#32),
    ([0x80, 0xEA, 0x9A], .subRm8Imm8 (.reg .dl) 0x9A#8),
    ([0x81, 0xEF, 0x56, 0x34], .subRmImm (.reg .edi) 0x3456#32),
    ([0x83, 0xEC, 0x9A], .subRmImm8 (.reg .esp) 0x9A#8),
    ([0x30, 0xF9], .xorRm8R8 (.reg .cl) .bh),
    ([0x31, 0xD6], .xorRmR (.reg .esi) .edx),
    ([0x32, 0xEB], .xorR8Rm8 .ch (.reg .bl)),
    ([0x33, 0xC0], .xorRRm .eax (.reg .eax)),
    ([0x34, 0x9A], .xorAlImm8 0x9A#8),
    ([0x35, 0x56, 0x34], .xorEaxImm 0x3456#32),
    ([0x80, 0xF7, 0x9A], .xorRm8Imm8 (.reg .bh) 0x9A#8),
    ([0x81, 0xF4, 0x56, 0x34], .xorRmImm (.reg .esp) 0x3456#32),
    ([0x83, 0xF1, 0x9A], .xorRmImm8 (.reg .ecx) 0x9A#8),
    ([0x38, 0xD6], .cmpRm8R8 (.reg .dh) .dl),
    ([0x39, 0xEB], .cmpRmR (.reg .ebx) .ebp),
    ([0x3A, 0xC0], .cmpR8Rm8 .al (.reg .al)),
    ([0x3B, 0xDD], .cmpRRm .ebx (.reg .ebp)),
    ([0x3C, 0x9A], .cmpAlImm8 0x9A#8),
    ([0x3D, 0x56, 0x34], .cmpEaxImm 0x3456#32),
    ([0x80, 0xFC, 0x9A], .cmpRm8Imm8 (.reg .ah) 0x9A#8)] = true := by decide +kernel

/-- Encodings of the two-operand instructions (48), from the opcode table. -/
theorem test_decode_arith_3 : decodes [
    ([0x81, 0xF9, 0x56, 0x34], .cmpRmImm (.reg .ecx) 0x3456#32),
    ([0x83, 0xFE, 0x9A], .cmpRmImm8 (.reg .esi) 0x9A#8),
    ([0x84, 0xEB], .testRm8R8 (.reg .bl) .ch),
    ([0x85, 0xC0], .testRmR (.reg .eax) .eax),
    ([0xA8, 0x9A], .testAlImm8 0x9A#8),
    ([0xA9, 0x56, 0x34], .testEaxImm 0x3456#32),
    ([0xF6, 0xC7, 0x9A], .testRm8Imm8 (.reg .bh) 0x9A#8),
    ([0xF7, 0xC4, 0x56, 0x34], .testRmImm (.reg .esp) 0x3456#32)] = true := by decide +kernel

/-- Encodings of the one-operand instructions and division (48), from the opcode table. -/
theorem test_decode_unary : decodes [
    ([0x41], .incR .ecx),
    ([0x4E], .decR .esi),
    ([0xFE, 0xC3], .incRm8 (.reg .bl)),
    ([0xFF, 0xC0], .incRm (.reg .eax)),
    ([0xFE, 0xCD], .decRm8 (.reg .ch)),
    ([0xFF, 0xCA], .decRm (.reg .edx)),
    ([0xF6, 0xD7], .notRm8 (.reg .bh)),
    ([0xF7, 0xD4], .notRm (.reg .esp)),
    ([0xF6, 0xD9], .negRm8 (.reg .cl)),
    ([0xF7, 0xDE], .negRm (.reg .esi)),
    ([0xF6, 0xF3], .divRm8 (.reg .bl)),
    ([0xF7, 0xF0], .divRm (.reg .eax)),
    ([0xF6, 0xFD], .idivRm8 (.reg .ch)),
    ([0xF7, 0xFA], .idivRm (.reg .edx))] = true := by decide +kernel

/-- Encodings of shifts and bit tests (48), from the opcode table. -/
theorem test_decode_shift : decodes [
    ([0xD0, 0xE7], .shlRm8One (.reg .bh)),
    ([0xD1, 0xE4], .shlRmOne (.reg .esp)),
    ([0xD2, 0xE1], .shlRm8Cl (.reg .cl)),
    ([0xD3, 0xE6], .shlRmCl (.reg .esi)),
    ([0xC0, 0xE3, 0x9A], .shlRm8Imm8 (.reg .bl) 0x9A#8),
    ([0xC1, 0xE0, 0x9A], .shlRmImm8 (.reg .eax) 0x9A#8),
    ([0xD0, 0xED], .shrRm8One (.reg .ch)),
    ([0xD1, 0xEA], .shrRmOne (.reg .edx)),
    ([0xD2, 0xEF], .shrRm8Cl (.reg .bh)),
    ([0xD3, 0xEC], .shrRmCl (.reg .esp)),
    ([0xC0, 0xE9, 0x9A], .shrRm8Imm8 (.reg .cl) 0x9A#8),
    ([0xC1, 0xEE, 0x9A], .shrRmImm8 (.reg .esi) 0x9A#8),
    ([0xD0, 0xFB], .sarRm8One (.reg .bl)),
    ([0xD1, 0xF8], .sarRmOne (.reg .eax)),
    ([0xD2, 0xFD], .sarRm8Cl (.reg .ch)),
    ([0xD3, 0xFA], .sarRmCl (.reg .edx)),
    ([0xC0, 0xFF, 0x9A], .sarRm8Imm8 (.reg .bh) 0x9A#8),
    ([0xC1, 0xFC, 0x9A], .sarRmImm8 (.reg .esp) 0x9A#8),
    ([0x0F, 0xAB, 0xF9], .btsRmR (.reg .ecx) .edi),
    ([0x0F, 0xBA, 0xEE, 0x9A], .btsRmImm8 (.reg .esi) 0x9A#8),
    ([0x0F, 0xB3, 0xEB], .btrRmR (.reg .ebx) .ebp),
    ([0x0F, 0xBA, 0xF0, 0x9A], .btrRmImm8 (.reg .eax) 0x9A#8),
    ([0x0F, 0xBB, 0xDD], .btcRmR (.reg .ebp) .ebx),
    ([0x0F, 0xBA, 0xFA, 0x9A], .btcRmImm8 (.reg .edx) 0x9A#8)] = true := by decide +kernel

/-- Encodings of strings and near transfers (48), from the opcode table. -/
theorem test_decode_branch : decodes [
    ([0xFC], .cld),
    ([0xFD], .std),
    ([0xA4], .movsb),
    ([0xA5], .movsv),
    ([0xF3], .rep),
    ([0xEB, 0x9A], .jmpRel8 0x9A#8),
    ([0xE9, 0x12, 0x9A], .jmpRel 0x9A12#32),
    ([0xFF, 0xE2], .jmpRm (.reg .edx)),
    ([0x79, 0x9A], .jccRel8 .ns 0x9A#8),
    ([0x0F, 0x8C, 0x12, 0x9A], .jccRel .l 0x9A12#32),
    ([0xE8, 0x12, 0x9A], .callRel 0x9A12#32),
    ([0xFF, 0xD6], .callRm (.reg .esi)),
    ([0xC3], .ret),
    ([0xC2, 0x56, 0x34], .retImm16 0x3456#16)] = true := by decide +kernel

/-- Encodings of prefixes (30 R106), from the opcode table. -/
theorem test_decode_prefix : decodes [
    ([0x26], .segEs),
    ([0x2E], .segCs),
    ([0x36], .segSs),
    ([0x3E], .segDs),
    ([0x64], .segFs),
    ([0x65], .segGs),
    ([0x66], .opSize),
    ([0x67], .addrSize),
    ([0xF2], .repne)] = true := by decide +kernel

/-- 95, B30: addressing forms of 32-bit code. -/
theorem test_decode_addressing_32 :
    (decode .w32 .w32 [0x8B, 0x44, 0x24, 8] == .ok (.movRRm .eax (.mem (.sib 0 .esp .esp (.d8 8)))) 4 &&
      decode .w32 .w32 [0x8B, 4, 0x8B] == .ok (.movRRm .eax (.mem (.sib 2 .ecx .ebx .none))) 3 &&
      decode .w32 .w32 [0x8B, 5, 0x78, 0x56, 0x34, 0x12] == .ok (.movRRm .eax (.mem (.abs32 0x12345678#32))) 6 &&
      decode .w32 .w32 [0x8B, 4, 0x25, 0, 0x10, 0, 0] == .ok (.movRRm .eax (.mem (.sibAbs 0 .esp 0x1000#32))) 7 &&
      decode .w32 .w32 [0x8B, 0x45, 0] == .ok (.movRRm .eax (.mem (.a32 .ebp (.d8 0)))) 3) = true := by
  decide +kernel

/-- 30 R117, R118: opcodes outside the rules and unassigned ones are not decoded to a neighbour. -/
theorem test_decode_rejects :
    (decodeTableWord 8 0x40 == some (.incR .eax) && decode .w16 .w16 [0x0F, 0x04] == .unassigned &&
      decode .w16 .w16 [0x0F] == .more &&
      (match decode .w16 .w16 [0x27] with
        | .outside _ => true
        | _ => false)) = true := by
  decide +kernel


/-! ### One step each -/

/-- Paging on at CPL 3, ESI = C0801234H, one page directory at 100000H with the given entry for ESI's page table, whose
entry for its page is at 200004H; the low 32 pages are mapped to themselves (95, B20). -/
def paged (pde pte : Nat) : State :=
  { put user .esi 0xC0801234 with
    cr0 := { user.cr0 with pg := true }, pdbr := 0x100
    mem := tables ++ bytesAt 0x100000 (dw 0x101007) ++ bytesAt 0x100C08 (dw pde) ++
      bytesAt 0x101000 ((List.range 32).flatMap fun i => dw (i * 0x1000 + 7)) ++ bytesAt 0x200004 (dw pte) }

/-- 95, B48.1. -/
theorem test_add_wraps :
    (next (run (put prot .eax 0xFF) [4, 1]) fun t => t.reg .eax == 0 && six t 1 1 1 1 0 0) = true := by
  decide +kernel

/-- 95, B48.4. -/
theorem test_add_overflows :
    (next (run (poke (put (put prot .eax 0x80000000) .esi 0x5000) 0x5000 [0, 0, 0, 0x80]) [3, 6]) fun t =>
    t.reg .eax == 0 && six t 1 1 0 1 0 1) = true := by
  decide +kernel

/-- 95, B48.5. -/
theorem test_adc_takes_carry :
    (next (run (flagged (put prot .eax 0xFF) 1) [0x14, 0]) fun t => t.reg .eax == 0 && six t 1 1 1 1 2 2) = true := by
  decide +kernel

/-- 95, B48.6. -/
theorem test_sub_borrows :
    (next (run (put prot .eax 0) [0x2C, 1]) fun t => t.reg .eax == 0xFF#32 && six t 1 1 1 0 1 0) = true := by
  decide +kernel

/-- 95, B48.7. -/
theorem test_sub_overflows :
    (next (run (put prot .eax 0x80) [0x2C, 1]) fun t => t.reg .eax == 0x7F#32 && six t 0 0 1 0 0 1) = true := by
  decide +kernel

/-- 95, B48.8. -/
theorem test_sbb_takes_borrow :
    (next (run (flagged (put prot .eax 0x55) 1) [0x18, 0xC0]) fun t =>
    t.reg .eax == 0xFF#32 && six t 1 1 1 0 1 0) = true := by
  decide +kernel

/-- 95, B48.10. -/
theorem test_cmp_writes_nothing :
    (next (run (put prot .eax 0x1255) [0x39, 0xC0]) fun t => t.reg .eax == 0x1255#32 && six t 0 1 0 1 0 0) = true := by
  decide +kernel

/-- 95, B48.11. -/
theorem test_xor_clears :
    (next (run (put prot .eax 0x1255) [0x31, 0xC0]) fun t => t.reg .eax == 0 && six t 0 1 2 1 0 0) = true := by
  decide +kernel

/-- 95, B48.12. -/
theorem test_and_masks :
    (next (run (put prot .eax 0xF0) [0x24, 0x0F]) fun t => t.reg .eax == 0 && six t 0 1 2 1 2 0) = true := by
  decide +kernel

/-- 95, B48.13. -/
theorem test_or_sets :
    (next (run (put prot .eax 0x80) [0x0C, 1]) fun t => t.reg .eax == 0x81#32 && six t 0 1 2 0 1 0) = true := by
  decide +kernel

/-- 95, B48.14. -/
theorem test_test_writes_nothing :
    (next (run (put prot .eax 0x7F) [0xA8, 0x80]) fun t => t.reg .eax == 0x7F#32 && six t 0 1 2 1 2 0) = true := by
  decide +kernel

/-- 95, B48.15. -/
theorem test_inc_keeps_carry :
    (next (run (flagged (put prot .ecx 0xFFFF) 1) [0x66, 0x41]) fun t =>
    t.reg .ecx == 0 && six t 1 1 1 1 0 0) = true := by
  decide +kernel

/-- 95, B48.18. -/
theorem test_dec_overflows :
    (next (run (put prot .ecx 0x80000000) [0x49]) fun t => t.reg .ecx == 0x7FFFFFFF#32 && six t 2 1 1 2 0 1) = true := by
  decide +kernel

/-- 95, B48.19. -/
theorem test_not_keeps_flags :
    (next (run (flagged (put prot .eax 0x55) 0x8D5) [0xF6, 0xD0]) fun t =>
    t.reg .eax == 0xAA#32 && six t 1 1 1 1 1 1) = true := by
  decide +kernel

/-- 95, B48.20. -/
theorem test_neg_of_the_most_negative :
    (next (run (put prot .eax 0x80) [0xF6, 0xD8]) fun t => t.reg .eax == 0x80#32 && six t 1 2 0 2 1 1) = true := by
  decide +kernel

/-- 95, B48.21. -/
theorem test_div_byte :
    (next (run (put (put prot .eax 0x64) .ebx 7) [0xF6, 0xF3]) fun t => t.reg .eax == 0x020E#32) = true := by
  decide +kernel

/-- 95, B48.22. -/
theorem test_div_by_zero :
    (takes (put prot .eax 0x64) 0 [0xF6, 0xF3]) = true := by
  decide +kernel

/-- 95, B48.25. -/
theorem test_div_quotient_too_large :
    (takes (put (put prot .edx 1) .ecx 1) 0 [0xF7, 0xF1]) = true := by
  decide +kernel

/-- 95, B48.26. -/
theorem test_idiv_truncates_toward_zero :
    (next (run (put (put prot .eax 0xFF9C) .ebx 7) [0xF6, 0xFB]) fun t => t.reg .eax == 0xFEF2#32) = true := by
  decide +kernel

/-- 95, B48.29. -/
theorem test_idiv_of_the_most_negative :
    (takes (put (put (put prot .eax 0x80000000) .edx 0xFFFFFFFF) .ecx 0xFFFFFFFF) 0 [0xF7, 0xF9]) = true := by
  decide +kernel

/-- 95, B48.30. -/
theorem test_shl_32 :
    (next (run (put real .eax 0xABCD) [0x66, 0xC1, 0xE0, 0x10]) fun t =>
    t.reg .eax == 0xABCD0000#32 && six t 0 1 2 0 1 2) = true := by
  decide +kernel

/-- 95, B48.31. -/
theorem test_shl_by_one :
    (next (run (put real .eax 0xC0) [0xD0, 0xE0]) fun t => t.reg .eax == 0x80#32 && six t 1 2 2 2 1 0) = true := by
  decide +kernel

/-- 95, B48.33. -/
theorem test_shl_by_32_is_by_0 :
    (next (run (flagged (put prot .eax 0x12345678) 0x8D5) [0xC1, 0xE0, 0x20]) fun t =>
    t.reg .eax == 0x12345678#32 && six t 1 1 1 1 1 1) = true := by
  decide +kernel

/-- 95, B48.34. -/
theorem test_shl_beyond_width :
    (next (run (put real .eax 0xFF) [0xC0, 0xE0, 9]) fun t => t.reg .eax == 0 && six t 2 1 2 1 2 2) = true := by
  decide +kernel

/-- 95, B48.35. -/
theorem test_shr_by_width :
    (next (run (put real .eax 0x80) [0xC0, 0xE8, 8]) fun t => t.reg .eax == 0 && six t 1 2 2 1 2 2) = true := by
  decide +kernel

/-- 95, B48.37. -/
theorem test_sar_keeps_sign :
    (next (run (put real .eax 0x81) [0xD0, 0xF8]) fun t => t.reg .eax == 0xC0#32 && six t 1 2 2 2 1 0) = true := by
  decide +kernel

/-- 95, B48.40. -/
theorem test_bts_locked :
    (next (run real [0xF0, 0x0F, 0xBA, 0x2E, 0, 0x20, 0]) fun t => peek t 0x2000 2 == 1 && six t 0 2 2 2 2 2) = true := by
  decide +kernel

/-- 95, B48.41. -/
theorem test_btr_register :
    (next (run (put prot .eax 0x80000000) [0x0F, 0xBA, 0xF0, 0x1F]) fun t =>
    t.reg .eax == 0 && six t 1 2 2 2 2 2) = true := by
  decide +kernel

/-- 95, B48.43. -/
theorem test_btc_negative_offset :
    (next (run (put (put real .eax 0xFFFF) .ebx 0x100) [0x0F, 0xBB, 7]) fun t => peek t 0xFE 2 == 0x8000) = true := by
  decide +kernel

/-- 95, B48.45. -/
theorem test_cld_std :
    ((next (run (flagged real 0x402) [0xFC]) fun t => t.flags.toBits == 2#32) &&
    next (run real [0xFD]) fun t => t.flags.toBits == 0x402#32) = true := by
  decide +kernel

/-- 95, B48.47. -/
theorem test_movsd_down :
    (next (run (flagged (put (poke (put prot .esi 0x5000) 0x5000 [1, 2, 3, 4]) .edi 0x3800) 0x400) [0xA5]) fun t =>
    peek t 0x3800 4 == 0x04030201 && t.reg .esi == 0x4FFC#32 && t.reg .edi == 0x37FC#32) = true := by
  decide +kernel

/-- 95, B48.49. -/
theorem test_rep_with_count_0 :
    (next (run (put user .ecx 0) [0xF3, 0x6C]) fun t => t.eip == 0x10002#32) = true := by
  decide +kernel

/-- 95, B45.13. -/
theorem test_rep_one_element_a_step :
    (next (run (put prot .ecx 3) [0xF3, 0x6E]) fun t => t.eip == 0x10000#32 && t.reg .ecx == 2#32) = true := by
  decide +kernel

/-- 95, B48.51. -/
theorem test_repne_refused :
    (refuses (run prot [0xF2, 0xA4]) .repeatPrefix) = true := by
  decide +kernel

/-- 95, B48.52. -/
theorem test_jcc_taken_and_not :
    ((next (run { real with eip := 0x20 } [0x75, 0xFD]) fun t => t.eip == 0x1F#32) &&
    next (run (flagged { real with eip := 0x20 } 0x40) [0x75, 0xFD]) fun t => t.eip == 0x22#32) = true := by
  decide +kernel

/-- 95, B48.53. -/
theorem test_jmp_to_itself :
    (next (run real [0xEB, 0xFE]) fun t => t.eip == 0x100#32) = true := by
  decide +kernel

/-- 95, B48.54. -/
theorem test_call_pushes_return :
    (next (run { put prot .esp 0x5000 with eip := 0x100 } [0xE8, 0x10, 0, 0, 0]) fun t =>
    peek t 0x4FFC 4 == 0x105 && t.reg .esp == 0x4FFC#32 && t.eip == 0x115#32) = true := by
  decide +kernel

/-- 95, B48.56. -/
theorem test_ret_releases_parameters :
    (next (run (poke prot 0x7000 (dw 0x105)) [0xC2, 8, 0]) fun t => t.reg .esp == 0x700C#32 && t.eip == 0x105#32) = true := by
  decide +kernel

/-- 95, B48.59. -/
theorem test_push_esp :
    (next (run prot [0x54]) fun t => peek t 0x6FFC 4 == 0x7000 && t.reg .esp == 0x6FFC#32) = true := by
  decide +kernel

/-- 95, B48.60. -/
theorem test_pop_esp :
    (next (run (poke prot 0x7000 (dw 0x6000)) [0x5C]) fun t => t.reg .esp == 0x6000#32) = true := by
  decide +kernel

/-- 95, B48.62. -/
theorem test_push_wraps :
    (next (run (put (put real .eax 0x1234) .esp 0) [0x50]) fun t => peek t 0xFFFE 2 == 0x1234 && t.reg .esp == 0xFFFE#32) = true := by
  decide +kernel

/-- 95, B48.63. -/
theorem test_push_split_refused :
    (refuses (run (put real .esp 1) [0x50]) .stackWrap) = true := by
  decide +kernel

/-- 95, B48.65. -/
theorem test_mov_moffs :
    (next (run (poke real 0x22 [0x34, 0x12]) [0xA1, 0x22, 0]) fun t => t.reg .eax == 0x1234#32) = true := by
  decide +kernel

/-- 95, B48.66. -/
theorem test_nop :
    (next (run prot [0x90]) fun t => t.eip == 0x10001#32 && t.gpr == prot.gpr && t.flags == prot.flags) = true := by
  decide +kernel

/-- 95, B48.67. -/
theorem test_mov_memory_immediate :
    (next (run prot [0xC7, 5, 0, 5, 0, 0, 0x78, 0x56, 0x34, 0x12]) fun t =>
    peek t 0x500 4 == 0x12345678 && t.eip == 0x1000A#32) = true := by
  decide +kernel

/-- 95, B48.68. -/
theorem test_mov_to_read_only :
    (takesCode { prot with segs := { prot.segs with ds := { prot.segs.ds with wr := false } } } 13 0 [0x66, 0x67, 0x89, 7]) = true := by
  decide +kernel

/-- 95, B47.1. -/
theorem test_esc_emulated :
    (takes { prot with cr0 := { prot.cr0 with em := true } } 7 [0xD9, 0xE8]) = true := by
  decide +kernel

/-- 95, B47.3. -/
theorem test_esc_refused :
    (refuses (run prot [0xD8, 0xC0]) .coprocessor) = true := by
  decide +kernel

/-- 95, B47.4. -/
theorem test_wait_after_task_switch :
    (takes { prot with cr0 := { prot.cr0 with mp := true, ts := true } } 7 [0x9B]) = true := by
  decide +kernel

/-- 95, B47.6. -/
theorem test_wait_error :
    (takes
      { prot with
        env := { prot.env with error := true, platform := { prot.env.platform with coproc := .i80387 } } }
      16 [0x9B]) = true := by
  decide +kernel

/-- 95, B47.9. -/
theorem test_lock_inc_memory :
    (next (run real [0xF0, 0xFF, 6, 0, 0x20]) fun t => peek t 0x2000 2 == 1) = true := by
  decide +kernel

/-- 95, B47.10. -/
theorem test_lock_not_allowed :
    (takes prot 6 [0xF0, 0x40]) = true := by
  decide +kernel

/-- 95, B47.16. -/
theorem test_xchg_memory :
    (next (run (put real .eax 1) [0x87, 6, 0, 0x20]) fun t => t.reg .eax == 0 && peek t 0x2000 2 == 1) = true := by
  decide +kernel

/-- 95, B40.2. -/
theorem test_lgdt_24_bit_base :
    (next (run (poke prot 0x5000 [0x3F, 0, 0, 0x10, 0, 0xAB]) [0x66, 0x0F, 1, 0x15, 0, 0x50, 0, 0]) fun t =>
    t.gdtr == { base := 0x1000, limit := 0x3F }) = true := by
  decide +kernel

/-- 95, B40.4. -/
theorem test_lgdt_user :
    (takesCode user 13 0 [0x0F, 1, 0x15, 0, 0x50, 0, 0]) = true := by
  decide +kernel

/-- 95, B40.5. -/
theorem test_lgdt_register :
    (takes prot 6 [0x0F, 1, 0xD0]) = true := by
  decide +kernel

/-- 95, B40.8. -/
theorem test_lldt :
    (next (run (poke (put prot .ebx 0x30) 0x1030 (dw 0x3000000F ++ dw 0x8200)) [0x0F, 0, 0xD3]) fun t =>
    t.ldtr == { selector := 0x30, base := 0x3000, limit := 0xF, valid := true }) = true := by
  decide +kernel

/-- 95, B40.11. -/
theorem test_ltr_sets_busy :
    (next (run (poke (put prot .ebx 0x30) 0x1030 (dw 0x20000067 ++ dw 0x8900)) [0x0F, 0, 0xDB]) fun t =>
    t.tr.selector == 0x30#16 && peek t 0x1035 1 == 0x8B) = true := by
  decide +kernel

/-- 95, B40.17. -/
theorem test_lmsw_sets_pe :
    (next (run (put real .eax 1) [0x0F, 1, 0xF0]) fun t => t.cr0.pe && !t.cr0.mp) = true := by
  decide +kernel

/-- 95, B40.18. -/
theorem test_lmsw_keeps_pe :
    (next (run (put prot .eax 0) [0x0F, 1, 0xF0]) fun t => t.cr0.pe && !t.cr0.mp && !t.cr0.ts) = true := by
  decide +kernel

/-- 95, B40.21. -/
theorem test_clts :
    (next (run { prot with cr0 := { prot.cr0 with ts := true } } [0x0F, 6]) fun t => t.cr0.toBits == 1#32) = true := by
  decide +kernel

/-- 95, B40.23. -/
theorem test_mov_cr0_pg_without_pe :
    (takesCode (put prot .eax 0x80000000) 13 0 [0x0F, 0x22, 0xC0]) = true := by
  decide +kernel

/-- 95, B40.24. -/
theorem test_mov_cr3 :
    (next (run (put prot .eax 0x345FFF) [0x0F, 0x22, 0xD8]) fun t => t.pdbr == 0x345#20) = true := by
  decide +kernel

/-- 95, B40.27. -/
theorem test_mov_dr7 :
    (next (run (put prot .eax 2) [0x0F, 0x23, 0xF8]) fun t => t.dr7 == 2#32) = true := by
  decide +kernel

/-- 95, B40.30. -/
theorem test_hlt :
    (next (run prot [0xF4]) fun t => t.halted && t.eip == 0x10001#32) = true := by
  decide +kernel

/-- 95, B41.7. -/
theorem test_lsl_page_granular :
    (next (run (put (entry prot 9 0xFFFF 0xCF9200) .ebx 0x48) [0x0F, 3, 0xC3]) fun t =>
    t.reg .eax == 0xFFFFFFFF#32 && t.flags.zf) = true := by
  decide +kernel

/-- 95, B41.2. -/
theorem test_lar :
    (next (run (put (entry prot 9 0xFFFF 0xCF9200) .ebx 0x48) [0x66, 0x0F, 2, 0xD3]) fun t =>
    t.reg .edx == 0x9200#32 && t.flags.zf) = true := by
  decide +kernel

/-- 95, B41.10. -/
theorem test_verr_privilege :
    (next (run (put (entry user 9 0xFFFF 0xCF9200) .ebx 0x4B) [0x0F, 0, 0xE3]) fun t => !t.flags.zf) = true := by
  decide +kernel

/-- 95, B41.12. -/
theorem test_verw_read_only :
    (next (run (put (entry prot 9 0xFFFF 0xCF9000) .ebx 0x48) [0x0F, 0, 0xEB]) fun t => !t.flags.zf) = true := by
  decide +kernel

/-- 95, B41.13. -/
theorem test_arpl_raises_rpl :
    (next (run (put (put prot .eax 0x10) .ecx 0x23) [0x63, 0xC8]) fun t => t.reg .eax == 0x13#32 && t.flags.zf) = true := by
  decide +kernel

/-- 95, B42.8. -/
theorem test_mov_ds_real :
    (next (run (put real .eax 0x1234) [0x8E, 0xD8]) fun t =>
    t.segs.ds.selector == 0x1234#16 && t.segs.ds.base == 0x12340#32 && t.segs.ds.limit == 0xFFFF#32) = true := by
  decide +kernel

/-- 42 R166, the table of loads. -/
theorem test_mov_ds_null :
    (next (run (put prot .eax 3) [0x8E, 0xD8]) fun t => t.segs.ds.selector == 3#16 && !t.segs.ds.valid) = true := by
  decide +kernel

/-- 42 R166, the table of loads. -/
theorem test_mov_ss_null :
    (takesCode prot 13 0 [0x8E, 0xD0]) = true := by
  decide +kernel

/-- 42 R166, the table of loads. -/
theorem test_mov_ss_shadow :
    (next (run (put prot .eax 0x10) [0x8E, 0xD0]) fun t => t.segs.ss.selector == 0x10#16 && t.intShadow) = true := by
  decide +kernel

/-- 95, B42.10. -/
theorem test_lds_real :
    (next (run (poke (put real .ebx 0x2000) 0x2000 [0x34, 0x12, 0x10, 0]) [0xC5, 0x37]) fun t =>
    t.segs.ds.base == 0x100#32 && t.reg .esi == 0x1234#32) = true := by
  decide +kernel

/-- 95, B45.1. -/
theorem test_out_is_recorded :
    (next (run (put real .eax 0x5A) [0xE6, 0x80]) fun t => t.env.bus == [.ioWrite 0x80 1 0x5A]) = true := by
  decide +kernel

/-- 95, B45.3. -/
theorem test_in_replaces_al :
    (next (run { put real .eax 0x11223344 with env := { real.env with devIn := [0x5A] } } [0xE4, 0x60]) fun t =>
    t.reg .eax == 0x1122335A#32) = true := by
  decide +kernel

/-- 95, B45.4. -/
theorem test_in_denied_by_the_map :
    (takesCode ((put (poke (poke { user with tr := { user.tr with limit := 0x87 } } 0x2066 [0x68, 0]) 0x206D [2])
    .edx 0x29)) 13 0 [0xEC]) = true := by
  decide +kernel

/-- 95, B45.5. -/
theorem test_in_allowed_by_the_map :
    (next (run (put (poke (poke { user with tr := { user.tr with limit := 0x87 } } 0x2066 [0x68, 0]) 0x206D [2])
    .edx 0x28) [0xEC]) fun t => t.eip == 0x10001#32) = true := by
  decide +kernel

/-- 95, B45.14. -/
theorem test_cli_user :
    (takesCode user 13 0 [0xFA]) = true := by
  decide +kernel

/-- 95, B45.15. -/
theorem test_cli_within_iopl :
    (next (run (flagged { user with cpl := 2 } 0x2202) [0xFA]) fun t => t.flags.toBits == 0x2002#32) = true := by
  decide +kernel

/-- 95, B45.17. -/
theorem test_pushf_hides_rf :
    (next (run (flagged prot 0x10202) [0x9C]) fun t => peek t 0x6FFC 4 == 0x202) = true := by
  decide +kernel

/-- 95, B45.18. -/
theorem test_popf_user_keeps_iopl :
    (next (run (poke (flagged user 0x202) 0x5000 (dw 0x3002)) [0x9D]) fun t => t.flags.toBits == 0x202#32) = true := by
  decide +kernel

/-- 95, B46.1. -/
theorem test_int_gate_privilege :
    (takesCode (gate user 0x20) 13 0x102 [0xCD, 0x20]) = true := by
  decide +kernel

/-- 95, B46.6. -/
theorem test_int3_saves_next :
    (next (run (gate prot 3) [0xCC]) fun t => peek t t.gpr.esp.toNat 4 == 0x10001 && t.eip == 0x9030#32) = true := by
  decide +kernel

/-- 95, B46.3. -/
theorem test_into_without_overflow :
    (next (run user [0xCE]) fun t => t.eip == 0x10001#32) = true := by
  decide +kernel

/-- 95, B46.7. -/
theorem test_bound_inclusive :
    (next (run (put (put (poke real 0x2000 [0, 0, 9, 0]) .ebx 0x2000) .eax 9) [0x62, 7]) fun t => t.eip == 0x102#32) = true := by
  decide +kernel

/-- 95, B46.8. -/
theorem test_bound_below :
    (takes (put (put (poke prot 0x5000 (dw 0xFFFFFFF0 ++ dw 0x10)) .ebx 0x5000) .eax 0x80000000) 5 [0x62, 3]) = true := by
  decide +kernel

/-- 95, B46.10. -/
theorem test_iret_to_user :
    (next (run (poke prot 0x7000 (dw 0x1000 ++ dw 0x1B ++ dw 0x202 ++ dw 0x2000 ++ dw 0x23)) [0xCF]) fun t =>
    t.segs.cs.selector == 0x1B#16 && t.eip == 0x1000#32 && t.cpl == 3#2 && t.reg .esp == 0x2000#32 &&
    t.flags.toBits == 0x202#32) = true := by
  decide +kernel

/-- 95, B46.14. -/
theorem test_iret_real_ends_nmi :
    (next (run { poke (put real .esp 0xFFA) 0xFFA [0, 1, 0, 0x20, 2, 2] with nmiInService := true } [0xCF]) fun t =>
    t.segs.cs.base == 0x20000#32 && t.eip == 0x100#32 && t.reg .esp == 0x1000#32 && !t.nmiInService) = true := by
  decide +kernel

/-- 95, B46.15. -/
theorem test_int_real :
    (next (run (flagged { poke real 0x84 (dw 0x20000100) with eip := 0x50 } 0x202) [0xCD, 0x21]) fun t =>
    peek t 0xFFE 2 == 0x202 && peek t 0xFFC 2 == 0x1000 && peek t 0xFFA 2 == 0x52 && !t.flags.if_ &&
    t.segs.cs.base == 0x20000#32) = true := by
  decide +kernel

/-- 95, B60.24. -/
theorem test_gate_in_inner_stack :
    (next (run (gate (put (flagged user 0x3202) .eax 0xFF8) 13 0x8F) [0x8E, 0xD8]) fun t =>
    peek t 0x7FFC 2 == 0x23 && peek t 0x7FF8 4 == 0x5000 && peek t 0x7FEC 4 == 0x10000 && t.cpl == 0#2) = true := by
  decide +kernel

/-- 95, B60.30. -/
theorem test_shutdown :
    (next (run { prot with idtr := { base := 0, limit := 0 } } [0xF6, 0xF3]) fun t => t.inShutdown) = true := by
  decide +kernel

/-- 95, B20.25. -/
theorem test_page_walk_sets_accessed :
    (next (run (poke (paged 0x200007 0xABC005) 0xABC234 [0x5A]) [0x8A, 6]) fun t =>
    t.reg .eax == 0x5A#32 && peek t 0x100C08 4 == 0x200027 && peek t 0x200004 4 == 0xABC025) = true := by
  decide +kernel

/-- 95, B20.26. -/
theorem test_page_fault_user_write :
    (next (run (gate (paged 0x200007 0xABC005) 14) [0x88, 6]) fun t =>
    t.eip == 0x90E0#32 && t.cr2 == 0xC0801234#32 && peek t t.gpr.esp.toNat 1 % 8 == 7) = true := by
  decide +kernel

/-- 95, B61.1. -/
theorem test_data_breakpoint :
    (next (run (put { prot with dr0 := 0xA0001, dr7 := 0xD5110155 } .esi 0xA0001) [0x66, 0x89, 6]) fun t =>
    t.eip == 0x10003#32 && t.pendingDbg.getLsbD 0) = true := by
  decide +kernel

/-- 95, B61.5. -/
theorem test_instruction_breakpoint :
    (next (run (gate { prot with dr0 := 0x10000, dr7 := 2 } 1) [0x90]) fun t => t.eip == 0x9010#32 && t.dr6 == 1#32) = true := by
  decide +kernel

/-- 95, B70.3. -/
theorem test_far_jmp_real :
    (next (run State.reset [0xEA, 0, 1, 0, 0x20]) fun t => t.eip == 0x100#32 && t.segs.cs.base == 0x20000#32) = true := by
  decide +kernel

/-- 95, B44.1. -/
theorem test_task_switch :
    (next (run (poke (poke (entry (entry prot 5 0x20000067 0x8B00) 6 0x21000087 0x8900) 0x2120
    (dw 0x12000 ++ dw 2 ++ dw 0xAA)) 0x2148 (dw 0x10 ++ dw 8 ++ dw 0x10 ++ dw 0x10)) [0xEA, 0, 0, 0, 0, 0x30, 0]) fun t =>
    t.tr.selector == 0x30#16 && t.cr0.ts && t.eip == 0x12000#32 && t.reg .eax == 0xAA#32 &&
    peek t 0x102D 1 == 0x89 && peek t 0x1035 1 == 0x8B && peek t 0x2020 4 == 0x10007) = true := by
  decide +kernel


/-! ### The hypotheses of the obligations can be met -/

/-- What a part of a meaning answers. -/
abbrev Answer (α : Type) := EStateM.Result Stop Work α

/-- Its value, where it went through. -/
def value? {α : Type} (r : Answer α) : Option α :=
  match r with
  | .ok a _ => some a
  | .error _ _ => none

/-- Whether it went through. -/
def went {α : Type} (r : Answer α) : Bool := (value? r).isSome

/-- The bookkeeping after it. -/
def after {α : Type} (r : Answer α) : Work :=
  match r with
  | .ok _ w => w
  | .error _ w => w

theorem answers {α : Type} {r : Answer α} (h : went r = true) : r = .ok ((value? r).get h) (after r) := by
  cases r with
  | ok a w => rfl
  | error e w => exact absurd h Bool.false_ne_true

theorem ran {r : Answer Unit} (h : went r = true) : r = .ok () (after r) := answers h

/-- The exception that a part of a meaning raises. -/
def raised? {α : Type} (r : Answer α) : Option Exc :=
  match r with
  | .error (.exc e) _ => some e
  | _ => none

theorem raises {α : Type} {r : Answer α} {e : Exc} (h : raised? r = some e) : r = .error (.exc e) (after r) := by
  unfold raised? at h
  split at h
  · cases h
    rfl
  · cases h

/-- The state in which an instruction of two bytes runs. -/
def begun (s : State) (n : Nat := 2) : State := { s with insn := { Insn.empty with len := n } }

theorem ready_begun {b : Bool} (s : State) (n : Nat) (h : s.eip.toNat + n < 2 ^ 32) : ReadyFor b (begun s n) :=
  ⟨h, nofun, rfl, rfl⟩

/-- As `begun`, after a LOCK prefix. -/
def locked (s : State) : State := { s with insn := { Insn.empty with lock := true, len := 3 } }

theorem ready_locked (s : State) (h : s.eip.toNat + 3 < 2 ^ 32) : ReadyFor true (locked s) :=
  ⟨h, fun _ => rfl, rfl, rfl⟩

/-- A memory operand at 2000H (16-bit) or 5000H (32-bit). -/
def at16 {ρ : Type} : RM ρ := .mem (.abs16 0x2000#16)

def at32 {ρ : Type} : RM ρ := .mem (.abs32 0x5000#32)

theorem reset_inv : Inv State.reset := ⟨rfl, nofun, fun _ => rfl, rfl, rfl, fun _ => rfl⟩

theorem real_inv : Inv real := ⟨rfl, nofun, fun _ => rfl, rfl, rfl, fun _ => rfl⟩

theorem quiet_real : QuietBoundary real := ⟨rfl, rfl, rfl, rfl, rfl, by decide, rfl⟩

/-- A RESET signal at the next boundary, with the self-test's result a parameter. -/
def signalled (t : SelfTest) : State :=
  { real with env := { world with
    inputs := [{ reset := true, nmi := false, intr := none, busy := false, error := false, ice := false, writes := [] }]
    platform := { world.platform with selfTest := t } } }

theorem test_meets_ResetSignalState :
    (nextInput (signalled .passed)).reset = true ∧ (signalled .passed).env.platform.selfTest = .passed ∧
      (nextInput (signalled (.failed 5))).reset = true ∧ (signalled (.failed 5)).env.platform.selfTest = .failed 5 := by
  decide +kernel

theorem test_meets_StepKeepsInv : Inv real ∧ ∃ t, step real = .next t := by
  refine ⟨real_inv, ?_⟩
  have h : next (step real) (fun _ => true) = true := by decide +kernel
  revert h
  cases step real <;> simp [next]

theorem test_meets_DecodeEncode :
    Instr.WellFormed .w16 .w32 (.addRmImm (.mem (.sib 3 .esi .ebx (.d32 0x12345678#32))) 0xFFFF#32) = true ∧
      Instr.WellFormed .w32 .w16 (.movRmImm (.mem (.a16 .bp (.d8 0))) 0xFFFFFFFF#32) = true ∧
      0 < (encode .w32 .w32 .nop).length := by
  decide +kernel

/-- NOP at CS:EIP. -/
def atNop : State := placeInstr real [0x90#8]

theorem test_meets_StepRunsDecoded_boundary :
    QuietBoundary real ∧ (real.flags.if_ = true → real.env.intr = none) := ⟨quiet_real, nofun⟩

theorem test_meets_StepRunsDecoded_fetch :
    ∃ i n same w, fetchInstr 16 [] true atNop.work = .ok (i, n, same) w ∧ isPfx i = false ∧
      hazardStop w.s (isJmp i) same = none :=
  ⟨_, _, _, _, answers (by decide +kernel), by decide +kernel, by decide +kernel⟩

theorem test_meets_StepRunsDecoded_prefix :
    ∃ i n same w p, fetchInstr 16 [] true (placeInstr real [0x66#8, 0x90#8]).work = .ok (i, n, same) w ∧
      prefixForm w.s.insn i = some p :=
  ⟨_, _, _, _, { Insn.empty with opSize := true }, answers (by decide +kernel), by decide +kernel⟩

theorem test_meets_StepRunsDecoded_bytes :
    let s := placeInstr real [0xB8#8, 0x34#8, 0x12#8]
    let bytes := [0xB8#8, 0x34#8, 0x12#8]
    QuietBoundary s ∧ (s.flags.if_ = true → s.env.intr = none) ∧ s.cr0.pg = false ∧ s.prefetch = Prefetch.empty ∧
      s.insn = Insn.empty ∧ decode s.os s.as bytes = .ok (.movRImm .eax 0x1234#32) bytes.length ∧
      (∀ k, k < bytes.length → decode s.os s.as (bytes.take k) = .more) ∧ bytes.length ≤ 15 ∧
      s.eip.toNat + bytes.length ≤ 2 ^ 32 ∧
      (∀ j, j < bytes.length →
        limitOk s.segs.cs (s.eip + BitVec.ofNat 32 j) 1 = true ∧
        s.kindAt (s.segs.cs.base + (s.eip + BitVec.ofNat 32 j)) = .ram ∧
        some (s.byteAt (s.segs.cs.base + (s.eip + BitVec.ofNat 32 j))) = bytes[j]?) :=
  ⟨⟨rfl, rfl, rfl, rfl, rfl, by decide, rfl⟩, nofun, rfl, rfl, rfl, by decide +kernel, by decide +kernel,
    by decide +kernel, by decide +kernel, by decide +kernel⟩

theorem test_meets_PrefixesRecorded :
    prefixForm Insn.empty .lock = some { Insn.empty with lock := true } ∧
      prefixForm Insn.empty .segFs = some { Insn.empty with seg := some .fs } := by
  decide +kernel

theorem test_meets_LockRaisesUd :
    (locked real).insn.lock = true ∧ lockable (.incRm (.reg .eax)) = false ∧ isPfx (.incRm (.reg .eax)) = false := by
  decide +kernel

theorem test_meets_RegisterOperands :
    Place.isMem (.reg8 .ah) = false ∧ Reg8.al ≠ Reg8.ah ∧ Reg.ecx ≠ Reg.eax ∧ Reg.ecx ≠ Reg8.ah.home.1 := by decide +kernel

theorem test_meets_EffectiveLimit :
    (⟨0#32, 0#32⟩ : Desc).g = false ∧ (⟨0xFFFF#32, 0x0F0000#32⟩ : Desc).effLimit = 0xFFFFF#32 ∧
      (⟨0#32, 0x800000#32⟩ : Desc).g = true ∧ (⟨0#32, 0x800000#32⟩ : Desc).effLimit = 0xFFF#32 := by
  decide +kernel

/-- 95, B20: the last valid and the first invalid offset of an expand-up and of an expand-down segment, an unusable register in
either mode, a read-only segment, and one that may be written. -/
theorem test_meets_LimitCheck :
    let up := { (flatSeg 0x10 0x93) with limit := 0xFFF#32 }
    let down := { (flatSeg 0x10 0x97) with limit := 0xFFF#32, db := false }
    up.expandDown = false ∧ down.expandDown = true ∧
      limitOk up 0xFFC#32 4 = true ∧ limitOk up 0xFFD#32 4 = false ∧ limitOk down 0xFFF#32 1 = false ∧
      limitOk down 0x1000#32 1 = true ∧ limitOk down 0xFFFE#32 2 = true ∧ limitOk down 0xFFFF#32 2 = false ∧
      ((real.setSeg .es { real.segs.es with valid := false }).seg .es).valid = false ∧
      ((prot.setSeg .es { prot.segs.es with valid := false }).seg .es).valid = false ∧
      (((prot.setSeg .es (flatSeg 0x10 0x91)).seg .es).valid = true ∧ typeOk (flatSeg 0x10 0x91) true = false) ∧
      ((prot.seg .ss).valid = true ∧ (prot.cr0.pe = true → typeOk (prot.seg .ss) true = true)) := by
  decide +kernel

/-- All memory of the small states is RAM. -/
theorem plain_of {s : State} (h : s.env.physMap = []) (a : BitVec 32) (n : Nat) : PlainMemory s a n := by
  intro p _
  simp [State.kindAt, h, kindAt]

/-- No debug register is in use in the small states. -/
theorem no_breakpoint {s : State} (h : s.dr7 = 0) : NoDataBreakpoint s := by
  intro n hn
  rw [h]
  revert n
  decide

theorem flat_real (s : State) (h : s.env.physMap = []) (hp : s.cr0.pg = false) (hd : s.dr7 = 0)
    {r : SegReg} {off : BitVec 32} {n : Nat} {write : Bool}
    (hs : (s.seg r).valid = true ∧ (s.cr0.pe = true → typeOk (s.seg r) write = true) ∧ limitOk (s.seg r) off n = true) :
    FlatAccess s r off n write :=
  ⟨hp, no_breakpoint hd, hs, plain_of h _ _⟩

theorem test_meets_FlatRead : FlatAccess real .ds 0xFFFC#32 4 false ∧ FlatAccess user .ds 0xFFFFFFFC#32 4 false :=
  ⟨flat_real _ rfl rfl (by decide) (by decide +kernel), flat_real _ rfl rfl (by decide) (by decide +kernel)⟩

theorem test_meets_FlatWrite :
    Memory.wf prot.mem = true ∧ FlatAccess prot .ss 0xFFFFFFFF#32 1 true ∧ FlatAccess real .es 0#32 4 true :=
  ⟨by decide +kernel, flat_real _ rfl rfl (by decide) (by decide +kernel),
    flat_real _ rfl rfl (by decide) (by decide +kernel)⟩

/-- 95, B20: an absent page, a forbidden one and one that may be used, and that all memory is plain. -/
theorem test_meets_PageWalk :
    (∀ a, (paged 0x200007 0xABC005).kindAt a = .ram) ∧
      bit ((paged 0x200007 0xABC004).valueAt 0x200004#32 4) 0 = false ∧
      bit ((paged 0x200007 0xABC005).valueAt 0x200004#32 4) 0 = true ∧
      bit ((paged 0x200007 0xABC005).valueAt 0x200004#32 4) 1 = false ∧
      bit ((paged 0x200007 0xABC007).valueAt 0x100C08#32 4) 1 = true ∧
      (paged 0x200007 0xABC007).pdbr ++ 0#12 = 0x100000#32 :=
  ⟨fun _ => rfl, by decide +kernel, by decide +kernel, by decide +kernel, by decide +kernel, by decide +kernel⟩

/-- The counts where the clauses begin and end: 1, the width, one more, 31. -/
theorem test_meets_ShiftArithmetic : 1 ≤ Width.bits .w8 ∧ Width.bits .w8 = 8 ∧ Width.bits .w8 < 9 ∧ 31 ≤ Width.bits .w32 := by
  decide +kernel

theorem test_meets_AluRegister :
    aluForm (begun real) (.adcRRm .eax (.reg .ebx)) = some (.adc, .reg .w16 .eax, .place (.reg .w16 .ebx)) ∧
      Ready (begun real) :=
  ⟨rfl, ready_begun _ _ (by decide)⟩

theorem test_meets_AluCompletes :
    let s := locked real
    ∃ dst src, aluForm s (.andRmR at16 .ecx) = some (.and, dst, src) ∧ ReadyFor (AluOp.and.writes && dst.isMem) s ∧
      ∃ w1 a w2 b w3 af w4 w5, (if AluOp.and.writes then dst.probe else pure ()) s.work = .ok () w1 ∧
        dst.read w1 = .ok a w2 ∧ src.read w2 = .ok b w3 ∧
        (if AluOp.and.isLogic then drawBit else pure false) w3 = .ok af w4 ∧
        (if AluOp.and.writes then dst.write (dst.width.binary (fun x y => AluOp.and.apply x y s.flags.cf af) a b).1
          else pure ()) w4 = .ok () w5 :=
  ⟨_, _, rfl, ready_locked _ (by decide), _, _, _, _, _, _, _, _, answers (by decide +kernel), answers (by decide +kernel),
    answers (by decide +kernel), answers (by decide +kernel), answers (by decide +kernel)⟩

theorem test_meets_UnaryCompletes :
    let s := locked prot
    ∃ dst, unaryForm s (.negRm at32) = some (.neg, dst) ∧ ReadyFor dst.isMem s ∧
      ∃ w1 a w2 w3, dst.probe s.work = .ok () w1 ∧ dst.read w1 = .ok a w2 ∧
        dst.write (UnOp.neg.apply dst.width s.flags a).1 w2 = .ok () w3 :=
  ⟨_, rfl, ready_locked _ (by decide), _, _, _, _, answers (by decide +kernel), answers (by decide +kernel),
    answers (by decide +kernel)⟩

/-- 95, B48.26: -100 by 7 is -14 with remainder -2; and the division of 64H by 7. -/
theorem test_meets_DivideCompletes :
    (let s := begun (put (put prot .eax 0xFF9C) .ebx 7)
    divForm s (.idivRm8 (.reg .bl)) = some (true, .reg8 .bl) ∧ Ready s ∧
      Place.read (.reg8 .bl) s.work = .ok 7 s.work ∧ (dividend s .w8 true).toInt = -14 * Width.toInt .w8 7 + -2 ∧
      |(-2 : Int)| < |Width.toInt .w8 7| ∧ (0 < (-2 : Int) ↔ 0 < (dividend s .w8 true).toInt) ∧
      -2 ^ (Width.bits .w8 - 1) ≤ (-14 : Int)) ∧
    (let s := begun (put (put prot .eax 0x64) .ebx 7)
    divForm s (.divRm8 (.reg .bl)) = some (false, .reg8 .bl) ∧ Ready s ∧
      ((dividend s .w8 false).toNat : Int) = 14 * 7 + 2 ∧ (14 : Int) < 2 ^ Width.bits .w8) :=
  ⟨⟨rfl, ready_begun _ _ (by decide), rfl, by decide +kernel, by decide +kernel, by decide +kernel, by decide +kernel⟩,
    rfl, ready_begun _ _ (by decide), by decide +kernel, by decide +kernel⟩

/-- 95, B48.22, B48.23, B48.28: a divisor 0, and the quotients just outside what a byte holds. -/
theorem test_meets_DivideError :
    (let s := begun (put prot .eax 0x64)
    Ready s ∧ divForm s (.divRm8 (.reg .bl)) = some (false, .reg8 .bl) ∧ Place.isMem (.reg8 .bl) = false ∧
      Place.read (.reg8 .bl) s.work = .ok 0 s.work) ∧
    ((2 : Int) ^ Width.bits .w8 ≤ ((dividend (put prot .eax 0x200) .w8 false).toNat : Int).tdiv 2) ∧
    ((2 : Int) ^ (Width.bits .w8 - 1) ≤ (dividend (put prot .eax 0x80) .w8 true).toInt.tdiv 1) ∧
    ((dividend (put prot .eax 0xFF7F) .w8 true).toInt.tdiv 1 < -2 ^ (Width.bits .w8 - 1)) :=
  ⟨⟨ready_begun _ _ (by decide), rfl, rfl, rfl⟩, by decide +kernel, by decide +kernel, by decide +kernel⟩

theorem test_meets_ShiftCompletes :
    let s := begun real
    ∃ dst, shiftForm s (.sarRmImm8 at16 4) = some (.sar, dst, 4) ∧ shiftForm s (.shlRm8Cl at16) = some (.shl, place8 s at16, 0) ∧
      Ready s ∧ ∃ w1 a w2 u w3 w4, dst.probe s.work = .ok () w1 ∧ dst.read w1 = .ok a w2 ∧ drawStatus w2 = .ok u w3 ∧
        dst.write (dst.width.unary (fun x => ShiftOp.sar.apply x 4 u) a).1 w3 = .ok () w4 :=
  ⟨_, rfl, rfl, ready_begun _ _ (by decide), _, _, _, _, _, _, answers (by decide +kernel), answers (by decide +kernel),
    answers (by decide +kernel), answers (by decide +kernel)⟩

theorem test_meets_BitTestCompletes :
    let s := locked real
    ∃ dst, bitForm s (.btcRmImm8 at16 31) = some (.btc, dst, 31#32) ∧ ReadyFor dst.isMem s ∧
      ∃ w1 v w2 w3, dst.probe s.work = .ok () w1 ∧ dst.read w1 = .ok v w2 ∧
        dst.write (BitOp.btc.apply v ((31#32).toNat % dst.width.bits)) w2 = .ok () w3 :=
  ⟨_, rfl, ready_locked _ (by decide), _, _, _, _, answers (by decide +kernel), answers (by decide +kernel),
    answers (by decide +kernel)⟩

theorem test_meets_MovCompletes :
    let s := begun user
    ∃ dst src, movForm s (.movRm8Imm8 at32 0x7F) = some (dst, src) ∧ Ready s ∧
      ∃ v w1 w2, src.read s.work = .ok v w1 ∧ dst.write v w1 = .ok () w2 :=
  ⟨_, _, rfl, ready_begun _ _ (by decide), _, _, _, answers (by decide +kernel), answers (by decide +kernel)⟩

theorem test_meets_XchgCompletes :
    let s := locked prot
    ∃ dst reg, xchgForm s (.xchgRmR at32 .esp) = some (dst, reg) ∧ ReadyFor dst.isMem s ∧
      ∃ w1 a w2 w3, dst.probe s.work = .ok () w1 ∧ dst.read w1 = .ok a w2 ∧ dst.write (reg.value s) w2 = .ok () w3 :=
  ⟨_, _, rfl, ready_locked _ (by decide), _, _, _, _, answers (by decide +kernel), answers (by decide +kernel),
    answers (by decide +kernel)⟩

theorem test_meets_PushCompletes :
    (let s := begun (put real .esp 2)
    Ready s ∧ ∃ w, push (s.regv s.os .esp) s.os.bytes s.work = .ok () w) ∧
    (let s := begun prot
    pushSegForm .pushCs = some .cs ∧ Ready s ∧ ∃ u w1 w, (if s.os = .w32 then draw16 else pure 0#16) s.work = .ok u w1 ∧
      push (u ++ (s.seg .cs).selector) s.os.bytes w1 = .ok () w) :=
  ⟨⟨ready_begun _ _ (by decide), _, answers (by decide +kernel)⟩, rfl, ready_begun _ _ (by decide), _, _, _,
    answers (by decide +kernel), answers (by decide +kernel)⟩

theorem test_meets_PopCompletes :
    let s := begun (put real .esp 0xFFFE)
    Ready s ∧ ∃ v w, stackRead 0 s.os.bytes s.work = .ok v w :=
  ⟨ready_begun _ _ (by decide), _, _, answers (by decide +kernel)⟩

theorem test_meets_NopDoesNothing : Ready (begun prot 1) := ready_begun _ _ (by decide)

theorem test_meets_CliSti :
    (Ready (begun prot 1) ∧ (begun prot 1).cpl.toNat ≤ (begun prot 1).flags.iopl.toNat) ∧
      Ready (begun user 1) ∧ (begun user 1).cr0.pe = true ∧ (begun user 1).flags.iopl.toNat < (begun user 1).cpl.toNat :=
  ⟨⟨ready_begun _ _ (by decide), by decide⟩, ready_begun _ _ (by decide), rfl, by decide⟩

/-- After a REP prefix, with a count. -/
def repeated (s : State) (n : Nat) : State := { put s .ecx n with insn := { Insn.empty with rep := true, len := 2 } }

theorem test_meets_StringCompletes :
    ∃ element w, stringElement (repeated prot 0) .movsv = some element ∧ (repeated prot 0).index .ecx = 0 ∧
      (repeated prot 1).index .ecx = 1 ∧ (repeated prot 2).index .ecx ≠ 0 ∧ (repeated prot 2).index .ecx ≠ 1 ∧
      (repeated prot 2).insn.lock = false ∧ (repeated prot 2).insn.repne = false ∧ (repeated prot 2).insn.rep = true ∧
      (repeated prot 2).eip.toNat + (repeated prot 2).insn.len < 2 ^ 32 ∧ (begun prot).insn.rep = false ∧
      element (repeated prot 2).work = .ok () w :=
  ⟨_, _, rfl, by decide +kernel, by decide +kernel, by decide +kernel, by decide +kernel, rfl, rfl, rfl, by decide, rfl,
    ran (by decide +kernel)⟩

theorem test_meets_MovsElement :
    Memory.wf real.mem = true ∧ FlatAccess real (real.dataSeg .ds) (real.index .esi) 4 false ∧
      FlatAccess real .es (real.index .edi) 4 true :=
  ⟨rfl, flat_real _ rfl rfl (by decide) (by decide +kernel), flat_real _ rfl rfl (by decide) (by decide +kernel)⟩

theorem test_meets_PortStringElements :
    (real.cr0.pe = false ∨ real.cpl.toNat ≤ real.flags.iopl.toNat) ∧ (lo16 (real.reg .edx)).toNat % 4 = 0 ∧
      FlatAccess real .es (real.index .edi) 4 true ∧ FlatAccess real (real.dataSeg .ds) (real.index .esi) 4 false :=
  ⟨.inl rfl, by decide +kernel, flat_real _ rfl rfl (by decide) (by decide +kernel),
    flat_real _ rfl rfl (by decide) (by decide +kernel)⟩

/-- CPL 3 with an I/O permission map at 2068H that allows ports 0 to 28H, denies 29H and ends after FFH (95, B45). -/
def mapped : State := poke (poke { user with tr := { user.tr with limit := 0x87 } } 0x2066 [0x68, 0]) 0x206D [2]

theorem test_meets_PortIo :
    (let s := begun mapped
    inForm s (.inAlImm8 0x28) = some (0x28, .reg8 .al) ∧ Ready s ∧
      ∃ w1 v w2, ioPermission 0x28 1 s.work = .ok () w1 ∧ ioRead 0x28 1 w1 = .ok v w2) ∧
    (let s := begun mapped
    outForm s (.outImm8Al 0x28) = some (0x28, .reg8 .al) ∧ Ready s ∧
      ∃ w1 w2, ioPermission 0x28 1 s.work = .ok () w1 ∧ ioWrite 0x28 1 (Place.value (.reg8 .al) s) w1 = .ok () w2) ∧
    (0xFFFC#16).toNat % 4 = 0 :=
  ⟨⟨rfl, ready_begun _ _ (by decide), _, _, _, answers (by decide +kernel), answers (by decide +kernel)⟩,
    ⟨rfl, ready_begun _ _ (by decide), _, _, answers (by decide +kernel), answers (by decide +kernel)⟩, by decide⟩

/-- Port 28H is allowed, 29H and 100H (past the map) are not. -/
theorem test_meets_IoPermissionMap :
    AllRam mapped ∧ mapped.tr.valid = true ∧ (mapped.valueAt (mapped.tr.base + 0x66#32) 2).toNat = 0x68 ∧
      (mapped.cr0.pe = true ∧ mapped.flags.iopl.toNat < mapped.cpl.toNat) ∧
      bit (mapped.valueAt (mapped.tr.base + BitVec.ofNat 32 (0x68 + 0x28 / 8)) 1) (0x28 % 8) = false ∧
      bit (mapped.valueAt (mapped.tr.base + BitVec.ofNat 32 (0x68 + 0x29 / 8)) 1) (0x29 % 8) = true ∧
      0x68 + 0xFF / 8 ≤ mapped.tr.limit.toNat ∧ mapped.tr.limit.toNat < 0x68 + 0x100 / 8 ∧ prot.cpl.toNat ≤ prot.flags.iopl.toNat :=
  ⟨⟨rfl, fun _ => rfl⟩, rfl, by decide +kernel, by decide, by decide +kernel, by decide +kernel, by decide +kernel,
    by decide +kernel, by decide⟩

/-- A target at the limit of CS and one beyond it. -/
theorem test_meets_JumpNear :
    (let s := begun (put real .eax 0xFFFF)
    jumpTarget s (.jmpRm (.reg .eax)) = some 0xFFFF#32 ∧ (0xFFFF#32).toNat ≤ s.segs.cs.limit.toNat ∧ Ready s) ∧
    (let s := begun { prot with segs := { prot.segs with cs := { prot.segs.cs with limit := 0x10000 } } }
    jumpTarget s (.jmpRel8 0x7F) = some 0x10081#32 ∧ s.segs.cs.limit.toNat < (0x10081#32).toNat) ∧
    (let s := begun real
    ∃ v w, (placev s s.os at16).read s.work = .ok v w ∧ v.toNat ≤ s.segs.cs.limit.toNat) :=
  ⟨⟨by decide +kernel, by decide +kernel, ready_begun _ _ (by decide)⟩, ⟨by decide +kernel, by decide +kernel⟩, _, _,
    answers (by decide +kernel), by decide +kernel⟩

theorem test_meets_ConditionalJump :
    Ready (begun real) ∧ Cond.z.holds real.flags = false ∧ Cond.nz.holds real.flags = true ∧
      (Size.w16.trunc ((begun real).nextEip + (0x7F#8).signExtend 32)).toNat ≤ real.segs.cs.limit.toNat ∧
      (let s := begun { prot with segs := { prot.segs with cs := { prot.segs.cs with limit := 0x10000 } } }
      s.segs.cs.limit.toNat < (s.os.trunc (s.nextEip + (0x7F#8).signExtend 32)).toNat) :=
  ⟨ready_begun _ _ (by decide), by decide +kernel, by decide +kernel, by decide +kernel, by decide +kernel⟩

theorem test_meets_CallRet :
    (let s := begun real
    ∃ target w, callTarget s (.callRel 0x10) = some target ∧ Ready s ∧ target.toNat ≤ s.segs.cs.limit.toNat ∧
      push s.nextEip s.os.bytes s.work = .ok () w) ∧
    (let s := begun real
    ∃ v w1 w, (placev s s.os at16).read s.work = .ok v w1 ∧ v.toNat ≤ s.segs.cs.limit.toNat ∧
      push s.nextEip s.os.bytes w1 = .ok () w) ∧
    (let s := begun { poke prot 0x7000 (dw 0x10001) with segs := { prot.segs with cs := { prot.segs.cs with limit := 0x10001 } } }
    ∃ v w, stackRead 0 s.os.bytes s.work = .ok v w ∧ v.toNat ≤ s.segs.cs.limit.toNat) ∧
    (let s := begun { poke prot 0x7000 (dw 0x10001) with segs := { prot.segs with cs := { prot.segs.cs with limit := 0x10000 } } }
    ∃ v w, stackRead 0 s.os.bytes s.work = .ok v w ∧ s.segs.cs.limit.toNat < v.toNat) :=
  ⟨⟨_, _, rfl, ready_begun _ _ (by decide), by decide +kernel, answers (by decide +kernel)⟩,
    ⟨_, _, _, answers (by decide +kernel), by decide +kernel, answers (by decide +kernel)⟩,
    ⟨_, _, answers (by decide +kernel), by decide +kernel⟩, _, _, answers (by decide +kernel), by decide +kernel⟩

theorem test_meets_FarRealMode :
    (Ready (begun real 5) ∧ Memory.wf real.mem = true ∧ real.cr0.pe = false ∧ real.cr0.pg = false ∧
      (0xFFFF#32).toNat ≤ (begun real 5).segs.cs.limit.toNat) ∧
    (let s := begun real 5
    ∃ w, pushReturn s.os.bytes s.work = .ok () w) ∧
    (let s := begun real
    ∃ p w v, readFarPtr (.abs16 0x2000#16) s.work = .ok p w ∧ p.1.toNat ≤ s.segs.cs.limit.toNat ∧
      pushReturn s.os.bytes w = .ok () v) ∧
    (let s := begun (put real .esp 0xFFC)
    ∃ ip cs w v, pop s.os.bytes s.work = .ok ip w ∧ pop s.os.bytes w = .ok cs v ∧ ip.toNat ≤ s.segs.cs.limit.toNat) :=
  ⟨⟨ready_begun _ _ (by decide), rfl, rfl, rfl, by decide +kernel⟩, ⟨_, ran (by decide +kernel)⟩,
    ⟨_, _, _, answers (by decide +kernel), by decide +kernel, ran (by decide +kernel)⟩,
    _, _, _, _, answers (by decide +kernel), answers (by decide +kernel), by decide +kernel⟩

/-- A descriptor in GDT entry 9, its fetch, and a property of the descriptor read. -/
def fetches (s : State) (sel : BitVec 16) (p : Desc → Work → Bool) : Bool :=
  match fetchDesc sel .gp s.work with
  | .ok d w => p d w
  | .error _ _ => false

theorem fetches_iff {s : State} {sel : BitVec 16} {p : Desc → Work → Bool} (h : fetches s sel p = true) :
    ∃ d w, fetchDesc sel .gp s.work = .ok d w ∧ p d w = true := by
  unfold fetches at h
  split at h
  · exact ⟨_, _, ‹_›, h⟩
  · cases h

/-- Each clause for a code segment: a null selector, a privileged target, one not present, an offset past the limit and one at
it, the return pointer of a CALL, and that memory and stack are plain with room. -/
theorem test_meets_FarJumpToCode_direct :
    (farForm (.callPtr 0xFFFF#32 0x48#16) = some (.call, pure (0xFFFF#32, 0x48#16)) ∧ Ready (begun prot 7) ∧
      (begun prot 7).cr0.pe = true ∧ isNull 3#16 = true ∧ isNull 4#16 = false) ∧
    (let s := begun (poke prot 0x5000 (dw 0x100 ++ [8, 0]))
    farForm (.jmpFarM at32) = some (.jmp, readFarPtr (.abs32 0x5000#32)) ∧
      ∃ p w, readFarPtr (.abs32 0x5000#32) s.work = .ok p w ∧ p = (0x100#32, 8#16)) ∧
    (∃ d w, fetchDesc 0x1B#16 .gp (begun prot 7).work = .ok d w ∧
      (d.isCode && !d.ec && d.dpl != (begun prot 7).cpl) = true) ∧
    (∃ d w, fetchDesc 0x48#16 .gp (begun (entry prot 9 0xFFFF 0x1A00) 7).work = .ok d w ∧
      (d.isCode && d.dpl == 0 && !d.p) = true) ∧
    (let s := begun (entry prot 9 0xFFFF 0x9B00) 7
    AllRam s ∧ Memory.wf s.mem = true ∧ 2 * s.os.bytes ≤ s.sp.toNat ∧
      ∃ d w u v, fetchDesc 0x48#16 .gp s.work = .ok d w ∧
        (d.isCode && d.dpl == 0 && d.p && d.a && d.effLimit == 0xFFFF#32) = true ∧ pushReturn s.os.bytes w = .ok () u ∧
        setAccessed 0x48#16 d u = .ok () v) :=
  ⟨⟨rfl, ready_begun _ _ (by decide), rfl, by decide, by decide⟩, ⟨rfl, _, _, answers (by decide +kernel), by decide +kernel⟩,
    fetches_iff (by decide +kernel), fetches_iff (by decide +kernel), ⟨rfl, fun _ => rfl⟩, by decide +kernel,
    by decide +kernel, _, _, _, _, answers (by decide +kernel), by decide +kernel, ran (by decide +kernel),
    ran (by decide +kernel)⟩

/-- A call gate in GDT entry 9, and what it names. -/
def gated (s : State) (lo hi : Nat) (p : Desc → Desc → Bool) : Bool :=
  fetches (begun (entry s 9 lo hi) 7) 0x4B#16 fun d w =>
    match fetchDesc d.gateSel .gp w with
    | .ok t _ => p d t
    | .error _ _ => false

/-- Call gates (43 R173, Figure 6-5): one the caller may not see, one not present, one with a null target; targets that are no
code, are less privileged, are not present, end below the offset; a CALL to level 0 with two parameters. -/
theorem test_meets_FarJumpToCode_gate :
    fetches (entry user 9 0x85000 0x8C00) 0x4B#16 (fun d _ => !d.s && d.typ == 0xC && d.dpl.ult 3) = true ∧
    fetches (entry user 9 0x85000 0x6C00) 0x4B#16 (fun d _ => !d.s && d.typ == 0xC && d.dpl == 3 && !d.p) = true ∧
    fetches (entry user 9 0x5000 0xEC00) 0x4B#16 (fun d _ => d.typ == 0xC && d.p && isNull d.gateSel) = true ∧
    gated user 0x105000 0xEC00 (fun _ t => !t.isCode) = true ∧
    gated prot 0x185000 0xEC00 (fun _ t => t.isCode && !t.ec && (0#2).ult t.dpl) = true ∧
    gated (entry user 7 0xFFFF 0x7B00) 0x385000 0xEC00 (fun _ t => t.isCode && t.dpl == 3 && !t.p) = true ∧
    gated (entry user 7 0xFFF 0xFB00) 0x3B5000 0xEC00 (fun d t => t.p && t.effLimit.ult d.gateOffset) = true ∧
    gated prot 0x85000 0x8C00 (fun d t => t.isCode && t.p && t.a && t.dpl == 0 && d.gateOffset.ule t.effLimit) = true ∧
    (let s := begun (entry user 9 0x85000 0xEC02) 7
    AllRam s ∧ Memory.wf s.mem = true ∧ s.sp.toNat + 4 * 2 ≤ 2 ^ s.stackSize.bits ∧
      ∃ d w t x v, fetchDesc 0x4B#16 .gp s.work = .ok d w ∧ fetchDesc d.gateSel .gp w = .ok t x ∧
        (d.typ == 0xC && d.dpl == 3 && d.gateCount == 2 && t.isCode && t.p && t.a && !t.ec && t.dpl == 0) = true ∧
        callInner d d.gateSel t x = .ok () v ∧ 4 * (4 + 2) ≤ (v.s.stackSize.trunc (s.tssEsp t.dpl)).toNat) :=
  ⟨by decide +kernel, by decide +kernel, by decide +kernel, by decide +kernel, by decide +kernel, by decide +kernel,
    by decide +kernel, by decide +kernel, ⟨rfl, fun _ => rfl⟩, by decide +kernel, by decide +kernel, _, _, _, _, _,
    answers (by decide +kernel), answers (by decide +kernel), by decide +kernel, ran (by decide +kernel), by decide +kernel⟩

/-- RETF to the same level, at the limit and past it, and to an outer level with parameters. -/
theorem test_meets_FarJumpToCode_return :
    (let s := begun (poke (entry prot 9 0xFFFF 0x9B00) 0x7000 (dw 0xFFFF ++ dw 0x48)) 1
    Ready s ∧ s.cr0.pe = true ∧ FlatAccess s .ss s.sp (2 * s.os.bytes) false ∧ lo16 (s.stackItem s.os.bytes 1) = 0x48#16 ∧
      ∃ c w v, returnCs 0x48#16 s.work = .ok c w ∧ selRpl 0x48#16 = s.cpl ∧
        (s.stackItem s.os.bytes 0).toNat = c.effLimit.toNat ∧ setAccessed 0x48#16 c w = .ok () v) ∧
    (let s := begun (poke (entry prot 9 0xFFFF 0x9B00) 0x7000 (dw 0x10000 ++ dw 0x48)) 1
    ∃ c w, returnCs 0x48#16 s.work = .ok c w ∧ c.effLimit.toNat < (s.stackItem s.os.bytes 0).toNat) ∧
    (let s := begun (poke prot 0x7000 (dw 0x1234 ++ dw 0x1B ++ dw 0 ++ dw 0x5000 ++ dw 0x23)) 3
    FlatAccess s .ss s.sp (4 * s.os.bytes + (4#16).toNat) false ∧
      lo16 (s.stackItem s.os.bytes 1) = 0x1B#16 ∧ selRpl 0x1B#16 ≠ s.cpl ∧
      lo16 (s.valueAt (s.segs.ss.base + s.sp + (4#16).setWidth 32 + BitVec.ofNat 32 (3 * s.os.bytes)) s.os.bytes) = 0x23#16 ∧
      ∃ c w d x v, returnCs 0x1B#16 s.work = .ok c w ∧ returnSs 0x23#16 (selRpl 0x1B#16) w = .ok d x ∧
        (s.stackItem s.os.bytes 0).toNat ≤ c.effLimit.toNat ∧
        returnOuter 0x1B#16 0x23#16 c d 0x1234#32 0x5000#32 ((4#16).setWidth 32) x = .ok () v) :=
  ⟨⟨ready_begun _ _ (by decide), rfl, flat_real _ rfl rfl (by decide) (by decide +kernel), by decide +kernel,
    _, _, _, answers (by decide +kernel), by decide, by decide +kernel, ran (by decide +kernel)⟩,
    ⟨_, _, answers (by decide +kernel), by decide +kernel⟩,
    flat_real _ rfl rfl (by decide) (by decide +kernel), by decide +kernel, by decide, by decide +kernel,
    _, _, _, _, _, answers (by decide +kernel), answers (by decide +kernel), by decide +kernel, ran (by decide +kernel)⟩

theorem test_meets_SegmentLoads :
    (let s := begun (put prot .eax 0x10)
    SegReg.ofNum 3 = some .ds ∧ Ready s ∧ ∃ v w1 w, read16 (.reg .eax) s.work = .ok v w1 ∧ loadSeg .ds v w1 = .ok () w) ∧
    (let s := begun (poke prot 0x7000 (dw 0x10))
    popSegForm .popSs = some .ss ∧ Ready s ∧
      ∃ v w1 w, stackRead 0 s.os.bytes s.work = .ok v w1 ∧ loadSeg .ss (lo16 v) w1 = .ok () w) ∧
    (let s := begun real
    loadPtrForm (.les .edi at16) = some (.es, .edi, at16) ∧ Ready s ∧
      ∃ p w1 w, readFarPtr (.abs16 0x2000#16) s.work = .ok p w1 ∧ loadSeg .es p.2 w1 = .ok () w) :=
  ⟨⟨by decide, ready_begun _ _ (by decide), _, _, _, answers (by decide +kernel), ran (by decide +kernel)⟩,
    ⟨rfl, ready_begun _ _ (by decide), _, _, _, answers (by decide +kernel), ran (by decide +kernel)⟩,
    rfl, ready_begun _ _ (by decide), _, _, _, answers (by decide +kernel), ran (by decide +kernel)⟩

/-- Each clause: real mode, null selectors, and descriptors that are not readable, not present, no stack, good. -/
theorem test_meets_LoadSegEffect :
    real.work.ext = false ∧ real.cr0.pe = false ∧ prot.cr0.pe = true ∧ isNull 3#16 = true ∧ isNull 0x48#16 = false ∧
    (∃ d w, fetchDesc 0x48#16 .gp (entry prot 9 0xFFFF 0x9800).work = .ok d w ∧ (d.s && d.exec && !d.wr) = true) ∧
    (∃ d w, fetchDesc 0x48#16 .gp (entry prot 9 0xFFFF 0x1200).work = .ok d w ∧ (d.isWritableData && !d.p) = true) ∧
    (∃ d w, fetchDesc 0x48#16 .gp (entry prot 9 0xFFFF 0xF200).work = .ok d w ∧ (d.dpl != prot.cpl) = true) ∧
    (∃ d w, fetchDesc 0x48#16 .gp (entry prot 9 0xFFFF 0x9200).work = .ok d w ∧
      (d.isWritableData && d.p && d.dpl == prot.cpl && selRpl 0x48#16 == prot.cpl && went (setAccessed 0x48#16 d w)) = true) :=
  ⟨rfl, rfl, rfl, by decide, by decide, fetches_iff (by decide +kernel), fetches_iff (by decide +kernel),
    fetches_iff (by decide +kernel), fetches_iff (by decide +kernel)⟩

theorem test_meets_TableRegisters :
    (let s := begun prot
    Ready s ∧ s.effCpl = 0 ∧ ∃ t w, readTableReg (.abs32 0x5000#32) s.work = .ok t w) ∧
    (let s := begun user
    Ready s ∧ ∃ w w', writeTableReg (.abs32 0x5000#32) s.gdtr s.work = .ok () w ∧
      writeTableReg (.abs32 0x5000#32) s.idtr s.work = .ok () w') ∧
    FlatAccess user (user.dataSeg (defaultSeg (.abs32 0x5000#32))) (effAddr user (.abs32 0x5000#32)) 6 false ∧
    Memory.wf user.mem = true ∧
    FlatAccess real (real.dataSeg (defaultSeg (.abs16 0xFFFA#16))) (effAddr real (.abs16 0xFFFA#16)) 6 true :=
  ⟨⟨ready_begun _ _ (by decide), by decide +kernel, _, _, answers (by decide +kernel)⟩,
    ⟨ready_begun _ _ (by decide), _, _, ran (by decide +kernel), ran (by decide +kernel)⟩,
    flat_real _ rfl rfl (by decide) (by decide +kernel), by decide +kernel,
    flat_real _ rfl rfl (by decide) (by decide +kernel)⟩

theorem test_meets_SelectorStores :
    (let s := begun user
    Ready s ∧ s.cr0.pe = true ∧ s.tr.valid = true ∧ s.os = .w32 ∧ ∃ u w1 w2 w3 w4,
      draw16 s.work = .ok u w1 ∧ write16 at32 s.ldtr.selector s.work = .ok () w2 ∧
      write16 (.reg .ebx) s.tr.selector s.work = .ok () w3 ∧
      write16 at32 (lo16 s.cr0.toBits ||| (u &&& 0xFFE0#16)) w1 = .ok () w4) ∧
    SegReg.ofNum 5 = some .gs ∧ real.os = .w16 :=
  ⟨⟨ready_begun _ _ (by decide), rfl, rfl, by decide +kernel, _, _, _, _, _, answers (by decide +kernel),
    ran (by decide +kernel), ran (by decide +kernel), ran (by decide +kernel)⟩, by decide, by decide +kernel⟩

/-- A null selector, an LDT descriptor and an available TSS descriptor in GDT entry 6. -/
theorem test_meets_LoadLdtrTr :
    (let s := begun prot
    Ready s ∧ s.cr0.pe = true ∧ s.cpl = 0 ∧ ∃ sel w, read16 (.reg .ebx) s.work = .ok sel w) ∧
    isNull 0#16 = true ∧ isNull 0x30#16 = false ∧ selTi 0x30#16 = false ∧
    (∃ d w, fetchDesc 0x30#16 .gp (entry prot 6 0x3000000F 0x8200).work = .ok d w ∧ (!d.s && d.p && d.typ == 2) = true) ∧
    (∃ d w, fetchDesc 0x30#16 .gp (entry prot 6 0x20000067 0x8900).work = .ok d w ∧
      (!d.s && d.p && d.typ == 9 && went (setAccessBits 0x30#16 2 w)) = true) :=
  ⟨⟨ready_begun _ _ (by decide), rfl, rfl, _, _, answers (by decide +kernel)⟩, by decide, by decide, by decide,
    fetches_iff (by decide +kernel), fetches_iff (by decide +kernel)⟩

theorem test_meets_ControlRegisterWrites :
    (let s := begun (put prot .eax 0x80000000)
    Ready s ∧ s.effCpl = 0 ∧ bit (s.reg .eax) 31 = true ∧ bit (s.reg .eax) 0 = false ∧
      ∃ v w, read16 at32 s.work = .ok v w) ∧
    (bit (prot.reg .eax) 31 = true → bit (prot.reg .eax) 0 = true) ∧ bit ((put prot .eax 0x80000001).reg .eax) 0 = true ∧
    real.cr0.pe = false :=
  ⟨⟨ready_begun _ _ (by decide), by decide +kernel, by decide +kernel, by decide +kernel, _, _,
    answers (by decide +kernel)⟩, by decide +kernel, by decide +kernel, rfl⟩

/-- The numbers next to those that exist; and ICE-386 in use. -/
theorem test_meets_SystemRegisterReads :
    (Ready (begun real 3) ∧ (begun real 3).effCpl = 0 ∧ real.env.ice = false) ∧
      ((1 : BitVec 3) ≠ 0 ∧ (1 : BitVec 3) ≠ 2 ∧ (1 : BitVec 3) ≠ 3) ∧ ((5 : BitVec 3) ≠ 6 ∧ (5 : BitVec 3) ≠ 7) ∧
      { real.env with ice := true }.ice = true :=
  ⟨⟨ready_begun _ _ (by decide), by decide +kernel, rfl⟩, by decide, by decide, rfl⟩

/-- 95, B40.28: a write to the TLB and a lookup that finds it and one that does not; a write without HT, undefined attribute
pairs; and ICE-386 in use. -/
theorem test_meets_DebugTestHalt :
    let v := 0x12345D40#32
    let e : TlbEntry := { page := 0x12345#20, frame := 0x345#20, v := true, d := true, u := true, w := true, block := 0, written := true }
    (let s := begun { put prot .eax 0x12345D40 with tr7 := 0x345010, tlb := [e] }
    Ready s ∧ s.effCpl = 0 ∧ s.env.ice = false ∧ s.reg .eax = v ∧ bit v 0 = false ∧ bit s.tr7 4 = true ∧
      (bit v 10 ≠ bit v 9 ∧ bit v 8 ≠ bit v 7 ∧ bit v 6 ≠ bit v 5) ∧
      (∀ o ∈ s.tlb, o.written = true → o.page = pageOf v → o.v = bit v 11 → o.block = s.tr7.extractLsb' 2 2) ∧
      ∃ w, tlbWrite v ({ s with tr6 := v &&& 0xFFFFFFE1#32 } : State).work = .ok () w) ∧
    (let s := begun { put prot .eax 0x12345D41 with tlb := [e] }
    let v := 0x12345D41#32
    s.reg .eax = v ∧ bit v 0 = true ∧ bit v 11 = true ∧
      (s.tlb.filter fun o => o.page == pageOf v && o.v == bit v 11 && o.d == bit v 10 && o.u == bit v 8 && o.w == bit v 6) = [e] ∧
      (prot.tlb.filter fun o => o.page == pageOf v && o.v == bit v 11 && o.d == bit v 10 && o.u == bit v 8 && o.w == bit v 6) = [] ∧
      ∃ w, tlbLookup v ({ s with tr6 := v &&& 0xFFFFFFE1#32 } : State).work = .ok () w) ∧
    bit prot.tr7 4 = false ∧ ¬ (bit 0x12345C01#32 8 ≠ bit 0x12345C01#32 7) ∧ { prot.env with ice := true }.ice = true :=
  ⟨⟨ready_begun _ _ (by decide), by decide +kernel, rfl, by decide +kernel, by decide +kernel, by decide +kernel,
    by decide +kernel, by decide +kernel, _, ran (by decide +kernel)⟩,
    ⟨by decide +kernel, by decide +kernel, by decide +kernel, by decide +kernel, by decide +kernel, _, ran (by decide +kernel)⟩,
    by decide +kernel, by decide +kernel, rfl⟩

theorem test_meets_ModeChecks :
    (isPrivileged .hlt = true ∧ Ready (begun user) ∧ (begun user).cr0.pe = true ∧ (begun user).cpl ≠ 0) ∧
      isProtectedOnly (.verr (.reg .eax)) = true ∧ Ready (begun real) ∧ (begun real).cr0.pe = false ∧
      isUndefinedForm (.movSregRm 1 (.reg .eax)) = true ∧ isUndefinedForm (.movRmSreg (.reg .eax) 6) = true ∧
      isUndefinedForm (.callFarM (.reg .eax)) = true :=
  ⟨⟨rfl, ready_begun _ _ (by decide), rfl, by decide⟩, rfl, ready_begun _ _ (by decide), rfl, by decide, by decide, rfl⟩

/-- A selector whose descriptor can be used, a null selector, one past the table; ARPL that raises the RPL and not. -/
theorem test_meets_PointerValidation :
    (let s := begun (put (entry prot 9 0xFFFF 0xCF9200) .ebx 0x48)
    Ready s ∧ s.cr0.pe = true ∧ ∃ sel o w1 w, testedSel (.reg .ebx) s.work = .ok sel w1 ∧ testedDesc sel w1 = .ok o w ∧
      (match o with
        | some d => d.s && d.isWritableData && s.cpl == d.dpl
        | none => false) = true) ∧
    (let s := begun prot
    ∃ sel o w1 w, read16 (.reg .ebx) s.work = .ok sel w1 ∧ testedDesc sel w1 = .ok o w ∧ o.isNone = true) ∧
    (let s := begun (put (put prot .eax 0x10) .ecx 0x23)
    ∃ dst w v, read16 (.reg .eax) s.work = .ok dst w ∧ (selRpl dst).toNat < (selRpl (lo16 (s.reg .ecx))).toNat ∧
      (placev s .w16 (.reg .eax)).write ((withRpl dst 3).setWidth 32) w = .ok () v) ∧
    (let s := begun prot
    ∃ dst w, read16 at32 s.work = .ok dst w ∧ (selRpl (lo16 (s.reg .ecx))).toNat ≤ (selRpl dst).toNat) :=
  ⟨⟨ready_begun _ _ (by decide), rfl, _, _, _, _, answers (by decide +kernel), answers (by decide +kernel), by decide +kernel⟩,
    ⟨_, _, _, _, answers (by decide +kernel), answers (by decide +kernel), by decide +kernel⟩,
    ⟨_, _, _, answers (by decide +kernel), by decide +kernel, ran (by decide +kernel)⟩,
    _, _, answers (by decide +kernel), by decide +kernel⟩

theorem test_meets_SoftwareInterrupts :
    (let s := begun (flagged (gate prot 4) 0x802)
    Ready s ∧ s.flags.of = true ∧
      ∃ w, deliver 4 false .none true s.nextEip ({ s with delivering := .benign } : State).work = .ok () w) ∧
    (let s := begun (gate prot 3)
    ∃ w, deliver 3 false .none true s.nextEip ({ s with delivering := .benign } : State).work = .ok () w) ∧
    prot.flags.of = false :=
  ⟨⟨ready_begun _ _ (by decide), by decide +kernel, _, ran (by decide +kernel)⟩,
    ⟨_, ran (by decide +kernel)⟩, rfl⟩

/-- Vector FFH is the last the reset IDTR admits; a stack pointer of 6 is the lowest. -/
theorem test_meets_RealModeDelivery :
    let w := (put real .esp 6).work
    AllRam w.s ∧ w.s.cr0.pe = false ∧ w.s.idtStale = false ∧ Memory.wf w.s.mem = true ∧
      4 * (0xFF#8).toNat + 3 ≤ w.s.idtr.limit.toNat ∧ w.s.segs.ss.db = false ∧ w.s.segs.ss.expandDown = false ∧
      w.s.segs.ss.limit = 0xFFFF#32 ∧ 6 ≤ w.s.sp.toNat :=
  ⟨⟨rfl, fun _ => rfl⟩, rfl, rfl, rfl, by decide +kernel, rfl, by decide +kernel, rfl, by decide +kernel⟩

/-- 95, B60: entries from level 3 to level 0 with an error code and at the same level, in plain memory with room. -/
theorem test_meets_GateEntry :
    let g : Desc := ⟨0x00089030#32, 0x8E00#32⟩
    (AllRam user ∧ Memory.wf user.mem = true ∧
      ∃ v, enterGate g user.flags (.word 0x28) user.eip user.work = .ok () v ∧
        4 * (5 + ErrCode.count (.word 0x28)) ≤ (v.s.stackSize.trunc (user.tssEsp 0)).toNat) ∧
    (AllRam prot ∧ Memory.wf prot.mem = true ∧ 4 * (3 + ErrCode.count (.page 7)) ≤ prot.sp.toNat ∧
      ∃ v, enterGate g prot.flags (.page 7) prot.eip prot.work = .ok () v) ∧
    fetches prot 8#16 (fun t _ => t.isCode && t.a && !t.ec && t.dpl == 0) = true :=
  ⟨⟨⟨rfl, fun _ => rfl⟩, by decide +kernel, _, ran (by decide +kernel), by decide +kernel⟩,
    ⟨⟨rfl, fun _ => rfl⟩, by decide +kernel, by decide +kernel, _, ran (by decide +kernel)⟩, by decide +kernel⟩

theorem test_meets_DoubleFaultShutdown :
    (Exc.cls (.gp 0) = .contributory ∧ Exc.cls (.pf 0 0) = .pageFault ∧
      ∃ w, deliver 8 false (.word 0) false prot.eip
        (Work.start { (Exc.gp 0).note (gate prot 8) with delivering := .double } true) = .ok () w) ∧
    (let e := Exc.pf 0x1234 6
    (gate prot 14).delivering = .none ∧
      ∃ w, deliver e.vector true e.err false prot.eip
        (Work.start { e.note (gate prot 14) with delivering := e.cls } true) = .ok () w) ∧
    (let e := Exc.db 5
    ∃ w, deliver e.vector true e.err false prot.eip
      (Work.start { e.note (gate prot 1) with delivering := e.cls } true) = .ok () w) ∧
    (nextInput { real with inShutdown := true }).reset = false :=
  ⟨⟨by decide, by decide, _, ran (by decide +kernel)⟩, ⟨rfl, _, ran (by decide +kernel)⟩, ⟨_, ran (by decide +kernel)⟩,
    by decide +kernel⟩

/-- INTR with IF; a pending NMI and one that arrives; a debug trap that is due; an instruction breakpoint at CS:EIP in DR1, the
others elsewhere; an access that meets a data breakpoint. -/
theorem test_meets_InterruptRecognition :
    (let s := { flagged real 0x202 with env := { world with intr := some 0x20 } }
    s.env.inputs = [] ∧ s.env.intr = some 0x20 ∧ s.inShutdown = false ∧ s.intShadow = false ∧ s.stiShadow = false ∧
      s.pendingDbg = 0 ∧ s.dr7.extractLsb' 0 8 = 0 ∧ s.pendingNmi = false ∧ s.flags.if_ = true) ∧ real.flags.if_ = false ∧
    (let s := { real with env := { world with inputs :=
      [{ reset := false, nmi := true, intr := none, busy := false, error := false, ice := false, writes := [] }] } }
    (nextInput s).reset = false ∧ (nextInput s).writes = [] ∧ s.inShutdown = false ∧ s.intShadow = false ∧
      s.pendingDbg = 0 ∧ s.dr7.extractLsb' 0 8 = 0 ∧ (nextInput s).nmi = true ∧ s.nmiInService = false) ∧
    { real with nmiInService := true }.nmiInService = true ∧ { real with pendingDbg := 0x4000 }.pendingDbg ≠ 0 ∧
    (let s := { real with dr1 := 0x10100, dr7 := 4 }
    s.halted = false ∧ s.flags.rf = false ∧
      (1 < 4 ∧ dr7Enabled s.dr7 1 = true ∧ dr7Rw s.dr7 1 = 0 ∧ s.drAddr 1 = s.segs.cs.base + s.eip) ∧
      ∀ n, n < 4 → dr7Enabled s.dr7 n = false → ¬ (dr7Rw s.dr7 n = 0 ∧ s.drAddr n = s.segs.cs.base + s.eip)) ∧
    (let s := { real with dr0 := 0x2000, dr7 := 0x000D0001 }
    s.work.quiet = false ∧ s.work.hitOff = 0 ∧ dr7Rw s.dr7 0 = 1 ∧
      0x2003#32 ∈ span 0x2003#32 2 ∧ 0x2003#32 ∈ span (s.drAddr 0 &&& ~~~(BitVec.ofNat 32 3)) 4) := by
  decide +kernel

/-- Real-address mode with the stack below its end, and a return to the same level in protected mode. -/
theorem test_meets_IretCompletes :
    (let s := begun (put real .esp 0xFFFA) 1
    Ready s ∧ Memory.wf s.mem = true ∧ s.cr0.pe = false ∧ FlatAccess s .ss s.sp (3 * s.os.bytes) false ∧
      s.sp.toNat + 3 * s.os.bytes ≤ 2 ^ s.stackSize.bits ∧ (s.stackItem s.os.bytes 0).toNat ≤ s.segs.cs.limit.toNat) ∧
    (let s := begun (poke prot 0x7000 (dw 0x1000 ++ dw 8 ++ dw 0x246)) 1
    Ready s ∧ Memory.wf s.mem = true ∧ s.flags.nt = false ∧ FlatAccess s .ss s.sp (3 * s.os.bytes) false ∧ bit (s.stackItem s.os.bytes 2) 17 = false ∧
      lo16 (s.stackItem s.os.bytes 1) = 8#16 ∧
      ∃ c w v, returnCs 8#16 s.work = .ok c w ∧ selRpl 8#16 = s.cpl ∧
        (s.stackItem s.os.bytes 0).toNat ≤ c.effLimit.toNat ∧ setAccessed 8#16 c w = .ok () v) :=
  ⟨⟨ready_begun _ _ (by decide), by decide +kernel, rfl, flat_real _ rfl rfl (by decide) (by decide +kernel),
    by decide +kernel, by decide +kernel⟩, ready_begun _ _ (by decide), by decide +kernel, rfl,
    flat_real _ rfl rfl (by decide) (by decide +kernel), by decide +kernel, by decide +kernel, _, _, _,
    answers (by decide +kernel), by decide, by decide +kernel, ran (by decide +kernel)⟩

/-- 95, B46: a return from level 0 to level 3. -/
theorem test_meets_IretCompletes_outer :
    let s := begun (poke prot 0x7000 (dw 0x1000 ++ dw 0x1B ++ dw 0x3202 ++ dw 0x5000 ++ dw 0x23)) 1
    (Memory.wf s.mem = true ∧ FlatAccess s .ss s.sp (3 * s.os.bytes) false ∧ FlatAccess s .ss s.sp (5 * s.os.bytes) false) ∧
      bit (s.stackItem s.os.bytes 2) 17 = false ∧
      lo16 (s.stackItem s.os.bytes 1) = 0x1B#16 ∧ selRpl 0x1B#16 ≠ s.cpl ∧ lo16 (s.stackItem s.os.bytes 4) = 0x23#16 ∧
      ∃ c w d x v, returnCs 0x1B#16 s.work = .ok c w ∧ returnSs 0x23#16 (selRpl 0x1B#16) w = .ok d x ∧
        (s.stackItem s.os.bytes 0).toNat ≤ c.effLimit.toNat ∧
        returnOuter 0x1B#16 0x23#16 c d (s.stackItem s.os.bytes 0) (s.stackItem s.os.bytes 3) 0 x = .ok () v :=
  ⟨⟨by decide +kernel, flat_real _ rfl rfl (by decide) (by decide +kernel),
    flat_real _ rfl rfl (by decide) (by decide +kernel)⟩, by decide +kernel, by decide +kernel, by decide,
    by decide +kernel, _, _, _, _, _, answers (by decide +kernel), answers (by decide +kernel), by decide +kernel,
    ran (by decide +kernel)⟩

/-- 95, B46.7: the index at the upper bound, and one below the lower bound. -/
theorem test_meets_BoundCompletes :
    (let s := begun (put (poke real 0x2000 [0, 0, 9, 0]) .eax 9)
    Ready s ∧ ∃ p w, memRead2 (s.dataSeg (defaultSeg (.abs16 0x2000#16))) (effAddr s (.abs16 0x2000#16)) s.os.bytes s.os.bytes
      s.work = .ok p w ∧ (s.os.sext p.1).toInt ≤ (s.os.sext (s.reg .eax)).toInt ∧
      (s.os.sext (s.reg .eax)).toInt = (s.os.sext p.2).toInt) ∧
    (Size.w16.sext ((put real .eax 0xFFFF).reg .eax)).toInt < 0 :=
  ⟨⟨ready_begun _ _ (by decide), _, _, answers (by decide +kernel), by decide +kernel, by decide +kernel⟩, by decide +kernel⟩

/-- 95, B44: a task whose state is at 2100H. -/
def tasked : State :=
  poke (poke (entry (entry prot 5 0x20000067 0x8B00) 6 0x21000087 0x8900) 0x2120 (dw 0x12000 ++ dw 2 ++ dw 0xAA)) 0x2148
    (dw 0x10 ++ dw 8 ++ dw 0x10 ++ dw 0x10)

theorem span_bounds {a x : BitVec 32} {n : Nat} (h : a.toNat + n < 2 ^ 32) (hx : x ∈ span a n) :
    a.toNat ≤ x.toNat ∧ x.toNat < a.toNat + n := by
  unfold span at hx
  simp only [List.mem_map, List.mem_range] at hx
  obtain ⟨i, hi, rfl⟩ := hx
  simp only [BitVec.toNat_add, BitVec.toNat_ofNat]
  omega

/-- No access byte of the GDT lies in the two task state segments, and no LDT is in use. -/
theorem tasked_apart {t : State} (hg : t.gdtr = tasked.gdtr) (hl : t.ldtr.valid = false) :
    TasksApart tasked t 0x30#16 0x2100#32 := by
  have hb : tasked.tr.base = 0x2000#32 := rfl
  have low : ∀ x : BitVec 32, x.toNat < 0x2000 → x ∉ span tasked.tr.base 104 ++ span 0x2100#32 104 := by
    intro x hx hm
    rw [hb, List.mem_append] at hm
    rcases hm with hm | hm
    · have := (span_bounds (by decide) hm).1
      exact absurd this (by simpa using hx)
    · have := (span_bounds (by decide) hm).1
      have h2 : (0x2100#32).toNat = 0x2100 := rfl
      omega
  refine ⟨fun a ha hm => ?_, ?_, fun sel hs => low _ ?_⟩
  · rw [hb] at ha
    have h1 := (span_bounds (by decide) ha).2
    have h2 := (span_bounds (by decide) hm).1
    have h3 : (0x2000#32).toNat = 0x2000 := rfl
    have h4 : (0x2100#32).toNat = 0x2100 := rfl
    omega
  · rintro sel (rfl | rfl)
    · exact low _ (by decide +kernel)
    · exact low _ (by decide +kernel)
  · unfold descAddr at hs
    unfold accessByte
    cases ht : selTi sel with
    | true =>
      rw [ht, if_pos rfl, hl] at hs
      simp at hs
    | false =>
      rw [ht, if_neg Bool.false_ne_true, hg] at hs
      rw [if_neg Bool.false_ne_true, hg]
      have h3 : (selOffset sel).toNat + 7 ≤ tasked.gdtr.limit.toNat := by
        by_contra hc
        rw [if_neg hc] at hs
        cases hs
      have h4 : tasked.gdtr.limit.toNat = 0x7F := rfl
      have h5 : tasked.gdtr.base = 0x1000#32 := rfl
      rw [h5, show (5 : BitVec 32) = 5#32 from rfl]
      simp only [BitVec.toNat_add, BitVec.toNat_ofNat]
      omega

/-- The small tasks lie apart, each kind of switch goes through; with no LDT every descriptor lies in the GDT. -/
theorem test_meets_TaskSwitchResult :
    (AllRam tasked ∧ Memory.wf tasked.mem = true) ∧
    (∃ v, taskSwitch .jmp 0x30#16 ⟨0x21000087#32, 0x8900#32⟩ 0x10007#32 tasked.flags tasked.work = .ok () v ∧
      TasksApart tasked v.s 0x30#16 0x2100#32) ∧
    (∃ v, taskSwitch .call 0x30#16 ⟨0x21000087#32, 0x8900#32⟩ 0x10007#32 tasked.flags tasked.work = .ok () v ∧
      TasksApart tasked v.s 0x30#16 0x2100#32) ∧
    ∃ v, taskSwitch .iret 0x30#16 ⟨0x21000087#32, 0x8B00#32⟩ 0x10007#32 tasked.flags tasked.work = .ok () v ∧
      TasksApart tasked v.s 0x30#16 0x2100#32 :=
  ⟨⟨⟨rfl, fun _ => rfl⟩, by decide +kernel⟩, ⟨_, ran (by decide +kernel), tasked_apart (by decide +kernel) (by decide +kernel)⟩,
    ⟨_, ran (by decide +kernel), tasked_apart (by decide +kernel) (by decide +kernel)⟩, _, ran (by decide +kernel),
    tasked_apart (by decide +kernel) (by decide +kernel)⟩

/-- IRET with NT = 1: a back link to a busy TSS, one to an 80286 TSS, one to a data segment, and a null one. -/
theorem test_meets_IretCompletes_nested :
    (let s := begun { flagged (poke (entry tasked 6 0x21000087 0x8B00) 0x2000 [0x30, 0]) 0x4002 with env := world } 1
    Ready s ∧ s.cr0.pe = true ∧ s.flags.nt = true ∧ s.tr.valid = true ∧
      ∃ link w d u v, linRead s.tr.base 2 false s.work = .ok link w ∧ lo16 link = 0x30#16 ∧
        fetchDesc 0x30#16 .ts w = .ok d u ∧ (!d.s && d.typ == 0xB) = true ∧
        taskSwitch .iret 0x30#16 d s.nextEip s.flags u = .ok () v) ∧
    (∃ d w, fetchDesc 0x30#16 .gp (entry prot 6 0x21000087 0x8300).work = .ok d w ∧ (!d.s && d.typ == 3) = true) ∧
    (∃ d w, fetchDesc 0x10#16 .gp prot.work = .ok d w ∧ d.s = true) ∧ isNull 0#16 = true ∧ selTi 4#16 = true :=
  ⟨⟨ready_begun _ _ (by decide), rfl, by decide +kernel, rfl, _, _, _, _, _, answers (by decide +kernel), by decide +kernel,
    answers (by decide +kernel), by decide +kernel, ran (by decide +kernel)⟩, fetches_iff (by decide +kernel),
    fetches_iff (by decide +kernel), by decide, by decide⟩

/-- Far transfers to tasks: a TSS, a task gate, an LDT selector, formats of the 80286, and a descriptor of no use. -/
theorem test_meets_FarJumpToCode_task :
    (let s := begun (entry tasked 9 0x300000 0x8500) 7
    (∃ d w v, fetchDesc 0x30#16 .gp s.work = .ok d w ∧ (!d.s && d.typ == 9 && d.dpl == 0) = true ∧
      taskSwitch TransferKind.call.switch 0x30#16 d s.nextEip s.flags w = .ok () v) ∧
    ∃ d w v, fetchDesc 0x48#16 .gp s.work = .ok d w ∧ (!d.s && d.typ == 5 && d.p && d.dpl == 0) = true ∧
      switchThroughGate TransferKind.jmp.switch d.gateSel s.nextEip s.flags w = .ok () v) ∧
    fetches { entry prot 9 0x300000 0x8900 with ldtr := { selector := 0x10, base := 0x1000, limit := 0x7F, valid := true } } 0x4C#16
      (fun d _ => !d.s && d.typ == 9) = true ∧
    fetches (entry user 9 0x300000 0x0500) 0x48#16 (fun d _ => d.typ == 5 && !d.p && d.dpl == 0) = true ∧
    fetches (entry prot 9 0x300000 0x8400) 0x48#16 (fun d _ => !d.s && d.typ == 4) = true ∧
    fetches (entry prot 9 0x300000 0x8200) 0x48#16 (fun d _ => !d.isCode && !d.s && d.typ == 2) = true ∧
    fetches prot 0x10#16 (fun d _ => !d.isCode && d.s) = true :=
  ⟨⟨⟨_, _, _, answers (by decide +kernel), by decide +kernel, ran (by decide +kernel)⟩, _, _, _, answers (by decide +kernel),
    by decide +kernel, ran (by decide +kernel)⟩, by decide +kernel, by decide +kernel, by decide +kernel, by decide +kernel,
    by decide +kernel⟩

theorem test_meets_WaitEsc :
    (let s := begun (gate { prot with cr0 := { prot.cr0 with em := true, ts := true, mp := true } } 7)
    Ready s ∧ s.cr0.em = true ∧ s.cr0.mp = true ∧ s.cr0.ts = true ∧ s.delivering = .none ∧
      ∃ w, deliver 7 true .none false s.eip (Work.start { s.faulting with delivering := .benign } true) = .ok () w) ∧
    (let s := begun { prot with env := { world with busy := true, error := true } }
    Ready s ∧ s.cr0.mp = false ∧ s.cr0.em = false ∧ s.cr0.ts = false ∧ s.env.busy = true ∧ s.env.error = true) :=
  ⟨⟨ready_begun _ _ (by decide), rfl, rfl, rfl, rfl, _, ran (by decide +kernel)⟩, ready_begun _ _ (by decide), rfl, rfl,
    rfl, rfl, rfl⟩

/-- PE has just changed under a wide CS, or nothing has. -/
theorem test_meets_StepRunsDecoded_resized :
    let s := { real with prefetch := { Prefetch.empty with pe := true, resized := true } }
    QuietBoundary s ∧ s.prefetch.resized = true ∧ real.prefetch.resized = false :=
  ⟨⟨rfl, rfl, rfl, rfl, rfl, by decide, rfl⟩, rfl, rfl⟩

theorem test_meets_PageWalk_update : Memory.wf (paged 0x200007 0xABC007).mem = true := by decide +kernel

/-- The limit of CS is 7FFFH, and 8000H stands in memory. -/
def narrow : State :=
  { poke real 0x2000 [0, 0x80] with segs := { real.segs with cs := { real.segs.cs with limit := 0x7FFF } } }

/-- Targets of JMP and CALL one beyond the limit of CS, in memory and relative. -/
theorem test_meets_CallRet_beyond :
    let s := begun narrow
    (∃ v w, (placev s s.os at16).read s.work = .ok v w ∧ s.segs.cs.limit.toNat < v.toNat) ∧
      callTarget s (.callRel 0x7EFE) = some 0x8000#32 ∧ s.segs.cs.limit.toNat < (0x8000#32).toNat ∧ Ready s :=
  ⟨⟨_, _, answers (by decide +kernel), by decide +kernel⟩, by decide +kernel, by decide +kernel,
    ready_begun _ _ (by decide)⟩

/-- A selector of the LDT, the first past the GDT, and descriptors of no use: data, an LDT and a TSS not present, an 80286 TSS;
and that memory is plain. -/
theorem test_meets_LoadLdtrTr_bad :
    selTi 0x34#16 = true ∧ prot.gdtr.limit.toNat < (selOffset 0x80#16).toNat + 7 ∧
    fetches (entry prot 6 0xFFFF 0x9200) 0x30#16 (fun d _ => d.s) = true ∧
    fetches (entry prot 6 0x0F 0x0200) 0x30#16 (fun d _ => !d.s && d.typ == 2 && !d.p) = true ∧
    fetches (entry prot 6 0x67 0x0900) 0x30#16 (fun d _ => !d.s && d.typ == 9 && !d.p) = true ∧
    fetches (entry prot 6 0x67 0x8100) 0x30#16 (fun d _ => !d.s && d.typ == 1) = true ∧
    AllRam prot ∧ Memory.wf prot.mem = true :=
  ⟨by decide +kernel, by decide +kernel, by decide +kernel, by decide +kernel, by decide +kernel, by decide +kernel,
    ⟨rfl, fun _ => rfl⟩, by decide +kernel⟩

/-- The gate of vector `v` as the processor reads it from `s`. -/
def gateIs (s : State) (v : Nat) (p : Desc → Bool) : Bool :=
  match readDescAt (s.idtr.base + BitVec.ofNat 32 (8 * v)) { s.work with quiet := true } with
  | .ok g _ => p g
  | .error _ _ => false

/-- Vectors 3FH and 40H on the two sides of the IDT limit; gates of every kind the checks tell apart; a switch to a small task
as through a task gate, whose stack takes an error code. -/
theorem test_meets_GateEntry_delivery :
    8 * (0x3F#8).toNat + 7 ≤ prot.idtr.limit.toNat ∧ ¬ 8 * (0x40#8).toNat + 7 ≤ prot.idtr.limit.toNat ∧
    prot.idtStale = false ∧ gateIs (gate prot 3 0x86) 3 (fun g => !g.s && g.typ == 6) = true ∧
    gateIs (gate prot 3 0x9E) 3 (fun g => g.s) = true ∧ gateIs (gate prot 3 0x8C) 3 (fun g => g.typ == 0xC) = true ∧
    gateIs (gate user 3) 3 (fun g => !g.s && g.typ == 0xE && g.dpl.ult user.cpl && g.p) = true ∧
    gateIs (gate prot 3 0x0F) 3 (fun g => !g.s && g.typ == 0xF && !g.p) = true ∧
    (let s := poke tasked 0x2138 (dw 0x5000)
    ∃ v x, switchThroughGate .call 0x30#16 0x10000#32 s.flags { s.work with quiet := true } = .ok () v ∧
      pushErr (.word 0x28) v = .ok () x ∧ v.s.eip.toNat ≤ v.s.segs.cs.limit.toNat ∧ Memory.wf v.s.mem = true ∧
      4 ≤ v.s.sp.toNat) :=
  ⟨by decide, by decide, rfl, by decide +kernel, by decide +kernel, by decide +kernel, by decide +kernel, by decide +kernel,
    _, _, ran (by decide +kernel), ran (by decide +kernel), by decide +kernel, by decide +kernel, by decide +kernel⟩

/-- The breakpoints of `test_meets_InterruptRecognition` are of defined encoding. Enabled ones of undefined encoding: R/W = 10, an
instruction breakpoint with LEN = 01, and LEN = 10 for writes. -/
theorem test_meets_InterruptRecognition_undefined :
    (∀ n, n < 4 → dr7Enabled 4 n = true → dr7Rw 4 n ≠ 2 ∧ (dr7Rw 4 n = 0 → dr7Len 4 n = 0)) ∧
    (∀ n, n < 4 → dr7Enabled 0x000D0001 n = true → dr7Rw 0x000D0001 n ≠ 2 ∧ dr7Len 0x000D0001 n ≠ 2) ∧
    (dr7Enabled 0x20001 0 = true ∧ dr7Rw 0x20001 0 = 2) ∧
    (dr7Enabled 0x40001 0 = true ∧ dr7Rw 0x40001 0 = 0 ∧ dr7Len 0x40001 0 ≠ 0) ∧
    (dr7Enabled 0x90001 0 = true ∧ dr7Rw 0x90001 0 = 1 ∧ dr7Len 0x90001 0 = 2) ∧
    real.pendingDbg = 0 ∧ real.halted = false ∧ real.flags.rf = false ∧ real.work.quiet = false := by
  decide +kernel

theorem test_meets_InterruptRecognition_sizes : real.prefetch.resized = false ∧ { real with halted := true }.halted = true :=
  ⟨rfl, rfl⟩

/-! ### The last offset -/

/-- The state whose instruction of `n` bytes ends at offset FFFFFFFFH. -/
def atEnd (s : State) (n : Nat) : State := { s with eip := -(BitVec.ofNat 32 n) }

theorem endsPast_begun (s : State) : EndsPast (begun (atEnd s 2)) := ⟨(by decide : 2 ^ 32 ≤ (-(2#32)).toNat + 2), rfl, rfl, rfl⟩

/-- Branches both ways, and CALLs whose push succeeds or lies outside the stack segment. -/
theorem test_meets_ConditionalJump_past :
    (let s := begun (atEnd prot 2)
    EndsPast s ∧ Cond.z.holds s.flags = false ∧ Cond.nz.holds s.flags = true ∧
      (s.os.trunc (s.nextEip + (0xFE#8).signExtend 32)).toNat ≤ s.segs.cs.limit.toNat) ∧
    (let s := begun (atEnd prot 2)
    ∃ w, callTarget s (.callRm (.reg .eax)) = some 0#32 ∧ push s.nextEip s.os.bytes s.work = .ok () w) ∧
    (let s := begun (atEnd { prot with segs := { prot.segs with ss := { prot.segs.ss with limit := 0xFFF } } } 2)
    EndsPast s ∧ ∃ v w1 w, (placev s s.os (.mem (.abs32 0x8000#32))).read s.work = .ok v w1 ∧ v.toNat ≤ s.segs.cs.limit.toNat ∧
      push s.nextEip s.os.bytes w1 = .error (.exc (.ss 0)) w) :=
  ⟨⟨endsPast_begun _, by decide +kernel, by decide +kernel, by decide +kernel⟩, ⟨_, by decide +kernel, answers (by decide +kernel)⟩,
    endsPast_begun _, _, _, _, answers (by decide +kernel), by decide +kernel, raises (by decide +kernel)⟩

/-- A switch that passes its tests and has no offset to save. -/
theorem test_meets_TaskSwitchResult_past :
    let s := begun (atEnd tasked 2)
    let d : Desc := ⟨0x21000087#32, 0x8900#32⟩
    AllRam s ∧ s.tr.valid = true ∧ d.p = true ∧ d.typ ≠ 0xB ∧ 103 ≤ d.effLimit.toNat ∧ EndsPast s :=
  ⟨⟨rfl, fun _ => rfl⟩, rfl, by decide +kernel, by decide +kernel, by decide +kernel, endsPast_begun _⟩

/-- 93 U39: EIP is not incremented past FFFFFFFFH, nor saved past it; a jump to itself there (48 R271) goes to itself. -/
theorem test_past_the_end :
    refuses (run (atEnd prot 1) [0x90]) .eipWrap = true ∧
    next (run (atEnd prot 2) [0xEB, 0xFE]) (fun t => t.eip == 0xFFFFFFFE) = true ∧
    refuses (run (atEnd prot 5) [0xE8, 0, 0, 0, 0]) .eipWrap = true ∧
    refuses (run (atEnd (gate prot 3) 1) [0xCC]) .eipWrap = true ∧
    refuses (run (atEnd tasked 7) [0xEA, 0, 0, 0, 0, 0x30, 0]) .eipWrap = true := by
  decide +kernel

/-- 44 R189, R190, R191; 46 R216; 48 R273: what an instruction raises there comes before the offset after it is needed. -/
theorem test_faults_at_the_end :
    takesCode (atEnd tasked 7) 13 0x30 [0xEA, 0, 0, 0, 0, 0x33, 0] = true ∧
    takesCode (atEnd tasked 7) 13 0x28 [0x9A, 0, 0, 0, 0, 0x28, 0] = true ∧
    takesCode (atEnd (entry tasked 9 0x300000 0x0500) 7) 11 0x48 [0xEA, 0, 0, 0, 0, 0x48, 0] = true ∧
    takesCode (atEnd (flagged (poke tasked 0x2000 [0x10, 0]) 0x4002) 1) 10 0x10 [0xCF] = true ∧
    takesCode (atEnd prot 2) 13 0x202 [0xCD, 0x40] = true ∧
    takesCode (atEnd { user with segs := { user.segs with ss := { user.segs.ss with limit := 0xFFF } } } 5) 12 0
      [0xE8, 0, 0, 0, 0] = true := by
  decide +kernel

/-- 61 R320: an undefined encoding is refused where it is evaluated. A write breakpoint with LEN = 10 stops neither NOP nor a read,
one of R/W = 11 stops a read; an instruction breakpoint with LEN = 01 stops the boundary, and where RF passes over that no access. -/
theorem test_undefined_breakpoint_evaluated :
    let s (dr7 : BitVec 32) : State := { prot with dr7 := dr7 }
    let goes (o : Host.Outcome State Fault Refusal) : Bool := next o fun _ => true
    let load := [0xA1, 0, 0x80, 0, 0]
    goes (run (s 0x90001) [0x90]) = true ∧ goes (run (s 0x90001) load) = true ∧
    refuses (run (s 0x90001) [0xA3, 0, 0x80, 0, 0]) .breakpointEncoding = true ∧
    refuses (run (s 0xB0001) load) .breakpointEncoding = true ∧ refuses (run (s 0x40001) [0x90]) .breakpointEncoding = true ∧
    goes (run { s 0x40001 with flags := { prot.flags with rf := true } } load) = true ∧
    refuses (run (s 0x20001) [0x90]) .breakpointEncoding = true := by
  decide +kernel

/-! ### Hazards and loops -/

/-- Where `tasked` goes on after a debug trap for T = 1, with a task gate for vector 1 to the current task. -/
def looping : State :=
  { poke (poke (poke tasked 0x2064 [1]) 0x3008 (dw 0x280000 ++ dw 0x8500)) 0x2020 (dw 0x10000) with pendingDbg := 0x8000 }

/-- 61 R325: the handler's own TSS has T = 1, so the processor delivers exception 1 for ever. -/
theorem test_debug_task_loops :
    next (step looping) (fun t => t.pendingDbg == 0x8000 && t.eip == 0x10000 && t.tr.selector == 0x28 && t.dr6 == 0x8000 &&
      next (step t) fun u => u.pendingDbg == 0x8000 && u.eip == t.eip) = true := by
  decide +kernel

/-- 61 R326: a general detect fault may report disabled breakpoints at its own address; here the free value reports DR0's. -/
theorem test_general_detect_reports :
    next (run (gate { prot with dr0 := 0x10000, dr1 := 0x10000, env := { world with ice := true } } 1) [0x0F, 0x21, 0xC0])
      (fun t => t.eip == 0x9010 && t.dr6 == 0x2001) = true := by
  decide +kernel

/-- 40 R142: a TLB write with an undefined attribute pair (U = U# = 0) writes either attribute; a lookup with one is refused. -/
theorem test_tlb_undefined_pair :
    let writes (b : BitVec 32) : Bool :=
      let s := { put prot .eax 0x12345C40 with tr7 := 0x345010, env := { world with draws := b :: world.draws } }
      next (run s [0x0F, 0x26, 0xF0]) fun t => t.tlb == [{
        page := 0x12345, frame := 0x345, v := true, d := true, u := bit b 0, w := true, block := 0, written := true }]
    writes 0 = true ∧ writes 1 = true ∧ refuses (run (put prot .eax 0x12345C41) [0x0F, 0x26, 0xF0]) .tlbAttributes = true := by
  decide +kernel

/-- Two page directories, at 20000H and 30000H, that put the linear page of the code at 10000H (INC EAX) and 12000H (DEC EAX). -/
def remapped : State :=
  let s := poke (poke (poke prot 0x20000 (dw 0x21027)) 0x30000 (dw 0x31027)) 0x21040 (dw 0x10027)
  let s := poke (poke (poke s 0x31040 (dw 0x12027)) 0x10000 [0x40]) 0x12000 [0x48]
  { s with cr0 := { s.cr0 with pg := true }, pdbr := 0x20 }

/-- 20 R103: after a load of CR3, or with a TLB entry replaced, a byte is fetched by the mapping in force or was prefetched before. -/
theorem test_remapped_ahead :
    let eax (p : Prefetch) (b : BitVec 32) : Option (BitVec 32) :=
      match step { remapped with prefetch := p, env := { world with draws := [b] } } with
      | .next t => some t.gpr.eax
      | _ => none
    let old : Prefetch := { Prefetch.empty with maps := [{ pg := true, pdbr := 0x30, tlb := [], first := 0, last := 0 }] }
    let gone : Prefetch := { Prefetch.empty with gone := [
      { page := 0x10, frame := 0x12, v := true, d := false, u := true, w := true, block := 0, written := false }] }
    [eax old 0, eax old 1, eax gone 0, eax gone 1] = [some 1, some (-1), some 1, some (-1)] := by
  decide +kernel

/-- 20 R103: with paging off again, the tables that CR3 now names were never in force for the replaced entry. -/
theorem test_replaced_entry_alone :
    let e : TlbEntry := { page := 0x10, frame := 0x10, v := true, d := false, u := true, w := true, block := 0, written := false }
    let s := { remapped with
      cr0 := prot.cr0, pdbr := 0x40, prefetch := { Prefetch.empty with gone := [e] }
      env := { world with draws := [0], physMap := [{ base := 0x40000, size := 0x1000, kind := .nothing }] } }
    next (step s) (fun t => t.gpr.eax == 1) = true := by
  decide +kernel

/-- 20 R94: the result of a write that walked because of D = 0 enters the TLB in place of the old entry or stays out. -/
theorem test_dirty_walk_enters_or_stays :
    let e (d : Bool) : TlbEntry := { page := 5, frame := if d then 7 else 6, v := true, d := d, u := true, w := true,
                                     block := 0, written := false }
    let fill (b : BitVec 32) : Option (List TlbEntry × List TlbEntry) :=
      match enterTlb (e true) { prot with
          cr0 := { prot.cr0 with pg := true }, tlb := [e false], env := { world with draws := [b] } }.work with
      | .ok _ w => some (w.s.tlb, w.s.prefetch.gone)
      | .error _ _ => none
    fill 0 = some ([e true], [e false]) ∧ fill 1 = some ([e false], []) := by
  decide +kernel

/-- 20 R94: any entry may be dropped, also where the tables give the same frame: one with D = 0 under a table entry with D = 1,
which a walk enters with D = 1 so that a write then walks no more, and one of the test registers, whose place is lost. -/
theorem test_entry_dropped :
    let e (d written : Bool) : TlbEntry := { page := 0xC0801, frame := 0xABC, v := true, d := d, u := true, w := true,
                                             block := 2, written := written }
    let s := paged 0x200027 0xABC067
    let reads (t : List TlbEntry) (b : BitVec 32) : Option (List TlbEntry) :=
      match linAccess 0xC0801000#32 1 false true { s with tlb := t, env := { world with draws := [b, 0] } }.work with
      | .ok pas w => if pas == [0xABC000] then some w.s.tlb else none
      | .error _ _ => none
    let walked : TlbEntry := { e true false with block := 0 }
    reads [e false false] 0 = some [walked] ∧ reads [e false false] 1 = some [e false false] ∧
      reads [e true true] 0 = some [walked] ∧ reads [e true true] 1 = some [e true true] := by
  decide +kernel

/-- 20 R103, 70 R344: where the mapping before a change of PG puts the next instruction where nothing responds, the queue cannot
hold it: a JMP is fetched by the mapping in force, any other instruction is refused. -/
theorem test_nothing_prefetched :
    let s := { remapped with
      pdbr := 0x30, env := { world with physMap := [{ base := 0x10000, size := 0x1000, kind := .nothing }] }
      prefetch := { Prefetch.empty with pg := true, maps := [{ pg := false, pdbr := 0x30, tlb := [], first := 0, last := 0 }] } }
    next (step (poke s 0x12000 [0xEB, 0x10])) (fun t => t.eip == 0x10012) = true ∧ refuses (step s) .jumpAfterPg = true := by
  decide +kernel

/-- 42 R155, 61 R326: after MOV SS with TF = 1 no exception 1 is delivered, so a disabled breakpoint that it met reports
nothing: DR6 keeps BS alone. -/
theorem test_shadow_reports_no_disabled :
    next (run { poke prot 0x8000 [0x10] with
        dr0 := 0x8000, dr7 := 0x00030000, flags := { prot.flags with tf := true } } [0x8E, 0x15, 0, 0x80, 0, 0])
      (fun t => next (step (poke { t with flags := { t.flags with tf := false } } 0x10006 [0x90]))
        fun u => u.dr6 == 0x4000) = true := by
  decide +kernel

/-! ### Tests and their exceptions -/

/-- LEA after LOCK, whose first byte tells; and a group opcode, whose ModR/M byte does. -/
theorem test_meets_LockRaisesUd_outside :
    decode .w16 .w16 [0x8D#8, 0x07#8] = .outside "LEA" ∧ (locked real).insn.lock = true ∧
    (locked real).prefetch.pe = false ∧ (locked real).prefetch.pg = false ∧
    (let s := { placeInstr real [0xF0#8, 0x8D#8, 0x07#8] with insn := { Insn.empty with lock := true, len := 1 } }
    ∃ w, fetchInstr 16 [] true s.work = .error (.exc .ud) w) :=
  ⟨by decide +kernel, rfl, rfl, rfl, _, raises (by decide +kernel)⟩

/-- 30 R120 (c): LOCK before an instruction outside the subset. -/
theorem test_lock_outside : takes prot 6 [0xF0, 0x8D, 0x00] = true := by decide +kernel

/-- Paged memory as `paged`, the page after it mapped as well. -/
def twoPages : State := poke (paged 0x200007 0xABC007) 0x200008 (dw 0xABD007)

/-- An access inside a page, one that ends at its end, one across it, one whose second page is absent; an entry of the TLB that is
used, one that forbids a user's write, one with D = 0, which serves no write, and one that may have been dropped. -/
theorem test_meets_PageWalk_access :
    (twoPages.cr0.pg = true ∧ (∀ a, twoPages.kindAt a = .ram) ∧ Memory.wf twoPages.mem = true ∧ twoPages.tlb = []) ∧
    (∃ x u, pageWalk 0xC0801FFC#32 true true twoPages.work = .ok x twoPages.work ∧ 4 ≤ 4096 - (0xC0801FFC#32).toNat % 4096 ∧
      commitXlat x twoPages.work = .ok () u) ∧
    (∃ x y u v, 4096 - (0xC0801FFD#32).toNat % 4096 < 4 ∧
      pageWalk 0xC0801FFD#32 false true twoPages.work = .ok x twoPages.work ∧
      pageWalk (0xC0801FFD#32 + BitVec.ofNat 32 3) false true twoPages.work = .ok y twoPages.work ∧
      commitXlat x twoPages.work = .ok () u ∧ commitXlat y u = .ok () v) ∧
    (∃ e v, pageWalk (0xC0801FFD#32 + BitVec.ofNat 32 3) false true (paged 0x200007 0xABC007).work = .error (.exc e) v) ∧
    (let e : TlbEntry := { page := 0xC0801, frame := 0x777, v := true, d := false, u := true, w := false, block := 0, written := false }
    let s := { twoPages with tlb := [e], env := { world with draws := [1] } }
    e ∈ s.tlb ∧ e.v = true ∧ e.page = pageOf 0xC0801000#32 ∧ (∀ o ∈ s.tlb, o.v = true → o.page = pageOf 0xC0801000#32 → o = e) ∧
      s.env.draws = [1#32] ∧ bit 1#32 0 = true ∧ ¬ (true = true → e.d = true) ∧ ({ e with d := true } : TlbEntry).w = false) ∧
    (let e : TlbEntry := { page := 0xC0801, frame := 0xABC, v := true, d := true, u := true, w := true, block := 0, written := false }
    let s := { twoPages with tlb := [e], env := { world with draws := [0] } }
    (e ∈ s.tlb ∧ e.v = true ∧ e.page = pageOf 0xC0801000#32 ∧ (s.tlb.filter fun o => o.v && o.page == pageOf 0xC0801000#32) = [e]) ∧
      s.env.draws = [0#32] ∧ bit 0#32 0 = false ∧ e.d ≠ bit (s.valueAt 0x200004#32 4) 6 ∧
      s.pdbr ++ ((0xC0801000#32).extractLsb' 22 10 ++ 0#2) = 0x100C08#32 ∧ s.valueAt 0x100C08#32 4 = 0x200007#32 ∧
      ∃ x w v, pageWalk 0xC0801000#32 true true s.work = .ok x w ∧ commitXlat x w = .ok () v) :=
  ⟨⟨rfl, fun _ => rfl, by decide +kernel, rfl⟩,
    ⟨_, _, (answers (by decide +kernel)).trans (by congr 1), by decide +kernel, ran (by decide +kernel)⟩,
    ⟨_, _, _, _, by decide +kernel, (answers (by decide +kernel)).trans (by congr 1), (answers (by decide +kernel)).trans (by congr 1), ran (by decide +kernel),
      ran (by decide +kernel)⟩, ⟨.pf 0xC0802000 4, _, raises (by decide +kernel)⟩, by decide +kernel,
    by decide +kernel, rfl, by decide, by decide +kernel, by decide +kernel, by decide +kernel,
    _, _, _, answers (by decide +kernel), ran (by decide +kernel)⟩

/-- 20 R92: an access across two pages whose second one is absent leaves the accessed bits of the first as they are. -/
theorem test_second_page_absent :
    (let s := paged 0x200007 0xABC007
    match linAccess 0xC0801FFE#32 4 false true s.work with
    | .error (.exc (.pf la c)) w => la == 0xC0802000 && c == 4 && w.s.mem == s.mem
    | _ => false) = true := by
  decide +kernel

/-- The first selector past the GDT, and descriptors with and without their accessed bit. -/
theorem test_meets_LoadSegEffect_outside :
    (prot.cr0.pe = true ∧ isNull 0x80#16 = false ∧ descAddr prot.work.s 0x80#16 = none ∧ (descAddr prot.work.s 0x78#16).isSome = true) ∧
    AllRam prot ∧ Memory.wf prot.mem = true ∧ (⟨0xFFFF#32, 0xCF9200#32⟩ : Desc).a = false ∧ (⟨0xFFFF#32, 0xCF9300#32⟩ : Desc).a = true :=
  ⟨by decide +kernel, ⟨rfl, fun _ => rfl⟩, by decide +kernel, by decide, by decide⟩

/-- LE, GE, and neither; the last offset that has a next one. -/
theorem test_meets_InterruptRecognition_end :
    (let s := { begun { real with eip := 0xFFFFFFFE } 1 with dr7 := 0x100 }
    let w := { s.work with hitOn := 1 }
    w.hitOff = 0 ∧ w.waiting = false ∧ w.s.eip.toNat + w.s.insn.len < 2 ^ 32 ∧ bit s.dr7 8 = true) ∧
    bit 0x200#32 9 = true ∧ bit real.dr7 8 = false ∧ bit real.dr7 9 = false := by
  decide +kernel

/-- `prot` with the stack segment ending at `limit`. -/
def shortStack (limit : BitVec 32) : State :=
  { prot with segs := { prot.segs with ss := { prot.segs.ss with limit := limit } } }

/-- Frames one byte beyond the limit of SS: three, five, two and four items, and the last parameter. -/
theorem test_meets_IretCompletes_limit :
    (Ready (begun (shortStack 0x700A) 1) ∧ (shortStack 0x700A).cr0.pe = true ∧ (shortStack 0x700A).flags.nt = false) ∧
    limitOk (shortStack 0x700A).segs.ss (shortStack 0x700A).sp (3 * 4) = false ∧
    (FlatAccess (shortStack 0x7012) .ss (shortStack 0x7012).sp (3 * 4) false ∧
      limitOk (shortStack 0x7012).segs.ss (shortStack 0x7012).sp (5 * 4) = false) ∧
    limitOk (shortStack 0x7006).segs.ss (shortStack 0x7006).sp (2 * 4) = false ∧
    limitOk (shortStack 0x7012).segs.ss (shortStack 0x7012).sp (4 * 4 + (4#16).toNat) = false :=
  ⟨⟨ready_begun _ _ (by decide), rfl, rfl⟩, by decide +kernel, ⟨flat_real _ rfl rfl (by decide) (by decide +kernel), by decide +kernel⟩,
    by decide +kernel, by decide +kernel⟩

/-- Each check of a returned CS fails somewhere: RPL below CPL, null, past the table, data, absent, DPL against RPL. -/
theorem test_meets_IretCompletes_cs :
    [raised? (returnCs 8 user.work), raised? (returnCs 0 prot.work), raised? (returnCs 0x80 prot.work),
      raised? (returnCs 0x10 prot.work), raised? (returnCs 0x48 (entry prot 9 0xFFFF 0x1A00).work),
      raised? (returnCs 0x0B prot.work), raised? (returnCs 0x48 (entry prot 9 0xFFFF 0xFE00).work)] =
    [some (.gp 8), some (.gp 0), some (.gp 0x80), some (.gp 0x10), some (.np 0x48), some (.gp 8), some (.gp 0x48)] := by
  decide +kernel

/-- Each check of a returned SS: null, past the table, code, absent, DPL against the level, RPL against DPL. -/
theorem test_meets_IretCompletes_ss :
    [raised? (returnSs 3 3 prot.work), raised? (returnSs 0x83 3 prot.work), raised? (returnSs 0x1B 3 prot.work),
      raised? (returnSs 0x4B 3 (entry prot 9 0xFFFF 0x7200).work), raised? (returnSs 0x13 3 prot.work),
      raised? (returnSs 0x20 3 prot.work)] =
    [some (.gp 0), some (.gp 0x80), some (.gp 0x18), some (.ss 0x48), some (.gp 0x10), some (.gp 0x20)] := by
  decide +kernel

/-- An offset one beyond the limit of the new CS, at the same and at an outer level. -/
theorem test_meets_IretCompletes_offset :
    (let s := begun (poke (entry prot 9 0xFFFF 0x9B00) 0x7000 (dw 0x10000 ++ dw 0x48 ++ dw 2)) 1
    ∃ c w, returnCs 0x48#16 s.work = .ok c w ∧ selRpl 0x48#16 = s.cpl ∧ c.effLimit.toNat < (s.stackItem s.os.bytes 0).toNat) ∧
    (let s := begun (poke (entry prot 9 0xFFFF 0xFB00) 0x7000 (dw 0x10000 ++ dw 0x4B ++ dw 2 ++ dw 0x5000 ++ dw 0x23)) 1
    ∃ c w d x, returnCs 0x4B#16 s.work = .ok c w ∧ returnSs 0x23#16 3 w = .ok d x ∧
      c.effLimit.toNat < (s.stackItem s.os.bytes 0).toNat) :=
  ⟨⟨_, _, answers (by decide +kernel), by decide, by decide +kernel⟩, _, _, _, _, answers (by decide +kernel),
    answers (by decide +kernel), by decide +kernel⟩

/-- Far transfers that stop: a selector past the table, a gate to one, no room for the return pointer, an inner stack that is
null, an offset past the limit after it, a task switch and a task gate to a busy task. -/
theorem test_meets_FarJumpToCode_stops :
    (descAddr prot 0x80#16 = none ∧ isNull 0x80#16 = false) ∧
    fetches (entry user 9 0x805000 0xEC00) 0x4B#16 (fun d _ => d.typ == 0xC && d.p && !isNull d.gateSel && (descAddr user d.gateSel).isNone) = true ∧
    raised? (pushReturn 4 (begun (shortStack 0x6FFE)).work) = some (.ss 0) ∧
    raised? (innerStack 0 4 (poke user 0x2008 [0]).work) = some (.ts 0) ∧
    (∃ d v, innerStack 0 4 user.work = .ok (d, 0x10#16, 0x8000#32) v) ∧
    gated (entry user 7 0xFFF 0x9B00) 0x385000 0xEC00 (fun d t => t.p && t.dpl == 0 && t.effLimit.ult d.gateOffset) = true ∧
    raised? (taskSwitch .jmp 0x28 ⟨0x20000067, 0x8B00⟩ 0 prot.flags prot.work) = some (.gp 0x28) ∧
    raised? (switchThroughGate .call 0x28 0 prot.flags prot.work) = some (.gp 0x28) :=
  ⟨by decide +kernel, by decide +kernel, by decide +kernel, by decide +kernel,
    ⟨⟨0xFFFF, 0xCF9300⟩, _, (answers (by decide +kernel)).trans (by congr 1)⟩, by decide +kernel, by decide +kernel, by decide +kernel⟩

/-- Each check of the segment that a gate names, with EXT: null, past the table, data, a DPL above CPL, absent; then no room and
an offset past the limit without a change of level. -/
theorem test_meets_GateEntry_segment :
    (let enters (s : State) (sel off : BitVec 32) : Option Exc :=
      raised? (enterGate ⟨sel <<< 16 ||| off, 0x8E00⟩ s.flags .none s.eip (Work.start s true))
    [enters prot 0 0, enters prot 0x80 0, enters prot 0x10 0, enters prot 0x18 0, enters (entry prot 9 0xFFFF 0x1A00) 0x48 0,
      enters (shortStack 0x6FFE) 8 0, enters (entry prot 9 0xFFF 0x9B00) 0x48 0x1000] =
    [some (.gp 1), some (.gp 0x81), some (.gp 0x11), some (.gp 0x19), some (.np 0x49), some (.ss 1), some (.gp 1)]) := by
  decide +kernel

/-- Each check of an inner stack, with EXT: the TSS one byte short, null, past the table, RPL, code, DPL, absent, no room. -/
theorem test_meets_GateEntry_stack :
    (let stack (s : State) (sel : Nat) : Option Exc :=
      raised? (innerStack 0 5 (Work.start (poke s 0x2008 [sel % 256, sel / 256]) true))
    [stack { prot with tr := { prot.tr with limit := 10 } } 0x10, stack prot 0, stack prot 0x80, stack prot 0x11, stack prot 8,
      stack prot 0x20, stack (entry prot 9 0xFFFF 0x1200) 0x48, stack (entry prot 9 0x7FFE 0x409300) 0x48, stack prot 0x10] =
    [some (.ts 0x29), some (.ts 1), some (.ts 0x81), some (.ts 0x11), some (.ts 9), some (.ts 0x21), some (.ss 0x49),
      some (.ss 0x49), none]) ∧
    prot.tr.valid = true ∧ AllRam prot ∧ 8 * (2#2).toNat + 11 ≤ prot.tr.limit.toNat :=
  ⟨by decide +kernel, rfl, ⟨rfl, fun _ => rfl⟩, by decide +kernel⟩

/-- With no LDT in use, descriptors lie eight bytes apart in the GDT. -/
theorem gdt_apart {t : State} (hg : t.gdtr = tasked.gdtr) (hl : t.ldtr.valid = false) : DescriptorsApart t := by
  have table : ∀ sel la, descAddr t sel = some la → la = 0x1000#32 + selOffset sel ∧ (selOffset sel).toNat < 0x80 ∧
      accessByte t sel = la + 5 := by
    intro sel la h
    unfold descAddr at h
    unfold accessByte
    cases ht : selTi sel with
    | true =>
      rw [ht, if_pos rfl, hl] at h
      simp at h
    | false =>
      rw [ht, if_neg Bool.false_ne_true, hg] at h
      rw [if_neg Bool.false_ne_true, hg]
      have h4 : tasked.gdtr.limit.toNat = 0x7F := rfl
      split at h
      · cases h
        exact ⟨rfl, by omega, rfl⟩
      · cases h
  have eight : ∀ sel, (selOffset sel).toNat % 8 = 0 := by
    intro sel
    unfold selOffset
    rw [BitVec.toNat_setWidth_of_le (by decide), BitVec.toNat_and, show (8 : Nat) = 2 ^ 3 from rfl, ← Nat.and_two_pow_sub_one_eq_mod,
      Nat.and_assoc]
    exact Nat.and_zero _
  intro a b la ha hb hm
  obtain ⟨x, hx⟩ := Option.isSome_iff_exists.mp ha
  obtain ⟨e1, l1, c1⟩ := table a x hx
  obtain ⟨e2, l2, -⟩ := table b la hb
  have m1 := eight a
  have m2 := eight b
  have three : (0x1000#32).toNat = 0x1000 := rfl
  have five : (5 : BitVec 32).toNat = 5 := rfl
  have nx : x.toNat = 0x1000 + (selOffset a).toNat := by
    rw [e1, BitVec.toNat_add]
    omega
  have nl : la.toNat = 0x1000 + (selOffset b).toNat := by
    rw [e2, BitVec.toNat_add]
    omega
  have bounds := span_bounds (by omega) hm
  rw [c1] at bounds ⊢
  have n5 : (x + 5).toNat = x.toNat + 5 := by
    rw [BitVec.toNat_add]
    omega
  rw [n5] at bounds
  have : x = la := BitVec.eq_of_toNat_eq (by omega)
  rw [this]

/-- Each test of a switch in the outgoing task, one that passes them, and the descriptors of the small tasks. -/
theorem test_meets_TaskSwitchResult_outgoing :
    (let leaves (kind : SwitchKind) (lo hi : BitVec 32) : Option Exc :=
      raised? (leaveTask kind 0x30 ⟨lo, hi⟩ 0 tasked.flags tasked.work)
    [leaves .jmp 0x21000087 0x0900, leaves .call 0x21000087 0x8B00, leaves .iret 0x21000066 0x8B00, leaves .jmp 0x21000067 0x8900] =
    [some (.np 0x30), some (.gp 0x30), some (.ts 0x30), none]) ∧
    tasked.tr.valid = true ∧
    (∃ v, taskSwitch .call 0x30#16 ⟨0x21000087#32, 0x8900#32⟩ 0x10007#32 tasked.flags tasked.work = .ok () v ∧
      DescriptorsApart v.s) :=
  ⟨by decide +kernel, rfl, _, ran (by decide +kernel), gdt_apart (by decide +kernel) (by decide +kernel)⟩

/-- `tasked` just after the switch to its second task, with bytes of that task's state replaced. -/
def entering (a : Nat) (l : List Nat) (s : State := tasked) : Work :=
  { (poke { s with tr := { selector := 0x30, base := 0x2100, limit := 0x87, valid := true } } a l).work with committed := true }

/-- Each test in the incoming task: LDT in the LDT, past the GDT, of another type, absent; CS null, past the table, data, absent,
DPL against RPL; SS null, past the table, code, absent, DPL, RPL; DS past the table, a TSS, absent, DPL; EIP past the limit. -/
theorem test_meets_TaskSwitchResult_incoming :
    (let enters (a : Nat) (l : List Nat) (s : State := tasked) : Option Exc := raised? (enterTask .jmp (entering a l s))
    [enters 0x2160 [4], enters 0x2160 [0x80], enters 0x2160 [8], enters 0x2160 [0x48] (entry tasked 9 0xF 0x0200),
      enters 0x214C [0], enters 0x214C [0x80], enters 0x214C [0x10], enters 0x214C [0x48] (entry tasked 9 0xFFFF 0x1A00),
      enters 0x214C [0x0B], enters 0x2150 [0], enters 0x2150 [0x80], enters 0x2150 [8],
      enters 0x2150 [0x48] (entry tasked 9 0xFFFF 0x1200), enters 0x2150 [0x20], enters 0x2150 [0x11], enters 0x2154 [0x80],
      enters 0x2154 [0x30], enters 0x2154 [0x48] (entry tasked 9 0xFFFF 0x1200), enters 0x2154 [0x13],
      enters 0x214C [0x48] (entry tasked 9 0xFFFF 0x9B00), enters 0x2160 [0]] =
    [some (.ts 4), some (.ts 0x80), some (.ts 8), some (.ts 0x48), some (.ts 0), some (.ts 0x80), some (.ts 0x10), some (.np 0x48),
      some (.ts 8), some (.ts 0), some (.ts 0x80), some (.ts 8), some (.ss 0x48), some (.ts 0x20), some (.ts 0x10),
      some (.ts 0x80), some (.ts 0x30), some (.np 0x48), some (.ts 0x10), some (.gp 0), none]) ∧
    (∃ v, loadTask .jmp (entering 0x2160 [0]) = .ok () v) :=
  ⟨by decide +kernel, _, ran (by decide +kernel)⟩

/-- The selector in a task gate: null, in the LDT, past the GDT, of an 80286 TSS, of data, of a TSS, of the current task. -/
theorem test_meets_TaskSwitchResult_gate :
    (let through (tsel : BitVec 16) : Option Exc := raised? (switchThroughGate .call tsel 0 tasked.flags tasked.work)
    [through 0, through 0x34, through 0x80, through 0x10, through 0x30] =
      [some (.gp 0), some (.gp 0x34), some (.gp 0x80), some (.gp 0x10), none]) ∧
    fetches (entry prot 9 0x300000 0x8300) 0x48#16 (fun d _ => !d.s && d.typ == 3) = true ∧
    tasked.work.taskTrap = false ∧
    (match fetchDesc 0x28 .gp { tasked.work with taskTrap := true } with
      | .ok d v => !d.s && d.typ == 0xB && d.p && v.taskTrap &&
          (0x28#16).extractLsb' 3 13 == v.s.tr.selector.extractLsb' 3 13
      | _ => false) = true := by
  decide +kernel

/-- 44 R192 A2: through the same task gate INT 1 meets the busy test of the current task. -/
theorem test_int1_to_current_task_busy :
    takesCode { looping with pendingDbg := 0 } 13 0x28 [0xCD, 0x01] = true := by
  decide +kernel

end Sys2Proof.Tests
end

section
/-! The invariant in the middle of a step. -/

namespace Sys2Proof.Machine

open Sys2Proof

-- One theorem after another, so that no more of them wait for each other than the memory limit has threads for.
set_option Elab.async false

/-- The part of the invariant that holds inside an instruction or a delivery too. -/
structure Sane (s : State) : Prop where
  mem : Memory.wf s.mem = true
  paging : s.cr0.pg = true → s.cr0.pe = true
  real : s.cr0.pe = false → s.cpl = 0
  vm : s.flags.vm = false

/-- Sane, and no event is being delivered. -/
structure Idle (s : State) : Prop extends Sane s where
  delivering : s.delivering = .none

/-- What every part of a meaning but a load of CR0 keeps of what the invariant speaks of. CPL may change in protected mode
alone (10 R31). -/
structure Steady (s t : State) : Prop where
  mem : Memory.wf s.mem = true → Memory.wf t.mem = true
  pe : t.cr0.pe = s.cr0.pe
  pg : t.cr0.pg = s.cr0.pg
  cpl : s.cr0.pe = false → t.cpl = s.cpl
  vm : s.flags.vm = false → t.flags.vm = false
  delivering : t.delivering = s.delivering
  insn : t.insn = s.insn
  inShutdown : t.inShutdown = s.inShutdown

/-- An update of fields of which the invariant does not speak. -/
theorem Steady.of_same {s t : State} (mem : t.mem = s.mem := by rfl) (pe : t.cr0.pe = s.cr0.pe := by rfl)
    (pg : t.cr0.pg = s.cr0.pg := by rfl) (cpl : t.cpl = s.cpl := by rfl) (vm : t.flags.vm = s.flags.vm := by rfl)
    (delivering : t.delivering = s.delivering := by rfl) (insn : t.insn = s.insn := by rfl)
    (inShutdown : t.inShutdown = s.inShutdown := by rfl) : Steady s t :=
  ⟨fun h => mem ▸ h, pe, pg, fun _ => cpl, fun h => vm.trans h, delivering, insn, inShutdown⟩

theorem Steady.refl (s : State) : Steady s s := .of_same

theorem Steady.trans {s t u : State} (h : Steady s t) (k : Steady t u) : Steady s u where
  mem := k.mem ∘ h.mem
  pe := k.pe.trans h.pe
  pg := k.pg.trans h.pg
  cpl := fun hs => (k.cpl (h.pe.trans hs)).trans (h.cpl hs)
  vm := k.vm ∘ h.vm
  delivering := k.delivering.trans h.delivering
  insn := k.insn.trans h.insn
  inShutdown := k.inShutdown.trans h.inShutdown

theorem Steady.sane {s t : State} (h : Steady s t) (hs : Sane s) : Sane t where
  mem := h.mem hs.mem
  paging := fun hg => h.pe.trans (hs.paging (h.pg.symm.trans hg))
  real := fun he => (h.cpl (h.pe.symm.trans he)).trans (hs.real (h.pe.symm.trans he))
  vm := h.vm hs.vm

theorem Steady.idle {s t : State} (h : Steady s t) (hs : Idle s) : Idle t where
  toSane := h.sane hs.toSane
  delivering := h.delivering.trans hs.delivering

theorem Accesses.steady {s t : State} (h : Accesses s t) : Steady s t where
  mem := h.wf
  pe := by rw [h.cr0]
  pg := by rw [h.cr0]
  cpl := fun _ => h.cpl
  vm := fun hv => by rw [h.flags, hv]
  delivering := h.delivering
  insn := h.insn
  inShutdown := h.inShutdown

theorem Sane.of_delivering {s : State} (h : Sane s) (d : Delivering) : Sane { s with delivering := d } :=
  ⟨h.mem, h.paging, h.real, h.vm⟩

theorem Inv.sane {s : State} (h : Inv s) : Sane s := ⟨h.mem, h.paging, h.real, h.vm⟩

theorem Steady.inv {s t : State} (h : Steady s t) (hs : Inv s) : Inv t :=
  have k := h.sane hs.sane
  ⟨k.mem, k.paging, k.real, k.vm, h.insn.trans hs.insn,
    fun ht => h.delivering.trans (hs.delivering (h.inShutdown.symm.trans ht))⟩

theorem Inv.idle {s : State} (h : Inv s) (hs : s.inShutdown = false) : Idle s where
  toSane := h.sane
  delivering := h.delivering hs

/-! ### Parts of a meaning -/

variable {α β : Type} {p : Bool}

/-- `m` keeps what `Steady` says, whether it ends well or not; with `p` where it begins in protected mode. -/
def Keeps (p : Bool) (m : M α) : Prop := Within (fun w v => (p = true → w.s.cr0.pe = true) → Steady w.s v.s) m

theorem keeps_rel (p : Bool) : StepRel fun w v => (p = true → w.s.cr0.pe = true) → Steady w.s v.s where
  refl w _ := Steady.refl w.s
  trans _ _ _ h k hu := (h hu).trans (k fun hp => (h hu).pe.trans (hu hp))

theorem Within.keeps {m : M α} (h : Within AccessesW m) : Keeps p m := fun w _ => (h w).state.steady

theorem Keeps.pure {a : α} : Keeps p (pure a : M α) := within_pure (keeps_rel p) a

theorem Keeps.bind {x : M α} {f : α → M β} (hx : Keeps p x) (hf : ∀ a, Keeps p (f a)) : Keeps p (x >>= f) :=
  within_bind (keeps_rel p) hx hf

theorem Keeps.st : Keeps p st := within_st (keeps_rel p)

theorem Keeps.get : Keeps p (get : M Work) := within_get (keeps_rel p)

theorem Keeps.raise {e : Exc} : Keeps p (raise e : M α) := within_raise (keeps_rel p) e

theorem Keeps.refuse {r : Refusal} : Keeps p (refuse r : M α) := within_refuse (keeps_rel p) r

theorem Keeps.shutdown : Keeps p (shutdown : M α) := fun w _ => Steady.refl w.s

theorem Keeps.check {c : Bool} {e : Exc} : Keeps p (check c e) := within_check (keeps_rel p) c e

theorem Keeps.need {c : Bool} {r : Refusal} : Keeps p (need c r) := within_need (keeps_rel p) c r

theorem Keeps.extBit : Keeps p extBit := extBit_accesses.keeps

theorem Keeps.checkSel {c : Bool} {k : CodeExc} {sel : BitVec 16} : Keeps p (checkSel c k sel) :=
  (checkSel_accesses c k sel).keeps

theorem Keeps.upd {f : State → State} (h : ∀ s, Steady s (f s)) : Keeps p (upd f) := within_upd fun w _ => h w.s

theorem Keeps.updProtected {f : State → State} (h : ∀ s, s.cr0.pe = true → Steady s (f s)) : Keeps true (Machine.upd f) :=
  within_upd fun w hp => h w.s (hp rfl)

theorem Keeps.mark {f : Work → Work} (h : ∀ w, (f w).s = w.s := by intro _; rfl) : Keeps p (mark f) :=
  within_mark fun w _ => h w ▸ Steady.refl w.s

theorem Keeps.ite {c : Prop} [Decidable c] {x y : M α} (hx : c → Keeps p x) (hy : ¬ c → Keeps p y) :
    Keeps p (if c then x else y) := by
  split
  · exact hx ‹_›
  · exact hy ‹_›

theorem Keeps.each {f : α → M Unit} (hf : ∀ a, Keeps p (f a)) {l : List α} : Keeps p (each f l) :=
  within_each (keeps_rel p) hf l

theorem Keeps.gather {f : α → M β} (hf : ∀ a, Keeps p (f a)) {l : List α} : Keeps p (gather f l) :=
  within_gather (keeps_rel p) hf l

theorem Keeps.attempt {m : M α} (h : Keeps p m) : Keeps p (attempt m) := within_attempt h

theorem Keeps.raiseFirst (l : List (Option Exc)) : Keeps p (raiseFirst l) := by
  induction l with
  | nil => exact .pure
  | cons o t ih =>
    cases o with
    | none => exact ih
    | some e => exact .raise

/-- What depends on the mode: in protected mode more is allowed. -/
theorem Keeps.byMode {f : State → M α} (hp : ∀ s, s.cr0.pe = true → Keeps true (f s))
    (hr : ∀ s, s.cr0.pe = false → Keeps false (f s)) : Keeps false (Machine.st >>= f) := by
  intro w _
  rw [M.run_bind, run_st]
  cases h : w.s.cr0.pe with
  | true => exact hp w.s h w fun _ => h
  | false => exact hr w.s h w nofun

/-! ### Before and after -/

/-- `Q` where a meaning has ended well, a sane state where it has stopped. -/
def After (Q : State → Prop) : EStateM.Result Stop Work α → Prop
  | .ok _ v => Q v.s
  | .error _ v => Sane v.s

/-- From a state that meets `P`, `m` ends well in one that meets `Q`, or stops in a sane one. -/
def Leads (P : State → Prop) (m : M α) (Q : State → Prop) : Prop := ∀ w, P w.s → After Q (m w)

variable {P Q R : State → Prop}

theorem Leads.bind {x : M α} {f : α → M β} (hx : Leads P x Q) (hf : ∀ a, Leads Q (f a) R) : Leads P (x >>= f) R := by
  intro w hw
  have h := hx w hw
  rw [M.run_bind]
  cases hxw : x w with
  | ok a v =>
    rw [hxw] at h
    exact hf a v h
  | error e v =>
    rw [hxw] at h
    exact h

theorem Leads.upd {f : State → State} (h : ∀ s, P s → Q (f s)) : Leads P (upd f) Q := fun w hw => h w.s hw

/-- A part begins in the state that it asks for. -/
theorem Leads.bind_st {f : State → M α} (h : ∀ s, P s → Leads (· = s) (f s) Q) : Leads P (st >>= f) Q :=
  fun w hw => h w.s hw w rfl

/-- A test that is passed holds. -/
theorem Leads.bind_check {c : Bool} {e : Exc} {f : Unit → M α} (hP : ∀ s, P s → Sane s)
    (h : c = true → Leads P (f ()) Q) : Leads P (check c e >>= f) Q := by
  intro w hw
  rw [M.run_bind]
  cases c with
  | true => exact h rfl w hw
  | false => exact hP w.s hw

theorem Keeps.leads_of {m : M α} (h : Keeps p m) (hP : ∀ s, P s → Sane s ∧ (p = true → s.cr0.pe = true))
    (hQ : ∀ s t, P s → Steady s t → Q t) : Leads P m Q := by
  intro w hw
  have h := h w (hP w.s hw).2
  cases hm : m w with
  | ok a v =>
    rw [hm] at h
    exact hQ _ _ hw h
  | error e v =>
    rw [hm] at h
    exact h.sane (hP w.s hw).1

theorem Keeps.sane {m : M α} (h : Keeps false m) : Leads Sane m Sane :=
  h.leads_of (fun _ hs => ⟨hs, nofun⟩) fun _ _ hs k => k.sane hs

theorem Keeps.inv {m : M α} (h : Keeps false m) : Leads Inv m Inv :=
  h.leads_of (fun _ hs => ⟨hs.sane, nofun⟩) fun _ _ hs k => k.inv hs

theorem Keeps.idle {m : M α} (h : Keeps false m) : Leads Idle m Idle :=
  h.leads_of (fun _ hs => ⟨hs.toSane, nofun⟩) fun _ _ hs k => k.idle hs

end Sys2Proof.Machine
end


section
/-! What the shared operations keep of what the invariant speaks of. -/

namespace Sys2Proof.Machine

open Sys2Proof

-- One theorem after another, so that no more of them wait for each other than the memory limit has threads for.
set_option Elab.async false

variable {p : Bool}

/-! ### The stack, segment registers and EIP -/

theorem push_keeps (v : BitVec 32) (n : Nat) : Keeps p (push v n) :=
  .bind .st fun _ => .bind .need fun _ => .bind (memWrite_accesses _ _ _ _).keeps fun _ => .upd fun _ => .of_same

theorem stackDrop_keeps (k : BitVec 32) : Keeps p (stackDrop k) := .upd fun _ => .of_same

theorem pop_keeps (n : Nat) : Keeps p (pop n) :=
  .bind (stackRead_accesses _ _).keeps fun _ => .bind (stackDrop_keeps _) fun _ => .pure

theorem pushSel_keeps (sel : BitVec 16) (n : Nat) : Keeps p (pushSel sel n) :=
  .bind (.ite (fun _ => draw16_accesses.keeps) fun _ => .pure) fun _ => push_keeps _ _

theorem loadReal_keeps (r : SegReg) (sel : BitVec 16) : Keeps p (loadReal r sel) := .upd fun _ => .of_same

theorem loadDataSeg_keeps (r : SegReg) (sel : BitVec 16) : Keeps p (loadDataSeg r sel) :=
  .ite (fun _ => .upd fun _ => .of_same) fun _ =>
    .bind (fetchDesc_accesses _ _).keeps fun _ => .bind .st fun _ => .bind .checkSel fun _ => .bind .checkSel fun _ =>
      .bind .checkSel fun _ => .bind .checkSel fun _ => .bind (setAccessed_accesses _ _).keeps fun _ =>
        .upd fun _ => .of_same

theorem loadSs_keeps (sel : BitVec 16) : Keeps p (loadSs sel) :=
  .bind .extBit fun _ => .bind .check fun _ => .bind (fetchDesc_accesses _ _).keeps fun _ => .bind .st fun _ =>
    .bind .checkSel fun _ => .bind .checkSel fun _ => .bind .checkSel fun _ => .bind .checkSel fun _ =>
      .bind (setAccessed_accesses _ _).keeps fun _ => .upd fun _ => .of_same

theorem loadSeg_keeps (r : SegReg) (sel : BitVec 16) : Keeps p (loadSeg r sel) :=
  .bind .st fun _ => .ite (fun _ => loadReal_keeps _ _) fun _ =>
    .ite (fun _ => loadSs_keeps _) fun _ => loadDataSeg_keeps _ _

theorem loadCs_keeps (sel : BitVec 16) (pl : BitVec 2) (d : Desc) (eip : BitVec 32) : Keeps p (loadCs sel pl d eip) :=
  .bind (setAccessed_accesses _ _).keeps fun _ => .bind (.upd fun _ => .of_same) fun _ => .mark

theorem loadCsReal_keeps (sel : BitVec 16) (eip : BitVec 32) : Keeps p (loadCsReal sel eip) :=
  .bind (loadReal_keeps _ _) fun _ => .bind (.upd fun _ => .of_same) fun _ => .mark

theorem jumpTo_keeps (eip : BitVec 32) : Keeps p (jumpTo eip) := .bind (.upd fun _ => .of_same) fun _ => .mark

/-- In protected mode CPL is free to change. -/
theorem Steady.of_protected {s t : State} (hs : s.cr0.pe = true) (mem : t.mem = s.mem := by rfl)
    (cr0 : t.cr0 = s.cr0 := by rfl) (flags : t.flags = s.flags := by rfl)
    (delivering : t.delivering = s.delivering := by rfl) (insn : t.insn = s.insn := by rfl)
    (inShutdown : t.inShutdown = s.inShutdown := by rfl) : Steady s t where
  mem h := mem ▸ h
  pe := by rw [cr0]
  pg := by rw [cr0]
  cpl h := absurd (hs.symm.trans h) nofun
  vm h := flags ▸ h
  delivering := delivering
  insn := insn
  inShutdown := inShutdown

theorem enterStack_keeps (npl : BitVec 2) (d : Desc) (nss : BitVec 16) (nesp : BitVec 32) :
    Keeps true (enterStack npl d nss nesp) :=
  .bind (setAccessed_accesses _ _).keeps fun _ => .bind (.updProtected fun _ h => .of_protected h) fun _ =>
    .upd fun _ => .of_same

/-! ### Operands and flags -/

theorem Place.write_keeps (d : Place) (v : BitVec 32) : Keeps p (d.write v) := by
  cases d with
  | reg8 r => exact Keeps.upd (f := fun s => s.setReg8 r _) fun _ => .of_same
  | reg z r => exact Keeps.upd (f := fun s => s.setRegv z r v) fun _ => .of_same
  | mem g off w => exact (memWrite_accesses _ _ _ _).keeps

theorem write16_keeps (rm : RM Reg) (v : BitVec 16) : Keeps p (write16 rm v) := by
  refine .bind .st fun s => ?_
  cases rm with
  | mem m => exact Place.write_keeps _ _
  | reg r =>
    dsimp only
    cases s.os with
    | w16 => exact .upd fun _ => .of_same
    | w32 => exact .bind draw16_accesses.keeps fun _ => .upd fun _ => .of_same

theorem setStatus_keeps (t : Status) : Keeps p (setStatus t) := .upd fun _ => .of_same

theorem setStatusKeepCf_keeps (t : Status) : Keeps p (setStatusKeepCf t) := .upd fun _ => .of_same

theorem drawStatus_keeps : Keeps p drawStatus := .bind draw_accesses.keeps fun _ => .pure

theorem setZf_keeps (b : Bool) : Keeps p (setZf b) := .upd fun _ => .of_same

theorem freeStatus_keeps : Keeps p freeStatus := .bind drawStatus_keeps fun _ => setStatus_keeps _

theorem privileged_keeps : Keeps p privileged := .bind .st fun _ => .check

theorem protectedOnly_keeps : Keeps p protectedOnly := .bind .st fun _ => .check

/-! ### The end of an instruction -/

theorem needNext_keeps (s : State) : Keeps p (needNext s) := .need

theorem prefixesOk_keeps (lockable repeatable : Bool) : Keeps p (prefixesOk lockable repeatable) :=
  .bind .st fun _ => .bind .check fun _ => .need

theorem collectTraps_keeps (tf exact : Bool) : Keeps p (collectTraps tf exact) := by
  intro w _
  obtain ⟨_, _, _, h, _⟩ := collectTraps_ok tf exact w
  rw [h]
  exact .of_same

theorem eipNext_keeps : Keeps p eipNext := .bind .st fun _ => .bind (needNext_keeps _) fun _ => .pure

theorem finish_keeps (s : State) : Keeps p (finish s) := by
  refine .bind .get fun _ => .ite (fun _ => .pure) fun _ => ?_
  extract_lets traps clearRf
  have hTraps : ∀ u, Keeps p (traps u) := fun _ => collectTraps_keeps _ _
  have hClearRf : ∀ u, Keeps p (clearRf u) := fun _ =>
    .ite (fun _ => hTraps ()) fun _ => .bind (.upd fun _ => .of_same) hTraps
  exact .ite (fun _ => hClearRf ()) fun _ => .bind eipNext_keeps fun _ => .bind (.upd fun _ => .of_same) hClearRf

/-! ### The task switch -/

/-- EFLAGS of the incoming task: VM set is refused (00 R6). -/
theorem loadFlagsItem_keeps (kind : SwitchKind) (v : BitVec 32) : Keeps p (TaskItem.flags.load kind v) := by
  intro w _
  simp only [TaskItem.load, M.run_bind, run_need]
  cases h : bit v 17 with
  | true => exact .refl _
  | false => exact ⟨id, rfl, rfl, fun _ => rfl, fun _ => h, rfl, rfl, rfl⟩

theorem TaskItem.load_keeps (kind : SwitchKind) (v : BitVec 32) (i : TaskItem) : Keeps true (i.load kind v) := by
  cases i with
  | flags => exact loadFlagsItem_keeps kind v
  | sel r =>
    rw [TaskItem.load]
    exact .updProtected fun _ h => .of_protected h
  | _ =>
    rw [TaskItem.load]
    exact .upd fun _ => .of_same

theorem loadItem_keeps (kind : SwitchKind) (i : TaskItem) : Keeps true (loadItem kind i) := by
  refine .bind .st fun _ => .bind (linRead_accesses _ _ _).keeps.attempt fun r => ?_
  cases r with
  | ok v => exact .bind (TaskItem.load_keeps _ _ _) fun _ => .pure
  | error e => exact .bind draw_accesses.keeps fun _ => .bind (TaskItem.load_keeps _ _ _) fun _ => .pure

theorem switchDirectory_keeps : Keeps p switchDirectory := by
  refine .bind .st fun _ => .ite (fun _ => .bind (linRead_accesses _ _ _).keeps.attempt fun r => ?_) fun _ => .pure
  cases r with
  | ok v => exact .bind (.upd fun _ => .of_same) fun _ => .pure
  | error e => exact .pure

theorem loadTask_keeps (kind : SwitchKind) : Keeps true (loadTask kind) :=
  .bind (.upd fun _ => .of_same) fun _ => .bind switchDirectory_keeps fun _ =>
    .bind (.gather fun _ => loadItem_keeps _ _) fun _ => .raiseFirst _

theorem loadTaskLdt_keeps : Keeps p loadTaskLdt :=
  .bind .st fun _ => .ite (fun _ => .pure) fun _ =>
    .bind .checkSel fun _ => .bind (fetchDesc_accesses _ _).keeps fun _ => .bind .checkSel fun _ =>
      .bind .checkSel fun _ => .upd fun _ => .of_same

theorem loadTaskCs_keeps : Keeps p loadTaskCs :=
  .bind .st fun _ => .bind .checkSel fun _ => .bind (fetchDesc_accesses _ _).keeps fun _ => .bind .checkSel fun _ =>
    .bind .checkSel fun _ => .bind .checkSel fun _ => .bind .checkSel fun _ =>
      .bind (setAccessed_accesses _ _).keeps fun _ => .upd fun _ => .of_same

theorem loadTaskSs_keeps : Keeps p loadTaskSs :=
  .bind .st fun _ => .bind .checkSel fun _ => .bind (fetchDesc_accesses _ _).keeps fun _ => .bind .checkSel fun _ =>
    .bind .checkSel fun _ => .bind .checkSel fun _ => .bind .checkSel fun _ =>
      .bind (setAccessed_accesses _ _).keeps fun _ => .upd fun _ => .of_same

theorem loadTaskData_keeps (r : SegReg) : Keeps p (loadTaskData r) :=
  .bind .st fun _ => .ite (fun _ => .pure) fun _ =>
    .bind (fetchDesc_accesses _ _).keeps fun _ => .bind .checkSel fun _ => .bind .checkSel fun _ =>
      .bind .checkSel fun _ => .bind (setAccessed_accesses _ _).keeps fun _ => .upd fun _ => .of_same

theorem enterTask_keeps (kind : SwitchKind) : Keeps true (enterTask kind) :=
  .bind (loadTask_keeps _) fun _ => .bind loadTaskLdt_keeps fun _ => .bind loadTaskCs_keeps fun _ =>
    .bind loadTaskSs_keeps fun _ => .bind (.each fun _ => loadTaskData_keeps _) fun _ => .bind .st fun _ =>
      .bind .extBit fun _ => .bind .check fun _ => .bind (linRead_accesses _ _ _).keeps fun _ =>
        .ite (fun _ => .upd fun _ => .of_same) fun _ => .pure

theorem leaveTask_keeps (kind : SwitchKind) (nsel : BitVec 16) (d : Desc) (e : BitVec 32) (fl : Flags) :
    Keeps p (leaveTask kind nsel d e fl) := by
  refine .bind .st fun _ => .bind .need fun _ => .bind .checkSel fun _ => .bind .checkSel fun _ =>
    .bind .checkSel fun _ => .bind (probeSwitch_accesses _ _ _).keeps fun _ => .bind (needNext_keeps _) fun _ =>
      .bind (saveTask_accesses _ _).keeps fun _ => ?_
  extract_lets ended commit enterNew
  have hEnded : ∀ u, Keeps p (ended u) := fun _ => .bind .mark fun _ => .upd fun _ => .of_same
  have hCommit : ∀ u, Keeps p (commit u) := fun _ => .bind (.upd fun _ => .of_same) fun _ =>
    .ite (fun _ => .bind (linWrite_accesses _ _ _ _).keeps hEnded) fun _ => hEnded ()
  have hEnterNew : ∀ u, Keeps p (enterNew u) := fun _ =>
    .ite (fun _ => hCommit ()) fun _ => .bind (setBusy_accesses _).keeps hCommit
  exact .ite (fun _ => hEnterNew ()) fun _ => .bind (clearBusy_accesses _).keeps hEnterNew

theorem taskSwitch_keeps (kind : SwitchKind) (nsel : BitVec 16) (d : Desc) (e : BitVec 32) (fl : Flags) :
    Keeps true (taskSwitch kind nsel d e fl) :=
  .bind (leaveTask_keeps _ _ _ _ _) fun _ => enterTask_keeps _

theorem switchThroughGate_keeps (kind : SwitchKind) (tsel : BitVec 16) (e : BitVec 32) (fl : Flags) :
    Keeps true (switchThroughGate kind tsel e fl) :=
  .bind .checkSel fun _ => .bind (fetchDesc_accesses _ _).keeps fun _ => .bind .need fun _ => .bind .checkSel fun _ =>
    .bind .get fun _ => .ite (fun _ => .upd fun _ => .of_same) fun _ => taskSwitch_keeps _ _ _ _ _

theorem switchBack_keeps (e : BitVec 32) (fl : Flags) : Keeps true (switchBack e fl) :=
  .bind .st fun _ => .bind .need fun _ => .bind (linRead_accesses _ _ _).keeps fun _ => .bind .checkSel fun _ =>
    .bind (fetchDesc_accesses _ _).keeps fun _ => .bind .need fun _ => .bind .checkSel fun _ =>
      taskSwitch_keeps _ _ _ _ _

/-! ### Deliveries -/

theorem pushErr_keeps (err : ErrCode) : Keeps p (pushErr err) := by
  cases err with
  | none => exact .pure
  | word c => exact .bind draw16_accesses.keeps fun _ => push_keeps _ _
  | page c => exact .bind draw_accesses.keeps fun _ => push_keeps _ _

theorem enterSame_keeps (tsel : BitVec 16) (t : Desc) (toff : BitVec 32) (image : Flags) (err : ErrCode)
    (ret : BitVec 32) : Keeps p (enterSame tsel t toff image err ret) :=
  .bind .st fun _ => .bind .extBit fun _ => .bind .check fun _ => .bind .check fun _ => .bind (push_keeps _ _) fun _ =>
    .bind (pushSel_keeps _ _) fun _ => .bind (push_keeps _ _) fun _ => .bind (pushErr_keeps _) fun _ =>
      loadCs_keeps _ _ _ _

theorem enterInner_keeps (tsel : BitVec 16) (t : Desc) (toff : BitVec 32) (image : Flags) (err : ErrCode)
    (ret : BitVec 32) : Keeps true (enterInner tsel t toff image err ret) :=
  .bind .st fun _ => .bind .extBit fun _ => .bind (innerStack_accesses _ _).keeps fun ⟨_, _, _⟩ => .bind .check fun _ =>
    .bind (enterStack_keeps _ _ _ _) fun _ => .bind (pushSel_keeps _ _) fun _ => .bind (push_keeps _ _) fun _ =>
      .bind (push_keeps _ _) fun _ => .bind (pushSel_keeps _ _) fun _ => .bind (push_keeps _ _) fun _ =>
        .bind (pushErr_keeps _) fun _ => loadCs_keeps _ _ _ _

theorem enterGate_keeps (g : Desc) (image : Flags) (err : ErrCode) (ret : BitVec 32) :
    Keeps true (enterGate g image err ret) := by
  refine .bind .st fun _ => .bind .extBit fun _ => .bind .check fun _ => .bind (fetchDesc_accesses _ _).keeps fun _ =>
    .bind .checkSel fun _ => .bind .checkSel fun _ => .bind .checkSel fun _ => ?_
  extract_lets flags
  have hFlags : ∀ u, Keeps true (flags u) := fun _ => .upd fun _ => .of_same
  exact .ite (fun _ => .bind (enterInner_keeps _ _ _ _ _ _) hFlags) fun _ => .bind (enterSame_keeps _ _ _ _ _ _) hFlags

theorem enterTaskGate_keeps (g : Desc) (image : Flags) (err : ErrCode) (ret : BitVec 32) :
    Keeps true (enterTaskGate g image err ret) :=
  .bind (switchThroughGate_keeps _ _ _ _) fun _ => .bind (pushErr_keeps _) fun _ => .bind .st fun _ =>
    .bind .extBit fun _ => .check

theorem deliverProtected_keeps (vec : Byte) (fault : Bool) (err : ErrCode) (soft : Bool) (ret : BitVec 32) :
    Keeps true (deliverProtected vec fault err soft ret) :=
  .bind .st fun _ => .bind .extBit fun _ => .bind .check fun _ => .bind .need fun _ =>
    .bind (readDescAt_accesses _).keeps fun _ => .bind .need fun _ => .bind .check fun _ => .bind .check fun _ =>
      .bind .check fun _ => .ite (fun _ => enterTaskGate_keeps _ _ _ _) fun _ => enterGate_keeps _ _ _ _

/-- A vector beyond the table makes the delivery that of a double fault (60 R297), so what is being delivered changes. -/
theorem deliverReal_sane (vec : Byte) (ret : BitVec 32) : Leads Sane (deliverReal vec ret) Sane := by
  refine .bind Keeps.st.sane fun _ => ?_
  extract_lets lim inside v rest
  have hRest : ∀ u, Leads Sane (rest u) Sane := fun _ => Keeps.sane <|
    .ite (fun _ => .bind .need fun _ => .bind (physRead_accesses _ _).keeps fun _ => .bind (push_keeps _ _) fun _ =>
      .bind (push_keeps _ _) fun _ => .bind (push_keeps _ _) fun _ => .bind (.upd fun _ => .of_same) fun _ =>
        loadCsReal_keeps _ _) fun _ => .shutdown
  split
  · exact hRest ()
  · exact .bind (Q := Sane) (.upd fun _ hs => hs.of_delivering _) hRest

/-- A delivery that ends well has ended. -/
theorem deliver_leads (vec : Byte) (fault : Bool) (err : ErrCode) (soft : Bool) (ret : BitVec 32) :
    Leads Sane (deliver vec fault err soft ret) Idle := by
  refine .bind (Keeps.mark).sane fun _ => .bind_st fun s hs => ?_
  extract_lets ended
  have hEnded : ∀ u, Leads Sane (ended u) Idle := fun _ =>
    .bind (Q := Idle) (.upd fun _ h => ⟨⟨h.mem, h.paging, h.real, h.vm⟩, rfl⟩) fun _ => (Keeps.mark).idle
  split
  · exact .bind ((deliverProtected_keeps _ _ _ _ _).leads_of (fun _ h => h ▸ ⟨hs, fun _ => ‹_›⟩)
      fun _ _ h k => k.sane (h ▸ hs)) hEnded
  · exact .bind (fun w hw => deliverReal_sane _ _ w (hw ▸ hs)) hEnded

theorem softInt_leads (vec : Byte) : Leads Idle (softInt vec) Idle :=
  .bind Keeps.st.idle fun _ => .bind (Q := Sane) (.upd fun _ h => h.toSane.of_delivering _) fun _ =>
    .bind (deliver_leads _ _ _ _ _) fun _ => (needNext_keeps _).idle

/-! ### Returns -/

theorem returnCs_keeps (rcs : BitVec 16) : Keeps p (returnCs rcs) :=
  .bind .st fun _ => .bind .checkSel fun _ => .bind .checkSel fun _ => .bind (fetchDesc_accesses _ _).keeps fun _ =>
    .bind .checkSel fun _ => .bind .checkSel fun _ => .bind .checkSel fun _ => .bind .checkSel fun _ => .pure

theorem returnSs_keeps (rss : BitVec 16) (pl : BitVec 2) : Keeps p (returnSs rss pl) :=
  .bind .checkSel fun _ => .bind (fetchDesc_accesses _ _).keeps fun _ => .bind .checkSel fun _ => .bind .checkSel fun _ =>
    .bind .checkSel fun _ => .bind .checkSel fun _ => .pure

theorem roomAbove_keeps (k : Nat) : Keeps p (roomAbove k) := .bind .st fun _ => .bind .extBit fun _ => .check

theorem returnOuter_keeps (rcs rss : BitVec 16) (c sd : Desc) (roff resp adjust : BitVec 32) :
    Keeps true (returnOuter rcs rss c sd roff resp adjust) :=
  .bind (.updProtected fun _ h => .of_protected h) fun _ => .bind (loadCs_keeps _ _ _ _) fun _ =>
    .bind (setAccessed_accesses _ _).keeps fun _ => .bind (.upd fun _ => .of_same) fun _ =>
      .bind (.upd fun _ => .of_same) fun _ => .upd fun _ => .of_same

theorem iretReal_keeps : Keeps p iretReal :=
  .bind .st fun _ => .bind (pop_keeps _) fun _ => .bind (pop_keeps _) fun _ => .bind (pop_keeps _) fun _ =>
    .bind .extBit fun _ => .bind .check fun _ => .bind (loadCsReal_keeps _ _) fun _ => .upd fun _ => .of_same

theorem iretStack_keeps : Keeps true iretStack := by
  refine .bind .st fun _ => .bind .extBit fun _ => .bind (roomAbove_keeps _) fun _ =>
    .bind (stackRead_accesses _ _).keeps fun _ => .bind (stackRead_accesses _ _).keeps fun _ =>
      .bind (stackRead_accesses _ _).keeps fun _ => .bind .need fun _ => .bind (returnCs_keeps _) fun _ => ?_
  extract_lets flags
  have hFlags : ∀ u, Keeps true (flags u) := fun _ => .upd fun _ => .of_same
  exact .ite
    (fun _ => .bind .check fun _ => .bind (loadCs_keeps _ _ _ _) fun _ => .bind (stackDrop_keeps _) hFlags)
    fun _ => .bind (roomAbove_keeps _) fun _ => .bind (stackRead_accesses _ _).keeps fun _ =>
      .bind (stackRead_accesses _ _).keeps fun _ => .bind (returnSs_keeps _ _) fun _ => .bind .check fun _ =>
        .bind (returnOuter_keeps _ _ _ _ _ _ _) hFlags

theorem iretBody_keeps : Keeps false iretBody := by
  refine .byMode (fun s hs => ?_) fun s hs => ?_ <;> extract_lets ended
  · have hEnded : ∀ u, Keeps true (ended u) := fun _ => .bind (.upd fun _ => .of_same) fun _ => .mark
    exact .ite (fun _ => .bind iretReal_keeps hEnded) fun _ =>
      .ite (fun _ => .bind (switchBack_keeps _ _) hEnded) fun _ => .bind iretStack_keeps hEnded
  · have hEnded : ∀ u, Keeps false (ended u) := fun _ => .bind (.upd fun _ => .of_same) fun _ => .mark
    rw [hs]
    exact .bind iretReal_keeps hEnded

end Sys2Proof.Machine
end


section
/-! The end of a step: exceptions, and how an instruction is run, keep the invariant. -/

namespace Sys2Proof.Machine

open Sys2Proof

-- One theorem after another, so that no more of them wait for each other than the memory limit has threads for.
set_option Elab.async false

theorem Inv.endStep {s : State} (h : Idle s) : Inv (endStep s) :=
  ⟨h.mem, h.paging, h.real, h.vm, rfl, fun _ => h.delivering⟩

/-- In shutdown a delivery may have been abandoned (61 R331). -/
theorem Inv.shutDown {s : State} (h : Sane s) : Inv (shutDown s) := ⟨h.mem, h.paging, h.real, h.vm, rfl, nofun⟩

theorem Sane.note {s : State} (h : Sane s) (e : Exc) : Sane (e.note s) := by
  cases e with
  | _ => exact ⟨h.mem, h.paging, h.real, h.vm⟩

theorem Steady.putByte (s : State) (pa : BitVec 32) (v : Byte) : Steady s (s.putByte pa v) where
  mem h := State.wf_putByte h pa v
  pe := by simp
  pg := by simp
  cpl _ := by simp
  vm h := by simpa using h
  delivering := by simp
  insn := by simp
  inShutdown := by simp

theorem Steady.replay (s : State) (l : List (BitVec 32 × Byte)) : Steady s (replay s l) := by
  induction l generalizing s with
  | nil => exact .refl s
  | cons c t ih => exact (Steady.putByte s c.1 (s.byteAt c.1 ||| c.2)).trans (Steady.trans .of_same (ih _))

theorem Sane.rollback {s : State} {w : Work} (hs : Sane s) (hw : Sane w.s) : Sane (rollback s w) := by
  unfold Machine.rollback
  split
  · exact ⟨hw.mem, hw.paging, hw.real, hw.vm⟩
  · have hr := (Steady.replay s w.sticky).sane hs
    exact ⟨hr.mem, hr.paging, hr.real, hr.vm⟩

/-- However many exceptions follow one another, the last delivery ends or the processor shuts down. -/
theorem raiseExc_inv {fuel : Nat} {s t : State} {e : Exc} (hs : Sane s) (h : raiseExc fuel s e = .next t) : Inv t := by
  induction fuel generalizing s e with
  | zero =>
    cases h
    exact .shutDown hs
  | succ fuel ih =>
    have hn := hs.note e
    rw [raiseExc] at h
    extract_lets twice begun d at h
    split at h
    · cases h
      exact .shutDown hn
    · have hb : Sane begun := hn.of_delivering _
      have hd : Leads Sane d Idle := by
        unfold d
        split
        · exact deliver_leads _ _ _ _ _
        · exact deliver_leads _ _ _ _ _
      have hl := hd (Work.start begun true) hb
      split at h <;> rename_i hdw <;> rw [hdw] at hl
      · cases h
        exact .endStep hl
      · exact ih (hb.rollback hl) h
      · cases h
      · cases h
      · cases h
        exact .shutDown (hb.rollback hl)

/-- What comes of a meaning that ended idle, or stopped in a sane state. -/
theorem settle_inv {s t : State} {r : EStateM.Result Stop Work Unit} (hs : Sane s) (hr : After Idle r)
    (h : settle s r = .next t) : Inv t := by
  unfold settle at h
  split at h
  · cases h
    exact .endStep hr
  · exact raiseExc_inv (hs.rollback hr) h
  · cases h
  · cases h
  · cases h
    exact .shutDown (hs.rollback hr)

/-- The run of an instruction from an idle state ends as the invariant says. -/
def EndsInv (s : State) (o : Host.Outcome State Fault Refusal) : Prop := Idle s → ∀ t, o = .next t → Inv t

variable {lockable repeatable : Bool} {body : M Unit} {s : State}

theorem Leads.endsInv (h : Leads Idle body Idle) : EndsInv s (runWith lockable repeatable body s) := fun hs _ ht =>
  have hrun : Leads Idle (prefixesOk lockable repeatable >>= fun _ => body >>= fun _ => finish s) Idle :=
    .bind (prefixesOk_keeps _ _).idle fun _ => .bind h fun _ => (finish_keeps s).idle
  settle_inv hs.toSane (hrun (Work.start s false) hs) ht

theorem Keeps.endsInv (h : Keeps false body) : EndsInv s (runWith lockable repeatable body s) := h.idle.endsInv

end Sys2Proof.Machine
end


section
/-! The instructions keep the invariant, family by family in the order of the model's files. -/

namespace Sys2Proof.Machine

open Sys2Proof

-- One theorem after another, so that no more of them wait for each other than the memory limit has threads for.
set_option Elab.async false

variable {p : Bool} {s : State}

/-! ### System registers (40_system_registers.md) -/

theorem readTableReg_keeps (m : Mem) : Keeps p (readTableReg m) :=
  .bind .st fun _ => .bind (memRead2_accesses _ _ _ _).keeps fun _ => .pure

theorem writeTableReg_keeps (m : Mem) (t : TableReg) : Keeps p (writeTableReg m t) := by
  refine .bind .st fun s => .bind ?_ fun _ => (memWrite2_accesses _ _ _ _ _ _).keeps
  cases s.os with
  | w16 => exact .bind draw_accesses.keeps fun _ => .pure
  | w32 => exact .pure

theorem execLgdt_endsInv (rm : RM Reg) : EndsInv s (execLgdt rm s) :=
  Keeps.endsInv <| .bind (needMem_accesses _).keeps fun _ => .bind privileged_keeps fun _ =>
    .bind (readTableReg_keeps _) fun _ => .upd fun _ => .of_same

theorem execLidt_endsInv (rm : RM Reg) : EndsInv s (execLidt rm s) :=
  Keeps.endsInv <| .bind (needMem_accesses _).keeps fun _ => .bind privileged_keeps fun _ =>
    .bind (readTableReg_keeps _) fun _ => .upd fun _ => .of_same

theorem execSgdt_endsInv (rm : RM Reg) : EndsInv s (execSgdt rm s) :=
  Keeps.endsInv <| .bind (needMem_accesses _).keeps fun _ => .bind .st fun _ => writeTableReg_keeps _ _

theorem execSidt_endsInv (rm : RM Reg) : EndsInv s (execSidt rm s) :=
  Keeps.endsInv <| .bind (needMem_accesses _).keeps fun _ => .bind .st fun _ => writeTableReg_keeps _ _

theorem execLldt_endsInv (rm : RM Reg) : EndsInv s (execLldt rm s) :=
  Keeps.endsInv <| .bind protectedOnly_keeps fun _ => .bind privileged_keeps fun _ =>
    .bind (read16_accesses _).keeps fun _ => .ite (fun _ => .upd fun _ => .of_same) fun _ =>
      .bind .checkSel fun _ => .bind (fetchDesc_accesses _ _).keeps fun _ => .bind .checkSel fun _ =>
        .bind .checkSel fun _ => .upd fun _ => .of_same

theorem execSldt_endsInv (rm : RM Reg) : EndsInv s (execSldt rm s) :=
  Keeps.endsInv <| .bind protectedOnly_keeps fun _ => .bind .st fun _ => write16_keeps _ _

theorem execLtr_endsInv (rm : RM Reg) : EndsInv s (execLtr rm s) :=
  Keeps.endsInv <| .bind protectedOnly_keeps fun _ => .bind privileged_keeps fun _ =>
    .bind (read16_accesses _).keeps fun _ => .bind .check fun _ => .bind .checkSel fun _ =>
      .bind (fetchDesc_accesses _ _).keeps fun _ => .bind .need fun _ => .bind .checkSel fun _ =>
        .bind .checkSel fun _ => .bind (setAccessBits_accesses _ _).keeps fun _ => .upd fun _ => .of_same

theorem execStr_endsInv (rm : RM Reg) : EndsInv s (execStr rm s) :=
  Keeps.endsInv <| .bind protectedOnly_keeps fun _ => .bind .st fun _ =>
    .bind (.ite (fun _ => .pure) fun _ => draw16_accesses.keeps) fun _ => write16_keeps _ _

/-- CR0 takes a value with PG only where PE is: a change of PE makes CPL 0 (40 R137). -/
theorem Idle.writeCr0 {s : State} (h : Idle s) {c : Cr0} (hc : c.pg = true → c.pe = true) : Idle (writeCr0 c s) where
  mem := h.mem
  paging := hc
  real := fun he => by
    change c.pe = false at he
    change (if (c.pe != s.cr0.pe) = true then 0 else s.cpl) = 0
    split
    · rfl
    · exact h.real (by simp_all)
  vm := h.vm
  delivering := h.delivering

/-- LMSW sets PE or leaves it, and leaves PG (40 R133). -/
theorem execLmsw_endsInv (rm : RM Reg) : EndsInv s (execLmsw rm s) :=
  Leads.endsInv <| .bind privileged_keeps.idle fun _ => .bind (read16_accesses _).keeps.idle fun _ =>
    .upd fun _ h => h.writeCr0 fun hg => by simp [h.paging hg]

theorem execSmsw_endsInv (rm : RM Reg) : EndsInv s (execSmsw rm s) :=
  Keeps.endsInv <| .bind .st fun _ => .bind draw16_accesses.keeps fun _ => write16_keeps _ _

theorem execClts_endsInv : EndsInv s (execClts s) :=
  Keeps.endsInv <| .bind privileged_keeps fun _ => .upd fun _ => .of_same

theorem execMovRCr_endsInv (r : Reg) (n : BitVec 3) : EndsInv s (execMovRCr r n s) :=
  Keeps.endsInv <| .bind privileged_keeps fun _ => .bind .need fun _ => .bind .st fun _ =>
    .bind draw_accesses.keeps fun _ => .bind (.upd fun _ => .of_same) fun _ => freeStatus_keeps

/-- MOV CR0 refuses PG without PE (40 R137). -/
theorem execMovCrR_endsInv (n : BitVec 3) (r : Reg) : EndsInv s (execMovCrR n r s) := by
  refine Leads.endsInv <| .bind privileged_keeps.idle fun _ => .bind (Keeps.need).idle fun _ =>
    .bind Keeps.st.idle fun s => ?_
  extract_lets v status
  have hStatus : ∀ u, Leads Idle (status u) Idle := fun _ => freeStatus_keeps.idle
  split
  · refine .bind_check (fun _ h => h.toSane) fun hv => .bind (Q := Idle) (.upd fun _ h => h.writeCr0 fun hg => ?_) hStatus
    change bit v 31 = true at hg
    change bit v 0 = true
    simpa [hg] using hv
  · split
    · exact .bind (Keeps.upd fun _ => .of_same).idle hStatus
    · exact .bind (Keeps.upd fun _ => .of_same).idle hStatus

theorem generalDetect_keeps : Keeps p generalDetect :=
  .bind .st fun _ => .ite
    (fun _ => .bind (.ite (fun _ => .pure) fun _ => draw_accesses.keeps) fun _ => .raise)
    fun _ => .pure

theorem execMovRDr_endsInv (r : Reg) (n : BitVec 3) : EndsInv s (execMovRDr r n s) :=
  Keeps.endsInv <| .bind privileged_keeps fun _ => .bind generalDetect_keeps fun _ => .bind .need fun _ =>
    .bind .st fun _ => .bind draw_accesses.keeps fun _ => .bind (.upd fun _ => .of_same) fun _ => freeStatus_keeps

theorem writeDr_steady (n : BitVec 3) (v : BitVec 32) (s : State) : Steady s (writeDr n v s) := by
  unfold writeDr
  repeat' split
  all_goals exact .of_same

theorem execMovDrR_endsInv (n : BitVec 3) (r : Reg) : EndsInv s (execMovDrR n r s) :=
  Keeps.endsInv <| .bind privileged_keeps fun _ => .bind generalDetect_keeps fun _ => .bind .need fun _ =>
    .bind (.upd fun _ => writeDr_steady _ _ _) fun _ => freeStatus_keeps

theorem execMovRTr_endsInv (r : Reg) (n : BitVec 3) : EndsInv s (execMovRTr r n s) :=
  Keeps.endsInv <| .bind privileged_keeps fun _ => .bind .need fun _ => .bind .st fun _ =>
    .bind draw_accesses.keeps fun _ => .bind (.upd fun _ => .of_same) fun _ => freeStatus_keeps

theorem writtenAttr_keeps (x y : Bool) : Keeps p (writtenAttr x y) := .ite (fun _ => .pure) fun _ => drawBit_accesses.keeps

theorem tlbWrite_keeps (v : BitVec 32) : Keeps p (tlbWrite v) :=
  .bind .st fun _ => .bind .need fun _ => .bind (writtenAttr_keeps _ _) fun _ => .bind (writtenAttr_keeps _ _) fun _ =>
    .bind (writtenAttr_keeps _ _) fun _ => .bind .need fun _ => .upd fun _ => .of_same

theorem presentEntries_keeps (l : List TlbEntry) : Keeps p (presentEntries l) := by
  induction l with
  | nil => exact .pure
  | cons e t ih => exact .bind (.ite (fun _ => .pure) fun _ => drawBit_accesses.keeps) fun _ => .bind ih fun _ => .pure

theorem foundBlock_keeps (e : TlbEntry) : Keeps p (foundBlock e) :=
  .ite (fun _ => .pure) fun _ => .bind draw_accesses.keeps fun _ => .pure

theorem tlbLookup_keeps (v : BitVec 32) : Keeps p (tlbLookup v) := by
  refine .bind .st fun _ => .bind .need fun _ => .ite
    (fun _ => .bind draw_accesses.keeps fun _ => .upd fun _ => .of_same) fun _ => .bind (presentEntries_keeps _) fun l => ?_
  match l with
  | [] => exact .bind draw_accesses.keeps fun _ => .upd fun _ => .of_same
  | [e] => exact .bind (foundBlock_keeps e) fun _ => .upd fun _ => .of_same
  | _ :: _ :: _ => exact .refuse

theorem execMovTrR_endsInv (n : BitVec 3) (r : Reg) : EndsInv s (execMovTrR n r s) := by
  refine Keeps.endsInv <| .bind privileged_keeps fun _ => .bind .need fun _ => .bind .st fun _ => ?_
  extract_lets v status
  have hStatus : ∀ u, Keeps false (status u) := fun _ => freeStatus_keeps
  exact .ite (fun _ => .bind (.upd fun _ => .of_same) hStatus) fun _ => .bind (.upd fun _ => .of_same) fun _ =>
    .ite (fun _ => .bind (tlbLookup_keeps _) hStatus) fun _ => .bind (tlbWrite_keeps _) hStatus

theorem execHlt_endsInv : EndsInv s (execHlt s) :=
  Keeps.endsInv <| .bind privileged_keeps fun _ => .upd fun _ => .of_same

/-! ### Pointer validation (41_pointer_validation.md) -/

theorem testedDesc_keeps (sel : BitVec 16) : Keeps p (testedDesc sel) := by
  refine .ite (fun _ => .pure) fun _ => .bind (readDescriptor_accesses _).keeps fun o => ?_
  cases o with
  | none => exact .pure
  | some d =>
    exact .ite (fun _ => .bind drawBit_accesses.keeps fun _ =>
      .ite (fun _ => .bind (setAccessBits_accesses _ _).keeps fun _ => .pure) fun _ => .pure) fun _ => .pure

theorem testedSel_keeps (rm : RM Reg) : Keeps p (testedSel rm) :=
  .bind .st fun _ => .bind (Place.read_accesses _).keeps fun _ => .pure

theorem execLar_endsInv (r : Reg) (rm : RM Reg) : EndsInv s (execLar r rm s) := by
  refine Keeps.endsInv <| .bind protectedOnly_keeps fun _ => .bind (testedSel_keeps _) fun _ =>
    .bind (testedDesc_keeps _) fun o => .bind .st fun _ => ?_
  cases o with
  | none => exact setZf_keeps _
  | some d =>
    exact .ite (fun _ => .bind draw_accesses.keeps fun _ => .bind (.upd fun _ => .of_same) fun _ => setZf_keeps _)
      fun _ => setZf_keeps _

theorem execLsl_endsInv (r : Reg) (rm : RM Reg) : EndsInv s (execLsl r rm s) := by
  refine Keeps.endsInv <| .bind protectedOnly_keeps fun _ => .bind (testedSel_keeps _) fun _ =>
    .bind (testedDesc_keeps _) fun o => .bind .st fun _ => ?_
  cases o with
  | none => exact setZf_keeps _
  | some d => exact .ite (fun _ => .bind (.upd fun _ => .of_same) fun _ => setZf_keeps _) fun _ => setZf_keeps _

theorem execVerr_endsInv (rm : RM Reg) : EndsInv s (execVerr rm s) := by
  refine Keeps.endsInv <| .bind protectedOnly_keeps fun _ => .bind (read16_accesses _).keeps fun _ =>
    .bind (testedDesc_keeps _) fun o => .bind .st fun _ => ?_
  cases o with
  | none => exact setZf_keeps _
  | some d => exact setZf_keeps _

theorem execVerw_endsInv (rm : RM Reg) : EndsInv s (execVerw rm s) := by
  refine Keeps.endsInv <| .bind protectedOnly_keeps fun _ => .bind (read16_accesses _).keeps fun _ =>
    .bind (testedDesc_keeps _) fun o => .bind .st fun _ => ?_
  cases o with
  | none => exact setZf_keeps _
  | some d => exact setZf_keeps _

theorem execArpl_endsInv (rm : RM Reg) (r : Reg) : EndsInv s (execArpl rm r s) :=
  Keeps.endsInv <| .bind protectedOnly_keeps fun _ => .bind .st fun _ => .bind (read16_accesses _).keeps fun _ =>
    .ite (fun _ => .bind (Place.write_keeps _ _) fun _ => setZf_keeps _) fun _ => setZf_keeps _

/-! ### Segment registers (42_segment_loads.md) -/

theorem needSeg_keeps (n : BitVec 3) : Keeps p (needSeg n) := by
  unfold needSeg
  split
  · exact .pure
  · exact .raise

theorem shadowSs_keeps (r : SegReg) : Keeps p (shadowSs r) := .ite (fun _ => .upd fun _ => .of_same) fun _ => .pure

theorem execMovSregRm_endsInv (n : BitVec 3) (rm : RM Reg) : EndsInv s (execMovSregRm n rm s) :=
  Keeps.endsInv <| .bind (needSeg_keeps _) fun _ => .bind .check fun _ => .bind (read16_accesses _).keeps fun _ =>
    .bind (loadSeg_keeps _ _) fun _ => shadowSs_keeps _

theorem execMovRmSreg_endsInv (rm : RM Reg) (n : BitVec 3) : EndsInv s (execMovRmSreg rm n s) :=
  Keeps.endsInv <| .bind (needSeg_keeps _) fun _ => .bind .st fun _ => write16_keeps _ _

theorem pushSegBody_keeps (r : SegReg) : Keeps p (pushSegBody r) := .bind .st fun _ => pushSel_keeps _ _

theorem popSegBody_keeps (r : SegReg) : Keeps p (popSegBody r) :=
  .bind .st fun _ => .bind (stackRead_accesses _ _).keeps fun _ => .bind (loadSeg_keeps _ _) fun _ =>
    .bind (.upd fun _ => .of_same) fun _ => shadowSs_keeps _

theorem loadPtrBody_keeps (sr : SegReg) (r : Reg) (rm : RM Reg) : Keeps p (loadPtrBody sr r rm) :=
  .bind (needMem_accesses _).keeps fun _ => .bind .st fun _ => .bind (readFarPtr_accesses _).keeps fun _ =>
    .bind (loadSeg_keeps _ _) fun _ => .upd fun _ => .of_same

/-! ### Far transfers (43_control_transfer.md) -/

theorem pushReturn_keeps (n : Nat) : Keeps p (pushReturn n) :=
  .bind .st fun _ => .bind .check fun _ => .bind (pushSel_keeps _ _) fun _ => push_keeps _ _

/-- A CALL pushes where it returns to before it goes on to `x`. -/
theorem ifCall_keeps {kind : TransferKind} {n : Nat} {x : M Unit} (hx : Keeps p x) :
    Keeps p (if kind = .call then pushReturn n >>= fun _ => x else x) :=
  .ite (fun _ => .bind (pushReturn_keeps n) fun _ => hx) fun _ => hx

theorem farReal_keeps (kind : TransferKind) (sel : BitVec 16) (off : BitVec 32) : Keeps p (farReal kind sel off) :=
  .bind .st fun _ => .bind .check fun _ => ifCall_keeps (loadCsReal_keeps sel off)

theorem farDirect_keeps (kind : TransferKind) (sel : BitVec 16) (d : Desc) (off : BitVec 32) :
    Keeps p (farDirect kind sel d off) :=
  .bind .st fun _ => .bind .checkSel fun _ => .bind .checkSel fun _ => .bind .checkSel fun _ => .bind .check fun _ =>
    ifCall_keeps (loadCs_keeps _ _ _ _)

theorem callInner_keeps (g : Desc) (tsel : BitVec 16) (t : Desc) : Keeps true (callInner g tsel t) :=
  .bind .st fun _ => .bind (innerStack_accesses _ _).keeps fun _ => .bind .check fun _ =>
    .bind (.gather fun _ => (stackRead_accesses _ _).keeps) fun _ => .bind (enterStack_keeps _ _ _ _) fun _ =>
      .bind (pushSel_keeps _ _) fun _ => .bind (push_keeps _ _) fun _ => .bind (.each fun _ => push_keeps _ _) fun _ =>
        .bind (pushSel_keeps _ _) fun _ => .bind (push_keeps _ _) fun _ => loadCs_keeps _ _ _ _

theorem gateSame_keeps (kind : TransferKind) (tsel : BitVec 16) (t : Desc) (toff : BitVec 32) :
    Keeps p (gateSame kind tsel t toff) :=
  .bind .st fun _ => .bind .check fun _ => ifCall_keeps (loadCs_keeps _ _ _ _)

theorem farGate_keeps (kind : TransferKind) (gsel : BitVec 16) (g : Desc) : Keeps true (farGate kind gsel g) :=
  .bind .st fun _ => .bind .checkSel fun _ => .bind .checkSel fun _ => .bind .check fun _ =>
    .bind (fetchDesc_accesses _ _).keeps fun _ => .bind .checkSel fun _ => .bind .checkSel fun _ =>
      .bind .checkSel fun _ => .bind .checkSel fun _ =>
        .ite (fun _ => callInner_keeps _ _ _) fun _ => gateSame_keeps _ _ _ _

theorem farTss_keeps (kind : TransferKind) (sel : BitVec 16) (d : Desc) : Keeps true (farTss kind sel d) :=
  .bind .st fun _ => .bind .checkSel fun _ => .bind .checkSel fun _ => taskSwitch_keeps _ _ _ _ _

theorem farTaskGate_keeps (kind : TransferKind) (gsel : BitVec 16) (g : Desc) : Keeps true (farTaskGate kind gsel g) :=
  .bind .st fun _ => .bind .checkSel fun _ => .bind .checkSel fun _ => switchThroughGate_keeps _ _ _ _

theorem farTransfer_keeps (kind : TransferKind) (sel : BitVec 16) (off : BitVec 32) :
    Keeps true (farTransfer kind sel off) :=
  .bind .check fun _ => .bind (fetchDesc_accesses _ _).keeps fun _ =>
    .ite (fun _ => farDirect_keeps _ _ _ _) fun _ => .ite (fun _ => farGate_keeps _ _ _) fun _ =>
      .ite (fun _ => farTaskGate_keeps _ _ _) fun _ => .ite (fun _ => farTss_keeps _ _ _) fun _ =>
        .ite (fun _ => .refuse) fun _ => .checkSel

theorem farBody_keeps (kind : TransferKind) (sel : BitVec 16) (off : BitVec 32) : Keeps false (farBody kind sel off) := by
  refine .byMode (fun s hs => ?_) fun s hs => ?_ <;> extract_lets ended <;> rw [hs]
  · exact .bind (farTransfer_keeps _ _ _) fun _ => .ite (fun _ => needNext_keeps _) fun _ => .pure
  · exact .bind (farReal_keeps _ _ _) fun _ => .ite (fun _ => needNext_keeps _) fun _ => .pure

theorem farMemBody_keeps (kind : TransferKind) (rm : RM Reg) : Keeps false (farMemBody kind rm) :=
  .bind (needMem_accesses _).keeps fun _ => .bind (readFarPtr_accesses _).keeps fun _ => farBody_keeps _ _ _

theorem retfReal_keeps (count : BitVec 16) : Keeps p (retfReal count) :=
  .bind .st fun _ => .bind (pop_keeps _) fun _ => .bind (pop_keeps _) fun _ => .bind .check fun _ =>
    .bind (stackDrop_keeps _) fun _ => loadCsReal_keeps _ _

theorem retfProtected_keeps (count : BitVec 16) : Keeps true (retfProtected count) :=
  .bind .st fun _ => .bind (roomAbove_keeps _) fun _ => .bind (stackRead_accesses _ _).keeps fun _ =>
    .bind (stackRead_accesses _ _).keeps fun _ => .bind (returnCs_keeps _) fun _ =>
      .ite (fun _ => .bind .check fun _ => .bind (loadCs_keeps _ _ _ _) fun _ => stackDrop_keeps _) fun _ =>
        .bind (roomAbove_keeps _) fun _ => .bind (stackRead_accesses _ _).keeps fun _ =>
          .bind (stackRead_accesses _ _).keeps fun _ => .bind (returnSs_keeps _ _) fun _ => .bind .check fun _ =>
            returnOuter_keeps _ _ _ _ _ _ _

theorem retfBody_keeps (count : BitVec 16) : Keeps false (retfBody count) := by
  refine .byMode (fun s hs => ?_) fun s hs => ?_ <;> rw [hs]
  · exact retfProtected_keeps _
  · exact retfReal_keeps _

/-! ### Near transfers (48 R270-R274) -/

theorem jmpNear_keeps (target : BitVec 32) : Keeps p (jmpNear target) :=
  .bind (.bind .st fun _ => .check) fun _ => jumpTo_keeps _

theorem relTarget_keeps (rel : BitVec 32) : Keeps p (relTarget rel) := .bind .st fun _ => .pure

theorem jmpRelBody_keeps (rel : BitVec 32) : Keeps p (jmpRelBody rel) := .bind (relTarget_keeps _) fun _ => jmpNear_keeps _

theorem jccBody_keeps (c : Cond) (rel : BitVec 32) : Keeps p (jccBody c rel) :=
  .bind .st fun _ => .ite (fun _ => jmpRelBody_keeps _) fun _ => .pure

theorem callNear_keeps (target : BitVec 32) : Keeps p (callNear target) :=
  .bind (.bind .st fun _ => .check) fun _ => .bind .st fun _ => .bind (push_keeps _ _) fun _ =>
    .bind (jumpTo_keeps _) fun _ => needNext_keeps _

theorem retBody_keeps (count : BitVec 16) : Keeps p (retBody count) :=
  .bind .st fun _ => .bind (stackRead_accesses _ _).keeps fun _ => .bind (.bind .st fun _ => .check) fun _ =>
    .bind (stackDrop_keeps _) fun _ => jumpTo_keeps _

/-- A near transfer through an operand goes where `next` takes it. -/
theorem throughOperand_endsInv {place : State → Place} {next : BitVec 32 → M Unit} (h : ∀ t, Keeps false (next t)) :
    EndsInv s (run (do
      let u ← st
      let t ← (place u).read
      next t) s) :=
  Keeps.endsInv <| .bind .st fun _ => .bind (Place.read_accesses _).keeps fun _ => h _

/-! ### Moves, arithmetic, shifts and bits (48_support_subset.md) -/

theorem movBody_keeps (dst src : Place) : Keeps p (movBody dst src) :=
  .bind (Place.read_accesses _).keeps fun _ => Place.write_keeps _ _

theorem popR_keeps (n : Nat) (d : Place) : Keeps p (pop n >>= d.write) := .bind (pop_keeps n) fun _ => d.write_keeps _

theorem aluBody_keeps (op : AluOp) (dst : Place) {src : M (BitVec 32)} (hsrc : Keeps p src) :
    Keeps p (aluBody op dst src) := by
  unfold aluBody
  extract_lets operate
  have hOperate : ∀ u, Keeps p (operate u) := fun _ =>
    .bind (Place.read_accesses _).keeps fun _ => .bind hsrc fun _ => .bind .st fun _ =>
      .bind (.ite (fun _ => drawBit_accesses.keeps) fun _ => .pure) fun _ =>
        .ite (fun _ => .bind (Place.write_keeps _ _) fun _ => setStatus_keeps _) fun _ => setStatus_keeps _
  exact .ite (fun _ => .bind (Place.probe_accesses _).keeps hOperate) fun _ => hOperate ()

theorem runAlu_endsInv {op : AluOp} {mem : Bool} {dst : Place} {src : M (BitVec 32)} (hsrc : Keeps false src) :
    EndsInv s (runAlu op mem dst src s) := (aluBody_keeps op dst hsrc).endsInv

theorem unaryBody_keeps (dst : Place) (f : {n : Nat} → BitVec n → BitVec n × Status) {flags : Status → M Unit}
    (h : ∀ t, Keeps p (flags t)) : Keeps p (unaryBody dst f flags) :=
  .bind (Place.probe_accesses _).keeps fun _ => .bind (Place.read_accesses _).keeps fun _ =>
    .bind (Place.write_keeps _ _) fun _ => h _

theorem incBody_keeps (dst : Place) : Keeps p (incBody dst) := unaryBody_keeps _ _ setStatusKeepCf_keeps

theorem decBody_keeps (dst : Place) : Keeps p (decBody dst) := unaryBody_keeps _ _ setStatusKeepCf_keeps

theorem notBody_keeps (dst : Place) : Keeps p (notBody dst) := unaryBody_keeps _ _ fun _ => .pure

theorem negBody_keeps (dst : Place) : Keeps p (negBody dst) := unaryBody_keeps _ _ setStatus_keeps

theorem storeDiv_steady (w : Width) (q r : BitVec 32) (s : State) : Steady s (storeDiv w q r s) := by
  cases w with
  | _ => exact .of_same

theorem divBody_keeps (src : Place) : Keeps p (divBody src) :=
  .bind (Place.read_accesses _).keeps fun _ => .bind .st fun _ => .bind .check fun _ =>
    .bind (.upd fun _ => storeDiv_steady _ _ _ _) fun _ => freeStatus_keeps

theorem idivBody_keeps (src : Place) : Keeps p (idivBody src) :=
  .bind (Place.read_accesses _).keeps fun _ => .bind .st fun _ => .bind .check fun _ =>
    .bind (.upd fun _ => storeDiv_steady _ _ _ _) fun _ => freeStatus_keeps

theorem shiftBody_keeps (op : ShiftOp) (dst : Place) (count : Byte) : Keeps p (shiftBody op dst count) :=
  .bind (Place.probe_accesses _).keeps fun _ => .bind (Place.read_accesses _).keeps fun _ =>
    .ite (fun _ => .pure) fun _ => .bind drawStatus_keeps fun _ => .bind (Place.write_keeps _ _) fun _ => setStatus_keeps _

theorem bitBody_keeps (op : BitOp) (dst : Place) (offset : BitVec 32) : Keeps p (bitBody op dst offset) :=
  .bind (Place.probe_accesses _).keeps fun _ => .bind (Place.read_accesses _).keeps fun _ =>
    .bind (Place.write_keeps _ _) fun _ => .bind drawStatus_keeps fun _ => setStatus_keeps _

/-! ### Strings, input and output (45_io.md) -/

theorem repeated_keeps {element : M Unit} (h : Keeps p element) : Keeps p (repeated element) :=
  .bind .st fun _ => .ite (fun _ => h) fun _ => .ite (fun _ => .pure) fun _ =>
    .bind h fun _ => .bind (.upd fun _ => .of_same) fun _ => .ite (fun _ => .pure) fun _ => .mark

theorem movsElement_keeps (n : Nat) : Keeps p (movsElement n) :=
  .bind .st fun _ => .bind (memProbe_accesses _ _ _ _).keeps fun _ => .bind (memRead_accesses _ _ _).keeps fun _ =>
    .bind (memWrite_accesses _ _ _ _).keeps fun _ => .upd fun _ => .of_same

theorem insElement_keeps (n : Nat) : Keeps p (insElement n) :=
  .bind .st fun _ => .bind (ioPermission_accesses _ _).keeps fun _ => .bind (segCheck_accesses _ _ _ _).keeps fun _ =>
    .bind (linAccess_accesses _ _ _ _).keeps fun _ => .bind (noteData_accesses _ _ _).keeps fun _ =>
      .bind (ioRead_accesses _ _).keeps fun _ => .bind (physWriteAt_accesses _ _).keeps fun _ => .upd fun _ => .of_same

theorem outsElement_keeps (n : Nat) : Keeps p (outsElement n) :=
  .bind .st fun _ => .bind (ioPermission_accesses _ _).keeps fun _ => .bind (memRead_accesses _ _ _).keeps fun _ =>
    .bind (ioWrite_accesses _ _ _).keeps fun _ => .upd fun _ => .of_same

theorem inBody_keeps (port : BitVec 16) (dst : Place) : Keeps p (inBody port dst) :=
  .bind (ioPermission_accesses _ _).keeps fun _ => .bind (ioRead_accesses _ _).keeps fun _ => Place.write_keeps _ _

theorem outBody_keeps (port : BitVec 16) (src : Place) : Keeps p (outBody port src) :=
  .bind (ioPermission_accesses _ _).keeps fun _ => .bind (Place.read_accesses _).keeps fun _ =>
    (ioWrite_accesses _ _ _).keeps

theorem ioplSensitive_keeps : Keeps p ioplSensitive := .bind .st fun _ => .check

theorem execCli_endsInv : EndsInv s (execCli s) :=
  Keeps.endsInv <| .bind ioplSensitive_keeps fun _ => .upd fun _ => .of_same

theorem execSti_endsInv : EndsInv s (execSti s) :=
  Keeps.endsInv <| .bind ioplSensitive_keeps fun _ => .upd fun _ => .of_same

/-- POPF leaves VM (45 R213). -/
theorem execPopf_endsInv : EndsInv s (execPopf s) :=
  Keeps.endsInv <| .bind (pop_keeps _) fun _ => .bind (.upd fun _ => .of_same) fun _ => .mark

/-! ### Interrupt instructions, ESC, WAIT and XCHG (46, 47) -/

theorem execInto_endsInv : EndsInv s (execInto s) := by
  refine Leads.endsInv ?_
  split
  · exact softInt_leads 4
  · exact (Keeps.pure).idle

theorem execBound_endsInv (r : Reg) (rm : RM Reg) : EndsInv s (execBound r rm s) :=
  Keeps.endsInv <| .bind (needMem_accesses _).keeps fun _ => .bind (memRead2_accesses _ _ _ _).keeps fun _ => .check

theorem execEsc_endsInv (opc reg : BitVec 3) (rm : RM Reg) : EndsInv s (execEsc opc reg rm s) :=
  Keeps.endsInv <| .bind .check fun _ => .refuse

theorem execWait_endsInv : EndsInv s (execWait s) :=
  Keeps.endsInv <| .bind .check fun _ => .ite (fun _ => .mark) fun _ => .check

theorem xchgBody_keeps (dst reg : Place) : Keeps p (xchgBody dst reg) :=
  .bind (Place.probe_accesses _).keeps fun _ => .bind (Place.read_accesses _).keeps fun _ =>
    .bind (Place.read_accesses _).keeps fun _ => .bind (Place.write_keeps _ _) fun _ => Place.write_keeps _ _

/-! ### Every instruction -/

/-- Prefixes are recorded, and nothing else happens (30 R106). -/
theorem exec_records {i : Instr} (h : isPfx i = true) (s : State) : ∃ n, exec i s = .next { s with insn := n } := by
  cases i with
  | lock | rep | repne | segEs | segCs | segSs | segDs | segFs | segGs | opSize | addrSize => exact ⟨_, rfl⟩
  | _ => cases h

/-- Every instruction other than the prefixes ends as the invariant says. -/
theorem exec_endsInv {i : Instr} (h : isPfx i = false) (s : State) : EndsInv s (exec i s) := by
  cases i with
  | lock | rep | repne | segEs | segCs | segSs | segDs | segFs | segGs | opSize | addrSize => cases h
  | sgdt rm => exact execSgdt_endsInv rm
  | sidt rm => exact execSidt_endsInv rm
  | lgdt rm => exact execLgdt_endsInv rm
  | lidt rm => exact execLidt_endsInv rm
  | smsw rm => exact execSmsw_endsInv rm
  | lmsw rm => exact execLmsw_endsInv rm
  | sldt rm => exact execSldt_endsInv rm
  | str rm => exact execStr_endsInv rm
  | lldt rm => exact execLldt_endsInv rm
  | ltr rm => exact execLtr_endsInv rm
  | verr rm => exact execVerr_endsInv rm
  | verw rm => exact execVerw_endsInv rm
  | clts => exact execClts_endsInv
  | movRCr r n => exact execMovRCr_endsInv r n
  | movRDr r n => exact execMovRDr_endsInv r n
  | movCrR n r => exact execMovCrR_endsInv n r
  | movDrR n r => exact execMovDrR_endsInv n r
  | movRTr r n => exact execMovRTr_endsInv r n
  | movTrR n r => exact execMovTrR_endsInv n r
  | hlt => exact execHlt_endsInv
  | lar r rm => exact execLar_endsInv r rm
  | lsl r rm => exact execLsl_endsInv r rm
  | arpl rm r => exact execArpl_endsInv rm r
  | movSregRm n rm => exact execMovSregRm_endsInv n rm
  | movRmSreg rm n => exact execMovRmSreg_endsInv rm n
  | pushEs | pushCs | pushSs | pushDs | pushFs | pushGs => exact (pushSegBody_keeps _).endsInv
  | popEs | popSs | popDs | popFs | popGs => exact (popSegBody_keeps _).endsInv
  | les | lds | lss | lfs | lgs => exact (loadPtrBody_keeps _ _ _).endsInv
  | jmpPtr | callPtr => exact (farBody_keeps _ _ _).endsInv
  | jmpFarM | callFarM => exact (farMemBody_keeps _ _).endsInv
  | retf | retfImm16 => exact (retfBody_keeps _).endsInv
  | inAlImm8 | inEaxImm8 | inAlDx | inEaxDx => exact (inBody_keeps _ _).endsInv
  | outImm8Al | outImm8Eax | outDxAl | outDxEax => exact (outBody_keeps _ _).endsInv
  | insb | insv => exact (repeated_keeps (insElement_keeps _)).endsInv
  | outsb | outsv => exact (repeated_keeps (outsElement_keeps _)).endsInv
  | cli => exact execCli_endsInv
  | sti => exact execSti_endsInv
  | pushf | pushR => exact (push_keeps _ _).endsInv
  | popf => exact execPopf_endsInv
  | intImm8 | int3 => exact (softInt_leads _).endsInv
  | into => exact execInto_endsInv
  | bound r rm => exact execBound_endsInv r rm
  | iret => exact iretBody_keeps.endsInv
  | esc opc reg rm => exact execEsc_endsInv opc reg rm
  | wait => exact execWait_endsInv
  | xchgRm8R8 | xchgRmR | xchgEaxR => exact (xchgBody_keeps _ _).endsInv
  | nop => exact (Keeps.pure).endsInv
  | movRm8R8 | movRmR | movR8Rm8 | movRRm | movAlMoffs | movEaxMoffs | movMoffsAl | movMoffsEax =>
    exact (movBody_keeps _ _).endsInv
  | movR8Imm8 | movRImm | movRm8Imm8 | movRmImm => exact (Place.write_keeps _ _).endsInv
  | popR => exact (popR_keeps _ _).endsInv
  | addRm8R8 | addRmR | addR8Rm8 | addRRm | orRm8R8 | orRmR | orR8Rm8 | orRRm | adcRm8R8 | adcRmR | adcR8Rm8 | adcRRm
  | sbbRm8R8 | sbbRmR | sbbR8Rm8 | sbbRRm | andRm8R8 | andRmR | andR8Rm8 | andRRm | subRm8R8 | subRmR | subR8Rm8 | subRRm
  | xorRm8R8 | xorRmR | xorR8Rm8 | xorRRm | cmpRm8R8 | cmpRmR | cmpR8Rm8 | cmpRRm | testRm8R8 | testRmR =>
    exact runAlu_endsInv (Place.read_accesses _).keeps
  | addAlImm8 | addEaxImm | addRm8Imm8 | addRmImm | addRmImm8 | orAlImm8 | orEaxImm | orRm8Imm8 | orRmImm | orRmImm8
  | adcAlImm8 | adcEaxImm | adcRm8Imm8 | adcRmImm | adcRmImm8 | sbbAlImm8 | sbbEaxImm | sbbRm8Imm8 | sbbRmImm | sbbRmImm8
  | andAlImm8 | andEaxImm | andRm8Imm8 | andRmImm | andRmImm8 | subAlImm8 | subEaxImm | subRm8Imm8 | subRmImm | subRmImm8
  | xorAlImm8 | xorEaxImm | xorRm8Imm8 | xorRmImm | xorRmImm8 | cmpAlImm8 | cmpEaxImm | cmpRm8Imm8 | cmpRmImm | cmpRmImm8
  | testAlImm8 | testEaxImm | testRm8Imm8 | testRmImm => exact runAlu_endsInv .pure
  | incR | incRm8 | incRm => exact (incBody_keeps _).endsInv
  | decR | decRm8 | decRm => exact (decBody_keeps _).endsInv
  | notRm8 | notRm => exact (notBody_keeps _).endsInv
  | negRm8 | negRm => exact (negBody_keeps _).endsInv
  | divRm8 | divRm => exact (divBody_keeps _).endsInv
  | idivRm8 | idivRm => exact (idivBody_keeps _).endsInv
  | shlRm8One | shlRmOne | shlRm8Cl | shlRmCl | shlRm8Imm8 | shlRmImm8
  | shrRm8One | shrRmOne | shrRm8Cl | shrRmCl | shrRm8Imm8 | shrRmImm8
  | sarRm8One | sarRmOne | sarRm8Cl | sarRmCl | sarRm8Imm8 | sarRmImm8 => exact (shiftBody_keeps _ _ _).endsInv
  | btsRmR | btsRmImm8 | btrRmR | btrRmImm8 | btcRmR | btcRmImm8 => exact (bitBody_keeps _ _ _).endsInv
  | cld | std => exact (Keeps.upd fun _ => .of_same).endsInv
  | movsb | movsv => exact (repeated_keeps (movsElement_keeps _)).endsInv
  | jmpRel8 | jmpRel => exact (jmpRelBody_keeps _).endsInv
  | jccRel8 | jccRel => exact (jccBody_keeps _ _).endsInv
  | callRel rel => exact Keeps.endsInv (.bind (relTarget_keeps _) fun _ => callNear_keeps _)
  | jmpRm rm => exact throughOperand_endsInv jmpNear_keeps
  | callRm rm => exact throughOperand_endsInv callNear_keeps
  | ret | retImm16 => exact (retBody_keeps _).endsInv

end Sys2Proof.Machine
end


section
/-! The step: inputs, the boundary, the fetch and the instruction keep the invariant. -/

namespace Sys2Proof.Machine

open Sys2Proof

-- One theorem after another, so that no more of them wait for each other than the memory limit has threads for.
set_option Elab.async false

variable {p : Bool}

/-! ### The inputs of a step -/

theorem masterWrite_steady (s : State) (c : Host.Cell) : Steady s (masterWrite s c) := by
  unfold masterWrite
  dsimp only
  split
  · exact (Steady.putByte s (BitVec.ofNat 32 c.1) c.2).trans .of_same
  · exact .refl s

theorem masterWrites_steady (s : State) (l : List Host.Cell) : Steady s (masterWrites s l) := by
  induction l generalizing s with
  | nil => exact .refl s
  | cons c t ih => exact (masterWrite_steady s c).trans (ih _)

theorem takeInput_steady (s : State) : Steady s (takeInput s) := Steady.trans .of_same (masterWrites_steady _ _)

/-- The writes of other masters leave the world. -/
theorem masterWrites_env (s : State) (l : List Host.Cell) : (masterWrites s l).env = s.env := by
  induction l generalizing s with
  | nil => rfl
  | cons c t ih =>
    rw [masterWrites, ih]
    unfold masterWrite
    dsimp only
    split
    · exact s.putByte_env _ _
    · rfl

theorem takeInput_platform (s : State) : (takeInput s).env.platform = s.env.platform := by
  unfold takeInput
  dsimp only
  rw [masterWrites_env]

theorem sample_steady (nmi : Bool) (s : State) : Steady s (sample nmi s) := .of_same

/-! ### The boundary and the fetch -/

theorem boundary_keeps (shadow sti : Bool) : Keeps p (boundary shadow sti) := by
  refine .bind .st fun s => .ite (fun _ => .bind (.upd fun _ => .of_same) fun _ => .pure) fun _ =>
    .bind .need fun _ => .ite
      (fun _ => .bind (.ite (fun _ => .pure) fun _ => draw_accesses.keeps) fun _ =>
        .bind (.upd fun _ => .of_same) fun _ => .pure) fun _ =>
      .ite (fun _ => .bind (.upd fun _ => .of_same) fun _ => .pure) fun _ => ?_
  extract_lets go
  cases go with
  | none => exact .pure
  | some vec =>
    exact .bind (.ite (fun _ => drawBit_accesses.keeps) fun _ => .pure) fun _ => .ite (fun _ => .pure) fun _ =>
      .bind (.upd fun _ => .of_same) fun _ => .pure

/-- Which sizes the bytes ahead were decoded under is noted with the prefixes (70 R344). -/
theorem chooseSizes_leads : Leads Idle chooseSizes Idle := by
  refine .bind Keeps.st.idle fun s => ?_
  split
  · exact .bind drawBit_accesses.keeps.idle fun _ => .upd fun _ h => ⟨⟨h.mem, h.paging, h.real, h.vm⟩, h.delivering⟩
  · exact (Keeps.pure).idle

theorem outsideInstr_keeps {α : Type} (m : String) (ident : Bool) : Keeps p (outsideInstr m ident : M α) := by
  refine .bind .st fun s => .ite (fun _ => ?_) fun _ => .refuse
  split
  · exact .refuse
  · exact .raise

theorem fetchInstr_keeps (fuel : Nat) (bytes : List Byte) (ident : Bool) : Keeps p (fetchInstr fuel bytes ident) := by
  induction fuel generalizing bytes ident with
  | zero => exact .raise
  | succ fuel ih =>
    refine .bind .st fun s => ?_
    split
    · exact .pure
    · exact outsideInstr_keeps _ _
    · exact .refuse
    · exact .bind .check fun _ => .bind (fetchByte_accesses _).keeps fun _ => ih _ _

/-! ### The instruction -/

/-- Prefixes and the instruction after them, from an idle state. -/
theorem runInstr_inv {fuel : Nat} {ident : Bool} {s t : State} (hs : Idle s)
    (h : runInstr exec fuel ident s = .next t) : Inv t := by
  induction fuel generalizing s ident with
  | zero => exact settle_inv hs.toSane ((Keeps.raise).idle (Work.start s false) hs) h
  | succ fuel ih =>
    have hf := (fetchInstr_keeps 16 [] ident).idle (Work.start s false) hs
    rw [runInstr] at h
    split at h <;> rename_i hr <;> rw [hr] at hf
    · rename_i i n same w
      have withInsn (f : Prefetch) (k : Insn) : Idle { w.s with prefetch := f, insn := k } :=
        ⟨⟨hf.mem, hf.paging, hf.real, hf.vm⟩, hf.delivering⟩
      cases hi : isPfx i with
      | true =>
        obtain ⟨k, hk⟩ := exec_records hi w.s
        simp only [hi, if_true, hk] at h
        exact ih (withInsn w.s.prefetch k) h
      | false =>
        rw [hi, if_neg Bool.false_ne_true] at h
        split at h
        · cases h
        · exact exec_endsInv hi _ (withInsn _ _) t h
    · exact settle_inv hs.toSane (r := .error _ _) hf h

/-! ### The RESET signal (70 R337) -/

/-- What RESET leaves, on the platform `p` with the memory `m`: the state of reset, but that the registers which the manual
leaves undefined (10 R58) hold free values. -/
structure ResetFrom (p : Platform) (m : List Host.Cell) (t : State) : Prop where
  same : t = { State.reset with
    gpr := t.gpr
    segs := SegRegs.reset p.csSelector.selector
    cr0 := { State.reset.cr0 with et := p.coproc == .i80387 }
    cr2 := t.cr2
    pdbr := t.pdbr
    gdtr := t.gdtr
    ldtr := t.ldtr
    tr := t.tr
    dr0 := t.dr0
    dr1 := t.dr1
    dr2 := t.dr2
    dr3 := t.dr3
    dr6 := t.dr6
    dr7 := t.dr7
    tr6 := t.tr6
    tr7 := t.tr7
    tlb := t.tlb
    mem := m
    env := t.env }
  edx : (t.reg .edx).extractLsb' 0 16 = 3#8 ++ p.stepping
  passed : p.selfTest = .passed → t.reg .eax = 0
  failed : ∀ v, p.selfTest = .failed v → t.reg .eax ≠ 0 ∧ (v ≠ 0 → t.reg .eax = v)
  dr7 : t.dr7.extractLsb' 0 10 = 0

theorem ResetFrom.inv {p : Platform} {m : List Host.Cell} {t : State} (h : ResetFrom p m t) (hm : Memory.wf m = true) :
    Inv t := by
  rw [h.same]
  exact ⟨hm, nofun, fun _ => rfl, rfl, rfl, fun _ => rfl⟩

/-- `m` answers a value that meets `Q`, and changes nothing but the world. -/
def Draws {α : Type} (Q : α → Prop) (m : M α) : Prop :=
  ∀ w : Work, ∃ a e, m w = .ok a { w with s := { w.s with env := e } } ∧ Q a

/-- `m` ends well, in what RESET leaves. -/
def Resets (p : Platform) (m : List Host.Cell) (x : M Unit) : Prop :=
  ∀ w : Work, w.s.mem = m → ∃ v, x w = .ok () v ∧ ResetFrom p m v.s

section
variable {α β : Type} {Q : α → Prop} {R : β → Prop}

theorem draw_draws : Draws (fun _ => True) draw := fun w =>
  let ⟨v, e, h, _⟩ := draw_ok w
  ⟨v, e, h, trivial⟩

theorem Draws.mono {x : M α} {Q' : α → Prop} (hx : Draws Q x) (h : ∀ a, Q a → Q' a) : Draws Q' x := fun w =>
  let ⟨a, e, hw, ha⟩ := hx w
  ⟨a, e, hw, h a ha⟩

theorem Draws.pure {a : α} (h : Q a) : Draws Q (pure a : M α) := fun w => ⟨a, w.s.env, rfl, h⟩

theorem Draws.bind {x : M α} {f : α → M β} (hx : Draws Q x) (hf : ∀ a, Q a → Draws R (f a)) : Draws R (x >>= f) := by
  intro w
  obtain ⟨a, e, h, ha⟩ := hx w
  obtain ⟨b, e', h', hb⟩ := hf a ha { w with s := { w.s with env := e } }
  refine ⟨b, e', ?_, hb⟩
  rw [M.run_bind, h]
  exact h'

theorem Draws.map {x : M α} (hx : Draws Q x) {f : α → β} : Draws (fun _ => True) (x >>= fun a => Pure.pure (f a)) :=
  hx.bind fun _ _ => .pure trivial

theorem Draws.gather {f : α → M β} (hf : ∀ a, Draws (fun _ => True) (f a)) (l : List α) :
    Draws (fun _ => True) (gather f l) := by
  induction l with
  | nil => exact .pure trivial
  | cons a t ih => exact (hf a).bind fun _ _ => ih.bind fun _ _ => .pure trivial

theorem Draws.resets {p : Platform} {m : List Host.Cell} {x : M α} {f : α → M Unit} (hx : Draws Q x)
    (hf : ∀ a, Q a → Resets p m (f a)) : Resets p m (x >>= f) := by
  intro w hw
  obtain ⟨a, e, h, ha⟩ := hx w
  obtain ⟨v, h', hv⟩ := hf a ha { w with s := { w.s with env := e } } hw
  refine ⟨v, ?_, hv⟩
  rw [M.run_bind, h]
  exact h'

end

theorem drawTlbEntry_draws (i : Nat) : Draws (fun _ => True) (drawTlbEntry i) :=
  draw_draws.bind fun _ _ => draw_draws.bind fun _ _ => .pure trivial

/-- EAX after reset by the self-test (70 R338). -/
theorem resetEax_draws (t : SelfTest) :
    Draws (fun eax => (t = .passed → eax = 0) ∧ ∀ v, t = .failed v → eax ≠ 0 ∧ (v ≠ 0 → eax = v)) (resetEax t) := by
  cases t with
  | notRequested => exact draw_draws.mono fun _ _ => ⟨nofun, nofun⟩
  | passed => exact .pure ⟨fun _ => rfl, nofun⟩
  | failed u =>
    refine .pure ⟨nofun, fun v hv => ?_⟩
    cases hv
    split
    · exact ⟨by decide, fun h => absurd ‹_› h⟩
    · exact ⟨‹_›, fun _ => rfl⟩

theorem resetSignal_resets (w : Work) :
    ∃ v, resetSignal w = .ok () v ∧ ResetFrom w.s.env.platform w.s.mem v.s := by
  unfold resetSignal
  rw [M.run_bind, run_st]
  dsimp only
  refine (resetEax_draws w.s.env.platform.selfTest).resets (fun eax heax =>
    draw_draws.resets fun edx _ => draw_draws.resets fun ecx _ => draw_draws.resets fun ebx _ =>
    draw_draws.resets fun esp _ => draw_draws.resets fun ebp _ => draw_draws.resets fun esi _ =>
    draw_draws.resets fun edi _ => draw_draws.resets fun cr2 _ => draw_draws.resets fun cr3 _ =>
    draw_draws.resets fun gb _ => draw_draws.map.resets fun gl _ => draw_draws.resets fun lb _ =>
    draw_draws.resets fun ll _ => draw_draws.map.resets fun ls _ => draw_draws.map.resets fun lv _ =>
    draw_draws.resets fun tb _ => draw_draws.resets fun tl _ => draw_draws.map.resets fun ts _ =>
    draw_draws.resets fun d0 _ => draw_draws.resets fun d1 _ => draw_draws.resets fun d2 _ =>
    draw_draws.resets fun d3 _ => draw_draws.resets fun d6 _ => draw_draws.resets fun d7 _ =>
    draw_draws.resets fun t6 _ => draw_draws.resets fun t7 _ =>
    (Draws.gather drawTlbEntry_draws _).resets fun tlb _ => ?_) w rfl
  intro u hu
  refine ⟨_, rfl, ?_, ?_, heax.1, heax.2, ?_⟩
  · rw [← hu]
  · exact BitVec.extractLsb'_append_eq_right
  · change (d7 &&& 0xFFFF0000#32).extractLsb' 0 10 = 0
    rw [BitVec.extractLsb'_and]
    exact BitVec.and_zero

/-! ### The step -/

theorem deliverEvent_inv {vec : Byte} {fault taskTrap : Bool} {s t : State} (hs : Sane s)
    (h : deliverEvent vec fault taskTrap s = .next t) : Inv t :=
  have hb := hs.of_delivering .benign
  settle_inv hb (deliver_leads vec fault .none false s.eip { Work.start _ true with taskTrap := taskTrap } hb) h

/-- A step in which RESET is active. -/
theorem step_reset {s : State} (h : (nextInput s).reset = true) :
    ∃ t, step s = .next t ∧ ResetFrom s.env.platform (takeInput s).mem t := by
  obtain ⟨v, hv, hr⟩ := resetSignal_resets (Work.start (takeInput s) false)
  refine ⟨v.s, ?_, takeInput_platform s ▸ hr⟩
  unfold step processorStep
  dsimp only
  rw [if_pos h, hv]

theorem step_inv {s t : State} (hs : Inv s) (h : step s = .next t) : Inv t := by
  have hi := (takeInput_steady s).inv hs
  cases hreset : (nextInput s).reset with
  | true =>
    obtain ⟨u, hu, hr⟩ := step_reset hreset
    rw [hu] at h
    cases h
    exact hr.inv hi.mem
  | false =>
    unfold step processorStep at h
    dsimp only at h
    rw [hreset, if_neg Bool.false_ne_true] at h
    have hs' := (sample_steady (nextInput s).nmi (takeInput s)).inv hi
    split at h
    · cases h
      exact hi
    · split at h
      · cases h
      · rename_i hrun _ _
        have hidle := hs'.idle (eq_false_of_ne_true hrun)
        have hk := boundary_keeps (p := false) (takeInput s).intShadow (takeInput s).stiShadow
        have hb := hk.idle (Work.start (sample (nextInput s).nmi (takeInput s)) false) hidle
        have hb' := hk.inv (Work.start (sample (nextInput s).nmi (takeInput s)) false) hs'
        split at h <;> rename_i hr <;> rw [hr] at hb hb'
        · exact deliverEvent_inv hb.toSane h
        · cases h
          exact hb'
        · have hc := chooseSizes_leads _ hb
          split at h <;> rename_i hr' <;> rw [hr'] at hc
          · exact runInstr_inv hc h
          · exact settle_inv hi.sane (r := .error _ _) hc h
        · exact settle_inv hi.sane (r := .error _ _) hb h

end Sys2Proof.Machine
end


section
/-! The obligations about reset and the invariant (O1, O2, O3). -/

namespace Sys2Proof.Machine

open Sys2Proof

-- One theorem after another, so that no more of them wait for each other than the memory limit has threads for.
set_option Elab.async false

/-- Settles O3, by the invariant's form for each family of instructions (`exec_endsInv`), events (`deliverEvent_inv`) and
reset (`ResetFrom.inv`), put together in `step_inv`. -/
theorem stepKeepsInv : Obligations.StepKeepsInv := fun _ _ hs h => step_inv hs h

/-- Settles O1, from the form of the state that the RESET signal leaves (`step_reset`). -/
theorem resetSignalState : Obligations.ResetSignalState := by
  intro s h
  obtain ⟨t, ht, hr⟩ := step_reset h
  exact ⟨t, ht, congrArg State.eip hr.same, congrArg State.flags hr.same, congrArg State.cpl hr.same,
    congrArg State.cr0 hr.same, congrArg State.segs hr.same, congrArg State.idtr hr.same, hr.edx, hr.passed, hr.failed,
    hr.dr7, congrArg State.halted hr.same, congrArg State.inShutdown hr.same, congrArg State.nmiInService hr.same,
    congrArg State.intShadow hr.same, congrArg State.pendingDbg hr.same, congrArg State.lateDbg hr.same,
    congrArg State.delivering hr.same, (congrArg State.mem hr.same).trans rfl⟩

/-- Settles O2. -/
theorem resetInv : Obligations.ResetInv := ⟨reset_mem_wf, nofun, fun _ => rfl, rfl, rfl, fun _ => rfl⟩

end Sys2Proof.Machine
end


section
/-! The obligations about the segment checks and the register operands (O9, O11). -/

namespace Sys2Proof.Machine

open Sys2Proof

-- One theorem after another, so that no more of them wait for each other than the memory limit has threads for.
set_option Elab.async false

/-! ### The segment checks (20 R79, R80) -/

/-- The exception of a segment check at EXT = 0. -/
def segFault (r : SegReg) : Exc := if r = .ss then .ss 0 else .gp 0

/-- The segment checks in their order: validity, type, limit. -/
theorem segCheck_work (s : State) (r : SegReg) (off : BitVec 32) (n : Nat) (write : Bool) :
    segCheck r off n write s.work =
      if (s.seg r).valid = true then
        if (!s.cr0.pe || typeOk (s.seg r) write) = true then
          if limitOk (s.seg r) off n = true then .ok ((s.seg r).base + off) s.work
          else .error (.exc (segFault r)) s.work
        else .error (.exc (.gp 0)) s.work
      else .error (.exc (segFault r)) s.work := by
  unfold segCheck segExc
  simp only [M.run_bind, run_st, run_extBit, M.run_pure]
  cases hv : (s.seg r).valid with
  | false => simp [hv, segFault, State.work, Work.start]
  | true =>
    cases ht : (!s.cr0.pe || typeOk (s.seg r) write) with
    | false => simp [hv, ht, State.work, Work.start]
    | true =>
      cases hl : limitOk (s.seg r) off n <;> simp [hv, ht, hl, segFault, State.work, Work.start]

/-- The limit check of at least one byte: the last byte is the one that has to lie inside (20 R80). -/
theorem limitOk_iff (g : Seg) (off : BitVec 32) {n : Nat} (hn : 1 ≤ n) :
    limitOk g off n = true ↔
      if g.expandDown then g.limit.toNat < off.toNat ∧ off.toNat + (n - 1) ≤ (if g.db then 0xFFFFFFFF else 0xFFFF)
      else off.toNat + (n - 1) ≤ g.limit.toNat := by
  unfold limitOk
  cases g.expandDown with
  | false =>
    simp
    omega
  | true =>
    cases g.db with
    | false =>
      simp
      omega
    | true =>
      simp
      omega

/-- Settles O11: each clause is one branch of `segCheck_work`, the limit read as `limitOk_iff` says. -/
theorem limitCheck : Obligations.LimitCheck := by
  intro s r off n write hn
  refine ⟨fun hv => ?_, fun hv hp ht => ?_, fun hv ht => ?_⟩
  · simp [segCheck_work, hv, segFault]
  · simp [segCheck_work, hv, hp, ht]
  · have htype : (!s.cr0.pe || typeOk (s.seg r) write) = true := by
      cases hp : s.cr0.pe with
      | false => rfl
      | true => exact ht hp
    intro limit upper inside
    refine ⟨fun hi => ?_, fun hi => ?_⟩
    · have hl : limitOk (s.seg r) off n = true := (limitOk_iff _ _ hn).2 hi
      rw [segCheck_work, if_pos hv, if_pos htype, if_pos hl]
    · have hl : ¬ limitOk (s.seg r) off n = true := fun h => hi ((limitOk_iff _ _ hn).1 h)
      rw [segCheck_work, if_pos hv, if_pos htype, if_neg hl, segFault]

/-! ### Parts of a register (10 R16) -/

theorem Size.lo16_merge (old v : BitVec 32) : lo16 (Size.w16.merge old v) = lo16 v := BitVec.extractLsb'_append_eq_right

theorem Size.hi16_merge (old v : BitVec 32) : hi16 (Size.w16.merge old v) = hi16 old := BitVec.extractLsb'_append_eq_left

/-- A register with one of its two low bytes replaced, as `State.setReg8` makes it. -/
def withByte (high : Bool) (old : BitVec 32) (v : Byte) : BitVec 32 :=
  if high then old.extractLsb' 16 16 ++ v ++ old.extractLsb' 0 8 else old.extractLsb' 8 24 ++ v

/-- One of the two low bytes, as `State.reg8` reads it. -/
def lowByte (high : Bool) (v : BitVec 32) : Byte := if high then v.extractLsb' 8 8 else v.extractLsb' 0 8

theorem State.setReg8_eq (s : State) (q : Reg8) (v : Byte) :
    s.setReg8 q v = s.setReg q.home.1 (withByte q.home.2 (s.reg q.home.1) v) := rfl

theorem State.reg8_eq (s : State) (q : Reg8) : s.reg8 q = lowByte q.home.2 (s.reg q.home.1) := rfl

/-- The number of the lowest bit of a low byte. -/
def byteStart (high : Bool) : Nat := if high then 8 else 0

theorem byteStart_le (high : Bool) : byteStart high ≤ 8 := by cases high <;> decide

theorem byteStart_apart {high high' : Bool} (h : high' ≠ high) :
    byteStart high' + 8 ≤ byteStart high ∨ byteStart high + 8 ≤ byteStart high' := by
  revert h
  cases high <;> cases high' <;> decide

theorem lowByte_eq (high : Bool) (v : BitVec 32) : lowByte high v = v.extractLsb' (byteStart high) 8 := by
  cases high <;> rfl

/-- `withByte` bit by bit: those of the byte are the new ones, the others the old ones. -/
theorem getLsbD_withByte (high : Bool) (old : BitVec 32) (v : Byte) {i : Nat} (hi : i < 32) :
    (withByte high old v).getLsbD i =
      if byteStart high ≤ i ∧ i < byteStart high + 8 then v.getLsbD (i - byteStart high) else old.getLsbD i := by
  cases high with
  | false =>
    refine (BitVec.getLsbD_append (x := old.extractLsb' 8 24) (y := v)).trans ?_
    by_cases h : i < 8
    · simp [byteStart, h]
    · have hlt : i - 8 < 24 := by omega
      have hadd : 8 + (i - 8) = i := by omega
      simp [byteStart, h, hlt, hadd]
  | true =>
    refine (BitVec.getLsbD_append (x := old.extractLsb' 16 16 ++ v) (y := old.extractLsb' 0 8)).trans ?_
    by_cases h : i < 8
    · have hle : ¬ 8 ≤ i := by omega
      simp [byteStart, h, hle]
    · rw [BitVec.getLsbD_append]
      by_cases h' : i < 16
      · have hle : 8 ≤ i := by omega
        have hlt : i - 8 < 8 := by omega
        simp [byteStart, h, h', hle, hlt]
      · have hge : ¬ i - 8 < 8 := by omega
        have hlt : i - 8 - 8 < 16 := by omega
        have hadd : 16 + (i - 8 - 8) = i := by omega
        simp [byteStart, h, h', hge, hlt, hadd]

theorem lowByte_withByte (high : Bool) (old : BitVec 32) (v : Byte) : lowByte high (withByte high old v) = v := by
  rw [lowByte_eq]
  ext i hi
  have hlt : byteStart high + i < 32 := by have := byteStart_le high; omega
  simp [getLsbD_withByte high old v hlt, hi]

theorem lowByte_withByte_ne {high high' : Bool} (h : high' ≠ high) (old : BitVec 32) (v : Byte) :
    lowByte high' (withByte high old v) = lowByte high' old := by
  rw [lowByte_eq, lowByte_eq]
  ext i hi
  have hlt : byteStart high' + i < 32 := by have := byteStart_le high'; omega
  have hout : ¬ (byteStart high ≤ byteStart high' + i ∧ byteStart high' + i < byteStart high + 8) := by
    have := byteStart_apart h
    omega
  simp only [BitVec.getElem_extractLsb', getLsbD_withByte high old v hlt, if_neg hout]

theorem hi16_withByte (high : Bool) (old : BitVec 32) (v : Byte) : hi16 (withByte high old v) = hi16 old := by
  unfold hi16
  ext i hi
  have hlt : 16 + i < 32 := by omega
  have hout : ¬ (byteStart high ≤ 16 + i ∧ 16 + i < byteStart high + 8) := by have := byteStart_le high; omega
  simp only [BitVec.getElem_extractLsb', getLsbD_withByte high old v hlt, if_neg hout]

/-- No two 8-bit registers are the same part of the same register (10 R16). -/
theorem Reg8.home_injective : Function.Injective Reg8.home := by
  intro q q'
  cases q <;> cases q' <;> decide

/-- An 8-bit register is part of EAX, ECX, EDX or EBX (10 R16). -/
theorem Reg8.home_ne {r : Reg} (hr : r = .esp ∨ r = .ebp ∨ r = .esi ∨ r = .edi) (q : Reg8) : r ≠ q.home.1 := by
  obtain rfl | rfl | rfl | rfl := hr <;> cases q <;> decide

theorem State.reg_setReg8_ne (s : State) {q : Reg8} {r : Reg} (h : r ≠ q.home.1) (b : Byte) :
    (s.setReg8 q b).reg r = s.reg r := State.reg_setReg_ne s _ h

theorem State.hi16_reg_setReg8 (s : State) (q : Reg8) (b : Byte) (r : Reg) :
    hi16 ((s.setReg8 q b).reg r) = hi16 (s.reg r) := by
  by_cases h : r = q.home.1
  · rw [h, State.setReg8_eq, State.reg_setReg, hi16_withByte]
  · rw [State.reg_setReg8_ne s h]

theorem State.reg8_setReg8 (s : State) (q : Reg8) (b : Byte) : (s.setReg8 q b).reg8 q = b := by
  rw [State.reg8_eq, State.setReg8_eq, State.reg_setReg, lowByte_withByte]

theorem State.reg8_setReg8_ne (s : State) {q q' : Reg8} (h : q' ≠ q) (b : Byte) :
    (s.setReg8 q b).reg8 q' = s.reg8 q' := by
  rw [State.reg8_eq, State.reg8_eq]
  by_cases hr : q'.home.1 = q.home.1
  · have hb : q'.home.2 ≠ q.home.2 := fun hb => h (Reg8.home_injective (Prod.ext hr hb))
    rw [hr, State.setReg8_eq, State.reg_setReg, lowByte_withByte_ne hb]
  · rw [State.reg_setReg8_ne s hr]

/-- A register operand is read, checked and written without a check that can fail (48 R232). -/
theorem Place.run_of_not_mem {p : Place} (w : Work) (h : p.isMem = false) :
    p.probe w = .ok () w ∧ p.read w = .ok (p.value w.s) w ∧
      ∀ v, p.write v w = .ok () { w with s := p.set w.s v } := by
  cases p with
  | reg8 q => exact ⟨rfl, rfl, fun _ => rfl⟩
  | reg z r => exact ⟨rfl, rfl, fun _ => rfl⟩
  | mem g off width => cases h

/-- Settles O9, from the rules of a register write: what the register holds after it, and what the others hold. -/
theorem registerOperands : Obligations.RegisterOperands := by
  refine ⟨fun p w h => Place.run_of_not_mem w h, fun s r v z => ⟨rfl, fun q h => ?_, ?_, ?_, ?_⟩, fun s q b =>
    ⟨rfl, State.reg8_setReg8 s q b, fun _ h => State.reg8_setReg8_ne s h b, State.hi16_reg_setReg8 s q b,
      fun _ h => State.reg_setReg8_ne s h b, ?_, ?_, ?_, ?_⟩⟩
  · exact State.reg_setReg_ne s _ h
  · exact State.reg_setReg s r v
  · rw [State.setRegv, State.reg_setReg, Size.lo16_merge]
  · rw [State.setRegv, State.reg_setReg, Size.hi16_merge]
  all_goals exact State.reg_setReg8_ne s (Reg8.home_ne (by simp) q) b

end Sys2Proof.Machine
end


section
/-! The obligations about descriptors' limits and plain accesses (O10, O12, O13). -/

namespace Sys2Proof.Machine

open Sys2Proof

-- One theorem after another, so that no more of them wait for each other than the memory limit has threads for.
set_option Elab.async false

/-! ### The effective limit (20 R72) -/

theorem Desc.effLimit_bytes {d : Desc} (h : d.g = false) : d.effLimit = d.limit20.setWidth 32 := by
  simp [Desc.effLimit, h]

theorem Desc.effLimit_pages {d : Desc} (h : d.g = true) : d.effLimit = d.limit20 ++ 0xFFF#12 := by
  simp [Desc.effLimit, h]

/-- The base lies outside bit 23 of the upper doubleword, where G is. -/
theorem Desc.base_flip_g (d : Desc) : ({ d with hi := d.hi ^^^ 0x800000#32 } : Desc).base = d.base := by
  have hhigh : (d.hi ^^^ 0x800000#32).extractLsb' 24 8 = d.hi.extractLsb' 24 8 := by
    rw [BitVec.extractLsb'_xor]
    exact BitVec.xor_zero
  have hlow : (d.hi ^^^ 0x800000#32).extractLsb' 0 8 = d.hi.extractLsb' 0 8 := by
    rw [BitVec.extractLsb'_xor]
    exact BitVec.xor_zero
  simp only [Desc.base, hhigh, hlow]

/-- Settles O10: one equation of the limit for each value of G, and its bounds. -/
theorem effectiveLimit : Obligations.EffectiveLimit := by
  intro d
  refine ⟨fun hg => ⟨Desc.effLimit_bytes hg, ?_⟩, fun hg => ?_, d.base_flip_g⟩
  · have hlt := d.limit20.isLt
    rw [Desc.effLimit_bytes hg, BitVec.toNat_setWidth]
    omega
  · rw [Desc.effLimit_pages hg]
    refine ⟨?_, ?_⟩
    · rw [BitVec.append_def, BitVec.shiftLeftZeroExtend_eq]
      rfl
    · rw [BitVec.toNat_append]
      exact Nat.right_le_or

/-! ### Stores in plain memory -/

/-- The state after `v` has been stored in RAM at the addresses `pas`, the low byte at the first. -/
def State.storeAt (s : State) (pas : List (BitVec 32)) (v : BitVec 32) : State :=
  (s.storeBytes (pas.zip (toBytes pas.length v))).joinStores pas

theorem length_toBytes (n : Nat) (v : BitVec 32) : (toBytes n v).length = n := by simp [toBytes]

theorem State.storeAt_same (s : State) (pas : List (BitVec 32)) (v : BitVec 32) :
    ∃ m l, s.storeAt pas v = { s with mem := m, prefetch := { s.prefetch with stored := l } } := by
  obtain ⟨m, st, hstore⟩ := s.storeBytes_same (pas.zip (toBytes pas.length v))
  obtain ⟨l, hjoin⟩ := (s.storeBytes (pas.zip (toBytes pas.length v))).joinStores_same pas
  exact ⟨m, l, hjoin.trans (by rw [hstore])⟩

theorem State.byteAt_storeAt (s : State) (pas : List (BitVec 32)) (v a : BitVec 32) :
    (s.storeAt pas v).byteAt a = (s.storeBytes (pas.zip (toBytes pas.length v))).byteAt a := by
  simp only [State.storeAt, State.byteAt, State.joinStores_mem]

/-- Bytes at other addresses are as before. -/
theorem State.byteAt_storeAt_other {s : State} (h : Memory.wf s.mem = true) {pas : List (BitVec 32)} {a : BitVec 32}
    (ha : a ∉ pas) (v : BitVec 32) : (s.storeAt pas v).byteAt a = s.byteAt a := by
  rw [State.byteAt_storeAt]
  refine State.byteAt_storeBytes_other h ?_
  rwa [List.map_fst_zip (length_toBytes _ v).ge]

/-- The bytes stored are there afterwards, where no address is stored twice. -/
theorem State.map_byteAt_storeAt {s : State} (h : Memory.wf s.mem = true) {pas : List (BitVec 32)} (hd : pas.Nodup)
    (v : BitVec 32) : pas.map (s.storeAt pas v).byteAt = toBytes pas.length v := by
  have hfst := List.map_fst_zip (length_toBytes pas.length v).ge
  have hstored := State.map_byteAt_storeBytes h (l := pas.zip (toBytes pas.length v)) (by rwa [hfst])
  rw [hfst, List.map_snd_zip (length_toBytes _ v).le] at hstored
  exact (List.map_congr_left fun a _ => State.byteAt_storeAt s pas v a).trans hstored

theorem physWriteByte_ram {w : Work} {pa : BitVec 32} (h : w.s.kindAt pa = .ram) (v : Byte) :
    physWriteByte pa v w = .ok () { w with s := w.s.storeBytes [(pa, v)] } := by
  unfold physWriteByte
  simp only [M.run_bind, run_st, h]
  rfl

theorem each_physWriteByte_plain {w : Work} {l : List (BitVec 32 × Byte)} (h : ∀ p ∈ l, w.s.kindAt p.1 = .ram) :
    each (fun p => physWriteByte p.1 p.2) l w = .ok () { w with s := w.s.storeBytes l } := by
  induction l generalizing w with
  | nil => rfl
  | cons p t ih =>
    unfold each
    simp only [M.run_bind, physWriteByte_ram (h p List.mem_cons_self)]
    exact ih fun q hq => h q (List.mem_cons_of_mem _ hq)

/-- A write whose bytes all go to RAM. -/
theorem physWriteAt_plain {w : Work} {pas : List (BitVec 32)} (h : ∀ p ∈ pas, w.s.kindAt p = .ram) (hn : pas ≠ [])
    (v : BitVec 32) : physWriteAt pas v w = .ok () { w with s := w.s.storeAt pas v } := by
  have hdev : ¬ oneDeviceAccess w.s pas = true := by
    cases pas with
    | nil => exact absurd rfl hn
    | cons a t => simp [oneDeviceAccess, h a List.mem_cons_self]
  have hplain : ∀ p ∈ pas.zip (toBytes pas.length v), w.s.kindAt p.1 = .ram := fun p hp => h p.1 (List.of_mem_zip hp).1
  unfold physWriteAt
  simp only [M.run_bind, run_st]
  rw [if_neg hdev]
  simp only [M.run_bind, each_physWriteByte_plain hplain]
  rfl

/-! ### Accesses of plain memory through a segment (20 R62, R66, R93) -/

theorem span_ne_nil (a : BitVec 32) {n : Nat} (hn : 1 ≤ n) : span a n ≠ [] := by
  rw [← List.length_pos_iff, length_span]
  exact hn

theorem FlatAccess.dataRead {w : Work} {r : SegReg} {off : BitVec 32} {n : Nat} {write : Bool} (hn : 1 ≤ n)
    (h : FlatAccess w.s r off n write) :
    dataRead ((w.s.seg r).base + off) n w = .ok (w.s.valueAt ((w.s.seg r).base + off) n) w := by
  unfold Machine.dataRead
  simp only [M.run_bind, run_st, linAccess_flat h.paging, noteData_off h.breakpoints]
  exact physReadAt_ram h.plain (span_ne_nil _ hn)

theorem FlatAccess.dataWrite {w : Work} {r : SegReg} {off : BitVec 32} {n : Nat} {write : Bool} (hn : 1 ≤ n)
    (h : FlatAccess w.s r off n write) (v : BitVec 32) :
    dataWrite ((w.s.seg r).base + off) n v w =
      .ok () { w with s := w.s.storeAt (span ((w.s.seg r).base + off) n) v } := by
  unfold Machine.dataWrite
  simp only [M.run_bind, run_st, linAccess_flat h.paging, noteData_off h.breakpoints]
  exact physWriteAt_plain h.plain (span_ne_nil _ hn) v

/-- Settles O12: the segment checks pass, the linear address is the physical one, and RAM gives its bytes. -/
theorem flatRead : Obligations.FlatRead := by
  intro w r off n hn _ h
  unfold memRead
  simp only [M.run_bind, segCheck_ok h.segment]
  exact h.dataRead hn

/-- Settles O13: the write is one store at the bytes' addresses, which are distinct. -/
theorem flatWrite : Obligations.FlatWrite := by
  intro w r off n v hn hn4 hm h
  obtain ⟨m, l, hsame⟩ := w.s.storeAt_same (span ((w.s.seg r).base + off) n) v
  have hmem : (w.s.storeAt (span ((w.s.seg r).base + off) n) v).mem = m := by rw [hsame]
  refine ⟨m, l, ?_, fun i hi => ?_, fun a ha => ?_⟩
  · unfold memWrite
    simp only [M.run_bind, segCheck_ok h.segment]
    rw [h.dataWrite hn, hsame]
  · have hbytes := State.map_byteAt_storeAt hm (span_nodup ((w.s.seg r).base + off) (by omega : n ≤ 2 ^ 32)) v
    rw [length_span, span, toBytes, List.map_map] at hbytes
    rw [← hmem]
    exact List.map_inj_left.1 hbytes i (List.mem_range.2 hi)
  · rw [← hmem]
    exact State.byteAt_storeAt_other hm ha v

end Sys2Proof.Machine
end


section
/-! The obligation about the page walk and accesses with paging on (O14): the walk and its updates of the tables. -/

namespace Sys2Proof.Machine

open Sys2Proof

-- One theorem after another, so that no more of them wait for each other than the memory limit has threads for.
set_option Elab.async false

/-! ### What lies at a physical address stays (20 R60) -/

theorem Accesses.ram {s t : State} (hacc : Accesses s t) (h : ∀ a, s.kindAt a = .ram) (a : BitVec 32) : t.kindAt a = .ram := by
  rw [← h a, State.kindAt, State.kindAt, hacc.map]

theorem Drawn.ram {s : State} {env : Env} (hd : Drawn s.env env) (h : ∀ a, s.kindAt a = .ram) (a : BitVec 32) :
    ({ s with env := env } : State).kindAt a = .ram := by
  rw [← h a, State.kindAt, State.kindAt, hd]

/-! ### The walk of tables in plain memory (20 R87, R89) -/

/-- The page-directory entry of a linear address, the tables in plain memory. -/
def State.pde (s : State) (la : BitVec 32) : BitVec 32 := s.valueAt (pdeAddr s la) 4

/-- The page-table entry of a linear address, the tables in plain memory. -/
def State.pte (s : State) (la : BitVec 32) : BitVec 32 := s.valueAt (pteAddr (s.pde la) la) 4

/-- What a walk that passes its checks gives: the frame of the page-table entry, and the updates still to be made. -/
def State.walked (s : State) (la : BitVec 32) (write : Bool) : Xlat :=
  let pde := s.pde la
  let pte := s.pte la
  { pa := inFrame (pte.extractLsb' 12 20) la
    pde := pdeAddr s la
    pdeA := !bit pde 5
    pte := pteAddr pde la
    pteBits := if !bit pte 5 || (write && !bit pte 6) then (if write then 0x60#8 else 0x20#8) else 0
    fill := some { page := pageOf la, frame := pte.extractLsb' 12 20, v := true, d := write || bit pte 6,
                   u := bit pde 2 && bit pte 2, w := bit pde 1 && bit pte 1, block := 0, written := false } }

theorem physRead_ram {w : Work} (h : ∀ a, w.s.kindAt a = .ram) (pa : BitVec 32) {n : Nat} (hn : 1 ≤ n) :
    physRead pa n w = .ok (w.s.valueAt pa n) w :=
  physReadAt_ram (fun p _ => h p) (span_ne_nil pa hn)

/-- The walk in plain memory: both entries present, then the page-level protection. Nothing is changed. -/
theorem pageWalk_ram {w : Work} (h : ∀ a, w.s.kindAt a = .ram) (la : BitVec 32) (write user : Bool) :
    pageWalk la write user w =
      if bit (w.s.pde la) 0 && bit (w.s.pte la) 0 then
        if pageAllows write user (bit (w.s.pde la) 2 && bit (w.s.pte la) 2) (bit (w.s.pde la) 1 && bit (w.s.pte la) 1) then
          .ok (w.s.walked la write) w
        else .error (.exc (.pf la (pfCode true write user))) w
      else .error (.exc (.pf la (pfCode false write user))) w := by
  have hpde : physRead (pdeAddr w.s la) 4 w = .ok (w.s.pde la) w := physRead_ram h _ (by decide)
  have hpte : physRead (pteAddr (w.s.pde la) la) 4 w = .ok (w.s.pte la) w := physRead_ram h _ (by decide)
  unfold pageWalk
  simp only [M.run_bind, run_st, hpde]
  cases hp : bit (w.s.pde la) 0 with
  | false => rfl
  | true =>
    simp only [run_check_true, hpte]
    cases ht : bit (w.s.pte la) 0 with
    | false => rfl
    | true =>
      simp only [run_check, Bool.and_self, if_true]
      cases pageAllows write user (bit (w.s.pde la) 2 && bit (w.s.pte la) 2) (bit (w.s.pde la) 1 && bit (w.s.pte la) 1) <;> rfl

/-- A walk in plain memory that goes through gives `State.walked` and changes nothing. -/
theorem pageWalk_eq_ok {w v : Work} (h : ∀ a, w.s.kindAt a = .ram) {la : BitVec 32} {write user : Bool} {x : Xlat}
    (hx : pageWalk la write user w = .ok x v) : x = w.s.walked la write ∧ v = w := by
  rw [pageWalk_ram h] at hx
  split at hx
  · split at hx
    · cases hx
      exact ⟨rfl, rfl⟩
    · cases hx
  · cases hx

/-- A walk in plain memory that stops has changed nothing. -/
theorem pageWalk_eq_error {w v : Work} (h : ∀ a, w.s.kindAt a = .ram) {la : BitVec 32} {write user : Bool} {e : Stop}
    (hx : pageWalk la write user w = .error e v) : v = w := by
  rw [pageWalk_ram h] at hx
  split at hx
  · split at hx <;> cases hx
    rfl
  · cases hx
    rfl

/-- The bits of the error code (60 R312). -/
theorem pfCode_eq (p write user : Bool) :
    pfCode p write user = (if user then 4#3 else 0#3) ||| (if write then 2#3 else 0#3) ||| (if p then 1#3 else 0#3) := by
  cases p <;> cases write <;> cases user <;> rfl

theorem pfCode_absent (write user : Bool) :
    pfCode false write user = (if user then 4#3 else 0#3) ||| (if write then 2#3 else 0#3) :=
  (pfCode_eq false write user).trans BitVec.or_zero

theorem pageAllows_iff {write user u w : Bool} :
    pageAllows write user u w = true ↔ (user = true → u = true ∧ (write = true → w = true)) := by
  unfold pageAllows
  cases user <;> cases write <;> simp

/-! ### Bits set in tables (20 R88) -/

/-- Where every physical address is RAM, `x` goes through, and all it does to memory is to set in each byte the bits that
`m` gives for its address. -/
def SetsBits (x : M Unit) (m : BitVec 32 → Byte) : Prop :=
  ∀ w : Work, (∀ a, w.s.kindAt a = .ram) → ∃ v, x w = .ok () v ∧ (∀ a, v.s.kindAt a = .ram) ∧
    (Memory.wf w.s.mem = true → Memory.wf v.s.mem = true ∧ ∀ a, v.s.byteAt a = w.s.byteAt a ||| m a)

theorem SetsBits.pure : SetsBits (Pure.pure ()) fun _ => 0#8 := fun w h =>
  ⟨w, rfl, h, fun hm => ⟨hm, fun _ => BitVec.or_zero.symm⟩⟩

theorem SetsBits.bind {x y : M Unit} {m k : BitVec 32 → Byte} (hx : SetsBits x m) (hy : SetsBits y k) :
    SetsBits (x >>= fun _ => y) fun a => m a ||| k a := by
  intro w h
  obtain ⟨v, hxv, hv, hbytes⟩ := hx w h
  obtain ⟨u, hyu, hu, hbytes'⟩ := hy v hv
  refine ⟨u, bind_eq_ok.2 ⟨(), v, hxv, hyu⟩, hu, fun hm => ?_⟩
  obtain ⟨hmv, hb⟩ := hbytes hm
  obtain ⟨hmu, hb'⟩ := hbytes' hmv
  exact ⟨hmu, fun a => by rw [hb', hb, BitVec.or_assoc]⟩

theorem setBits_setsBits (pa : BitVec 32) (m : Byte) : SetsBits (setBits pa m) fun a => if a = pa then m else 0#8 := by
  intro w h
  refine ⟨{ w with s := w.s.storeBytes [(pa, w.s.byteAt pa ||| m)], sticky := w.sticky ++ [(pa, m)] }, ?_, h, fun hm =>
    ⟨State.wf_storeBytes hm _, fun a => ?_⟩⟩
  · unfold setBits
    simp only [M.run_bind, (physReadByte_mem pa w).2 (h pa), physWriteByte_ram (h pa), run_mark]
  · change Memory.read (Memory.write w.s.mem pa.toNat (w.s.byteAt pa ||| m)) a.toNat = _
    simp only [Memory.read_write hm, BitVec.toNat_inj]
    by_cases ha : a = pa
    · rw [if_pos ha, if_pos ha, ha]
    · rw [if_neg ha, if_neg ha]
      exact BitVec.or_zero.symm

theorem enterTlb_setsBits (e : TlbEntry) : SetsBits (enterTlb e) fun _ => 0#8 := by
  intro w h
  obtain ⟨t, g, env, hok, hd⟩ := enterTlb_ok e w
  exact ⟨_, hok, hd.ram h, fun hm => ⟨hm, fun _ => BitVec.or_zero.symm⟩⟩

/-- The last step of an access's updates: a walk's result enters the TLB. -/
def Xlat.enter (x : Xlat) : M Unit :=
  match x.fill with
  | none => pure ()
  | some e => enterTlb e

/-- The updates of a translation in their order. -/
theorem commitXlat_eq (x : Xlat) : commitXlat x =
    ((if x.pdeA then setBits x.pde 0x20#8 else pure ()) >>= fun _ =>
      (if x.pteBits = 0 then pure () else setBits x.pte x.pteBits) >>= fun _ => x.enter) := by
  unfold commitXlat
  dsimp only []
  split_ifs <;> rfl

/-- The bits that the updates of a translation set. -/
def Xlat.bits (x : Xlat) (a : BitVec 32) : Byte :=
  (if a = x.pde then (if x.pdeA then 0x20#8 else 0#8) else 0#8) ||| (if a = x.pte then x.pteBits else 0#8)

theorem commitXlat_setsBits (x : Xlat) : SetsBits (commitXlat x) x.bits := by
  have hpde : SetsBits (if x.pdeA then setBits x.pde 0x20#8 else pure ())
      fun a => if a = x.pde then (if x.pdeA then 0x20#8 else 0#8) else 0#8 := by
    cases x.pdeA with
    | true => exact setBits_setsBits x.pde 0x20#8
    | false => simpa using SetsBits.pure
  have hpte : SetsBits (if x.pteBits = 0 then pure () else setBits x.pte x.pteBits)
      fun a => if a = x.pte then x.pteBits else 0#8 := by
    by_cases h0 : x.pteBits = 0
    · rw [if_pos h0, h0]
      simpa using SetsBits.pure
    · rw [if_neg h0]
      exact setBits_setsBits x.pte x.pteBits
  have henter : SetsBits x.enter fun _ => 0#8 := by
    unfold Xlat.enter
    cases x.fill with
    | none => exact SetsBits.pure
    | some e => exact enterTlb_setsBits e
  have hall := hpde.bind (hpte.bind henter)
  simp only [BitVec.or_zero] at hall
  rw [commitXlat_eq]
  exact hall

/-- The low bits of a doubleword are those of its first byte (20 R62). -/
theorem State.bit_valueAt (s : State) (a : BitVec 32) {i : Nat} (hi : i < 8) :
    bit (s.valueAt a 4) i = (s.byteAt a).getLsbD i := by
  have hspan : span a 4 = a :: (span a 4).tail := by simp [span, List.range_succ]
  rw [bit, State.valueAt, hspan, List.map_cons, ofBytes, BitVec.getLsbD_or, BitVec.getLsbD_shiftLeft,
    BitVec.getLsbD_setWidth]
  have hlt : i < 32 := by omega
  simp [hi, hlt]

/-- Setting bits that are set changes nothing. -/
theorem or_accessed : ∀ b : Byte, b.getLsbD 5 = true → b ||| 0x20#8 = b := by decide

theorem or_accessed_dirty : ∀ b : Byte, b.getLsbD 5 = true → b.getLsbD 6 = true → b ||| 0x60#8 = b := by decide

theorem or_or_congr {b m k m' k' : Byte} (hm : b ||| m = b ||| m') (hk : b ||| k = b ||| k') :
    b ||| (m ||| k) = b ||| m' ||| k' :=
  calc b ||| (m ||| k) = b ||| k ||| m' := by rw [← BitVec.or_assoc, hm, BitVec.or_assoc, BitVec.or_comm m', ← BitVec.or_assoc]
    _ = b ||| m' ||| k' := by rw [hk, BitVec.or_assoc, BitVec.or_comm k', BitVec.or_assoc]

/-- An accessed bit that is set is not set again. -/
theorem or_set_accessed (b : Byte) : b ||| (if !b.getLsbD 5 then 0x20#8 else 0#8) = b ||| 0x20#8 := by
  cases h5 : b.getLsbD 5 with
  | false => rfl
  | true => exact BitVec.or_zero.trans (or_accessed b h5).symm

/-- Accessed and dirty bits that are set are not set again. -/
theorem or_set_accessed_dirty (b : Byte) (write : Bool) :
    b ||| (if !b.getLsbD 5 || (write && !b.getLsbD 6) then (if write then 0x60#8 else 0x20#8) else 0#8) =
      b ||| (if write then 0x60#8 else 0x20#8) := by
  cases write with
  | false => simpa using or_set_accessed b
  | true =>
    cases h5 : b.getLsbD 5 with
    | false => rfl
    | true =>
      cases h6 : b.getLsbD 6 with
      | false => rfl
      | true => exact BitVec.or_zero.trans (or_accessed_dirty b h5 h6).symm

/-- After the updates of a walk the accessed bit of both entries is set, and for a write the dirty bit of the page-table
entry. -/
theorem State.or_bits_walked (s : State) (la a : BitVec 32) (write : Bool) :
    s.byteAt a ||| (s.walked la write).bits a =
      s.byteAt a ||| (if a = pdeAddr s la then 0x20#8 else 0#8) |||
        (if a = pteAddr (s.pde la) la then (if write then 0x60#8 else 0x20#8) else 0#8) := by
  have hpde : bit (s.pde la) 5 = (s.byteAt (pdeAddr s la)).getLsbD 5 := s.bit_valueAt _ (by decide)
  have hpte (i : Nat) (hi : i < 8) : bit (s.pte la) i = (s.byteAt (pteAddr (s.pde la) la)).getLsbD i := s.bit_valueAt _ hi
  simp only [Xlat.bits, State.walked, hpde, hpte 5 (by decide), hpte 6 (by decide)]
  refine or_or_congr ?_ ?_
  · by_cases ha : a = pdeAddr s la
    · simp only [ha, if_true]
      exact or_set_accessed _
    · simp only [if_neg ha]
  · by_cases ha : a = pteAddr (s.pde la) la
    · simp only [ha, if_true]
      exact or_set_accessed_dirty _ write
    · simp only [if_neg ha]

end Sys2Proof.Machine
end


section
/-! The obligation about the page walk and accesses with paging on (O14): translations and accesses. -/

namespace Sys2Proof.Machine

open Sys2Proof

-- One theorem after another, so that no more of them wait for each other than the memory limit has threads for.
set_option Elab.async false

variable {w : Work} {la : BitVec 32} {write user : Bool} {e : TlbEntry}

/-! ### Translations through the TLB (20 R90, R94) -/

/-- An entry of the TLB that answers for the page of `a`; for a write, one with D = 1 (20 R94). -/
def State.Serves (s : State) (write : Bool) (e : TlbEntry) (a : BitVec 32) : Prop :=
  e ∈ s.tlb ∧ e.v = true ∧ e.page = pageOf a ∧ (write = true → e.d = true)

/-- The entries of the TLB for the page of `la`. -/
def State.entriesFor (s : State) (la : BitVec 32) : List TlbEntry := s.tlb.filter fun e => e.v && e.page == pageOf la

theorem State.mem_entriesFor {s : State} : e ∈ s.entriesFor la ↔ e ∈ s.tlb ∧ e.v = true ∧ e.page = pageOf la := by
  simp [State.entriesFor]

theorem translate_paged (hp : w.s.cr0.pg = true) (la : BitVec 32) (write user : Bool) :
    translate la write user w = lookOrWalk la write user (w.s.entriesFor la) w := by
  unfold translate
  simp only [M.run_bind, run_st, hp, if_true]
  rfl

/-- Entries with D = 0 do not serve a write (20 R94). -/
theorem lookOrWalk_skip {l : List TlbEntry} (h : ∀ e ∈ l, (write && !e.d) = true) (la : BitVec 32) (user : Bool) (w : Work) :
    lookOrWalk la write user l w = pageWalk la write user w := by
  induction l with
  | nil => rfl
  | cons e t ih =>
    rw [lookOrWalk, M.run_bind, run_st]
    simp only [h e List.mem_cons_self, if_true]
    exact ih fun o ho => h o (List.mem_cons_of_mem _ ho)

theorem translate_unserved (hp : w.s.cr0.pg = true) (h : ∀ e, ¬ w.s.Serves write e la) :
    translate la write user w = pageWalk la write user w := by
  rw [translate_paged hp]
  refine lookOrWalk_skip (fun e he => ?_) la user w
  obtain ⟨hmem, hv, hpage⟩ := State.mem_entriesFor.1 he
  have hd : ¬ (write = true → e.d = true) := fun hd => h e ⟨hmem, hv, hpage, hd⟩
  simpa using hd

/-- The same work in another world. -/
abbrev Work.inWorld (w : Work) (env : Env) : Work := { w with s := { w.s with env := env } }

theorem drawBit_cons {b : BitVec 32} {rest : List (BitVec 32)} (h : w.s.env.draws = b :: rest) :
    drawBit w = .ok (bit b 0) (w.inWorld { w.s.env with draws := rest }) := by
  unfold drawBit draw
  simp only [M.run_bind, run_st, h]
  rfl

/-- The first entry, where it serves: used, or dropped by a free choice that is asked for where it shows. -/
theorem lookOrWalk_cons (hd : write = true → e.d = true) (l : List TlbEntry) (la : BitVec 32) (user : Bool) (w : Work) :
    lookOrWalk la write user (e :: l) w =
      ((if dropUnseen w.s la e l then pure true else drawBit : M Bool) >>= fun used =>
        if used then check (pageAllows write user e.u e.w) (.pf la (pfCode true write user)) >>= fun _ =>
          pure (Xlat.plain (inFrame e.frame la))
        else lookOrWalk la write user l) w := by
  have hserves : ¬ (write && !e.d) = true := by simpa using hd
  rw [lookOrWalk, M.run_bind, run_st]
  simp only [if_neg hserves]

/-- What an entry gives where it is used: its frame if its protection bits allow the access (20 R90). -/
def TlbEntry.answer (e : TlbEntry) (la : BitVec 32) (write user : Bool) (w : Work) : EStateM.Result Stop Work Xlat :=
  if pageAllows write user e.u e.w then .ok (Xlat.plain (inFrame e.frame la)) w
  else .error (.exc (.pf la (pfCode true write user))) w

theorem lookOrWalk_used {b : BitVec 32} {rest : List (BitVec 32)} (hd : write = true → e.d = true) (l : List TlbEntry)
    (hdraw : w.s.env.draws = b :: rest) (hb : bit b 0 = true) (la : BitVec 32) (user : Bool) :
    ∃ env, Drawn w.s.env env ∧
      lookOrWalk la write user (e :: l) w = e.answer la write user (w.inWorld env) := by
  have hused : ∃ env, Drawn w.s.env env ∧ (if dropUnseen w.s la e l then pure true else drawBit : M Bool) w =
      .ok true (w.inWorld env) := by
    by_cases hs : dropUnseen w.s la e l = true
    · rw [if_pos hs]
      exact ⟨w.s.env, Drawn.refl _, rfl⟩
    · rw [if_neg hs, drawBit_cons hdraw, hb]
      exact ⟨{ w.s.env with draws := rest }, rfl, rfl⟩
  obtain ⟨env, henv, hok⟩ := hused
  refine ⟨env, henv, ?_⟩
  rw [lookOrWalk_cons hd, M.run_bind, hok]
  simp only [if_true, M.run_bind, run_check]
  unfold TlbEntry.answer
  cases pageAllows write user e.u e.w <;> rfl

theorem lookOrWalk_dropped {b : BitVec 32} {rest : List (BitVec 32)} {l : List TlbEntry} (hd : write = true → e.d = true)
    (hdraw : w.s.env.draws = b :: rest) (hb : bit b 0 = false) (hseen : dropUnseen w.s la e l = false) (user : Bool) :
    ∃ env, Drawn w.s.env env ∧
      lookOrWalk la write user (e :: l) w = lookOrWalk la write user l (w.inWorld env) := by
  refine ⟨{ w.s.env with draws := rest }, rfl, ?_⟩
  rw [lookOrWalk_cons hd, M.run_bind, hseen, if_neg Bool.false_ne_true, drawBit_cons hdraw, hb]
  simp only [if_neg Bool.false_ne_true]

theorem State.peek_ram {s : State} (h : ∀ a, s.kindAt a = .ram) (pa : BitVec 32) : s.peek pa = some (s.valueAt pa 4) := by
  simp [State.peek, h, State.valueAt, span, List.range_succ]

/-- An entry whose dirty bit is not that of the tables does not agree with them. -/
theorem dropUnseen_stale {s : State} (h : ∀ a, s.kindAt a = .ram) (hd : e.d ≠ bit (s.pte la) 6) (l : List TlbEntry) :
    dropUnseen s la e l = false := by
  have hagrees : tlbAgrees s la e = false := by
    unfold tlbAgrees
    simp only [State.peek_ram h]
    simp [beq_eq_false_iff_ne.2 (show e.d ≠ bit (s.valueAt (pteAddr (s.valueAt (pdeAddr s la) 4) la) 4) 6 from hd)]
  simp [dropUnseen, hagrees]

/-- Every translation with paging on keeps the offset in the page. -/
theorem translate_inFrame {x : Xlat} {v : Work} (hp : w.s.cr0.pg = true) (h : ∀ a, w.s.kindAt a = .ram)
    (hx : translate la write user w = .ok x v) : ∃ f, x.pa = inFrame f la := by
  rw [translate_paged hp] at hx
  obtain ⟨env, henv, hlook⟩ := lookOrWalk_cases la write user (w.s.entriesFor la) w
  rw [hx] at hlook
  obtain hwalk | ⟨o, _, _, ho⟩ := hlook
  · obtain ⟨rfl, _⟩ := pageWalk_eq_ok (w := w.inWorld env) (henv.ram h) hwalk.symm
    exact ⟨_, rfl⟩
  · split at ho
    · cases ho
      exact ⟨_, rfl⟩
    · cases ho

/-! ### Accesses of one page and of two (20 R92) -/

/-- How many bytes from `la` to the end of its page. -/
def leftInPage (la : BitVec 32) : Nat := 4096 - la.toNat % 4096

theorem bytesInPage_eq (la : BitVec 32) (n : Nat) : bytesInPage la n = min n (leftInPage la) := by
  rw [bytesInPage, leftInPage, BitVec.extractLsb'_toNat, Nat.shiftRight_zero]

theorem linAccess_error {v : Work} {x : Stop} (h : translate la write user w = .error x v) (n : Nat) :
    linAccess la n write user w = .error x v := by
  unfold linAccess translateAll
  simp only [M.run_bind, h]

theorem linAccess_onePage {x : Xlat} {v u : Work} {n : Nat} (hn : n ≤ leftInPage la)
    (hx : translate la write user w = .ok x v) (hc : commitXlat x v = .ok () u) :
    linAccess la n write user w = .ok (span x.pa n) u := by
  have hone : ¬ bytesInPage la n < n := by rw [bytesInPage_eq]; omega
  unfold linAccess translateAll
  simp only [M.run_bind, hx, if_neg hone, M.run_pure, each, hc]
  rfl

theorem linAccess_secondError {x : Xlat} {z : Stop} {v u : Work} {n : Nat} (hn : leftInPage la < n)
    (hx : translate la write user w = .ok x v)
    (hy : translate (la + BitVec.ofNat 32 (leftInPage la)) write user v = .error z u) :
    linAccess la n write user w = .error z u := by
  have hleft : bytesInPage la n = leftInPage la := by rw [bytesInPage_eq]; omega
  unfold linAccess translateAll
  simp only [M.run_bind, hx, hleft, if_pos hn, hy]

theorem linAccess_twoPages {x y : Xlat} {v z u u' : Work} {n : Nat} (hn : leftInPage la < n)
    (hx : translate la write user w = .ok x v)
    (hy : translate (la + BitVec.ofNat 32 (leftInPage la)) write user v = .ok y z)
    (hcx : commitXlat x z = .ok () u) (hcy : commitXlat y u = .ok () u') :
    linAccess la n write user w = .ok (span x.pa (leftInPage la) ++ span y.pa (n - leftInPage la)) u' := by
  have hleft : bytesInPage la n = leftInPage la := by rw [bytesInPage_eq]; omega
  unfold linAccess translateAll
  simp only [M.run_bind, hx, hleft, if_pos hn, hy, M.run_pure, each, hcx, hcy, physSpan]

/-- Where the addresses of an access that goes through come from: one translation, or two. -/
theorem linAccess_eq_ok {n : Nat} {pas : List (BitVec 32)} {u : Work} (h : linAccess la n write user w = .ok pas u) :
    ∃ x v, translate la write user w = .ok x v ∧
      ((n ≤ leftInPage la ∧ pas = span x.pa n) ∨
        (leftInPage la < n ∧ ∃ y z, translate (la + BitVec.ofNat 32 (leftInPage la)) write user v = .ok y z ∧
          pas = span x.pa (leftInPage la) ++ span y.pa (n - leftInPage la))) := by
  obtain ⟨xs, v, hxs, h⟩ := bind_eq_ok.1 h
  obtain ⟨_, _, _, h⟩ := bind_eq_ok.1 h
  obtain ⟨x, w1, hx, hxs⟩ := bind_eq_ok.1 hxs
  refine ⟨x, w1, hx, ?_⟩
  by_cases hn : leftInPage la < n
  · have hleft : bytesInPage la n = leftInPage la := by rw [bytesInPage_eq]; omega
    rw [hleft, if_pos hn] at hxs
    obtain ⟨y, z, hy, hxs⟩ := bind_eq_ok.1 hxs
    cases hxs
    cases h
    refine .inr ⟨hn, y, _, hy, ?_⟩
    simp only [physSpan, hleft]
  · have hone : ¬ bytesInPage la n < n := by rw [bytesInPage_eq]; omega
    rw [if_neg hone] at hxs
    cases hxs
    cases h
    exact .inl ⟨Nat.le_of_not_lt hn, rfl⟩

/-- Bytes of one page keep their distance from its beginning. -/
theorem mem_span_inFrame {f : BitVec 20} {p : BitVec 32} {n : Nat} (hn : n ≤ leftInPage la) (h : p ∈ span (inFrame f la) n) :
    ∃ i, i < n ∧ p.toNat % 4096 = la.toNat % 4096 + i := by
  obtain ⟨i, hi, rfl⟩ := mem_span.1 h
  refine ⟨i, hi, ?_⟩
  have hframe : (inFrame f la).toNat % 4096 = la.toNat % 4096 := by
    rw [inFrame, BitVec.toNat_append, BitVec.extractLsb'_toNat, Nat.shiftRight_zero,
      ← Nat.shiftLeft_add_eq_or_of_lt (Nat.mod_lt _ (by decide)), Nat.shiftLeft_eq]
    omega
  unfold leftInPage at hn
  rw [BitVec.toNat_add, BitVec.toNat_ofNat]
  omega

/-- The addresses of an access with paging on: one for each byte, no two the same. -/
theorem linAccess_paged {n : Nat} {pas : List (BitVec 32)} {u : Work} (hp : w.s.cr0.pg = true)
    (h : ∀ a, w.s.kindAt a = .ram) (hn : n ≤ 4) (hok : linAccess la n write user w = .ok pas u) :
    pas.length = n ∧ pas.Nodup := by
  obtain ⟨x, v, hx, hpas⟩ := linAccess_eq_ok hok
  obtain ⟨_, rfl⟩ | ⟨hlt, y, z, hy, rfl⟩ := hpas
  · exact ⟨length_span _ _, span_nodup _ (by omega)⟩
  · have hacc : Accesses w.s v.s := ((translate_accesses _ _ _).ok hx).state
    obtain ⟨f, hf⟩ := translate_inFrame hp h hx
    obtain ⟨g, hg⟩ := translate_inFrame (by rw [hacc.cr0]; exact hp) (hacc.ram h) hy
    refine ⟨by rw [List.length_append, length_span, length_span]; omega,
      List.nodup_append'.2 ⟨span_nodup _ (by omega), span_nodup _ (by omega), fun p hpx hpy => ?_⟩⟩
    have hsecond : (la + BitVec.ofNat 32 (leftInPage la)).toNat % 4096 = 0 := by
      rw [BitVec.toNat_add, BitVec.toNat_ofNat]
      unfold leftInPage
      omega
    have hroom : n - leftInPage la ≤ leftInPage (la + BitVec.ofNat 32 (leftInPage la)) := by
      unfold leftInPage at hsecond ⊢
      omega
    rw [hf] at hpx
    rw [hg] at hpy
    obtain ⟨i, hi, hoff⟩ := mem_span_inFrame (Nat.le_refl _) hpx
    obtain ⟨j, hj, hoff'⟩ := mem_span_inFrame hroom hpy
    unfold leftInPage at hlt hj
    omega

/-! ### The clauses of the obligation -/

/-- An entry not present: a page fault without the protection bit, nothing changed (20 R87). -/
theorem pageWalk_absent (h : ∀ a, w.s.kindAt a = .ram) (hp : bit (w.s.pde la) 0 = false ∨ bit (w.s.pte la) 0 = false)
    (write user : Bool) : pageWalk la write user w = .error (.exc (.pf la (pfCode false write user))) w := by
  have habsent : ¬ (bit (w.s.pde la) 0 && bit (w.s.pte la) 0) = true := by
    obtain hp | hp := hp <;> simp [hp]
  rw [pageWalk_ram h, if_neg habsent]

/-- What page-level protection asks of an access through the entries `pde` and `pte` (20 R89): to a user access both grant
U/S, and to a user write R/W too. -/
def EntriesAllow (pde pte : BitVec 32) (write user : Bool) : Prop :=
  user = true → (bit pde 2 && bit pte 2) = true ∧ (write = true → (bit pde 1 && bit pte 1) = true)

/-- A forbidden page: a page fault with the protection bit, nothing changed. -/
theorem pageWalk_forbidden (h : ∀ a, w.s.kindAt a = .ram) (hd : bit (w.s.pde la) 0 = true) (ht : bit (w.s.pte la) 0 = true)
    (ha : ¬ EntriesAllow (w.s.pde la) (w.s.pte la) write user) :
    pageWalk la write user w = .error (.exc (.pf la (pfCode true write user))) w := by
  rw [pageWalk_ram h, hd, ht, Bool.and_self, if_pos rfl, if_neg (mt pageAllows_iff.1 ha)]

/-- A present, permitted page. -/
theorem pageWalk_allowed (h : ∀ a, w.s.kindAt a = .ram) (hd : bit (w.s.pde la) 0 = true) (ht : bit (w.s.pte la) 0 = true)
    (ha : EntriesAllow (w.s.pde la) (w.s.pte la) write user) :
    pageWalk la write user w = .ok (w.s.walked la write) w := by
  rw [pageWalk_ram h, hd, ht, Bool.and_self, if_pos rfl, if_pos (pageAllows_iff.2 ha)]

/-- The updates of a walk go through; of memory they set the accessed and dirty bits of its entries alone. -/
theorem commitXlat_walked (h : ∀ a, w.s.kindAt a = .ram) (la : BitVec 32) (write : Bool) :
    ∃ v, commitXlat (w.s.walked la write) w = .ok () v ∧ (Memory.wf w.s.mem = true → ∀ a, v.s.byteAt a =
      w.s.byteAt a ||| (if a = pdeAddr w.s la then 0x20#8 else 0#8) |||
        (if a = pteAddr (w.s.pde la) la then (if write then 0x60#8 else 0x20#8) else 0#8)) := by
  obtain ⟨v, hv, _, hbytes⟩ := commitXlat_setsBits (w.s.walked la write) w h
  exact ⟨v, hv, fun hm a => ((hbytes hm).2 a).trans (w.s.or_bits_walked la a write)⟩

/-- Where an entry that serves is used, it alone decides. -/
theorem translate_used {b : BitVec 32} {rest : List (BitVec 32)} (hp : w.s.cr0.pg = true) (hs : w.s.Serves write e la)
    (hone : ∀ o ∈ w.s.tlb, o.v = true → o.page = pageOf la → o = e) (hdraw : w.s.env.draws = b :: rest)
    (hb : bit b 0 = true) (user : Bool) :
    ∃ env, Drawn w.s.env env ∧ translate la write user w = e.answer la write user (w.inWorld env) := by
  obtain ⟨hmem, hv, hpage, hd⟩ := hs
  rw [translate_paged hp]
  cases hl : w.s.entriesFor la with
  | nil => exact absurd (hl ▸ State.mem_entriesFor.2 ⟨hmem, hv, hpage⟩) List.not_mem_nil
  | cons o l =>
    obtain ⟨homem, hov, hopage⟩ := State.mem_entriesFor.1 (hl ▸ List.mem_cons_self : o ∈ w.s.entriesFor la)
    obtain rfl := hone o homem hov hopage
    exact lookOrWalk_used hd l hdraw hb la user

/-- Where the one entry for the page is dropped, the tables are walked. -/
theorem translate_dropped {b : BitVec 32} {rest : List (BitVec 32)} (hp : w.s.cr0.pg = true) (h : ∀ a, w.s.kindAt a = .ram)
    (hs : w.s.Serves write e la) (hone : w.s.entriesFor la = [e]) (hdraw : w.s.env.draws = b :: rest)
    (hb : bit b 0 = false) (hstale : e.d ≠ bit (w.s.pte la) 6) (user : Bool) :
    ∃ env, Drawn w.s.env env ∧ translate la write user w = pageWalk la write user (w.inWorld env) := by
  obtain ⟨_, _, _, hd⟩ := hs
  rw [translate_paged hp, hone]
  exact lookOrWalk_dropped hd hdraw hb (dropUnseen_stale h hstale []) user

/-- What stops an access stops a read of its bytes. -/
theorem linRead_error {n : Nat} {x : Stop} {v : Work} (h : linAccess la n false user w = .error x v) :
    linRead la n user w = .error x v := by
  unfold linRead
  rw [M.run_bind, h]

/-- What stops an access stops a write of its bytes. -/
theorem linWrite_error {n : Nat} {x : Stop} {v : Work} (h : linAccess la n true user w = .error x v) (b : BitVec 32) :
    linWrite la n b user w = .error x v := by
  unfold linWrite
  rw [M.run_bind, h]

/-- A read gives the bytes at the addresses of its access. -/
theorem linRead_of_access {n : Nat} {pas : List (BitVec 32)} {u : Work} (hp : w.s.cr0.pg = true)
    (h : ∀ a, w.s.kindAt a = .ram) (hn1 : 1 ≤ n) (hn : n ≤ 4) (hok : linAccess la n false user w = .ok pas u) :
    linRead la n user w = .ok (ofBytes (pas.map u.s.byteAt)) u := by
  obtain ⟨hlen, _⟩ := linAccess_paged hp h hn hok
  have hacc : Accesses w.s u.s := ((linAccess_accesses _ _ _ _).ok hok).state
  unfold linRead
  rw [M.run_bind, hok]
  exact physReadAt_ram (fun p _ => hacc.ram h p) (List.length_pos_iff.1 (by omega))

/-- A write stores its bytes at the addresses of its access, and no others. -/
theorem linWrite_of_access {n : Nat} {pas : List (BitVec 32)} {u : Work} (hp : w.s.cr0.pg = true)
    (h : ∀ a, w.s.kindAt a = .ram) (hm : Memory.wf w.s.mem = true) (hn1 : 1 ≤ n) (hn : n ≤ 4)
    (hok : linAccess la n true user w = .ok pas u) (x : BitVec 32) :
    ∃ v, linWrite la n x user w = .ok () v ∧ pas.map v.s.byteAt = toBytes n x ∧
      ∀ a, a ∉ pas → v.s.byteAt a = u.s.byteAt a := by
  obtain ⟨hlen, hnodup⟩ := linAccess_paged hp h hn hok
  have hacc : Accesses w.s u.s := ((linAccess_accesses _ _ _ _).ok hok).state
  refine ⟨{ u with s := u.s.storeAt pas x }, ?_, ?_, fun a ha => State.byteAt_storeAt_other (hacc.wf hm) ha x⟩
  · unfold linWrite
    rw [M.run_bind, hok]
    exact physWriteAt_plain (fun p _ => hacc.ram h p) (List.length_pos_iff.1 (by omega)) x
  · rw [← hlen]
    exact State.map_byteAt_storeAt (hacc.wf hm) hnodup x

end Sys2Proof.Machine
end


section
/-! The obligation about the page walk and accesses with paging on (O14): its proof. -/

namespace Sys2Proof.Machine

open Sys2Proof

/-- Settles O14: the walk is `pageWalk_ram` with the updates of `commitXlat_walked`; an access goes by the translations of
its one or two pages, each a walk or an entry of the TLB, to distinct bytes that are read or stored. -/
theorem pageWalk_holds : Obligations.PageWalk := by
  constructor
  · intro w la write user h pde pte access allowed
    refine ⟨fun hp => ?_, fun hd ht ha => ?_, fun hd ht ha => ?_⟩
    · exact (pageWalk_absent h hp write user).trans (by rw [pfCode_absent])
    · exact (pageWalk_forbidden h hd ht ha).trans (by rw [pfCode_eq]; rfl)
    · obtain ⟨v, hv, hbytes⟩ := commitXlat_walked h la write
      exact ⟨w.s.walked la write, v, pageWalk_allowed h hd ht ha, rfl, hv, hbytes⟩
  · intro w la n write user hp h hm hn1 hn access left serves
    refine ⟨fun hs => ?walks, ?used, ?dropped, ?stops, ?completes⟩
    case walks =>
      have hfirst : translate la write user w = pageWalk la write user w := translate_unserved hp hs
      refine ⟨fun e v hw => ?_, fun x hx => ⟨fun hl u hu => ?_, fun hl hs2 => ?_⟩⟩
      · obtain rfl := pageWalk_eq_error h hw
        exact linAccess_error (hfirst.trans hw) n
      · exact linAccess_onePage hl (hfirst.trans hx) hu
      · have hsecond : translate (la + BitVec.ofNat 32 left) write user w =
            pageWalk (la + BitVec.ofNat 32 left) write user w := translate_unserved hp hs2
        refine ⟨fun e v hw => ?_, fun y hy u v hu hv => ?_⟩
        · obtain rfl := pageWalk_eq_error h hw
          exact linAccess_secondError hl (hfirst.trans hx) (hsecond.trans hw)
        · exact linAccess_twoPages hl (hfirst.trans hx) (hsecond.trans hy) hu hv
    case used =>
      intro e b rest hs hone hl hdraw hb
      obtain ⟨env, henv, hentry⟩ := translate_used hp hs hone hdraw hb user
      refine ⟨env, henv, fun ha => ?_, fun ha => ?_⟩
      · rw [TlbEntry.answer, if_neg (mt pageAllows_iff.1 ha), pfCode_eq] at hentry
        exact linAccess_error hentry n
      · rw [TlbEntry.answer, if_pos (pageAllows_iff.2 ha)] at hentry
        exact linAccess_onePage hl hentry (commitXlat_plain _ _)
    case dropped =>
      intro e b rest hs hone hl hdraw hb hstale
      obtain ⟨env, henv, hwalk⟩ := translate_dropped hp h hs hone hdraw hb hstale user
      exact ⟨env, henv, fun x v hw => linAccess_error (hwalk.trans hw) n,
        fun x hx v hv => linAccess_onePage hl (hwalk.trans hx) hv⟩
    case stops =>
      intro e v hok
      refine ⟨?_, ?_⟩
      · rintro rfl
        exact linRead_error hok
      · rintro rfl x
        exact linWrite_error hok x
    case completes =>
      intro pas u hok
      refine ⟨?_, ?_⟩
      · rintro rfl
        exact linRead_of_access hp h hn1 hn hok
      · rintro rfl x
        exact linWrite_of_access hp h hm hn1 hn hok x

end Sys2Proof.Machine
end


section
/-! The obligation about the decoder and the encoder (O4): what the decoder reads of the bytes that the encoder wrote, by one rule
for each reader and each format (30 R105-R118). -/

namespace Sys2Proof

-- One theorem after another, so that no more of them wait for each other than the memory limit has threads for.
set_option Elab.async false

/-- The parser `p` reads the bytes `bs` as the instruction `i`: it takes them and no byte after them, and of no fewer of them does
it make anything. -/
structure Reads (p : List Byte → Parse) (bs : List Byte) (i : Instr) : Prop where
  got : ∀ rest, p (bs ++ rest) = .got i rest
  more : ∀ k, k < bs.length → p (bs.take k) = .more

/-- What `parse` reads, `decode` answers, with its length. -/
theorem Reads.decode {os as : Size} {bs : List Byte} {i : Instr} (h : Reads (parse os as) bs i) :
    (∀ rest, decode os as (bs ++ rest) = .ok i bs.length) ∧ ∀ k, k < bs.length → decode os as (bs.take k) = .more where
  left rest := by simp [Sys2Proof.decode, h.got]
  right k hk := by simp [Sys2Proof.decode, h.more k hk]

/-! ### Numbers and fields -/

@[simp] theorem Reg.ofNum_num (r : Reg) : Reg.ofNum r.num = r := by cases r <;> rfl
@[simp] theorem Reg8.ofNum_num (r : Reg8) : Reg8.ofNum r.num = r := by cases r <;> rfl
@[simp] theorem Base16.ofNum_num (b : Base16) : Base16.ofNum b.num = b := by cases b <;> rfl

@[simp] theorem lowBits_pack : ∀ (md : BitVec 2) (reg rm : BitVec 3), lowBits (pack md reg rm) = rm := by decide
@[simp] theorem midBits_pack : ∀ (md : BitVec 2) (reg rm : BitVec 3), midBits (pack md reg rm) = reg := by decide
@[simp] theorem topBits_pack : ∀ (md : BitVec 2) (reg rm : BitVec 3), topBits (pack md reg rm) = md := by decide

/-- The opcode with `n` in bits 2:0 (30 R114). -/
theorem or_regNumber : ∀ (hi : BitVec 5) (n : BitVec 3), (hi ++ 0#3) ||| n.setWidth 8 = hi ++ n := by decide

/-! ### The readers -/

section Readers

variable {as os z : Size} {bs : List Byte} {i : Instr}

/-- No byte is needed where the instruction is known. -/
theorem Reads.done : Reads (.got i) [] i := ⟨fun _ => rfl, nofun⟩

theorem Reads.of_append_nil {p : List Byte → Parse} (h : Reads p (bs ++ []) i) : Reads p bs i := bs.append_nil ▸ h

theorem Reads.u8 {k : BitVec 8 → List Byte → Parse} {b : Byte} (h : Reads (k b) bs i) :
    Reads (fun t => u8 t k) (b :: bs) i where
  got := h.got
  more
    | 0, _ => rfl
    | j + 1, hj => h.more j (Nat.lt_of_succ_lt_succ hj)

theorem halves_append (n : Nat) (v : BitVec (n + n)) : v.extractLsb' n n ++ v.extractLsb' 0 n = v := by
  rw [BitVec.extractLsb'_append_extractLsb'_eq_extractLsb' (Nat.zero_add n).symm, BitVec.extractLsb'_eq_self]

theorem Reads.u16 {k : BitVec 16 → List Byte → Parse} {v : BitVec 16} (h : Reads (k v) bs i) :
    Reads (fun t => u16 t k) (enc16 v ++ bs) i :=
  .u8 (k := fun _ t => Sys2Proof.u8 t _) (.u8 ((halves_append 8 v).symm ▸ h))

theorem Reads.u32 {k : BitVec 32 → List Byte → Parse} {v : BitVec 32} (h : Reads (k v) bs i) :
    Reads (fun t => u32 t k) (enc32 v ++ bs) i := by
  rw [enc32, List.append_assoc]
  exact .u16 (k := fun _ t => Sys2Proof.u16 t _) (.u16 ((halves_append 16 v).symm ▸ h))

theorem Size.setWidth_of_fits {v : BitVec 32} (h : Size.w16.fits v = true) : (v.extractLsb' 0 16).setWidth 32 = v := by
  have hv : v.toNat < 0x10000 := by simpa [Size.fits, BitVec.ult] using h
  exact BitVec.eq_of_toNat_eq (by simp; omega)

/-- A value that fits its size is read back (30 R113). -/
theorem Reads.uv {k : BitVec 32 → List Byte → Parse} {v : BitVec 32} (hv : z.fits v = true) (h : Reads (k v) bs i) :
    Reads (fun t => uv z t k) (encv z v ++ bs) i :=
  match z with
  | .w16 => .u16 (k := fun v t => k (v.setWidth 32) t) ((Size.setWidth_of_fits hv).symm ▸ h)
  | .w32 => .u32 h

end Readers

/-! ### The ModR/M byte (30 R108-R110) -/

/-- The `mod` field of a 32-bit memory operand with a base. -/
def Disp32.md : Disp32 → BitVec 2
  | .none => 0
  | .d8 _ => 1
  | .d32 _ => 2

/-- The bytes of a displacement. -/
def Disp32.bytes : Disp32 → List Byte
  | .none => []
  | .d8 d => [d]
  | .d32 d => enc32 d

/-- The `mod` field of a memory operand. -/
def Mem.md : Mem → BitVec 2
  | .a16 _ .none | .abs16 _ | .abs32 _ | .sibAbs _ _ _ => 0
  | .a16 _ (.d8 _) => 1
  | .a16 _ (.d16 _) => 2
  | .a32 _ d | .sib _ _ _ d => d.md

/-- The `rm` field of a memory operand. -/
def Mem.rmField : Mem → BitVec 3
  | .a16 b _ => b.num
  | .abs16 _ => 6
  | .a32 b _ => b.num
  | .abs32 _ => 5
  | .sib _ _ _ _ | .sibAbs _ _ _ => 4

/-- What follows the ModR/M byte of a memory operand: a SIB byte and a displacement. -/
def Mem.tail : Mem → List Byte
  | .a16 _ .none => []
  | .a16 _ (.d8 d) => [d]
  | .a16 _ (.d16 d) | .abs16 d => enc16 d
  | .a32 _ d => d.bytes
  | .abs32 d => enc32 d
  | .sib sc ix b d => pack sc ix.num b.num :: d.bytes
  | .sibAbs sc ix d => pack sc ix.num 5 :: enc32 d

theorem encDisp32_eq (reg rm : BitVec 3) (sib : List Byte) (d : Disp32) :
    encDisp32 reg rm sib d = pack d.md reg rm :: (sib ++ d.bytes) := by
  cases d <;> simp [encDisp32, Disp32.md, Disp32.bytes]

theorem encMem_eq (reg : BitVec 3) (m : Mem) : encMem reg m = pack m.md reg m.rmField :: m.tail := by
  cases m with
  | a16 b d => cases d <;> rfl
  | abs16 | abs32 | sibAbs => rfl
  | a32 | sib => exact encDisp32_eq _ _ _ _

theorem Disp32.md_ne_three (d : Disp32) : d.md ≠ 3 := by cases d <;> simp [Disp32.md]

/-- The `mod` field 11 is for registers. -/
theorem Mem.md_ne_three (m : Mem) : m.md ≠ 3 := by
  cases m with
  | a16 _ d => cases d <;> simp [Mem.md]
  | abs16 | abs32 | sibAbs => simp [Mem.md]
  | a32 _ d | sib _ _ _ d => exact d.md_ne_three

theorem Disp32.md_eq_zero {d : Disp32} : d.md = 0 ↔ d = .none := by cases d <;> simp [Disp32.md]

theorem Base16.num_eq_six {b : Base16} : b.num = 6 ↔ b = .bp := by cases b <;> decide

theorem Reg.num_eq_zero {r : Reg} : r.num = 0 ↔ r = .eax := by cases r <;> decide

theorem Reg.num_eq_four {r : Reg} : r.num = 4 ↔ r = .esp := by cases r <;> decide

theorem Reg.num_eq_five {r : Reg} : r.num = 5 ↔ r = .ebp := by cases r <;> decide

/-- EBP as a base with `mod` 00 is no encoding: it stands for a displacement alone (30 R110). -/
theorem not_ebp_alone {b : Reg} {d : Disp32} (h : (!(b == .ebp && d == .none)) = true) : ¬ (d.md = 0 ∧ b.num = 5) := by
  rw [Disp32.md_eq_zero, Reg.num_eq_five]
  rintro ⟨rfl, rfl⟩
  cases h

section Modrm

variable {ρ : Type} {as : Size} {bs : List Byte} {i : Instr} {m : Mem}

theorem Reads.mem16 {k : Mem → List Byte → Parse} (hm : m.WellFormed .w16 = true) (h : Reads (k m) bs i) :
    Reads (fun t => mem16 m.md m.rmField t k) (m.tail ++ bs) i := by
  cases m with
  | a16 b d =>
    cases d with
    | none =>
      have hb : b.num ≠ 6 := fun hb => by
        cases Base16.num_eq_six.1 hb
        cases hm
      simpa only [Sys2Proof.mem16, Mem.md, Mem.rmField, Mem.tail, if_pos, if_neg hb, Base16.ofNum_num, List.nil_append] using h
    | d8 d => exact .u8 (k := fun d t => k (.a16 (Base16.ofNum b.num) (.d8 d)) t) (b.ofNum_num.symm ▸ h)
    | d16 d => exact .u16 (k := fun d t => k (.a16 (Base16.ofNum b.num) (.d16 d)) t) (b.ofNum_num.symm ▸ h)
  | abs16 d => exact .u16 (k := fun d t => k (.abs16 d) t) h
  | _ => cases hm

theorem Reads.disp32 {k : Disp32 → List Byte → Parse} {d : Disp32} (h : Reads (k d) bs i) :
    Reads (fun t => disp32 d.md t k) (d.bytes ++ bs) i :=
  match d with
  | .none => h
  | .d8 _ => .u8 (k := fun d t => k (.d8 d) t) h
  | .d32 _ => .u32 (k := fun d t => k (.d32 d) t) h

theorem Reads.mem32 {k : Mem → List Byte → Parse} (hm : m.WellFormed .w32 = true) (h : Reads (k m) bs i) :
    Reads (fun t => mem32 m.md m.rmField t k) (m.tail ++ bs) i := by
  cases m with
  | a32 b d =>
    rw [Mem.WellFormed, Bool.and_eq_true, Bool.and_eq_true] at hm
    obtain ⟨⟨-, hesp⟩, hebp⟩ := hm
    have hb : b.num ≠ 4 := mt Reg.num_eq_four.1 (bne_iff_ne.1 hesp)
    simp only [Sys2Proof.mem32, Mem.md, Mem.rmField, if_neg hb, if_neg (not_ebp_alone hebp), Reg.ofNum_num]
    exact .disp32 (k := fun d t => k (.a32 b d) t) h
  | abs32 d => exact .u32 (k := fun d t => k (.abs32 d) t) h
  | sib sc ix b d =>
    rw [Mem.WellFormed, Bool.and_eq_true] at hm
    refine .u8 (k := fun b t => sibOperand d.md b t k) ?_
    simp only [sibOperand, topBits_pack, midBits_pack, lowBits_pack, if_neg (not_ebp_alone hm.2), Reg.ofNum_num]
    exact .disp32 (k := fun d t => k (.sib sc ix b d) t) h
  | sibAbs sc ix d =>
    refine .u8 (k := fun b t => sibOperand 0 b t k) ?_
    simp only [sibOperand, topBits_pack, midBits_pack, lowBits_pack, and_self, if_pos, Reg.ofNum_num]
    exact .u32 (k := fun d t => k (.sibAbs sc ix d) t) h
  | _ => cases hm

/-- A register or a well-formed memory operand, after the `reg` field (30 R108). -/
theorem Reads.modrm {f : BitVec 3 → ρ} {g : ρ → BitVec 3} (hfg : ∀ r, f (g r) = r) {rm : RM ρ}
    (hw : rm.WellFormed as = true) {k : BitVec 3 → RM ρ → List Byte → Parse} {reg : BitVec 3} (h : Reads (k reg rm) bs i) :
    Reads (fun t => modrm f as t k) (encRm g reg rm ++ bs) i := by
  cases rm with
  | reg r => exact .u8 (by simpa [hfg] using h)
  | mem m =>
    rw [encRm, encMem_eq]
    refine .u8 ?_
    simp only [topBits_pack, midBits_pack, lowBits_pack, if_neg m.md_ne_three]
    cases as with
    | w16 => exact .mem16 hw h
    | w32 => exact .mem32 hw h

/-- Where nothing follows the operand. -/
theorem Reads.modrmLast {f : BitVec 3 → ρ} {g : ρ → BitVec 3} (hfg : ∀ r, f (g r) = r) {rm : RM ρ}
    (hw : rm.WellFormed as = true) {k : BitVec 3 → RM ρ → List Byte → Parse} {reg : BitVec 3}
    (h : Reads (k reg rm) [] i) : Reads (fun t => Sys2Proof.modrm f as t k) (encRm g reg rm) i :=
  .of_append_nil (.modrm hfg hw h)

end Modrm

/-! ### The formats (30 R114) -/

section Formats

variable {os as : Size} {bs : List Byte} {i : Instr} {rm : RM Reg} {r : Reg} {rm8 : RM Reg8} {r8 : Reg8}

theorem Reads.fmtI8 {c : BitVec 8 → Instr} {v : BitVec 8} : Reads (fmtI8 c) [v] (c v) := .u8 .done

theorem Reads.fmtI16 {c : BitVec 16 → Instr} {v : BitVec 16} : Reads (fmtI16 c) (enc16 v) (c v) := .u16 .done

theorem Reads.fmtIv {z : Size} {c : BitVec 32 → Instr} {v : BitVec 32} (hv : z.fits v = true) :
    Reads (fmtIv z c) (encv z v) (c v) :=
  .of_append_nil (.uv hv .done)

theorem Reads.fmtPtr {c : BitVec 32 → BitVec 16 → Instr} {off : BitVec 32} {sel : BitVec 16} (h : os.fits off = true) :
    Reads (fmtPtr os c) (encv os off ++ enc16 sel) (c off sel) :=
  .uv h (.u16 .done)

theorem Reads.fmtRr {c : BitVec 3 → Reg → Instr} {n : BitVec 3} : Reads (fmtRr c) [pack 3 n r.num] (c n r) :=
  .u8 (by simpa using .done)

theorem Reads.fmtNum {c : BitVec 3 → RM Reg → Instr} {n : BitVec 3} (h : rm.WellFormed as = true) :
    Reads (fmtNum as c) (encRm Reg.num n rm) (c n rm) :=
  .modrmLast Reg.ofNum_num h .done

theorem Reads.fmtMr {c : RM Reg → Reg → Instr} (h : rm.WellFormed as = true) :
    Reads (fmtMr as c) (encRm Reg.num r.num rm) (c rm r) :=
  .modrmLast Reg.ofNum_num h (r.ofNum_num.symm ▸ .done)

theorem Reads.fmtRm {c : Reg → RM Reg → Instr} (h : rm.WellFormed as = true) :
    Reads (fmtRm as c) (encRm Reg.num r.num rm) (c r rm) :=
  .modrmLast Reg.ofNum_num h (r.ofNum_num.symm ▸ .done)

theorem Reads.fmtMr8 {c : RM Reg8 → Reg8 → Instr} (h : rm8.WellFormed as = true) :
    Reads (fmtMr8 as c) (encRm Reg8.num r8.num rm8) (c rm8 r8) :=
  .modrmLast Reg8.ofNum_num h (r8.ofNum_num.symm ▸ .done)

theorem Reads.fmtRm8 {c : Reg8 → RM Reg8 → Instr} (h : rm8.WellFormed as = true) :
    Reads (fmtRm8 as c) (encRm Reg8.num r8.num rm8) (c r8 rm8) :=
  .modrmLast Reg8.ofNum_num h (r8.ofNum_num.symm ▸ .done)

/-! ### The opcodes (30 R117, R118) -/

theorem Reads.opcode {b : Byte} {p : List Byte → Parse} (hp : Reads p bs i) (h : ∀ t, parse os as (b :: t) = p t) :
    Reads (parse os as) (b :: bs) i where
  got rest := (h _).trans (hp.got rest)
  more
    | 0, _ => rfl
    | j + 1, hj => (h _).trans (hp.more j (Nat.lt_of_succ_lt_succ hj))

theorem Reads.opcode2 {b : Byte} {p : List Byte → Parse} (hp : Reads p bs i) (h : ∀ t, opcode2 os as b t = p t) :
    Reads (parse os as) (0x0F#8 :: b :: bs) i :=
  have hb : Sys2Proof.opcode2 os as b = p := funext h
  .opcode (p := fun t => Sys2Proof.u8 t (Sys2Proof.opcode2 os as)) (.u8 (hb ▸ hp)) fun _ => rfl

/-- An opcode with a register number in bits 2:0 (30 R114). -/
theorem Reads.opcodeReg {hi : BitVec 5} {n : BitVec 3} {p : List Byte → Parse} (hp : Reads p bs i)
    (h : ∀ t, opcodeReg os as hi n t = some (p t)) : Reads (parse os as) (((hi ++ 0#3) ||| n.setWidth 8) :: bs) i :=
  .opcode hp fun t => by
    have hhi : (hi ++ n).extractLsb' 3 5 = hi := BitVec.extractLsb'_append_eq_left
    have hlo : (hi ++ n).extractLsb' 0 3 = n := BitVec.extractLsb'_append_eq_right
    simp [or_regNumber, parse, Sys2Proof.u8, hhi, hlo, h]

/-- The opcodes of Jcc rel8, the condition in bits 3:0 (30 R119). -/
theorem parse_jccRel8 (c : Cond) (t : List Byte) :
    parse os as ((0x70#8 ||| c.num.setWidth 8) :: t) = Sys2Proof.fmtI8 (.jccRel8 c) t := by
  cases c <;> rfl

/-- The opcodes of Jcc rel16/32 (30 R119). -/
theorem opcode2_jccRel (c : Cond) (t : List Byte) :
    Sys2Proof.opcode2 os as (0x80#8 ||| c.num.setWidth 8) t = Sys2Proof.fmtIv os (.jccRel c) t := by
  cases c <;> rfl

end Formats

/-- The decoder reads what the encoder wrote: by the format of each opcode, and for an opcode of a group by the digit that
selects the instruction. -/
theorem reads_encode {os as : Size} {i : Instr} (h : i.WellFormed os as = true) : Reads (parse os as) (encode os as i) i := by
  cases i with
  -- no operand
  | hlt | pushEs | pushCs | pushSs | pushDs | popEs | popSs | popDs | retf | inAlDx | inEaxDx | outDxAl | outDxEax
  | insb | insv | outsb | outsv | cli | sti | pushf | popf | int3 | into | iret | wait | lock | nop | cld | std
  | movsb | movsv | rep | ret | segEs | segCs | segSs | segDs | segFs | segGs | opSize | addrSize | repne =>
    exact .opcode .done fun _ => rfl
  | clts | pushFs | pushGs | popFs | popGs => exact .opcode2 .done fun _ => rfl
  -- an immediate, an offset, or a pointer
  | inAlImm8 | inEaxImm8 | outImm8Al | outImm8Eax | intImm8 | addAlImm8 | orAlImm8 | adcAlImm8 | sbbAlImm8 | andAlImm8
  | subAlImm8 | xorAlImm8 | cmpAlImm8 | testAlImm8 | jmpRel8 =>
    exact .opcode .fmtI8 fun _ => rfl
  | retfImm16 | retImm16 => exact .opcode .fmtI16 fun _ => rfl
  | addEaxImm | orEaxImm | adcEaxImm | sbbEaxImm | andEaxImm | subEaxImm | xorEaxImm | cmpEaxImm | testEaxImm
  | jmpRel | callRel | movAlMoffs | movEaxMoffs | movMoffsAl | movMoffsEax =>
    exact .opcode (.fmtIv h) fun _ => rfl
  | jmpPtr | callPtr => exact .opcode (.fmtPtr h) fun _ => rfl
  | jccRel8 c => exact .opcode .fmtI8 (parse_jccRel8 c)
  | jccRel c => exact .opcode2 (.fmtIv h) (opcode2_jccRel c)
  -- a register number in the opcode
  | incR => exact .opcodeReg (hi := 0x08) .done fun _ => by simp [opcodeReg]
  | decR => exact .opcodeReg (hi := 0x09) .done fun _ => by simp [opcodeReg]
  | pushR => exact .opcodeReg (hi := 0x0A) .done fun _ => by simp [opcodeReg]
  | popR => exact .opcodeReg (hi := 0x0B) .done fun _ => by simp [opcodeReg]
  | xchgEaxR r =>
    have hr : r.num ≠ 0 := mt Reg.num_eq_zero.1 (bne_iff_ne.1 h)
    exact .opcodeReg (hi := 0x12) .done fun _ => by simpa [opcodeReg] using hr
  | movR8Imm8 => exact .opcodeReg (hi := 0x16) .fmtI8 fun _ => by simp [opcodeReg]
  | movRImm => exact .opcodeReg (hi := 0x17) (.fmtIv h) fun _ => by simp [opcodeReg]
  | esc => exact .opcodeReg (hi := 0x1B) (.fmtNum h) fun _ => rfl
  -- a ModR/M byte with a register
  | addRm8R8 | orRm8R8 | adcRm8R8 | sbbRm8R8 | andRm8R8 | subRm8R8 | xorRm8R8 | cmpRm8R8 | testRm8R8 | xchgRm8R8 | movRm8R8 =>
    exact .opcode (.fmtMr8 h) fun _ => rfl
  | addR8Rm8 | orR8Rm8 | adcR8Rm8 | sbbR8Rm8 | andR8Rm8 | subR8Rm8 | xorR8Rm8 | cmpR8Rm8 | movR8Rm8 =>
    exact .opcode (.fmtRm8 h) fun _ => rfl
  | addRmR | orRmR | adcRmR | sbbRmR | andRmR | subRmR | xorRmR | cmpRmR | testRmR | xchgRmR | movRmR | arpl =>
    exact .opcode (.fmtMr h) fun _ => rfl
  | addRRm | orRRm | adcRRm | sbbRRm | andRRm | subRRm | xorRRm | cmpRRm | movRRm | les | lds | bound =>
    exact .opcode (.fmtRm h) fun _ => rfl
  | lar | lsl | lss | lfs | lgs => exact .opcode2 (.fmtRm h) fun _ => rfl
  | btsRmR | btrRmR | btcRmR => exact .opcode2 (.fmtMr h) fun _ => rfl
  | movSregRm => exact .opcode (.fmtNum (c := .movSregRm) h) fun _ => rfl
  | movRmSreg => exact .opcode (.fmtNum (c := fun n rm => .movRmSreg rm n) h) fun _ => rfl
  | movRCr => exact .opcode2 (.fmtRr (c := fun n r => .movRCr r n)) fun _ => rfl
  | movRDr => exact .opcode2 (.fmtRr (c := fun n r => .movRDr r n)) fun _ => rfl
  | movRTr => exact .opcode2 (.fmtRr (c := fun n r => .movRTr r n)) fun _ => rfl
  | movCrR | movDrR | movTrR => exact .opcode2 .fmtRr fun _ => rfl
  -- a ModR/M byte with a digit
  | incRm8 | decRm8 => exact .opcode (p := groupFE as) (.modrmLast Reg8.ofNum_num h .done) fun _ => rfl
  | incRm | decRm | callRm | callFarM | jmpRm | jmpFarM =>
    exact .opcode (p := groupFF as) (.modrmLast Reg.ofNum_num h .done) fun _ => rfl
  | notRm8 | negRm8 | divRm8 | idivRm8 => exact .opcode (p := groupF6 as) (.modrmLast Reg8.ofNum_num h .done) fun _ => rfl
  | notRm | negRm | divRm | idivRm => exact .opcode (p := groupF7 os as) (.modrmLast Reg.ofNum_num h .done) fun _ => rfl
  | shlRm8One | shrRm8One | sarRm8One => exact .opcode (p := groupD0 as) (.modrmLast Reg8.ofNum_num h .done) fun _ => rfl
  | shlRmOne | shrRmOne | sarRmOne => exact .opcode (p := groupD1 as) (.modrmLast Reg.ofNum_num h .done) fun _ => rfl
  | shlRm8Cl | shrRm8Cl | sarRm8Cl => exact .opcode (p := groupD2 as) (.modrmLast Reg8.ofNum_num h .done) fun _ => rfl
  | shlRmCl | shrRmCl | sarRmCl => exact .opcode (p := groupD3 as) (.modrmLast Reg.ofNum_num h .done) fun _ => rfl
  | sldt | str | lldt | ltr | verr | verw => exact .opcode2 (p := group0F00 as) (.modrmLast Reg.ofNum_num h .done) fun _ => rfl
  | sgdt | sidt | lgdt | lidt | smsw | lmsw => exact .opcode2 (p := group0F01 as) (.modrmLast Reg.ofNum_num h .done) fun _ => rfl
  -- a ModR/M byte with a digit, and an immediate
  | addRm8Imm8 | orRm8Imm8 | adcRm8Imm8 | sbbRm8Imm8 | andRm8Imm8 | subRm8Imm8 | xorRm8Imm8 | cmpRm8Imm8 =>
    exact .opcode (p := group80 as) (.modrm Reg8.ofNum_num h .fmtI8) fun _ => rfl
  | addRmImm8 | orRmImm8 | adcRmImm8 | sbbRmImm8 | andRmImm8 | subRmImm8 | xorRmImm8 | cmpRmImm8 =>
    exact .opcode (p := group83 as) (.modrm Reg.ofNum_num h .fmtI8) fun _ => rfl
  | testRm8Imm8 => exact .opcode (p := groupF6 as) (.modrm Reg8.ofNum_num h .fmtI8) fun _ => rfl
  | movRm8Imm8 => exact .opcode (p := groupC6 as) (.modrm Reg8.ofNum_num h .fmtI8) fun _ => rfl
  | shlRm8Imm8 | shrRm8Imm8 | sarRm8Imm8 => exact .opcode (p := groupC0 as) (.modrm Reg8.ofNum_num h .fmtI8) fun _ => rfl
  | shlRmImm8 | shrRmImm8 | sarRmImm8 => exact .opcode (p := groupC1 as) (.modrm Reg.ofNum_num h .fmtI8) fun _ => rfl
  | btsRmImm8 | btrRmImm8 | btcRmImm8 => exact .opcode2 (p := group0FBA as) (.modrm Reg.ofNum_num h .fmtI8) fun _ => rfl
  | addRmImm | orRmImm | adcRmImm | sbbRmImm | andRmImm | subRmImm | xorRmImm | cmpRmImm =>
    obtain ⟨hrm, himm⟩ := Bool.and_eq_true_iff.1 h
    exact .opcode (p := group81 os as) (.modrm Reg.ofNum_num hrm (.fmtIv himm)) fun _ => rfl
  | testRmImm =>
    obtain ⟨hrm, himm⟩ := Bool.and_eq_true_iff.1 h
    exact .opcode (p := groupF7 os as) (.modrm Reg.ofNum_num hrm (.fmtIv himm)) fun _ => rfl
  | movRmImm =>
    obtain ⟨hrm, himm⟩ := Bool.and_eq_true_iff.1 h
    exact .opcode (p := groupC7 os as) (.modrm Reg.ofNum_num hrm (.fmtIv himm)) fun _ => rfl

/-- Settles O4: what the encoder wrote, `parse` reads (`reads_encode`), and what it reads, `decode` answers. -/
theorem decodeEncode : Obligations.DecodeEncode := fun _ _ _ h => (reads_encode h).decode

end Sys2Proof
end


section
/-! The obligations about the prefixes and the conditional jumps (O7, O38). -/

namespace Sys2Proof.Machine

open Sys2Proof

-- One theorem after another, so that no more of them wait for each other than the memory limit has threads for.
set_option Elab.async false

/-- Settles O7: the meaning of each of the prefixes is its record. -/
theorem prefixesRecorded : Obligations.PrefixesRecorded := by
  intro i s p h
  cases i with
  | lock | rep | repne | segEs | segCs | segSs | segDs | segFs | segGs | opSize | addrSize => cases h; rfl
  | _ => cases h

/-! ### Running to the end where EIP has nowhere to go on to (93 U39) -/

/-- The prefixes of an instruction that ends at offset FFFFFFFFH are in order. -/
theorem prefixesOk_endsPast {lockable repeatable : Bool} {s : State} (h : EndsPast s) :
    prefixesOk lockable repeatable s.work = .ok () s.work := by
  simp [prefixesOk, State.work, Work.start, h.lock, h.rep, h.repne]

/-- Running a meaning whose prefixes are in order. -/
theorem runWith_eq {lockable repeatable : Bool} {s : State} (h : prefixesOk lockable repeatable s.work = .ok () s.work)
    (body : M Unit) : runWith lockable repeatable body s = settle s ((body >>= fun _ => finish s) s.work) := by
  rw [runWith, M.run_bind, h]

/-- A meaning that has left EIP at an instruction without a next offset is refused at its end. -/
theorem finish_past {s : State} {w : Work} (hw : w.waiting = false) (hj : w.jumped = false) (hr : w.repeating = false)
    (past : 2 ^ 32 ≤ w.s.eip.toNat + w.s.insn.len) : finish s w = .error (.refuse .eipWrap) w := by
  simp [finish, eipNext, hw, hj, hr, needNext_past past]

/-! ### Jumps within the segment (48 R270-R272) -/

/-- The work after a near jump. -/
def Work.jumpedTo (w : Work) (target : BitVec 32) : Work :=
  { w with s := { w.s with eip := target, prefetch := Prefetch.empty }, jumped := true }

theorem jmpNear_within {target : BitVec 32} {w : Work} (h : target.toNat ≤ w.s.segs.cs.limit.toNat) :
    jmpNear target w = .ok () (w.jumpedTo target) := by
  simp [jmpNear, checkTarget, jumpTo, run_check, BitVec.ule_eq_decide, h, Work.jumpedTo]

theorem jmpNear_beyond {target : BitVec 32} {w : Work} (h : w.s.segs.cs.limit.toNat < target.toNat) :
    jmpNear target w = .error (.exc (.gp 0)) w := by
  simp [jmpNear, checkTarget, run_check, BitVec.ule_eq_decide, not_le.2 h]

theorem jccBody_taken {c : Cond} {w : Work} (h : c.holds w.s.flags = true) (rel : BitVec 32) :
    jccBody c rel w = jmpNear (w.s.os.trunc (w.s.nextEip + rel)) w := by
  simp [jccBody, jmpRelBody, relTarget, h]

theorem jccBody_notTaken {c : Cond} {w : Work} (h : c.holds w.s.flags = false) (rel : BitVec 32) :
    jccBody c rel w = .ok () w := by
  simp [jccBody, h]

section Jcc

variable {s : State} {c : Cond} {i : Instr} {rel : BitVec 32}

/-- Both forms of Jcc run one meaning. -/
theorem exec_jcc (h : (∃ b, i = .jccRel8 c b ∧ rel = b.signExtend 32) ∨ (∃ d, i = .jccRel c d ∧ rel = s.os.sext d)) :
    exec i s = run (jccBody c rel) s := by
  obtain ⟨b, rfl, rfl⟩ | ⟨d, rfl, rfl⟩ := h <;> rfl

/-- A branch to a target within the limit goes there, whether or not there is an offset to go on to. -/
theorem run_jcc_taken (hp : prefixesOk false false s.work = .ok () s.work) (hc : c.holds s.flags = true)
    (ht : (s.os.trunc (s.nextEip + rel)).toNat ≤ s.segs.cs.limit.toNat) :
    run (jccBody c rel) s =
      .next (s.completedAt { s with prefetch := Prefetch.empty } (s.os.trunc (s.nextEip + rel))) := by
  have hbody : jccBody c rel s.work = .ok () (s.work.jumpedTo (s.os.trunc (s.nextEip + rel))) :=
    (jccBody_taken hc rel).trans (jmpNear_within ht)
  obtain ⟨v, hfinish, -, hend⟩ := finish_jump (s := s) (w := s.work.jumpedTo (s.os.trunc (s.nextEip + rel))) rfl rfl rfl rfl
  rw [run, runWith_eq hp, M.run_bind, hbody]
  simp only [hfinish]
  exact congrArg _ (hend rfl rfl)

end Jcc

/-- The encodings of Jcc are what the encoder writes (30 R119). -/
theorem decode_jccRel8 (os as : Size) (c : Cond) (b : Byte) :
    decode os as [0x70#8 + c.num.setWidth 8, b] = .ok (.jccRel8 c b) 2 := by
  have hop : 0x70#8 + c.num.setWidth 8 = 0x70#8 ||| c.num.setWidth 8 := by cases c <;> rfl
  rw [hop]
  exact (decodeEncode os as (.jccRel8 c b) rfl).1 []

theorem enc16_append (b0 b1 : Byte) : enc16 (b1 ++ b0) = [b0, b1] :=
  congrArg₂ (fun lo hi => [lo, hi]) BitVec.extractLsb'_append_eq_right BitVec.extractLsb'_append_eq_left

theorem decode_jccRel16 (c : Cond) (b0 b1 : Byte) :
    decode .w16 .w16 [0x0F#8, 0x80#8 + c.num.setWidth 8, b0, b1] = .ok (.jccRel c ((b1 ++ b0).setWidth 32)) 4 := by
  have hop : 0x80#8 + c.num.setWidth 8 = 0x80#8 ||| c.num.setWidth 8 := by cases c <;> rfl
  have hfits : Size.w16.fits ((b1 ++ b0).setWidth 32) = true := by
    simp [Size.fits, BitVec.ult]; omega
  have himm : ((b1 ++ b0).setWidth 32).extractLsb' 0 16 = b1 ++ b0 := BitVec.eq_of_toNat_eq (by simp; omega)
  have henc : encode .w16 .w16 (.jccRel c ((b1 ++ b0).setWidth 32)) = [0x0F#8, 0x80#8 ||| c.num.setWidth 8, b0, b1] := by
    rw [encode, encv, himm, enc16_append]
  rw [hop, ← henc]
  exact (decodeEncode .w16 .w16 (.jccRel c _) hfits).1 []

/-- Settles O38: the encodings by O4, the conditions by their definition, and a branch by what its meaning does where the
condition holds (`jccBody_taken`) and where it does not (`jccBody_notTaken`). -/
theorem conditionalJump : Obligations.ConditionalJump := by
  refine ⟨decode_jccRel8, decode_jccRel16, fun f => ?conditions, fun s c i rel hi ready => ?ready, fun s c i rel hi past => ?past⟩
  case conditions => simp [Cond.holds]
  case ready =>
    rw [exec_jcc hi]
    refine ⟨fun hc => ?notTaken, fun hc ht => run_jcc_taken (prefixesOk_ok ready) hc ht, fun hc ht => ?beyond⟩
    case notTaken =>
      obtain ⟨t, ht, -, heq⟩ := runWith_ends ready (jccBody_notTaken hc rel) rfl rfl rfl rfl rfl rfl
      exact ht.trans (congrArg _ (heq rfl rfl))
    case beyond => exact runWith_exc ready ((jccBody_taken hc rel).trans (jmpNear_beyond ht))
  case past =>
    rw [exec_jcc hi]
    have hp : prefixesOk false false s.work = .ok () s.work := prefixesOk_endsPast past
    refine ⟨fun hc => ?_, fun hc ht => run_jcc_taken hp hc ht⟩
    rw [run, runWith_eq hp, M.run_bind, jccBody_notTaken hc rel]
    simp only [finish_past (s := s) (w := s.work) rfl rfl rfl past.past, settle]

end Sys2Proof.Machine
end


section
/-! What the system instructions share: how their tests of mode and privilege go, how a meaning that only accesses memory and
then changes the state comes to its end, and what such an end leaves. -/

namespace Sys2Proof.Machine

open Sys2Proof

-- One theorem after another, so that no more of them wait for each other than the memory limit has threads for.
set_option Elab.async false

/-! ### The tests of mode and privilege (40 R124; 30 R120) -/

theorem effCpl_protected {s : State} (h : s.cr0.pe = true) : s.effCpl = s.cpl := by
  rw [State.effCpl, if_pos h]

theorem privileged_ok {w : Work} (h : w.s.effCpl = 0) : privileged w = .ok () w := by
  simp [privileged, h]

theorem privileged_raises {w : Work} (h : w.s.effCpl ≠ 0) : privileged w = .error (.exc (.gp 0)) w := by
  have hne : (w.s.effCpl == 0) = false := beq_eq_false_iff_ne.2 h
  simp only [privileged, M.run_bind, run_st, hne, run_check_false]

theorem protectedOnly_ok {w : Work} (h : w.s.cr0.pe = true) : protectedOnly w = .ok () w := by
  simp [protectedOnly, h]

theorem protectedOnly_raises {w : Work} (h : w.s.cr0.pe = false) : protectedOnly w = .error (.exc .ud) w := by
  simp [protectedOnly, h]

@[simp] theorem run_needMem_mem (m : Mem) (w : Work) : needMem (.mem m) w = .ok m w := rfl

@[simp] theorem run_needMem_reg (r : Reg) (w : Work) : needMem (.reg r) w = .error (.exc .ud) w := rfl

/-! ### Coming to the end -/

/-- A meaning that raises an exception. -/
theorem run_raises {s : State} {body : M Unit} {e : Exc} {w : Work} (ready : Ready s)
    (hbody : body s.work = .error (.exc e) w) : run body s = raiseExc 6 (rollback s w) e := runWith_exc ready hbody

/-- A meaning whose first part raises an exception, with nothing changed. -/
theorem run_raises_first {α : Type} {s : State} {x : M α} {f : α → M Unit} {e : Exc} (ready : Ready s)
    (hx : x s.work = .error (.exc e) s.work) : run (x >>= f) s = raiseExc 6 s.faulting e :=
  run_raises (w := s.work) ready (by rw [M.run_bind, hx])

/-- A meaning that is refused. -/
theorem run_refused {s : State} {body : M Unit} {r : Refusal} {w : Work} (ready : Ready s)
    (hbody : body s.work = .error (.refuse r) w) : run body s = .refused r := by
  rw [run, runWith_eq (prefixesOk_ok ready), M.run_bind, hbody]
  rfl

/-- A meaning that changes the state alone, and of it neither EIP nor the prefixes. -/
theorem run_completes {s u : State} {body : M Unit} (ready : Ready s) (hbody : body s.work = .ok () { s.work with s := u })
    (heip : u.eip = s.eip := by rfl) (hinsn : u.insn = s.insn := by rfl) : run body s = .next (s.completed u) := by
  obtain ⟨t, hrun, -, heq⟩ := runWith_ends ready hbody rfl rfl rfl rfl heip hinsn
  rw [run, hrun, heq rfl rfl]

/-- A meaning that accesses memory and then changes the state, and of it neither EIP nor the prefixes. -/
theorem run_ends {s u : State} {v : Work} {body : M Unit} (ready : Ready s) (hacc : AccessesW s.work v)
    (hbody : body s.work = .ok () { v with s := u }) (heip : u.eip = v.s.eip := by rfl)
    (hinsn : u.insn = v.s.insn := by rfl) : ∃ t, run body s = .next t ∧ Ends s u t := by
  have hsame := hacc.same
  obtain ⟨t, hrun, hends, -⟩ := runWith_ends ready hbody (by rw [hsame]; rfl) (by rw [hsame]; rfl) (by rw [hsame]; rfl)
    (by rw [hsame]; rfl) (heip.trans hacc.state.eip) (hinsn.trans hacc.state.insn)
  exact ⟨t, hrun, hends⟩

/-- Where no test of a meaning gave another error code, EXT is 0 in it. -/
theorem AccessesW.code_work {s : State} {v : Work} (h : AccessesW s.work v) (sel : BitVec 16) :
    v.code sel = sel &&& 0xFFFC#16 := by
  rw [h.code]
  exact BitVec.or_zero

/-! ### What the end leaves -/

section Ends

variable {s u t : State}

theorem Ends.mem (h : Ends s u t) : t.mem = u.mem := by rw [h.1]; rfl
theorem Ends.gpr (h : Ends s u t) : t.gpr = u.gpr := by rw [h.1]; rfl
theorem Ends.cr0 (h : Ends s u t) : t.cr0 = u.cr0 := by rw [h.1]; rfl
theorem Ends.cpl (h : Ends s u t) : t.cpl = u.cpl := by rw [h.1]; rfl
theorem Ends.segs (h : Ends s u t) : t.segs = u.segs := by rw [h.1]; rfl
theorem Ends.flags (h : Ends s u t) : t.flags = { u.flags with rf := false } := by rw [h.1]; rfl

theorem Ends.keepsSystem (h : Ends s u t) (hu : KeepsSystem s u) : KeepsSystem s t := by
  have hend := h.1
  rw [show u = _ from hu] at hend
  rw [hend]
  rfl

theorem Accesses.keepsSystem (h : Accesses s t) : KeepsSystem s t := by
  have hsame := h.same
  rw [hsame]
  rfl

end Ends

theorem FrameExcept.of_mem_eq {s u t : State} {l : List (BitVec 32)} (h : FrameExcept s u l) (hm : t.mem = u.mem) :
    FrameExcept s t l := by
  intro a ha
  rw [State.byteAt, hm]
  exact h a ha

/-- A frame from a state with the same memory, as after free values have been drawn. -/
theorem FrameExcept.of_mem_from {s s' t : State} {l : List (BitVec 32)} (h : FrameExcept s' t l) (hm : s'.mem = s.mem)
    (hc : s'.cr0 = s.cr0) : FrameExcept s t l := by
  intro a ha
  have hb := h a ha
  rw [hc, State.byteAt, State.byteAt, hm] at hb
  exact hb

end Sys2Proof.Machine
end


section
/-! The obligation about privileged, protected-mode-only and undefined forms (O50). -/

namespace Sys2Proof.Machine

open Sys2Proof

-- One theorem after another, so that no more of them wait for each other than the memory limit has threads for.
set_option Elab.async false

variable {s : State}

/-- A meaning that begins with the test of privilege (40 R124). -/
theorem run_privileged_raises {f : Unit → M Unit} (ready : Ready s) (h : s.effCpl ≠ 0) :
    run (privileged >>= f) s = raiseExc 6 s.faulting (.gp 0) := run_raises_first ready (privileged_raises h)

/-- The privileged instructions that real-address mode does not have, and those that need a memory operand, test that first. -/
theorem run_test_privileged_raises {α : Type} {x : M α} {a : α} {f : α → Unit → M Unit} (ready : Ready s)
    (hx : x s.work = .ok a s.work) (h : s.effCpl ≠ 0) :
    run (x >>= fun a => privileged >>= f a) s = raiseExc 6 s.faulting (.gp 0) :=
  run_raises ready (w := s.work) (by simp only [M.run_bind, hx, privileged_raises (w := s.work) h])

/-- A meaning that begins with the test of the mode (30 R120). -/
theorem run_protectedOnly_raises {f : Unit → M Unit} (ready : Ready s) (h : s.cr0.pe = false) :
    run (protectedOnly >>= f) s = raiseExc 6 s.faulting .ud := run_raises_first ready (protectedOnly_raises h)

/-- A meaning that begins with the demand of a memory operand (30 R120). -/
theorem run_needMem_raises {rm : RM Reg} {f : Mem → M Unit} (ready : Ready s) (h : (!isMem rm) = true) :
    run (needMem rm >>= f) s = raiseExc 6 s.faulting .ud := by
  cases rm with
  | mem m => cases h
  | reg r => exact run_raises_first ready rfl

theorem exec_privileged_raises (i : Instr) (h : isPrivileged i = true) (ready : Ready s) (hpe : s.cr0.pe = true)
    (hcpl : s.effCpl ≠ 0) : exec i s = raiseExc 6 s.faulting (.gp 0) := by
  cases i with
  | lgdt rm | lidt rm =>
    cases rm with
    | mem m => exact run_test_privileged_raises ready rfl hcpl
    | reg r => cases h
  | lldt | ltr => exact run_test_privileged_raises ready (protectedOnly_ok hpe) hcpl
  | lmsw | clts | hlt | movRCr | movCrR | movRDr | movDrR | movRTr | movTrR => exact run_privileged_raises ready hcpl
  | _ => cases h

theorem exec_protectedOnly_raises (i : Instr) (h : isProtectedOnly i = true) (ready : Ready s) (hpe : s.cr0.pe = false) :
    exec i s = raiseExc 6 s.faulting .ud := by
  cases i with
  | lldt | ltr | sldt | str | lar | lsl | verr | verw | arpl => exact run_protectedOnly_raises ready hpe
  | _ => cases h

theorem needSeg_raises {n : BitVec 3} (h : SegReg.ofNum n = none) (w : Work) : needSeg n w = .error (.exc .ud) w := by
  rw [needSeg, h]
  rfl

theorem needSeg_ok {n : BitVec 3} {r : SegReg} (h : SegReg.ofNum n = some r) (w : Work) : needSeg n w = .ok r w := by
  rw [needSeg, h]
  rfl

/-- MOV to CS, and to a segment register that does not exist (42 R156). -/
theorem exec_movSregRm_raises {n : BitVec 3} {rm : RM Reg} (h : (SegReg.ofNum n).all (· == .cs) = true) (ready : Ready s) :
    exec (.movSregRm n rm) s = raiseExc 6 s.faulting .ud := by
  cases hn : SegReg.ofNum n with
  | none => exact run_raises_first ready (needSeg_raises hn _)
  | some r =>
    have hr : r = .cs := by simpa [hn] using h
    refine run_raises ready (w := s.work) ?_
    rw [M.run_bind, needSeg_ok hn, hr]
    rfl

theorem exec_undefinedForm_raises (i : Instr) (h : isUndefinedForm i = true) (ready : Ready s) :
    exec i s = raiseExc 6 s.faulting .ud := by
  cases i with
  | lgdt | lidt | sgdt | sidt | les | lds | lss | lfs | lgs | jmpFarM | callFarM | bound => exact run_needMem_raises ready h
  | movSregRm n rm => exact exec_movSregRm_raises h ready
  | movRmSreg rm n => exact run_raises_first ready (needSeg_raises (Option.isNone_iff_eq_none.1 h) _)
  | _ => cases h

/-- Settles O50: each meaning begins with the test that raises. -/
theorem modeChecks : Obligations.ModeChecks :=
  ⟨fun i _ hi ready hpe hcpl => exec_privileged_raises i hi ready hpe (by rwa [effCpl_protected hpe]),
    fun i _ hi ready hpe => exec_protectedOnly_raises i hi ready hpe,
    fun i _ hi ready => exec_undefinedForm_raises i hi ready⟩

end Sys2Proof.Machine
end


section
/-! The obligation about LGDT, LIDT, SGDT and SIDT (O44): what the accesses of a limit and a base read and store. -/

namespace Sys2Proof.Machine

open Sys2Proof

-- One theorem after another, so that no more of them wait for each other than the memory limit has threads for.
set_option Elab.async false

/-! ### Values and their parts -/

theorem lo16_setWidth (v : BitVec 16) : lo16 (v.setWidth 32) = v :=
  BitVec.eq_of_toNat_eq (by simp [lo16]; omega)

theorem lo16_lowBytes_two (v : BitVec 16) : lo16 (lowBytes 2 (v.setWidth 32)) = v := by
  have hmask : v.setWidth 32 &&& 0xFFFF#32 = v.setWidth 32 := by
    apply BitVec.eq_of_toNat_eq
    rw [BitVec.toNat_and, show (0xFFFF#32).toNat = 2 ^ 16 - 1 from rfl, Nat.and_two_pow_sub_one_eq_mod, BitVec.toNat_setWidth]
    omega
  rw [lowBytes_two, hmask, lo16_setWidth]

/-- Free bits outside the bits that are asked for. -/
theorem or_free_and (x u : BitVec 32) {free mask : BitVec 32} (h : free &&& mask = 0#32) :
    (x ||| (u &&& free)) &&& mask = x &&& mask := by
  rw [BitVec.and_comm, BitVec.and_or_distrib_left, BitVec.and_comm u, ← BitVec.and_assoc, BitVec.and_comm mask free, h,
    BitVec.zero_and, BitVec.or_zero, BitVec.and_comm]

/-! ### Accesses of two parts in plain memory (20 R80, R93) -/

theorem PlainMemory.parts {s : State} {la : BitVec 32} {n m : Nat} (h : PlainMemory s la (n + m)) :
    PlainMemory s la n ∧ PlainMemory s (la + BitVec.ofNat 32 n) m := by
  have hspan := span_append la (Nat.le_add_right n m)
  rw [Nat.add_sub_cancel_left] at hspan
  unfold PlainMemory at h
  rw [← hspan] at h
  exact ⟨fun a ha => h a (List.mem_append_left _ ha), fun a ha => h a (List.mem_append_right _ ha)⟩

theorem dataRead_plain {w : Work} {la : BitVec 32} {n : Nat} (hn : 1 ≤ n) (hpg : w.s.cr0.pg = false)
    (hbp : NoDataBreakpoint w.s) (h : PlainMemory w.s la n) : dataRead la n w = .ok (w.s.valueAt la n) w := by
  unfold dataRead
  simp only [M.run_bind, run_st, linAccess_flat hpg, noteData_off hbp]
  exact physReadAt_ram h (span_ne_nil la hn)

theorem storeAt_span (s : State) (la : BitVec 32) (n : Nat) (v : BitVec 32) : s.storeAt (span la n) v = s.store la n v := by
  rw [State.storeAt, length_span, State.store]

theorem dataWrite_plain {w : Work} {la : BitVec 32} {n : Nat} (hn : 1 ≤ n) (hpg : w.s.cr0.pg = false)
    (hbp : NoDataBreakpoint w.s) (h : PlainMemory w.s la n) (v : BitVec 32) :
    dataWrite la n v w = .ok () { w with s := w.s.store la n v } := by
  unfold dataWrite
  simp only [M.run_bind, run_st, linAccess_flat hpg, noteData_off hbp, ← storeAt_span]
  exact physWriteAt_plain h (span_ne_nil la hn) v

theorem FlatAccess.memRead2 {w : Work} {r : SegReg} {off : BitVec 32} {n m : Nat} (hn : 1 ≤ n) (hm : 1 ≤ m)
    (h : FlatAccess w.s r off (n + m) false) :
    let la := (w.s.seg r).base + off
    memRead2 r off n m w = .ok (w.s.valueAt la n, w.s.valueAt (la + BitVec.ofNat 32 n) m) w := by
  obtain ⟨hfirst, hsecond⟩ := PlainMemory.parts h.plain
  unfold Machine.memRead2
  simp only [M.run_bind, run_st, segCheck_ok h.segment, linProbe_flat h.paging, dataRead_plain hn h.paging h.breakpoints hfirst,
    dataRead_plain hm h.paging h.breakpoints hsecond, M.run_pure]

theorem FlatAccess.memWrite2 {w : Work} {r : SegReg} {off : BitVec 32} {n m : Nat} (hn : 1 ≤ n) (hm : 1 ≤ m)
    (h : FlatAccess w.s r off (n + m) true) (a b : BitVec 32) :
    let la := (w.s.seg r).base + off
    memWrite2 r off n m a b w = .ok () { w with s := (w.s.store la n a).store (la + BitVec.ofNat 32 n) m b } := by
  obtain ⟨hfirst, hsecond⟩ := PlainMemory.parts h.plain
  obtain ⟨mem, l, hstore⟩ := w.s.store_same ((w.s.seg r).base + off) n a
  unfold Machine.memWrite2
  simp only [M.run_bind, run_st, segCheck_ok h.segment, linProbe_flat h.paging,
    dataWrite_plain hn h.paging h.breakpoints hfirst]
  exact dataWrite_plain hm (by rw [hstore]; exact h.paging) (by rw [hstore]; exact h.breakpoints)
    (by rw [hstore]; exact hsecond) b

/-- What two stores, one after the other, leave in memory. -/
theorem State.store_two {s : State} (hmem : Memory.wf s.mem = true) (la : BitVec 32) {n m : Nat} (hn : n ≤ 4) (hm : m ≤ 4)
    (a b : BitVec 32) :
    let t := (s.store la n a).store (la + BitVec.ofNat 32 n) m b
    t.valueAt la n = lowBytes n a ∧ t.valueAt (la + BitVec.ofNat 32 n) m = lowBytes m b ∧
      ∀ x, x ∉ span la (n + m) → t.byteAt x = s.byteAt x := by
  have hmem' : Memory.wf (s.store la n a).mem = true := State.wf_store hmem la n a
  have hspan := span_append la (Nat.le_add_right n m)
  rw [Nat.add_sub_cancel_left] at hspan
  refine ⟨?_, State.valueAt_store hmem' _ hm b, fun x hx => ?_⟩
  · have happart : ∀ x ∈ span la n, x ∉ span (la + BitVec.ofNat 32 n) m := fun x hx hx' =>
      span_apart la (Nat.le_refl n) (by omega) hx' hx
    rw [State.valueAt_store_other hmem' happart, State.valueAt_store hmem la hn]
  · rw [← hspan, List.mem_append, not_or] at hx
    obtain ⟨hfirst, hsecond⟩ := hx
    rw [State.byteAt_store_other hmem' hsecond, State.byteAt_store_other hmem hfirst]

/-! ### The table registers (40 R125-R128) -/

theorem writeTableReg_accesses (m : Mem) (t : TableReg) : Within AccessesW (writeTableReg m t) := by
  refine within_bind accesses_rel (within_st accesses_rel) fun s =>
    within_bind accesses_rel ?_ fun _ => memWrite2_accesses _ _ _ _ _ _
  cases s.os with
  | w16 => exact within_bind accesses_rel draw_accesses fun _ => within_pure accesses_rel _
  | w32 => exact within_pure accesses_rel _

section Registers

variable {s : State} {m : Mem} {t : TableReg} {w : Work}

theorem readTableReg_flat (h : FlatAccess s (s.dataSeg (defaultSeg m)) (effAddr s m) 6 false) :
    let la := (s.seg (s.dataSeg (defaultSeg m))).base + effAddr s m
    readTableReg m s.work = .ok { limit := lo16 (s.valueAt la 2), base :=
      if s.os = .w16 then s.valueAt (la + 2) 4 &&& 0xFFFFFF#32 else s.valueAt (la + 2) 4 } s.work := by
  have hread := FlatAccess.memRead2 (w := s.work) (n := 2) (m := 4) (by decide) (by decide) h
  refine bind_eq_ok.2 ⟨s, s.work, rfl, bind_eq_ok.2 ⟨_, _, hread, ?_⟩⟩
  cases s.os <;> rfl

/-- The base that SGDT and SIDT store: with OS = 16 its upper byte is free. -/
def storedBase (z : Size) (base : BitVec 32) : M (BitVec 32) :=
  match z with
  | .w32 => pure base
  | .w16 => do
    let v ← draw
    pure ((base &&& 0xFFFFFF#32) ||| (v &&& 0xFF000000#32))

theorem writeTableReg_eq (m : Mem) (t : TableReg) : writeTableReg m t = (st >>= fun s => storedBase s.os t.base >>= fun b =>
    memWrite2 (s.dataSeg (defaultSeg m)) (effAddr s m) 2 4 (t.limit.setWidth 32) b) := rfl

theorem storedBase_ok (z : Size) (base : BitVec 32) (w : Work) :
    ∃ b e, storedBase z base w = .ok b (w.inWorld e) ∧ Drawn w.s.env e ∧
      b &&& 0xFFFFFF#32 = base &&& 0xFFFFFF#32 ∧ (z = .w32 → b = base) := by
  cases z with
  | w32 => exact ⟨base, w.s.env, rfl, Drawn.refl _, rfl, fun _ => rfl⟩
  | w16 =>
    obtain ⟨v, e, hdraw, hdrawn⟩ := draw_ok w
    refine ⟨(base &&& 0xFFFFFF#32) ||| (v &&& 0xFF000000#32), e, bind_eq_ok.2 ⟨v, _, hdraw, rfl⟩, hdrawn, ?_, nofun⟩
    rw [or_free_and _ _ (by decide), BitVec.and_assoc, BitVec.and_self]

theorem writeTableReg_flat (hmem : Memory.wf s.mem = true) (t : TableReg)
    (h : FlatAccess s (s.dataSeg (defaultSeg m)) (effAddr s m) 6 true) :
    let la := (s.seg (s.dataSeg (defaultSeg m))).base + effAddr s m
    ∃ w, writeTableReg m t s.work = .ok () w ∧ lo16 (w.s.valueAt la 2) = t.limit ∧
      w.s.valueAt (la + 2) 4 &&& 0xFFFFFF#32 = t.base &&& 0xFFFFFF#32 ∧
      (s.os = .w32 → w.s.valueAt (la + 2) 4 = t.base) ∧ w.s.gpr = s.gpr ∧
      (∀ a, a ∉ span la 6 → w.s.byteAt a = s.byteAt a) := by
  intro la
  obtain ⟨b, e, hbase, hdrawn, hlow, hall⟩ := storedBase_ok s.os t.base s.work
  have hkind : ∀ a, ({ s with env := e } : State).kindAt a = s.kindAt a := fun a => by rw [State.kindAt, hdrawn]; rfl
  have hflat : FlatAccess (s.work.inWorld e).s (s.dataSeg (defaultSeg m)) (effAddr s m) (2 + 4) true :=
    ⟨h.paging, h.breakpoints, h.segment, fun a ha => (hkind a).trans (h.plain a ha)⟩
  have hwrite := hflat.memWrite2 (by decide) (by decide) (t.limit.setWidth 32) b
  obtain ⟨hlimit, hb, hframe⟩ := State.store_two (s := { s with env := e }) hmem la (n := 2) (m := 4) (by decide) (by decide)
    (t.limit.setWidth 32) b
  rw [lowBytes_four] at hb
  have hacc := (memWrite2_accesses _ _ _ _ _ _).ok hwrite
  refine ⟨_, ?_, ?_, ?_, fun hos => ?_, hacc.state.gpr, hframe⟩
  · rw [writeTableReg_eq]
    exact bind_eq_ok.2 ⟨s, s.work, rfl, bind_eq_ok.2 ⟨b, _, hbase, hwrite⟩⟩
  · exact (congrArg lo16 hlimit).trans (lo16_lowBytes_two _)
  · exact (congrArg (· &&& 0xFFFFFF#32) hb).trans hlow
  · exact hb.trans (hall hos)

/-- A load of a table register, LGDT or LIDT. -/
theorem run_loadTable (load : TableReg → State → State) (ready : Ready s) (hcpl : s.effCpl = 0)
    (hread : readTableReg m s.work = .ok t w) (heip : (load t w.s).eip = w.s.eip := by rfl)
    (hinsn : (load t w.s).insn = w.s.insn := by rfl) :
    ∃ u, run (needMem (.mem m) >>= fun m => privileged >>= fun _ => readTableReg m >>= fun t => upd (load t)) s = .next u ∧
      Ends s (load t w.s) u :=
  run_ends ready ((readTableReg_reads m).ok hread).acc (bind_eq_ok.2 ⟨m, s.work, rfl,
    bind_eq_ok.2 ⟨(), s.work, privileged_ok hcpl, bind_eq_ok.2 ⟨t, w, hread, rfl⟩⟩⟩) heip hinsn

theorem exec_lgdt_ends (ready : Ready s) (hcpl : s.effCpl = 0) (hread : readTableReg m s.work = .ok t w) :
    ∃ u, exec (.lgdt (.mem m)) s = .next u ∧ Ends s { w.s with gdtr := t } u ∧ u.gpr = s.gpr ∧
      KeepsSystem s { u with gdtr := s.gdtr } ∧ (Memory.wf s.mem = true → FrameExcept s u []) := by
  have hreads := (readTableReg_reads m).ok hread
  obtain ⟨u, hrun, hends⟩ := run_loadTable (fun t s => { s with gdtr := t }) ready hcpl hread
  refine ⟨u, hrun, hends, hends.gpr.trans hreads.acc.state.gpr, ?_, fun hm => (hreads.frame hm).of_mem_eq hends.mem⟩
  have hend := hends.1
  rw [hreads.acc.state.same] at hend
  rw [hend]
  rfl

theorem exec_lidt_ends (ready : Ready s) (hcpl : s.effCpl = 0) (hread : readTableReg m s.work = .ok t w) :
    ∃ u, exec (.lidt (.mem m)) s = .next u ∧ Ends s { w.s with idtr := t, idtStale := false } u ∧ u.gpr = s.gpr ∧
      KeepsSystem s { u with idtr := s.idtr, idtStale := s.idtStale } ∧ (Memory.wf s.mem = true → FrameExcept s u []) := by
  have hreads := (readTableReg_reads m).ok hread
  obtain ⟨u, hrun, hends⟩ := run_loadTable (fun t s => { s with idtr := t, idtStale := false }) ready hcpl hread
  refine ⟨u, hrun, hends, hends.gpr.trans hreads.acc.state.gpr, ?_, fun hm => (hreads.frame hm).of_mem_eq hends.mem⟩
  have hend := hends.1
  rw [hreads.acc.state.same] at hend
  rw [hend]
  rfl

/-- A store of the register that `reg` reads: SGDT and SIDT. -/
theorem run_storeTable (reg : State → TableReg) (ready : Ready s) (hwrite : writeTableReg m (reg s) s.work = .ok () w) :
    ∃ u, run (needMem (.mem m) >>= fun m => st >>= fun s => writeTableReg m (reg s)) s = .next u ∧ Ends s w.s u ∧
      u.gpr = s.gpr ∧ KeepsSystem s u := by
  have hacc := (writeTableReg_accesses m (reg s)).ok hwrite
  have hbody : (needMem (.mem m) >>= fun m => st >>= fun s => writeTableReg m (reg s)) s.work = .ok () w :=
    bind_eq_ok.2 ⟨m, s.work, rfl, bind_eq_ok.2 ⟨s, s.work, rfl, hwrite⟩⟩
  obtain ⟨u, hrun, hends⟩ := run_ends (u := w.s) ready hacc hbody
  exact ⟨u, hrun, hends, hends.gpr.trans hacc.state.gpr, hends.keepsSystem hacc.state.keepsSystem⟩

end Registers

/-- Settles O44: the loads end as their read does with the register replaced, the stores as their write does; in plain memory
the read is of two values and the write two stores. -/
theorem tableRegisters : Obligations.TableRegisters :=
  ⟨fun _ _ ready hcpl _ _ hread => ⟨exec_lgdt_ends ready hcpl hread, exec_lidt_ends ready hcpl hread⟩,
    fun _ _ h => readTableReg_flat h,
    fun _ _ ready => ⟨fun _ hwrite => run_storeTable State.gdtr ready hwrite, fun _ hwrite => run_storeTable State.idtr ready hwrite⟩,
    fun _ _ t hmem h => writeTableReg_flat hmem t h⟩

end Sys2Proof.Machine
end


section
/-! The obligation about SLDT, STR, SMSW and MOV r/m16, Sreg (O45): what a store of 16 bits leaves. -/

namespace Sys2Proof.Machine

open Sys2Proof

-- One theorem after another, so that no more of them wait for each other than the memory limit has threads for.
set_option Elab.async false

theorem write16_mem (m : Mem) (v : BitVec 16) (w : Work) :
    write16 (.mem m) v w = memWrite (w.s.dataSeg (defaultSeg m)) (effAddr w.s m) 2 (v.setWidth 32) w := rfl

theorem write16_reg16 {w : Work} (h : w.s.os = .w16) (r : Reg) (v : BitVec 16) :
    write16 (.reg r) v w = .ok () { w with s := w.s.setRegv .w16 r (v.setWidth 32) } := by
  simp only [write16, M.run_bind, run_st, h, run_upd]

/-- With OS = 32 the upper half is free (40 R130). -/
theorem write16_reg32 {w : Work} (h : w.s.os = .w32) (r : Reg) (v : BitVec 16) :
    ∃ (u : BitVec 16) (e : Env), Drawn w.s.env e ∧
      write16 (.reg r) v w = .ok () { w with s := ({ w.s with env := e } : State).setReg r ((u ++ v : BitVec 32)) } := by
  obtain ⟨u, e, hdraw, hdrawn⟩ := draw16_ok w
  exact ⟨u, e, hdrawn, by simp only [write16, M.run_bind, run_st, h, hdraw, run_upd]⟩

/-- In a register a store of 16 bits changes that register and the world alone. -/
theorem write16_reg (r : Reg) (v : BitVec 16) (w : Work) :
    ∃ (x : BitVec 32) (e : Env), Drawn w.s.env e ∧
      write16 (.reg r) v w = .ok () { w with s := ({ w.s with env := e } : State).setReg r x } := by
  cases h : w.s.os with
  | w16 => exact ⟨_, w.s.env, Drawn.refl _, write16_reg16 h r v⟩
  | w32 =>
    obtain ⟨u, e, hdrawn, hok⟩ := write16_reg32 h r v
    exact ⟨_, e, hdrawn, hok⟩

/-- What a store of 16 bits that goes through leaves: the other registers, and the bytes elsewhere. -/
theorem write16_eq_ok {rm : RM Reg} {v : BitVec 16} {w w' : Work} (h : write16 rm v w = .ok () w') :
    AccessesW w { w' with s := { w'.s with gpr := w.s.gpr } } ∧ (∀ q, rm ≠ .reg q → w'.s.reg q = w.s.reg q) ∧
      (Memory.wf w.s.mem = true → FrameExcept w.s w'.s ((placev w.s .w16 rm).stores w)) := by
  cases rm with
  | mem m =>
    have hacc := (memWrite_accesses _ _ _ _).ok h
    have hgpr := hacc.state.gpr
    refine ⟨?_, fun q _ => congrArg (·.get q) hgpr, memWrite_frame h⟩
    rw [← hgpr]
    exact hacc
  | reg r =>
    obtain ⟨x, e, hdrawn, hok⟩ := write16_reg r v w
    cases h.symm.trans hok
    refine ⟨⟨accesses_env w.s e (by rw [hdrawn]), rfl⟩, fun q hq => ?_, fun _ => FrameExcept.of_mem rfl _⟩
    exact State.reg_setReg_ne _ x fun hqr => hq (by rw [hqr])

/-- The end of an instruction that stores 16 bits, from the world that it has drawn from. -/
theorem run_write16 {s : State} {rm : RM Reg} {v : BitVec 16} {env : Env} {body : M Unit} {w : Work} (ready : Ready s)
    (henv : Drawn s.env env) (hbody : body s.work = .ok () w) (hwrite : write16 rm v (s.work.inWorld env) = .ok () w) :
    ∃ t, run body s = .next t ∧ Ends s w.s t ∧ KeepsSystem s t ∧ t.flags = { s.flags with rf := false } ∧
      (∀ q, rm ≠ .reg q → t.reg q = s.reg q) ∧
      (Memory.wf s.mem = true → FrameExcept s t ((placev s .w16 rm).stores (s.work.inWorld env))) := by
  obtain ⟨hwritten, hregs, hframe⟩ := write16_eq_ok hwrite
  have hworld : AccessesW s.work (s.work.inWorld env) := ⟨accesses_env s env (by rw [henv]), rfl⟩
  have hacc := accesses_rel.trans _ _ _ hworld hwritten
  obtain ⟨t, hrun, hends⟩ := run_ends (u := w.s) ready hacc hbody
  refine ⟨t, hrun, hends, hends.keepsSystem ?_, hends.flags.trans ?_, fun q hq => ?_, fun hm => ?_⟩
  · have hsame := hacc.state.keepsSystem
    have hsys : KeepsSystem s { { w.s with gpr := s.gpr } with gpr := w.s.gpr } := by
      rw [show ({ w.s with gpr := s.gpr } : State) = _ from hsame]
      rfl
    exact hsys
  · rw [show w.s.flags = s.flags from hacc.state.flags]
  · exact (congrArg (·.get q) hends.gpr).trans (hregs q hq)
  · exact ((hframe hm).of_mem_from rfl rfl).of_mem_eq hends.mem

section Stores

variable {s : State} {rm : RM Reg} {w : Work}

theorem sldt_work (hpe : s.cr0.pe = true) (hwrite : write16 rm s.ldtr.selector s.work = .ok () w) :
    (protectedOnly >>= fun _ => st >>= fun s => write16 rm s.ldtr.selector) s.work = .ok () w :=
  bind_eq_ok.2 ⟨(), s.work, protectedOnly_ok hpe, hwrite⟩

/-- STR after LTR or a task switch (10 R35). -/
theorem str_work (hpe : s.cr0.pe = true) (htr : s.tr.valid = true)
    (hwrite : write16 rm s.tr.selector s.work = .ok () w) :
    (protectedOnly >>= fun _ => st >>= fun s =>
      (if s.tr.valid then pure s.tr.selector else draw16) >>= fun v => write16 rm v) s.work = .ok () w := by
  have hsel : (if s.tr.valid then pure s.tr.selector else draw16 : M (BitVec 16)) s.work = .ok s.tr.selector s.work := by
    rw [if_pos htr]
    rfl
  exact bind_eq_ok.2 ⟨(), s.work, protectedOnly_ok hpe, bind_eq_ok.2 ⟨s, s.work, rfl, bind_eq_ok.2 ⟨_, _, hsel, hwrite⟩⟩⟩

theorem movRmSreg_work {n : BitVec 3} {r : SegReg} (hn : SegReg.ofNum n = some r)
    (hwrite : write16 rm (s.seg r).selector s.work = .ok () w) :
    (needSeg n >>= fun r => st >>= fun s => write16 rm (s.seg r).selector) s.work = .ok () w :=
  bind_eq_ok.2 ⟨r, s.work, needSeg_ok hn s.work, hwrite⟩

theorem smsw_work {u : BitVec 16} {w1 : Work} (hdraw : draw16 s.work = .ok u w1)
    (hwrite : write16 rm (lo16 s.cr0.toBits ||| (u &&& 0xFFE0#16)) w1 = .ok () w) :
    (st >>= fun s => draw16 >>= fun u => write16 rm (lo16 s.cr0.toBits ||| (u &&& 0xFFE0#16))) s.work = .ok () w :=
  bind_eq_ok.2 ⟨s, s.work, rfl, bind_eq_ok.2 ⟨u, w1, hdraw, hwrite⟩⟩

end Stores

/-- Settles O45: the four instructions end as the store of 16 bits does (`run_write16`). -/
theorem selectorStores : Obligations.SelectorStores := by
  refine ⟨fun s rm u w1 w ready hdraw => ?stores, fun s r v => ⟨fun hos => ?reg16, fun hos => ?reg32⟩, fun s m v => ?mem⟩
  case stores =>
    obtain ⟨u', env, hdraw', hdrawn⟩ := draw16_ok s.work
    cases hdraw.symm.trans hdraw'
    intro stores
    exact ⟨fun hpe hwrite => run_write16 ready (Drawn.refl _) (sldt_work hpe hwrite) hwrite,
      fun hpe htr hwrite => run_write16 ready (Drawn.refl _) (str_work hpe htr hwrite) hwrite,
      fun n r hn hwrite => run_write16 ready (Drawn.refl _) (movRmSreg_work hn hwrite) hwrite,
      fun hwrite => run_write16 ready hdrawn (smsw_work hdraw hwrite) hwrite⟩
  case reg16 => exact write16_reg16 (w := s.work) hos r v
  case reg32 => exact write16_reg32 (w := s.work) hos r v
  case mem => exact write16_mem m v s.work

end Sys2Proof.Machine
end


section
/-! The obligation about LLDT and LTR (O46): what each makes of the selector that it has read, and of its descriptor. -/

namespace Sys2Proof.Machine

open Sys2Proof

-- One theorem after another, so that no more of them wait for each other than the memory limit has threads for.
set_option Elab.async false

/-! ### The tests and the loads (40 R129, R131) -/

/-- What LLDT makes of the descriptor of its selector. -/
def lldtLoad (sel : BitVec 16) (d : Desc) : M Unit :=
  checkSel (!d.s && d.typ == 2) .gp sel >>= fun _ => checkSel d.p .np sel >>= fun _ =>
    upd fun s => { s with ldtr := { selector := sel, base := d.base, limit := d.effLimit, valid := true } }

/-- What LLDT makes of its selector. -/
def lldtSelector (sel : BitVec 16) : M Unit :=
  if isNull sel then upd fun s => { s with ldtr := { s.ldtr with selector := sel, valid := false } }
  else checkSel (!selTi sel) .gp sel >>= fun _ => fetchDesc sel .gp >>= lldtLoad sel

/-- What LTR makes of the descriptor of its selector. -/
def ltrLoad (sel : BitVec 16) (d : Desc) : M Unit :=
  need (!(!d.s && d.typ == 1)) .format286 >>= fun _ => checkSel (!d.s && d.typ == 9) .gp sel >>= fun _ =>
    checkSel d.p .np sel >>= fun _ => setAccessBits sel 2 >>= fun _ =>
      upd fun s => { s with tr := { selector := sel, base := d.base, limit := d.effLimit, valid := true } }

/-- What LTR makes of its selector. -/
def ltrSelector (sel : BitVec 16) : M Unit :=
  check (!isNull sel) (.gp 0) >>= fun _ => checkSel (!selTi sel) .gp sel >>= fun _ => fetchDesc sel .gp >>= ltrLoad sel

/-- An instruction of protected mode at CPL 0 with a selector as operand. -/
def selectorBody (rm : RM Reg) (f : BitVec 16 → M Unit) : M Unit :=
  protectedOnly >>= fun _ => privileged >>= fun _ => read16 rm >>= f

theorem exec_lldt (rm : RM Reg) (s : State) : exec (.lldt rm) s = run (selectorBody rm lldtSelector) s := rfl

theorem exec_ltr (rm : RM Reg) (s : State) : exec (.ltr rm) s = run (selectorBody rm ltrSelector) s := rfl

section Selector

variable {s : State} {rm : RM Reg} {sel : BitVec 16} {d : Desc} {w v u : Work}

theorem selectorBody_work (hpe : s.cr0.pe = true) (hcpl : s.cpl = 0) (hread : read16 rm s.work = .ok sel w)
    (f : BitVec 16 → M Unit) : selectorBody rm f s.work = f sel w := by
  simp only [selectorBody, M.run_bind, protectedOnly_ok (w := s.work) hpe,
    privileged_ok (w := s.work) ((effCpl_protected hpe).trans hcpl), hread]

theorem fetchDesc_outside {k : CodeExc} (h : descAddr w.s sel = none) :
    fetchDesc sel k w = .error (.exc (k.mk (w.code sel))) w := by
  unfold fetchDesc readDescriptor selCode
  simp only [M.run_bind, run_st, h, M.run_pure, run_extBit, run_raise]
  rfl

/-- A selector of the LDT, and one beyond the limit of the GDT (20 R70). -/
theorem gdtDesc_outside (h : selTi sel = true ∨ w.s.gdtr.limit.toNat < (selOffset sel).toNat + 7) (f : Desc → M Unit) :
    (checkSel (!selTi sel) .gp sel >>= fun _ => fetchDesc sel .gp >>= f) w = .error (.exc (.gp (w.code sel))) w := by
  rw [M.run_bind, run_checkSel]
  cases hti : selTi sel with
  | true => rfl
  | false =>
    have hlimit : ¬ (selOffset sel).toNat + 7 ≤ w.s.gdtr.limit.toNat := by simpa [hti] using h
    have hnone : descAddr w.s sel = none := by simp [descAddr, hti, hlimit]
    simp only [Bool.not_false, if_true, M.run_bind, fetchDesc_outside hnone]
    rfl

theorem gdtDesc_inside (hti : selTi sel = false) (hd : fetchDesc sel .gp w = .ok d v) (f : Desc → M Unit) :
    (checkSel (!selTi sel) .gp sel >>= fun _ => fetchDesc sel .gp >>= f) w = f d v := by
  rw [M.run_bind, run_checkSel, hti]
  simp only [Bool.not_false, if_true, M.run_bind, hd]

theorem lldtSelector_null (h : isNull sel = true) (w : Work) :
    lldtSelector sel w = .ok () { w with s := { w.s with ldtr := { w.s.ldtr with selector := sel, valid := false } } } := by
  rw [lldtSelector, if_pos h, run_upd]

theorem lldtSelector_eq (h : isNull sel = false) :
    lldtSelector sel = (checkSel (!selTi sel) .gp sel >>= fun _ => fetchDesc sel .gp >>= lldtLoad sel) := by
  rw [lldtSelector, if_neg (by rw [h]; exact Bool.false_ne_true)]

theorem ltrSelector_null (h : isNull sel = true) (w : Work) : ltrSelector sel w = .error (.exc (.gp 0)) w := by
  rw [ltrSelector, h]
  rfl

theorem ltrSelector_eq (h : isNull sel = false) :
    ltrSelector sel = (checkSel (!selTi sel) .gp sel >>= fun _ => fetchDesc sel .gp >>= ltrLoad sel) := by
  rw [ltrSelector, h]
  rfl

/-! ### The descriptor -/

theorem systemType_eq {t : BitVec 4} : (!d.s && d.typ == t) = decide (d.s = false ∧ d.typ = t) := by
  rw [Bool.eq_iff_iff]
  simp

theorem lldtLoad_type (h : ¬ (d.s = false ∧ d.typ = 2)) (v : Work) :
    lldtLoad sel d v = .error (.exc (.gp (v.code sel))) v := by
  rw [lldtLoad, M.run_bind, run_checkSel, systemType_eq, decide_eq_false h]
  rfl

theorem lldtLoad_ldt (hs : d.s = false) (htyp : d.typ = 2) (v : Work) :
    lldtLoad sel d v = if d.p then
        .ok () { v with s := { v.s with ldtr := { selector := sel, base := d.base, limit := d.effLimit, valid := true } } }
      else .error (.exc (.np (v.code sel))) v := by
  rw [lldtLoad, M.run_bind, run_checkSel, systemType_eq, decide_eq_true ⟨hs, htyp⟩]
  simp only [if_true, M.run_bind, run_checkSel, CodeExc.mk]
  cases d.p <;> rfl

theorem ltrLoad_286 (hs : d.s = false) (htyp : d.typ = 1) (v : Work) :
    ltrLoad sel d v = .error (.refuse .format286) v := by
  rw [ltrLoad, M.run_bind, systemType_eq, decide_eq_true ⟨hs, htyp⟩]
  rfl

theorem ltrLoad_type (h : ¬ (d.s = false ∧ (d.typ = 1 ∨ d.typ = 9))) (v : Work) :
    ltrLoad sel d v = .error (.exc (.gp (v.code sel))) v := by
  have h1 : ¬ (d.s = false ∧ d.typ = 1) := fun h1 => h ⟨h1.1, .inl h1.2⟩
  have h9 : ¬ (d.s = false ∧ d.typ = 9) := fun h9 => h ⟨h9.1, .inr h9.2⟩
  rw [ltrLoad, systemType_eq, systemType_eq, decide_eq_false h1, decide_eq_false h9, M.run_bind, Bool.not_false, run_need_true]
  simp only [M.run_bind, run_checkSel]
  rfl

/-- An available 80386 TSS: if it is present, its busy bit is set and the register loaded. -/
theorem ltrLoad_tss (hs : d.s = false) (htyp : d.typ = 9) (v : Work) :
    ltrLoad sel d v = if d.p then (setAccessBits sel 2 >>= fun _ =>
        upd fun s => { s with tr := { selector := sel, base := d.base, limit := d.effLimit, valid := true } }) v
      else .error (.exc (.np (v.code sel))) v := by
  have h1 : ¬ (d.s = false ∧ d.typ = 1) := fun h1 => absurd (htyp.symm.trans h1.2) (by decide)
  rw [ltrLoad, systemType_eq, systemType_eq, decide_eq_false h1, decide_eq_true ⟨hs, htyp⟩, M.run_bind, Bool.not_false,
    run_need_true]
  simp only [M.run_bind, run_checkSel, CodeExc.mk, if_true]
  cases d.p <;> rfl

/-! ### The busy bit (20 R75) -/

/-- Of every byte at most the busy bit, and accessed and dirty bits of page tables, have changed. -/
theorem setBusyBit_bytes (hm : Memory.wf s.mem = true) (hv : ReadsW s.work v) (hu : setAccessBits sel 2 v = .ok () u)
    (a : BitVec 32) : u.s.byteAt a ||| 0x62#8 = s.byteAt a ||| 0x62#8 := by
  have hset := setAccessBits_bytes sel 2 v (hv.acc.state.wf hm) a
  rw [hu] at hset
  have hread := ((hv.frame hm) a List.not_mem_nil).1
  calc u.s.byteAt a ||| 0x62#8 = v.s.byteAt a ||| 0x62#8 := hset
    _ = v.s.byteAt a ||| 0x60#8 ||| 2#8 := by rw [BitVec.or_assoc]; rfl
    _ = s.byteAt a ||| 0x62#8 := by rw [hread, BitVec.or_assoc]; rfl

/-- Where every physical address is RAM, the busy bit is the one change. -/
theorem setBusyBit_ram (hm : Memory.wf s.mem = true) (hram : AllRam s) (hv : ReadsW s.work v)
    (hu : setAccessBits sel 2 v = .ok () u) (a : BitVec 32) :
    u.s.byteAt a = if a = accessByte s sel then s.byteAt a ||| 2#8 else s.byteAt a := by
  have hacc : Accesses s v.s := hv.acc.state
  have hbytes (b : BitVec 32) : v.s.byteAt b = s.byteAt b := ((hv.frame hm) b List.not_mem_nil).2 hram.paging
  have haddr : accessByte v.s sel = accessByte s sel := by rw [accessByte, accessByte, hacc.ldtr, hacc.gdtr]
  cases hu.symm.trans (setAccessBits_ram (hram.of_same hacc.cr0 hacc.map) sel 2)
  change Memory.read (Memory.write v.s.mem (accessByte v.s sel).toNat (v.s.byteAt (accessByte v.s sel) ||| 2)) a.toNat = _
  rw [Memory.read_write (hacc.wf hm), haddr, hbytes]
  by_cases ha : a = accessByte s sel
  · rw [if_pos (by rw [ha]), if_pos ha, ha]
    rfl
  · rw [if_neg fun h => ha (BitVec.eq_of_toNat_eq h), if_neg ha]
    exact hbytes a

/-! ### The instructions -/

/-- Bytes after reads of memory and of descriptors. -/
theorem TablesOnly.of_reads {t : State} (hreads : ReadsW s.work v) (hmem : t.mem = v.s.mem) : TablesOnly s t := by
  intro hm a
  have hread := ((hreads.frame hm) a List.not_mem_nil).1
  rw [State.byteAt, hmem]
  calc v.s.byteAt a ||| 0x61#8 = v.s.byteAt a ||| 0x60#8 ||| 1#8 := by rw [BitVec.or_assoc]; rfl
    _ = s.byteAt a ||| 0x61#8 := by rw [hread, BitVec.or_assoc]; rfl

theorem exec_lldt_raises {e : Exc} (ready : Ready s) (hbody : selectorBody rm lldtSelector s.work = .error (.exc e) v) :
    exec (.lldt rm) s = raiseExc 6 (rollback s v) e := run_raises ready hbody

theorem exec_ltr_raises {e : Exc} (ready : Ready s) (hbody : selectorBody rm ltrSelector s.work = .error (.exc e) v) :
    exec (.ltr rm) s = raiseExc 6 (rollback s v) e := run_raises ready hbody

/-- LLDT that ends with `l` in the register. -/
theorem exec_lldt_ends {l : SysSeg} (ready : Ready s) (hreads : ReadsW s.work v)
    (hbody : selectorBody rm lldtSelector s.work = .ok () { v with s := { v.s with ldtr := l } }) :
    ∃ t, exec (.lldt rm) s = .next t ∧ Ends s { v.s with ldtr := l } t ∧ t.gpr = s.gpr ∧
      KeepsSystem s { t with ldtr := s.ldtr } ∧ TablesOnly s t := by
  obtain ⟨t, hrun, hends⟩ := run_ends ready hreads.acc hbody
  refine ⟨t, hrun, hends, hends.gpr.trans hreads.acc.state.gpr, ?_, .of_reads hreads hends.mem⟩
  have hend := hends.1
  rw [hreads.acc.state.same] at hend
  rw [hend]
  rfl

/-- LTR that ends with `l` in the register. -/
theorem exec_ltr_ends {l : SysSeg} (ready : Ready s) (hacc : AccessesW s.work u)
    (hbody : selectorBody rm ltrSelector s.work = .ok () { u with s := { u.s with tr := l } }) :
    ∃ t, exec (.ltr rm) s = .next t ∧ Ends s { u.s with tr := l } t ∧ t.gpr = s.gpr ∧ KeepsSystem s { t with tr := s.tr } := by
  obtain ⟨t, hrun, hends⟩ := run_ends ready hacc hbody
  refine ⟨t, hrun, hends, hends.gpr.trans hacc.state.gpr, ?_⟩
  have hend := hends.1
  rw [hacc.state.same] at hend
  rw [hend]
  rfl

end Selector

/-- Settles O46: the tests on the selector, and for a selector of a descriptor in the GDT the tests on the descriptor. -/
theorem loadLdtrTr : Obligations.LoadLdtrTr := by
  intro s rm ready hpe hcpl sel w hread raises code
  have hreads : ReadsW s.work w := (read16_reads rm).ok hread
  have hacc : Accesses s w.s := hreads.acc.state
  have hbody (f : BitVec 16 → M Unit) : selectorBody rm f s.work = f sel w := selectorBody_work hpe hcpl hread f
  refine ⟨fun hnull => ⟨?lldtNull, ?ltrNull⟩, fun hnull hout => ⟨?lldtOut, ?ltrOut⟩, fun d v hnull hti hd => ?descriptor⟩
  case lldtNull =>
    obtain ⟨t, hrun, hends, hgpr, hkeeps, htables⟩ := exec_lldt_ends (l := { s.ldtr with selector := sel, valid := false })
      ready hreads (by rw [hbody, lldtSelector_null hnull, hacc.ldtr])
    exact ⟨t, hrun, hgpr, hends, hkeeps, htables⟩
  case ltrNull => exact exec_ltr_raises ready ((hbody _).trans (ltrSelector_null hnull w))
  case lldtOut =>
    rw [← hacc.gdtr] at hout
    exact exec_lldt_raises ready (by rw [hbody, lldtSelector_eq hnull, gdtDesc_outside hout, hreads.acc.code_work])
  case ltrOut =>
    rw [← hacc.gdtr] at hout
    exact exec_ltr_raises ready (by rw [hbody, ltrSelector_eq hnull, gdtDesc_outside hout, hreads.acc.code_work])
  case descriptor =>
    have hreadsv : ReadsW s.work v := reads_rel.trans _ _ _ hreads ((fetchDesc_reads sel .gp).ok hd)
    have hcode : v.code sel = code := hreadsv.acc.code_work sel
    have hlldt : selectorBody rm lldtSelector s.work = lldtLoad sel d v := by
      rw [hbody, lldtSelector_eq hnull, gdtDesc_inside hti hd]
    have hltr : selectorBody rm ltrSelector s.work = ltrLoad sel d v := by
      rw [hbody, ltrSelector_eq hnull, gdtDesc_inside hti hd]
    refine ⟨fun htype => ?_, fun hs htyp hp => ?_, fun hs htyp hp => ?_, fun hs htyp => ?_, fun htype => ?_,
      fun hs htyp hp => ?_, fun hs htyp hp u hu => ?_⟩
    · exact exec_lldt_raises ready (by rw [hlldt, lldtLoad_type htype, hcode])
    · exact exec_lldt_raises ready (by rw [hlldt, lldtLoad_ldt hs htyp, hp, hcode]; rfl)
    · exact exec_lldt_ends ready hreadsv (by rw [hlldt, lldtLoad_ldt hs htyp, if_pos hp])
    · exact run_refused ready (hltr.trans (ltrLoad_286 hs htyp v))
    · exact exec_ltr_raises ready (by rw [hltr, ltrLoad_type htype, hcode])
    · exact exec_ltr_raises ready (by rw [hltr, ltrLoad_tss hs htyp, hp, hcode]; rfl)
    · have hacc : AccessesW s.work u := accesses_rel.trans _ _ _ hreadsv.acc ((setAccessBits_accesses sel 2).ok hu)
      obtain ⟨t, hrun, hends, hgpr, hkeeps⟩ := exec_ltr_ends ready hacc
        (by rw [hltr, ltrLoad_tss hs htyp, if_pos hp]; exact bind_eq_ok.2 ⟨(), u, hu, rfl⟩)
      have hbytes (a : BitVec 32) : t.byteAt a = u.s.byteAt a := by rw [State.byteAt, hends.mem]; rfl
      exact ⟨t, hrun, hends, hgpr, hkeeps, fun hm a => by rw [hbytes, setBusyBit_bytes hm hreadsv hu],
        fun hm hram a => by rw [hbytes, setBusyBit_ram hm hram hreadsv hu]⟩

end Sys2Proof.Machine
end


section
/-! The obligations about the control registers and the reads of system registers (O47, O48). -/

namespace Sys2Proof.Machine

open Sys2Proof

-- One theorem after another, so that no more of them wait for each other than the memory limit has threads for.
set_option Elab.async false

/-! ### Parts of a meaning -/

theorem bind_of_ok {α β : Type} {x : M α} {a : α} {w v : Work} (h : x w = .ok a v) (f : α → M β) : (x >>= f) w = f a v := by
  rw [M.run_bind, h]

theorem bind_of_error {α β : Type} {x : M α} {e : Stop} {w v : Work} (h : x w = .error e v) (f : α → M β) :
    (x >>= f) w = .error e v := by
  rw [M.run_bind, h]

theorem freeStatus_ok (w : Work) : ∃ f e, freeStatus w =
    .ok () { w with s := { w.s with flags := w.s.flags.withStatus f, env := e } } ∧ Drawn w.s.env e := by
  obtain ⟨f, e, hdraw, hdrawn⟩ := drawStatus_ok w
  exact ⟨f, e, bind_of_ok hdraw _, hdrawn⟩

/-- A meaning that changes the state and ends with free status flags (40 R136). -/
theorem run_frees {s u : State} {body : M Unit} (ready : Ready s) (hbody : body s.work = freeStatus { s.work with s := u })
    (heip : u.eip = s.eip := by rfl) (hinsn : u.insn = s.insn := by rfl) :
    ∃ f e, Drawn u.env e ∧
      run body s = .next (s.completed { u with flags := u.flags.withStatus f, env := e }) := by
  obtain ⟨f, e, hfree, hdrawn⟩ := freeStatus_ok { s.work with s := u }
  exact ⟨f, e, hdrawn, run_completes ready (hbody.trans hfree) heip hinsn⟩

/-! ### CR0 (40 R133, R135, R137) -/

/-- Only a change of PE from 1 to 0 changes the segment registers (log 30). -/
theorem writeCr0_segs {c : Cr0} {s : State} (h : s.cr0.pe = false ∨ c.pe = true) : (writeCr0 c s).segs = s.segs := by
  have hstays : (s.cr0.pe && !c.pe) = false := by
    obtain h | h := h <;> simp [h]
  change (if (s.cr0.pe && !c.pe) = true then s.segs.toReal else s.segs) = s.segs
  rw [if_neg (by rw [hstays]; exact Bool.false_ne_true)]

theorem writeCr0_cpl (c : Cr0) (s : State) : (writeCr0 c s).cpl = if s.cr0.pe = c.pe then s.cpl else 0 := by
  change (if (c.pe != s.cr0.pe) = true then 0 else s.cpl) = _
  by_cases h : s.cr0.pe = c.pe
  · rw [if_pos h, h, if_neg (by simp)]
  · rw [if_neg h, if_pos (by simpa using Ne.symm h)]

/-- The value that LMSW gives CR0: PE is set but never cleared (40 R133). -/
def lmswValue (c : Cr0) (v : BitVec 16) : Cr0 :=
  { c with pe := c.pe || v.getLsbD 0, mp := v.getLsbD 1, em := v.getLsbD 2, ts := v.getLsbD 3 }

/-- CPL is 0 once PE is set, where it was clear. -/
theorem cplAfter_set (pe set : Bool) (cpl : BitVec 2) :
    (if pe = (pe || set) then cpl else 0) = if pe then cpl else if set then 0 else cpl := by
  cases pe <;> cases set <;> rfl

section Control

variable {s : State}

theorem exec_clts (ready : Ready s) (hcpl : s.effCpl = 0) :
    exec .clts s = .next (s.completed { s with cr0 := { s.cr0 with ts := false } }) :=
  run_completes ready (bind_of_ok (privileged_ok hcpl) _)

theorem exec_lmsw_ends (ready : Ready s) (hcpl : s.effCpl = 0) {rm : RM Reg} {v : BitVec 16} {w : Work}
    (hread : read16 rm s.work = .ok v w) :
    ∃ t, exec (.lmsw rm) s = .next t ∧ Ends s (writeCr0 (lmswValue w.s.cr0 v) w.s) t :=
  run_ends ready ((read16_accesses rm).ok hread)
    ((bind_of_ok (privileged_ok hcpl) _).trans (bind_of_ok hread fun v => upd fun s => writeCr0 (lmswValue s.cr0 v) s))

/-- MOV to CR0 (40 R137). -/
def movCr0 (r : Reg) : M Unit :=
  privileged >>= fun _ => need true .controlRegister >>= fun _ => st >>= fun s =>
    check (!bit (s.reg r) 31 || bit (s.reg r) 0) (.gp 0) >>= fun _ => upd (writeCr0 (Cr0.ofBits (s.reg r))) >>= fun _ =>
      freeStatus

theorem exec_movCr0 (r : Reg) (s : State) : exec (.movCrR 0 r) s = run (movCr0 r) s := rfl

theorem movCr0_work (hcpl : s.effCpl = 0) (r : Reg) :
    movCr0 r s.work = if (!bit (s.reg r) 31 || bit (s.reg r) 0) = true then
        freeStatus { s.work with s := writeCr0 (Cr0.ofBits (s.reg r)) s }
      else .error (.exc (.gp 0)) s.work := by
  refine (bind_of_ok (privileged_ok hcpl) _).trans ?_
  change (check (!bit (s.reg r) 31 || bit (s.reg r) 0) (.gp 0) >>= _) s.work = _
  rw [M.run_bind, run_check]
  cases !bit (s.reg r) 31 || bit (s.reg r) 0 <;> rfl

/-- PG without PE (40 R137). -/
theorem exec_movCr0_raises (ready : Ready s) (hcpl : s.effCpl = 0) {r : Reg} (hpg : bit (s.reg r) 31 = true)
    (hpe : bit (s.reg r) 0 = false) : exec (.movCrR 0 r) s = raiseExc 6 s.faulting (.gp 0) :=
  run_raises (w := s.work) ready ((movCr0_work hcpl r).trans (if_neg (by simp [hpg, hpe])))

theorem exec_movCr0_completes (ready : Ready s) (hcpl : s.effCpl = 0) {r : Reg}
    (h : bit (s.reg r) 31 = true → bit (s.reg r) 0 = true) :
    ∃ f e, Drawn s.env e ∧ exec (.movCrR 0 r) s = .next
      (s.completed { writeCr0 (Cr0.ofBits (s.reg r)) s with flags := s.flags.withStatus f, env := e }) := by
  have hallowed : (!bit (s.reg r) 31 || bit (s.reg r) 0) = true := by
    cases hpg : bit (s.reg r) 31 with
    | false => rfl
    | true => exact h hpg
  exact run_frees (body := movCr0 r) ready ((movCr0_work hcpl r).trans (if_pos hallowed))

theorem exec_movCr2_completes (ready : Ready s) (hcpl : s.effCpl = 0) (r : Reg) :
    ∃ f e, Drawn s.env e ∧
      exec (.movCrR 2 r) s = .next (s.completed { s with cr2 := s.reg r, flags := s.flags.withStatus f, env := e }) :=
  run_frees (u := { s with cr2 := s.reg r }) ready (bind_of_ok (privileged_ok hcpl) _)

theorem exec_movCr3_completes (ready : Ready s) (hcpl : s.effCpl = 0) (r : Reg) :
    ∃ f e, Drawn s.env e ∧
      exec (.movCrR 3 r) s = .next (s.completed { writeCr3 (s.reg r) s with flags := s.flags.withStatus f, env := e }) :=
  run_frees (u := writeCr3 (s.reg r) s) ready (bind_of_ok (privileged_ok hcpl) _)

end Control

theorem flushTlb_invalid {s : State} {e : TlbEntry} (h : e ∈ (flushTlb s).tlb) : e.v = false := by
  obtain ⟨o, -, rfl⟩ := List.mem_map.1 h
  rfl

/-- Settles O47: what is written is `writeCr0` or `writeCr3` of the value, and those are read off. -/
theorem controlRegisterWrites : Obligations.ControlRegisterWrites := by
  intro s ready hcpl
  refine ⟨exec_clts ready hcpl, fun rm v w hread => ?lmsw, fun r => ⟨exec_movCr0_raises ready hcpl, fun h => ?cr0,
    exec_movCr2_completes ready hcpl r, ?cr3⟩⟩
  case lmsw =>
    have hreads : ReadsW s.work w := (read16_reads rm).ok hread
    have hacc : Accesses s w.s := hreads.acc.state
    obtain ⟨t, hrun, hends⟩ := exec_lmsw_ends ready hcpl hread
    have hcr0 : t.cr0 = lmswValue w.s.cr0 v := hends.cr0
    have hset : w.s.cr0.pe = false ∨ (lmswValue w.s.cr0 v).pe = true := by
      cases hpe : w.s.cr0.pe <;> simp [lmswValue, hpe]
    refine ⟨t, hrun, by rwa [hcr0], ?_, ?_, fun hm => (hreads.frame hm).of_mem_eq hends.mem, ?_,
      hends.gpr.trans hacc.gpr, ?_⟩
    · exact hends.flags.trans (congrArg (fun f : Flags => { f with rf := false }) hacc.flags)
    · rw [hends.segs, writeCr0_segs hset, hacc.segs]
    · rw [hcr0, hacc.cr0]
      rfl
    · rw [hends.cpl, writeCr0_cpl, hacc.cr0, hacc.cpl]
      exact cplAfter_set _ _ _
  case cr0 =>
    obtain ⟨f, e, hdrawn, hrun⟩ := exec_movCr0_completes ready hcpl h
    exact ⟨_, f, e, hdrawn, hrun, rfl, writeCr0_cpl _ s, fun hseg => writeCr0_segs hseg, rfl, rfl, rfl, rfl⟩
  case cr3 =>
    obtain ⟨f, e, hdrawn, hrun⟩ := exec_movCr3_completes ready hcpl r
    exact ⟨f, e, _, hdrawn, fun _ ho => flushTlb_invalid (s := s) ho, hrun⟩

end Sys2Proof.Machine
end


section
/-! The obligation about the reads of control, debug and test registers (O48), and the general detect fault. -/

namespace Sys2Proof.Machine

open Sys2Proof

-- One theorem after another, so that no more of them wait for each other than the memory limit has threads for.
set_option Elab.async false

/-! ### The general detect fault (61 R323, R326) -/

theorem bit_bitMask {b : Bool} {i n : Nat} (h : bit (bitMask b i) n = true) : n = i ∧ b = true := by
  cases b with
  | false => simp [bit, bitMask] at h
  | true =>
    have hn : n < 32 ∧ n = i := by
      simp [bit, bitMask, BitVec.getLsbD_shiftLeft] at h
      omega
    exact ⟨hn.2, rfl⟩

/-- A bit of `dbgBits` is that of one of the four breakpoints, for which `p` holds. -/
theorem bit_dbgBits {p : Nat → Bool} {n : Nat} (h : bit (dbgBits p) n = true) : n < 4 ∧ p n = true := by
  have hcases : bit (bitMask (p 0) 0) n = true ∨ bit (bitMask (p 1) 1) n = true ∨ bit (bitMask (p 2) 2) n = true ∨
      bit (bitMask (p 3) 3) n = true := by
    simpa [bit, dbgBits, or_assoc] using h
  rcases hcases with h | h | h | h <;>
  · obtain ⟨rfl, hp⟩ := bit_bitMask h
    exact ⟨by decide, hp⟩

theorem generalDetect_off {w : Work} (h : w.s.env.ice = false) : generalDetect w = .ok () w := by
  simp [generalDetect, h]

section Detect

variable {s : State}

/-- With ICE-386 the fault reports instruction breakpoints at the address alone. -/
theorem generalDetect_on (h : s.env.ice = true) :
    ∃ b e, Drawn s.env e ∧ generalDetect s.work = .error (.exc (.db b)) (s.work.inWorld e) ∧
      ∀ n, bit b n = true → n < 4 ∧ dr7Rw s.dr7 n = 0#2 ∧ s.drAddr n = s.segs.cs.base + s.eip := by
  have hval (met : BitVec 32) : ∃ x e, (if met = 0 then pure 0 else draw : M (BitVec 32)) s.work = .ok x (s.work.inWorld e) ∧
      Drawn s.env e := by
    by_cases hmet : met = 0
    · rw [if_pos hmet]
      exact ⟨0, s.env, rfl, Drawn.refl _⟩
    · rw [if_neg hmet]
      exact draw_ok s.work
  obtain ⟨x, e, hx, hdrawn⟩ := hval (dbgBits (fetchMatch s (s.segs.cs.base + s.eip)))
  refine ⟨dbgBits (fetchMatch s (s.segs.cs.base + s.eip)) &&& x, e, hdrawn, ?_, fun n hn => ?_⟩
  · refine (bind_of_ok (v := s.work) rfl _).trans ((congrFun (if_pos h) s.work).trans ?_)
    exact bind_of_ok hx _
  · rw [bit, BitVec.getLsbD_and, Bool.and_eq_true] at hn
    obtain ⟨hlt, hmet⟩ := bit_dbgBits hn.1
    rw [fetchMatch, Bool.and_eq_true, Bool.and_eq_true, beq_iff_eq, beq_iff_eq] at hmet
    obtain ⟨⟨-, hrw⟩, haddr⟩ := hmet
    exact ⟨hlt, hrw, haddr⟩

/-- A privileged instruction whose next test is the general detect. -/
theorem detectsIce {i : Instr} {f : Unit → M Unit} (hexec : exec i s = run (privileged >>= fun _ => generalDetect >>= f) s)
    (ready : Ready s) (hcpl : s.effCpl = 0) (h : s.env.ice = true) : DetectsIce s i := by
  obtain ⟨b, e, hdrawn, hraise, hbits⟩ := generalDetect_on h
  have hbody : (privileged >>= fun _ => generalDetect >>= f) s.work = .error (.exc (.db b)) (s.work.inWorld e) :=
    (bind_of_ok (privileged_ok hcpl) _).trans (bind_of_error hraise f)
  exact ⟨b, e, hdrawn, hexec.trans (run_raises ready hbody), hbits⟩

theorem movRDr_detectsIce (r : Reg) (n : BitVec 3) (ready : Ready s) (hcpl : s.effCpl = 0) (h : s.env.ice = true) :
    DetectsIce s (.movRDr r n) := detectsIce rfl ready hcpl h

theorem movDrR_detectsIce (r : Reg) (n : BitVec 3) (ready : Ready s) (hcpl : s.effCpl = 0) (h : s.env.ice = true) :
    DetectsIce s (.movDrR n r) := detectsIce rfl ready hcpl h

end Detect

/-! ### Reads (40 R136, R138, R140) -/

/-- The end of a MOV from a system register: the value, with its free bits, and free status flags. -/
def readTail (value : State → BitVec 32 → BitVec 32) (r : Reg) : M Unit :=
  st >>= fun s => draw >>= fun u => upd (fun t => t.setReg r (value s u)) >>= fun _ => freeStatus

/-- What a MOV from CRn reads, with the free value `u` in its reserved bits. -/
def crValue (n : BitVec 3) (s : State) (u : BitVec 32) : BitVec 32 :=
  if n = 0 then s.cr0.toBits ||| (u &&& cr0Reserved) else if n = 2 then s.cr2 else s.pdbr ++ u.extractLsb' 0 12

/-- What a MOV from DRn reads. -/
def drValue (n : BitVec 3) (s : State) (u : BitVec 32) : BitVec 32 :=
  if n = 0 then s.dr0 else if n = 1 then s.dr1 else if n = 2 then s.dr2 else if n = 3 then s.dr3
  else if n = 6 then s.dr6 ||| (u &&& 0xFFFF1FF0#32) else s.dr7 ||| (u &&& 0xFC00#32)

/-- What a MOV from TRn reads. -/
def trValue (n : BitVec 3) (s : State) (u : BitVec 32) : BitVec 32 :=
  if n = 6 then s.tr6 ||| (u &&& 0x1E#32) else s.tr7 ||| (u &&& 0xFE3#32)

section Reads

variable {s : State} {r : Reg} {n : BitVec 3}

theorem exec_movRCr (r : Reg) (n : BitVec 3) (s : State) : exec (.movRCr r n) s =
    run (privileged >>= fun _ => need (n == 0 || n == 2 || n == 3) .controlRegister >>= fun _ => readTail (crValue n) r) s := rfl

theorem exec_movRDr (r : Reg) (n : BitVec 3) (s : State) : exec (.movRDr r n) s =
    run (privileged >>= fun _ => generalDetect >>= fun _ => need (n != 4 && n != 5) .debugRegister >>= fun _ =>
      readTail (drValue n) r) s := rfl

theorem exec_movRTr (r : Reg) (n : BitVec 3) (s : State) : exec (.movRTr r n) s =
    run (privileged >>= fun _ => need (n == 6 || n == 7) .testRegister >>= fun _ => readTail (trValue n) r) s := rfl

/-- A read that completes gives the bits of `want` that the mask names, whatever is drawn for the others. -/
theorem run_reads {value : State → BitVec 32 → BitVec 32} {mask want : BitVec 32} {body : M Unit} (ready : Ready s)
    (hbody : body s.work = readTail value r s.work) (hvalue : ∀ u, value s u &&& mask = want &&& mask) :
    ∃ v f e, Drawn s.env e ∧ v &&& mask = want &&& mask ∧ run body s = .next (s.completed
      { s.setReg r v with flags := s.flags.withStatus f, env := e }) := by
  obtain ⟨u, e, hdraw, hdrawn⟩ := draw_ok s.work
  obtain ⟨f, e', hdrawn', hrun⟩ := run_frees (u := ({ s with env := e } : State).setReg r (value s u)) ready
    (hbody.trans (bind_of_ok hdraw _))
  exact ⟨value s u, f, e', hdrawn.trans hdrawn', hvalue u, hrun⟩

theorem exec_movRCr_reads {mask want : BitVec 32} (ready : Ready s) (hcpl : s.effCpl = 0) (hn : n = 0 ∨ n = 2 ∨ n = 3)
    (hvalue : ∀ u, crValue n s u &&& mask = want &&& mask) :
    ∃ v f e, Drawn s.env e ∧ v &&& mask = want &&& mask ∧ exec (.movRCr r n) s = .next (s.completed
      { s.setReg r v with flags := s.flags.withStatus f, env := e }) := by
  have hexists : (n == 0 || n == 2 || n == 3) = true := by simpa [or_assoc] using hn
  rw [exec_movRCr, hexists]
  exact run_reads ready (bind_of_ok (privileged_ok hcpl) _) hvalue

theorem exec_movRDr_reads {mask want : BitVec 32} (ready : Ready s) (hcpl : s.effCpl = 0) (hice : s.env.ice = false)
    (hn : n ≠ 4 ∧ n ≠ 5) (hvalue : ∀ u, drValue n s u &&& mask = want &&& mask) :
    ∃ v f e, Drawn s.env e ∧ v &&& mask = want &&& mask ∧ exec (.movRDr r n) s = .next (s.completed
      { s.setReg r v with flags := s.flags.withStatus f, env := e }) := by
  have hexists : (n != 4 && n != 5) = true := by simpa using hn
  rw [exec_movRDr, hexists]
  exact run_reads ready ((bind_of_ok (privileged_ok hcpl) _).trans (bind_of_ok (generalDetect_off hice) _)) hvalue

theorem exec_movRTr_reads {mask want : BitVec 32} (ready : Ready s) (hcpl : s.effCpl = 0) (hn : n = 6 ∨ n = 7)
    (hvalue : ∀ u, trValue n s u &&& mask = want &&& mask) :
    ∃ v f e, Drawn s.env e ∧ v &&& mask = want &&& mask ∧ exec (.movRTr r n) s = .next (s.completed
      { s.setReg r v with flags := s.flags.withStatus f, env := e }) := by
  have hexists : (n == 6 || n == 7) = true := by simpa using hn
  rw [exec_movRTr, hexists]
  exact run_reads ready (bind_of_ok (privileged_ok hcpl) _) hvalue

/-- The bits of a register beside the reserved ones of CR3. -/
theorem append_free_and (p : BitVec 20) (u : BitVec 12) : (p ++ u) &&& 0xFFFFF000#32 = (p ++ 0#12) &&& 0xFFFFF000#32 := by
  have hmask : 0xFFFFF000#32 = 0xFFFFF#20 ++ 0#12 := rfl
  rw [hmask, BitVec.and_append, BitVec.and_append, BitVec.and_zero, BitVec.and_zero]

/-! ### Numbers that do not exist (93 U27) -/

theorem run_privileged_refused {c : Bool} {ref : Refusal} {f : Unit → M Unit} (ready : Ready s) (hcpl : s.effCpl = 0)
    (hc : c = false) : run (privileged >>= fun _ => need c ref >>= f) s = .refused ref := by
  subst hc
  exact run_refused (w := s.work) ready (bind_of_ok (privileged_ok hcpl) _)

theorem run_debug_refused {c : Bool} {ref : Refusal} {f : Unit → M Unit} (ready : Ready s) (hcpl : s.effCpl = 0)
    (hice : s.env.ice = false) (hc : c = false) :
    run (privileged >>= fun _ => generalDetect >>= fun _ => need c ref >>= f) s = .refused ref := by
  subst hc
  exact run_refused (w := s.work) ready ((bind_of_ok (privileged_ok hcpl) _).trans (bind_of_ok (generalDetect_off hice) _))

theorem exec_controlRegister_refused (ready : Ready s) (hcpl : s.effCpl = 0) (h0 : n ≠ 0) (h2 : n ≠ 2) (h3 : n ≠ 3) :
    exec (.movRCr r n) s = .refused .controlRegister ∧ exec (.movCrR n r) s = .refused .controlRegister := by
  have hnone : (n == 0 || n == 2 || n == 3) = false := by
    simpa [and_assoc] using And.intro h0 (And.intro h2 h3)
  exact ⟨run_privileged_refused ready hcpl hnone, run_privileged_refused ready hcpl hnone⟩

theorem exec_debugRegister_refused (ready : Ready s) (hcpl : s.effCpl = 0) (hice : s.env.ice = false) (h : n = 4 ∨ n = 5) :
    exec (.movRDr r n) s = .refused .debugRegister ∧ exec (.movDrR n r) s = .refused .debugRegister := by
  have hnone : (n != 4 && n != 5) = false := by
    obtain rfl | rfl := h <;> rfl
  exact ⟨run_debug_refused ready hcpl hice hnone, run_debug_refused ready hcpl hice hnone⟩

theorem exec_testRegister_refused (ready : Ready s) (hcpl : s.effCpl = 0) (h6 : n ≠ 6) (h7 : n ≠ 7) :
    exec (.movRTr r n) s = .refused .testRegister ∧ exec (.movTrR n r) s = .refused .testRegister := by
  have hnone : (n == 6 || n == 7) = false := by
    simpa using And.intro h6 h7
  exact ⟨run_privileged_refused ready hcpl hnone, run_privileged_refused ready hcpl hnone⟩

end Reads

/-- Settles O48: each read by the bits of its value, each number that does not exist by the test that refuses it. -/
theorem systemRegisterReads : Obligations.SystemRegisterReads := by
  intro s r ready hcpl reads
  refine ⟨⟨?cr0, ?cr2, ?cr3⟩, fun n h0 h2 h3 => exec_controlRegister_refused ready hcpl h0 h2 h3,
    fun hice => ⟨⟨?dr0, ?dr1, ?dr2, ?dr3, ?dr6, ?dr7⟩, fun n hn => exec_debugRegister_refused ready hcpl hice hn⟩,
    fun hice n => ⟨movRDr_detectsIce r n ready hcpl hice, movDrR_detectsIce r n ready hcpl hice⟩, ⟨?tr6, ?tr7⟩,
    fun n h6 h7 => exec_testRegister_refused ready hcpl h6 h7⟩
  case cr0 => exact exec_movRCr_reads ready hcpl (by decide) fun u => or_free_and _ u (by decide)
  case cr2 => exact exec_movRCr_reads ready hcpl (by decide) fun _ => rfl
  case cr3 => exact exec_movRCr_reads ready hcpl (by decide) fun u => append_free_and _ _
  case dr0 | dr1 | dr2 | dr3 => exact exec_movRDr_reads ready hcpl hice (by decide) fun _ => rfl
  case dr6 | dr7 => exact exec_movRDr_reads ready hcpl hice (by decide) fun u => or_free_and _ u (by decide)
  case tr6 | tr7 => exact exec_movRTr_reads ready hcpl (by decide) fun u => or_free_and _ u (by decide)

end Sys2Proof.Machine
end


section
/-! The obligation about MOV to the debug and test registers, the commands of the TLB test, and HLT (O49). -/

namespace Sys2Proof.Machine

open Sys2Proof

-- One theorem after another, so that no more of them wait for each other than the memory limit has threads for.
set_option Elab.async false

theorem need_ok {c : Bool} (h : c = true) (r : Refusal) (w : Work) : need c r w = .ok () w := by
  rw [h, run_need_true]

theorem need_refuses {c : Bool} (h : c = false) (r : Refusal) (w : Work) : need c r w = .error (.refuse r) w := by
  rw [h, run_need_false]

/-! ### What a command of the TLB test leaves alone -/

/-- Only TR7, the TLB, what is recorded of them and the world have changed. -/
def TestsTlb (w v : Work) : Prop :=
  v = { w with s := { w.s with
    tr7 := v.s.tr7, tlb := v.s.tlb, tlbWritten := v.s.tlbWritten, prefetch := v.s.prefetch, env := v.s.env } }

theorem testsTlb_rel : StepRel TestsTlb where
  refl _ := rfl
  trans u v w h k := by
    unfold TestsTlb at h k
    rw [h] at k
    exact k

theorem draw_testsTlb : Within TestsTlb draw := by
  intro w
  obtain ⟨v, e, h, -⟩ := draw_ok w
  rw [h]
  rfl

theorem drawBit_testsTlb : Within TestsTlb drawBit :=
  within_bind testsTlb_rel draw_testsTlb fun _ => within_pure testsTlb_rel _

theorem writtenAttr_testsTlb (x y : Bool) : Within TestsTlb (writtenAttr x y) := by
  unfold writtenAttr
  split
  · exact within_pure testsTlb_rel _
  · exact drawBit_testsTlb

theorem tlbWrite_testsTlb (v : BitVec 32) : Within TestsTlb (tlbWrite v) :=
  within_bind testsTlb_rel (within_st testsTlb_rel) fun _ => within_bind testsTlb_rel (within_need testsTlb_rel _ _) fun _ =>
    within_bind testsTlb_rel (writtenAttr_testsTlb _ _) fun _ => within_bind testsTlb_rel (writtenAttr_testsTlb _ _) fun _ =>
      within_bind testsTlb_rel (writtenAttr_testsTlb _ _) fun _ =>
        within_bind testsTlb_rel (within_need testsTlb_rel _ _) fun _ => within_upd fun _ => rfl

theorem presentEntries_testsTlb (l : List TlbEntry) : Within TestsTlb (presentEntries l) := by
  induction l with
  | nil => exact within_pure testsTlb_rel _
  | cons e t ih =>
    refine within_bind testsTlb_rel ?_ fun _ => within_bind testsTlb_rel ih fun _ => within_pure testsTlb_rel _
    cases e.written with
    | true => exact within_pure testsTlb_rel _
    | false => exact drawBit_testsTlb

theorem foundBlock_testsTlb (e : TlbEntry) : Within TestsTlb (foundBlock e) := by
  unfold foundBlock
  split
  · exact within_pure testsTlb_rel _
  · exact within_bind testsTlb_rel draw_testsTlb fun _ => within_pure testsTlb_rel _

theorem tlbLookup_testsTlb (v : BitVec 32) : Within TestsTlb (tlbLookup v) := by
  refine within_bind testsTlb_rel (within_st testsTlb_rel) fun _ =>
    within_bind testsTlb_rel (within_need testsTlb_rel _ _) fun _ => ?_
  split
  · exact within_bind testsTlb_rel draw_testsTlb fun _ => within_upd fun _ => rfl
  · refine within_bind testsTlb_rel (presentEntries_testsTlb _) fun l => ?_
    match l with
    | [] => exact within_bind testsTlb_rel draw_testsTlb fun _ => within_upd fun _ => rfl
    | [e] => exact within_bind testsTlb_rel (foundBlock_testsTlb e) fun _ => within_upd fun _ => rfl
    | _ :: _ :: _ => exact within_refuse testsTlb_rel _

/-! ### The write (40 R142) -/

section Commands

variable {v : BitVec 32} {w : Work}

/-- Without HT a write is refused. -/
theorem tlbWrite_refused (h : bit w.s.tr7 4 = false) : tlbWrite v w = .error (.refuse .tlbHit) w :=
  (bind_of_ok (v := w) rfl _).trans (bind_of_error (need_refuses h _ w) _)

/-- The entry that a write makes of TR6 and TR7, with the attributes `d`, `u` and `wr`. -/
def testEntry (s : State) (v : BitVec 32) (d u wr : Bool) : TlbEntry :=
  { page := pageOf v, frame := s.tr7.extractLsb' 12 20, v := bit v 11, d := d, u := u, w := wr, block := s.tr7.extractLsb' 2 2,
    written := true }

/-- The entries that a write leaves in their places: those not known to be where it writes. -/
def keptEntries (s : State) (v : BitVec 32) : List TlbEntry :=
  s.tlb.filter fun o => !(o.written && samePlace (s.tr7.extractLsb' 2 2) (pageOf v) o.block o.page)

/-- No entry known to lie elsewhere has the tag of the write. -/
theorem keptEntries_other_tag {s : State}
    (h : ∀ o ∈ s.tlb, o.written = true → o.page = pageOf v → o.v = bit v 11 → o.block = s.tr7.extractLsb' 2 2) :
    (!(keptEntries s v).any fun o => o.written && o.page == pageOf v && o.v == bit v 11) = true := by
  rw [Bool.not_eq_true', List.any_eq_false]
  intro o ho htag
  obtain ⟨hmem, hplace⟩ := List.mem_filter.1 ho
  simp only [Bool.and_eq_true, beq_iff_eq] at htag
  obtain ⟨⟨hwritten, hpage⟩, hv⟩ := htag
  simp [hwritten, samePlace, h o hmem hwritten hpage hv, hpage] at hplace

/-- A write with HT: its entry is there, the only one of its tag. -/
theorem tlbWrite_ok (hht : bit w.s.tr7 4 = true)
    (h : ∀ o ∈ w.s.tlb, o.written = true → o.page = pageOf v → o.v = bit v 11 → o.block = w.s.tr7.extractLsb' 2 2) :
    ∃ d u wr t l g env,
      Drawn w.s.env env ∧
      (bit v 10 ≠ bit v 9 → d = bit v 10) ∧ (bit v 8 ≠ bit v 7 → u = bit v 8) ∧ (bit v 6 ≠ bit v 5 → wr = bit v 6) ∧
      tlbWrite v w = .ok () { w with s := { w.s with
        tlb := t, tlbWritten := l, prefetch := { w.s.prefetch with gone := g }, env := env } } ∧
      testEntry w.s v d u wr ∈ t ∧ (∀ o ∈ t, o.page = pageOf v → o.v = bit v 11 → o = testEntry w.s v d u wr) ∧
      (w.s.tr7.extractLsb' 2 2, pageOf v) ∈ l := by
  obtain ⟨d, e1, hd, hdrawn1, hdval⟩ := writtenAttr_ok (bit v 10) (bit v 9) w
  obtain ⟨u, e2, hu, hdrawn2, huval⟩ := writtenAttr_ok (bit v 8) (bit v 7) (w.inWorld e1)
  obtain ⟨wr, e3, hw, hdrawn3, hwval⟩ := writtenAttr_ok (bit v 6) (bit v 5) (w.inWorld e2)
  have hok : tlbWrite v w = _ := (bind_of_ok (v := w) rfl _).trans <| (bind_of_ok (need_ok hht _ w) _).trans <|
    (bind_of_ok hd _).trans <| (bind_of_ok hu _).trans <| (bind_of_ok hw _).trans <|
      bind_of_ok (need_ok (keptEntries_other_tag h) _ (w.inWorld e3)) _
  refine ⟨d, u, wr, testEntry w.s v d u wr :: (keptEntries w.s v).filter fun o => !(o.page == pageOf v && o.v == bit v 11),
    _, _, e3, (hdrawn1.trans hdrawn2).trans hdrawn3, hdval, huval, hwval, hok, List.mem_cons_self, fun o ho hpage hv => ?_, ?_⟩
  · rcases List.mem_cons.1 ho with rfl | hrest
    · rfl
    · have hother := (List.mem_filter.1 hrest).2
      simp [hpage, hv] at hother
  · split
    · exact List.contains_iff_mem.1 ‹_›
    · exact List.mem_cons_self

/-! ### The lookup (40 R142) -/

theorem properAttrs_iff : properAttrs v = true ↔ bit v 10 ≠ bit v 9 ∧ bit v 8 ≠ bit v 7 ∧ bit v 6 ≠ bit v 5 := by
  simp [properAttrs, and_assoc]

/-- An undefined pair is refused. -/
theorem tlbLookup_refused (h : properAttrs v = false) : tlbLookup v w = .error (.refuse .tlbAttributes) w :=
  (bind_of_ok (v := w) rfl _).trans (bind_of_error (need_refuses h _ w) _)

/-- The entries that a lookup matches. -/
def State.tlbMatches (s : State) (v : BitVec 32) : List TlbEntry :=
  s.tlb.filter fun o => o.page == pageOf v && o.v == bit v 11 && o.d == bit v 10 && o.u == bit v 8 && o.w == bit v 6

/-- What a lookup reports in TR7 of the matching entries that are there. -/
def reportMatches : List TlbEntry → M Unit
  | [] => draw >>= fun u => upd fun s => { s with tr7 := u &&& 0xFFFFF00C#32 }
  | [e] => foundBlock e >>= fun rep =>
      upd fun s => { s with tr7 := (e.frame ++ 0#12) ||| 0x10#32 ||| (rep.setWidth 32 <<< 2) }
  | _ :: _ :: _ => refuse .tlbDuplicate

/-- A lookup with V = 1 asks which of the matching entries are there. -/
theorem tlbLookup_valid (hproper : properAttrs v = true) (hv : bit v 11 = true) :
    tlbLookup v w = (presentEntries (w.s.tlbMatches v) >>= reportMatches) w := by
  have hfree : ¬ (!bit v 11 && !tlbFull w.s) = true := by simp [hv]
  exact (bind_of_ok (v := w) rfl _).trans <| (bind_of_ok (need_ok hproper _ w) _).trans (congrFun (if_neg hfree) w)

/-- One matching entry, written by the test registers. -/
theorem tlbLookup_hit (hproper : properAttrs v = true) (hv : bit v 11 = true) {o : TlbEntry}
    (hmatch : w.s.tlbMatches v = [o]) (hwritten : o.written = true) : tlbLookup v w =
      .ok () { w with s := { w.s with tr7 := (o.frame ++ 0#12) ||| 0x10#32 ||| (o.block.setWidth 32 <<< 2) } } := by
  have hpresent : presentEntries [o] w = .ok [o] w := by
    simp [presentEntries, hwritten]
  have hblock : foundBlock o w = .ok o.block w := by
    simp [foundBlock, hwritten]
  rw [tlbLookup_valid hproper hv, hmatch]
  exact (bind_of_ok hpresent _).trans (bind_of_ok hblock _)

/-- No matching entry: HT reads 0. -/
theorem tlbLookup_miss (hproper : properAttrs v = true) (hv : bit v 11 = true) (hmatch : w.s.tlbMatches v = []) :
    ∃ (x : BitVec 32) (e : Env), bit x 4 = false ∧ Drawn w.s.env e ∧
      tlbLookup v w = .ok () { w with s := { w.s with tr7 := x, env := e } } := by
  obtain ⟨u, e, hdraw, hdrawn⟩ := draw_ok w
  refine ⟨u &&& 0xFFFFF00C#32, e, ?_, hdrawn, ?_⟩
  · rw [bit, BitVec.getLsbD_and]
    exact Bool.and_false _
  · rw [tlbLookup_valid hproper hv, hmatch]
    exact (bind_of_ok (v := w) rfl _).trans (bind_of_ok hdraw _)

end Commands

/-! ### The instructions (40 R139, R141, R143) -/

/-- The state in which a write of `v` to TR6 performs its command. -/
def State.setTr6 (s : State) (v : BitVec 32) : State := { s with tr6 := v &&& 0xFFFFFFE1#32 }

/-- The command of a write to TR6. -/
def tlbCommand (v : BitVec 32) : M Unit := if bit v 0 then tlbLookup v else tlbWrite v

theorem tlbCommand_lookup {v : BitVec 32} (h : bit v 0 = true) : tlbCommand v = tlbLookup v := if_pos h

theorem tlbCommand_write {v : BitVec 32} (h : bit v 0 = false) : tlbCommand v = tlbWrite v :=
  if_neg (by rw [h]; exact Bool.false_ne_true)

theorem tlbCommand_testsTlb (v : BitVec 32) : Within TestsTlb (tlbCommand v) := by
  unfold tlbCommand
  split
  · exact tlbLookup_testsTlb v
  · exact tlbWrite_testsTlb v

/-- MOV to DRn. -/
def movDr (n : BitVec 3) (r : Reg) : M Unit :=
  privileged >>= fun _ => generalDetect >>= fun _ => need (n != 4 && n != 5) .debugRegister >>= fun _ =>
    upd (fun s => writeDr n (s.reg r) s) >>= fun _ => freeStatus

theorem exec_movDrR (n : BitVec 3) (r : Reg) (s : State) : exec (.movDrR n r) s = run (movDr n r) s := rfl

/-- MOV to TR6. -/
def movTr6 (r : Reg) : M Unit :=
  privileged >>= fun _ => need true .testRegister >>= fun _ => st >>= fun s => upd (fun s' => s'.setTr6 (s.reg r)) >>= fun _ =>
    if bit (s.reg r) 0 then tlbLookup (s.reg r) >>= fun _ => freeStatus else tlbWrite (s.reg r) >>= fun _ => freeStatus

theorem exec_movTr6 (r : Reg) (s : State) : exec (.movTrR 6 r) s = run (movTr6 r) s := rfl

section Instructions

variable {s : State} {r : Reg}

theorem exec_hlt (ready : Ready s) (hcpl : s.effCpl = 0) : exec .hlt s = .next (s.completed { s with halted := true }) :=
  run_completes ready (bind_of_ok (privileged_ok hcpl) _)

/-- A write of a debug register changes debug registers alone. -/
theorem writeDr_same (n : BitVec 3) (v : BitVec 32) (s : State) : ∃ d0 d1 d2 d3 d6 d7,
    writeDr n v s = { s with dr0 := d0, dr1 := d1, dr2 := d2, dr3 := d3, dr6 := d6, dr7 := d7 } := by
  unfold writeDr
  split_ifs <;> exact ⟨_, _, _, _, _, _, rfl⟩

theorem exec_movDrR_completes {n : BitVec 3} (ready : Ready s) (hcpl : s.effCpl = 0) (hice : s.env.ice = false)
    (hn : n ≠ 4 ∧ n ≠ 5) : ∃ f e, Drawn s.env e ∧ exec (.movDrR n r) s = .next
      (s.completed { writeDr n (s.reg r) s with flags := s.flags.withStatus f, env := e }) := by
  have hexists : (n != 4 && n != 5) = true := by simpa using hn
  obtain ⟨d0, d1, d2, d3, d6, d7, hsame⟩ := writeDr_same n (s.reg r) s
  have hbody : movDr n r s.work = freeStatus { s.work with s := writeDr n (s.reg r) s } :=
    (bind_of_ok (privileged_ok hcpl) _).trans <| (bind_of_ok (generalDetect_off hice) _).trans <|
      bind_of_ok (need_ok hexists _ s.work) _
  obtain ⟨f, e, hdrawn, hrun⟩ := run_frees ready hbody (by rw [hsame]) (by rw [hsame])
  refine ⟨f, e, by rwa [hsame] at hdrawn, (exec_movDrR n r s).trans (hrun.trans ?_)⟩
  rw [hsame]

theorem exec_movTr7_completes (ready : Ready s) (hcpl : s.effCpl = 0) :
    ∃ f e, Drawn s.env e ∧ exec (.movTrR 7 r) s = .next
      (s.completed { s with tr7 := s.reg r &&& 0xFFFFF01C#32, flags := s.flags.withStatus f, env := e }) :=
  run_frees (u := { s with tr7 := s.reg r &&& 0xFFFFF01C#32 }) ready (bind_of_ok (privileged_ok hcpl) _)

theorem movTr6_work (hcpl : s.effCpl = 0) (r : Reg) :
    movTr6 r s.work = (tlbCommand (s.reg r) >>= fun _ => freeStatus) (s.setTr6 (s.reg r)).work := by
  refine (bind_of_ok (privileged_ok hcpl) _).trans ?_
  unfold tlbCommand
  change (if bit (s.reg r) 0 then tlbLookup (s.reg r) >>= fun _ => freeStatus
    else tlbWrite (s.reg r) >>= fun _ => freeStatus : M Unit) (s.setTr6 (s.reg r)).work = _
  split <;> rfl

theorem exec_movTr6_refused {ref : Refusal} {w : Work} (ready : Ready s) (hcpl : s.effCpl = 0)
    (hcommand : tlbCommand (s.reg r) (s.setTr6 (s.reg r)).work = .error (.refuse ref) w) :
    exec (.movTrR 6 r) s = .refused ref :=
  run_refused ready ((movTr6_work hcpl r).trans (bind_of_error hcommand _))

theorem exec_movTr6_completes {u : State} (ready : Ready s) (hcpl : s.effCpl = 0)
    (hcommand : tlbCommand (s.reg r) (s.setTr6 (s.reg r)).work = .ok () { s.work with s := u })
    (heip : u.eip = s.eip := by rfl) (hinsn : u.insn = s.insn := by rfl) :
    ∃ f e, Drawn u.env e ∧
      exec (.movTrR 6 r) s = .next (s.completed { u with flags := u.flags.withStatus f, env := e }) :=
  run_frees ready ((movTr6_work hcpl r).trans (bind_of_ok hcommand _)) heip hinsn

/-- Whatever the command leaves, it is completed. -/
theorem exec_movTr6_ends {w : Work} (ready : Ready s) (hcpl : s.effCpl = 0)
    (hcommand : tlbCommand (s.reg r) (s.setTr6 (s.reg r)).work = .ok () w) :
    ∃ f e, Drawn w.s.env e ∧
      exec (.movTrR 6 r) s = .next (s.completed { w.s with flags := s.flags.withStatus f, env := e }) := by
  have htests : w = _ := (tlbCommand_testsTlb (s.reg r)).ok hcommand
  have hflags : w.s.flags = s.flags := by rw [htests]; rfl
  have hsame : w = { s.work with s := w.s } := by rw [htests]; rfl
  obtain ⟨f, e, hdrawn, hrun⟩ := exec_movTr6_completes (u := w.s) ready hcpl (hcommand.trans (congrArg _ hsame))
    (by rw [htests]; rfl) (by rw [htests]; rfl)
  rw [hflags] at hrun
  exact ⟨f, e, hdrawn, hrun⟩

end Instructions

/-- Settles O49: a register takes its bits; a write of TR6 ends as its command does, whose outcomes are those of `tlbWrite` and
`tlbLookup`. -/
theorem debugTestHalt : Obligations.DebugTestHalt := by
  intro s ready hcpl
  refine ⟨exec_hlt ready hcpl, ?_⟩
  intro r v writes
  refine ⟨fun hice => ?debug, fun hice => ⟨movDrR_detectsIce r 7 ready hcpl hice, movRDr_detectsIce r 7 ready hcpl hice⟩,
    exec_movTr7_completes ready hcpl, ?tr6⟩
  case debug =>
    have hwrites (n : BitVec 3) (hn : n ≠ 4 ∧ n ≠ 5) : writes (.movDrR n r) (writeDr n v s) :=
      exec_movDrR_completes ready hcpl hice hn
    exact ⟨hwrites 0 (by decide), hwrites 1 (by decide), hwrites 2 (by decide), hwrites 3 (by decide), hwrites 6 (by decide),
      hwrites 7 (by decide)⟩
  case tr6 =>
    intro s6
    refine ⟨fun w hcommand => ?command, fun hwrite hht => ?noHit, ?rest⟩
    case command =>
      obtain ⟨f, e, hdrawn, hrun⟩ := exec_movTr6_ends (w := w) ready hcpl hcommand
      exact ⟨f, e, _, hdrawn, hrun, rfl⟩
    case noHit =>
      exact exec_movTr6_refused ready hcpl ((congrFun (tlbCommand_write hwrite) _).trans (tlbWrite_refused hht))
    case rest =>
      intro proper block
      refine ⟨fun hwrite hht hplace => ?write, fun hpairs hlookup => ?undefined, ?lookup⟩
      case write =>
        obtain ⟨d, u, wr, t, l, g, env, hdrawn, hd, hu, hw, hok, hmem, honly, htag⟩ :=
          tlbWrite_ok (v := v) (w := s6.work) hht hplace
        obtain ⟨f, e, hdrawn', hrun⟩ := exec_movTr6_completes (r := r) ready hcpl
          ((congrFun (tlbCommand_write hwrite) _).trans hok)
        exact ⟨d, u, wr, t, l, g, hd, hu, hw, ⟨f, e, hdrawn.trans hdrawn', hrun⟩, hmem, honly, htag⟩
      case undefined =>
        have hproper : properAttrs v = false := by
          rw [← Bool.not_eq_true, properAttrs_iff]
          exact hpairs
        exact exec_movTr6_refused ready hcpl ((congrFun (tlbCommand_lookup hlookup) _).trans (tlbLookup_refused hproper))
      case lookup =>
        intro matching hlookup hv hpairs
        have hproper : properAttrs v = true := properAttrs_iff.2 hpairs
        refine ⟨fun o hmatch hwritten => ?_, fun hmatch => ?_⟩
        · exact exec_movTr6_completes ready hcpl
            ((congrFun (tlbCommand_lookup hlookup) _).trans (tlbLookup_hit hproper hv hmatch hwritten))
        · obtain ⟨x, env, hx, hdrawn, hok⟩ := tlbLookup_miss (w := s6.work) hproper hv hmatch
          obtain ⟨f, e, hdrawn', hrun⟩ := exec_movTr6_completes (r := r) ready hcpl
            ((congrFun (tlbCommand_lookup hlookup) _).trans hok)
          exact ⟨x, hx, f, e, hdrawn.trans hdrawn', hrun⟩

end Sys2Proof.Machine
end


section
/-! The obligation about LAR, LSL, VERR, VERW and ARPL (O51): what the test of a descriptor leaves, what each instruction makes
of its outcome, and the write of ARPL. -/

namespace Sys2Proof.Machine

open Sys2Proof

-- One theorem after another, so that no more of them wait for each other than the memory limit has threads for.
set_option Elab.async false

/-! ### What an access leaves of sizes and privilege -/

theorem Accesses.os {s t : State} (h : Accesses s t) : t.os = s.os := by
  rw [h.same]
  rfl

theorem Accesses.effCpl {s t : State} (h : Accesses s t) (hpe : s.cr0.pe = true) : t.effCpl = s.cpl := by
  rw [effCpl_protected (by rwa [h.cr0]), h.cpl]

/-- General registers, flags and the world may be replaced after an access. -/
theorem Accesses.keepsSystem_of {s t u : State} (h : Accesses s t)
    (hu : u = { t with gpr := u.gpr, flags := u.flags, env := u.env }) : KeepsSystem s u := by
  have hsame := h.same
  rw [hsame] at hu
  rw [hu]
  rfl

/-! ### The test of a descriptor (41 R144, R145) -/

/-- An access after which, of bytes of memory, at most accessed and dirty bits of page tables and accessed bits of descriptors
have changed. -/
structure TestsW (w v : Work) : Prop where
  acc : AccessesW w v
  tables : TablesOnly w.s v.s

theorem tests_rel : StepRel TestsW where
  refl w := ⟨accesses_rel.refl w, fun _ _ => rfl⟩
  trans _ _ _ h1 h2 := ⟨accesses_rel.trans _ _ _ h1.acc h2.acc,
    fun hm a => (h2.tables (h1.acc.state.wf hm) a).trans (h1.tables hm a)⟩

theorem ReadsW.tests {w v : Work} (h : ReadsW w v) : TestsW w v := by
  refine ⟨h.acc, fun hm a => ?_⟩
  have hread := ((h.frame hm) a List.not_mem_nil).1
  calc v.s.byteAt a ||| 0x61#8 = v.s.byteAt a ||| 0x60#8 ||| 1#8 := by rw [BitVec.or_assoc]; rfl
    _ = w.s.byteAt a ||| 0x61#8 := by rw [hread, BitVec.or_assoc]; rfl

theorem setAccessBits_tests (sel : BitVec 16) : Within TestsW (setAccessBits sel 1) :=
  fun w => ⟨setAccessBits_accesses sel 1 w, setAccessBits_bytes sel 1 w⟩

theorem within_ite {α : Type} {R : Work → Work → Prop} {c : Prop} [Decidable c] {x y : M α} (hx : Within R x)
    (hy : Within R y) : Within R (if c then x else y) := by
  split
  · exact hx
  · exact hy

theorem testedDesc_tests (sel : BitVec 16) : Within TestsW (testedDesc sel) := by
  have hpure (o : Option Desc) : Within TestsW (pure o : M (Option Desc)) := within_pure tests_rel o
  refine within_ite (hpure none) (within_bind tests_rel (fun w => (readDescriptor_reads sel w).tests) fun o => ?_)
  cases o with
  | none => exact hpure none
  | some d =>
    have haccessed : Within TestsW (setAccessBits sel 1 >>= fun _ => pure (some d)) :=
      within_bind tests_rel (setAccessBits_tests sel) fun _ => hpure (some d)
    exact within_ite (within_bind tests_rel (fun w => (drawBit_reads w).tests) fun _ => within_ite haccessed (hpure (some d)))
      (hpure (some d))

/-! ### Privilege and type (41 R146-R149) -/

theorem toNat_maxPl (a b : BitVec 2) : (maxPl a b).toNat = max a.toNat b.toNat := by
  by_cases h : a.toNat < b.toNat
  · rw [maxPl, if_pos (by simpa [BitVec.ult] using h), max_eq_right h.le]
  · rw [maxPl, if_neg (by simpa [BitVec.ult] using h), max_eq_left (Nat.le_of_not_lt h)]

theorem privOk_iff {dpl cpl rpl : BitVec 2} :
    privOk dpl cpl rpl = true ↔ cpl.toNat ≤ dpl.toNat ∧ rpl.toNat ≤ dpl.toNat := by
  rw [privOk, BitVec.ule, decide_eq_true_iff, toNat_maxPl, max_le_iff]

/-- LAR and LSL may use the descriptor; `accepts` tells the system types. -/
def loadable (accepts : BitVec 4 → Bool) (s : State) (sel : BitVec 16) (d : Desc) : Bool :=
  (d.s || accepts d.typ) && visible s sel d

/-- VERR may use the descriptor. -/
def verrUsable (s : State) (sel : BitVec 16) (d : Desc) : Bool := d.s && (!d.exec || d.wr) && visible s sel d

/-- VERW may use the descriptor. -/
def verwUsable (s : State) (sel : BitVec 16) (d : Desc) : Bool := d.isWritableData && privOk d.dpl s.effCpl (selRpl sel)

section Usable

variable {s t : State} {sel : BitVec 16} {d : Desc}

theorem Accesses.privOk_iff (h : Accesses s t) (hpe : s.cr0.pe = true) {dpl rpl : BitVec 2} :
    privOk dpl t.effCpl rpl = true ↔ s.cpl.toNat ≤ dpl.toNat ∧ rpl.toNat ≤ dpl.toNat := by
  rw [h.effCpl hpe, Machine.privOk_iff]

theorem Accesses.visible_iff (h : Accesses s t) (hpe : s.cr0.pe = true) : visible t sel d = true ↔
    d.isConforming = true ∨ (s.cpl.toNat ≤ d.dpl.toNat ∧ (selRpl sel).toNat ≤ d.dpl.toNat) := by
  rw [visible, Bool.or_eq_true, h.privOk_iff hpe]

theorem Accesses.loadable_iff (h : Accesses s t) (hpe : s.cr0.pe = true) (accepts : BitVec 4 → Bool) :
    loadable accepts t sel d = true ↔ (d.s = true ∨ accepts d.typ = true) ∧
      (d.isConforming = true ∨ (s.cpl.toNat ≤ d.dpl.toNat ∧ (selRpl sel).toNat ≤ d.dpl.toNat)) := by
  rw [loadable, Bool.and_eq_true, Bool.or_eq_true, h.visible_iff hpe]

theorem Accesses.verrUsable_iff (h : Accesses s t) (hpe : s.cr0.pe = true) : verrUsable t sel d = true ↔
    d.s = true ∧ (d.exec = true → d.wr = true) ∧
      (d.isConforming = true ∨ (s.cpl.toNat ≤ d.dpl.toNat ∧ (selRpl sel).toNat ≤ d.dpl.toNat)) := by
  have hreadable : (!d.exec || d.wr) = true ↔ (d.exec = true → d.wr = true) := by cases d.exec <;> simp
  rw [verrUsable, Bool.and_eq_true, Bool.and_eq_true, hreadable, h.visible_iff hpe, and_assoc]

theorem Accesses.verwUsable_iff (h : Accesses s t) (hpe : s.cr0.pe = true) : verwUsable t sel d = true ↔
    d.isWritableData = true ∧ s.cpl.toNat ≤ d.dpl.toNat ∧ (selRpl sel).toNat ≤ d.dpl.toNat := by
  rw [verwUsable, Bool.and_eq_true, h.privOk_iff hpe]

end Usable

/-! ### The meanings -/

/-- An instruction of protected mode that tests the descriptor of its selector operand. -/
def testBody (x : M (BitVec 16)) (f : State → BitVec 16 → Option Desc → M Unit) : M Unit :=
  protectedOnly >>= fun _ => x >>= fun sel => testedDesc sel >>= fun o => st >>= fun s => f s sel o

/-- LAR and LSL: `load` is what they do with a descriptor that may be used, its end with ZF set included. -/
def loadUsable (usable : Desc → Bool) (load : Desc → M Unit) : Option Desc → M Unit
  | none => setZf false
  | some d => if usable d then load d else setZf false

/-- VERR and VERW: ZF tells whether the descriptor may be used. -/
def reportUsable (usable : Desc → Bool) : Option Desc → M Unit
  | none => setZf false
  | some d => setZf (usable d)

/-- The access rights that LAR loads; the bits of the limit among them are free. -/
def larLoad (r : Reg) (d : Desc) : M Unit :=
  draw >>= fun u => upd (fun s => s.setRegv s.os r ((d.hi &&& 0xF0FF00#32) ||| (u &&& 0xF0000#32))) >>= fun _ => setZf true

/-- The limit that LSL loads. -/
def lslLoad (r : Reg) (d : Desc) : M Unit := upd (fun s => s.setRegv s.os r d.effLimit) >>= fun _ => setZf true

theorem exec_lar (r : Reg) (rm : RM Reg) (s : State) : exec (.lar r rm) s =
    run (testBody (testedSel rm) fun s sel => loadUsable (loadable larType s sel) (larLoad r)) s := rfl

theorem exec_lsl (r : Reg) (rm : RM Reg) (s : State) : exec (.lsl r rm) s =
    run (testBody (testedSel rm) fun s sel => loadUsable (loadable lslType s sel) (lslLoad r)) s := rfl

theorem exec_verr (rm : RM Reg) (s : State) : exec (.verr rm) s =
    run (testBody (read16 rm) fun s sel => reportUsable (verrUsable s sel)) s := rfl

theorem exec_verw (rm : RM Reg) (s : State) : exec (.verw rm) s =
    run (testBody (read16 rm) fun s sel => reportUsable (verwUsable s sel)) s := rfl

theorem loadUsable_not {usable : Desc → Bool} {o : Option Desc} (h : ¬ ∃ d, o = some d ∧ usable d = true)
    (load : Desc → M Unit) : loadUsable usable load o = setZf false := by
  cases o with
  | none => rfl
  | some d => exact if_neg fun hd => h ⟨d, rfl, hd⟩

theorem loadUsable_of {usable : Desc → Bool} {d : Desc} (h : usable d = true) (load : Desc → M Unit) :
    loadUsable usable load (some d) = load d := if_pos h

theorem reportUsable_eq (usable : Desc → Bool) (o : Option Desc) : reportUsable usable o = setZf (o.any usable) := by
  cases o <;> rfl

theorem setZf_ok {f : Flags} {w : Work} (hflags : w.s.flags = f) (z : Bool) :
    setZf z w = .ok () { w with s := { w.s with flags := { f with zf := z } } } := by
  rw [← hflags]
  rfl

/-- An instruction that accesses memory, changes general registers and sets ZF. -/
theorem run_setsZf {s u : State} {v : Work} {body : M Unit} {z : Bool} (ready : Ready s) (hacc : AccessesW s.work v)
    (hbody : body s.work = .ok () { v with s := { u with flags := { s.flags with zf := z } } })
    (hu : u = { v.s with gpr := u.gpr, env := u.env }) :
    ∃ t, run body s = .next t ∧ Ends s { u with flags := { s.flags with zf := z } } t ∧ KeepsSystem s t := by
  obtain ⟨t, hrun, hends⟩ := run_ends ready hacc hbody (by rw [hu]) (by rw [hu])
  refine ⟨t, hrun, hends, hends.keepsSystem (hacc.state.keepsSystem_of ?_)⟩
  rw [hu]

section Tested

variable {s u : State} {x : M (BitVec 16)} {f : State → BitVec 16 → Option Desc → M Unit} {sel : BitVec 16}
  {o : Option Desc} {w1 w : Work} {z : Bool} {i : Instr}

theorem testBody_tests (hx : Within ReadsW x) (hsel : x s.work = .ok sel w1) (hdesc : testedDesc sel w1 = .ok o w) :
    TestsW s.work w := tests_rel.trans _ _ _ (hx.ok hsel).tests ((testedDesc_tests sel).ok hdesc)

theorem testBody_work (hpe : s.cr0.pe = true) (hsel : x s.work = .ok sel w1) (hdesc : testedDesc sel w1 = .ok o w) :
    testBody x f s.work = f w.s sel o w :=
  (bind_of_ok (protectedOnly_ok hpe) _).trans ((bind_of_ok hsel _).trans (bind_of_ok hdesc _))

/-- The end of an instruction that tests a descriptor. -/
theorem exec_testBody (hexec : exec i s = run (testBody x f) s) (ready : Ready s) (hpe : s.cr0.pe = true)
    (hx : Within ReadsW x) (hsel : x s.work = .ok sel w1) (hdesc : testedDesc sel w1 = .ok o w)
    (hend : f w.s sel o w = .ok () { w with s := { u with flags := { s.flags with zf := z } } })
    (hu : u = { w.s with gpr := u.gpr, env := u.env }) :
    ∃ t, exec i s = .next t ∧ Ends s { u with flags := { s.flags with zf := z } } t ∧ KeepsSystem s t ∧ TablesOnly s t := by
  have htests := testBody_tests hx hsel hdesc
  obtain ⟨t, hrun, hends, hkeeps⟩ := run_setsZf ready htests.acc ((testBody_work hpe hsel hdesc).trans hend) hu
  have hmem : t.mem = w.s.mem := hends.mem.trans (by rw [hu])
  refine ⟨t, hexec.trans hrun, hends, hkeeps, fun hm a => ?_⟩
  rw [State.byteAt, hmem]
  exact htests.tables hm a

variable {rm : RM Reg} {usable : State → BitVec 16 → Desc → Bool} {load : Desc → M Unit}

/-- VERR and VERW end with what they report. -/
theorem exec_reportUsable (hexec : exec i s = run (testBody (read16 rm) fun s sel => reportUsable (usable s sel)) s)
    (ready : Ready s) (hpe : s.cr0.pe = true) (hsel : read16 rm s.work = .ok sel w1)
    (hdesc : testedDesc sel w1 = .ok o w) :
    ∃ t, exec i s = .next t ∧ Ends s { w.s with flags := { s.flags with zf := o.any (usable w.s sel) } } t ∧
      t.gpr = s.gpr ∧ KeepsSystem s t ∧ TablesOnly s t := by
  have hacc := (testBody_tests (read16_reads rm) hsel hdesc).acc.state
  have hend := (congrFun (reportUsable_eq (usable w.s sel) o) w).trans (setZf_ok hacc.flags _)
  obtain ⟨t, hrun, hends, hkeeps, htables⟩ := exec_testBody hexec ready hpe (read16_reads rm) hsel hdesc hend rfl
  exact ⟨t, hrun, hends, hends.gpr.trans hacc.gpr, hkeeps, htables⟩

/-- LAR and LSL with a descriptor that may not be used. -/
theorem exec_loadUsable_not
    (hexec : exec i s = run (testBody (testedSel rm) fun s sel => loadUsable (usable s sel) load) s)
    (ready : Ready s) (hpe : s.cr0.pe = true) (hsel : testedSel rm s.work = .ok sel w1)
    (hdesc : testedDesc sel w1 = .ok o w) (h : ¬ ∃ d, o = some d ∧ usable w.s sel d = true) :
    ∃ t, exec i s = .next t ∧ Ends s { w.s with flags := { s.flags with zf := false } } t ∧ KeepsSystem s t ∧
      TablesOnly s t := by
  have hacc := (testBody_tests (testedSel_reads rm) hsel hdesc).acc.state
  have hend := (congrFun (loadUsable_not h load) w).trans (setZf_ok hacc.flags false)
  exact exec_testBody hexec ready hpe (testedSel_reads rm) hsel hdesc hend rfl

/-- LAR and LSL with a descriptor that may be used. -/
theorem exec_loadUsable_of {d : Desc}
    (hexec : exec i s = run (testBody (testedSel rm) fun s sel => loadUsable (usable s sel) load) s)
    (ready : Ready s) (hpe : s.cr0.pe = true) (hsel : testedSel rm s.work = .ok sel w1)
    (hdesc : testedDesc sel w1 = .ok (some d) w) (h : usable w.s sel d = true)
    (hload : load d w = .ok () { w with s := { u with flags := { s.flags with zf := true } } })
    (hu : u = { w.s with gpr := u.gpr, env := u.env }) :
    ∃ t, exec i s = .next t ∧ Ends s { u with flags := { s.flags with zf := true } } t ∧ KeepsSystem s t ∧
      TablesOnly s t :=
  exec_testBody hexec ready hpe (testedSel_reads rm) hsel hdesc ((congrFun (loadUsable_of h load) w).trans hload) hu

theorem lslLoad_ok (hacc : Accesses s w.s) (r : Reg) (d : Desc) : lslLoad r d w =
    .ok () { w with s := { w.s.setRegv s.os r d.effLimit with flags := { s.flags with zf := true } } } := by
  rw [← hacc.os]
  exact (bind_of_ok (run_upd _ w) _).trans (setZf_ok (by exact hacc.flags) true)

theorem larLoad_ok (hacc : Accesses s w.s) (r : Reg) (d : Desc) : ∃ u e, Drawn w.s.env e ∧ larLoad r d w =
    .ok () { w with s := { ({ w.s with env := e } : State).setRegv s.os r ((d.hi &&& 0xF0FF00#32) ||| (u &&& 0xF0000#32)) with
      flags := { s.flags with zf := true } } } := by
  obtain ⟨u, e, hdraw, hdrawn⟩ := draw_ok w
  refine ⟨u, e, hdrawn, (bind_of_ok hdraw _).trans ?_⟩
  rw [← hacc.os]
  exact (bind_of_ok (run_upd _ (w.inWorld e)) _).trans (setZf_ok (by exact hacc.flags) true)

end Tested

/-! ### ARPL (41 R150) -/

/-- What a write of an operand that goes through leaves. -/
theorem Place.write_eq_ok {p : Place} {v : BitVec 32} {w w' : Work} (h : p.write v w = .ok () w') :
    AccessesW w { w' with s := { w'.s with gpr := w.s.gpr } } ∧ w'.s.gpr = (p.set w.s v).gpr := by
  cases p with
  | reg8 r | reg z r =>
    cases h
    exact ⟨accesses_rel.refl w, rfl⟩
  | mem g off z =>
    have hacc := (memWrite_accesses _ _ _ _).ok h
    have hgpr := hacc.state.gpr
    rw [← hgpr]
    exact ⟨hacc, hgpr⟩

/-- A register operand is replaced in the same way after an access. -/
theorem Accesses.gpr_set {s t : State} (h : Accesses s t) (p : Place) (v : BitVec 32) :
    (p.set t v).gpr = (p.set s v).gpr := by
  rw [h.same]
  cases p <;> rfl

section Arpl

variable {s : State} {rm : RM Reg} {r : Reg} {dst : BitVec 16} {w v : Work}

/-- What ARPL makes of the selector that it has read. -/
def arplSelector (p : Place) (dst : BitVec 16) (rpl : BitVec 2) : M Unit :=
  if (selRpl dst).ult rpl then p.write ((withRpl dst rpl).setWidth 32) >>= fun _ => setZf true else setZf false

def arplBody (rm : RM Reg) (r : Reg) : M Unit :=
  protectedOnly >>= fun _ => st >>= fun s => read16 rm >>= fun dst =>
    arplSelector (placev s .w16 rm) dst (selRpl (lo16 (s.reg r)))

theorem exec_arpl (rm : RM Reg) (r : Reg) (s : State) : exec (.arpl rm r) s = run (arplBody rm r) s := rfl

theorem arplBody_work (hpe : s.cr0.pe = true) (hread : read16 rm s.work = .ok dst w) :
    arplBody rm r s.work = arplSelector (placev s .w16 rm) dst (selRpl (lo16 (s.reg r))) w :=
  (bind_of_ok (protectedOnly_ok hpe) _).trans (bind_of_ok hread _)

theorem exec_arpl_keeps (ready : Ready s) (hpe : s.cr0.pe = true) (hread : read16 rm s.work = .ok dst w)
    (h : (selRpl (lo16 (s.reg r))).toNat ≤ (selRpl dst).toNat) :
    ∃ t, exec (.arpl rm r) s = .next t ∧ t.gpr = s.gpr ∧ Ends s { w.s with flags := { s.flags with zf := false } } t ∧
      KeepsSystem s t ∧ (Memory.wf s.mem = true → FrameExcept s t []) := by
  have hreads := (read16_reads rm).ok hread
  have hge : ¬ (selRpl dst).ult (selRpl (lo16 (s.reg r))) = true := by simpa [BitVec.ult] using h
  have hbody := (arplBody_work hpe hread).trans
    ((congrFun (if_neg hge) w).trans (setZf_ok hreads.acc.state.flags false))
  rw [exec_arpl]
  obtain ⟨t, hrun, hends, hkeeps⟩ := run_setsZf ready hreads.acc hbody rfl
  exact ⟨t, hrun, hends.gpr.trans hreads.acc.state.gpr, hends, hkeeps, fun hm => (hreads.frame hm).of_mem_eq hends.mem⟩

theorem exec_arpl_raises_rpl (ready : Ready s) (hpe : s.cr0.pe = true) (hread : read16 rm s.work = .ok dst w)
    (h : (selRpl dst).toNat < (selRpl (lo16 (s.reg r))).toNat)
    (hwrite : (placev s .w16 rm).write ((withRpl dst (selRpl (lo16 (s.reg r)))).setWidth 32) w = .ok () v) :
    ∃ t, exec (.arpl rm r) s = .next t ∧ Ends s { v.s with flags := { s.flags with zf := true } } t ∧
      t.gpr = ((placev s .w16 rm).set s ((withRpl dst (selRpl (lo16 (s.reg r)))).setWidth 32)).gpr ∧ KeepsSystem s t ∧
      (Memory.wf s.mem = true → FrameExcept s t ((placev s .w16 rm).stores w)) := by
  have hreads := (read16_reads rm).ok hread
  have hlt : (selRpl dst).ult (selRpl (lo16 (s.reg r))) = true := by simpa [BitVec.ult] using h
  obtain ⟨hwritten, hgpr⟩ := Place.write_eq_ok hwrite
  have hacc := accesses_rel.trans _ _ _ hreads.acc hwritten
  have hbody := (arplBody_work hpe hread).trans
    ((congrFun (if_pos hlt) w).trans ((bind_of_ok hwrite _).trans (setZf_ok (w := v) hacc.state.flags true)))
  rw [exec_arpl]
  obtain ⟨t, hrun, hends, hkeeps⟩ := run_setsZf (u := v.s) ready hacc hbody rfl
  refine ⟨t, hrun, hends, hends.gpr.trans (hgpr.trans (hreads.acc.state.gpr_set _ _)), hkeeps, fun hm => ?_⟩
  have hframe := Place.write_frame hwrite (hreads.acc.state.wf hm)
  exact ((hreads.frame hm).weaken.trans hframe hreads.acc.state.cr0).of_mem_eq hends.mem

end Arpl

/-- Settles O51: LAR and LSL load from a descriptor that may be used (`exec_loadUsable_of`), VERR and VERW report whether it may
(`exec_reportUsable`), ARPL compares and writes. -/
theorem pointerValidation : Obligations.PointerValidation := by
  refine ⟨fun s r rm sel o w1 w ready hpe hsel hdesc => ?load, fun s rm sel o w1 w ready hpe hsel hdesc => ?report,
    fun s rm r dst w ready hpe hread => ⟨exec_arpl_keeps ready hpe hread,
      fun h _ hwrite => exec_arpl_raises_rpl ready hpe hread h hwrite⟩⟩
  case load =>
    have hacc : Accesses s w.s := (testBody_tests (testedSel_reads rm) hsel hdesc).acc.state
    intro seen lsl lar answers
    have hload (accepts : BitVec 4 → Bool) (d : Desc) :
        loadable accepts w.s sel d = true ↔ (d.s = true ∨ accepts d.typ = true) ∧ seen d := hacc.loadable_iff hpe accepts
    refine ⟨hacc.gpr, fun h => ?lslNot, fun h d hd => ?lsl, fun h => ?larNot, fun h d hd => ?lar⟩
    case lslNot =>
      exact exec_loadUsable_not (exec_lsl r rm s) ready hpe hsel hdesc fun ⟨d, hd, husable⟩ =>
        h ⟨d, hd, (hload lslType d).1 husable⟩
    case lsl =>
      obtain ⟨_, rfl, husable⟩ := h
      cases hd
      exact exec_loadUsable_of (exec_lsl r rm s) ready hpe hsel hdesc ((hload lslType d).2 husable) (lslLoad_ok hacc r d) rfl
    case larNot =>
      exact exec_loadUsable_not (exec_lar r rm s) ready hpe hsel hdesc fun ⟨d, hd, husable⟩ =>
        h ⟨d, hd, (hload larType d).1 husable⟩
    case lar =>
      obtain ⟨_, rfl, husable⟩ := h
      cases hd
      obtain ⟨u, e, hdrawn, hok⟩ := larLoad_ok hacc r d
      exact ⟨u, e, hdrawn,
        exec_loadUsable_of (exec_lar r rm s) ready hpe hsel hdesc ((hload larType d).2 husable) hok rfl⟩
  case report =>
    have hacc : Accesses s w.s := (testBody_tests (read16_reads rm) hsel hdesc).acc.state
    refine ⟨⟨_, exec_reportUsable (exec_verr rm s) ready hpe hsel hdesc, ?_⟩,
      _, exec_reportUsable (exec_verw rm s) ready hpe hsel hdesc, ?_⟩
    · simp only [Option.any_eq_true, hacc.verrUsable_iff hpe]
    · simp only [Option.any_eq_true, hacc.verwUsable_iff hpe]

end Sys2Proof.Machine
end


section
/-! The obligations about the loads of segment registers (O42, O43): what `loadSeg` makes of a selector and of the descriptor that
it names, what such a load leaves, and the instructions that end with one. -/

namespace Sys2Proof.Machine

open Sys2Proof

-- One theorem after another, so that no more of them wait for each other than the memory limit has threads for.
set_option Elab.async false

/-! ### The descriptor (42 R152, R153; 20 R77) -/

/-- SS takes the descriptor: a writable data segment of the current level, its selector of that level too (42 R153). -/
def stackUsable (s : State) (sel : BitVec 16) (d : Desc) : Bool :=
  selRpl sel == s.effCpl && d.isWritableData && d.dpl == s.effCpl

/-- What a load makes of the descriptor that its selector names: `usable` tells whether the register takes it, `absent` which
exception one that is not present raises. -/
def loadNamed (usable : State → BitVec 16 → Desc → Bool) (absent : CodeExc) (r : SegReg) (sel : BitVec 16) (d : Desc) :
    M Unit :=
  st >>= fun s => checkSel (usable s sel d) .gp sel >>= fun _ => checkSel d.p absent sel >>= fun _ =>
    setAccessed sel d >>= fun _ => upd fun s => s.setSeg r (d.toSeg sel)

/-- Two tests in a row that raise the same exception are one. -/
theorem checkSel_and (a b : Bool) (k : CodeExc) (sel : BitVec 16) (f : Unit → M Unit) :
    (checkSel a k sel >>= fun _ => checkSel b k sel >>= f) = checkSel (a && b) k sel >>= f := by
  funext w
  simp only [M.run_bind, run_checkSel]
  cases a <;> rfl

section Descriptor

variable {usable : State → BitVec 16 → Desc → Bool} {absent : CodeExc} {r : SegReg} {sel : BitVec 16} {d : Desc}
  {s t : State} {u v w : Work}

theorem loadNamed_unusable (h : usable v.s sel d = false) :
    loadNamed usable absent r sel d v = .error (.exc (.gp (v.code sel))) v := by
  simp only [loadNamed, M.run_bind, run_st, run_checkSel, h]
  rfl

theorem loadNamed_absent (h : usable v.s sel d = true) (hp : d.p = false) :
    loadNamed usable absent r sel d v = .error (.exc (absent.mk (v.code sel))) v := by
  simp only [loadNamed, M.run_bind, run_st, run_checkSel, h, hp]
  rfl

theorem loadNamed_present (h : usable v.s sel d = true) (hp : d.p = true) : loadNamed usable absent r sel d v =
    (setAccessed sel d >>= fun _ => upd fun s => s.setSeg r (d.toSeg sel)) v := by
  simp only [loadNamed, M.run_bind, run_st, run_checkSel, h, hp, if_true]

theorem loadNamed_ok (h : usable v.s sel d = true) (hp : d.p = true) (hu : setAccessed sel d v = .ok () u) :
    loadNamed usable absent r sel d v = .ok () { u with s := u.s.setSeg r (d.toSeg sel) } :=
  (loadNamed_present h hp).trans (bind_eq_ok.2 ⟨(), u, hu, rfl⟩)

/-- A data segment register takes the descriptors that VERR does (41 R148). -/
theorem loadDataSeg_eq (h : isNull sel = false) (r : SegReg) :
    loadDataSeg r sel = (fetchDesc sel .gp >>= loadNamed verrUsable .np r sel) := by
  rw [loadDataSeg, h, if_neg Bool.false_ne_true]
  simp only [checkSel_and, ← Bool.and_assoc]
  rfl

theorem loadSs_eq (h : isNull sel = false) (w : Work) :
    loadSs sel w = (fetchDesc sel .gp >>= loadNamed stackUsable .ss .ss sel) w := by
  simp only [loadSs, h, M.run_bind (x := extBit), run_extBit, Bool.not_false, M.run_bind (x := check _ _), run_check_true]
  simp only [checkSel_and, ← Bool.and_assoc]
  rfl

theorem Accesses.stackUsable_iff (h : Accesses s t) (hpe : s.cr0.pe = true) :
    stackUsable t sel d = true ↔ selRpl sel = s.cpl ∧ d.isWritableData = true ∧ d.dpl = s.cpl := by
  rw [stackUsable, h.effCpl hpe, Bool.and_eq_true, Bool.and_eq_true, beq_iff_eq, beq_iff_eq, and_assoc]

/-- In plain memory the accessed bit is the one change (20 R77). -/
theorem setAccessed_ram (hram : AllRam w.s) (hm : Memory.wf w.s.mem = true) (sel : BitVec 16) (d : Desc) :
    ∃ u, setAccessed sel d w = .ok () u ∧
      ∀ a, u.s.byteAt a = if d.a = false ∧ a = accessByte w.s sel then w.s.byteAt a ||| 1#8 else w.s.byteAt a := by
  cases ha : d.a with
  | true => exact ⟨w, by rw [setAccessed, ha]; rfl, fun a => by simp⟩
  | false =>
    refine ⟨_, by rw [setAccessed, ha, if_neg Bool.false_ne_true, setAccessBits_ram hram], fun a => ?_⟩
    simp only [State.byteAt, State.storeBytes, Memory.read_write hm, BitVec.toNat_inj, true_and]
    by_cases h : a = accessByte w.s sel
    · rw [if_pos h, if_pos h, h]
      rfl
    · rw [if_neg h, if_neg h]

/-! ### What a load leaves -/

theorem setAccessed_tests (sel : BitVec 16) (d : Desc) : Within TestsW (setAccessed sel d) :=
  within_ite (within_pure tests_rel ()) (setAccessBits_tests sel)

/-- What loads of segment registers may change: what the test of a descriptor may, and the segment registers. -/
def LoadsW (w v : Work) : Prop := TestsW w { v with s := { v.s with segs := w.s.segs } }

theorem TestsW.loads_setSeg (h : TestsW w u) (r : SegReg) (g : Seg) : LoadsW w { u with s := u.s.setSeg r g } := by
  have hsegs := h.acc.state.segs
  change TestsW w { u with s := { u.s with segs := w.s.segs } }
  rw [← hsegs]
  exact h

theorem TestsW.trans_loads (h1 : TestsW w u) (h2 : LoadsW u v) : LoadsW w v := by
  unfold LoadsW at h2
  rw [h1.acc.state.segs] at h2
  exact tests_rel.trans _ _ _ h1 h2

theorem LoadsW.intShadow (h : LoadsW w v) : v.s.intShadow = w.s.intShadow := h.acc.state.intShadow

theorem LoadsW.gpr (h : LoadsW w v) : v.s.gpr = w.s.gpr := h.acc.state.gpr

theorem LoadsW.gpr_setRegv (h : LoadsW w v) (z : Size) (q : Reg) (x : BitVec 32) :
    (v.s.setRegv z q x).gpr = (w.s.setRegv z q x).gpr := h.acc.state.gpr_set (.reg z q) x

theorem loadNamed_loads (h : loadNamed usable absent r sel d v = .ok () w) : LoadsW v w := by
  cases husable : usable v.s sel d with
  | false => cases h.symm.trans (loadNamed_unusable husable)
  | true =>
    cases hp : d.p with
    | false => cases h.symm.trans (loadNamed_absent husable hp)
    | true =>
      obtain ⟨_, u, hu, hw⟩ := bind_eq_ok.1 ((loadNamed_present husable hp).symm.trans h)
      cases hw
      exact ((setAccessed_tests sel d).ok hu).loads_setSeg r _

end Descriptor

/-! ### The selector (42 R152-R154) -/

/-- With EXT = 0 an error code is the selector without its RPL (60 R295). -/
theorem Work.code_of_ext {w : Work} (h : w.ext = false) (sel : BitVec 16) : w.code sel = sel &&& 0xFFFC#16 := by
  rw [Work.code, Work.extCode, h]
  exact BitVec.or_zero

section Selector

variable {r : SegReg} {sel : BitVec 16} {w v : Work}

theorem loadSeg_real (h : w.s.cr0.pe = false) (r : SegReg) (sel : BitVec 16) :
    loadSeg r sel w = .ok () { w with s := w.s.setSeg r ((w.s.seg r).realLoaded sel) } := by
  simp only [loadSeg, M.run_bind, run_st, h]
  rfl

theorem loadSeg_ss (h : w.s.cr0.pe = true) (sel : BitVec 16) : loadSeg .ss sel w = loadSs sel w := by
  simp only [loadSeg, M.run_bind, run_st, h]
  rfl

theorem loadSeg_data (h : w.s.cr0.pe = true) (hr : r ≠ .ss) (sel : BitVec 16) : loadSeg r sel w = loadDataSeg r sel w := by
  simp only [loadSeg, M.run_bind, run_st, h, if_neg hr]
  rfl

theorem loadSs_null (h : isNull sel = true) (w : Work) : loadSs sel w = .error (.exc (.gp w.extCode)) w := by
  simp only [loadSs, M.run_bind, run_extBit, h]
  rfl

theorem loadDataSeg_null (h : isNull sel = true) (r : SegReg) (w : Work) :
    loadDataSeg r sel w = .ok () { w with s := w.s.setSeg r { w.s.seg r with selector := sel, valid := false } } := by
  rw [loadDataSeg, if_pos h, run_upd]

/-- A selector that is not null: what the load makes of its descriptor. -/
theorem loadSeg_named (hpe : w.s.cr0.pe = true) (hnull : isNull sel = false) (r : SegReg) :
    loadSeg r sel w = (fetchDesc sel .gp >>=
      if r = .ss then loadNamed stackUsable .ss r sel else loadNamed verrUsable .np r sel) w := by
  by_cases hr : r = .ss
  · subst hr
    rw [loadSeg_ss hpe, loadSs_eq hnull, if_pos rfl]
  · rw [loadSeg_data hpe hr, loadDataSeg_eq hnull, if_neg hr]

/-- A load that goes through has read its descriptor, set its accessed bit and replaced the segment register. -/
theorem loadSeg_loads (h : loadSeg r sel w = .ok () v) : LoadsW w v := by
  cases hpe : w.s.cr0.pe with
  | false =>
    cases h.symm.trans (loadSeg_real hpe r sel)
    exact (tests_rel.refl w).loads_setSeg r _
  | true =>
    cases hnull : isNull sel with
    | true =>
      by_cases hr : r = .ss
      · subst hr
        cases h.symm.trans ((loadSeg_ss hpe sel).trans (loadSs_null hnull w))
      · cases h.symm.trans ((loadSeg_data hpe hr sel).trans (loadDataSeg_null hnull r w))
        exact (tests_rel.refl w).loads_setSeg r _
    | false =>
      rw [loadSeg_named hpe hnull] at h
      obtain ⟨d, u, hd, hload⟩ := bind_eq_ok.1 h
      refine ((fetchDesc_reads sel .gp).ok hd).tests.trans_loads ?_
      split at hload
      · exact loadNamed_loads hload
      · exact loadNamed_loads hload

end Selector

/-- Settles O43: each kind of selector by its own lemma, and a descriptor by the lemmas about `loadNamed`; the accessed bit by
`setAccessed_ram`. -/
theorem loadSegEffect : Obligations.LoadSegEffect := by
  refine ⟨fun w r sel hext _ => ⟨fun hpe => loadSeg_real hpe r sel, fun hpe hnull => ⟨?nullSs, ?nullData⟩,
    fun hpe hnull hout => ?outside, fun d v hpe hnull hd => ?descriptor⟩, fun w sel d hram hm => ?accessed⟩
  case nullSs =>
    rintro rfl
    rw [loadSeg_ss hpe, loadSs_null hnull, Work.extCode, hext]
    rfl
  case nullData => exact fun hr => (loadSeg_data hpe hr sel).trans (loadDataSeg_null hnull r w)
  case outside =>
    rw [loadSeg_named hpe hnull, M.run_bind, fetchDesc_outside hout, Work.code_of_ext hext]
    rfl
  case descriptor =>
    have hacc : AccessesW w v := (fetchDesc_accesses sel .gp).ok hd
    have hcode : v.code sel = sel &&& 0xFFFC#16 := (hacc.code sel).trans (Work.code_of_ext hext sel)
    have hload : loadSeg r sel w =
        (if r = .ss then loadNamed stackUsable .ss r sel else loadNamed verrUsable .np r sel) d v := by
      rw [loadSeg_named hpe hnull, M.run_bind, hd]
    intro readable visible stack
    have hdata : verrUsable v.s sel d = true ↔ readable ∧ visible := (hacc.state.verrUsable_iff hpe).trans and_assoc.symm
    have hstack : stackUsable v.s sel d = true ↔ stack := hacc.state.stackUsable_iff hpe
    rw [hload, ← hcode, ← hdata, ← hstack]
    by_cases hr : r = .ss
    · rw [if_pos hr]
      exact ⟨fun h => absurd hr h, fun h => absurd hr h, fun _ h => loadNamed_unusable (Bool.eq_false_iff.2 h),
        fun _ h hp => loadNamed_absent h hp, fun h _ hp u hu => loadNamed_ok (h hr) hp hu⟩
    · rw [if_neg hr]
      exact ⟨fun _ h => loadNamed_unusable (Bool.eq_false_iff.2 h), fun _ h hp => loadNamed_absent h hp,
        fun h => absurd h hr, fun h => absurd h hr, fun _ h hp u hu => loadNamed_ok (h hr) hp hu⟩
  case accessed =>
    obtain ⟨u, hu, hbytes⟩ := setAccessed_ram hram hm sel d
    exact ⟨u, hu, ((setAccessed_accesses sel d).ok hu).state, hbytes⟩

/-! ### The instructions (42 R155, R156, R159-R165) -/

section Loads

variable {s : State} {r : SegReg} {w w0 w1 : Work}

theorem Ends.intShadow {u t : State} (h : Ends s u t) : t.intShadow = u.intShadow := by rw [h.1]; rfl

theorem shadowSs_ok (r : SegReg) (w : Work) :
    shadowSs r w = .ok () { w with s := { w.s with intShadow := if r = .ss then true else w.s.intShadow } } := by
  rw [shadowSs]
  split
  · rfl
  · rfl

/-- What MOV to a segment register does (42 R156). -/
def movSregBody (n : BitVec 3) (rm : RM Reg) : M Unit :=
  needSeg n >>= fun r => check (r != .cs) .ud >>= fun _ => read16 rm >>= fun v => loadSeg r v >>= fun _ => shadowSs r

theorem exec_movSregRm (n : BitVec 3) (rm : RM Reg) (s : State) : exec (.movSregRm n rm) s = run (movSregBody n rm) s := rfl

theorem exec_popSeg {i : Instr} (h : popSegForm i = some r) (s : State) : exec i s = run (popSegBody r) s := by
  cases i with
  | popEs | popSs | popDs | popFs | popGs => cases h; rfl
  | _ => cases h

theorem exec_loadPtr {i : Instr} {q : Reg} {rm : RM Reg} (h : loadPtrForm i = some (r, q, rm)) (s : State) :
    exec i s = run (loadPtrBody r q rm) s := by
  cases i with
  | lds | les | lfs | lgs | lss => cases h; rfl
  | _ => cases h

theorem movSreg_work {n : BitVec 3} {rm : RM Reg} {v : BitVec 16} (hn : SegReg.ofNum n = some r) (hr : r ≠ .cs)
    (hread : read16 rm w0 = .ok v w1) (hload : loadSeg r v w1 = .ok () w) :
    movSregBody n rm w0 = .ok () { w with s := { w.s with intShadow := if r = .ss then true else w.s.intShadow } } := by
  simp only [movSregBody, M.run_bind, needSeg_ok hn, bne_iff_ne.2 hr, run_check_true, hread, hload, shadowSs_ok]

theorem popSeg_work {v : BitVec 32} (hread : stackRead 0 w0.s.os.bytes w0 = .ok v w1)
    (hload : loadSeg r (lo16 v) w1 = .ok () w) :
    popSegBody r w0 = .ok () { w with s :=
      { w.s.setRegv w0.s.stackSize .esp (w0.s.stackSize.add w0.s.sp (BitVec.ofNat 32 w0.s.os.bytes)) with
        intShadow := if r = .ss then true else w.s.intShadow } } := by
  simp only [popSegBody, M.run_bind, run_st, hread, hload, run_upd, shadowSs_ok]
  rfl

theorem loadPtr_work {m : Mem} {off : BitVec 32} {sel : BitVec 16} (q : Reg)
    (hread : readFarPtr m w0 = .ok (off, sel) w1) (hload : loadSeg r sel w1 = .ok () w) :
    loadPtrBody r q (.mem m) w0 = .ok () { w with s := w.s.setRegv w0.s.os q off } := by
  simp only [loadPtrBody, M.run_bind, run_needMem_mem, run_st, hread, hload, run_upd]

/-- The end of an instruction that has made `w` of `s` by loads, and then changed no more than segment registers, general
registers and the shadow. -/
theorem run_loadsSeg {body : M Unit} {x : State} (ready : Ready s) (hloads : LoadsW s.work w)
    (hbody : body s.work = .ok () { w with s := x })
    (hx : x = { w.s with segs := x.segs, gpr := x.gpr, intShadow := x.intShadow } := by rfl) :
    ∃ t, run body s = .next t ∧ Ends s x t ∧ t.gpr = x.gpr ∧ t.flags = { s.flags with rf := false } ∧
      KeepsSystem s { t with segs := s.segs, intShadow := s.intShadow } ∧ TablesOnly s t := by
  have hacc : Accesses s { w.s with segs := s.segs } := hloads.acc.state
  obtain ⟨t, hrun, hends⟩ := run_ends ready hloads.acc hbody (by rw [hx]) (by rw [hx])
  refine ⟨t, hrun, hends, hends.gpr, hends.flags.trans ?_, ?_, fun hm a => ?_⟩
  · have hflags : w.s.flags = s.flags := hacc.flags
    rw [hx, hflags]
  · have hends' : Ends s
        { ({ w.s with segs := s.segs } : State) with segs := x.segs, gpr := x.gpr, intShadow := x.intShadow } t := hx ▸ hends
    have hend := hends'.1
    rw [hacc.same] at hend
    rw [hend]
    rfl
  · rw [State.byteAt, hends.mem, hx]
    exact hloads.tables hm a

end Loads

/-- Settles O42: each instruction reads, loads by `loadSeg` and ends as `run_loadsSeg` tells. -/
theorem segmentLoads : Obligations.SegmentLoads := by
  refine ⟨fun s n rm r hn hcs ready v w1 w hread hload => ?mov, fun s i r hi ready v w1 w hread hload => ?pop,
    fun s i sr q m hi ready off sel w1 w hread hload => ?pointer⟩
  case mov =>
    have hloads : LoadsW s.work w := ((read16_reads rm).ok hread).tests.trans_loads (loadSeg_loads hload)
    have hshadow : w.s.intShadow = s.intShadow := hloads.intShadow
    rw [← hshadow]
    obtain ⟨t, hrun, hends, hgpr, hrest⟩ := run_loadsSeg ready hloads (movSreg_work hn hcs hread hload)
    exact ⟨t, (exec_movSregRm n rm s).trans hrun, hends, hgpr.trans hloads.gpr, hshadow ▸ hrest⟩
  case pop =>
    have hloads : LoadsW s.work w := ((stackRead_reads 0 s.os.bytes).ok hread).tests.trans_loads (loadSeg_loads hload)
    have hshadow : w.s.intShadow = s.intShadow := hloads.intShadow
    intro sp
    rw [← hshadow]
    obtain ⟨t, hrun, hends, hgpr, hrest⟩ := run_loadsSeg ready hloads (popSeg_work (w0 := s.work) hread hload)
    exact ⟨t, (exec_popSeg hi s).trans hrun, hends, hgpr.trans (hloads.gpr_setRegv s.stackSize .esp sp), hshadow ▸ hrest⟩
  case pointer =>
    have hloads : LoadsW s.work w := ((readFarPtr_reads m).ok hread).tests.trans_loads (loadSeg_loads hload)
    obtain ⟨t, hrun, hends, hgpr, hflags, hkeeps, htables⟩ := run_loadsSeg ready hloads
      (loadPtr_work (w0 := s.work) q hread hload)
    have hshadow : t.intShadow = s.intShadow := hends.intShadow.trans hloads.intShadow
    exact ⟨t, (exec_loadPtr hi s).trans hrun, hends, hgpr.trans (hloads.gpr_setRegv _ _ _), hflags,
      hshadow ▸ hkeeps, htables⟩

end Sys2Proof.Machine
end


section
/-! What control transfers share: how a meaning that sets EIP or switches tasks comes to its end, what pushes and pops leave,
and the load of CS. -/

namespace Sys2Proof.Machine

open Sys2Proof

-- One theorem after another, so that no more of them wait for each other than the memory limit has threads for.
set_option Elab.async false

/-! ### What the end leaves -/

section EndsAt

variable {s u t : State} {e : BitVec 32}

theorem EndsAt.mem (h : EndsAt s u e t) : t.mem = u.mem := by rw [h.1]; rfl
theorem EndsAt.gpr (h : EndsAt s u e t) : t.gpr = u.gpr := by rw [h.1]; rfl
theorem EndsAt.cpl (h : EndsAt s u e t) : t.cpl = u.cpl := by rw [h.1]; rfl
theorem EndsAt.segs (h : EndsAt s u e t) : t.segs = u.segs := by rw [h.1]; rfl
theorem EndsAt.eip (h : EndsAt s u e t) : t.eip = e := by rw [h.1]; rfl
theorem EndsAt.flags (h : EndsAt s u e t) : t.flags = { u.flags with rf := false } := by rw [h.1]; rfl

theorem EndsAt.byteAt (h : EndsAt s u e t) (a : BitVec 32) : t.byteAt a = u.byteAt a := by
  rw [State.byteAt, h.mem, State.byteAt]

end EndsAt

/-! ### Coming to the end -/

/-- The meaning of `i`, run from `s`, comes to `r`. -/
def RunsTo (i : Instr) (s : State) (r : EStateM.Result Stop Work Unit) : Prop :=
  ∃ body, exec i s = run body s ∧ body s.work = r

/-- The bookkeeping of an instruction that has set EIP and clears RF at its end. -/
structure Jumped (w : Work) : Prop where
  waiting : w.waiting = false
  jumped : w.jumped = true
  repeating : w.repeating = false
  keepRf : w.keepRf = false

/-- That of an instruction that has switched tasks: RF stays as loaded (61 R327). -/
structure SwitchedTasks (w : Work) : Prop where
  waiting : w.waiting = false
  jumped : w.jumped = true
  repeating : w.repeating = false
  keepRf : w.keepRf = true

/-- The end of an instruction that has switched tasks. -/
theorem finish_switch {w : Work} (h : SwitchedTasks w) (s : State) :
    ∃ v, finish s w = .ok () v ∧ Switched s w.s (endStep v.s) := by
  obtain ⟨pd, ld, env, htraps, hdrawn, -⟩ := collectTraps_ok s.flags.tf (bit s.dr7 8 || bit s.dr7 9) w
  refine ⟨{ w with s := { w.s with pendingDbg := pd, lateDbg := ld, env := env } }, ?_, ⟨rfl, hdrawn⟩, rfl⟩
  simpa [finish, h.waiting, h.jumped, h.repeating, h.keepRf] using htraps

section RunsTo

variable {i : Instr} {s : State} {w : Work}

theorem RunsTo.raises {e : Exc} (h : RunsTo i s (.error (.exc e) w)) (ready : Ready s) :
    exec i s = raiseExc 6 (rollback s w) e := by
  obtain ⟨body, hexec, hbody⟩ := h
  exact hexec.trans (run_raises ready hbody)

theorem RunsTo.refused {r : Refusal} (h : RunsTo i s (.error (.refuse r) w)) (ready : Ready s) : exec i s = .refused r := by
  obtain ⟨body, hexec, hbody⟩ := h
  exact hexec.trans (run_refused ready hbody)

theorem RunsTo.jumps (h : RunsTo i s (.ok () w)) (ready : Ready s) (hjumped : Jumped w) :
    ∃ t, exec i s = .next t ∧ EndsAt s w.s w.s.eip t ∧
      (w.hitOn = 0 → w.hitOff = 0 → t = s.completedAt w.s w.s.eip) := by
  obtain ⟨body, hexec, hbody⟩ := h
  rw [hexec]
  exact runWith_jumps ready hbody hjumped.waiting hjumped.jumped hjumped.repeating hjumped.keepRf

theorem RunsTo.switches (h : RunsTo i s (.ok () w)) (ready : Ready s) (hswitched : SwitchedTasks w) :
    ∃ t, exec i s = .next t ∧ Switched s w.s t := by
  obtain ⟨body, hexec, hbody⟩ := h
  obtain ⟨v, hfinish, hend⟩ := finish_switch hswitched s
  exact ⟨_, hexec.trans (runWith_ok ready hbody hfinish), hend⟩

end RunsTo

/-! ### The stack pointer (20 R82; 48 R234) -/

theorem State.stackSize_congr {s t : State} (hss : t.segs.ss = s.segs.ss) : t.stackSize = s.stackSize := by
  simp only [State.stackSize, hss]

theorem State.sp_congr {s t : State} (hgpr : t.gpr = s.gpr) (hss : t.segs.ss = s.segs.ss) : t.sp = s.sp := by
  simp only [State.sp, State.regv, State.reg, State.stackSize_congr hss, hgpr]

theorem State.pushAddr_congr {s t : State} (hgpr : t.gpr = s.gpr) (hss : t.segs.ss = s.segs.ss) (n : Nat) :
    t.pushAddr n = s.pushAddr n := by
  simp only [State.pushAddr, State.stackSize_congr hss, State.sp_congr hgpr hss]

theorem State.setSp_congr {s t : State} (hgpr : t.gpr = s.gpr) (hss : t.segs.ss = s.segs.ss) (v : BitVec 32) :
    (t.setSp v).gpr = (s.setSp v).gpr := by
  simp only [State.setSp, State.setRegv, State.setReg, State.reg, State.stackSize_congr hss, hgpr]

/-! ### What a transfer may change -/

/-- The state with what a control transfer sets taken from `s`: general and segment registers, CPL, EIP and the queue. -/
def State.placedAs (t s : State) : State :=
  { t with gpr := s.gpr, segs := s.segs, cpl := s.cpl, eip := s.eip, prefetch := s.prefetch }

/-- What a control transfer may change: what an access may, what it sets, and that it has set EIP. -/
def TransfersW (w v : Work) : Prop := AccessesW w { v with s := v.s.placedAs w.s, jumped := w.jumped }

/-- `t` with its system state, as `KeepsSystem` means it, taken from `x`, and with the segment registers and CPL of `s`. -/
def State.systemIn (x s t : State) : State :=
  { x with
    gpr := t.gpr, eip := t.eip, flags := t.flags, mem := t.mem, tlb := t.tlb, prefetch := t.prefetch,
    pendingDbg := t.pendingDbg, lateDbg := t.lateDbg, env := t.env, insn := t.insn, segs := s.segs, cpl := s.cpl }

theorem Accesses.placedAs {s t : State} (h : Accesses s t) (u : State) : Accesses (s.placedAs u) (t.placedAs u) :=
  ⟨congrArg (fun x : State => { x.placedAs u with mem := t.mem, tlb := t.tlb, env := t.env }) h.same, h.map,
    ⟨rfl, rfl, rfl, rfl⟩, h.wf⟩

theorem AccessesW.transfers {w v : Work} (h : AccessesW w v) : TransfersW w v := by
  have hsame := h.same
  refine ⟨h.state.placedAs w.s, ?_⟩
  rw [hsame]

theorem transfers_rel : StepRel TransfersW where
  refl w := (accesses_rel.refl w).transfers
  trans u v w h1 h2 := by
    have h : AccessesW { v with s := v.s.placedAs u.s, jumped := u.jumped }
        { w with s := w.s.placedAs u.s, jumped := u.jumped } :=
      ⟨h2.state.placedAs u.s, congrArg (fun x : Work => { x with s := w.s.placedAs u.s, jumped := u.jumped }) h2.same⟩
    exact accesses_rel.trans _ _ _ h1 h

section Transfers

variable {s t : State} {w v : Work}

theorem TransfersW.flags (h : TransfersW w v) : v.s.flags = w.s.flags := h.state.flags
theorem TransfersW.wf (h : TransfersW w v) : Memory.wf w.s.mem = true → Memory.wf v.s.mem = true := h.state.wf

theorem TransfersW.jumped (h : TransfersW s.work w) (hjumped : w.jumped = true) : Jumped w :=
  ⟨congrArg Work.waiting h.same, hjumped, congrArg Work.repeating h.same, congrArg Work.keepRf h.same⟩

theorem TransfersW.keepsSystem {e : BitVec 32} (h : TransfersW s.work w) (hends : EndsAt s w.s e t) :
    KeepsSystem s { t with segs := s.segs, cpl := s.cpl } := by
  have hstate := congrArg (State.systemIn · s t) h.state.same
  exact (congrArg (State.systemIn · s t) hends.1).trans hstate

/-- The end of a transfer. -/
theorem RunsTo.transfers {i : Instr} (h : RunsTo i s (.ok () w)) (ready : Ready s) (hw : TransfersW s.work w)
    (hjumped : w.jumped = true) : ∃ t, exec i s = .next t ∧ EndsAt s w.s w.s.eip t ∧
      KeepsSystem s { t with segs := s.segs, cpl := s.cpl } ∧ t.flags = { s.flags with rf := false } := by
  obtain ⟨t, hexec, hends, -⟩ := h.jumps ready (hw.jumped hjumped)
  refine ⟨t, hexec, hends, hw.keepsSystem hends, hends.flags.trans ?_⟩
  rw [hw.flags]
  rfl

end Transfers

/-! ### What pushes leave (48 R234) -/

/-- What a use of the stack may change: what an access may, and general registers. -/
def StacksW (w v : Work) : Prop := AccessesW w { v with s := { v.s with gpr := w.s.gpr } }

theorem AccessesW.stack {w v : Work} (h : AccessesW w v) : StacksW w v := by
  have hgpr := h.state.gpr
  unfold StacksW
  rw [← hgpr]
  exact h

theorem StacksW.transfers {w v : Work} (h : StacksW w v) : TransfersW w v :=
  AccessesW.transfers (v := { v with s := { v.s with gpr := w.s.gpr } }) h

theorem StacksW.segs {w v : Work} (h : StacksW w v) : v.s.segs = w.s.segs := h.state.segs
theorem StacksW.cpl {w v : Work} (h : StacksW w v) : v.s.cpl = w.s.cpl := h.state.cpl
theorem StacksW.cr0 {w v : Work} (h : StacksW w v) : v.s.cr0 = w.s.cr0 := h.state.cr0
theorem StacksW.wf {w v : Work} (h : StacksW w v) : Memory.wf w.s.mem = true → Memory.wf v.s.mem = true := h.state.wf
theorem StacksW.ss {w v : Work} (h : StacksW w v) : v.s.segs.ss = w.s.segs.ss := congrArg _ h.segs

theorem stacks_rel : StepRel StacksW where
  refl w := accesses_rel.refl w
  trans u v w h1 h2 := by
    have h : AccessesW { v with s := { v.s with gpr := u.s.gpr } } { w with s := { w.s with gpr := u.s.gpr } } :=
      ⟨⟨congrArg (fun x : State => { x with gpr := u.s.gpr }) h2.state.same, h2.state.map, h2.state.hazard, h2.state.wf⟩,
        congrArg (fun x : Work => { x with s := { w.s with gpr := u.s.gpr } }) h2.same⟩
    exact accesses_rel.trans _ _ _ h1 h

/-- A push of `n` bytes: the stack pointer has moved, and with paging off no byte outside the item has changed. -/
structure PushedW (n : Nat) (w u : Work) : Prop where
  stack : StacksW w u
  gpr : u.s.gpr = (w.s.setSp (w.s.pushAddr n)).gpr
  bytes : Memory.wf w.s.mem = true → w.s.cr0.pg = false →
    ∀ a, a ∉ span (w.s.segs.ss.base + w.s.pushAddr n) n → u.s.byteAt a = w.s.byteAt a

theorem push_pushed {v : BitVec 32} {n : Nat} {w u : Work} (h : push v n w = .ok () u) : PushedW n w u := by
  obtain ⟨s, w1, hst, h⟩ := bind_eq_ok.1 h
  cases hst
  obtain ⟨_, w2, hneed, h⟩ := bind_eq_ok.1 h
  obtain ⟨_, rfl⟩ := need_eq_ok.1 hneed
  obtain ⟨_, w3, hwrite, h⟩ := bind_eq_ok.1 h
  cases h
  have hacc := (memWrite_accesses .ss (w2.s.pushAddr n) n v).ok hwrite
  exact ⟨hacc.stack, w2.s.setSp_congr hacc.state.gpr hacc.stack.ss _,
    fun hm hp a ha => (memWrite_frame hwrite hm a (by rwa [storedAt_flat hp])).2 hp⟩

/-- A selector is pushed with free upper bits (42 R158). -/
theorem pushSel_eq (sel : BitVec 16) (n : Nat) (w : Work) :
    ∃ (x : BitVec 16) (env : Env), Drawn w.s.env env ∧ pushSel sel n w = push (x ++ sel) n (w.inWorld env) := by
  unfold pushSel
  by_cases h4 : n = 4
  · obtain ⟨x, env, hdraw, hdrawn⟩ := draw16_ok w
    exact ⟨x, env, hdrawn, by rw [if_pos h4, M.run_bind, hdraw]⟩
  · exact ⟨0, w.s.env, Drawn.refl _, by rw [if_neg h4]; rfl⟩

/-- The pushes of a CALL: CS, then the offset after it (43 R170, R174). -/
theorem pushReturn_eq_ok {n : Nat} {w u : Work} (h : pushReturn n w = .ok () u) :
    ∃ (x : BitVec 16) (env : Env) (v : Work), Drawn w.s.env env ∧
      push (x ++ w.s.segs.cs.selector) n (w.inWorld env) = .ok () v ∧ push w.s.nextEip n v = .ok () u := by
  obtain ⟨s, w1, hst, h⟩ := bind_eq_ok.1 h
  cases hst
  obtain ⟨_, w2, hroom, h⟩ := bind_eq_ok.1 h
  obtain ⟨_, rfl⟩ := check_eq_ok.1 hroom
  obtain ⟨_, v, hsel, h⟩ := bind_eq_ok.1 h
  obtain ⟨x, env, hdrawn, hpush⟩ := pushSel_eq w2.s.segs.cs.selector n w2
  exact ⟨x, env, v, hdrawn, hpush.symm.trans hsel, h⟩

/-- What the pushes of a CALL leave. -/
structure ReturnPushedW (n : Nat) (w u : Work) : Prop where
  stack : StacksW w u
  gpr : u.s.gpr = ((w.s.setSp (w.s.pushAddr n)).setSp ((w.s.setSp (w.s.pushAddr n)).pushAddr n)).gpr
  bytes : Memory.wf w.s.mem = true → w.s.cr0.pg = false → ∀ a, a ∉ span (w.s.segs.ss.base + w.s.pushAddr n) n →
    a ∉ span (w.s.segs.ss.base + (w.s.setSp (w.s.pushAddr n)).pushAddr n) n → u.s.byteAt a = w.s.byteAt a

theorem pushReturn_pushed {n : Nat} {w u : Work} (h : pushReturn n w = .ok () u) : ReturnPushedW n w u := by
  obtain ⟨x, env, v, hdrawn, hsel, heip⟩ := pushReturn_eq_ok h
  have h1 := push_pushed hsel
  have h2 := push_pushed heip
  have hdraw : AccessesW w (w.inWorld env) := ⟨accesses_env _ _ (by rw [hdrawn]), rfl⟩
  have hss : v.s.segs.ss = w.s.segs.ss := h1.stack.ss
  have haddr : v.s.pushAddr n = (w.s.setSp (w.s.pushAddr n)).pushAddr n := State.pushAddr_congr h1.gpr hss n
  refine ⟨stacks_rel.trans _ _ _ hdraw.stack (stacks_rel.trans _ _ _ h1.stack h2.stack), ?_, fun hm hp a ha1 ha2 => ?_⟩
  · rw [← haddr]
    exact h2.gpr.trans (State.setSp_congr h1.gpr hss _)
  · rw [← haddr, ← hss] at ha2
    exact (h2.bytes (h1.stack.wf hm) (h1.stack.cr0 ▸ hp) a ha2).trans (h1.bytes hm hp a ha1)

/-! ### The load of CS (43 R169, R171) -/

/-- The work after a load of CS and EIP. -/
def Work.atCode (w : Work) (g : Seg) (eip : BitVec 32) : Work :=
  { w with s := { w.s.setSeg .cs g with eip := eip, prefetch := Prefetch.empty }, jumped := true }

theorem loadCs_ok {sel : BitVec 16} {d : Desc} {w v : Work} (h : setAccessed sel d w = .ok () v) (pl : BitVec 2)
    (eip : BitVec 32) : loadCs sel pl d eip w = .ok () (v.atCode (d.toSeg (withRpl sel pl)) eip) := by
  simp only [loadCs, M.run_bind, h, run_upd, run_mark]
  rfl

theorem loadCsReal_ok (sel : BitVec 16) (eip : BitVec 32) (w : Work) :
    loadCsReal sel eip w = .ok () (w.atCode (w.s.segs.cs.realLoaded sel) eip) := rfl

theorem TransfersW.atCode {w v : Work} (h : TransfersW w v) (g : Seg) (eip : BitVec 32) : TransfersW w (v.atCode g eip) := h

/-- The end of a transfer to `off` of the segment `g`. -/
theorem RunsTo.entersCode {i : Instr} {s : State} {w : Work} {g : Seg} {off : BitVec 32}
    (h : RunsTo i s (.ok () (w.atCode g off))) (ready : Ready s) (hw : TransfersW s.work w) :
    ∃ t, exec i s = .next t ∧ EndsAt s { w.s.setSeg .cs g with prefetch := Prefetch.empty } off t ∧
      KeepsSystem s { t with segs := s.segs, cpl := s.cpl } ∧ t.flags = { s.flags with rf := false } :=
  h.transfers ready (hw.atCode g off) rfl

end Sys2Proof.Machine
end


section
/-! The obligation about far transfers in real-address mode (O40). -/

namespace Sys2Proof.Machine

open Sys2Proof

-- One theorem after another, so that no more of them wait for each other than the memory limit has threads for.
set_option Elab.async false

/-! ### Sums of a size (20 R82) -/

theorem Size.toNat_trunc (z : Size) (v : BitVec 32) : (z.trunc v).toNat = v.toNat % 2 ^ z.bits := by
  cases z with
  | w16 => exact (BitVec.toNat_and _ _).trans (Nat.and_two_pow_sub_one_eq_mod _ 16)
  | w32 => exact (Nat.mod_eq_of_lt v.isLt).symm

/-- One sum after another is one sum. -/
theorem Size.add_add (z : Size) (a b c : BitVec 32) : z.add (z.add a b) c = z.add a (b + c) := by
  apply BitVec.eq_of_toNat_eq
  simp only [Size.add, Size.toNat_trunc, BitVec.toNat_add]
  cases z <;> simp only [Size.bits] <;> omega

theorem Size.merge_merge (z : Size) (old v w : BitVec 32) : z.merge (z.merge old v) w = z.merge old w := by
  cases z with
  | w16 => exact congrArg (· ++ w.extractLsb' 0 16) (Size.hi16_merge old v)
  | w32 => rfl

/-- Of a value that is written to the stack pointer the bits above its size do not count. -/
theorem Size.merge_of_trunc (z : Size) (old v : BitVec 32) : z.merge old (z.trunc v) = z.merge old v := by
  cases z with
  | w16 =>
    refine congrArg (old.extractLsb' 16 16 ++ ·) (BitVec.eq_of_toNat_eq ?_)
    have h := Size.toNat_trunc .w16 v
    simp only [Size.bits] at h
    simp only [BitVec.extractLsb'_toNat, Nat.shiftRight_zero, h]
    omega
  | w32 => rfl

/-- The second of two writes of the stack pointer counts. -/
theorem State.setSp_setSp (s : State) (v w : BitVec 32) : (s.setSp v).setSp w = s.setSp w := by
  have h : (s.setSp v).reg .esp = s.stackSize.merge (s.reg .esp) v := rfl
  change (s.setSp v).setReg .esp (s.stackSize.merge ((s.setSp v).reg .esp) w) = _
  rw [h, Size.merge_merge]
  rfl

/-! ### Pops (48 R234) -/

/-- Pops that move the stack pointer up by `k`. -/
structure PoppedW (k : BitVec 32) (w u : Work) : Prop where
  stack : StacksW w u
  gpr : u.s.gpr = (w.s.setSp (w.s.stackSize.add w.s.sp k)).gpr
  bytes : Memory.wf w.s.mem = true → w.s.cr0.pg = false → ∀ a, u.s.byteAt a = w.s.byteAt a

theorem pop_popped {n : Nat} {v : BitVec 32} {w u : Work} (h : pop n w = .ok v u) : PoppedW (BitVec.ofNat 32 n) w u := by
  obtain ⟨x, w1, hread, h⟩ := bind_eq_ok.1 h
  cases h
  have hreads := (stackRead_reads 0 n).ok hread
  have hgpr := hreads.acc.state.gpr
  have hss : w1.s.segs.ss = w.s.segs.ss := hreads.acc.stack.ss
  refine ⟨hreads.acc.stack, (State.setSp_congr hgpr hss _).trans ?_,
    fun hm hp a => ((hreads.frame hm) a List.not_mem_nil).2 hp⟩
  rw [State.stackSize_congr hss, State.sp_congr hgpr hss]

theorem PoppedW.stackSize {k : BitVec 32} {w u : Work} (h : PoppedW k w u) : u.s.stackSize = w.s.stackSize :=
  State.stackSize_congr h.stack.ss

/-- The stack pointer is moved up further. -/
theorem PoppedW.drop {k : BitVec 32} {w u : Work} (h : PoppedW k w u) (c : BitVec 32) :
    (u.s.setSp (w.s.stackSize.add u.s.sp c)).gpr = (w.s.setSp (w.s.stackSize.add w.s.sp (k + c))).gpr := by
  have hss := h.stack.ss
  have hsp : u.s.sp = w.s.stackSize.add w.s.sp k :=
    (State.sp_congr h.gpr hss).trans ((w.s.sp_setSp _).trans (Size.trunc_idem _ _))
  rw [hsp, Size.add_add, State.setSp_congr h.gpr hss, State.setSp_setSp]

theorem PoppedW.trans {k c : BitVec 32} {w v u : Work} (h1 : PoppedW k w v) (h2 : PoppedW c v u) : PoppedW (k + c) w u :=
  ⟨stacks_rel.trans _ _ _ h1.stack h2.stack, h2.gpr.trans (h1.stackSize ▸ h1.drop c),
    fun hm hp a => (h2.bytes (h1.stack.wf hm) (h1.stack.cr0 ▸ hp) a).trans (h1.bytes hm hp a)⟩

/-! ### Far JMP and CALL (43 R177-R180) -/

/-- What a far JMP or CALL saves before it goes on. -/
def saveReturn (kind : TransferKind) (n : Nat) : M Unit := if kind = .call then pushReturn n else pure ()

theorem saveReturn_bind (kind : TransferKind) (n : Nat) (x : M Unit) :
    (if kind = .call then pushReturn n >>= fun _ => x else x) = saveReturn kind n >>= fun _ => x := by
  cases kind <;> rfl

theorem saveReturn_stacks {kind : TransferKind} {n : Nat} {w u : Work} (h : saveReturn kind n w = .ok () u) :
    StacksW w u := by
  cases kind with
  | jmp =>
    cases h
    exact stacks_rel.refl w
  | call => exact (pushReturn_pushed h).stack

/-- A CALL that has room for its next offset saves it. -/
theorem bind_needNext {s : State} (h : s.eip.toNat + s.insn.len < 2 ^ 32) (kind : TransferKind) (m : M Unit) (w : Work) :
    (m >>= fun _ => if kind = .call then needNext s else pure ()) w = m w := by
  rw [M.run_bind]
  cases hm : m w with
  | ok a v =>
    cases kind with
    | jmp => rfl
    | call => exact needNext_ok h v
  | error e v => rfl

theorem farBody_eq {w : Work} (h : w.s.eip.toNat + w.s.insn.len < 2 ^ 32) (kind : TransferKind) (sel : BitVec 16)
    (off : BitVec 32) :
    farBody kind sel off w = (if w.s.cr0.pe then farTransfer kind sel off else farReal kind sel off) w := by
  rw [farBody, M.run_bind, run_st]
  dsimp only
  cases w.s.cr0.pe with
  | true => exact bind_needNext h kind _ w
  | false => exact bind_needNext h kind _ w

section Far

variable {s : State} {i : Instr} {kind : TransferKind} {ptr : M (BitVec 32 × BitVec 16)} {off : BitVec 32} {sel : BitVec 16}
  {w u : Work}

theorem farForm_reads (hform : farForm i = some (kind, ptr)) : Within ReadsW ptr := by
  cases i with
  | jmpPtr off sel | callPtr off sel =>
    cases hform
    exact within_pure reads_rel _
  | jmpFarM rm | callFarM rm =>
    cases rm with
    | mem m =>
      cases hform
      exact readFarPtr_reads m
    | reg r => cases hform
  | _ => cases hform

/-- What a far JMP or CALL comes to once it has its pointer. -/
theorem runsTo_far (hform : farForm i = some (kind, ptr)) (ready : Ready s) (hptr : ptr s.work = .ok (off, sel) w) :
    RunsTo i s ((if s.cr0.pe then farTransfer kind sel off else farReal kind sel off) w) := by
  have hacc : Accesses s w.s := ((farForm_reads hform).ok hptr).acc.state
  have heq := farBody_eq (w := w) (by rw [hacc.eip, hacc.insn]; exact ready.room) kind sel off
  rw [hacc.cr0] at heq
  rw [← heq]
  cases i with
  | jmpPtr off' sel' | callPtr off' sel' =>
    cases hform
    cases hptr
    exact ⟨_, rfl, rfl⟩
  | jmpFarM rm | callFarM rm =>
    cases rm with
    | mem m =>
      cases hform
      exact ⟨_, rfl, by simp only [farMemBody, M.run_bind, run_needMem_mem, hptr]⟩
    | reg r => cases hform
  | _ => cases hform

/-- A target within the limit of CS (43 R171). -/
theorem farReal_within (h : off.toNat ≤ w.s.segs.cs.limit.toNat) (hsave : saveReturn kind w.s.os.bytes w = .ok () u) :
    farReal kind sel off w = .ok () (u.atCode (w.s.segs.cs.realLoaded sel) off) := by
  have hule : off.ule w.s.segs.cs.limit = true := decide_eq_true h
  rw [farReal, M.run_bind, run_st]
  dsimp only
  rw [hule, M.run_bind, run_check_true, saveReturn_bind]
  refine (bind_of_ok hsave _).trans ?_
  rw [loadCsReal_ok, (saveReturn_stacks hsave).segs]

/-- The end of a far JMP or CALL in real-address mode. -/
theorem exec_farReal (hform : farForm i = some (kind, ptr)) (ready : Ready s) (hpe : s.cr0.pe = false)
    (hptr : ptr s.work = .ok (off, sel) w) (hoff : off.toNat ≤ s.segs.cs.limit.toNat)
    (hsave : saveReturn kind s.os.bytes w = .ok () u) :
    ∃ t, exec i s = .next t ∧
      EndsAt s { u.s.setSeg .cs (s.segs.cs.realLoaded sel) with prefetch := Prefetch.empty } off t ∧
      t.gpr = u.s.gpr ∧ KeepsSystem s { t with segs := s.segs } ∧ ∀ a, t.byteAt a = u.s.byteAt a := by
  have hreads : ReadsW s.work w := (farForm_reads hform).ok hptr
  have hacc : Accesses s w.s := hreads.acc.state
  have hsaved := saveReturn_stacks hsave
  have hruns := runsTo_far hform ready hptr
  rw [← hacc.segs] at hoff ⊢
  rw [hpe, if_neg Bool.false_ne_true, farReal_within hoff (by rwa [hacc.os])] at hruns
  obtain ⟨t, hexec, hends, hkeeps, -⟩ :=
    hruns.entersCode ready (transfers_rel.trans _ _ _ hreads.acc.transfers hsaved.transfers)
  refine ⟨t, hexec, hends, hends.gpr, ?_, hends.byteAt⟩
  have hcpl : t.cpl = s.cpl := hends.cpl.trans (hsaved.cpl.trans hacc.cpl)
  rw [hacc.segs]
  rwa [← hcpl] at hkeeps

/-- The end of a far CALL in real-address mode, with what it has pushed. -/
theorem exec_callReal (hform : farForm i = some (.call, ptr)) (ready : Ready s) (hm : Memory.wf s.mem = true)
    (hpe : s.cr0.pe = false) (hpg : s.cr0.pg = false) (hptr : ptr s.work = .ok (off, sel) w)
    (hoff : off.toNat ≤ s.segs.cs.limit.toNat) (hpush : pushReturn s.os.bytes w = .ok () u) :
    let n := s.os.bytes
    let sp1 := s.pushAddr n
    let sp2 := (s.setSp sp1).pushAddr n
    ∃ t, exec i s = .next t ∧
      EndsAt s { u.s.setSeg .cs (s.segs.cs.realLoaded sel) with prefetch := Prefetch.empty } off t ∧
      t.gpr = ((s.setSp sp1).setSp sp2).gpr ∧ KeepsSystem s { t with segs := s.segs } ∧
      ∀ a, ¬ (a ∈ span (s.segs.ss.base + sp1) n ∨ a ∈ span (s.segs.ss.base + sp2) n) → t.byteAt a = s.byteAt a := by
  intro n sp1 sp2
  have hreads : ReadsW s.work w := (farForm_reads hform).ok hptr
  have hacc : Accesses s w.s := hreads.acc.state
  have hss : w.s.segs.ss = s.segs.ss := congrArg _ hacc.segs
  have hpushed := pushReturn_pushed hpush
  have hsp1 : w.s.pushAddr n = sp1 := State.pushAddr_congr hacc.gpr hss n
  have hset : (w.s.setSp sp1).gpr = (s.setSp sp1).gpr := State.setSp_congr hacc.gpr hss sp1
  have hsp2 : (w.s.setSp sp1).pushAddr n = sp2 := State.pushAddr_congr hset hss n
  obtain ⟨t, hexec, hends, hgpr, hkeeps, hbytes⟩ := exec_farReal hform ready hpe hptr hoff hpush
  refine ⟨t, hexec, hends, hgpr.trans (hpushed.gpr.trans ?_), hkeeps, fun a ha => ?_⟩
  · rw [hsp1, hsp2]
    exact State.setSp_congr hset hss sp2
  · have hkept := hpushed.bytes (hacc.wf hm) (hacc.cr0 ▸ hpg) a
    rw [hsp1, hsp2, hss] at hkept
    rw [not_or] at ha
    rw [hbytes, hkept ha.1 ha.2]
    exact ((hreads.frame hm) a List.not_mem_nil).2 hpg

end Far

/-! ### RETF (43 R171, R181) -/

theorem runsTo_retf {i : Instr} {count : BitVec 16} (hi : (i = .retf ∧ count = 0) ∨ i = .retfImm16 count) (s : State) :
    RunsTo i s ((if s.cr0.pe then retfProtected count else retfReal count) s.work) := by
  obtain ⟨rfl, rfl⟩ | rfl := hi
  · exact ⟨_, rfl, rfl⟩
  · exact ⟨_, rfl, rfl⟩

theorem retfReal_within {count : BitVec 16} {ip cs : BitVec 32} {w v u : Work} (hip : pop w.s.os.bytes w = .ok ip v)
    (hcs : pop w.s.os.bytes v = .ok cs u) (h : ip.toNat ≤ w.s.segs.cs.limit.toNat) :
    retfReal count w = .ok () (Work.atCode { u with s := u.s.setSp (u.s.stackSize.add u.s.sp (count.setWidth 32)) }
      (u.s.segs.cs.realLoaded (lo16 cs)) ip) := by
  have hule : ip.ule w.s.segs.cs.limit = true := decide_eq_true h
  simp only [retfReal, M.run_bind, run_st, hip, hcs, hule, run_check_true]
  rfl

/-- Settles O40: a far JMP or CALL saves the return pointer and loads CS (`exec_farReal`), RETF pops both items, drops the
parameters and loads CS. -/
theorem farRealMode : Obligations.FarRealMode := by
  intro s ready hm hpe hpg n sp1 sp2 pushed
  refine ⟨fun off sel hoff => ⟨?jmp, fun w hpush => exec_callReal rfl ready hm hpe hpg rfl hoff hpush⟩,
    fun m off sel w hptr hoff => ⟨?jmpMem, fun v hpush => exec_callReal rfl ready hm hpe hpg hptr hoff hpush⟩,
    fun i count ip cs w v hi hip hcs hoff => ?retf⟩
  case jmp =>
    have hruns := runsTo_far (i := .jmpPtr off sel) (kind := .jmp) rfl ready rfl
    rw [hpe, if_neg Bool.false_ne_true, farReal_within (w := s.work) (kind := .jmp) hoff rfl] at hruns
    obtain ⟨t, hexec, -, heq⟩ := hruns.jumps ready ⟨rfl, rfl, rfl, rfl⟩
    exact hexec.trans (congrArg _ (heq rfl rfl))
  case jmpMem =>
    have hreads : ReadsW s.work w := (readFarPtr_reads m).ok hptr
    obtain ⟨t, hexec, hends, hgpr, hkeeps, hbytes⟩ :=
      exec_farReal (i := .jmpFarM (.mem m)) (kind := .jmp) rfl ready hpe hptr hoff rfl
    exact ⟨t, hexec, hends, hgpr.trans hreads.acc.state.gpr, hkeeps,
      fun a => (hbytes a).trans (((hreads.frame hm) a List.not_mem_nil).2 hpg)⟩
  case retf =>
    have hpopped : PoppedW (BitVec.ofNat 32 n + BitVec.ofNat 32 n) s.work v := (pop_popped hip).trans (pop_popped hcs)
    have hruns := runsTo_retf hi s
    rw [hpe, if_neg Bool.false_ne_true, retfReal_within (w := s.work) hip hcs hoff] at hruns
    obtain ⟨t, hexec, hends, hkeeps, -⟩ := hruns.entersCode ready hpopped.stack.transfers
    have hcpl : t.cpl = s.cpl := hends.cpl.trans hpopped.stack.cpl
    rw [hpopped.stack.segs, hpopped.stackSize] at hends
    refine ⟨t, hexec, hends, hends.gpr.trans ((hpopped.drop (count.setWidth 32)).trans ?_), ?_,
      fun a => (hends.byteAt a).trans (hpopped.bytes hm hpg a)⟩
    · rw [two_mul, BitVec.ofNat_add]
      rfl
    · rwa [← hcpl] at hkeeps

end Sys2Proof.Machine
end


section
/-! What lies on the stack after pushes, where every physical address is RAM, and what reads leave of memory with paging
off. -/

namespace Sys2Proof.Machine

open Sys2Proof

-- One theorem after another, so that no more of them wait for each other than the memory limit has threads for.
set_option Elab.async false

/-! ### Reads with paging off -/

/-- An access that has changed no byte of memory. -/
structure Unstored (s t : State) : Prop where
  acc : Accesses s t
  bytes : ∀ a, t.byteAt a = s.byteAt a

theorem ReadsW.unstored {w v : Work} (h : ReadsW w v) (hm : Memory.wf w.s.mem = true) (hp : w.s.cr0.pg = false) :
    Unstored w.s v.s := ⟨h.acc.state, fun a => ((h.frame hm) a List.not_mem_nil).2 hp⟩

section Unstored

variable {s t : State}

theorem Unstored.valueAt (h : Unstored s t) (a : BitVec 32) (n : Nat) : t.valueAt a n = s.valueAt a n := by
  rw [State.valueAt, State.valueAt, funext h.bytes]

theorem Accesses.sp (h : Accesses s t) : t.sp = s.sp := State.sp_congr h.gpr (congrArg _ h.segs)

theorem Unstored.stackItem (h : Unstored s t) (n k : Nat) : t.stackItem n k = s.stackItem n k := by
  rw [State.stackItem, State.stackItem, h.valueAt, h.acc.segs, h.acc.sp]

theorem Accesses.descAddr (h : Accesses s t) (sel : BitVec 16) : descAddr t sel = descAddr s sel := by
  rw [Machine.descAddr, Machine.descAddr, h.ldtr, h.gdtr]

theorem Unstored.descriptor (h : Unstored s t) (sel : BitVec 16) : t.descriptor sel = s.descriptor sel := by
  simp only [State.descriptor, h.acc.descAddr, h.valueAt]

theorem Unstored.tssSs (h : Unstored s t) (pl : BitVec 2) : t.tssSs pl = s.tssSs pl := by
  rw [State.tssSs, State.tssSs, h.valueAt, h.acc.tr]

theorem Unstored.tssEsp (h : Unstored s t) (pl : BitVec 2) : t.tssEsp pl = s.tssEsp pl := by
  rw [State.tssEsp, State.tssEsp, h.valueAt, h.acc.tr]

theorem Accesses.nextEip (h : Accesses s t) : t.nextEip = s.nextEip := by rw [State.nextEip, State.nextEip, h.eip, h.insn]

end Unstored

/-! ### Items on the stack (48 R234) -/

/-- Every physical address is RAM, and memory is in its canonical form. -/
structure PlainRam (s : State) : Prop where
  ram : AllRam s
  wf : Memory.wf s.mem = true

theorem Accesses.plainRam {s t : State} (h : Accesses s t) (hs : PlainRam s) : PlainRam t :=
  ⟨hs.ram.of_same h.cr0 h.map, h.wf hs.wf⟩

/-- The items `l` of `n` bytes, the top one first, are on the stack of `t` above what was on that of `s`, and no byte
elsewhere differs. -/
structure OnTop (n : Nat) (s t : State) (l : List (BitVec 32)) : Prop where
  ss : t.segs.ss = s.segs.ss
  sp : t.sp = s.sp - BitVec.ofNat 32 (n * l.length)
  items : ∀ k v, l[k]? = some v → t.stackItem n k = v
  bytes : ∀ a, a ∉ span (t.segs.ss.base + t.sp) (n * l.length) → t.byteAt a = s.byteAt a

section OnTop

variable {n : Nat} {s t u : State} {l : List (BitVec 32)}

theorem OnTop.nil (n : Nat) (s : State) : OnTop n s s [] := by
  refine ⟨rfl, ?_, nofun, fun _ _ => rfl⟩
  exact (BitVec.sub_zero _).symm

/-- What is on the stack is a matter of memory, of the general registers and of SS. -/
theorem OnTop.congr (h : OnTop n s t l) (hmem : u.mem = t.mem) (hgpr : u.gpr = t.gpr) (hss : u.segs.ss = t.segs.ss) :
    OnTop n s u l := by
  have hsp : u.sp = t.sp := State.sp_congr hgpr hss
  have hbytes : u.byteAt = t.byteAt := funext fun a => by rw [State.byteAt, State.byteAt, hmem]
  refine ⟨hss.trans h.ss, hsp.trans h.sp, fun k v hk => ?_, fun a ha => ?_⟩
  · rw [State.stackItem, State.valueAt, hss, hsp, hbytes]
    exact h.items k v hk
  · rw [hss, hsp] at ha
    rw [hbytes]
    exact h.bytes a ha

/-- What was on the stack before a read was there after it. -/
theorem OnTop.of_unstored (h : OnTop n t u l) (ht : Unstored s t) : OnTop n s u l :=
  ⟨h.ss.trans (congrArg _ ht.acc.segs), ht.acc.sp ▸ h.sp, h.items, fun a ha => (h.bytes a ha).trans (ht.bytes a)⟩

/-- One more item. -/
theorem OnTop.pushed (h : OnTop n s t l) (ht : PlainRam t) (hn : n ≤ 4) (hl : l.length < 1000)
    (hroom : n * (l.length + 1) ≤ s.sp.toNat) (v : BitVec 32) : OnTop n s (t.pushed v n) (lowBytes n v :: l) := by
  have hlt := s.sp.isLt
  have hsp : t.sp.toNat = s.sp.toNat - n * l.length := by
    rw [h.sp, BitVec.toNat_sub, BitVec.toNat_ofNat]
    rw [Nat.mul_succ] at hroom
    omega
  have htop : n ≤ t.sp.toNat := by
    rw [Nat.mul_succ] at hroom
    omega
  have hnew : (t.pushed v n).sp = t.sp - BitVec.ofNat 32 n := t.pushed_sp v htop
  refine ⟨(congrArg _ (t.pushed_segs v n)).trans h.ss, ?_, fun k x hk => ?_, fun a ha => ?_⟩
  · rw [hnew, h.sp, List.length_cons, Nat.mul_succ, BitVec.ofNat_add, BitVec.sub_sub]
  · cases k with
    | zero =>
      cases hk
      exact State.pushed_top ht.wf v hn htop
    | succ k =>
      rw [List.getElem?_cons_succ] at hk
      have hlt : k < l.length := (List.getElem?_eq_some_iff.1 hk).1
      rw [State.pushed_below ht.wf v hn htop (by omega)]
      exact h.items k x hk
  · rw [List.length_cons, Nat.mul_succ, Nat.add_comm, ← span_append _ (Nat.le_add_right n (n * l.length)),
      Nat.add_sub_cancel_left, List.mem_append, not_or, t.pushed_segs, hnew, BitVec.add_assoc, BitVec.sub_add_cancel] at ha
    exact (State.pushed_byteAt ht.wf v htop ha.1).trans (h.bytes a ha.2)

end OnTop

/-! ### Pushes in plain memory -/

section Pushes

variable {n : Nat} {s : State} {w u : Work} {l : List (BitVec 32)}

theorem push_onTop {v : BitVec 32} (h : push v n w = .ok () u) (hw : PlainRam w.s) (hn : n = 2 ∨ n = 4)
    (hl : l.length < 1000) (hroom : n * (l.length + 1) ≤ s.sp.toNat) (htop : OnTop n s w.s l) :
    OnTop n s u.s (lowBytes n v :: l) ∧ PlainRam u.s := by
  obtain ⟨on, off, rfl⟩ := push_eq_ok hw.ram (by omega) h
  exact ⟨htop.pushed hw (by omega) hl hroom v, hw.ram.pushed v n, State.wf_pushed hw.wf v n⟩

theorem pushSel_onTop {sel : BitVec 16} (h : pushSel sel n w = .ok () u) (hw : PlainRam w.s) (hn : n = 2 ∨ n = 4)
    (hl : l.length < 1000) (hroom : n * (l.length + 1) ≤ s.sp.toNat) (htop : OnTop n s w.s l) :
    ∃ x : BitVec 16, OnTop n s u.s (lowBytes n (x ++ sel) :: l) ∧ PlainRam u.s := by
  obtain ⟨x, env, hdrawn, heq⟩ := pushSel_eq sel n w
  have henv : Accesses w.s (w.inWorld env).s := accesses_env _ _ (by rw [hdrawn])
  exact ⟨x, push_onTop (heq.symm.trans h) (henv.plainRam hw) hn hl hroom (htop.congr rfl rfl rfl)⟩

theorem each_push_onTop {m : List (BitVec 32)} (h : each (fun v => push v 4) m w = .ok () u) (hw : PlainRam w.s)
    (hl : m.length + l.length < 1000) (hroom : 4 * (m.length + l.length) ≤ s.sp.toNat) (htop : OnTop 4 s w.s l) :
    OnTop 4 s u.s (m.reverse ++ l) ∧ PlainRam u.s := by
  induction m generalizing w l with
  | nil =>
    cases h
    exact ⟨htop, hw⟩
  | cons v m ih =>
    obtain ⟨_, v', hpush, h⟩ := bind_eq_ok.1 h
    rw [List.length_cons] at hl hroom
    obtain ⟨hone, hplain⟩ := push_onTop hpush hw (.inr rfl) (by omega) (by omega) htop
    rw [lowBytes_four] at hone
    have hall := ih h hplain (by rw [List.length_cons]; omega) (by rw [List.length_cons]; omega) hone
    rwa [List.reverse_cons, List.append_assoc]

theorem pushReturn_onTop (h : pushReturn n w = .ok () u) (hw : PlainRam w.s) (hn : n = 2 ∨ n = 4)
    (hroom : 2 * n ≤ w.s.sp.toNat) :
    ∃ x : BitVec 16, OnTop n w.s u.s [lowBytes n w.s.nextEip, lowBytes n (x ++ w.s.segs.cs.selector)] := by
  obtain ⟨x, env, v, hdrawn, hsel, heip⟩ := pushReturn_eq_ok h
  have henv : Accesses w.s (w.inWorld env).s := accesses_env _ _ (by rw [hdrawn])
  obtain ⟨hone, hplain⟩ := push_onTop hsel (henv.plainRam hw) hn (by decide) (by simp only [List.length_nil]; omega)
    ((OnTop.nil n w.s).congr rfl rfl rfl)
  exact ⟨x, (push_onTop heip hplain hn (by simp) (by simp only [List.length_cons, List.length_nil]; omega) hone).1⟩

theorem lo16_trunc (v : BitVec 32) : lo16 (Size.w16.trunc v) = lo16 v := by
  apply BitVec.eq_of_toNat_eq
  simp only [lo16, BitVec.extractLsb'_toNat, Nat.shiftRight_zero, Size.toNat_trunc, Size.bits]
  omega

/-- A selector is the low half of the item that holds it. -/
theorem lo16_lowBytes_append (hn : n = 2 ∨ n = 4) (x sel : BitVec 16) : lo16 (lowBytes n (x ++ sel)) = sel := by
  have hlow : lo16 (x ++ sel) = sel := BitVec.extractLsb'_append_eq_right
  obtain rfl | rfl := hn
  · rw [lowBytes_two]
    exact (lo16_trunc _).trans hlow
  · rw [lowBytes_four, hlow]

end Pushes

/-! ### Reads of the stack in plain memory -/

theorem memRead_eq_ok {r : SegReg} {off v : BitVec 32} {n : Nat} {w u : Work} (hram : AllRam w.s) (hn : 1 ≤ n)
    (h : memRead r off n w = .ok v u) :
    ∃ on off', u = { w with hitOn := on, hitOff := off' } ∧ v = w.s.valueAt ((w.s.seg r).base + off) n := by
  obtain ⟨la, w1, hseg, h⟩ := bind_eq_ok.1 h
  obtain ⟨rfl, rfl, -⟩ := segCheck_eq_ok hseg
  unfold dataRead at h
  simp only [M.run_bind, run_st, linAccess_flat hram.paging] at h
  cases hnote : noteData ((w1.s.seg r).base + off) n false w1 with
  | error e u => rw [hnote] at h; cases h
  | ok a w2 =>
    obtain ⟨on, off', rfl⟩ := noteData_eq_ok hnote
    rw [hnote] at h
    simp only [] at h
    rw [physReadAt_ram (w := { w1 with hitOn := on, hitOff := off' }) (fun p _ => hram.ram p) (span_ne_nil _ hn)] at h
    cases h
    exact ⟨on, off', rfl, rfl⟩

/-- The items that a CALL to an inner level copies (43 R176). -/
theorem gather_stackRead {l : List Nat} {vs : List (BitVec 32)} {w u : Work} (hram : AllRam w.s)
    (h : gather (fun k => stackRead (4 * k) 4) l w = .ok vs u) : u.s = w.s ∧ vs = l.map (w.s.stackItem 4) := by
  induction l generalizing w vs with
  | nil =>
    cases h
    exact ⟨rfl, rfl⟩
  | cons k l ih =>
    obtain ⟨v, w1, hread, h⟩ := bind_eq_ok.1 h
    obtain ⟨vs', w2, hrest, h⟩ := bind_eq_ok.1 h
    cases h
    obtain ⟨on, off, rfl, rfl⟩ := memRead_eq_ok hram (by decide) hread
    obtain ⟨hs, rfl⟩ := ih (by exact hram) hrest
    refine ⟨hs, ?_⟩
    rw [List.map_cons, State.stackItem, BitVec.add_assoc]
    rfl

end Sys2Proof.Machine
end


section
/-! The bookkeeping of a task switch: it has set EIP and keeps RF (44 R192; 61 R327). -/

namespace Sys2Proof.Machine

open Sys2Proof

-- One theorem after another, so that no more of them wait for each other than the memory limit has threads for.
set_option Elab.async false

/-- How the parts of a task switch treat the bookkeeping that tells how an instruction ends. -/
structure SwitchesW (w v : Work) : Prop where
  waiting : v.waiting = w.waiting
  repeating : v.repeating = w.repeating
  jumped : w.jumped = true → v.jumped = true
  keepRf : w.keepRf = true → v.keepRf = true

theorem switches_rel : StepRel SwitchesW where
  refl _ := ⟨rfl, rfl, id, id⟩
  trans _ _ _ h1 h2 := ⟨h2.waiting.trans h1.waiting, h2.repeating.trans h1.repeating, h2.jumped ∘ h1.jumped,
    h2.keepRf ∘ h1.keepRf⟩

section Switches

variable {α β : Type}

/-- `m` treats the bookkeeping as a part of a task switch does. -/
def Switches (m : M α) : Prop := Within SwitchesW m

theorem Within.switches {m : M α} (h : Within AccessesW m) : Switches m := by
  intro w
  have hsame := (h w).same
  rw [hsame]
  exact ⟨rfl, rfl, id, id⟩

theorem Switches.bind {x : M α} {f : α → M β} (hx : Switches x) (hf : ∀ a, Switches (f a)) : Switches (x >>= f) :=
  within_bind switches_rel hx hf

theorem Switches.ite {c : Prop} [Decidable c] {x y : M α} (hx : Switches x) (hy : Switches y) :
    Switches (if c then x else y) := within_ite hx hy

theorem Switches.attempt {x : M α} (h : Switches x) : Switches (Machine.attempt x) := within_attempt h

theorem Switches.pure {a : α} : Switches (pure a : M α) := within_pure switches_rel a

theorem Switches.st : Switches st := within_st switches_rel

theorem Switches.check {c : Bool} {e : Exc} : Switches (check c e) := within_check switches_rel c e

theorem Switches.need {c : Bool} {r : Refusal} : Switches (need c r) := within_need switches_rel c r

theorem Switches.checkSel {c : Bool} {k : CodeExc} {sel : BitVec 16} : Switches (checkSel c k sel) :=
  (checkSel_accesses c k sel).switches

theorem Switches.upd {f : State → State} : Switches (Machine.upd f) := fun _ => ⟨rfl, rfl, id, id⟩

theorem Switches.raiseFirst (l : List (Option Exc)) : Switches (raiseFirst l) := by
  induction l with
  | nil => exact .pure
  | cons o t ih =>
    cases o with
    | none => exact ih
    | some e => exact within_raise switches_rel e

/-! ### The incoming task (44 R192 part D) -/

theorem TaskItem.load_switches (kind : SwitchKind) (v : BitVec 32) (i : TaskItem) : Switches (i.load kind v) := by
  cases i with
  | flags => exact Switches.bind .need fun _ => .upd
  | _ =>
    rw [TaskItem.load]
    exact .upd

theorem loadItem_switches (kind : SwitchKind) (i : TaskItem) : Switches (loadItem kind i) := by
  refine Switches.bind .st fun _ => .bind (.attempt (linRead_accesses _ _ _).switches) fun r => ?_
  cases r with
  | ok v => exact .bind (TaskItem.load_switches _ _ _) fun _ => .pure
  | error e => exact .bind draw_accesses.switches fun _ => .bind (TaskItem.load_switches _ _ _) fun _ => .pure

theorem switchDirectory_switches : Switches switchDirectory := by
  refine .bind .st fun _ => Switches.ite (.bind (.attempt (linRead_accesses _ _ _).switches) fun r => ?_) .pure
  cases r with
  | ok v => exact .bind .upd fun _ => .pure
  | error e => exact .pure

theorem loadTask_switches (kind : SwitchKind) : Switches (loadTask kind) :=
  .bind .upd fun _ => .bind switchDirectory_switches fun _ =>
    .bind (within_gather switches_rel (loadItem_switches kind) _) fun _ => .raiseFirst _

theorem loadTaskLdt_switches : Switches loadTaskLdt :=
  .bind .st fun _ => Switches.ite .pure <| .bind .checkSel fun _ => .bind (fetchDesc_accesses _ _).switches fun _ =>
    .bind .checkSel fun _ => .bind .checkSel fun _ => .upd

theorem loadTaskCs_switches : Switches loadTaskCs :=
  .bind .st fun _ => .bind .checkSel fun _ => .bind (fetchDesc_accesses _ _).switches fun _ => .bind .checkSel fun _ =>
    .bind .checkSel fun _ => .bind .checkSel fun _ => .bind .checkSel fun _ =>
      .bind (setAccessed_accesses _ _).switches fun _ => .upd

theorem loadTaskSs_switches : Switches loadTaskSs :=
  .bind .st fun _ => .bind .checkSel fun _ => .bind (fetchDesc_accesses _ _).switches fun _ => .bind .checkSel fun _ =>
    .bind .checkSel fun _ => .bind .checkSel fun _ => .bind .checkSel fun _ =>
      .bind (setAccessed_accesses _ _).switches fun _ => .upd

theorem loadTaskData_switches (r : SegReg) : Switches (loadTaskData r) :=
  .bind .st fun _ => Switches.ite .pure <| .bind (fetchDesc_accesses _ _).switches fun _ => .bind .checkSel fun _ =>
    .bind .checkSel fun _ => .bind .checkSel fun _ => .bind (setAccessed_accesses _ _).switches fun _ => .upd

theorem enterTask_switches (kind : SwitchKind) : Switches (enterTask kind) :=
  .bind (loadTask_switches kind) fun _ => .bind loadTaskLdt_switches fun _ => .bind loadTaskCs_switches fun _ =>
    .bind loadTaskSs_switches fun _ => .bind (within_each switches_rel loadTaskData_switches _) fun _ => .bind .st fun _ =>
      .bind extBit_accesses.switches fun _ => .bind .check fun _ => .bind (linRead_accesses _ _ _).switches fun _ =>
        Switches.ite .upd .pure

/-! ### The outgoing task (44 R192 parts A to C) -/

/-- Where `m` ends well, `Q` holds. -/
def EndsIn (Q : Work → Prop) (m : M α) : Prop := ∀ w a v, m w = .ok a v → Q v

theorem EndsIn.bind {Q : Work → Prop} {x : M α} {f : α → M β} (hf : ∀ a, EndsIn Q (f a)) : EndsIn Q (x >>= f) := by
  intro w b u h
  obtain ⟨a, v, -, h⟩ := bind_eq_ok.1 h
  exact hf a v b u h

theorem EndsIn.ite {Q : Work → Prop} {c : Prop} [Decidable c] {x y : M α} (hx : EndsIn Q x) (hy : EndsIn Q y) :
    EndsIn Q (if c then x else y) := by
  split
  · exact hx
  · exact hy

variable (kind : SwitchKind) (nsel : BitVec 16) (d : Desc) (e : BitVec 32) (fl : Flags)

theorem leaveTask_switches : Switches (leaveTask kind nsel d e fl) := by
  refine .bind .st fun _ => .bind .need fun _ => .bind .checkSel fun _ => .bind .checkSel fun _ => .bind .checkSel fun _ =>
    .bind (probeSwitch_accesses _ _ _).switches fun _ => .bind .need fun _ =>
      .bind (saveTask_accesses _ _).switches fun _ => ?_
  extract_lets ended commit enterNew
  have hEnded : ∀ u, Switches (ended u) := fun _ => .bind (fun _ => ⟨rfl, rfl, fun _ => rfl, fun _ => rfl⟩) fun _ => .upd
  have hCommit : ∀ u, Switches (commit u) := fun _ =>
    .bind .upd fun _ => Switches.ite (.bind (linWrite_accesses _ _ _ _).switches hEnded) (hEnded ())
  have hEnterNew : ∀ u, Switches (enterNew u) := fun _ =>
    Switches.ite (hCommit ()) (.bind (setBusy_accesses _).switches hCommit)
  exact Switches.ite (hEnterNew ()) (.bind (clearBusy_accesses _).switches hEnterNew)

theorem leaveTask_marks : EndsIn (fun v => v.jumped = true ∧ v.keepRf = true) (leaveTask kind nsel d e fl) := by
  refine .bind fun _ => .bind fun _ => .bind fun _ => .bind fun _ => .bind fun _ => .bind fun _ => .bind fun _ =>
    .bind fun _ => ?_
  extract_lets ended commit enterNew
  have hEnded : ∀ u, EndsIn (fun v => v.jumped = true ∧ v.keepRf = true) (ended u) := by
    intro _ w a v h
    cases h
    exact ⟨rfl, rfl⟩
  have hCommit : ∀ u, EndsIn (fun v => v.jumped = true ∧ v.keepRf = true) (commit u) := fun _ =>
    .bind fun _ => .ite (.bind hEnded) (hEnded ())
  have hEnterNew : ∀ u, EndsIn (fun v => v.jumped = true ∧ v.keepRf = true) (enterNew u) := fun _ =>
    .ite (hCommit ()) (.bind hCommit)
  exact .ite (hEnterNew ()) (.bind hEnterNew)

/-- A switch that goes through, from where an instruction has only accessed memory. -/
theorem taskSwitch_switched {w v : Work} (h : taskSwitch kind nsel d e fl w = .ok () v) (hwaiting : w.waiting = false)
    (hrepeating : w.repeating = false) : SwitchedTasks v := by
  obtain ⟨_, u, hleave, henter⟩ := bind_eq_ok.1 h
  have hleft := (leaveTask_switches kind nsel d e fl).ok hleave
  obtain ⟨hjumped, hkeep⟩ := leaveTask_marks kind nsel d e fl _ _ _ hleave
  have hentered := (enterTask_switches kind).ok henter
  exact ⟨hentered.waiting.trans (hleft.waiting.trans hwaiting), hentered.jumped hjumped,
    hentered.repeating.trans (hleft.repeating.trans hrepeating), hentered.keepRf hkeep⟩

/-- As `taskSwitch_switched`, through a task gate (44 R190); it is no delivery of a debug trap, so it does not loop. -/
theorem switchThroughGate_switched {w v : Work} (h : switchThroughGate kind nsel e fl w = .ok () v)
    (htrap : w.taskTrap = false) (hwaiting : w.waiting = false) (hrepeating : w.repeating = false) : SwitchedTasks v := by
  obtain ⟨_, w1, hsel, hfetch⟩ := bind_eq_ok.1 h
  obtain ⟨-, rfl⟩ := checkSel_eq_ok hsel
  obtain ⟨d, w2, hd, hrest⟩ := bind_eq_ok.1 hfetch
  have hsame := ((fetchDesc_accesses nsel .gp).ok hd).same
  obtain ⟨_, w3, hneed, hchecked⟩ := bind_eq_ok.1 hrest
  obtain ⟨-, rfl⟩ := need_eq_ok.1 hneed
  obtain ⟨_, w4, htype, hloop⟩ := bind_eq_ok.1 hchecked
  obtain ⟨-, rfl⟩ := checkSel_eq_ok htype
  obtain ⟨w5, w6, hget, hswitch⟩ := bind_eq_ok.1 hloop
  cases hget
  have hno : debugLoop w4 nsel d = false := by
    rw [debugLoop, hsame, htrap]
    rfl
  rw [hno, if_neg Bool.false_ne_true] at hswitch
  exact taskSwitch_switched kind nsel d e fl hswitch (by rw [hsame]; exact hwaiting) (by rw [hsame]; exact hrepeating)

end Switches

end Sys2Proof.Machine
end


section
/-! Far JMP and CALL in protected mode (43 R168-R180): the tests in their order, and the entry of a code segment. -/

namespace Sys2Proof.Machine

open Sys2Proof

-- One theorem after another, so that no more of them wait for each other than the memory limit has threads for.
set_option Elab.async false

/-! ### Tests in their order -/

section Tests

variable {α : Type} {i : Instr} {s : State} {w : Work} {p : Prop} {c : Bool}

theorem RunsTo.checked {e : Exc} {m : Unit → M Unit} (h : RunsTo i s ((check c e >>= m) w)) (ready : Ready s)
    (hp : c = true ↔ p) : (¬ p → exec i s = raiseExc 6 (rollback s w) e) ∧ (p → RunsTo i s (m () w)) := by
  rw [M.run_bind, run_check] at h
  cases c with
  | true => exact ⟨fun hn => absurd (hp.1 rfl) hn, fun _ => h⟩
  | false => exact ⟨fun _ => h.raises ready, fun hq => absurd (hp.2 hq) Bool.false_ne_true⟩

theorem RunsTo.tested {k : CodeExc} {sel : BitVec 16} {m : Unit → M Unit} (h : RunsTo i s ((checkSel c k sel >>= m) w))
    (ready : Ready s) (hw : AccessesW s.work w) (hp : c = true ↔ p) :
    (¬ p → exec i s = raiseExc 6 (rollback s w) (k.mk (sel &&& 0xFFFC#16))) ∧ (p → RunsTo i s (m () w)) := by
  rw [M.run_bind, run_checkSel, hw.code_work] at h
  cases c with
  | true => exact ⟨fun hn => absurd (hp.1 rfl) hn, fun _ => h⟩
  | false => exact ⟨fun _ => h.raises ready, fun hq => absurd (hp.2 hq) Bool.false_ne_true⟩

/-- What a part of a meaning raises the instruction raises; otherwise it goes on. -/
theorem RunsTo.stage {x : M α} {m : α → M Unit} (h : RunsTo i s ((x >>= m) w)) (ready : Ready s) :
    (∀ e u, x w = .error (.exc e) u → exec i s = raiseExc 6 (rollback s u) e) ∧
    (∀ a u, x w = .ok a u → RunsTo i s (m a u)) := by
  refine ⟨fun e u hx => ?_, fun a u hx => ?_⟩
  · rw [bind_of_error hx] at h
    exact h.raises ready
  · rwa [bind_of_ok hx] at h

/-- A selector outside its table is #GP (20 R70). -/
theorem RunsTo.outside {sel : BitVec 16} {m : Desc → M Unit} (h : RunsTo i s ((fetchDesc sel .gp >>= m) w))
    (ready : Ready s) (hw : AccessesW s.work w) (hout : descAddr s sel = none) :
    exec i s = raiseExc 6 (rollback s w) (.gp (sel &&& 0xFFFC#16)) := by
  rw [← hw.code_work]
  exact (h.stage ready).1 _ _ (fetchDesc_outside ((hw.state.descAddr sel).trans hout))

end Tests

/-! ### The entry of a code segment (43 R169, R170, R174) -/

/-- The end of a far JMP or CALL to a code segment of the same level, its target tested. -/
def enterCode (kind : TransferKind) (n : Nat) (sel : BitVec 16) (pl : BitVec 2) (d : Desc) (eip : BitVec 32) : M Unit :=
  saveReturn kind n >>= fun _ => loadCs sel pl d eip

/-- What is on the stack after a CALL that saved items of `n` bytes. -/
theorem OnTop.return_items {n : Nat} {s t y : State} {x : BitVec 16} (hn : n = 2 ∨ n = 4) (ht : Accesses s t)
    (h : OnTop n s y [lowBytes n t.nextEip, lowBytes n (x ++ t.segs.cs.selector)]) :
    y.sp = s.sp - BitVec.ofNat 32 (2 * n) ∧ y.stackItem n 0 = lowBytes n s.nextEip ∧
    lo16 (y.stackItem n 1) = s.segs.cs.selector ∧
    ∀ a, a ∉ span (s.segs.ss.base + y.sp) (2 * n) → y.byteAt a = s.byteAt a := by
  have hlen : n * [lowBytes n t.nextEip, lowBytes n (x ++ t.segs.cs.selector)].length = 2 * n := Nat.mul_comm _ _
  refine ⟨hlen ▸ h.sp, (h.items 0 _ rfl).trans (by rw [ht.nextEip]), ?_, fun a ha => h.bytes a ?_⟩
  · rw [h.items 1 _ rfl, lo16_lowBytes_append hn, ht.segs]
  · rwa [hlen, h.ss]

/-- The entry of the segment `t` at `target` by what goes on from `w`, as `Obligations.FarJumpToCode` has it. -/
def EntersCode (s : State) (i : Instr) (kind : TransferKind) (n : Nat) (w : Work) (tsel : BitVec 16) (t : Desc)
    (target : BitVec 32) : Prop :=
  (kind = .call → ∀ e u, pushReturn n w = .error (.exc e) u → exec i s = raiseExc 6 (rollback s u) e) ∧
  ∀ u v, (if kind = .call then pushReturn n else pure ()) w = .ok () u → setAccessed tsel t u = .ok () v →
  ∃ y, exec i s = .next y ∧
    EndsAt s { v.s.setSeg .cs (t.toSeg (withRpl tsel s.cpl)) with prefetch := Prefetch.empty } target y ∧
    KeepsSystem s { y with segs := s.segs } ∧
    (kind = .jmp → y.gpr = s.gpr ∧ TablesOnly s y) ∧
    (kind = .call → y.gpr = ((s.setSp (s.pushAddr n)).setSp ((s.setSp (s.pushAddr n)).pushAddr n)).gpr ∧
      (AllRam s → Memory.wf s.mem = true → t.a = true → 2 * n ≤ s.sp.toNat →
        y.sp = s.sp - BitVec.ofNat 32 (2 * n) ∧ y.stackItem n 0 = lowBytes n s.nextEip ∧
        lo16 (y.stackItem n 1) = s.segs.cs.selector ∧
        ∀ a, a ∉ span (s.segs.ss.base + y.sp) (2 * n) → y.byteAt a = s.byteAt a))

theorem TestsW.tablesOnly {s t : State} {v : Work} (h : TestsW s.work v) (hmem : t.mem = v.s.mem) : TablesOnly s t := by
  intro hm a
  rw [State.byteAt, hmem]
  exact h.tables hm a

/-- The registers that the pushes of a CALL leave, from where its instruction has only accessed memory. -/
theorem ReturnPushedW.gpr_of_accesses {n : Nat} {s : State} {w u : Work} (h : ReturnPushedW n w u) (hw : Accesses s w.s) :
    u.s.gpr = ((s.setSp (s.pushAddr n)).setSp ((s.setSp (s.pushAddr n)).pushAddr n)).gpr := by
  have hss : w.s.segs.ss = s.segs.ss := congrArg _ hw.segs
  have hset (a : BitVec 32) : (w.s.setSp a).gpr = (s.setSp a).gpr := State.setSp_congr hw.gpr hss a
  rw [h.gpr, State.pushAddr_congr hw.gpr hss, State.pushAddr_congr (hset _) hss]
  exact State.setSp_congr (hset _) hss _

theorem RunsTo.enters {s : State} {i : Instr} {kind : TransferKind} {n : Nat} {w : Work} {tsel : BitVec 16} {t : Desc}
    {target : BitVec 32} (h : RunsTo i s (enterCode kind n tsel s.cpl t target w)) (ready : Ready s)
    (hw : ReadsW s.work w) (hn : n = 2 ∨ n = 4) : EntersCode s i kind n w tsel t target := by
  have hacc : Accesses s w.s := hw.acc.state
  refine ⟨fun hkind e u hpush => (h.stage ready).1 e u (by rwa [saveReturn, if_pos hkind]), fun u v hsave hset => ?_⟩
  have hsaved : StacksW w u := saveReturn_stacks hsave
  have htests : TestsW u v := (setAccessed_tests tsel t).ok hset
  have hload := (h.stage ready).2 () u hsave
  rw [loadCs_ok hset] at hload
  obtain ⟨y, hexec, hends, hkeeps, -⟩ := hload.entersCode ready <|
    transfers_rel.trans _ _ _ (transfers_rel.trans _ _ _ hw.acc.transfers hsaved.transfers) htests.acc.transfers
  have hcpl : y.cpl = s.cpl := hends.cpl.trans (htests.acc.state.cpl.trans (hsaved.cpl.trans hacc.cpl))
  have hgpr : y.gpr = u.s.gpr := hends.gpr.trans htests.acc.state.gpr
  refine ⟨y, hexec, hends, hcpl ▸ hkeeps, fun hkind => ?jmp, fun hkind => ?call⟩
  case jmp =>
    subst hkind
    cases hsave
    exact ⟨hgpr.trans hacc.gpr, (tests_rel.trans _ _ _ hw.tests htests).tablesOnly hends.mem⟩
  case call =>
    subst hkind
    refine ⟨hgpr.trans ((pushReturn_pushed hsave).gpr_of_accesses hacc), fun hram hm ha hroom => ?_⟩
    rw [setAccessed, if_pos ha] at hset
    cases hset
    have hread : Unstored s w.s := hw.unstored hm hram.paging
    obtain ⟨x, htop⟩ := pushReturn_onTop hsave (hacc.plainRam ⟨hram, hm⟩) hn (by rwa [hacc.sp])
    exact ((htop.of_unstored hread).congr hends.mem hgpr (by rw [hends.segs]; rfl)).return_items hn hacc

/-! ### A code segment (43 R169, R170) -/

/-- A far JMP or CALL may name the code segment at `cpl` with a selector of `rpl`. -/
def permits (d : Desc) (cpl rpl : BitVec 2) : Bool :=
  (d.ec || (d.dpl == cpl && rpl.ule cpl)) && (!d.ec || d.dpl.ule cpl)

theorem permits_iff {d : Desc} {cpl rpl : BitVec 2} : permits d cpl rpl = true ↔
    if d.ec then d.dpl.toNat ≤ cpl.toNat else d.dpl = cpl ∧ rpl.toNat ≤ cpl.toNat := by
  cases hec : d.ec with
  | true => simp [permits, hec, BitVec.ule]
  | false => simp [permits, hec, BitVec.ule]

theorem farDirect_eq (kind : TransferKind) (sel : BitVec 16) (d : Desc) (off : BitVec 32) (w : Work) :
    farDirect kind sel d off w = (checkSel (permits d w.s.cpl (selRpl sel)) .gp sel >>= fun _ =>
      checkSel d.p .np sel >>= fun _ => check (off.ule d.effLimit) (.gp 0) >>= fun _ => enterCode kind w.s.os.bytes sel w.s.cpl d off) w := by
  simp only [permits, ← checkSel_and]
  cases kind <;> rfl

theorem os_bytes (s : State) : s.os.bytes = 2 ∨ s.os.bytes = 4 := by
  cases s.os with
  | w16 => exact .inl rfl
  | w32 => exact .inr rfl

section Classes

variable {s : State} {i : Instr} {kind : TransferKind} {sel : BitVec 16} {d : Desc} {off : BitVec 32} {w : Work}

/-- The target of a far JMP or CALL is tested against the limit (43 R169). -/
theorem ule_iff {a b : BitVec 32} : a.ule b = true ↔ a.toNat ≤ b.toNat := decide_eq_true_iff

theorem RunsTo.farCode (h : RunsTo i s (farDirect kind sel d off w)) (ready : Ready s) (hw : ReadsW s.work w) :
    let permitted := if d.ec then d.dpl.toNat ≤ s.cpl.toNat else d.dpl = s.cpl ∧ (selRpl sel).toNat ≤ s.cpl.toNat
    let code := sel &&& 0xFFFC#16
    (¬ permitted → exec i s = raiseExc 6 (rollback s w) (.gp code)) ∧
    (permitted → d.p = false → exec i s = raiseExc 6 (rollback s w) (.np code)) ∧
    (permitted → d.p = true → d.effLimit.toNat < off.toNat → exec i s = raiseExc 6 (rollback s w) (.gp 0)) ∧
    (permitted → d.p = true → off.toNat ≤ d.effLimit.toNat → EntersCode s i kind s.os.bytes w sel d off) := by
  intro permitted code
  rw [farDirect_eq, hw.acc.state.cpl, hw.acc.state.os] at h
  have hpermitted := h.tested ready hw.acc permits_iff
  have hpresent := fun hp => (hpermitted.2 hp).tested ready hw.acc Iff.rfl
  have hwithin := fun hp hq => ((hpresent hp).2 hq).checked ready ule_iff
  exact ⟨hpermitted.1, fun hp hq => (hpresent hp).1 (ne_true_of_eq_false hq),
    fun hp hq hlimit => (hwithin hp hq).1 (Nat.not_le.2 hlimit),
    fun hp hq hlimit => ((hwithin hp hq).2 hlimit).enters ready hw (os_bytes s)⟩

/-! ### A TSS and a task gate (44 R189, R190) -/

theorem RunsTo.switchStage {x : M Unit} (h : RunsTo i s (x w)) (ready : Ready s)
    (hx : ∀ v, x w = .ok () v → SwitchedTasks v) :
    (∀ e v, x w = .error (.exc e) v → exec i s = raiseExc 6 (rollback s v) e) ∧
    (∀ v, x w = .ok () v → ∃ y, exec i s = .next y ∧ Switched s v.s y) := by
  refine ⟨fun e v hv => ?_, fun v hv => ?_⟩
  · rw [hv] at h
    exact h.raises ready
  · have hswitched := hx v hv
    rw [hv] at h
    exact h.switches ready hswitched

theorem RunsTo.farTss (h : RunsTo i s (farTss kind sel d w)) (ready : Ready s) (hw : AccessesW s.work w) :
    let visible := s.cpl.toNat ≤ d.dpl.toNat ∧ (selRpl sel).toNat ≤ d.dpl.toNat
    let switch := taskSwitch kind.switch sel d s.nextEip s.flags w
    (selTi sel = true ∨ ¬ visible → exec i s = raiseExc 6 (rollback s w) (.gp (sel &&& 0xFFFC#16))) ∧
    (selTi sel = false → visible → ∀ e v, switch = .error (.exc e) v → exec i s = raiseExc 6 (rollback s v) e) ∧
    (selTi sel = false → visible → ∀ v, switch = .ok () v → ∃ y, exec i s = .next y ∧ Switched s v.s y) := by
  intro visible switch
  have hglobal := (show RunsTo i s ((checkSel (!selTi sel) .gp sel >>= fun _ =>
    checkSel (privOk d.dpl w.s.cpl (selRpl sel)) .gp sel >>= fun _ =>
      taskSwitch kind.switch sel d w.s.nextEip w.s.flags) w) from h).tested (p := selTi sel = false) ready hw (by simp)
  rw [hw.state.cpl, hw.state.nextEip, hw.state.flags] at hglobal
  have hvisible := fun hti => (hglobal.2 hti).tested ready hw privOk_iff
  have hswitch := fun hti hv => ((hvisible hti).2 hv).switchStage ready fun v hok =>
    taskSwitch_switched _ _ _ _ _ hok (by rw [hw.same]; rfl) (by rw [hw.same]; rfl)
  refine ⟨fun hfails => ?_, fun hti hv => (hswitch hti hv).1, fun hti hv => (hswitch hti hv).2⟩
  cases hti : selTi sel with
  | true => exact hglobal.1 (ne_false_of_eq_true hti)
  | false => exact (hvisible hti).1 (hfails.resolve_left (ne_true_of_eq_false hti))

theorem RunsTo.farTaskGate (h : RunsTo i s (farTaskGate kind sel d w)) (ready : Ready s) (hw : AccessesW s.work w) :
    let visible := s.cpl.toNat ≤ d.dpl.toNat ∧ (selRpl sel).toNat ≤ d.dpl.toNat
    let switch := switchThroughGate kind.switch d.gateSel s.nextEip s.flags w
    let code := sel &&& 0xFFFC#16
    (¬ visible → exec i s = raiseExc 6 (rollback s w) (.gp code)) ∧
    (visible → d.p = false → exec i s = raiseExc 6 (rollback s w) (.np code)) ∧
    (visible → d.p = true → ∀ e v, switch = .error (.exc e) v → exec i s = raiseExc 6 (rollback s v) e) ∧
    (visible → d.p = true → ∀ v, switch = .ok () v → ∃ y, exec i s = .next y ∧ Switched s v.s y) := by
  intro visible switch code
  have hvisible := (show RunsTo i s ((checkSel (privOk d.dpl w.s.cpl (selRpl sel)) .gp sel >>= fun _ =>
    checkSel d.p .np sel >>= fun _ => switchThroughGate kind.switch d.gateSel w.s.nextEip w.s.flags) w) from h).tested
      (p := visible) ready hw (by rw [privOk_iff, hw.state.cpl]; exact Iff.rfl)
  rw [hw.state.nextEip, hw.state.flags] at hvisible
  have hpresent := fun hv => (hvisible.2 hv).tested ready hw Iff.rfl
  have hswitch := fun hv hp => ((hpresent hv).2 hp).switchStage ready fun v hok =>
    switchThroughGate_switched _ _ _ _ hok (by rw [hw.same]; rfl) (by rw [hw.same]; rfl) (by rw [hw.same]; rfl)
  exact ⟨hvisible.1, fun hv hp => (hpresent hv).1 (ne_true_of_eq_false hp), fun hv hp => (hswitch hv hp).1,
    fun hv hp => (hswitch hv hp).2⟩

end Classes

end Sys2Proof.Machine
end


section
/-! A CALL to an inner level, and far JMP and CALL through a call gate (43 R173-R176). -/

namespace Sys2Proof.Machine

open Sys2Proof

-- One theorem after another, so that no more of them wait for each other than the memory limit has threads for.
set_option Elab.async false

/-! ### The stack of the inner level (43 R176) -/

/-- The work after a switch to the stack of the level `pl`. -/
def Work.onStack (w : Work) (g : Seg) (pl : BitVec 2) (esp : BitVec 32) : Work :=
  { w with s := State.setReg { w.s.setSeg .ss g with cpl := pl } .esp esp }

theorem enterStack_ok {nss : BitVec 16} {d : Desc} {w u : Work} (h : setAccessed nss d w = .ok () u) (pl : BitVec 2)
    (esp : BitVec 32) : enterStack pl d nss esp w = .ok () (u.onStack (d.toSeg nss) pl esp) := by
  simp only [enterStack, M.run_bind, h, run_upd]
  rfl

theorem TransfersW.onStack {w v : Work} (h : TransfersW w v) (g : Seg) (pl : BitVec 2) (esp : BitVec 32) :
    TransfersW w (v.onStack g pl esp) := h

theorem Work.sp_onStack (w : Work) (g : Seg) (pl : BitVec 2) (esp : BitVec 32) :
    (w.onStack g pl esp).s.sp = (w.onStack g pl esp).s.stackSize.trunc esp := rfl

/-- What a CALL to an inner level puts on the new stack; `s` is the state before it, `params` what the gate has copied. -/
def pushFrame (s : State) (params : List (BitVec 32)) : M Unit :=
  pushSel s.segs.ss.selector 4 >>= fun _ => push (s.reg .esp) 4 >>= fun _ =>
    each (fun v => push v 4) params.reverse >>= fun _ => pushSel s.segs.cs.selector 4 >>= fun _ => push s.nextEip 4

/-- A CALL to an inner level once it has the inner stack `q`. -/
def callOnto (s : State) (g : Desc) (tsel : BitVec 16) (t : Desc) (q : Desc × BitVec 16 × BitVec 32) : M Unit :=
  check (g.gateOffset.ule t.effLimit) (.gp 0) >>= fun _ =>
    gather (fun k => stackRead (4 * k) 4) (List.range g.gateCount) >>= fun params =>
      enterStack t.dpl q.1 q.2.1 q.2.2 >>= fun _ => pushFrame s params >>= fun _ => loadCs tsel t.dpl t g.gateOffset

theorem callInner_eq (g : Desc) (tsel : BitVec 16) (t : Desc) (w : Work) :
    callInner g tsel t w = (innerStack t.dpl (4 + g.gateCount) >>= callOnto w.s g tsel t) w := by
  unfold callOnto
  simp only [pushFrame, bind_assoc]
  rfl

theorem Within.stack {α : Type} {m : M α} (h : Within AccessesW m) : Within StacksW m := fun w => (h w).stack

theorem push_stack (v : BitVec 32) (n : Nat) : Within StacksW (push v n) :=
  within_bind stacks_rel (within_st stacks_rel) fun _ => within_bind stacks_rel (within_need stacks_rel _ _) fun _ =>
    within_bind stacks_rel (memWrite_accesses _ _ _ _).stack fun _ w => stacks_rel.refl w

theorem pushSel_stack (sel : BitVec 16) (n : Nat) : Within StacksW (pushSel sel n) :=
  within_bind stacks_rel (within_ite draw16_accesses.stack (within_pure stacks_rel 0)) fun _ => push_stack _ n

theorem pushFrame_stack (s : State) (params : List (BitVec 32)) : Within StacksW (pushFrame s params) :=
  within_bind stacks_rel (pushSel_stack _ 4) fun _ => within_bind stacks_rel (push_stack _ 4) fun _ =>
    within_bind stacks_rel (within_each stacks_rel (push_stack · 4) _) fun _ =>
      within_bind stacks_rel (pushSel_stack _ 4) fun _ => push_stack _ 4

/-- The new stack where memory is plain, the top item first. -/
theorem pushFrame_onTop {s : State} {params : List (BitVec 32)} {w u : Work} (h : pushFrame s params w = .ok () u)
    (hw : PlainRam w.s) (hlen : params.length < 900) (hroom : 4 * (4 + params.length) ≤ w.s.sp.toNat) :
    ∃ x y : BitVec 16, OnTop 4 w.s u.s
      (s.nextEip :: (x ++ s.segs.cs.selector) :: (params ++ [s.reg .esp, y ++ s.segs.ss.selector])) := by
  obtain ⟨_, w1, hss, h1⟩ := bind_eq_ok.1 h
  obtain ⟨_, w2, hesp, h2⟩ := bind_eq_ok.1 h1
  obtain ⟨_, w3, hparams, h3⟩ := bind_eq_ok.1 h2
  obtain ⟨_, w4, hcs, heip⟩ := bind_eq_ok.1 h3
  obtain ⟨y, htop1, hw1⟩ := pushSel_onTop hss hw (.inr rfl) (by decide) (by simp only [List.length_nil]; omega) (.nil 4 w.s)
  obtain ⟨htop2, hw2⟩ := push_onTop hesp hw1 (.inr rfl) (by simp)
    (by simp only [List.length_cons, List.length_nil]; omega) htop1
  obtain ⟨htop3, hw3⟩ := each_push_onTop hparams hw2 (by simp; omega) (by simp; omega) htop2
  obtain ⟨x, htop4, hw4⟩ := pushSel_onTop hcs hw3 (.inr rfl) (by simp; omega) (by simp; omega) htop3
  obtain ⟨htop5, -⟩ := push_onTop heip hw4 (.inr rfl) (by simp; omega) (by simp; omega) htop4
  rw [List.reverse_reverse] at htop5
  simp only [lowBytes_four] at htop5
  exact ⟨x, y, htop5⟩

/-- The stages of a CALL to an inner level that goes through. -/
structure CalledInner (g : Desc) (tsel : BitVec 16) (t : Desc) (w v : Work) (d : Desc) (nss : BitVec 16) (nesp : BitVec 32)
    (params : List (BitVec 32)) (w1 w2 w3 w4 w5 : Work) : Prop where
  inner : innerStack t.dpl (4 + g.gateCount) w = .ok (d, nss, nesp) w1
  copied : gather (fun k => stackRead (4 * k) 4) (List.range g.gateCount) w1 = .ok params w2
  accessedSs : setAccessed nss d w2 = .ok () w3
  pushed : pushFrame w.s params (w3.onStack (d.toSeg nss) t.dpl nesp) = .ok () w4
  accessedCs : setAccessed tsel t w4 = .ok () w5
  end_ : v = w5.atCode (t.toSeg (withRpl tsel t.dpl)) g.gateOffset

theorem callInner_eq_ok {g : Desc} {tsel : BitVec 16} {t : Desc} {w v : Work} (h : callInner g tsel t w = .ok () v) :
    ∃ d nss nesp params w1 w2 w3 w4 w5, CalledInner g tsel t w v d nss nesp params w1 w2 w3 w4 w5 := by
  rw [callInner_eq] at h
  obtain ⟨⟨d, nss, nesp⟩, w1, hinner, h1⟩ := bind_eq_ok.1 h
  obtain ⟨_, w1', hwithin, h2⟩ := bind_eq_ok.1 h1
  obtain ⟨-, rfl⟩ := check_eq_ok.1 hwithin
  obtain ⟨params, w2, hcopied, h3⟩ := bind_eq_ok.1 h2
  obtain ⟨_, w3', henter, h4⟩ := bind_eq_ok.1 h3
  obtain ⟨_, w3, hset, -⟩ := bind_eq_ok.1 henter
  cases (enterStack_ok hset t.dpl nesp).symm.trans henter
  obtain ⟨_, w4, hpushed, hload⟩ := bind_eq_ok.1 h4
  obtain ⟨_, w5, hset', -⟩ := bind_eq_ok.1 hload
  cases (loadCs_ok hset' t.dpl g.gateOffset).symm.trans hload
  exact ⟨d, nss, nesp, params, w1', w2, w3, w4, w5, hinner, hcopied, hset, hpushed, hset', rfl⟩

section CalledInner

variable {s y : State} {g : Desc} {tsel : BitVec 16} {t : Desc} {w v : Work} {d : Desc} {nss : BitVec 16} {nesp : BitVec 32}
  {params : List (BitVec 32)} {w1 w2 w3 w4 w5 : Work}

theorem CalledInner.innerReads (h : CalledInner g tsel t w v d nss nesp params w1 w2 w3 w4 w5) : AccessesW w w3 :=
  accesses_rel.trans _ _ _ ((innerStack_accesses _ _).ok h.inner) <|
    accesses_rel.trans _ _ _ ((within_gather accesses_rel (fun k => stackRead_accesses (4 * k) 4) _).ok h.copied)
      ((setAccessed_accesses _ _).ok h.accessedSs)

theorem CalledInner.transfers (h : CalledInner g tsel t w v d nss nesp params w1 w2 w3 w4 w5) : TransfersW w v := by
  have hpushed := ((pushFrame_stack _ _).ok h.pushed).transfers
  have hset : AccessesW w4 w5 := (setAccessed_accesses _ _).ok h.accessedCs
  rw [h.end_]
  exact transfers_rel.trans _ _ _ (h.innerReads.transfers.onStack _ _ _) <|
    transfers_rel.trans _ _ _ hpushed (hset.transfers.atCode _ _)

theorem CalledInner.segs (h : CalledInner g tsel t w v d nss nesp params w1 w2 w3 w4 w5) :
    v.s.segs = { w.s.segs with cs := t.toSeg (withRpl tsel t.dpl), ss := d.toSeg nss } := by
  have hset : AccessesW w4 w5 := (setAccessed_accesses _ _).ok h.accessedCs
  rw [h.end_, ← h.innerReads.state.segs]
  change { w5.s.segs with cs := t.toSeg (withRpl tsel t.dpl) } = _
  rw [hset.state.segs, ((pushFrame_stack _ _).ok h.pushed).segs]
  rfl

theorem CalledInner.cpl (h : CalledInner g tsel t w v d nss nesp params w1 w2 w3 w4 w5) : v.s.cpl = t.dpl := by
  have hset : AccessesW w4 w5 := (setAccessed_accesses _ _).ok h.accessedCs
  rw [h.end_]
  exact hset.state.cpl.trans ((pushFrame_stack _ _).ok h.pushed).cpl

/-- The items of the frame that `pushFrame` makes (43 R176). -/
theorem OnTop.frame_items {p : State} {eip esp : BitVec 32} {x x' cs ss : BitVec 16}
    (h : OnTop 4 p y (eip :: (x ++ cs) :: (params ++ [esp, x' ++ ss]))) :
    y.stackItem 4 0 = eip ∧ lo16 (y.stackItem 4 1) = cs ∧
    (∀ k v, params[k]? = some v → y.stackItem 4 (2 + k) = v) ∧ y.stackItem 4 (2 + params.length) = esp ∧
    lo16 (y.stackItem 4 (3 + params.length)) = ss := by
  have hlow (x sel : BitVec 16) : lo16 (x ++ sel) = sel := by
    rw [← lowBytes_four (x ++ sel)]
    exact lo16_lowBytes_append (.inr rfl) x sel
  have hrest (k : Nat) (v : BitVec 32) (hk : (params ++ [esp, x' ++ ss])[k]? = some v) : y.stackItem 4 (2 + k) = v :=
    h.items (2 + k) v (by rw [Nat.add_comm 2 k]; exact hk)
  refine ⟨h.items 0 _ rfl, (congrArg lo16 (h.items 1 _ rfl)).trans (hlow x cs), fun k v hk => hrest k v ?_,
    hrest _ _ (by simp), ?_⟩
  · rw [List.getElem?_append_left (List.getElem?_eq_some_iff.1 hk).1]
    exact hk
  · have hss := hrest (params.length + 1) (x' ++ ss) (by simp)
    rw [← Nat.add_assoc, Nat.add_right_comm] at hss
    rw [hss, hlow]

/-- The accessed bit of the new stack segment is the one byte that differs before the pushes. -/
theorem setAccessed_byteAt (hram : AllRam w2.s) (hm : Memory.wf w2.s.mem = true)
    (h : setAccessed nss d w2 = .ok () w3) (a : BitVec 32) : w3.s.byteAt a ||| 1#8 = w2.s.byteAt a ||| 1#8 := by
  obtain ⟨u, hu, hbytes⟩ := setAccessed_ram hram hm nss d
  cases hu.symm.trans h
  rw [hbytes]
  split
  · rw [BitVec.or_assoc, BitVec.or_self]
  · rfl

/-- The new stack where memory is plain. -/
theorem CalledInner.frame (h : CalledInner g tsel t w v d nss nesp params w1 w2 w3 w4 w5) (hw : ReadsW s.work w)
    (hmem : y.mem = v.s.mem) (hgpr : y.gpr = v.s.gpr) (hss : y.segs.ss = v.s.segs.ss) (hram : AllRam s)
    (hm : Memory.wf s.mem = true) (hta : t.a = true)
    (hroom : 4 * (4 + g.gateCount) ≤ (y.stackSize.trunc (s.tssEsp t.dpl)).toNat) :
    let n := g.gateCount
    OnInnerStack s y t.dpl (4 + n) ∧ y.stackItem 4 0 = s.nextEip ∧ lo16 (y.stackItem 4 1) = s.segs.cs.selector ∧
    (∀ k, k < n → y.stackItem 4 (2 + k) = s.stackItem 4 k) ∧ y.stackItem 4 (2 + n) = s.reg .esp ∧
    lo16 (y.stackItem 4 (3 + n)) = s.segs.ss.selector ∧
    ∀ a, a ∉ span (y.segs.ss.base + y.sp) (4 * (4 + n)) → y.byteAt a ||| 1#8 = s.byteAt a ||| 1#8 := by
  intro n
  have hacc : Accesses s w.s := hw.acc.state
  have hread : Unstored s w.s := hw.unstored hm hram.paging
  obtain ⟨rfl, hnss, hnesp, hdesc⟩ := innerStack_eq_ok (hacc.plainRam ⟨hram, hm⟩).ram h.inner
  rw [hread.tssSs] at hnss
  rw [hread.tssEsp] at hnesp
  subst hnss hnesp
  obtain ⟨hw2, hparams⟩ := gather_stackRead (hacc.plainRam ⟨hram, hm⟩).ram h.copied
  have hplain2 : PlainRam w2.s := hw2 ▸ hacc.plainRam ⟨hram, hm⟩
  have hplain3 : PlainRam w3.s := ((setAccessed_accesses _ _).ok h.accessedSs).state.plainRam hplain2
  have hlen : params.length = n := by rw [hparams, List.length_map, List.length_range]
  have hcount : n < 32 := (g.hi.extractLsb' 0 5).isLt
  have hend := h.end_
  have hset := h.accessedCs
  rw [setAccessed, if_pos hta] at hset
  cases hset
  subst hend
  have hsize : y.stackSize = (w3.onStack (d.toSeg (s.tssSs t.dpl)) t.dpl (s.tssEsp t.dpl)).s.stackSize :=
    State.stackSize_congr (hss.trans ((pushFrame_stack _ _).ok h.pushed).ss)
  have hsp := Work.sp_onStack w3 (d.toSeg (s.tssSs t.dpl)) t.dpl (s.tssEsp t.dpl)
  rw [← hsize] at hsp
  obtain ⟨x, x', htop⟩ := pushFrame_onTop h.pushed ⟨hplain3.ram.of_same rfl rfl, hplain3.wf⟩ (by omega)
    (by rw [hsp, hlen]; exact hroom)
  have hy : OnTop 4 _ y _ := htop.congr hmem hgpr hss
  obtain ⟨heip, hcs, hcopied, hesp, hold⟩ := hy.frame_items
  have htotal : 4 * (w1.s.nextEip :: (x ++ w1.s.segs.cs.selector) ::
      (params ++ [w1.s.reg .esp, x' ++ w1.s.segs.ss.selector])).length = 4 * (4 + n) := by
    simp only [List.length_cons, List.length_append, List.length_nil, hlen]
    omega
  rw [hlen] at hesp hold
  refine ⟨⟨⟨d, hread.descriptor _ ▸ hdesc, hy.ss⟩, ?sp⟩, heip.trans hacc.nextEip, by rw [hcs, hacc.segs], fun k hk => ?param,
    hesp.trans (by rw [State.reg, State.reg, hacc.gpr]), by rw [hold, hacc.segs], fun a ha => ?bytes⟩
  case sp =>
    rw [hy.sp, htotal, BitVec.sub_add_cancel, hsp]
  case param =>
    rw [hcopied k (w1.s.stackItem 4 k) ?_, hread.stackItem]
    rw [hparams, List.getElem?_map, List.getElem?_range hk]
    rfl
  case bytes =>
    rw [← htotal] at ha
    rw [hy.bytes a ha, ← hread.bytes, ← hw2]
    exact setAccessed_byteAt hplain2.ram hplain2.wf h.accessedSs a

end CalledInner

/-! ### A call gate (43 R173-R175) -/

/-- A far JMP or CALL through a gate may go to the segment `t` from `cpl`. -/
def reaches (kind : TransferKind) (t : Desc) (cpl : BitVec 2) : Bool :=
  t.isCode && ((!(kind == .jmp && !t.ec) || t.dpl == cpl) && (!(kind == .call || t.ec) || t.dpl.ule cpl))

theorem reaches_iff {kind : TransferKind} {t : Desc} {cpl : BitVec 2} : reaches kind t cpl = true ↔
    t.isCode = true ∧ if kind = .jmp ∧ t.ec = false then t.dpl = cpl else t.dpl.toNat ≤ cpl.toNat := by
  rw [reaches, Bool.and_eq_true, and_congr_right_iff]
  intro _
  cases kind with
  | jmp => cases hec : t.ec <;> simp [BitVec.ule]
  | call => simp [BitVec.ule]

/-- JMP or CALL through the gate `g` once the descriptor `t` of its target is read; `cpl` is the level it starts from. -/
def gateTarget (kind : TransferKind) (cpl : BitVec 2) (g t : Desc) : M Unit :=
  checkSel (reaches kind t cpl) .gp g.gateSel >>= fun _ => checkSel t.p .np g.gateSel >>= fun _ =>
    if kind = .call ∧ t.ec = false ∧ t.dpl.ult cpl then callInner g g.gateSel t else gateSame kind g.gateSel t g.gateOffset

theorem farGate_eq (kind : TransferKind) (gsel : BitVec 16) (g : Desc) (w : Work) :
    farGate kind gsel g w = (checkSel (privOk g.dpl w.s.cpl (selRpl gsel)) .gp gsel >>= fun _ =>
      checkSel g.p .np gsel >>= fun _ => check (!isNull g.gateSel) (.gp 0) >>= fun _ => fetchDesc g.gateSel .gp >>= gateTarget kind w.s.cpl g) w := by
  unfold gateTarget
  simp only [reaches, ← checkSel_and]
  rfl

theorem gateSame_eq (kind : TransferKind) (tsel : BitVec 16) (t : Desc) (off : BitVec 32) (w : Work) :
    gateSame kind tsel t off w =
      (check (off.ule t.effLimit) (.gp 0) >>= fun _ => enterCode kind 4 tsel w.s.cpl t off) w := by
  cases kind <;> rfl

section Gate

variable {s : State} {i : Instr} {kind : TransferKind} {sel : BitVec 16} {g t : Desc} {w : Work}

/-- A CALL to an inner level (43 R176). -/
def CallsInner (s : State) (i : Instr) (g t : Desc) (w : Work) : Prop :=
  ((∀ e v, innerStack t.dpl (4 + g.gateCount) w = .error (.exc e) v → exec i s = raiseExc 6 (rollback s v) e) ∧
    ∀ q v, innerStack t.dpl (4 + g.gateCount) w = .ok q v → t.effLimit.toNat < g.gateOffset.toNat →
      exec i s = raiseExc 6 (rollback s v) (.gp 0)) ∧
  ∀ v, callInner g g.gateSel t w = .ok () v →
    ∃ y, exec i s = .next y ∧ EndsAt s v.s g.gateOffset y ∧ y.cpl = t.dpl ∧
      y.segs.cs = t.toSeg (withRpl g.gateSel t.dpl) ∧ y.segs = { s.segs with cs := y.segs.cs, ss := y.segs.ss } ∧
      KeepsSystem s { y with segs := s.segs, cpl := s.cpl } ∧
      let n := g.gateCount
      (AllRam s → Memory.wf s.mem = true → t.a = true → s.sp.toNat + 4 * n ≤ 2 ^ s.stackSize.bits →
        4 * (4 + n) ≤ (y.stackSize.trunc (s.tssEsp t.dpl)).toNat →
        OnInnerStack s y t.dpl (4 + n) ∧ y.stackItem 4 0 = s.nextEip ∧
        lo16 (y.stackItem 4 1) = s.segs.cs.selector ∧ (∀ k, k < n → y.stackItem 4 (2 + k) = s.stackItem 4 k) ∧
        y.stackItem 4 (2 + n) = s.reg .esp ∧ lo16 (y.stackItem 4 (3 + n)) = s.segs.ss.selector ∧
        ∀ a, a ∉ span (y.segs.ss.base + y.sp) (4 * (4 + n)) → y.byteAt a ||| 1#8 = s.byteAt a ||| 1#8)

theorem RunsTo.callsInner (h : RunsTo i s (callInner g g.gateSel t w)) (ready : Ready s) (hw : ReadsW s.work w) :
    CallsInner s i g t w := by
  have hstages := h
  rw [callInner_eq] at hstages
  have hinner := hstages.stage ready
  refine ⟨⟨hinner.1, fun q v hq hlimit => ?_⟩, fun v hv => ?_⟩
  · exact ((hinner.2 q v hq).checked ready ule_iff).1 (Nat.not_le.2 hlimit)
  · obtain ⟨d, nss, nesp, params, w1, w2, w3, w4, w5, hcalled⟩ := callInner_eq_ok hv
    rw [hv] at h
    have heip : v.s.eip = g.gateOffset ∧ v.jumped = true := by
      rw [hcalled.end_]
      exact ⟨rfl, rfl⟩
    obtain ⟨y, hexec, hends, hkeeps, -⟩ :=
      h.transfers ready (transfers_rel.trans _ _ _ hw.acc.transfers hcalled.transfers) heip.2
    rw [heip.1] at hends
    have hsegs := hends.segs.trans hcalled.segs
    rw [hw.acc.state.segs] at hsegs
    refine ⟨y, hexec, hends, hends.cpl.trans hcalled.cpl, congrArg SegRegs.cs hsegs, ?_, hkeeps,
      fun hram hm ha _ hroom => hcalled.frame hw hends.mem hends.gpr (congrArg SegRegs.ss hends.segs) hram hm ha hroom⟩
    rw [hsegs]
    rfl

/-- What a far JMP or CALL comes to once the descriptor of the gate's target is read. -/
theorem RunsTo.gateTarget (h : RunsTo i s (gateTarget kind s.cpl g t w)) (ready : Ready s) (hw : ReadsW s.work w) :
    let reach := t.isCode = true ∧ if kind = .jmp ∧ t.ec = false then t.dpl = s.cpl else t.dpl.toNat ≤ s.cpl.toNat
    let inner := kind = .call ∧ t.ec = false ∧ t.dpl.toNat < s.cpl.toNat
    let code := g.gateSel &&& 0xFFFC#16
    (¬ reach → exec i s = raiseExc 6 (rollback s w) (.gp code)) ∧
    (reach → t.p = false → exec i s = raiseExc 6 (rollback s w) (.np code)) ∧
    (reach → t.p = true → ¬ inner →
      (t.effLimit.toNat < g.gateOffset.toNat → exec i s = raiseExc 6 (rollback s w) (.gp 0)) ∧
      (g.gateOffset.toNat ≤ t.effLimit.toNat → EntersCode s i kind 4 w g.gateSel t g.gateOffset)) ∧
    (reach → t.p = true → inner → CallsInner s i g t w) := by
  intro reach inner code
  have hinner : (kind = .call ∧ t.ec = false ∧ t.dpl.ult s.cpl = true) ↔ inner := by
    simp only [inner, BitVec.ult, decide_eq_true_iff]
  have hreach := RunsTo.tested h ready hw.acc reaches_iff
  have hpresent := fun hr => (hreach.2 hr).tested ready hw.acc Iff.rfl
  refine ⟨hreach.1, fun hr hp => (hpresent hr).1 (ne_true_of_eq_false hp), fun hr hp hsame => ?_, fun hr hp hin => ?_⟩
  · have hrest := (hpresent hr).2 hp
    rw [if_neg (mt hinner.1 hsame), gateSame_eq, hw.acc.state.cpl] at hrest
    have hwithin := hrest.checked ready ule_iff
    exact ⟨fun hlimit => hwithin.1 (Nat.not_le.2 hlimit), fun hlimit => (hwithin.2 hlimit).enters ready hw (.inr rfl)⟩
  · have hrest := (hpresent hr).2 hp
    rw [if_pos (hinner.2 hin)] at hrest
    exact hrest.callsInner ready hw

/-- What a far JMP or CALL through a call gate comes to. -/
theorem RunsTo.farGate (h : RunsTo i s (farGate kind sel g w)) (ready : Ready s) (hw : ReadsW s.work w) :
    let visible := s.cpl.toNat ≤ g.dpl.toNat ∧ (selRpl sel).toNat ≤ g.dpl.toNat
    let code := sel &&& 0xFFFC#16
    (¬ visible → exec i s = raiseExc 6 (rollback s w) (.gp code)) ∧
    (visible → g.p = false → exec i s = raiseExc 6 (rollback s w) (.np code)) ∧
    (visible → g.p = true → isNull g.gateSel = true → exec i s = raiseExc 6 (rollback s w) (.gp 0)) ∧
    (visible → g.p = true → isNull g.gateSel = false → descAddr s g.gateSel = none →
      exec i s = raiseExc 6 (rollback s w) (.gp (g.gateSel &&& 0xFFFC#16))) ∧
    (visible → g.p = true → isNull g.gateSel = false → ∀ t x, fetchDesc g.gateSel .gp w = .ok t x →
      RunsTo i s (Machine.gateTarget kind s.cpl g t x) ∧ ReadsW s.work x) := by
  intro visible code
  rw [farGate_eq, hw.acc.state.cpl] at h
  have hvisible := h.tested ready hw.acc privOk_iff
  have hpresent := fun hv => (hvisible.2 hv).tested ready hw.acc Iff.rfl
  have hnamed := fun hv hp => ((hpresent hv).2 hp).checked (p := isNull g.gateSel = false) ready (by simp)
  exact ⟨hvisible.1, fun hv hp => (hpresent hv).1 (ne_true_of_eq_false hp),
    fun hv hp hnull => (hnamed hv hp).1 (ne_false_of_eq_true hnull),
    fun hv hp hnull hout => ((hnamed hv hp).2 hnull).outside ready hw.acc hout,
    fun hv hp hnull t x ht => ⟨(((hnamed hv hp).2 hnull).stage ready).2 t x ht,
      reads_rel.trans _ _ _ hw ((fetchDesc_reads _ _).ok ht)⟩⟩

end Gate

end Sys2Proof.Machine
end


section
/-! Far JMP and CALL in protected mode: what the selector names (43 R168). -/

namespace Sys2Proof.Machine

open Sys2Proof

-- One theorem after another, so that no more of them wait for each other than the memory limit has threads for.
set_option Elab.async false

/-- A far JMP or CALL once the descriptor that its selector names is read. -/
def farNamed (kind : TransferKind) (sel : BitVec 16) (off : BitVec 32) (d : Desc) : M Unit :=
  if d.isCode then farDirect kind sel d off
  else if !d.s && d.typ == 0xC then farGate kind sel d
  else if !d.s && d.typ == 5 then farTaskGate kind sel d
  else if !d.s && (d.typ == 9 || d.typ == 0xB) then farTss kind sel d
  else if is286 d then refuse .format286
  else checkSel false .gp sel

theorem farTransfer_eq (kind : TransferKind) (sel : BitVec 16) (off : BitVec 32) :
    farTransfer kind sel off = (check (!isNull sel) (.gp 0) >>= fun _ => fetchDesc sel .gp >>= farNamed kind sel off) := rfl

section Named

variable (kind : TransferKind) (sel : BitVec 16) (off : BitVec 32) {d : Desc}

theorem farNamed_code (h : d.isCode = true) : farNamed kind sel off d = farDirect kind sel d off := if_pos h

theorem isCode_of_system (hs : d.s = false) : d.isCode = false := by rw [Desc.isCode, hs, Bool.false_and]

theorem farNamed_gate (hs : d.s = false) (htyp : d.typ = 0xC) : farNamed kind sel off d = farGate kind sel d := by
  simp only [farNamed, isCode_of_system hs, hs, htyp]
  rfl

theorem farNamed_taskGate (hs : d.s = false) (htyp : d.typ = 5) : farNamed kind sel off d = farTaskGate kind sel d := by
  simp only [farNamed, isCode_of_system hs, hs, htyp]
  rfl

theorem farNamed_tss (hs : d.s = false) (htyp : d.typ = 9 ∨ d.typ = 0xB) :
    farNamed kind sel off d = farTss kind sel d := by
  simp only [farNamed, isCode_of_system hs, hs]
  obtain htyp | htyp := htyp <;> rw [htyp] <;> rfl

theorem farNamed_286 (hs : d.s = false) (htyp : d.typ = 1 ∨ d.typ = 3 ∨ d.typ = 4) :
    farNamed kind sel off d = refuse .format286 := by
  simp only [farNamed, isCode_of_system hs, is286, hs]
  obtain htyp | htyp | htyp := htyp <;> rw [htyp] <;> rfl

theorem farNamed_other (hcode : d.isCode = false) (hother : ¬ (d.s = false ∧ d.typ ∈ [1, 3, 4, 5, 9, 0xB, 0xC])) :
    farNamed kind sel off d = checkSel false .gp sel := by
  obtain hs | hs := Bool.eq_false_or_eq_true d.s
  · simp [farNamed, hcode, is286, hs]
  · have htyp : d.typ ∉ [1, 3, 4, 5, 9, 0xB, 0xC] := fun h => hother ⟨hs, h⟩
    simp only [List.mem_cons, List.not_mem_nil, or_false, not_or] at htyp
    obtain ⟨h1, h3, h4, h5, h9, hB, hC⟩ := htyp
    rw [farNamed, is286, hcode, hs, beq_false_of_ne h1, beq_false_of_ne h3, beq_false_of_ne h4, beq_false_of_ne h5,
      beq_false_of_ne h9, beq_false_of_ne hB, beq_false_of_ne hC]
    rfl

end Named

/-- A far JMP or CALL in protected mode. -/
theorem farJump_protected {s : State} {i : Instr} {kind : TransferKind} {sel : BitVec 16} {off : BitVec 32} {w0 : Work}
    (hruns : RunsTo i s (farTransfer kind sel off w0)) (ready : Ready s) (hw0 : ReadsW s.work w0) :
    (isNull sel = true → exec i s = raiseExc 6 (rollback s w0) (.gp 0)) ∧
    (isNull sel = false → descAddr s sel = none → exec i s = raiseExc 6 (rollback s w0) (.gp (sel &&& 0xFFFC#16))) ∧
    ∀ d w, isNull sel = false → fetchDesc sel .gp w0 = .ok d w →
      RunsTo i s (farNamed kind sel off d w) ∧ ReadsW s.work w := by
  rw [farTransfer_eq] at hruns
  have hnull := hruns.checked (p := isNull sel = false) ready (by simp)
  exact ⟨fun h => hnull.1 (ne_false_of_eq_true h), fun h hout => (hnull.2 h).outside ready hw0.acc hout,
    fun d w h hd => ⟨((hnull.2 h).stage ready).2 d w hd, reads_rel.trans _ _ _ hw0 ((fetchDesc_reads _ _).ok hd)⟩⟩

end Sys2Proof.Machine
end


section
/-! RETF in protected mode (43 R181-R183): reads of the stack, the return to the same level and to an outer one. -/

namespace Sys2Proof.Machine

open Sys2Proof

-- One theorem after another, so that no more of them wait for each other than the memory limit has threads for.
set_option Elab.async false

/-! ### Memory under reads with paging off -/

/-- With paging off memory is the same. -/
def MemKeptW (w v : Work) : Prop := w.s.cr0.pg = false → v.s.cr0.pg = false ∧ v.s.mem = w.s.mem

theorem memKept_rel : StepRel MemKeptW where
  refl _ hp := ⟨hp, rfl⟩
  trans _ _ _ h1 h2 hp := ⟨(h2 (h1 hp).1).1, (h2 (h1 hp).1).2.trans (h1 hp).2⟩

theorem deviceIn_memKept : Within MemKeptW deviceIn := by
  intro w hp
  unfold deviceIn
  simp only [M.run_bind, run_st]
  cases w.s.env.devIn <;> exact ⟨hp, rfl⟩

theorem busEvent_memKept (e : BusEvent) : Within MemKeptW (busEvent e) := fun _ hp => ⟨hp, rfl⟩

theorem physReadByte_memKept (pa : BitVec 32) : Within MemKeptW (physReadByte pa) :=
  fun w hp => ⟨(congrArg Cr0.pg (physReadByte_accesses pa w).state.cr0).trans hp, (physReadByte_mem pa w).1⟩

theorem physReadAt_memKept (pas : List (BitVec 32)) : Within MemKeptW (physReadAt pas) :=
  within_bind memKept_rel (within_st memKept_rel) fun _ => within_ite
    (within_bind memKept_rel deviceIn_memKept fun _ => within_bind memKept_rel (busEvent_memKept _) fun _ =>
      within_pure memKept_rel _)
    (within_bind memKept_rel (within_gather memKept_rel physReadByte_memKept _) fun _ => within_pure memKept_rel _)

theorem linRead_memKept (la : BitVec 32) (n : Nat) (user : Bool) : Within MemKeptW (linRead la n user) := by
  intro w hp
  rw [linRead, M.run_bind, linAccess_flat hp]
  exact physReadAt_memKept _ w hp

theorem readDescriptor_memKept (sel : BitVec 16) : Within MemKeptW (readDescriptor sel) := by
  refine within_bind memKept_rel (within_st memKept_rel) fun s => ?_
  cases descAddr s sel with
  | none => exact within_pure memKept_rel _
  | some la =>
    exact within_bind memKept_rel (within_bind memKept_rel (linRead_memKept _ _ _) fun _ =>
      within_bind memKept_rel (linRead_memKept _ _ _) fun _ => within_pure memKept_rel _) fun _ => within_pure memKept_rel _

theorem checkSel_memKept (c : Bool) (k : CodeExc) (sel : BitVec 16) : Within MemKeptW (checkSel c k sel) := by
  intro w hp
  rw [run_checkSel]
  cases c <;> exact ⟨hp, rfl⟩

theorem fetchDesc_memKept (sel : BitVec 16) (k : CodeExc) : Within MemKeptW (fetchDesc sel k) := by
  refine within_bind memKept_rel (readDescriptor_memKept sel) fun o => ?_
  cases o with
  | none => exact fun _ hp => ⟨hp, rfl⟩
  | some d => exact within_pure memKept_rel d

/-- Reads of descriptors: what reads leave, and with paging off memory as it was, whether it is canonical or not. -/
structure DescReadsW (w v : Work) : Prop where
  reads : ReadsW w v
  kept : MemKeptW w v

theorem descReads_rel : StepRel DescReadsW where
  refl w := ⟨reads_rel.refl w, memKept_rel.refl w⟩
  trans _ _ _ h1 h2 := ⟨reads_rel.trans _ _ _ h1.reads h2.reads, memKept_rel.trans _ _ _ h1.kept h2.kept⟩

theorem checkSel_descReads (c : Bool) (k : CodeExc) (sel : BitVec 16) : Within DescReadsW (checkSel c k sel) :=
  fun w => ⟨checkSel_reads c k sel w, checkSel_memKept c k sel w⟩

theorem fetchDesc_descReads (sel : BitVec 16) (k : CodeExc) : Within DescReadsW (fetchDesc sel k) :=
  fun w => ⟨fetchDesc_reads sel k w, fetchDesc_memKept sel k w⟩

theorem returnCs_descReads (rcs : BitVec 16) : Within DescReadsW (returnCs rcs) :=
  have htest {α : Type} {c : Bool} {k : CodeExc} {m : Unit → M α} (hm : ∀ u, Within DescReadsW (m u)) :
      Within DescReadsW (checkSel c k rcs >>= m) := within_bind descReads_rel (checkSel_descReads _ _ _) hm
  within_bind descReads_rel (within_st descReads_rel) fun _ => htest fun _ => htest fun _ =>
    within_bind descReads_rel (fetchDesc_descReads _ _) fun _ => htest fun _ => htest fun _ => htest fun _ => htest fun _ =>
      within_pure descReads_rel _

theorem returnSs_descReads (rss : BitVec 16) (pl : BitVec 2) : Within DescReadsW (returnSs rss pl) :=
  have htest {α : Type} {c : Bool} {k : CodeExc} {m : Unit → M α} (hm : ∀ u, Within DescReadsW (m u)) :
      Within DescReadsW (checkSel c k rss >>= m) := within_bind descReads_rel (checkSel_descReads _ _ _) hm
  htest fun _ => within_bind descReads_rel (fetchDesc_descReads _ _) fun _ => htest fun _ => htest fun _ => htest fun _ =>
    htest fun _ => within_pure descReads_rel _

/-! ### Items of a stack in plain memory (20 R80, R93) -/

/-- A part of what the limit allows is allowed, and does not wrap. -/
theorem limitOk_part {g : Seg} {off : BitVec 32} {m n k : Nat} (h : limitOk g off m = true) (hn : 1 ≤ n) (hk : k + n ≤ m) :
    limitOk g (off + BitVec.ofNat 32 k) n = true := by
  have hlimit := g.limit.isLt
  rw [limitOk] at h ⊢
  have hsum (hlt : off.toNat + k < 2 ^ 32) : (off + BitVec.ofNat 32 k).toNat = off.toNat + k := by
    rw [BitVec.toNat_add, BitVec.toNat_ofNat]
    omega
  cases hed : g.expandDown with
  | false =>
    rw [hed, if_neg Bool.false_ne_true, decide_eq_true_iff] at h
    rw [if_neg Bool.false_ne_true, decide_eq_true_iff, hsum (by omega)]
    omega
  | true =>
    rw [hed, if_pos rfl, Bool.and_eq_true, decide_eq_true_iff, decide_eq_true_iff] at h
    have htop : (if g.db then 2 ^ 32 else 2 ^ 16) ≤ 2 ^ 32 := by split <;> decide
    rw [if_pos rfl, Bool.and_eq_true, decide_eq_true_iff, decide_eq_true_iff, hsum (by omega)]
    omega

theorem FlatAccess.part {s : State} {r : SegReg} {off : BitVec 32} {m n k : Nat} {write : Bool}
    (h : FlatAccess s r off m write) (hn : 1 ≤ n) (hk : k + n ≤ m) :
    FlatAccess s r (off + BitVec.ofNat 32 k) n write := by
  obtain ⟨hvalid, htype, hlimit⟩ := h.segment
  refine ⟨h.paging, h.breakpoints, ⟨hvalid, htype, limitOk_part hlimit hn hk⟩, fun p hp => h.plain p ?_⟩
  obtain ⟨j, hj, rfl⟩ := mem_span.1 hp
  exact mem_span.2 ⟨k + j, by omega, by rw [BitVec.ofNat_add, ← BitVec.add_assoc, ← BitVec.add_assoc]⟩

theorem FlatAccess.stack_of_accesses {s t : State} {m : Nat} {write : Bool} (h : FlatAccess s .ss s.sp m write)
    (ht : Accesses s t) : FlatAccess t .ss t.sp m write := by
  have hseg : t.seg .ss = s.seg .ss := congrArg SegRegs.ss ht.segs
  refine ⟨ht.cr0 ▸ h.paging, ?_, ?_, ?_⟩
  · rw [NoDataBreakpoint, ht.dr7]
    exact h.breakpoints
  · rw [SegmentAllows, hseg, ht.cr0, ht.sp]
    exact h.segment
  · rw [PlainMemory, hseg, ht.sp]
    intro p hp
    rw [State.kindAt, ht.map]
    exact h.plain p hp

theorem FlatAccess.stackRead {w : Work} {m n k : Nat} (h : FlatAccess w.s .ss w.s.sp m false) (hn : 1 ≤ n) (hn4 : n ≤ 4)
    (hk : k + n ≤ m) :
    stackRead k n w = .ok (w.s.valueAt (w.s.segs.ss.base + w.s.sp + BitVec.ofNat 32 k) n) w := by
  rw [BitVec.add_assoc]
  exact flatRead w .ss _ n hn hn4 (h.part hn hk)

/-! ### What the ends of returns may change -/

/-- What a transfer may change, and of bytes of memory what the test of a descriptor may. -/
structure MovesW (w v : Work) : Prop where
  transfers : TransfersW w v
  tables : TablesOnly w.s v.s

theorem TestsW.moves {w v : Work} (h : TestsW w v) : MovesW w v := ⟨h.acc.transfers, h.tables⟩

theorem moves_rel : StepRel MovesW where
  refl w := (tests_rel.refl w).moves
  trans _ _ _ h1 h2 := ⟨transfers_rel.trans _ _ _ h1.transfers h2.transfers,
    fun hm a => (h2.tables (h1.transfers.wf hm) a).trans (h1.tables hm a)⟩

theorem upd_moves {f : State → State} (h : ∀ s, (f s).placedAs s = s) : Within MovesW (upd f) := by
  intro w
  refine ⟨?_, fun _ a => ?_⟩
  · have htransfers : AccessesW w { w with s := (f w.s).placedAs w.s } := (h w.s).symm ▸ accesses_rel.refl w
    exact htransfers
  · have hbytes := congrArg (fun s : State => s.byteAt a ||| 0x61#8) (h w.s)
    exact hbytes

theorem setAccessed_moves (sel : BitVec 16) (d : Desc) : Within MovesW (setAccessed sel d) :=
  fun w => (setAccessed_tests sel d w).moves

theorem loadCs_moves (sel : BitVec 16) (pl : BitVec 2) (d : Desc) (eip : BitVec 32) : Within MovesW (loadCs sel pl d eip) :=
  within_bind moves_rel (setAccessed_moves sel d) fun _ => within_bind moves_rel (upd_moves fun _ => rfl) fun _ =>
    fun w => ⟨transfers_rel.refl w, fun _ _ => rfl⟩

theorem stackDrop_moves (k : BitVec 32) : Within MovesW (stackDrop k) := upd_moves fun _ => rfl

theorem returnOuter_moves (rcs rss : BitVec 16) (c sd : Desc) (roff resp adjust : BitVec 32) :
    Within MovesW (returnOuter rcs rss c sd roff resp adjust) :=
  within_bind moves_rel (upd_moves fun _ => rfl) fun _ => within_bind moves_rel (loadCs_moves _ _ _ _) fun _ =>
    within_bind moves_rel (setAccessed_moves _ _) fun _ => within_bind moves_rel (upd_moves fun _ => rfl) fun _ =>
      within_bind moves_rel (upd_moves fun _ => rfl) fun _ => upd_moves fun _ => rfl

/-- The end of a transfer whose target `e` is set, with what is left of memory. -/
theorem RunsTo.moves {s : State} {i : Instr} {w : Work} {e : BitVec 32} (h : RunsTo i s (.ok () w)) (ready : Ready s)
    (hw : MovesW s.work w) (heip : w.s.eip = e) (hjumped : w.jumped = true) : ∃ t, exec i s = .next t ∧ EndsAt s w.s e t ∧
      t.flags = { s.flags with rf := false } ∧ TablesOnly s t ∧ KeepsSystem s { t with segs := s.segs, cpl := s.cpl } := by
  obtain ⟨t, hexec, hends, hkeeps, hflags⟩ := h.transfers ready hw.transfers hjumped
  rw [heip] at hends
  exact ⟨t, hexec, hends, hflags, fun hm a => (congrArg (· ||| _) (hends.byteAt a)).trans (hw.tables hm a), hkeeps⟩

/-! ### The stages of RETF (43 R181) -/

/-- A return to the same level. -/
def retfSame (n : Nat) (count rcs : BitVec 16) (roff : BitVec 32) (c : Desc) : M Unit :=
  check (roff.ule c.effLimit) (.gp 0) >>= fun _ => loadCs rcs (selRpl rcs) c roff >>= fun _ =>
    stackDrop (BitVec.ofNat 32 (2 * n) + count.setWidth 32)

/-- A return to an outer level. -/
def retfOuter (n : Nat) (count rcs : BitVec 16) (roff : BitVec 32) (c : Desc) : M Unit :=
  roomAbove (4 * n + count.toNat) >>= fun _ => stackRead (2 * n + count.toNat) n >>= fun resp =>
    stackRead (3 * n + count.toNat) n >>= fun ss => returnSs (lo16 ss) (selRpl rcs) >>= fun sd =>
      check (roff.ule c.effLimit) (.gp 0) >>= fun _ => returnOuter rcs (lo16 ss) c sd roff resp (count.setWidth 32)

theorem retfProtected_eq (count : BitVec 16) (s : State) : retfProtected count s.work =
    (roomAbove (2 * s.os.bytes) >>= fun _ => stackRead 0 s.os.bytes >>= fun roff =>
      stackRead s.os.bytes s.os.bytes >>= fun cs => returnCs (lo16 cs) >>= fun c =>
        if selRpl (lo16 cs) = s.cpl then retfSame s.os.bytes count (lo16 cs) roff c
        else retfOuter s.os.bytes count (lo16 cs) roff c) s.work := rfl

section Stages

variable {s : State} {i : Instr} {w v : Work} {n : Nat} {count rcs rss : BitVec 16} {roff resp adjust : BitVec 32}
  {c d : Desc}

/-- A frame beyond the limit of SS (43 R181). -/
theorem RunsTo.roomed {k : Nat} {m : Unit → M Unit} (h : RunsTo i s ((roomAbove k >>= m) w)) (ready : Ready s)
    (hw : AccessesW s.work w) :
    (limitOk s.segs.ss s.sp k = false → exec i s = raiseExc 6 (rollback s w) (.ss 0)) ∧
    (limitOk s.segs.ss s.sp k = true → RunsTo i s (m () w)) := by
  have hroom : roomAbove k w = check (limitOk s.segs.ss s.sp k) (.ss 0) w := by
    have hext : w.ext = false := hw.ext
    simp only [roomAbove, M.run_bind, run_st, run_extBit, hext, hw.state.segs, hw.state.sp]
    rfl
  rw [M.run_bind, hroom, ← M.run_bind] at h
  have hchecked := h.checked (p := limitOk s.segs.ss s.sp k = true) ready Iff.rfl
  exact ⟨fun hfails => hchecked.1 (ne_true_of_eq_false hfails), hchecked.2⟩

theorem withRpl_selRpl (sel : BitVec 16) : withRpl sel (selRpl sel) = sel := by
  ext i hi
  interval_cases i <;> simp [withRpl, selRpl]

/-- A return to the same level (43 R181). -/
theorem RunsTo.retfSame (h : RunsTo i s (retfSame n count rcs roff c w)) (ready : Ready s) (hw : ReadsW s.work w) :
    (c.effLimit.toNat < roff.toNat → exec i s = raiseExc 6 (rollback s w) (.gp 0)) ∧
    (roff.toNat ≤ c.effLimit.toNat → ∀ v, setAccessed rcs c w = .ok () v →
      ∃ t, exec i s = .next t ∧ t.eip = roff ∧ t.segs = { s.segs with cs := c.toSeg rcs } ∧
        t.gpr = (s.setSp (s.stackSize.add s.sp (BitVec.ofNat 32 (2 * n) + count.setWidth 32))).gpr ∧
        t.flags = { s.flags with rf := false } ∧ KeepsSystem s { t with segs := s.segs } ∧ TablesOnly s t) := by
  have hwithin := RunsTo.checked h ready ule_iff
  refine ⟨fun hlimit => hwithin.1 (Nat.not_le.2 hlimit), fun hlimit v hv => ?_⟩
  have hrest := hwithin.2 hlimit
  have htests : TestsW s.work v := tests_rel.trans _ _ _ hw.tests ((setAccessed_tests rcs c).ok hv)
  have hacc : Accesses s v.s := htests.acc.state
  have hload := loadCs_ok hv (selRpl rcs) roff
  rw [withRpl_selRpl] at hload
  have hmoves : MovesW w (v.atCode (c.toSeg rcs) roff) := (loadCs_moves _ _ _ _).ok hload
  rw [bind_of_ok hload] at hrest
  have hdrop := stackDrop_moves (BitVec.ofNat 32 (2 * n) + count.setWidth 32) (v.atCode (c.toSeg rcs) roff)
  obtain ⟨t, hexec, hends, hflags, htables, hkeeps⟩ := RunsTo.moves hrest ready
    (moves_rel.trans _ _ _ (moves_rel.trans _ _ _ hw.tests.moves hmoves) hdrop) rfl rfl
  have hcpl : t.cpl = s.cpl := hends.cpl.trans hacc.cpl
  refine ⟨t, hexec, hends.eip, ?_, ?_, hflags, hcpl ▸ hkeeps, htables⟩
  · rw [hends.segs, ← hacc.segs]
    rfl
  · have hss : (v.atCode (c.toSeg rcs) roff).s.segs.ss = s.segs.ss :=
      (congrArg SegRegs.ss hacc.segs : v.s.segs.ss = s.segs.ss)
    have hgpr : (v.atCode (c.toSeg rcs) roff).s.gpr = s.gpr := hacc.gpr
    refine hends.gpr.trans ((State.setSp_congr hgpr hss _).trans ?_)
    rw [State.stackSize_congr hss, State.sp_congr hgpr hss]

/-- The work after a return to the stack segment `g` of the level `pl`. -/
def Work.returnedTo (w : Work) (pl : BitVec 2) (g : Seg) (sp : BitVec 32) : Work :=
  { w with s := dropSegs pl ((w.s.setSeg .ss g).setSp ((w.s.setSeg .ss g).stackSize.trunc sp)) }

/-- The stages of the end of a return to an outer level that goes through. -/
structure ReturnedOuter (rcs rss : BitVec 16) (c d : Desc) (roff resp adjust : BitVec 32) (w v v1 v2 : Work) : Prop where
  accessedCs : AccessesW { w with s := { w.s with cpl := selRpl rcs } } v1
  accessedSs : AccessesW (v1.atCode (c.toSeg rcs) roff) v2
  end_ : v = v2.returnedTo (selRpl rcs) (d.toSeg rss) (resp + adjust)

theorem returnOuter_eq_ok (h : returnOuter rcs rss c d roff resp adjust w = .ok () v) :
    ∃ v1 v2, ReturnedOuter rcs rss c d roff resp adjust w v v1 v2 := by
  obtain ⟨_, w1, hcpl, h1⟩ := bind_eq_ok.1 h
  cases hcpl
  obtain ⟨_, w2, hload, h2⟩ := bind_eq_ok.1 h1
  obtain ⟨_, v1, hcs, -⟩ := bind_eq_ok.1 hload
  cases (loadCs_ok hcs (selRpl rcs) roff).symm.trans hload
  obtain ⟨_, v2, hss, h3⟩ := bind_eq_ok.1 h2
  cases h3
  rw [withRpl_selRpl] at hss
  exact ⟨v1, v2, (setAccessed_accesses _ _).ok hcs, (setAccessed_accesses _ _).ok hss, rfl⟩

section ReturnedOuter

variable {v1 v2 : Work}

theorem ReturnedOuter.cpl (h : ReturnedOuter rcs rss c d roff resp adjust w v v1 v2) : v.s.cpl = selRpl rcs := by
  rw [h.end_]
  exact h.accessedSs.state.cpl.trans h.accessedCs.state.cpl

theorem ReturnedOuter.eip (h : ReturnedOuter rcs rss c d roff resp adjust w v v1 v2) : v.s.eip = roff := by
  rw [h.end_]
  exact h.accessedSs.state.eip

theorem ReturnedOuter.jumped (h : ReturnedOuter rcs rss c d roff resp adjust w v v1 v2) : v.jumped = true := by
  rw [h.end_]
  exact congrArg Work.jumped h.accessedSs.same

theorem ReturnedOuter.segs (h : ReturnedOuter rcs rss c d roff resp adjust w v v1 v2) :
    let g := w.s.segs
    v.s.segs = { cs := c.toSeg rcs, ss := d.toSeg rss, ds := dropSeg (selRpl rcs) g.ds, es := dropSeg (selRpl rcs) g.es,
                 fs := dropSeg (selRpl rcs) g.fs, gs := dropSeg (selRpl rcs) g.gs } := by
  have hcs : v1.s.segs = w.s.segs := h.accessedCs.state.segs
  have hss : v2.s.segs = { v1.s.segs with cs := c.toSeg rcs } := h.accessedSs.state.segs
  rw [hcs] at hss
  rw [h.end_]
  change ({ v2.s.segs with
    ss := d.toSeg rss, ds := dropSeg _ v2.s.segs.ds, es := dropSeg _ v2.s.segs.es, fs := dropSeg _ v2.s.segs.fs,
    gs := dropSeg _ v2.s.segs.gs } : SegRegs) = _
  rw [hss]

theorem ReturnedOuter.gpr (h : ReturnedOuter rcs rss c d roff resp adjust w v v1 v2) :
    v.s.gpr = (w.s.setRegv v.s.stackSize .esp (resp + adjust)).gpr := by
  have hgpr : (v2.s.setSeg .ss (d.toSeg rss)).gpr = w.s.gpr := h.accessedSs.state.gpr.trans h.accessedCs.state.gpr
  have hsize : v.s.stackSize = (v2.s.setSeg .ss (d.toSeg rss)).stackSize := by
    rw [h.end_]
    rfl
  rw [hsize, h.end_]
  change ((v2.s.setSeg .ss (d.toSeg rss)).setSp _).gpr = _
  rw [State.setSp, State.setRegv, Size.merge_of_trunc]
  simp only [State.setRegv, State.setReg, State.reg, hgpr]

end ReturnedOuter

/-- A return to an outer level, its frame in plain memory (43 R182, R183). -/
theorem RunsTo.retfOuter (h : RunsTo i s (retfOuter n count rcs roff c w)) (ready : Ready s) (hw : ReadsW s.work w)
    (hkept : MemKeptW s.work w) (hn : 1 ≤ n) (hn4 : n ≤ 4) :
    (limitOk s.segs.ss s.sp (4 * n + count.toNat) = false → exec i s = raiseExc 6 (rollback s w) (.ss 0)) ∧
    (FlatAccess s .ss s.sp (4 * n + count.toNat) false →
      let at_ := s.segs.ss.base + s.sp + count.setWidth 32
      let resp := s.valueAt (at_ + BitVec.ofNat 32 (2 * n)) n
      let rss := lo16 (s.valueAt (at_ + BitVec.ofNat 32 (3 * n)) n)
      (∀ e x, returnSs rss (selRpl rcs) w = .error (.exc e) x → exec i s = raiseExc 6 (rollback s x) e) ∧
      ∀ d x, returnSs rss (selRpl rcs) w = .ok d x →
        (c.effLimit.toNat < roff.toNat → exec i s = raiseExc 6 (rollback s x) (.gp 0)) ∧
        (roff.toNat ≤ c.effLimit.toNat →
          ∀ v, returnOuter rcs rss c d roff resp (count.setWidth 32) x = .ok () v →
          ∃ t, exec i s = .next t ∧
            Outward s t (selRpl rcs) (c.toSeg rcs) (d.toSeg rss) (resp + count.setWidth 32) ∧ t.eip = roff ∧
            t.flags = { s.flags with rf := false } ∧ TablesOnly s t ∧
            KeepsSystem s { t with segs := s.segs, cpl := s.cpl })) := by
  have hroom := RunsTo.roomed h ready hw.acc
  refine ⟨hroom.1, fun hflat => ?_⟩
  intro at_ resp rss
  have hflatw : FlatAccess w.s .ss w.s.sp (4 * n + count.toNat) false := hflat.stack_of_accesses hw.acc.state
  have hsame : Unstored s w.s :=
    ⟨hw.acc.state, fun a => by rw [State.byteAt, (hkept hflat.paging).2]; rfl⟩
  have hitem (k : Nat) (hk : k + count.toNat + n ≤ 4 * n + count.toNat) :
      stackRead (k + count.toNat) n w = .ok (s.valueAt (at_ + BitVec.ofNat 32 k) n) w := by
    rw [hflatw.stackRead hn hn4 hk, hsame.valueAt, hw.acc.state.segs, hsame.acc.sp, Nat.add_comm, BitVec.ofNat_add,
      BitVec.ofNat_toNat, ← BitVec.add_assoc]
    rfl
  have hrest := hroom.2 hflat.segment.2.2
  rw [bind_of_ok (hitem (2 * n) (by omega)), bind_of_ok (hitem (3 * n) (by omega))] at hrest
  have hss := hrest.stage ready
  refine ⟨hss.1, fun d x hx => ?_⟩
  have hwithin := (hss.2 d x hx).checked ready ule_iff
  refine ⟨fun hlimit => hwithin.1 (Nat.not_le.2 hlimit), fun hlimit v hv => ?_⟩
  have hx' : ReadsW s.work x := reads_rel.trans _ _ _ hw ((returnSs_descReads _ _).ok hx).reads
  have hend := hwithin.2 hlimit
  rw [hv] at hend
  obtain ⟨v1, v2, hreturned⟩ := returnOuter_eq_ok hv
  obtain ⟨t, hexec, hends, hflags, htables, hkeeps⟩ := RunsTo.moves hend ready
    (moves_rel.trans _ _ _ hx'.tests.moves ((returnOuter_moves _ _ _ _ _ _ _).ok hv)) hreturned.eip hreturned.jumped
  refine ⟨t, hexec, ⟨hends.cpl.trans hreturned.cpl, ?_, ?_⟩, hends.eip, hflags, htables, hkeeps⟩
  · rw [hends.segs, hreturned.segs, hx'.acc.state.segs]
    rfl
  · rw [hends.gpr, hreturned.gpr, State.stackSize_congr (congrArg SegRegs.ss hends.segs)]
    simp only [State.setRegv, State.setReg, State.reg, hx'.acc.state.gpr]
    rfl

end Stages

/-- RETF in protected mode, its return pointer in plain memory. -/
theorem retf_protected {s : State} {i : Instr} {count : BitVec 16} (hruns : RunsTo i s (retfProtected count s.work))
    (ready : Ready s) :
    let n := s.os.bytes
    let rcs := lo16 (s.stackItem n 1)
    let roff := s.stackItem n 0
    (limitOk s.segs.ss s.sp (2 * n) = false → exec i s = raiseExc 6 (rollback s s.work) (.ss 0)) ∧
    (FlatAccess s .ss s.sp (2 * n) false →
      (∀ e w, returnCs rcs s.work = .error (.exc e) w → exec i s = raiseExc 6 (rollback s w) e) ∧
      ∀ c w, returnCs rcs s.work = .ok c w →
        (selRpl rcs = s.cpl → RunsTo i s (retfSame n count rcs roff c w)) ∧
        (selRpl rcs ≠ s.cpl → RunsTo i s (retfOuter n count rcs roff c w))) := by
  intro n rcs roff
  have hn : 1 ≤ n ∧ n ≤ 4 := by
    have hbytes := os_bytes s
    omega
  rw [retfProtected_eq] at hruns
  have hroom := hruns.roomed ready (accesses_rel.refl s.work)
  refine ⟨hroom.1, fun hflat => ?_⟩
  have hrest := hroom.2 hflat.segment.2.2
  have hfirst : stackRead 0 n s.work = .ok roff s.work :=
    FlatAccess.stackRead (w := s.work) hflat hn.1 hn.2 (by omega)
  have hsecond : stackRead n n s.work = .ok (s.stackItem n 1) s.work := by
    rw [FlatAccess.stackRead (w := s.work) hflat hn.1 hn.2 (by omega), State.stackItem, Nat.mul_one]
    rfl
  rw [bind_of_ok hfirst, bind_of_ok hsecond] at hrest
  have hcs := hrest.stage ready
  refine ⟨hcs.1, fun c w hc => ⟨fun hsame => ?_, fun houter => ?_⟩⟩
  · have hend := hcs.2 c w hc
    rwa [if_pos hsame] at hend
  · have hend := hcs.2 c w hc
    rwa [if_neg houter] at hend

end Sys2Proof.Machine
end


section
/-! The obligation about far transfers in protected mode (O41). -/

namespace Sys2Proof.Machine

open Sys2Proof

-- One theorem after another, so that no more of them wait for each other than the memory limit has threads for.
set_option Elab.async false

/-- Settles O41: a far JMP or CALL goes on by what its selector names, a code segment (`RunsTo.farCode`), a call gate
(`RunsTo.farGate`, `RunsTo.gateTarget`), a TSS (`RunsTo.farTss`) or a task gate (`RunsTo.farTaskGate`); RETF goes on by the
RPL of the popped CS, to the same level (`RunsTo.retfSame`) or an outer one (`RunsTo.retfOuter`). -/
theorem farJumpToCode : Obligations.FarJumpToCode := by
  refine ⟨fun s i kind ptr hform ready hpe off sel w0 hptr => ?jump, fun s i count hi ready hpe => ?ret⟩
  case jump =>
    intro raises code enters
    have hruns := runsTo_far hform ready hptr
    rw [hpe, if_pos rfl] at hruns
    obtain ⟨hnull, hout, hnamed⟩ := farJump_protected hruns ready ((farForm_reads hform).ok hptr)
    refine ⟨hnull, hout, fun d w hn hd => ?_⟩
    obtain ⟨hd, hw⟩ := hnamed d w hn hd
    refine ⟨fun hcode => ?code, fun hs htyp => ?gate, fun hs htyp => ?tss, fun hs htyp => ?taskGate,
      fun hs htyp => ?format286, fun hcode hother => ?other⟩
    case code =>
      rw [farNamed_code _ _ _ hcode] at hd
      exact hd.farCode ready hw
    case gate =>
      rw [farNamed_gate _ _ _ hs htyp] at hd
      obtain ⟨hhidden, habsent, hnull, hout, htarget⟩ := hd.farGate ready hw
      refine ⟨hhidden, habsent, hnull, hout, fun hv hp hn t x ht => ?_⟩
      obtain ⟨ht, hx⟩ := htarget hv hp hn t x ht
      obtain ⟨hunreached, habsent, hsame, hinner⟩ := ht.gateTarget ready hx
      exact ⟨hunreached, habsent, hsame, fun hr hp hin => (hinner hr hp hin).1, fun hr hp hin => (hinner hr hp hin).2⟩
    case tss =>
      rw [farNamed_tss _ _ _ hs htyp] at hd
      exact hd.farTss ready hw.acc
    case taskGate =>
      rw [farNamed_taskGate _ _ _ hs htyp] at hd
      exact hd.farTaskGate ready hw.acc
    case format286 =>
      rw [farNamed_286 _ _ _ hs htyp] at hd
      exact hd.refused ready
    case other =>
      rw [farNamed_other _ _ _ hcode hother, run_checkSel, hw.acc.code_work] at hd
      exact hd.raises ready
  case ret =>
    intro n rcs roff raises
    have hruns := runsTo_retf hi s
    rw [hpe, if_pos rfl] at hruns
    obtain ⟨hroom, hreturn⟩ := retf_protected hruns ready
    refine ⟨hroom, fun hflat => (hreturn hflat).1, fun hflat c w hc => ?_⟩
    obtain ⟨hsame, houter⟩ := (hreturn hflat).2 c w hc
    have hw : DescReadsW s.work w := (returnCs_descReads rcs).ok hc
    have hbytes := os_bytes s
    have hsameLevel := fun hrpl => (hsame hrpl).retfSame ready hw.reads
    have houterLevel := fun hrpl => (houter hrpl).retfOuter ready hw.reads hw.kept (by omega) (by omega)
    exact ⟨fun hrpl => (hsameLevel hrpl).1, fun hrpl => (hsameLevel hrpl).2, fun hrpl => (houterLevel hrpl).1,
      fun hrpl => (houterLevel hrpl).2⟩

end Sys2Proof.Machine
end


section
/-! A task switch stage by stage, and the tests of its stages in their order (44 R190, R192). -/

namespace Sys2Proof.Machine

open Sys2Proof

-- One theorem after another, so that no more of them wait for each other than the memory limit has threads for.
set_option Elab.async false

/-! ### The stages of a switch -/

/-- The last step of part C: the switch is committed (44 R195). -/
def commitEnd : M Unit :=
  mark (fun w => { w with committed := true, jumped := true, keepRf := true }) >>= fun _ =>
    upd fun s => { s with prefetch := Prefetch.empty }

/-- Steps B2 to C of a switch that has passed its tests in the state `s`. -/
def switchOut (kind : SwitchKind) (nsel : BitVec 16) (d : Desc) (eipSave : BitVec 32) (fl : Flags) (s : State) : M Unit :=
  saveTask eipSave (if kind = .iret then { fl with nt := false } else fl) >>= fun _ =>
    (if kind = .call then pure () else clearBusy s.tr.selector) >>= fun _ =>
      (if kind = .iret then pure () else setBusy nsel) >>= fun _ =>
        upd (commitSwitch nsel d) >>= fun _ =>
          (if kind = .call then linWrite d.base 2 (s.tr.selector.setWidth 32) false else pure ()) >>= fun _ => commitEnd

/-- The tests of a switch in the outgoing task, then the rest of it. -/
theorem leaveTask_eq (kind : SwitchKind) (nsel : BitVec 16) (d : Desc) (eipSave : BitVec 32) (fl : Flags) :
    leaveTask kind nsel d eipSave fl = st >>= fun s => need s.tr.valid .taskRegister >>= fun _ =>
      checkSel d.p .np nsel >>= fun _ => checkSel (kind == .iret || d.typ != 0xB) .gp nsel >>= fun _ =>
        checkSel (decide (103 ≤ d.effLimit.toNat)) .ts nsel >>= fun _ => probeSwitch kind nsel d >>= fun _ =>
          needNext s >>= fun _ => switchOut kind nsel d eipSave fl s := by
  cases kind <;> rfl

/-- The last step of part D: the offset lies in the new code segment, and the T bit of the new TSS (44 R192). -/
def startTask : M Unit :=
  st >>= fun s => extBit >>= fun x => check (s.eip.ule s.segs.cs.limit) (.gp x) >>= fun _ =>
    linRead (s.tr.base + 0x64) 2 false >>= fun t =>
      if bit t 0 then upd fun s => { s with pendingDbg := s.pendingDbg ||| 0x8000#32 } else pure ()

theorem enterTask_eq (kind : SwitchKind) :
    enterTask kind = loadTask kind >>= fun _ => loadTaskLdt >>= fun _ => loadTaskCs >>= fun _ => loadTaskSs >>= fun _ =>
      each loadTaskData [.ds, .es, .fs, .gs] >>= fun _ => startTask := rfl

/-- A segment register takes the descriptor that has passed its tests: the last step of D4 to D6 (44 R192). -/
def takeSeg (r : SegReg) (sel : BitVec 16) (d : Desc) : M Unit :=
  setAccessed sel d >>= fun _ => upd fun s => s.setSeg r (d.toSeg sel)

/-- The tests of the descriptor of CS, and the load (44 R192 D4). -/
def takeCs (sel : BitVec 16) (d : Desc) : M Unit :=
  checkSel d.isCode .ts sel >>= fun _ => checkSel d.p .np sel >>= fun _ =>
    checkSel ((d.ec || d.dpl == selRpl sel) && (!d.ec || d.dpl.ule (selRpl sel))) .ts sel >>= fun _ => takeSeg .cs sel d

/-- The level of the code segment is tested in two parts (44 R192 D4). -/
theorem takeCs_eq (sel : BitVec 16) (d : Desc) : takeCs sel d =
    checkSel d.isCode .ts sel >>= fun _ => checkSel d.p .np sel >>= fun _ =>
      checkSel (d.ec || d.dpl == selRpl sel) .ts sel >>= fun _ =>
        checkSel (!d.ec || d.dpl.ule (selRpl sel)) .ts sel >>= fun _ => takeSeg .cs sel d := by
  simp only [takeCs, checkSel_and]

/-- The tests of the descriptor of SS at the level `cpl`, and the load (44 R192 D5). -/
def takeSs (cpl : BitVec 2) (sel : BitVec 16) (d : Desc) : M Unit :=
  checkSel d.isWritableData .ts sel >>= fun _ => checkSel d.p .ss sel >>= fun _ => checkSel (d.dpl == cpl) .ts sel >>= fun _ =>
    checkSel (selRpl sel == cpl) .ts sel >>= fun _ => takeSeg .ss sel d

/-- The tests of the descriptor of DS, ES, FS or GS at the level `cpl`, and the load (44 R192 D6). -/
def takeData (r : SegReg) (cpl : BitVec 2) (sel : BitVec 16) (d : Desc) : M Unit :=
  checkSel (d.s && (!d.exec || d.wr)) .ts sel >>= fun _ => checkSel d.p .np sel >>= fun _ =>
    checkSel (d.isConforming || privOk d.dpl cpl (selRpl sel)) .ts sel >>= fun _ => takeSeg r sel d

/-- The tests of the descriptor of the LDT, and the load (44 R192 D3). -/
def takeLdt (sel : BitVec 16) (d : Desc) : M Unit :=
  checkSel (!d.s && d.typ == 2) .ts sel >>= fun _ => checkSel d.p .ts sel >>= fun _ =>
    upd fun s => { s with ldtr := { selector := sel, base := d.base, limit := d.effLimit, valid := true } }

section Stages

variable {w : Work} {r : SegReg}

theorem loadTaskLdt_null (h : isNull w.s.ldtr.selector = true) : loadTaskLdt w = .ok () w := by
  rw [loadTaskLdt, M.run_bind, run_st]
  dsimp only
  rw [if_pos h, M.run_pure]

theorem loadTaskLdt_named (h : isNull w.s.ldtr.selector = false) : loadTaskLdt w =
    (checkSel (!selTi w.s.ldtr.selector) .ts w.s.ldtr.selector >>= fun _ =>
      fetchDesc w.s.ldtr.selector .ts >>= takeLdt w.s.ldtr.selector) w := by
  rw [loadTaskLdt, M.run_bind, run_st]
  dsimp only
  rw [if_neg (by rw [h]; exact Bool.false_ne_true)]
  rfl

theorem loadTaskCs_eq (w : Work) : loadTaskCs w =
    (checkSel (!isNull w.s.segs.cs.selector) .ts w.s.segs.cs.selector >>= fun _ =>
      fetchDesc w.s.segs.cs.selector .ts >>= takeCs w.s.segs.cs.selector) w := by
  rw [funext (takeCs_eq w.s.segs.cs.selector)]
  rfl

theorem loadTaskSs_eq (w : Work) : loadTaskSs w =
    (checkSel (!isNull w.s.segs.ss.selector) .ts w.s.segs.ss.selector >>= fun _ =>
      fetchDesc w.s.segs.ss.selector .ts >>= takeSs w.s.cpl w.s.segs.ss.selector) w := rfl

theorem loadTaskData_null (h : isNull (w.s.seg r).selector = true) : loadTaskData r w = .ok () w := by
  rw [loadTaskData, M.run_bind, run_st]
  dsimp only
  rw [if_pos h, M.run_pure]

theorem loadTaskData_named (h : isNull (w.s.seg r).selector = false) : loadTaskData r w =
    (fetchDesc (w.s.seg r).selector .ts >>= takeData r w.s.cpl (w.s.seg r).selector) w := by
  rw [loadTaskData, M.run_bind, run_st]
  dsimp only
  rw [if_neg (by rw [h]; exact Bool.false_ne_true)]
  rfl

end Stages

/-! ### The tests of the incoming task (44 R192 D3 to D6) -/

section Tests

variable {w u x : Work} {sel : BitVec 16} {d : Desc} {o : EStateM.Result Stop Work Unit}

theorem takeSeg_ok (h : setAccessed sel d u = .ok () x) (r : SegReg) :
    takeSeg r sel d u = .ok () { x with s := x.s.setSeg r (d.toSeg sel) } := bind_of_ok h _

/-- A code segment is taken at the level of its selector (44 R192 D4). -/
theorem codeLevel_iff {ec : Bool} {dpl rpl : BitVec 2} :
    ((ec || dpl == rpl) && (!ec || dpl.ule rpl)) = true ↔ if ec then dpl.toNat ≤ rpl.toNat else dpl = rpl := by
  cases ec with
  | true => simp [BitVec.ule]
  | false => simp

theorem loadTaskLdt_checks (h : isNull w.s.ldtr.selector = false) :
    let ldt := w.s.ldtr.selector
    ChecksDescriptor (loadTaskLdt w) w ldt .ts [(selTi ldt = false, .ts (w.code ldt))]
      (fun d => [(d.s = false ∧ d.typ = 2, .ts (w.code ldt)), (d.p = true, .ts (w.code ldt))])
      fun d u => loadTaskLdt w = .ok () { u with s := { u.s with
        ldtr := { selector := ldt, base := d.base, limit := d.effLimit, valid := true } } } := by
  intro ldt
  refine firstFailure_checkSel (loadTaskLdt_named h) (accesses_rel.refl w) rfl (by simp [ldt]) fun _ ho => ?_
  refine firstFailure_fetchDesc ho fun d u _ hacc ho => ?_
  refine firstFailure_checkSel ho hacc rfl (by simp) fun _ ho => ?_
  exact firstFailure_checkSel ho hacc rfl Iff.rfl fun _ ho => ho

theorem loadTaskCs_checks (w : Work) :
    let cs := w.s.segs.cs.selector
    ChecksDescriptor (loadTaskCs w) w cs .ts [(isNull cs = false, .ts (w.code cs))]
      (fun d => [(d.isCode = true, .ts (w.code cs)), (d.p = true, .np (w.code cs)),
        (if d.ec then d.dpl.toNat ≤ (selRpl cs).toNat else d.dpl = selRpl cs, .ts (w.code cs))])
      (fun d u => ∀ x, setAccessed cs d u = .ok () x → loadTaskCs w = .ok () { x with s := x.s.setSeg .cs (d.toSeg cs) }) := by
  intro cs
  refine firstFailure_checkSel (loadTaskCs_eq w) (accesses_rel.refl w) rfl (by simp [cs]) fun _ ho => ?_
  refine firstFailure_fetchDesc ho fun d u _ hacc ho => ?_
  refine firstFailure_checkSel ho hacc rfl Iff.rfl fun _ ho => ?_
  refine firstFailure_checkSel ho hacc rfl Iff.rfl fun _ ho => ?_
  exact firstFailure_checkSel ho hacc rfl codeLevel_iff.symm fun _ ho x hx => ho.trans (takeSeg_ok hx .cs)

theorem loadTaskSs_checks (w : Work) :
    let ss := w.s.segs.ss.selector
    ChecksDescriptor (loadTaskSs w) w ss .ts [(isNull ss = false, .ts (w.code ss))]
      (fun d => [(d.isWritableData = true, .ts (w.code ss)), (d.p = true, .ss (w.code ss)),
        (d.dpl = w.s.cpl, .ts (w.code ss)), (selRpl ss = w.s.cpl, .ts (w.code ss))])
      (fun d u => ∀ x, setAccessed ss d u = .ok () x → loadTaskSs w = .ok () { x with s := x.s.setSeg .ss (d.toSeg ss) }) := by
  intro ss
  refine firstFailure_checkSel (loadTaskSs_eq w) (accesses_rel.refl w) rfl (by simp [ss]) fun _ ho => ?_
  refine firstFailure_fetchDesc ho fun d u _ hacc ho => ?_
  refine firstFailure_checkSel ho hacc rfl Iff.rfl fun _ ho => ?_
  refine firstFailure_checkSel ho hacc rfl Iff.rfl fun _ ho => ?_
  refine firstFailure_checkSel ho hacc rfl beq_iff_eq.symm fun _ ho => ?_
  exact firstFailure_checkSel ho hacc rfl beq_iff_eq.symm fun _ ho x hx => ho.trans (takeSeg_ok hx .ss)

theorem loadTaskData_checks {r : SegReg} (h : isNull (w.s.seg r).selector = false) :
    let sel := (w.s.seg r).selector
    ChecksDescriptor (loadTaskData r w) w sel .ts []
      (fun d => [(d.s = true ∧ (d.exec = true → d.wr = true), .ts (w.code sel)), (d.p = true, .np (w.code sel)),
        (d.isConforming = true ∨ (w.s.cpl.toNat ≤ d.dpl.toNat ∧ (selRpl sel).toNat ≤ d.dpl.toNat), .ts (w.code sel))])
      fun d u => ∀ x, setAccessed sel d u = .ok () x → loadTaskData r w = .ok () { x with s := x.s.setSeg r (d.toSeg sel) } := by
  intro sel
  refine firstFailure_fetchDesc (loadTaskData_named h) fun d u _ hacc ho => ?_
  refine firstFailure_checkSel ho hacc rfl (by cases d.exec <;> simp) fun _ ho => ?_
  refine firstFailure_checkSel ho hacc rfl Iff.rfl fun _ ho => ?_
  exact firstFailure_checkSel ho hacc rfl (by rw [Bool.or_eq_true, privOk_iff]) fun _ ho x hx => ho.trans (takeSeg_ok hx r)

end Tests

/-! ### A task gate (44 R190) -/

/-- What a task gate makes of the descriptor that its selector names. -/
def takeTask (kind : SwitchKind) (tsel : BitVec 16) (eipSave : BitVec 32) (fl : Flags) (d : Desc) : M Unit :=
  need (!(!d.s && (d.typ == 1 || d.typ == 3))) .format286 >>= fun _ =>
    checkSel (!d.s && (d.typ == 9 || d.typ == 0xB)) .gp tsel >>= fun _ => get >>= fun w =>
      if debugLoop w tsel d then upd fun s => { s with pendingDbg := s.pendingDbg ||| 0x8000#32 }
      else taskSwitch kind tsel d eipSave fl

section Gate

variable {kind : SwitchKind} {tsel : BitVec 16} {eipSave : BitVec 32} {fl : Flags} {d : Desc} {v : Work}

theorem switchThroughGate_eq (kind : SwitchKind) (tsel : BitVec 16) (eipSave : BitVec 32) (fl : Flags) :
    switchThroughGate kind tsel eipSave fl = checkSel (!isNull tsel && !selTi tsel) .gp tsel >>= fun _ =>
      fetchDesc tsel .gp >>= takeTask kind tsel eipSave fl := rfl

theorem takeTask_286 (hs : d.s = false) (htyp : d.typ = 1 ∨ d.typ = 3) :
    takeTask kind tsel eipSave fl d v = .error (.refuse .format286) v := by
  obtain h | h := htyp <;> simp [takeTask, run_need, hs, h]

theorem takeTask_other (h : ¬ (d.s = false ∧ d.typ ∈ [1, 3, 9, 0xB])) :
    takeTask kind tsel eipSave fl d v = .error (.exc (.gp (v.code tsel))) v := by
  have h286 : (!(!d.s && (d.typ == 1 || d.typ == 3))) = true := by
    cases hs : d.s with
    | true => rfl
    | false => simp_all
  have htss : (!d.s && (d.typ == 9 || d.typ == 0xB)) = false := by
    cases hs : d.s with
    | true => rfl
    | false => simp_all
  rw [takeTask, h286, htss, M.run_bind, run_need_true]
  dsimp only
  rw [M.run_bind, run_checkSel]
  rfl

/-- A TSS of the 80386, available or busy. -/
theorem takeTask_tss (hs : d.s = false) (htyp : d.typ = 9 ∨ d.typ = 0xB) : takeTask kind tsel eipSave fl d v =
    (if debugLoop v tsel d then upd fun s => { s with pendingDbg := s.pendingDbg ||| 0x8000#32 }
      else taskSwitch kind tsel d eipSave fl) v := by
  obtain h | h := htyp <;> simp [takeTask, run_need, run_checkSel, hs, h]

theorem switchThroughGate_checks (kind : SwitchKind) (tsel : BitVec 16) (eipSave : BitVec 32) (fl : Flags) (w : Work) :
    let o := switchThroughGate kind tsel eipSave fl w
    ChecksDescriptor o w tsel .gp [(isNull tsel = false ∧ selTi tsel = false, .gp (w.code tsel))] (fun _ => [])
      fun d v =>
        (d.s = false → d.typ = 1 ∨ d.typ = 3 → o = .error (.refuse .format286) v) ∧
        (¬ (d.s = false ∧ d.typ ∈ [1, 3, 9, 0xB]) → o = .error (.exc (.gp (w.code tsel))) v) ∧
        (d.s = false → d.typ = 9 ∨ d.typ = 0xB → debugLoop v tsel d = false → o = taskSwitch kind tsel d eipSave fl v) ∧
        (d.s = false → d.typ = 0xB → d.p = true → v.taskTrap = true →
          tsel.extractLsb' 3 13 = v.s.tr.selector.extractLsb' 3 13 →
          o = .ok () { v with s := { v.s with pendingDbg := v.s.pendingDbg ||| 0x8000#32 } }) := by
  intro o
  have heq : o = (checkSel (!isNull tsel && !selTi tsel) .gp tsel >>= fun _ =>
      fetchDesc tsel .gp >>= takeTask kind tsel eipSave fl) w := congrFun (switchThroughGate_eq kind tsel eipSave fl) w
  refine firstFailure_checkSel heq (accesses_rel.refl w) rfl (by simp) fun _ ho => ?_
  refine firstFailure_fetchDesc ho fun d v _ hacc ho => ?_
  rw [← hacc.code tsel]
  refine ⟨fun hs htyp => ho.trans (takeTask_286 hs htyp), fun hother => ho.trans (takeTask_other hother),
    fun hs htyp hloop => ?switches, fun hs htyp hp htrap hsame => ?loops⟩
  case switches => rw [ho, takeTask_tss hs htyp, hloop, if_neg Bool.false_ne_true]
  case loops =>
    have hloop : debugLoop v tsel d = true := by simp [debugLoop, htrap, hsame, hp, htyp]
    rw [ho, takeTask_tss hs (.inr htyp), hloop, if_pos rfl, run_upd]

end Gate

end Sys2Proof.Machine
end


section
/-! A task switch: what the stages of the incoming task may change, and what the load of its state makes of the registers
(44 R192 D1, D2; R195). -/

namespace Sys2Proof.Machine

open Sys2Proof

-- One theorem after another, so that no more of them wait for each other than the memory limit has threads for.
set_option Elab.async false

/-! ### What part D may change -/

/-- What the stages of the incoming task may change: the registers of a task, what an access touches, and the pending trap. -/
structure EntersW (w v : Work) : Prop where
  state : v.s = { w.s with
    gpr := v.s.gpr, eip := v.s.eip, flags := v.s.flags, cpl := v.s.cpl, segs := v.s.segs, ldtr := v.s.ldtr, pdbr := v.s.pdbr,
    tlb := v.s.tlb, pendingDbg := v.s.pendingDbg, prefetch := v.s.prefetch, mem := v.s.mem, env := v.s.env }
  same : v = { w with s := v.s, sticky := v.sticky, hitOn := v.hitOn, hitOff := v.hitOff }

theorem enters_rel : StepRel EntersW where
  refl _ := ⟨rfl, rfl⟩
  trans u v w h1 h2 := by
    have hstate := h2.state
    have hsame := h2.same
    rw [h1.state] at hstate
    rw [h1.same] at hsame
    exact ⟨hstate, hsame⟩

theorem EntersW.tr {w v : Work} (h : EntersW w v) : v.s.tr = w.s.tr := by rw [h.state]
theorem EntersW.cr0 {w v : Work} (h : EntersW w v) : v.s.cr0 = w.s.cr0 := by rw [h.state]
theorem EntersW.committed {w v : Work} (h : EntersW w v) : v.committed = w.committed := by rw [h.same]
theorem EntersW.extCode {w v : Work} (h : EntersW w v) : v.extCode = w.extCode := by rw [h.same]; rfl

theorem AccessesW.enters {w v : Work} (h : AccessesW w v) : EntersW w v := by
  refine ⟨?_, h.same⟩
  rw [h.state.same]

section Enters

variable {α β : Type}

/-- `m` is a part of the stages of the incoming task. -/
def Enters (m : M α) : Prop := Within EntersW m

theorem Within.enters {m : M α} (h : Within AccessesW m) : Enters m := fun w => (h w).enters

theorem Enters.bind {x : M α} {f : α → M β} (hx : Enters x) (hf : ∀ a, Enters (f a)) : Enters (x >>= f) :=
  within_bind enters_rel hx hf

theorem Enters.ite {c : Prop} [Decidable c] {x y : M α} (hx : Enters x) (hy : Enters y) : Enters (if c then x else y) :=
  within_ite hx hy

theorem Enters.pure {a : α} : Enters (pure a : M α) := within_pure enters_rel a

theorem Enters.st : Enters st := within_st enters_rel

theorem Enters.checkSel {c : Bool} {k : CodeExc} {sel : BitVec 16} : Enters (checkSel c k sel) :=
  (checkSel_accesses c k sel).enters

theorem Enters.upd {f : State → State} (h : ∀ s, f s = { s with
    gpr := (f s).gpr, eip := (f s).eip, flags := (f s).flags, cpl := (f s).cpl, segs := (f s).segs, ldtr := (f s).ldtr,
    pdbr := (f s).pdbr, tlb := (f s).tlb, pendingDbg := (f s).pendingDbg } := by intro _; rfl) : Enters (Machine.upd f) :=
  within_upd fun w => ⟨by rw [h w.s], rfl⟩

/-- Raising an answered exception changes nothing. -/
theorem leftWork_raiseFirst (l : List (Option Exc)) (w : Work) : leftWork (raiseFirst l w) = w := by
  induction l with
  | nil => rfl
  | cons o t ih =>
    cases o with
    | none => exact ih
    | some e => rfl

theorem TaskItem.load_enters (kind : SwitchKind) (v : BitVec 32) (i : TaskItem) : Enters (i.load kind v) := by
  cases i with
  | flags => exact .bind (within_need enters_rel _ _) fun _ => .upd
  | _ =>
    rw [TaskItem.load]
    exact .upd

theorem loadItem_enters (kind : SwitchKind) (i : TaskItem) : Enters (loadItem kind i) := by
  refine .bind .st fun _ => .bind (within_attempt (linRead_accesses _ _ _).enters) fun r => ?_
  cases r with
  | ok v => exact .bind (TaskItem.load_enters _ _ _) fun _ => .pure
  | error e => exact .bind draw_accesses.enters fun _ => .bind (TaskItem.load_enters _ _ _) fun _ => .pure

theorem switchDirectory_enters : Enters switchDirectory := by
  refine .bind .st fun _ => .ite (.bind (within_attempt (linRead_accesses _ _ _).enters) fun r => ?_) .pure
  cases r with
  | ok v => exact .bind .upd fun _ => .pure
  | error e => exact .pure

theorem loadTask_enters (kind : SwitchKind) : Enters (loadTask kind) :=
  .bind .upd fun _ => .bind switchDirectory_enters fun _ =>
    .bind (within_gather enters_rel (loadItem_enters kind) _) fun _ w => by
      rw [leftWork_raiseFirst]
      exact enters_rel.refl w

theorem takeLdt_enters (sel : BitVec 16) (d : Desc) : Enters (takeLdt sel d) :=
  .bind .checkSel fun _ => .bind .checkSel fun _ => .upd

theorem takeSeg_enters (r : SegReg) (sel : BitVec 16) (d : Desc) : Enters (takeSeg r sel d) :=
  .bind (setAccessed_accesses _ _).enters fun _ => .upd

theorem takeCs_enters (sel : BitVec 16) (d : Desc) : Enters (takeCs sel d) :=
  .bind .checkSel fun _ => .bind .checkSel fun _ => .bind .checkSel fun _ => takeSeg_enters _ _ _

theorem takeSs_enters (cpl : BitVec 2) (sel : BitVec 16) (d : Desc) : Enters (takeSs cpl sel d) :=
  .bind .checkSel fun _ => .bind .checkSel fun _ => .bind .checkSel fun _ => .bind .checkSel fun _ => takeSeg_enters _ _ _

theorem takeData_enters (r : SegReg) (cpl : BitVec 2) (sel : BitVec 16) (d : Desc) : Enters (takeData r cpl sel d) :=
  .bind .checkSel fun _ => .bind .checkSel fun _ => .bind .checkSel fun _ => takeSeg_enters _ _ _

theorem loadTaskLdt_enters : Enters loadTaskLdt :=
  .bind .st fun s => .ite .pure <| .bind .checkSel fun _ => .bind (fetchDesc_accesses _ _).enters
    (takeLdt_enters s.ldtr.selector)

theorem loadTaskCs_enters : Enters loadTaskCs := by
  intro w
  rw [loadTaskCs_eq]
  exact Enters.bind .checkSel (fun _ => .bind (fetchDesc_accesses _ _).enters (takeCs_enters _)) w

theorem loadTaskSs_enters : Enters loadTaskSs :=
  .bind .st fun s => .bind .checkSel fun _ => .bind (fetchDesc_accesses _ _).enters (takeSs_enters s.cpl _)

theorem loadTaskData_enters (r : SegReg) : Enters (loadTaskData r) :=
  .bind .st fun s => .ite .pure <| .bind (fetchDesc_accesses _ _).enters (takeData_enters r s.cpl _)

theorem startTask_enters : Enters startTask :=
  .bind .st fun _ => .bind extBit_accesses.enters fun _ => .bind (within_check enters_rel _ _) fun _ =>
    .bind (linRead_accesses _ _ _).enters fun _ => .ite .upd .pure

theorem enterTask_enters (kind : SwitchKind) : Enters (enterTask kind) :=
  .bind (loadTask_enters kind) fun _ => .bind loadTaskLdt_enters fun _ => .bind loadTaskCs_enters fun _ =>
    .bind loadTaskSs_enters fun _ => .bind (within_each enters_rel loadTaskData_enters _) fun _ => startTask_enters

end Enters

/-! ### The stages of part D in their order (44 R192) -/

/-- A stage for each element of a list, and the stages after them; `R` is what each stage keeps to. -/
theorem runsThrough_each {α : Type} {R : Work → Work → Prop} (hR : StepRel R) {f : α → M Unit} (hf : ∀ a, Within R (f a))
    {o : EStateM.Result Stop Work Unit} {n : Unit → M Unit} {ends : Work → Prop} (l : List α) {w : Work}
    (ho : o = (each f l >>= n) w) (h : ∀ v, R w v → o = n () v → ends v) : RunsThrough o (l.map f) w ends := by
  induction l generalizing w with
  | nil => exact h w (hR.refl w) ho
  | cons a t ih =>
    rw [each, bind_assoc] at ho
    exact runsThrough_bind ho fun v hv ho => ih ho fun u hu ho => h u (hR.trans _ _ _ ((hf a).ok hv) hu) ho

/-- An offset beyond the new code segment, and one inside it. -/
theorem startTask_checks {o : EStateM.Result Stop Work Unit} {v : Work} (ho : o = startTask v) :
    FirstFailure o v [(v.s.eip.toNat ≤ v.s.segs.cs.limit.toNat, .gp v.extCode)]
      (∀ t u, linRead (v.s.tr.base + 0x64) 2 false v = .ok t u →
        o = .ok () { u with s := { u.s with
          pendingDbg := if bit t 0 then u.s.pendingDbg ||| 0x8000#32 else u.s.pendingDbg } }) := by
  refine firstFailure_check ho ule_iff.symm fun _ ho t u ht => ?_
  rw [ho, M.run_bind, ht]
  cases hbit : bit t 0 with
  | true => simp [hbit]
  | false => simp [hbit]

theorem enterTask_runsThrough (kind : SwitchKind) (w : Work) :
    RunsThrough (enterTask kind w)
      ([loadTask kind, loadTaskLdt, loadTaskCs, loadTaskSs] ++ [.ds, .es, .fs, .gs].map loadTaskData) w
      fun v => EntersW w v ∧ enterTask kind w = startTask v := by
  refine runsThrough_bind (congrFun (enterTask_eq kind) w) fun w1 h1 ho => ?_
  refine runsThrough_bind ho fun w2 h2 ho => ?_
  refine runsThrough_bind ho fun w3 h3 ho => ?_
  refine runsThrough_bind ho fun w4 h4 ho => ?_
  have henter : EntersW w w4 := enters_rel.trans _ _ _ ((loadTask_enters kind).ok h1) <|
    enters_rel.trans _ _ _ (loadTaskLdt_enters.ok h2) <| enters_rel.trans _ _ _ (loadTaskCs_enters.ok h3)
      (loadTaskSs_enters.ok h4)
  exact runsThrough_each enters_rel loadTaskData_enters _ ho fun v hv ho => ⟨enters_rel.trans _ _ _ henter hv, ho⟩

theorem RunsThrough.mono {o : EStateM.Result Stop Work Unit} {stages : List (M Unit)} {w : Work} {p q : Work → Prop}
    (h : RunsThrough o stages w p) (hpq : ∀ v, p v → q v) : RunsThrough o stages w q := by
  induction stages generalizing w with
  | nil => exact hpq w h
  | cons m stages ih => exact ⟨h.1, fun v hv => ih (h.2 v hv)⟩

/-! ### The registers of the incoming task (44 R192 D2) -/

/-- The registers of `t` hold what item `i` of the TSS gives them, `v` being its value. -/
def TaskItem.Holds (kind : SwitchKind) (v : BitVec 32) (t : State) : TaskItem → Prop
  | .ldt => t.ldtr.selector = lo16 v
  | .eip => t.eip = v
  | .flags => t.flags = taskFlags kind v ∧ bit v 17 = false
  | .gpr r => t.reg r = v
  | .sel r => (t.seg r).selector = lo16 v ∧ (t.seg r).valid = false ∧ (r = .cs → t.cpl = selRpl (lo16 v))

theorem mem_taskItems (i : TaskItem) : i ∈ taskItems := by
  cases i with
  | gpr r => cases r <;> decide
  | sel r => cases r <;> decide
  | _ => decide

theorem nodup_taskItems : taskItems.Nodup := by decide

/-- What the load of the registers alone may change. -/
structure RegistersW (w v : Work) : Prop where
  state : v.s = { w.s with
    gpr := v.s.gpr, eip := v.s.eip, flags := v.s.flags, cpl := v.s.cpl, segs := v.s.segs, ldtr := v.s.ldtr }
  ldt : v.s.ldtr.valid = w.s.ldtr.valid
  same : v = { w with s := v.s }

theorem registers_rel : StepRel RegistersW where
  refl _ := ⟨rfl, rfl, rfl⟩
  trans u v w h1 h2 := by
    have hstate := h2.state
    have hsame := h2.same
    rw [h1.state] at hstate
    rw [h1.same] at hsame
    exact ⟨hstate, h2.ldt.trans h1.ldt, hsame⟩

theorem RegistersW.mem {w v : Work} (h : RegistersW w v) : v.s.mem = w.s.mem := by rw [h.state]
theorem RegistersW.tr {w v : Work} (h : RegistersW w v) : v.s.tr = w.s.tr := by rw [h.state]
theorem RegistersW.pdbr {w v : Work} (h : RegistersW w v) : v.s.pdbr = w.s.pdbr := by rw [h.state]
theorem RegistersW.allRam {w v : Work} (h : RegistersW w v) (hram : AllRam w.s) : AllRam v.s :=
  hram.of_same (by rw [h.state]) (by rw [h.state])

section Items

variable {kind : SwitchKind} {i j : TaskItem} {x y : BitVec 32} {w u : Work}

theorem flags_load_eq_ok (h : TaskItem.flags.load kind x w = .ok () u) :
    bit x 17 = false ∧ u = { w with s := { w.s with flags := taskFlags kind x } } := by
  obtain ⟨_, v, hneed, hupd⟩ := bind_eq_ok.1 h
  obtain ⟨hbit, rfl⟩ := need_eq_ok.1 hneed
  cases hupd
  exact ⟨by simpa using hbit, rfl⟩

theorem TaskItem.load_registers (h : i.load kind x w = .ok () u) : RegistersW w u := by
  cases i with
  | flags =>
    obtain ⟨-, rfl⟩ := flags_load_eq_ok h
    exact ⟨rfl, rfl, rfl⟩
  | _ =>
    cases h
    exact ⟨rfl, rfl, rfl⟩

/-- An item that is loaded is held. -/
theorem TaskItem.holds_load (h : i.load kind x w = .ok () u) : i.Holds kind x u.s := by
  cases i with
  | flags =>
    obtain ⟨hbit, rfl⟩ := flags_load_eq_ok h
    exact ⟨rfl, hbit⟩
  | gpr r =>
    cases h
    exact State.reg_setReg _ r x
  | sel r =>
    cases h
    have hseg := State.seg_setSeg w.s r { w.s.seg r with selector := lo16 x, valid := false }
    exact ⟨congrArg Seg.selector hseg, congrArg Seg.valid hseg, fun hr => if_pos hr⟩
  | _ =>
    cases h
    rfl

/-- An item that is held stays so when another one is loaded. -/
theorem TaskItem.holds_load_ne (h : j.load kind x w = .ok () u) (hij : i ≠ j) (hi : i.Holds kind y w.s) :
    i.Holds kind y u.s := by
  cases j with
  | flags =>
    obtain ⟨-, rfl⟩ := flags_load_eq_ok h
    cases i with
    | flags => exact absurd rfl hij
    | _ => exact hi
  | gpr r =>
    cases h
    cases i with
    | gpr q => exact (State.reg_setReg_ne w.s x fun hq => hij (congrArg _ hq)).trans hi
    | _ => exact hi
  | sel r =>
    cases h
    cases i with
    | sel q =>
      have hqr : q ≠ r := fun hq => hij (congrArg _ hq)
      have hseg := State.seg_setSeg_ne w.s { w.s.seg r with selector := lo16 x, valid := false } hqr
      obtain ⟨hsel, hvalid, hcpl⟩ := hi
      refine ⟨(congrArg Seg.selector hseg).trans hsel, (congrArg Seg.valid hseg).trans hvalid, fun hq => ?_⟩
      exact (if_neg fun hr => hqr (hq.trans hr.symm)).trans (hcpl hq)
    | _ => exact hi
  | ldt =>
    cases h
    cases i with
    | ldt => exact absurd rfl hij
    | _ => exact hi
  | eip =>
    cases h
    cases i with
    | eip => exact absurd rfl hij
    | _ => exact hi

theorem TaskItem.Holds.of_accesses {s t : State} (hi : i.Holds kind y s) (h : Accesses s t) : i.Holds kind y t := by
  rw [h.same]
  cases i <;> exact hi

theorem attempt_eq_ok {α : Type} {m : M α} {r : Except Exc α} {v : Work} (h : attempt m w = .ok r v) :
    (∃ a, r = .ok a ∧ m w = .ok a v) ∨ ∃ e, r = .error e ∧ m w = .error (.exc e) v := by
  unfold attempt at h
  cases hm : m w with
  | ok a v' =>
    rw [hm] at h
    cases h
    exact .inl ⟨a, rfl, rfl⟩
  | error e v' =>
    rw [hm] at h
    cases e with
    | exc e =>
      cases h
      exact .inr ⟨e, rfl, rfl⟩
    | _ => cases h

/-- An item is read, or drawn where it cannot be, and then loaded; with paging off it is read. -/
theorem loadItem_eq_ok {o : Option Exc} (h : loadItem kind i w = .ok o u) :
    ∃ x v, AccessesW w v ∧ i.load kind x v = .ok () u ∧
      (AllRam w.s → v = w ∧ x = w.s.valueAt (w.s.tr.base + i.offset) i.bytes) := by
  obtain ⟨s, w1, hst, h⟩ := bind_eq_ok.1 h
  cases hst
  obtain ⟨r, w2, hread, h⟩ := bind_eq_ok.1 h
  have hbytes : i.bytes ≠ 0 := by cases i <;> exact Nat.succ_ne_zero _
  have hram : AllRam w.s → linRead (w.s.tr.base + i.offset) i.bytes false w =
      .ok (w.s.valueAt (w.s.tr.base + i.offset) i.bytes) w := fun hram => linRead_ram hram _ hbytes false
  obtain ⟨x, rfl, hok⟩ | ⟨e, rfl, herr⟩ := attempt_eq_ok hread
  · obtain ⟨_, w3, hload, h⟩ := bind_eq_ok.1 h
    cases h
    refine ⟨x, w2, (linRead_accesses _ _ _).ok hok, hload, fun h => ?_⟩
    cases hok.symm.trans (hram h)
    exact ⟨rfl, rfl⟩
  · obtain ⟨x, w3, hdraw, h⟩ := bind_eq_ok.1 h
    obtain ⟨_, w4, hload, h⟩ := bind_eq_ok.1 h
    cases h
    refine ⟨_, w3, accesses_rel.trans _ _ _ ((linRead_accesses _ _ _).error herr) (draw_accesses.ok hdraw), hload, fun h => ?_⟩
    cases herr.symm.trans (hram h)

/-- All items of a list that are loaded are held at the end; with paging off they are those of the TSS. -/
theorem gather_loadItem {l : List TaskItem} {os : List (Option Exc)} (h : gather (loadItem kind) l w = .ok os u)
    (hl : l.Nodup) :
    (∀ i ∈ l, ∃ x, i.Holds kind x u.s ∧ (AllRam w.s → x = w.s.valueAt (w.s.tr.base + i.offset) i.bytes)) ∧
    (∀ i : TaskItem, i ∉ l → ∀ y, i.Holds kind y w.s → i.Holds kind y u.s) ∧
    u.s.ldtr.valid = w.s.ldtr.valid ∧ (AllRam w.s → RegistersW w u) := by
  induction l generalizing w os with
  | nil =>
    cases h
    exact ⟨nofun, fun _ _ _ hi => hi, rfl, fun _ => registers_rel.refl _⟩
  | cons j l ih =>
    obtain ⟨_, w1, hone, h⟩ := bind_eq_ok.1 h
    obtain ⟨_, w2, hrest, h⟩ := bind_eq_ok.1 h
    cases h
    obtain ⟨hj, hl⟩ := List.nodup_cons.1 hl
    obtain ⟨x, v, hacc, hload, hread⟩ := loadItem_eq_ok hone
    have hloaded := TaskItem.load_registers hload
    obtain ⟨hall, hkept, hldt, hregs⟩ := ih hrest hl
    refine ⟨fun i hi => ?_, fun i hi y hy => ?_, ?_, fun hram => ?_⟩
    · obtain rfl | hi := List.mem_cons.1 hi
      · exact ⟨x, hkept i hj x (TaskItem.holds_load hload), fun hram => (hread hram).2⟩
      · obtain ⟨y, hy, hval⟩ := hall i hi
        refine ⟨y, hy, fun hram => ?_⟩
        obtain ⟨rfl, -⟩ := hread hram
        rw [hval (hloaded.allRam hram), State.valueAt, State.valueAt, hloaded.tr]
        refine congrArg ofBytes (List.map_congr_left fun a _ => ?_)
        rw [State.byteAt, State.byteAt, hloaded.mem]
    · obtain ⟨hij, hi⟩ := not_or.1 (fun h => hi (List.mem_cons.2 h))
      exact hkept i hi y (TaskItem.holds_load_ne hload hij (hy.of_accesses hacc.state))
    · rw [hldt, hloaded.ldt, hacc.state.ldtr]
    · obtain ⟨rfl, -⟩ := hread hram
      exact registers_rel.trans _ _ _ hloaded (hregs (hloaded.allRam hram))

end Items

/-! ### The load of the incoming task, whether it ends or raises a page fault (44 R195) -/

section LoadTask

variable {α β : Type} {kind : SwitchKind} {w v : Work}

/-- No exception is raised in `m`. -/
def RaisesNone (m : M α) : Prop := ∀ w e v, m w ≠ .error (.exc e) v

theorem RaisesNone.bind {x : M α} {f : α → M β} (hx : RaisesNone x) (hf : ∀ a, RaisesNone (f a)) : RaisesNone (x >>= f) := by
  intro w e v h
  rw [M.run_bind] at h
  cases hxw : x w with
  | ok a u =>
    rw [hxw] at h
    exact hf a u e v h
  | error s u =>
    rw [hxw] at h
    cases h
    exact hx w e v hxw

theorem RaisesNone.pure {a : α} : RaisesNone (pure a : M α) := fun _ _ _ h => by cases h

theorem RaisesNone.upd {f : State → State} : RaisesNone (Machine.upd f) := fun _ _ _ h => by cases h

theorem RaisesNone.st : RaisesNone Machine.st := fun _ _ _ h => by cases h

theorem RaisesNone.attempt {m : M α} : RaisesNone (Machine.attempt m) := by
  intro w e v h
  unfold Machine.attempt at h
  cases hm : m w with
  | ok a u => rw [hm] at h; cases h
  | error s u => rw [hm] at h; cases s <;> cases h

theorem RaisesNone.gather {f : α → M β} (hf : ∀ a, RaisesNone (f a)) (l : List α) : RaisesNone (gather f l) := by
  induction l with
  | nil => exact .pure
  | cons a t ih => exact .bind (hf a) fun _ => .bind ih fun _ => .pure

theorem TaskItem.load_raisesNone (kind : SwitchKind) (v : BitVec 32) (i : TaskItem) : RaisesNone (i.load kind v) := by
  cases i with
  | flags =>
    refine .bind (fun w e v h => ?_) fun _ => .upd
    rw [run_need] at h
    split at h <;> cases h
  | _ =>
    rw [TaskItem.load]
    exact .upd

theorem draw_raisesNone : RaisesNone draw := by
  intro w e v h
  obtain ⟨x, env, hdraw, -⟩ := draw_ok w
  cases hdraw.symm.trans h

theorem loadItem_raisesNone (kind : SwitchKind) (i : TaskItem) : RaisesNone (loadItem kind i) := by
  refine .bind .st fun _ => .bind .attempt fun r => ?_
  cases r with
  | ok v => exact .bind (i.load_raisesNone kind v) fun _ => .pure
  | error e => exact .bind draw_raisesNone fun _ => .bind (i.load_raisesNone kind _) fun _ => .pure

theorem switchDirectory_raisesNone : RaisesNone switchDirectory := by
  refine .bind .st fun s => ?_
  cases s.cr0.pg with
  | false => exact .pure
  | true =>
    refine .bind .attempt fun r => ?_
    cases r with
    | ok v => exact .bind .upd fun _ => .pure
    | error e => exact .pure

theorem switchDirectory_ldt {o : Option Exc} (h : switchDirectory w = .ok o v) : v.s.ldtr = w.s.ldtr := by
  obtain ⟨s, w1, hst, h⟩ := bind_eq_ok.1 h
  cases hst
  cases hpg : w.s.cr0.pg with
  | false =>
    rw [hpg, if_neg Bool.false_ne_true] at h
    cases h
    rfl
  | true =>
    rw [hpg, if_pos rfl] at h
    obtain ⟨r, w2, hread, h⟩ := bind_eq_ok.1 h
    have hldtr := ((within_attempt (linRead_accesses _ _ _)).ok hread).state.ldtr
    cases r with
    | ok x =>
      obtain ⟨_, w3, hupd, h⟩ := bind_eq_ok.1 h
      cases hupd
      cases h
      exact hldtr
    | error e =>
      cases h
      exact hldtr

theorem switchDirectory_off (h : w.s.cr0.pg = false) : switchDirectory w = .ok none w := by
  rw [switchDirectory, M.run_bind, run_st]
  dsimp only
  rw [h, if_neg Bool.false_ne_true, M.run_pure]

/-- The registers after step D2: all items of the TSS have been loaded, none is valid that a descriptor has yet to fill. -/
structure LoadedTask (kind : SwitchKind) (w v : Work) : Prop where
  items : ∀ i : TaskItem, ∃ x, i.Holds kind x v.s ∧ (AllRam w.s → x = w.s.valueAt (w.s.tr.base + i.offset) i.bytes)
  ldt : v.s.ldtr.valid = false
  registers : AllRam w.s → RegistersW { w with s := dropTask w.s } v

theorem loadTask_loaded (h : loadTask kind w = .ok () v ∨ ∃ e, loadTask kind w = .error (.exc e) v) :
    LoadedTask kind w v := by
  have hrun : loadTask kind w = (switchDirectory >>= fun dir => gather (loadItem kind) taskItems >>= fun items =>
      raiseFirst (dir :: items)) { w with s := dropTask w.s } := rfl
  rw [hrun, M.run_bind] at h
  cases hdir : switchDirectory { w with s := dropTask w.s } with
  | error e u =>
    rw [hdir] at h
    obtain h | ⟨e, h⟩ := h
    · cases h
    · cases h
      exact absurd hdir (switchDirectory_raisesNone _ _ _)
  | ok dir u =>
    rw [hdir] at h
    dsimp only at h
    rw [M.run_bind] at h
    cases hitems : gather (loadItem kind) taskItems u with
    | error e x =>
      rw [hitems] at h
      obtain h | ⟨e, h⟩ := h
      · cases h
      · cases h
        exact absurd hitems (RaisesNone.gather (loadItem_raisesNone kind) _ _ _ _)
    | ok items x =>
      rw [hitems] at h
      have hx := leftWork_raiseFirst (dir :: items) x
      obtain rfl : v = x := by
        obtain h | ⟨e, h⟩ := h <;>
        · dsimp only at h
          rw [h] at hx
          exact hx
      have hoff : AllRam w.s → u = { w with s := dropTask w.s } := fun hram => by
        cases hdir.symm.trans (switchDirectory_off hram.paging)
        rfl
      obtain ⟨hall, -, hldt, hregs⟩ := gather_loadItem hitems nodup_taskItems
      refine ⟨fun i => ?_, hldt.trans (congrArg _ (switchDirectory_ldt hdir)), fun hram => ?_⟩
      · obtain ⟨y, hy, hval⟩ := hall i (mem_taskItems i)
        refine ⟨y, hy, fun hram => ?_⟩
        obtain rfl := hoff hram
        exact hval (hram.of_same rfl rfl)
      · obtain rfl := hoff hram
        exact hregs (hram.of_same rfl rfl)

theorem LoadedTask.invalid (h : LoadedTask kind w v) (r : SegReg) : (v.s.seg r).valid = false := by
  obtain ⟨x, ⟨-, hvalid, -⟩, -⟩ := h.items (.sel r)
  exact hvalid

theorem LoadedTask.cpl (h : LoadedTask kind w v) : v.s.cpl = selRpl v.s.segs.cs.selector := by
  obtain ⟨x, ⟨hsel, -, hcpl⟩, -⟩ := h.items (.sel .cs)
  exact (hcpl rfl).trans (congrArg selRpl hsel.symm)

end LoadTask

end Sys2Proof.Machine
end


section
/-! A task switch: the outgoing task (44 R192 A to C). The tests, and what is left of state and memory where every physical
address is RAM. -/

namespace Sys2Proof.Machine

open Sys2Proof

-- One theorem after another, so that no more of them wait for each other than the memory limit has threads for.
set_option Elab.async false

/-! ### The outgoing task's side (44 R192, R195) -/

section Leave

variable {α β : Type} {kind : SwitchKind} {nsel : BitVec 16} {d : Desc} {eipSave : BitVec 32} {fl : Flags} {s : State}
  {w x : Work}

/-- Where `m` stops, the switch is not committed by it. -/
def StopsUncommitted (m : M α) : Prop := ∀ w e v, m w = .error e v → v.committed = w.committed

theorem AccessesW.committed {w v : Work} (h : AccessesW w v) : v.committed = w.committed := by rw [h.same]

theorem StopsUncommitted.bind {x : M α} {f : α → M β} (hx : Within AccessesW x) (hf : ∀ a, StopsUncommitted (f a)) :
    StopsUncommitted (x >>= f) := by
  intro w e v h
  rw [M.run_bind] at h
  cases hxw : x w with
  | ok a u =>
    rw [hxw] at h
    exact (hf a u e v h).trans (hx.ok hxw).committed
  | error s u =>
    rw [hxw] at h
    cases h
    exact (hx.error hxw).committed

theorem StopsUncommitted.bind_upd {f : State → State} {m : Unit → M α} (hm : StopsUncommitted (m ())) :
    StopsUncommitted (upd f >>= m) := fun w e v h => hm { w with s := f w.s } e v h

/-- The work after the last step of part C. -/
def Work.commit (w : Work) : Work :=
  { w with s := { w.s with prefetch := Prefetch.empty }, committed := true, jumped := true, keepRf := true }

theorem run_commitEnd (w : Work) : commitEnd w = .ok () w.commit := rfl

theorem clearOld_accesses (kind : SwitchKind) (sel : BitVec 16) :
    Within AccessesW (if kind = .call then pure () else clearBusy sel) :=
  within_ite (within_pure accesses_rel ()) (clearBusy_accesses sel)

theorem setNew_accesses (kind : SwitchKind) (sel : BitVec 16) :
    Within AccessesW (if kind = .iret then pure () else setBusy sel) :=
  within_ite (within_pure accesses_rel ()) (setBusy_accesses sel)

theorem linkBack_accesses (kind : SwitchKind) (a v : BitVec 32) :
    Within AccessesW (if kind = .call then linWrite a 2 v false else pure ()) :=
  within_ite (linWrite_accesses a 2 v false) (within_pure accesses_rel ())

theorem switchOut_stopsUncommitted : StopsUncommitted (switchOut kind nsel d eipSave fl s) :=
  .bind (saveTask_accesses _ _) fun _ => .bind (clearOld_accesses _ _) fun _ => .bind (setNew_accesses _ _) fun _ =>
    .bind_upd <| .bind (linkBack_accesses _ _ _) fun _ _ _ _ h => by cases h

theorem leaveTask_stopsUncommitted : StopsUncommitted (leaveTask kind nsel d eipSave fl) := by
  rw [leaveTask_eq]
  exact .bind (within_st accesses_rel) fun _ => .bind (within_need accesses_rel _ _) fun _ => .bind (checkSel_accesses _ _ _)
    fun _ => .bind (checkSel_accesses _ _ _) fun _ => .bind (checkSel_accesses _ _ _) fun _ =>
      .bind (probeSwitch_accesses _ _ _) fun _ => .bind (within_need accesses_rel _ _) fun _ => switchOut_stopsUncommitted

/-- What a switch that is committed leaves: accesses before and after the load of TR, TS and DR7. -/
structure LeftTask (nsel : BitVec 16) (d : Desc) (w u v x : Work) : Prop where
  before : AccessesW w u
  after : AccessesW { u with s := commitSwitch nsel d u.s } v
  committed : x = v.commit

theorem switchOut_eq_ok (h : switchOut kind nsel d eipSave fl s w = .ok () x) : ∃ u v, LeftTask nsel d w u v x := by
  obtain ⟨_, w1, hsave, h⟩ := bind_eq_ok.1 h
  obtain ⟨_, w2, hclear, h⟩ := bind_eq_ok.1 h
  obtain ⟨_, w3, hset, h⟩ := bind_eq_ok.1 h
  obtain ⟨_, w4, hcommit, h⟩ := bind_eq_ok.1 h
  cases hcommit
  obtain ⟨_, w5, hlink, h⟩ := bind_eq_ok.1 h
  cases h
  exact ⟨w3, w5, accesses_rel.trans _ _ _ ((saveTask_accesses _ _).ok hsave) <|
    accesses_rel.trans _ _ _ ((clearOld_accesses _ _).ok hclear) ((setNew_accesses _ _).ok hset),
    (linkBack_accesses _ _ _).ok hlink, rfl⟩

/-- With paging off there is nothing to probe (44 R195). -/
theorem probeSwitch_flat {w : Work} (h : w.s.cr0.pg = false) (kind : SwitchKind) (nsel : BitVec 16) (d : Desc) :
    probeSwitch kind nsel d w = .ok () w := by
  cases kind <;> simp [probeSwitch, linProbe_flat h]

/-- A switch that is committed has passed its tests. -/
theorem leaveTask_eq_ok (h : leaveTask kind nsel d eipSave fl w = .ok () x) :
    (d.p = true ∧ (kind ≠ .iret → d.typ ≠ 0xB) ∧ 103 ≤ d.effLimit.toNat) ∧ (∃ u v, LeftTask nsel d w u v x) ∧
      (w.s.cr0.pg = false → switchOut kind nsel d eipSave fl w.s w = .ok () x) := by
  rw [leaveTask_eq] at h
  obtain ⟨s, w1, hst, h⟩ := bind_eq_ok.1 h
  cases hst
  obtain ⟨_, w2, hneed, h⟩ := bind_eq_ok.1 h
  obtain ⟨-, rfl⟩ := need_eq_ok.1 hneed
  obtain ⟨_, w3, hpresent, h⟩ := bind_eq_ok.1 h
  obtain ⟨hp, rfl⟩ := checkSel_eq_ok hpresent
  obtain ⟨_, w4, hfree, h⟩ := bind_eq_ok.1 h
  obtain ⟨hbusy, rfl⟩ := checkSel_eq_ok hfree
  obtain ⟨_, w5, hsize, h⟩ := bind_eq_ok.1 h
  obtain ⟨hlimit, rfl⟩ := checkSel_eq_ok hsize
  obtain ⟨_, w6, hprobe, h⟩ := bind_eq_ok.1 h
  obtain ⟨_, w7, hnext, hout⟩ := bind_eq_ok.1 h
  obtain ⟨-, rfl⟩ := need_eq_ok.1 hnext
  obtain ⟨u, v, hleft⟩ := switchOut_eq_ok hout
  refine ⟨⟨hp, fun hk => ?_, of_decide_eq_true hlimit⟩, ⟨u, v, ?_, hleft.after, hleft.committed⟩, fun hpg => ?_⟩
  · simpa [hk] using hbusy
  · exact accesses_rel.trans _ _ _ ((probeSwitch_accesses _ _ _).ok hprobe) hleft.before
  · cases hprobe.symm.trans (probeSwitch_flat hpg kind nsel d)
    exact hout

section Left

variable {u v : Work}

theorem LeftTask.state (h : LeftTask nsel d w u v x) : x.s = { w.s with
    tr := { selector := nsel, base := d.base, limit := d.effLimit, valid := true }, cr0 := { w.s.cr0 with ts := true },
    dr7 := w.s.dr7 &&& 0xFFFFFEAA#32, tlb := x.s.tlb, prefetch := x.s.prefetch, mem := x.s.mem, env := x.s.env } := by
  rw [h.committed]
  have hbefore := h.before.state.same
  have hafter := h.after.state.same
  rw [hbefore] at hafter
  rw [Work.commit, hafter]
  rfl

end Left

end Leave

/-! ### The items of a TSS (44 R185) -/

/-- Two fields of one structure that do not overlap. -/
theorem span_disjoint {a p q x : BitVec 32} {n k : Nat} (hp : p.toNat + n ≤ 2 ^ 32) (hq : q.toNat + k ≤ 2 ^ 32)
    (h : p.toNat + n ≤ q.toNat ∨ q.toNat + k ≤ p.toNat) (hx : x ∈ span (a + p) n) : x ∉ span (a + q) k := by
  intro hx'
  obtain ⟨i, hi, rfl⟩ := mem_span.1 hx
  obtain ⟨j, hj, hij⟩ := mem_span.1 hx'
  rw [BitVec.add_assoc, BitVec.add_assoc] at hij
  have hnat := congrArg BitVec.toNat ((BitVec.add_right_inj a).1 hij)
  simp only [BitVec.toNat_add, BitVec.toNat_ofNat] at hnat
  omega

/-- A field of a structure lies in it. -/
theorem span_subset {a p q x : BitVec 32} {n m : Nat} (hp : q.toNat ≤ p.toNat) (hn : p.toNat + n ≤ q.toNat + m)
    (hx : x ∈ span (a + p) n) : x ∈ span (a + q) m := by
  obtain ⟨i, hi, rfl⟩ := mem_span.1 hx
  refine mem_span.2 ⟨p.toNat - q.toNat + i, by omega, ?_⟩
  rw [BitVec.add_assoc, BitVec.add_assoc, BitVec.add_right_inj]
  apply BitVec.eq_of_toNat_eq
  simp only [BitVec.toNat_add, BitVec.toNat_ofNat]
  omega

/-- A field of a TSS lies in it. -/
theorem mem_tss_of_field {base p x : BitVec 32} {n : Nat} (hn : p.toNat + n ≤ 104) (hx : x ∈ span (base + p) n) :
    x ∈ span base 104 := by
  have h := span_subset (q := 0#32) (m := 104) (Nat.zero_le _) (by simpa using hn) hx
  rwa [BitVec.add_zero] at h

theorem not_mem_link_of_field {base p x : BitVec 32} {n : Nat} (hp : 2 ≤ p.toNat) (hn : p.toNat + n ≤ 104)
    (hx : x ∈ span (base + p) n) : x ∉ span base 2 := by
  have h := span_disjoint (q := 0#32) (k := 2) (by omega) (by decide) (.inr (by simpa using hp)) hx
  rwa [BitVec.add_zero] at h

theorem TaskItem.bytes_le (i : TaskItem) : 1 ≤ i.bytes ∧ i.bytes ≤ 4 := by
  cases i <;> simp [TaskItem.bytes]

theorem taskItems_inside : ∀ i ∈ taskItems, 0x20 ≤ i.offset.toNat ∧ i.offset.toNat + i.bytes ≤ 0x62 := by decide

theorem taskItems_disjoint : ∀ i ∈ taskItems, ∀ j ∈ taskItems, i ≠ j →
    i.offset.toNat + i.bytes ≤ j.offset.toNat ∨ j.offset.toNat + j.bytes ≤ i.offset.toNat := by decide

/-- The item lies past the back link, in the first 104 bytes. -/
theorem TaskItem.inside (i : TaskItem) : 0x20 ≤ i.offset.toNat ∧ i.offset.toNat + i.bytes ≤ 0x62 :=
  taskItems_inside i (mem_taskItems i)

theorem TaskItem.apart {i j : TaskItem} (h : i ≠ j) {base x : BitVec 32} (hx : x ∈ span (base + i.offset) i.bytes) :
    x ∉ span (base + j.offset) j.bytes :=
  span_disjoint (by have := i.inside; omega) (by have := j.inside; omega)
    (taskItems_disjoint i (mem_taskItems i) j (mem_taskItems j) h) hx

theorem TaskItem.inTss (i : TaskItem) {base x : BitVec 32} (hx : x ∈ span (base + i.offset) i.bytes) : x ∈ span base 104 :=
  mem_tss_of_field (by have := i.inside; omega) hx

/-! ### What the outgoing task's TSS receives (44 R192 B2) -/

/-- The items that are saved: all but the LDT. -/
def savedItems : List TaskItem := [.eip, .flags] ++ allRegs.map .gpr ++ allSegs.map .sel

/-- What an item receives of the state. -/
def TaskItem.saved (s : State) (eipSave : BitVec 32) (fl : Flags) : TaskItem → BitVec 32
  | .ldt => s.ldtr.selector.setWidth 32
  | .eip => eipSave
  | .flags => fl.toBits
  | .gpr r => s.reg r
  | .sel r => (s.seg r).selector.setWidth 32

/-- The state after items of the TSS at `base` have been stored one by one. -/
def State.storeItems (s : State) (base : BitVec 32) (val : TaskItem → BitVec 32) : List TaskItem → State
  | [] => s
  | i :: l => (s.store (base + i.offset) i.bytes (val i)).storeItems base val l

section Saved

variable {s : State} {base : BitVec 32} {val : TaskItem → BitVec 32} {l : List TaskItem} {w : Work}

theorem nodup_savedItems : savedItems.Nodup := by decide

theorem mem_savedItems {i : TaskItem} (h : i ≠ .ldt) : i ∈ savedItems := by
  cases i with
  | ldt => exact absurd rfl h
  | gpr r => cases r <;> decide
  | sel r => cases r <;> decide
  | _ => decide

theorem savedItems_inside : ∀ i ∈ savedItems, i.offset.toNat + i.bytes ≤ 0x5E := by decide

theorem State.storeItems_same (s : State) (base : BitVec 32) (val : TaskItem → BitVec 32) (l : List TaskItem) :
    ∃ m st, s.storeItems base val l = { s with mem := m, prefetch := { s.prefetch with stored := st } } := by
  induction l generalizing s with
  | nil => exact ⟨s.mem, s.prefetch.stored, rfl⟩
  | cons i l ih =>
    obtain ⟨m, st, h⟩ := s.store_same (base + i.offset) i.bytes (val i)
    obtain ⟨m', st', h'⟩ := ih (s.store (base + i.offset) i.bytes (val i))
    exact ⟨m', st', h'.trans (by rw [h])⟩

theorem State.wf_storeItems (hm : Memory.wf s.mem = true) : Memory.wf (s.storeItems base val l).mem = true := by
  induction l generalizing s with
  | nil => exact hm
  | cons i l ih => exact ih (State.wf_store hm _ _ _)

theorem State.byteAt_storeItems_other (hm : Memory.wf s.mem = true) {a : BitVec 32}
    (ha : ∀ i ∈ l, a ∉ span (base + i.offset) i.bytes) : (s.storeItems base val l).byteAt a = s.byteAt a := by
  induction l generalizing s with
  | nil => rfl
  | cons i l ih =>
    exact (ih (State.wf_store hm _ _ _) fun j hj => ha j (List.mem_cons_of_mem _ hj)).trans
      (State.byteAt_store_other hm (ha i List.mem_cons_self))

/-- Values are a matter of the bytes there. -/
theorem State.valueAt_congr {s t : State} {a : BitVec 32} {n : Nat} (h : ∀ x ∈ span a n, t.byteAt x = s.byteAt x) :
    t.valueAt a n = s.valueAt a n := congrArg ofBytes (List.map_congr_left h)

/-- An item that is stored is read back. -/
theorem State.valueAt_storeItems (hm : Memory.wf s.mem = true) (hl : l.Nodup) {i : TaskItem} (hi : i ∈ l) :
    (s.storeItems base val l).valueAt (base + i.offset) i.bytes = lowBytes i.bytes (val i) := by
  induction l generalizing s with
  | nil => cases hi
  | cons j l ih =>
    obtain ⟨hj, hl⟩ := List.nodup_cons.1 hl
    obtain rfl | hi := List.mem_cons.1 hi
    · refine (State.valueAt_congr fun x hx => ?_).trans (State.valueAt_store hm _ i.bytes_le.2 _)
      exact State.byteAt_storeItems_other (State.wf_store hm _ _ _) fun k hk =>
        TaskItem.apart (ne_of_mem_of_not_mem hk hj).symm hx
    · exact ih (State.wf_store hm _ _ _) hl hi

theorem each_storeItems (h : AllRam w.s) (base : BitVec 32) (val : TaskItem → BitVec 32) (l : List TaskItem) :
    each (fun i => linWrite (base + i.offset) i.bytes (val i) false) l w =
      .ok () { w with s := w.s.storeItems base val l } := by
  induction l generalizing w with
  | nil => rfl
  | cons i l ih =>
    have hbytes : i.bytes ≠ 0 := Nat.one_le_iff_ne_zero.1 i.bytes_le.1
    rw [each, M.run_bind, linWrite_ram h _ hbytes]
    exact ih (h.store _ _ _)

theorem each_append {α : Type} (f : α → M Unit) (l m : List α) : each f (l ++ m) = each f l >>= fun _ => each f m := by
  induction l with
  | nil => rfl
  | cons a l ih => rw [List.cons_append, each, ih, each, bind_assoc]

theorem each_map {α β : Type} (f : β → M Unit) (g : α → β) (l : List α) : each f (l.map g) = each (fun a => f (g a)) l := by
  induction l with
  | nil => rfl
  | cons a l ih => rw [List.map_cons, each, ih, each]

theorem saveTask_items (eipSave : BitVec 32) (fl : Flags) (w : Work) : saveTask eipSave fl w =
    each (fun i => linWrite (w.s.tr.base + i.offset) i.bytes (i.saved w.s eipSave fl) false) savedItems w := by
  rw [savedItems, List.append_assoc, each_append, each_append, each_map, each_map]
  simp only [each, bind_assoc, pure_bind]
  rfl

theorem saveTask_ram (h : AllRam w.s) (eipSave : BitVec 32) (fl : Flags) : saveTask eipSave fl w = .ok () { w with
    s := w.s.storeItems w.s.tr.base (fun i => i.saved w.s eipSave fl) savedItems } := by
  rw [saveTask_items]
  exact each_storeItems h _ _ _

end Saved

end Sys2Proof.Machine
end


section
/-! A task switch: the memory that the outgoing task leaves where every physical address is RAM (44 R192 B2 to C3), and the
tests in the outgoing task in their order. -/

namespace Sys2Proof.Machine

open Sys2Proof

-- One theorem after another, so that no more of them wait for each other than the memory limit has threads for.
set_option Elab.async false

/-! ### The busy bits (44 R192 B3, C1) -/

/-- The state after the access byte of a descriptor has been changed, if `c`. -/
def State.changeAccess (s : State) (c : Bool) (sel : BitVec 16) (f : Byte → Byte) : State :=
  if c then s.storeBytes [(accessByte s sel, f (s.byteAt (accessByte s sel)))] else s

section ChangeAccess

variable {s : State} {sel : BitVec 16} {f : Byte → Byte} {w : Work}

theorem changeAccess_ram (h : AllRam w.s) (sel : BitVec 16) (f : Byte → Byte) :
    Machine.changeAccess sel f w = .ok () { w with s := w.s.changeAccess true sel f } := by
  have hspan : span (accessByte w.s sel) 1 = [accessByte w.s sel] := by simp [span]
  unfold Machine.changeAccess
  simp only [M.run_bind, run_st, linAccess_flat h.paging, hspan, List.headD_cons, (physReadByte_mem _ w).2 (h.ram _),
    physWriteByte_ram (h.ram _)]
  rfl

theorem State.changeAccess_same (s : State) (c : Bool) (sel : BitVec 16) (f : Byte → Byte) :
    ∃ m st, s.changeAccess c sel f = { s with mem := m, prefetch := { s.prefetch with stored := st } } := by
  cases c with
  | false => exact ⟨s.mem, s.prefetch.stored, rfl⟩
  | true => exact s.storeBytes_same _

theorem State.wf_changeAccess (hm : Memory.wf s.mem = true) (c : Bool) (sel : BitVec 16) (f : Byte → Byte) :
    Memory.wf (s.changeAccess c sel f).mem = true := by
  cases c with
  | false => exact hm
  | true => exact State.wf_storeBytes hm _

theorem State.byteAt_changeAccess (hm : Memory.wf s.mem = true) (c : Bool) (a : BitVec 32) :
    (s.changeAccess c sel f).byteAt a = if c = true ∧ a = accessByte s sel then f (s.byteAt a) else s.byteAt a := by
  cases c with
  | false => simp [State.changeAccess]
  | true =>
    simp only [State.changeAccess, if_true, State.byteAt, State.storeBytes, Memory.read_write hm, BitVec.toNat_inj, true_and]
    split
    · rename_i ha
      rw [ha]
    · rfl

end ChangeAccess

/-! ### Memory at the commit (44 R192 B2, B3, C1, C2) -/

/-- The state when the outgoing task is saved. -/
def State.saveTask (s : State) (eipSave : BitVec 32) (fl : Flags) : State :=
  s.storeItems s.tr.base (fun i => i.saved s eipSave fl) savedItems

/-- The state when the outgoing task is saved and the busy bits are those of the new task. -/
def State.suspend (s : State) (kind : SwitchKind) (nsel : BitVec 16) (eipSave : BitVec 32) (fl : Flags) : State :=
  ((s.saveTask eipSave fl).changeAccess (kind != .call) s.tr.selector (· &&& 0xFD#8)).changeAccess (kind != .iret) nsel
    (· ||| 2#8)

/-- The back link of a CALL (44 R192 C2). -/
def State.linkBack (s : State) (kind : SwitchKind) (base : BitVec 32) (old : BitVec 16) : State :=
  if kind = .call then s.store base 2 (old.setWidth 32) else s

/-- The flags that the outgoing task's TSS receives (44 R192 B1). -/
def savedFlags (kind : SwitchKind) (fl : Flags) : Flags := if kind = .iret then { fl with nt := false } else fl

section Suspend

variable {kind : SwitchKind} {nsel : BitVec 16} {d : Desc} {eipSave : BitVec 32} {fl : Flags} {s : State} {w : Work}

theorem State.saveTask_same (s : State) (eipSave : BitVec 32) (fl : Flags) :
    ∃ m st, s.saveTask eipSave fl = { s with mem := m, prefetch := { s.prefetch with stored := st } } :=
  s.storeItems_same _ _ _

theorem State.wf_saveTask (hm : Memory.wf s.mem = true) : Memory.wf (s.saveTask eipSave fl).mem = true := State.wf_storeItems hm

theorem AllRam.changeAccess (h : AllRam s) (c : Bool) (sel : BitVec 16) (f : Byte → Byte) : AllRam (s.changeAccess c sel f) := by
  obtain ⟨m, st, hsame⟩ := s.changeAccess_same c sel f
  exact h.of_same (by rw [hsame]) (by rw [hsame])

theorem AllRam.saveTask (h : AllRam s) (eipSave : BitVec 32) (fl : Flags) : AllRam (s.saveTask eipSave fl) := by
  obtain ⟨m, st, hsame⟩ := s.saveTask_same eipSave fl
  exact h.of_same (by rw [hsame]) (by rw [hsame])

theorem clearOld_ram (h : AllRam w.s) (kind : SwitchKind) (sel : BitVec 16) :
    (if kind = .call then pure () else clearBusy sel) w =
      .ok () { w with s := w.s.changeAccess (kind != .call) sel (· &&& 0xFD#8) } := by
  cases kind with
  | call => rfl
  | _ => exact changeAccess_ram h _ _

theorem setNew_ram (h : AllRam w.s) (kind : SwitchKind) (sel : BitVec 16) :
    (if kind = .iret then pure () else setBusy sel) w =
      .ok () { w with s := w.s.changeAccess (kind != .iret) sel (· ||| 2#8) } := by
  cases kind with
  | iret => rfl
  | _ => exact changeAccess_ram h _ _

theorem linkBack_ram (h : AllRam w.s) (kind : SwitchKind) (base : BitVec 32) (old : BitVec 16) :
    (if kind = .call then linWrite base 2 (old.setWidth 32) false else pure ()) w =
      .ok () { w with s := w.s.linkBack kind base old } := by
  cases kind with
  | call => exact linWrite_ram h base (by decide) _ false
  | _ => rfl

theorem AllRam.suspend (h : AllRam s) (kind : SwitchKind) (nsel : BitVec 16) (eipSave : BitVec 32) (fl : Flags) :
    AllRam (s.suspend kind nsel eipSave fl) := ((h.saveTask _ _).changeAccess _ _ _).changeAccess _ _ _

/-- The state at the commit, but for the queue. -/
def State.leave (s : State) (kind : SwitchKind) (nsel : BitVec 16) (d : Desc) (eipSave : BitVec 32) (fl : Flags) : State :=
  (commitSwitch nsel d (s.suspend kind nsel eipSave fl)).linkBack kind d.base s.tr.selector

theorem switchOut_ram (h : AllRam w.s) : switchOut kind nsel d eipSave fl w.s w =
    .ok () (Work.commit { w with s := w.s.leave kind nsel d eipSave (savedFlags kind fl) }) := by
  have hsaved := h.saveTask eipSave (savedFlags kind fl)
  have hcleared := hsaved.changeAccess (kind != .call) w.s.tr.selector (· &&& 0xFD#8)
  have hcommit : AllRam (commitSwitch nsel d (w.s.suspend kind nsel eipSave (savedFlags kind fl))) :=
    have hbusy := h.suspend kind nsel eipSave (savedFlags kind fl)
    ⟨hbusy.paging, hbusy.ram⟩
  calc switchOut kind nsel d eipSave fl w.s w
    _ = _ := bind_of_ok (saveTask_ram h eipSave (savedFlags kind fl)) _
    _ = _ := bind_of_ok (clearOld_ram (w := { w with s := w.s.saveTask eipSave (savedFlags kind fl) }) hsaved kind _) _
    _ = _ := bind_of_ok (setNew_ram (w := { w with s := _ }) hcleared kind nsel) _
    _ = _ := bind_of_ok (run_upd _ _) _
    _ = _ := bind_of_ok (linkBack_ram (w := { w with s := _ }) hcommit kind d.base _) _
    _ = _ := run_commitEnd _

theorem accessByte_congr {t : State} (hldtr : t.ldtr = s.ldtr) (hgdtr : t.gdtr = s.gdtr) (sel : BitVec 16) :
    accessByte t sel = accessByte s sel := by
  rw [accessByte, accessByte, hldtr, hgdtr]

theorem State.wf_suspend (hm : Memory.wf s.mem = true) : Memory.wf (s.suspend kind nsel eipSave fl).mem = true :=
  State.wf_changeAccess (State.wf_changeAccess (State.wf_saveTask hm) _ _ _) _ _ _

/-- Each byte at the commit, but for the back link: saved, then with the busy bits changed. -/
theorem State.byteAt_suspend (hm : Memory.wf s.mem = true) (a : BitVec 32) :
    let saved := (s.saveTask eipSave fl).byteAt a
    let cleared := if kind ≠ .call ∧ a = accessByte s s.tr.selector then saved &&& 0xFD#8 else saved
    (s.suspend kind nsel eipSave fl).byteAt a =
      if kind ≠ .iret ∧ a = accessByte s nsel then cleared ||| 2#8 else cleared := by
  intro saved cleared
  obtain ⟨m1, st1, h1⟩ := s.saveTask_same eipSave fl
  obtain ⟨m2, st2, h2⟩ := (s.saveTask eipSave fl).changeAccess_same (kind != .call) s.tr.selector (· &&& 0xFD#8)
  have hsaved := accessByte_congr (t := s.saveTask eipSave fl) (s := s) (by rw [h1]) (by rw [h1])
  have hcleared := accessByte_congr (t := (s.saveTask eipSave fl).changeAccess (kind != .call) s.tr.selector (· &&& 0xFD#8))
    (s := s.saveTask eipSave fl) (by rw [h2]) (by rw [h2])
  have hwf : Memory.wf (s.saveTask eipSave fl).mem = true := State.wf_saveTask hm
  rw [State.suspend, State.byteAt_changeAccess (State.wf_changeAccess hwf _ _ _), State.byteAt_changeAccess hwf, hcleared, hsaved,
    hsaved]
  simp only [bne_iff_ne, cleared, saved]

/-- A byte that neither the saved registers nor a busy bit touches. -/
theorem State.byteAt_suspend_other (hm : Memory.wf s.mem = true) {a : BitVec 32} (hsaved : a ∉ span (s.tr.base + 0x20#32) 0x3E)
    (hold : kind ≠ .call → a ≠ accessByte s s.tr.selector) (hnew : kind ≠ .iret → a ≠ accessByte s nsel) :
    (s.suspend kind nsel eipSave fl).byteAt a = s.byteAt a := by
  rw [State.byteAt_suspend hm, if_neg fun h => hnew h.1 h.2, if_neg fun h => hold h.1 h.2]
  refine State.byteAt_storeItems_other hm fun i hi ha => hsaved ?_
  have hinside := savedItems_inside i hi
  exact span_subset i.inside.1 (by simpa using hinside) ha

/-- The outgoing task's registers are in its TSS, where no busy bit lies. -/
theorem State.valueAt_suspend (hm : Memory.wf s.mem = true) (hbusy : ∀ sel, sel = s.tr.selector ∨ sel = nsel →
      accessByte s sel ∉ span s.tr.base 104) {i : TaskItem} (hi : i ∈ savedItems) :
    (s.suspend kind nsel eipSave fl).valueAt (s.tr.base + i.offset) i.bytes = lowBytes i.bytes (i.saved s eipSave fl) := by
  refine (State.valueAt_congr fun x hx => ?_).trans (State.valueAt_storeItems hm nodup_savedItems hi)
  have hne (sel : BitVec 16) (hsel : sel = s.tr.selector ∨ sel = nsel) : x ≠ accessByte s sel :=
    fun h => hbusy sel hsel (h ▸ i.inTss hx)
  rw [State.byteAt_suspend hm, if_neg fun h => hne nsel (.inr rfl) h.2, if_neg fun h => hne _ (.inl rfl) h.2]
  rfl

theorem busy_set (b : Byte) : (b ||| 2#8) &&& 2#8 = 2#8 := by revert b; decide

theorem busy_clear (b : Byte) : (b &&& 0xFD#8) &&& 2#8 = 0#8 := by revert b; decide

theorem State.busy_suspend (hm : Memory.wf s.mem = true) (hkind : kind ≠ .iret) :
    (s.suspend kind nsel eipSave fl).byteAt (accessByte s nsel) &&& 2#8 = 2#8 := by
  rw [State.byteAt_suspend hm, if_pos ⟨hkind, rfl⟩]
  exact busy_set _

theorem State.free_suspend (hm : Memory.wf s.mem = true) (hkind : kind ≠ .call)
    (hne : accessByte s s.tr.selector ≠ accessByte s nsel ∨ kind = .iret) :
    (s.suspend kind nsel eipSave fl).byteAt (accessByte s s.tr.selector) &&& 2#8 = 0#8 := by
  rw [State.byteAt_suspend hm, if_neg fun h => hne.elim (fun hn => hn h.2) h.1, if_pos ⟨hkind, rfl⟩]
  exact busy_clear _

end Suspend

/-! ### The back link (44 R192 C2) -/

/-- Memory at the commit of a switch from `s`, which leaves `t`: the outgoing task is saved, a CALL has linked back to it, the
busy bits are changed, and every other byte is as it was. -/
structure Suspended (kind : SwitchKind) (nsel : BitVec 16) (base : BitVec 32) (eipSave : BitVec 32) (fl : Flags) (s t : State) :
    Prop where
  saved : ∀ i ∈ savedItems, t.valueAt (s.tr.base + i.offset) i.bytes = lowBytes i.bytes (i.saved s eipSave fl)
  link : kind = .call → t.valueAt base 2 = s.tr.selector.setWidth 32
  busy : kind ≠ .iret → t.byteAt (accessByte s nsel) &&& 2#8 = 2#8
  free : kind ≠ .call → accessByte s s.tr.selector ≠ accessByte s nsel ∨ kind = .iret →
    t.byteAt (accessByte s s.tr.selector) &&& 2#8 = 0#8

/-- A byte that a switch from `s` does not write to before it is committed. -/
structure Untouched (kind : SwitchKind) (nsel : BitVec 16) (base : BitVec 32) (s : State) (a : BitVec 32) : Prop where
  saved : a ∉ span (s.tr.base + 0x20#32) 0x3E
  old : kind ≠ .call → a ≠ accessByte s s.tr.selector
  new : kind ≠ .iret → a ≠ accessByte s nsel
  link : kind = .call → a ∉ span base 2

/-- A selector is two bytes. -/
theorem lowBytes_two_setWidth (v : BitVec 16) : lowBytes 2 (v.setWidth 32) = v.setWidth 32 := by
  rw [lowBytes_two]
  apply BitVec.eq_of_toNat_eq
  rw [BitVec.toNat_and, show (0xFFFF#32).toNat = 2 ^ 16 - 1 from rfl, Nat.and_two_pow_sub_one_eq_mod, BitVec.toNat_setWidth]
  omega

section Link

variable {kind : SwitchKind} {nsel : BitVec 16} {d : Desc} {eipSave : BitVec 32} {fl : Flags} {s t : State} {a : BitVec 32}

theorem State.byteAt_linkBack (hm : Memory.wf s.mem = true) {base : BitVec 32} {old : BitVec 16}
    (ha : kind = .call → a ∉ span base 2) : (s.linkBack kind base old).byteAt a = s.byteAt a := by
  cases kind with
  | call => exact State.byteAt_store_other hm (ha rfl)
  | _ => rfl

theorem State.byteAt_leave (hm : Memory.wf s.mem = true) (ha : kind = .call → a ∉ span d.base 2) :
    (s.leave kind nsel d eipSave fl).byteAt a = (s.suspend kind nsel eipSave fl).byteAt a :=
  State.byteAt_linkBack (s := commitSwitch nsel d (s.suspend kind nsel eipSave fl)) (State.wf_suspend hm) ha

theorem State.byteAt_leave_other (hm : Memory.wf s.mem = true) (ha : Untouched kind nsel d.base s a) :
    (s.leave kind nsel d eipSave fl).byteAt a = s.byteAt a :=
  (State.byteAt_leave hm ha.link).trans (State.byteAt_suspend_other hm ha.saved ha.old ha.new)

/-- The back link lies in the new TSS. -/
theorem mem_tss_of_link {base x : BitVec 32} (h : x ∈ span base 2) : x ∈ span base 104 := by
  rw [← BitVec.add_zero base] at h ⊢
  exact span_subset le_rfl (by decide) h

theorem State.suspended_leave (hm : Memory.wf s.mem = true) (hapart : TasksApart s t nsel d.base) :
    Suspended kind nsel d.base eipSave fl s (s.leave kind nsel d eipSave fl) := by
  have hold (sel : BitVec 16) (hsel : sel = s.tr.selector ∨ sel = nsel) : accessByte s sel ∉ span s.tr.base 104 :=
    fun h => hapart.busy sel hsel (List.mem_append_left _ h)
  have hlink (sel : BitVec 16) (hsel : sel = s.tr.selector ∨ sel = nsel) : accessByte s sel ∉ span d.base 2 :=
    fun h => hapart.busy sel hsel (List.mem_append_right _ (mem_tss_of_link h))
  refine ⟨fun i hi => ?saved, fun hkind => ?link, fun hkind => ?busy, fun hkind hne => ?free⟩
  case saved =>
    refine (State.valueAt_congr fun x hx => State.byteAt_leave hm fun _ h => ?_).trans (State.valueAt_suspend hm hold hi)
    exact hapart.tasks x (i.inTss hx) (mem_tss_of_link h)
  case link =>
    subst hkind
    refine (State.valueAt_store (s := commitSwitch nsel d (s.suspend .call nsel eipSave fl)) (State.wf_suspend hm) d.base
      (by decide) _).trans ?_
    exact lowBytes_two_setWidth _
  case busy => rw [State.byteAt_leave hm fun _ => hlink nsel (.inr rfl), State.busy_suspend hm hkind]
  case free => rw [State.byteAt_leave hm fun _ => hlink _ (.inl rfl), State.free_suspend hm hkind hne]

end Link

/-! ### The tests in the outgoing task (44 R192 A) -/

theorem leaveTask_checks {w : Work} (htr : w.s.tr.valid = true) (kind : SwitchKind) (nsel : BitVec 16) (d : Desc)
    (eipSave : BitVec 32) (fl : Flags) :
    let o := leaveTask kind nsel d eipSave fl w
    FirstFailure o w [(d.p = true, .np (w.code nsel)), (kind ≠ .iret → d.typ ≠ 0xB, .gp (w.code nsel)),
      (103 ≤ d.effLimit.toNat, .ts (w.code nsel))] (AllRam w.s →
        if w.s.eip.toNat + w.s.insn.len < 2 ^ 32 then ∃ x, o = .ok () x else ∃ x, o = .error (.refuse .eipWrap) x) := by
  intro o
  have ho : o = (checkSel d.p .np nsel >>= fun _ => checkSel (kind == .iret || d.typ != 0xB) .gp nsel >>= fun _ =>
      checkSel (decide (103 ≤ d.effLimit.toNat)) .ts nsel >>= fun _ => probeSwitch kind nsel d >>= fun _ =>
        needNext w.s >>= fun _ => switchOut kind nsel d eipSave fl w.s) w := by
    refine (congrFun (leaveTask_eq kind nsel d eipSave fl) w).trans ?_
    rw [M.run_bind, run_st]
    exact bind_of_ok (need_ok htr _ w) _
  refine firstFailure_checkSel ho (accesses_rel.refl w) rfl Iff.rfl fun _ ho => ?_
  refine firstFailure_checkSel ho (accesses_rel.refl w) rfl (by cases kind <;> simp) fun _ ho => ?_
  refine firstFailure_checkSel ho (accesses_rel.refl w) rfl decide_eq_true_iff.symm fun _ ho hram => ?_
  rw [bind_of_ok (probeSwitch_flat hram.paging kind nsel d)] at ho
  by_cases hroom : w.s.eip.toNat + w.s.insn.len < 2 ^ 32
  · rw [if_pos hroom]
    exact ⟨_, ho.trans ((bind_of_ok (needNext_ok hroom w) _).trans (switchOut_ram hram))⟩
  · rw [if_neg hroom]
    exact ⟨_, ho.trans (bind_of_error (need_refuses (decide_eq_false hroom) .eipWrap w) _)⟩

end Sys2Proof.Machine
end


section
/-! A task switch: the loads of LDTR and of the segment registers of the incoming task (44 R192 D3 to D6), and what their
accessed bits leave of the descriptors (20 R77). -/

namespace Sys2Proof.Machine

open Sys2Proof

-- One theorem after another, so that no more of them wait for each other than the memory limit has threads for.
set_option Elab.async false

/-! ### Accessed bits of descriptors (20 R77) -/

/-- Bits of a number are those of its bytes (20 R62). -/
theorem getLsbD_ofBytes (l : List (BitVec 8)) {k i : Nat} (hi : i < 8) (hk : 8 * k + i < 32) :
    (ofBytes l).getLsbD (8 * k + i) = (l.getD k 0#8).getLsbD i := by
  induction l generalizing k with
  | nil => simp [ofBytes]
  | cons b l ih =>
    rw [ofBytes, BitVec.getLsbD_or, BitVec.getLsbD_shiftLeft, BitVec.getLsbD_setWidth]
    cases k with
    | zero =>
      have hlow : i < 32 := by omega
      simp [hi, hlow]
    | succ k =>
      have hnext : 8 * (k + 1) + i - 8 = 8 * k + i := by omega
      have hhigh : ¬ 8 * (k + 1) + i < 8 := by omega
      have hnone : b.getLsbD (8 * (k + 1) + i) = false := BitVec.getLsbD_of_ge _ _ (by omega)
      rw [hnext, ih (by omega), hnone]
      simp [hk, hhigh]

theorem State.getLsbD_valueAt (s : State) (a : BitVec 32) {k i : Nat} (hk : k < 4) (hi : i < 8) :
    (s.valueAt a 4).getLsbD (8 * k + i) = (s.byteAt (a + BitVec.ofNat 32 k)).getLsbD i := by
  rw [State.valueAt, getLsbD_ofBytes _ hi (by omega)]
  simp [List.getD_eq_getElem?_getD, span, hk]

/-- From `s` to `t` bytes have changed only in that accessed bits of descriptors of segments have been set. -/
structure MarksDescriptors (s t : State) : Prop where
  gdtr : t.gdtr = s.gdtr
  ldtr : t.ldtr = s.ldtr
  bits : ∀ a, t.byteAt a ||| 1#8 = s.byteAt a ||| 1#8
  only : ∀ a, t.byteAt a ≠ s.byteAt a → ∃ sel la, descAddr s sel = some la ∧ a = la + 5 ∧ (s.byteAt a).getLsbD 4 = true

section Marks

variable {s t u : State} {sel : BitVec 16} {la : BitVec 32} {d : Desc} {g : Seg}

theorem descAddr_congr (hldtr : t.ldtr = s.ldtr) (hgdtr : t.gdtr = s.gdtr) (sel : BitVec 16) :
    descAddr t sel = descAddr s sel := by
  rw [descAddr, descAddr, hldtr, hgdtr]

theorem MarksDescriptors.refl (s : State) : MarksDescriptors s s := ⟨rfl, rfl, fun _ => rfl, fun _ h => absurd rfl h⟩

theorem MarksDescriptors.descAddr_eq (h : MarksDescriptors s t) (sel : BitVec 16) : descAddr t sel = descAddr s sel :=
  descAddr_congr h.ldtr h.gdtr sel

theorem MarksDescriptors.trans (h1 : MarksDescriptors s t) (h2 : MarksDescriptors t u) : MarksDescriptors s u := by
  refine ⟨h2.gdtr.trans h1.gdtr, h2.ldtr.trans h1.ldtr, fun a => (h2.bits a).trans (h1.bits a), fun a ha => ?_⟩
  by_cases hsame : t.byteAt a = s.byteAt a
  · obtain ⟨sel, la, hla, haddr, hbit⟩ := h2.only a (hsame ▸ ha)
    exact ⟨sel, la, (h1.descAddr_eq sel).symm.trans hla, haddr, hsame ▸ hbit⟩
  · exact h1.only a hsame

/-- What has been read by a descriptor's address is at the selector. -/
theorem State.descriptor_eq_some :
    s.descriptor sel = some d ↔ ∃ la, descAddr s sel = some la ∧ d = ⟨s.valueAt la 4, s.valueAt (la + 4) 4⟩ := by
  rw [State.descriptor, Option.map_eq_some_iff]
  simp only [eq_comm (a := d)]

theorem accessByte_of_descAddr (h : descAddr s sel = some la) : accessByte s sel = la + 5 := by
  unfold descAddr at h
  unfold accessByte
  cases hti : selTi sel with
  | true =>
    rw [hti, if_pos rfl] at h
    split at h
    · cases h
      rfl
    · cases h
  | false =>
    rw [hti, if_neg Bool.false_ne_true] at h
    split at h
    · cases h
      rfl
    · cases h

/-- Of the bytes of a descriptor only its own access byte may be marked, where the descriptors lie apart. -/
theorem MarksDescriptors.byteAt_of_ne (h : MarksDescriptors s t) (hapart : DescriptorsApart t) (hla : descAddr s sel = some la)
    {a : BitVec 32} (ha : a ∈ span la 8) (hne : a ≠ la + 5) : t.byteAt a = s.byteAt a := by
  by_contra hchanged
  obtain ⟨sel', la', hla', rfl, -⟩ := h.only a hchanged
  have hla'' : descAddr t sel' = some la' := (h.descAddr_eq sel').trans hla'
  have hbyte := accessByte_of_descAddr hla''
  exact hne (hbyte ▸ hapart sel' sel la (by rw [hla'']; rfl) ((h.descAddr_eq sel).trans hla) (hbyte.symm ▸ ha))

theorem mem_span_of_low {la x : BitVec 32} (h : x ∈ span la 4) : x ∈ span la 8 ∧ x ≠ la + 5 := by
  rw [← BitVec.add_zero la] at h
  refine ⟨?_, fun hx => ?_⟩
  · rw [← BitVec.add_zero la]
    exact span_subset le_rfl (by decide) h
  · have hmem : x ∈ span (la + 5#32) 1 := mem_span.2 ⟨0, by decide, hx.trans (BitVec.add_zero _).symm⟩
    exact span_disjoint (by decide) (by decide) (.inl (by decide)) h hmem

theorem access_in_span (la : BitVec 32) : la + 4 + BitVec.ofNat 32 1 = la + 5 := by
  rw [BitVec.add_assoc]
  rfl

/-- The doublewords of a descriptor whose accessed bit may have been set. -/
theorem MarksDescriptors.low (h : MarksDescriptors s t) (hapart : DescriptorsApart t) (hla : descAddr s sel = some la) :
    t.valueAt la 4 = s.valueAt la 4 :=
  State.valueAt_congr fun _ hx => h.byteAt_of_ne hapart hla (mem_span_of_low hx).1 (mem_span_of_low hx).2

theorem mem_span_high (la : BitVec 32) {k : Nat} (hk : k < 4) : la + 4 + BitVec.ofNat 32 k ∈ span la 8 := by
  refine mem_span.2 ⟨4 + k, by omega, ?_⟩
  rw [BitVec.ofNat_add, ← BitVec.add_assoc]
  rfl

theorem MarksDescriptors.high (h : MarksDescriptors s t) (hapart : DescriptorsApart t) (hla : descAddr s sel = some la) :
    t.valueAt (la + 4) 4 ||| 0x100#32 = s.valueAt (la + 4) 4 ||| 0x100#32 := by
  apply BitVec.eq_of_getLsbD_eq
  intro n hn
  obtain ⟨k, i, hk, hi, rfl⟩ : ∃ k i, k < 4 ∧ i < 8 ∧ n = 8 * k + i := ⟨n / 8, n % 8, by omega, by omega, by omega⟩
  rw [BitVec.getLsbD_or, BitVec.getLsbD_or, State.getLsbD_valueAt t _ hk hi, State.getLsbD_valueAt s _ hk hi]
  by_cases hk1 : k = 1
  · subst hk1
    by_cases hi0 : i = 0
    · subst hi0
      simp
    · have hbits := congrArg (·.getLsbD i) (h.bits (la + 4 + BitVec.ofNat 32 1))
      simp only [BitVec.getLsbD_or] at hbits
      have hone : (1#8).getLsbD i = false := by simp [hi0]
      rw [hone, Bool.or_false, Bool.or_false] at hbits
      rw [hbits]
  · have hne : la + 4 + BitVec.ofNat 32 k ≠ la + 5 := by
      rw [← access_in_span, Ne, BitVec.add_right_inj]
      intro heq
      have hnat := congrArg BitVec.toNat heq
      simp only [BitVec.toNat_ofNat] at hnat
      omega
    rw [h.byteAt_of_ne hapart hla (mem_span_high la hk) hne]

/-- The hidden part of a segment register does not tell whether the descriptor was marked (10 R30). -/
theorem Desc.toSeg_accessed (d : Desc) (sel : BitVec 16) :
    ({ d with hi := d.hi ||| 0x100#32 } : Desc).toSeg sel = d.toSeg sel := by
  simp [Desc.toSeg, Desc.base, Desc.effLimit, Desc.limit20, Desc.g, Desc.p, Desc.dpl, Desc.s, Desc.exec, Desc.ec, Desc.wr,
    Desc.db, bit, BitVec.extractLsb'_or]

theorem Desc.toSeg_marked {lo hi hi' : BitVec 32} (h : hi ||| 0x100#32 = hi' ||| 0x100#32) (sel : BitVec 16) :
    (⟨lo, hi⟩ : Desc).toSeg sel = (⟨lo, hi'⟩ : Desc).toSeg sel := by
  have hmarked := congrArg (fun x => (⟨lo, x⟩ : Desc).toSeg sel) h
  exact (Desc.toSeg_accessed ⟨lo, hi⟩ sel).symm.trans (hmarked.trans (Desc.toSeg_accessed ⟨lo, hi'⟩ sel))

/-- A segment register that held what its selector names still does. -/
theorem State.Loaded.marked (hg : s.Loaded g) (h : MarksDescriptors s t) (hapart : DescriptorsApart t) : t.Loaded g := by
  obtain ⟨d, hd, hp, hseg⟩ := hg
  obtain ⟨la, hla, hdesc⟩ := State.descriptor_eq_some.1 hd
  have hsame : (⟨t.valueAt la 4, t.valueAt (la + 4) 4⟩ : Desc).toSeg g.selector = d.toSeg g.selector := by
    rw [hdesc, h.low hapart hla]
    exact Desc.toSeg_marked (h.high hapart hla) _
  have hpresent : (⟨t.valueAt la 4, t.valueAt (la + 4) 4⟩ : Desc).p = d.p := congrArg Seg.present hsame
  exact ⟨_, State.descriptor_eq_some.2 ⟨la, (h.descAddr_eq _).trans hla, rfl⟩, hpresent.trans hp, hseg.trans hsame.symm⟩

/-- Bit 12 of the upper doubleword tells a segment from a system descriptor (20 R71). -/
theorem State.s_of_access (s : State) (la : BitVec 32) :
    ({ lo := s.valueAt la 4, hi := s.valueAt (la + 4) 4 } : Desc).s = (s.byteAt (la + 5)).getLsbD 4 := by
  rw [← access_in_span]
  exact s.getLsbD_valueAt (la + 4) (k := 1) (i := 4) (by decide) (by decide)

/-- A system descriptor is not marked. -/
theorem MarksDescriptors.system (h : MarksDescriptors s t) (hapart : DescriptorsApart t) (hd : s.descriptor sel = some d)
    (hs : d.s = false) : t.descriptor sel = some d := by
  obtain ⟨la, hla, rfl⟩ := State.descriptor_eq_some.1 hd
  rw [State.s_of_access] at hs
  have hbyte (x : BitVec 32) (hx : x ∈ span la 8) : t.byteAt x = s.byteAt x := by
    by_cases hne : x = la + 5
    · subst hne
      by_contra hchanged
      obtain ⟨-, -, -, -, hbit⟩ := h.only _ hchanged
      cases hs.symm.trans hbit
    · exact h.byteAt_of_ne hapart hla hx hne
  have hhigh : t.valueAt (la + 4) 4 = s.valueAt (la + 4) 4 := by
    refine State.valueAt_congr fun x hx => hbyte x ?_
    obtain ⟨k, hk, rfl⟩ := mem_span.1 hx
    exact mem_span_high la hk
  exact State.descriptor_eq_some.2 ⟨la, (h.descAddr_eq _).trans hla, by rw [h.low hapart hla, hhigh]⟩

end Marks

/-! ### The loads of the segment registers (44 R192 D4 to D6) -/

/-- What the loads of segment registers may change: the segment registers, and what an access touches. -/
structure SegsW (w v : Work) : Prop where
  state : v.s = { w.s with
    segs := v.s.segs, tlb := v.s.tlb, prefetch := v.s.prefetch, mem := v.s.mem, env := v.s.env }
  map : v.s.env.physMap = w.s.env.physMap
  wf : Memory.wf w.s.mem = true → Memory.wf v.s.mem = true

theorem segs_rel : StepRel SegsW where
  refl _ := ⟨rfl, rfl, id⟩
  trans u v w h1 h2 := by
    have hstate := h2.state
    rw [h1.state] at hstate
    exact ⟨hstate, h2.map.trans h1.map, h2.wf ∘ h1.wf⟩

theorem AccessesW.segs_setSeg {w x : Work} (h : AccessesW w x) (r : SegReg) (g : Seg) :
    SegsW w { x with s := x.s.setSeg r g } := by
  refine ⟨?_, h.state.map, h.state.wf⟩
  rw [h.state.same]
  rfl

theorem SegsW.plainRam {w v : Work} (h : SegsW w v) (hw : PlainRam w.s) : PlainRam v.s :=
  ⟨hw.ram.of_same (by rw [h.state]) h.map, h.wf hw.wf⟩

/-- Register `r` has taken the segment that its selector names: the descriptor `d`, read on the way to `u`, is marked in `x`. -/
structure NamesSeg (r : SegReg) (w v : Work) (d : Desc) (u x : Work) : Prop where
  named : isNull (w.s.seg r).selector = false
  fetched : fetchDesc (w.s.seg r).selector .ts w = .ok d u
  segment : d.s = true
  present : d.p = true
  marked : setAccessed (w.s.seg r).selector d u = .ok () x
  loads : v = { x with s := x.s.setSeg r (d.toSeg (w.s.seg r).selector) }

section Names

variable {r : SegReg} {sel : BitVec 16} {cpl : BitVec 2} {w v : Work} {d : Desc} {u x : Work}

theorem checkSel_bind_eq_ok {c : Bool} {k : CodeExc} {m : Unit → M Unit} (h : (checkSel c k sel >>= m) w = .ok () v) :
    c = true ∧ m () w = .ok () v := by
  obtain ⟨_, w1, hcheck, hrest⟩ := bind_eq_ok.1 h
  obtain ⟨hc, rfl⟩ := checkSel_eq_ok hcheck
  exact ⟨hc, hrest⟩

theorem takeCs_eq_ok (h : takeCs sel d w = .ok () v) : d.s = true ∧ d.p = true ∧ takeSeg .cs sel d w = .ok () v := by
  obtain ⟨hcode, h⟩ := checkSel_bind_eq_ok h
  obtain ⟨hp, h⟩ := checkSel_bind_eq_ok h
  obtain ⟨-, h⟩ := checkSel_bind_eq_ok h
  exact ⟨(Bool.and_eq_true_iff.1 hcode).1, hp, h⟩

theorem takeSs_eq_ok (h : takeSs cpl sel d w = .ok () v) : d.s = true ∧ d.p = true ∧ takeSeg .ss sel d w = .ok () v := by
  obtain ⟨hdata, h⟩ := checkSel_bind_eq_ok h
  obtain ⟨hp, h⟩ := checkSel_bind_eq_ok h
  obtain ⟨-, h⟩ := checkSel_bind_eq_ok h
  obtain ⟨-, h⟩ := checkSel_bind_eq_ok h
  exact ⟨(Bool.and_eq_true_iff.1 (Bool.and_eq_true_iff.1 hdata).1).1, hp, h⟩

theorem takeData_eq_ok (h : takeData r cpl sel d w = .ok () v) : d.s = true ∧ d.p = true ∧ takeSeg r sel d w = .ok () v := by
  obtain ⟨hs, h⟩ := checkSel_bind_eq_ok h
  obtain ⟨hp, h⟩ := checkSel_bind_eq_ok h
  obtain ⟨-, h⟩ := checkSel_bind_eq_ok h
  exact ⟨(Bool.and_eq_true_iff.1 hs).1, hp, h⟩

/-- The descriptor of a selector that is not null is read, tested and taken. -/
theorem NamesSeg.of_take {take : Desc → M Unit} (hnull : isNull (w.s.seg r).selector = false)
    (h : (fetchDesc (w.s.seg r).selector .ts >>= take) w = .ok () v)
    (htake : ∀ d u, take d u = .ok () v → d.s = true ∧ d.p = true ∧ takeSeg r (w.s.seg r).selector d u = .ok () v) :
    ∃ d u x, NamesSeg r w v d u x := by
  obtain ⟨d, u, hfetch, hrest⟩ := bind_eq_ok.1 h
  obtain ⟨hs, hp, hseg⟩ := htake d u hrest
  obtain ⟨_, x, hset, hupd⟩ := bind_eq_ok.1 hseg
  cases hupd
  exact ⟨d, u, x, hnull, hfetch, hs, hp, hset, rfl⟩

theorem loadTaskCs_eq_ok (h : loadTaskCs w = .ok () v) : ∃ d u x, NamesSeg .cs w v d u x := by
  obtain ⟨hnull, h⟩ := checkSel_bind_eq_ok ((loadTaskCs_eq w).symm.trans h)
  exact NamesSeg.of_take (r := .cs) (by rwa [Bool.not_eq_true'] at hnull) h fun _ _ => takeCs_eq_ok

theorem loadTaskSs_eq_ok (h : loadTaskSs w = .ok () v) : ∃ d u x, NamesSeg .ss w v d u x := by
  obtain ⟨hnull, h⟩ := checkSel_bind_eq_ok ((loadTaskSs_eq w).symm.trans h)
  exact NamesSeg.of_take (r := .ss) (by rwa [Bool.not_eq_true'] at hnull) h fun _ _ => takeSs_eq_ok

theorem loadTaskData_eq_ok (h : loadTaskData r w = .ok () v) :
    isNull (w.s.seg r).selector = true ∧ v = w ∨ ∃ d u x, NamesSeg r w v d u x := by
  cases hnull : isNull (w.s.seg r).selector with
  | true =>
    cases h.symm.trans (loadTaskData_null hnull)
    exact .inl ⟨rfl, rfl⟩
  | false => exact Or.inr (NamesSeg.of_take hnull ((loadTaskData_named hnull).symm.trans h) fun _ _ => takeData_eq_ok)

theorem NamesSeg.accesses (h : NamesSeg r w v d u x) : AccessesW w x :=
  accesses_rel.trans _ _ _ ((fetchDesc_accesses _ _).ok h.fetched) ((setAccessed_accesses _ _).ok h.marked)

theorem NamesSeg.segs (h : NamesSeg r w v d u x) : SegsW w v := by
  rw [h.loads]
  exact h.accesses.segs_setSeg r _

theorem NamesSeg.seg (h : NamesSeg r w v d u x) : v.s.seg r = d.toSeg (w.s.seg r).selector := by
  rw [h.loads]
  exact State.seg_setSeg _ _ _

theorem NamesSeg.seg_ne (h : NamesSeg r w v d u x) {q : SegReg} (hq : q ≠ r) : v.s.seg q = w.s.seg q := by
  rw [h.loads]
  refine (State.seg_setSeg_ne _ _ hq).trans ?_
  rw [State.seg, State.seg, h.accesses.state.segs]

/-- In plain memory the load marks the descriptor and changes no other byte. -/
theorem NamesSeg.marks (h : NamesSeg r w v d u x) (hw : PlainRam w.s) : MarksDescriptors w.s v.s := by
  obtain ⟨rfl, hd⟩ := fetchDesc_eq_ok hw.ram h.fetched
  obtain ⟨la, hla, rfl⟩ := State.descriptor_eq_some.1 hd
  obtain ⟨x', hx, hbytes⟩ := setAccessed_ram hw.ram hw.wf (u.s.seg r).selector ⟨u.s.valueAt la 4, u.s.valueAt (la + 4) 4⟩
  cases hx.symm.trans h.marked
  have hmem (a : BitVec 32) : v.s.byteAt a = x.s.byteAt a := by
    rw [h.loads]
    rfl
  have hstate := h.segs.state
  refine ⟨by rw [hstate], by rw [hstate], fun a => ?_, fun a ha => ?_⟩
  · rw [hmem, hbytes]
    split
    · rw [BitVec.or_assoc, BitVec.or_self]
    · rfl
  · rw [hmem, hbytes] at ha
    split at ha
    · rename_i hset
      have haddr := hset.2.trans (accessByte_of_descAddr hla)
      exact ⟨_, la, hla, haddr, by rw [haddr, ← State.s_of_access]; exact h.segment⟩
    · exact absurd rfl ha

/-- With paging off the mark goes to memory past the translation cache. -/
theorem setAccessed_tlb (hram : AllRam w.s) (h : setAccessed sel d w = .ok () v) : v.s.tlb = w.s.tlb := by
  unfold setAccessed at h
  cases ha : d.a with
  | true =>
    rw [ha] at h
    cases h
    rfl
  | false =>
    rw [ha, if_neg Bool.false_ne_true, setAccessBits_ram hram] at h
    cases h
    rfl

theorem NamesSeg.tlb (h : NamesSeg r w v d u x) (hw : PlainRam w.s) : v.s.tlb = w.s.tlb := by
  obtain ⟨rfl, -⟩ := fetchDesc_eq_ok hw.ram h.fetched
  have hmarked := setAccessed_tlb hw.ram h.marked
  rw [h.loads]
  exact hmarked

end Names

/-! ### All segment registers -/

/-- What the loads of the segment registers of `l` make of `w`. -/
structure LoadedSegs (l : List SegReg) (w v : Work) : Prop where
  segs : SegsW w v
  selector : ∀ r, (v.s.seg r).selector = (w.s.seg r).selector
  other : ∀ r, r ∉ l → v.s.seg r = w.s.seg r
  null : ∀ r, isNull (w.s.seg r).selector = true → v.s.seg r = w.s.seg r
  valid : ∀ r, r ∈ l → isNull (w.s.seg r).selector = false → (v.s.seg r).valid = true
  marks : PlainRam w.s → MarksDescriptors w.s v.s
  tlb : PlainRam w.s → v.s.tlb = w.s.tlb
  loaded : PlainRam w.s → DescriptorsApart v.s → ∀ r, r ∈ l → isNull (w.s.seg r).selector = false → v.s.Loaded (v.s.seg r)

section LoadedSegs

variable {l : List SegReg} {r : SegReg} {w u v : Work}

theorem LoadedSegs.nil (w : Work) : LoadedSegs [] w w :=
  ⟨segs_rel.refl w, fun _ => rfl, fun _ _ => rfl, fun _ _ => rfl, fun _ h => absurd h List.not_mem_nil,
    fun _ => .refl w.s, fun _ => rfl, fun _ _ _ h => absurd h List.not_mem_nil⟩

/-- A register whose selector is null is not loaded. -/
theorem LoadedSegs.skip (hr : isNull (w.s.seg r).selector = true) (h : LoadedSegs l w v) : LoadedSegs (r :: l) w v := by
  have hmem {q : SegReg} (hq : q ∈ r :: l) (hnull : isNull (w.s.seg q).selector = false) : q ∈ l := by
    obtain rfl | hq := List.mem_cons.1 hq
    · cases hr.symm.trans hnull
    · exact hq
  exact ⟨h.segs, h.selector, fun q hq => h.other q fun hm => hq (List.mem_cons_of_mem _ hm), h.null,
    fun q hq hnull => h.valid q (hmem hq hnull) hnull, h.marks, h.tlb,
    fun hw hapart q hq hnull => h.loaded hw hapart q (hmem hq hnull) hnull⟩

/-- One register is loaded, and then those of a list that it is not in. -/
theorem LoadedSegs.cons {d : Desc} {y x : Work} (hr : NamesSeg r w u d y x) (hnot : r ∉ l) (h : LoadedSegs l u v) :
    LoadedSegs (r :: l) w v := by
  have hsel (q : SegReg) : (u.s.seg q).selector = (w.s.seg q).selector := by
    by_cases hq : q = r
    · rw [hq, hr.seg]
      rfl
    · rw [hr.seg_ne hq]
  have hkept : v.s.seg r = u.s.seg r := h.other r hnot
  have hmarks : PlainRam w.s → MarksDescriptors u.s v.s := fun hw => h.marks (hr.segs.plainRam hw)
  refine ⟨segs_rel.trans _ _ _ hr.segs h.segs, fun q => (h.selector q).trans (hsel q), fun q hq => ?_, fun q hnull => ?_,
    fun q hq hnull => ?_, fun hw => (hr.marks hw).trans (hmarks hw),
    fun hw => (h.tlb (hr.segs.plainRam hw)).trans (hr.tlb hw), fun hw hapart q hq hnull => ?_⟩
  · obtain ⟨hqr, hq⟩ := not_or.1 fun hm => hq (List.mem_cons.2 hm)
    exact (h.other q hq).trans (hr.seg_ne hqr)
  · refine (h.null q ((congrArg isNull (hsel q)).trans hnull)).trans (hr.seg_ne fun hqr => ?_)
    subst hqr
    cases hnull.symm.trans hr.named
  · obtain rfl | hq := List.mem_cons.1 hq
    · rw [hkept, hr.seg]
      rfl
    · exact h.valid q hq ((congrArg isNull (hsel q)).trans hnull)
  · obtain rfl | hq := List.mem_cons.1 hq
    · rw [hkept]
      obtain ⟨-, hd⟩ := fetchDesc_eq_ok hw.ram hr.fetched
      rw [hr.seg]
      exact State.Loaded.marked ⟨d, hd, hr.present, rfl⟩ ((hr.marks hw).trans (hmarks hw)) hapart
    · exact h.loaded (hr.segs.plainRam hw) hapart q hq ((congrArg isNull (hsel q)).trans hnull)

theorem each_loadTaskData (h : each loadTaskData l w = .ok () v) (hl : l.Nodup) : LoadedSegs l w v := by
  induction l generalizing w with
  | nil =>
    cases h
    exact .nil _
  | cons r l ih =>
    obtain ⟨_, u, hone, hrest⟩ := bind_eq_ok.1 h
    obtain ⟨hnot, hl⟩ := List.nodup_cons.1 hl
    obtain ⟨hnull, rfl⟩ | ⟨d, y, x, hr⟩ := loadTaskData_eq_ok hone
    · exact (ih hrest hl).skip hnull
    · exact .cons hr hnot (ih hrest hl)

end LoadedSegs

/-! ### LDTR (44 R192 D3) and the end (D7) -/

/-- What the load of LDTR makes of `w`. -/
structure LoadedLdt (w v : Work) : Prop where
  state : v.s = { w.s with
    ldtr := v.s.ldtr, tlb := v.s.tlb, prefetch := v.s.prefetch, mem := v.s.mem, env := v.s.env }
  selector : v.s.ldtr.selector = w.s.ldtr.selector
  null : isNull w.s.ldtr.selector = true → v.s.ldtr = w.s.ldtr
  mem : AllRam w.s → v.s.mem = w.s.mem ∧ v.s = { w.s with ldtr := v.s.ldtr }
  named : AllRam w.s → isNull w.s.ldtr.selector = false → ∃ d, w.s.descriptor w.s.ldtr.selector = some d ∧ d.s = false ∧
    d.typ = 2 ∧ d.p = true ∧ selTi w.s.ldtr.selector = false ∧
    v.s.ldtr = { selector := w.s.ldtr.selector, base := d.base, limit := d.effLimit, valid := true }

theorem loadTaskLdt_eq_ok {w v : Work} (h : loadTaskLdt w = .ok () v) : LoadedLdt w v := by
  cases hnull : isNull w.s.ldtr.selector with
  | true =>
    cases h.symm.trans (loadTaskLdt_null hnull)
    refine ⟨rfl, rfl, fun _ => rfl, fun _ => ⟨rfl, rfl⟩, fun _ hn => ?_⟩
    cases hnull.symm.trans hn
  | false =>
    obtain ⟨hti, h⟩ := checkSel_bind_eq_ok ((loadTaskLdt_named hnull).symm.trans h)
    obtain ⟨d, u, hfetch, h⟩ := bind_eq_ok.1 h
    obtain ⟨htype, h⟩ := checkSel_bind_eq_ok h
    obtain ⟨hp, h⟩ := checkSel_bind_eq_ok h
    cases h
    have hacc := ((fetchDesc_accesses _ _).ok hfetch).state.same
    obtain ⟨hs, htyp⟩ := Bool.and_eq_true_iff.1 htype
    refine ⟨?_, rfl, fun hn => ?_, fun hram => ?_, fun hram _ => ?_⟩
    · rw [hacc]
    · cases hnull.symm.trans hn
    · obtain ⟨rfl, -⟩ := fetchDesc_eq_ok hram hfetch
      exact ⟨rfl, rfl⟩
    · obtain ⟨-, hd⟩ := fetchDesc_eq_ok hram hfetch
      exact ⟨d, hd, by simpa using hs, by simpa using htyp, hp, by simpa using hti, rfl⟩

theorem startTask_eq_ok {w v : Work} (h : startTask w = .ok () v) :
    w.s.eip.toNat ≤ w.s.segs.cs.limit.toNat ∧ ∃ t u, linRead (w.s.tr.base + 0x64) 2 false w = .ok t u ∧
      v = { u with s := { u.s with pendingDbg := if bit t 0 then u.s.pendingDbg ||| 0x8000#32 else u.s.pendingDbg } } := by
  obtain ⟨s, w1, hst, h⟩ := bind_eq_ok.1 h
  cases hst
  obtain ⟨x, w2, hext, h⟩ := bind_eq_ok.1 h
  cases hext
  obtain ⟨_, w3, hcheck, h⟩ := bind_eq_ok.1 h
  obtain ⟨hlimit, rfl⟩ := check_eq_ok.1 hcheck
  obtain ⟨t, u, hread, h⟩ := bind_eq_ok.1 h
  refine ⟨ule_iff.1 hlimit, t, u, hread, ?_⟩
  cases hbit : bit t 0 with
  | true =>
    rw [hbit, if_pos rfl] at h
    cases h
    rfl
  | false =>
    rw [hbit, if_neg Bool.false_ne_true] at h
    cases h
    rfl

/-- The stages of the incoming task of a switch that runs to its end. -/
structure EnteredTask (kind : SwitchKind) (w v w1 w2 w3 : Work) : Prop where
  task : LoadedTask kind w w1
  ldt : LoadedLdt w1 w2
  segs : LoadedSegs [.cs, .ss, .ds, .es, .fs, .gs] w2 w3
  cs : isNull (w2.s.seg .cs).selector = false
  ss : isNull (w2.s.seg .ss).selector = false
  start : startTask w3 = .ok () v

theorem enterTask_eq_ok {kind : SwitchKind} {w v : Work} (h : enterTask kind w = .ok () v) :
    ∃ w1 w2 w3, EnteredTask kind w v w1 w2 w3 := by
  rw [enterTask_eq] at h
  obtain ⟨_, w1, htask, h⟩ := bind_eq_ok.1 h
  obtain ⟨_, w2, hldt, h⟩ := bind_eq_ok.1 h
  obtain ⟨_, u, hcs, h⟩ := bind_eq_ok.1 h
  obtain ⟨_, x, hss, h⟩ := bind_eq_ok.1 h
  obtain ⟨_, w3, hdata, hstart⟩ := bind_eq_ok.1 h
  obtain ⟨_, _, _, hcs⟩ := loadTaskCs_eq_ok hcs
  obtain ⟨_, _, _, hss⟩ := loadTaskSs_eq_ok hss
  have hnull := hss.named
  rw [hcs.seg_ne (by decide)] at hnull
  exact ⟨w1, w2, w3, loadTask_loaded (.inl htask), loadTaskLdt_eq_ok hldt,
    .cons hcs (by decide) (.cons hss (by decide) (each_loadTaskData hdata (by decide))), hcs.named, hnull, hstart⟩

end Sys2Proof.Machine
end


section
/-! A task switch that runs to its end (44 R190, R193, R195): its registers, the two task state segments and the descriptors;
and what settles the obligation on task switches. -/

namespace Sys2Proof.Machine

open Sys2Proof

-- One theorem after another, so that no more of them wait for each other than the memory limit has threads for.
set_option Elab.async false

/-! ### The incoming task at the end of part D (44 R192 D7) -/

theorem State.seg_congr {s t : State} (h : t.segs = s.segs) (r : SegReg) : t.seg r = s.seg r := by
  rw [State.seg, State.seg, h]

theorem startTask_state {w v : Work} (h : startTask w = .ok () v) : v.s = { w.s with
    pendingDbg := v.s.pendingDbg, tlb := v.s.tlb, prefetch := v.s.prefetch, mem := v.s.mem, env := v.s.env } := by
  obtain ⟨-, t, u, hread, rfl⟩ := startTask_eq_ok h
  rw [((linRead_accesses _ _ _).ok hread).state.same]

/-- With paging off the end of the switch reads the trap word and changes nothing but the pending trap. -/
theorem startTask_ram {w v : Work} (hram : AllRam w.s) (h : startTask w = .ok () v) : v.s = { w.s with
    pendingDbg := if bit (w.s.valueAt (w.s.tr.base + 0x64) 2) 0 then w.s.pendingDbg ||| 0x8000#32 else w.s.pendingDbg } := by
  obtain ⟨-, t, u, hread, rfl⟩ := startTask_eq_ok h
  cases hread.symm.trans (linRead_ram hram _ two_ne_zero false)
  rfl

section Entered

variable {kind : SwitchKind} {w v w1 w2 w3 : Work}

/-- After the load of the registers only LDTR, the segment registers, the pending trap and what an access touches change. -/
theorem EnteredTask.state (h : EnteredTask kind w v w1 w2 w3) : v.s = { w1.s with
    segs := w3.s.segs, ldtr := w2.s.ldtr, pendingDbg := v.s.pendingDbg, tlb := v.s.tlb, prefetch := v.s.prefetch,
    mem := v.s.mem, env := v.s.env } := by
  have hstate := startTask_state h.start
  rw [h.segs.segs.state, h.ldt.state] at hstate
  exact hstate

theorem EnteredTask.ldtr (h : EnteredTask kind w v w1 w2 w3) : v.s.ldtr = w2.s.ldtr := by rw [h.state]

theorem EnteredTask.seg (h : EnteredTask kind w v w1 w2 w3) (r : SegReg) : v.s.seg r = w3.s.seg r :=
  State.seg_congr (by rw [h.state]) r

theorem EnteredTask.seg_ldt (h : EnteredTask kind w v w1 w2 w3) (r : SegReg) : w2.s.seg r = w1.s.seg r :=
  State.seg_congr (by rw [h.ldt.state]) r

theorem EnteredTask.selector_segs (h : EnteredTask kind w v w1 w2 w3) (r : SegReg) :
    (v.s.seg r).selector = (w2.s.seg r).selector := by
  rw [h.seg, h.segs.selector]

theorem EnteredTask.selector (h : EnteredTask kind w v w1 w2 w3) (r : SegReg) :
    (v.s.seg r).selector = (w1.s.seg r).selector := by
  rw [h.selector_segs, h.seg_ldt]

theorem EnteredTask.ldt_selector (h : EnteredTask kind w v w1 w2 w3) : v.s.ldtr.selector = w1.s.ldtr.selector := by
  rw [h.ldtr, h.ldt.selector]

theorem EnteredTask.cpl (h : EnteredTask kind w v w1 w2 w3) : v.s.cpl = selRpl v.s.segs.cs.selector := by
  have hcpl : v.s.cpl = w1.s.cpl := by rw [h.state]
  rw [hcpl, h.task.cpl]
  exact congrArg selRpl (h.selector .cs).symm

theorem EnteredTask.valid (h : EnteredTask kind w v w1 w2 w3) {r : SegReg} (hnull : isNull (w2.s.seg r).selector = false) :
    (v.s.seg r).valid = true := by
  rw [h.seg]
  exact h.segs.valid r (by cases r <;> decide) hnull

theorem EnteredTask.eip_le (h : EnteredTask kind w v w1 w2 w3) : v.s.eip.toNat ≤ v.s.segs.cs.limit.toNat := by
  rw [startTask_state h.start]
  exact (startTask_eq_ok h.start).1

/-- In plain memory the loads of the registers and of LDTR change nothing else. -/
theorem EnteredTask.registers (h : EnteredTask kind w v w1 w2 w3) (hram : AllRam w.s) : w2.s = { w.s with
    gpr := w2.s.gpr, eip := w2.s.eip, flags := w2.s.flags, cpl := w2.s.cpl, segs := w2.s.segs, ldtr := w2.s.ldtr } := by
  have htask := h.task.registers hram
  have hldt := (h.ldt.mem (htask.allRam (hram.of_same rfl rfl))).2
  rw [htask.state] at hldt
  rw [hldt]
  rfl

section Ram

variable (h : EnteredTask kind w v w1 w2 w3) (hw : PlainRam w.s)
include h hw

theorem EnteredTask.allRam_task : AllRam w1.s := (h.task.registers hw.ram).allRam (hw.ram.of_same rfl rfl)

theorem EnteredTask.plainRam_ldt : PlainRam w2.s := by
  have hregs := h.registers hw.ram
  exact ⟨hw.ram.of_same (by rw [hregs]) (by rw [hregs]), by rw [hregs]; exact hw.wf⟩

theorem EnteredTask.plainRam_segs : PlainRam w3.s := h.segs.segs.plainRam (h.plainRam_ldt hw)

/-- The loads of the segment registers mark descriptors, and no other byte changes. -/
theorem EnteredTask.marks : MarksDescriptors w2.s v.s := by
  have hmarks := h.segs.marks (h.plainRam_ldt hw)
  rw [startTask_ram (h.plainRam_segs hw).ram h.start]
  exact ⟨hmarks.gdtr, hmarks.ldtr, hmarks.bits, hmarks.only⟩

theorem EnteredTask.byteAt_ldt (a : BitVec 32) : w2.s.byteAt a = w.s.byteAt a := by
  rw [h.registers hw.ram]
  rfl

theorem EnteredTask.tlb : v.s.tlb = w.s.tlb := by
  rw [startTask_ram (h.plainRam_segs hw).ram h.start]
  refine (h.segs.tlb (h.plainRam_ldt hw)).trans ?_
  rw [h.registers hw.ram]

theorem EnteredTask.pdbr : v.s.pdbr = w.s.pdbr := by
  have htask : w1.s.pdbr = w.s.pdbr := (h.task.registers hw.ram).pdbr
  rw [← htask, h.state]

theorem EnteredTask.pendingDbg : v.s.pendingDbg =
    if bit (v.s.valueAt (w.s.tr.base + 0x64) 2) 0 then w.s.pendingDbg ||| 0x8000#32 else w.s.pendingDbg := by
  have htr : w3.s.tr = w.s.tr := by rw [h.segs.segs.state, h.registers hw.ram]
  have hpending : w3.s.pendingDbg = w.s.pendingDbg := by rw [h.segs.segs.state, h.registers hw.ram]
  rw [startTask_ram (h.plainRam_segs hw).ram h.start, ← htr, ← hpending]
  rfl

/-- The descriptor that LDTR was loaded from is still there. -/
theorem EnteredTask.ldt_descriptor (hapart : DescriptorsApart v.s) (hnull : isNull v.s.ldtr.selector = false) :
    ∃ e, v.s.descriptor v.s.ldtr.selector = some e ∧ e.s = false ∧ e.typ = 2 ∧ e.p = true ∧
      v.s.ldtr = { selector := v.s.ldtr.selector, base := e.base, limit := e.effLimit, valid := true } := by
  rw [h.ldt_selector] at hnull ⊢
  obtain ⟨e, hd, hs, htyp, hp, hti, hldtr⟩ := h.ldt.named (h.allRam_task hw) hnull
  obtain ⟨hmem, hsame⟩ := h.ldt.mem (h.allRam_task hw)
  have hglobal : w2.s.descriptor w1.s.ldtr.selector = some e := by
    rw [← hd, State.descriptor, State.descriptor, descAddr, descAddr, hti, hsame]
    rfl
  exact ⟨e, (h.marks hw).system hapart hglobal hs, hs, htyp, hp, h.ldtr.trans hldtr⟩

theorem EnteredTask.loaded (hapart : DescriptorsApart v.s) {r : SegReg} (hnull : isNull (v.s.seg r).selector = false) :
    v.s.Loaded (v.s.seg r) := by
  rw [h.selector_segs] at hnull
  rw [h.seg]
  rw [startTask_ram (h.plainRam_segs hw).ram h.start] at hapart ⊢
  exact h.segs.loaded (h.plainRam_ldt hw) hapart r (by cases r <;> decide) hnull

end Ram

theorem EnteredTask.seg_invalid (h : EnteredTask kind w v w1 w2 w3) {r : SegReg}
    (hnull : isNull (v.s.seg r).selector = true) : (v.s.seg r).valid = false := by
  rw [h.selector_segs] at hnull
  rw [h.seg, h.segs.null r hnull, h.seg_ldt]
  exact h.task.invalid r

theorem EnteredTask.ldt_invalid (h : EnteredTask kind w v w1 w2 w3) (hnull : isNull v.s.ldtr.selector = true) :
    v.s.ldtr.valid = false := by
  rw [h.ldt_selector] at hnull
  rw [h.ldtr, h.ldt.null hnull]
  exact h.task.ldt

end Entered

/-! ### A switch that runs to its end (44 R190, R193) -/

/-- The stages of a switch that runs to its end: it is committed in `x`, and the incoming task is loaded from there. -/
structure TaskSwitched (kind : SwitchKind) (nsel : BitVec 16) (d : Desc) (eipSave : BitVec 32) (fl : Flags)
    (w v x w1 w2 w3 : Work) : Prop where
  tests : d.p = true ∧ (kind ≠ .iret → d.typ ≠ 0xB) ∧ 103 ≤ d.effLimit.toNat
  left : ∃ u y, LeftTask nsel d w u y x
  out : w.s.cr0.pg = false → switchOut kind nsel d eipSave fl w.s w = .ok () x
  enters : EntersW x v
  entered : EnteredTask kind x v w1 w2 w3

theorem taskSwitch_eq_ok {kind : SwitchKind} {nsel : BitVec 16} {d : Desc} {eipSave : BitVec 32} {fl : Flags} {w v : Work}
    (h : taskSwitch kind nsel d eipSave fl w = .ok () v) :
    ∃ x w1 w2 w3, TaskSwitched kind nsel d eipSave fl w v x w1 w2 w3 := by
  obtain ⟨_, x, hleave, henter⟩ := bind_eq_ok.1 h
  obtain ⟨htests, hleft, hout⟩ := leaveTask_eq_ok hleave
  obtain ⟨w1, w2, w3, hentered⟩ := enterTask_eq_ok henter
  exact ⟨x, w1, w2, w3, htests, hleft, hout, (enterTask_enters kind).ok henter, hentered⟩

/-- The accessed bit is not the busy bit. -/
theorem busyBit_congr {a b : Byte} (h : a ||| 1#8 = b ||| 1#8) : a &&& 2#8 = b &&& 2#8 := by
  have hor : ∀ c : Byte, (c ||| 1#8) &&& 2#8 = c &&& 2#8 := by decide
  rw [← hor a, h, hor]

theorem State.leave_same (s : State) (kind : SwitchKind) (nsel : BitVec 16) (d : Desc) (eipSave : BitVec 32) (fl : Flags) :
    ∃ m p, s.leave kind nsel d eipSave fl = { commitSwitch nsel d s with mem := m, prefetch := p } := by
  obtain ⟨m1, st1, h1⟩ := s.saveTask_same eipSave fl
  obtain ⟨m2, st2, h2⟩ := (s.saveTask eipSave fl).changeAccess_same (kind != .call) s.tr.selector (· &&& 0xFD#8)
  obtain ⟨m3, st3, h3⟩ := ((s.saveTask eipSave fl).changeAccess (kind != .call) s.tr.selector (· &&& 0xFD#8)).changeAccess_same
    (kind != .iret) nsel (· ||| 2#8)
  have hsuspend : ∃ m p, s.suspend kind nsel eipSave fl = { s with mem := m, prefetch := p } :=
    ⟨m3, _, h3.trans (by rw [h2, h1])⟩
  obtain ⟨m, p, hs⟩ := hsuspend
  rw [State.leave, hs]
  cases kind with
  | call =>
    obtain ⟨m', st', h'⟩ := (commitSwitch nsel d { s with mem := m, prefetch := p }).store_same d.base 2
      (s.tr.selector.setWidth 32)
    exact ⟨m', _, h'⟩
  | _ => exact ⟨m, p, rfl⟩

theorem State.wf_leave {s : State} (hm : Memory.wf s.mem = true) (kind : SwitchKind) (nsel : BitVec 16) (d : Desc)
    (eipSave : BitVec 32) (fl : Flags) : Memory.wf (s.leave kind nsel d eipSave fl).mem = true := by
  cases kind with
  | call => exact State.wf_store (s := commitSwitch nsel d (s.suspend .call nsel eipSave fl)) (State.wf_suspend hm) _ _ _
  | _ => exact State.wf_suspend hm

section Switched

variable {kind : SwitchKind} {nsel : BitVec 16} {d : Desc} {eipSave : BitVec 32} {fl : Flags} {w v x w1 w2 w3 : Work}
variable (h : TaskSwitched kind nsel d eipSave fl w v x w1 w2 w3)
include h

theorem TaskSwitched.left_state : x.s = { w.s with
    tr := { selector := nsel, base := d.base, limit := d.effLimit, valid := true }, cr0 := { w.s.cr0 with ts := true },
    dr7 := w.s.dr7 &&& 0xFFFFFEAA#32, tlb := x.s.tlb, prefetch := x.s.prefetch, mem := x.s.mem, env := x.s.env } := by
  obtain ⟨u, y, hleft⟩ := h.left
  exact hleft.state

theorem TaskSwitched.tr : v.s.tr = { selector := nsel, base := d.base, limit := d.effLimit, valid := true } := by
  rw [h.enters.tr, h.left_state]

theorem TaskSwitched.cr0 : v.s.cr0 = { w.s.cr0 with ts := true } := by
  rw [h.enters.cr0, h.left_state]

theorem TaskSwitched.dr7 : v.s.dr7 = w.s.dr7 &&& 0xFFFFFEAA#32 := by
  rw [h.enters.state, h.left_state]

theorem TaskSwitched.frame : v.s = { w.s with
    gpr := v.s.gpr, eip := v.s.eip, flags := v.s.flags, cpl := v.s.cpl, segs := v.s.segs, ldtr := v.s.ldtr, tr := v.s.tr,
    cr0 := v.s.cr0, pdbr := v.s.pdbr, dr7 := v.s.dr7, tlb := v.s.tlb, pendingDbg := v.s.pendingDbg,
    prefetch := v.s.prefetch, mem := v.s.mem, env := v.s.env } := by
  have hstate := h.enters.state
  rw [h.left_state] at hstate
  rw [hstate]

theorem TaskSwitched.marks : v.jumped = true ∧ v.keepRf = true := by
  obtain ⟨u, y, hleft⟩ := h.left
  rw [h.enters.same, hleft.committed]
  exact ⟨rfl, rfl⟩

/-- The flags are those of the TSS, which do not set VM, with the nesting flag by the kind of the switch. -/
theorem TaskSwitched.flags : ∃ y, v.s.flags = taskFlags kind y ∧ bit y 17 = false := by
  obtain ⟨y, ⟨hflags, hvm⟩, -⟩ := h.entered.task.items .flags
  refine ⟨y, ?_, hvm⟩
  rw [← hflags, h.entered.state]

/-! ### With paging off and the task state segments in plain memory -/

section Ram

variable (hw : PlainRam w.s)
include hw

/-- The work at the commit. -/
theorem TaskSwitched.committed : x.s = { w.s.leave kind nsel d eipSave (savedFlags kind fl) with prefetch := Prefetch.empty } := by
  cases (h.out hw.ram.paging).symm.trans (switchOut_ram hw.ram)
  rfl

theorem TaskSwitched.plainRam : PlainRam x.s := by
  refine ⟨?_, ?_⟩
  · obtain ⟨m, p, hsame⟩ := w.s.leave_same kind nsel d eipSave (savedFlags kind fl)
    rw [h.committed hw, hsame]
    exact ⟨hw.ram.paging, hw.ram.ram⟩
  · rw [h.committed hw]
    exact State.wf_leave hw.wf _ _ _ _ _

theorem TaskSwitched.byteAt_committed (a : BitVec 32) :
    x.s.byteAt a = (w.s.leave kind nsel d eipSave (savedFlags kind fl)).byteAt a := by
  rw [h.committed hw]
  rfl

/-- After the commit a byte changes by accessed bits alone. -/
theorem TaskSwitched.byteAt_marked (a : BitVec 32) : v.s.byteAt a ||| 1#8 = x.s.byteAt a ||| 1#8 := by
  rw [← h.entered.byteAt_ldt (h.plainRam hw) a]
  exact (h.entered.marks (h.plainRam hw)).bits a

theorem TaskSwitched.tlb : v.s.tlb = w.s.tlb := by
  obtain ⟨m, p, hsame⟩ := w.s.leave_same kind nsel d eipSave (savedFlags kind fl)
  rw [h.entered.tlb (h.plainRam hw), h.committed hw, hsame]
  rfl

theorem TaskSwitched.pdbr : v.s.pdbr = w.s.pdbr := by
  rw [h.entered.pdbr (h.plainRam hw), h.left_state]

/-- What a switch does not write to before its commit keeps its value but for an accessed bit. -/
theorem TaskSwitched.byteAt_untouched {a : BitVec 32} (ha : Untouched kind nsel d.base w.s a) :
    v.s.byteAt a ||| 1#8 = w.s.byteAt a ||| 1#8 := by
  rw [h.byteAt_marked hw, h.byteAt_committed hw, State.byteAt_leave_other hw.wf ha]

section Apart

variable (hapart : TasksApart w.s v.s nsel d.base)
include hapart

/-- In the two task state segments there is no accessed bit. -/
theorem TaskSwitched.byteAt_tss {a : BitVec 32} (ha : a ∈ span w.s.tr.base 104 ++ span d.base 104) :
    v.s.byteAt a = x.s.byteAt a := by
  have hmarks := h.entered.marks (h.plainRam hw)
  by_contra hchanged
  rw [← h.entered.byteAt_ldt (h.plainRam hw)] at hchanged
  obtain ⟨sel, la, hla, rfl, -⟩ := hmarks.only a hchanged
  have haddr := (hmarks.descAddr_eq sel).trans hla
  refine hapart.accessed sel (by rw [haddr]; rfl) ?_
  rwa [accessByte_of_descAddr haddr]

/-- Nothing is written to the new TSS but the back link. -/
theorem TaskSwitched.byteAt_new {a : BitVec 32} (ha : a ∈ span d.base 104) (hlink : a ∉ span d.base 2) :
    x.s.byteAt a = w.s.byteAt a := by
  have hbusy (sel : BitVec 16) (hsel : sel = w.s.tr.selector ∨ sel = nsel) : a ≠ accessByte w.s sel :=
    fun haddr => hapart.busy sel hsel (haddr ▸ List.mem_append_right _ ha)
  have huntouched : Untouched kind nsel d.base w.s a :=
    ⟨fun hsaved => hapart.tasks a (mem_tss_of_field (by decide) hsaved) ha, fun _ => hbusy _ (.inl rfl),
      fun _ => hbusy _ (.inr rfl), fun _ => hlink⟩
  rw [h.byteAt_committed hw, State.byteAt_leave_other hw.wf huntouched]

theorem TaskSwitched.valueAt_new {p : BitVec 32} {n : Nat} (hp : 2 ≤ p.toNat) (hn : p.toNat + n ≤ 104) :
    x.s.valueAt (d.base + p) n = w.s.valueAt (d.base + p) n :=
  State.valueAt_congr fun _ hx => h.byteAt_new hw hapart (mem_tss_of_field hn hx) (not_mem_link_of_field hp hn hx)

/-- The registers are loaded with the items of the new TSS. -/
theorem TaskSwitched.holds (i : TaskItem) : i.Holds kind (w.s.valueAt (d.base + i.offset) i.bytes) w1.s := by
  obtain ⟨y, hholds, hvalue⟩ := h.entered.task.items i
  obtain ⟨hlow, hhigh⟩ := i.inside
  have hbase : x.s.tr.base = d.base := by rw [h.left_state]
  rw [hvalue (h.plainRam hw).ram, hbase, h.valueAt_new hw hapart (by omega) (by omega)] at hholds
  exact hholds

/-- The outgoing task's registers are in its TSS. -/
theorem TaskSwitched.suspended : Suspended kind nsel d.base eipSave (savedFlags kind fl) w.s x.s := by
  have hleave := State.suspended_leave (kind := kind) (eipSave := eipSave) (fl := savedFlags kind fl) hw.wf hapart
  rw [h.committed hw]
  exact ⟨hleave.saved, hleave.link, hleave.busy, hleave.free⟩

theorem TaskSwitched.valueAt_old {i : TaskItem} (hi : i ≠ .ldt) :
    v.s.valueAt (w.s.tr.base + i.offset) i.bytes = lowBytes i.bytes (i.saved w.s eipSave (savedFlags kind fl)) := by
  rw [← (h.suspended hw hapart).saved i (mem_savedItems hi)]
  exact State.valueAt_congr fun _ hx => h.byteAt_tss hw hapart (List.mem_append_left _ (i.inTss hx))

theorem TaskSwitched.valueAt_link (hkind : kind = .call) : v.s.valueAt d.base 2 = w.s.tr.selector.setWidth 32 := by
  rw [← (h.suspended hw hapart).link hkind]
  exact State.valueAt_congr fun _ hx => h.byteAt_tss hw hapart (List.mem_append_right _ (mem_tss_of_link hx))

theorem TaskSwitched.pendingDbg : v.s.pendingDbg =
    if bit (w.s.valueAt (d.base + 0x64) 2) 0 then w.s.pendingDbg ||| 0x8000#32 else w.s.pendingDbg := by
  have hbase : x.s.tr.base = d.base := by rw [h.left_state]
  have hpending : x.s.pendingDbg = w.s.pendingDbg := by rw [h.left_state]
  have htrap : v.s.valueAt (d.base + 0x64) 2 = x.s.valueAt (d.base + 0x64) 2 := State.valueAt_congr fun _ hx =>
    h.byteAt_tss hw hapart (List.mem_append_right _ (mem_tss_of_field (by decide) hx))
  rw [h.entered.pendingDbg (h.plainRam hw), hbase, hpending, htrap, h.valueAt_new hw hapart (by decide) (by decide)]

end Apart

end Ram

end Switched

/-! ### The obligation -/

/-- A switch that is committed goes on in the incoming task (44 R192 C1). -/
theorem leaveTask_leaves {kind : SwitchKind} {nsel : BitVec 16} {d : Desc} {eipSave : BitVec 32} {fl : Flags} {w x : Work}
    (h : leaveTask kind nsel d eipSave fl w = .ok () x) : taskSwitch kind nsel d eipSave fl w = enterTask kind x ∧
      x.committed = true ∧ x.s.tr = { selector := nsel, base := d.base, limit := d.effLimit, valid := true } ∧
      x.s.cr0 = { w.s.cr0 with ts := true } := by
  obtain ⟨-, ⟨u, y, hleft⟩, -⟩ := leaveTask_eq_ok h
  refine ⟨bind_of_ok h _, by rw [hleft.committed]; rfl, ?_, ?_⟩
  · rw [hleft.state]
  · rw [hleft.state]

section Result

variable {kind : SwitchKind} {nsel : BitVec 16} {d : Desc} {eipSave : BitVec 32} {fl : Flags} {w v x w1 w2 w3 : Work}

/-- The stages of part D in their order, up to the offset inside the new code segment (44 R192). -/
theorem enterTask_stages (kind : SwitchKind) (w : Work) :
    RunsThrough (enterTask kind w)
      ([loadTask kind, loadTaskLdt, loadTaskCs, loadTaskSs] ++ [.ds, .es, .fs, .gs].map loadTaskData) w fun v =>
      FirstFailure (enterTask kind w) v [(v.s.eip.toNat ≤ v.s.segs.cs.limit.toNat, .gp w.extCode)]
        (∀ t u, linRead (v.s.tr.base + 0x64) 2 false v = .ok t u →
          enterTask kind w = .ok () { u with s := { u.s with
            pendingDbg := if bit t 0 then u.s.pendingDbg ||| 0x8000#32 else u.s.pendingDbg } }) := by
  refine (enterTask_runsThrough kind w).mono fun v ⟨henters, hend⟩ => ?_
  rw [← henters.extCode]
  exact startTask_checks hend

theorem TaskSwitched.nesting (h : TaskSwitched kind nsel d eipSave fl w v x w1 w2 w3) :
    (kind = .call → v.s.flags.nt = true) ∧ (kind = .jmp → v.s.flags.nt = false) ∧ v.s.flags.vm = false := by
  obtain ⟨y, hflags, hvm⟩ := h.flags
  rw [hflags]
  refine ⟨fun hkind => ?_, fun hkind => ?_, hvm⟩
  · subst hkind
    rfl
  · subst hkind
    rfl

/-- The registers at the end are those of the new TSS (44 R185, R192 D2). -/
theorem TaskSwitched.resumed (h : TaskSwitched kind nsel d eipSave fl w v x w1 w2 w3) (hw : PlainRam w.s)
    (hapart : TasksApart w.s v.s nsel d.base) :
    let new (off : BitVec 32) (n : Nat) : BitVec 32 := w.s.valueAt (d.base + off) n
    (∀ r, v.s.reg r = new (tssReg r) 4) ∧ v.s.eip = new 0x20 4 ∧ v.s.flags = taskFlags kind (new 0x24 4) ∧
      (∀ r, (v.s.seg r).selector = lo16 (new (tssSeg r) 2)) ∧ v.s.ldtr.selector = lo16 (new 0x60 2) := by
  intro new
  have hold := h.holds hw hapart
  refine ⟨fun r => ?_, ?_, ?_, fun r => ?_, ?_⟩
  · rw [h.entered.state]
    exact hold (.gpr r)
  · rw [h.entered.state]
    exact hold .eip
  · rw [h.entered.state]
    exact (hold .flags).1
  · rw [h.entered.selector]
    exact (hold (.sel r)).1
  · rw [h.entered.ldt_selector]
    exact hold .ldt

/-- The registers at the start are in the old TSS (44 R185, R192 B2). -/
theorem TaskSwitched.saved (h : TaskSwitched kind nsel d eipSave fl w v x w1 w2 w3) (hw : PlainRam w.s)
    (hapart : TasksApart w.s v.s nsel d.base) :
    let old (off : BitVec 32) (n : Nat) : BitVec 32 := v.s.valueAt (w.s.tr.base + off) n
    (∀ r, old (tssReg r) 4 = w.s.reg r) ∧ (∀ r, lo16 (old (tssSeg r) 2) = (w.s.seg r).selector) ∧ old 0x20 4 = eipSave ∧
      old 0x24 4 = (savedFlags kind fl).toBits := by
  intro old
  have hsaved {i : TaskItem} (hi : i ≠ .ldt) := h.valueAt_old hw hapart hi
  refine ⟨fun r => ?_, fun r => ?_, ?_, ?_⟩
  · exact (hsaved (i := .gpr r) nofun).trans (lowBytes_four _)
  · exact (congrArg lo16 (hsaved (i := .sel r) nofun)).trans (lo16_lowBytes_two _)
  · exact (hsaved (i := .eip) nofun).trans (lowBytes_four _)
  · exact (hsaved (i := .flags) nofun).trans (lowBytes_four _)

theorem TaskSwitched.busy (h : TaskSwitched kind nsel d eipSave fl w v x w1 w2 w3) (hw : PlainRam w.s)
    (hapart : TasksApart w.s v.s nsel d.base) (hkind : kind ≠ .iret) : v.s.byteAt (accessByte w.s nsel) &&& 2#8 = 2#8 :=
  (busyBit_congr (h.byteAt_marked hw _)).trans ((h.suspended hw hapart).busy hkind)

theorem TaskSwitched.free (h : TaskSwitched kind nsel d eipSave fl w v x w1 w2 w3) (hw : PlainRam w.s)
    (hapart : TasksApart w.s v.s nsel d.base) (hkind : kind ≠ .call)
    (hne : accessByte w.s w.s.tr.selector ≠ accessByte w.s nsel ∨ kind = .iret) :
    v.s.byteAt (accessByte w.s w.s.tr.selector) &&& 2#8 = 0#8 :=
  (busyBit_congr (h.byteAt_marked hw _)).trans ((h.suspended hw hapart).free hkind hne)

end Result

/-- Settles O59, through the stages of a switch: each test comes from its stage, and a switch that runs to its end is followed
from the commit (`TaskSwitched.suspended`) over the load of the registers (`TaskSwitched.holds`) and the marks that the loads of
the segment registers make (`EnteredTask.marks`). -/
theorem taskSwitchResult : Obligations.TaskSwitchResult := by
  unfold Obligations.TaskSwitchResult
  refine ⟨fun kind nsel d eipSave fl w htr => ⟨leaveTask_checks htr kind nsel d eipSave fl, fun e v herr => ?stop,
      fun x hok => leaveTask_leaves hok⟩,
    fun kind w => ⟨fun e v herr => ?enterStop, fun v hload => ?registers, enterTask_stages kind w⟩,
    fun w => ⟨loadTaskLdt_null, loadTaskLdt_checks, loadTaskCs_checks w, loadTaskSs_checks w,
      fun r => ⟨loadTaskData_null, loadTaskData_checks⟩⟩,
    switchThroughGate_checks, fun kind nsel d eipSave fl w v hswitch => ?result⟩
  case stop => exact ⟨bind_of_error herr _, leaveTask_stopsUncommitted w e v herr⟩
  case enterStop =>
    have henters := (enterTask_enters kind).error herr
    exact ⟨henters.committed, henters.tr, henters.cr0⟩
  case registers =>
    have hloaded := loadTask_loaded hload
    exact ⟨hloaded.invalid, hloaded.ldt, hloaded.cpl⟩
  case result =>
    obtain ⟨x, w1, w2, w3, h⟩ := taskSwitch_eq_ok hswitch
    obtain ⟨hpresent, hbusy, hlimit⟩ := h.tests
    obtain ⟨hcall, hjmp, hvm⟩ := h.nesting
    obtain ⟨hjumped, hkeep⟩ := h.marks
    refine ⟨h.tr, h.cr0, hcall, hjmp, hvm, h.entered.cpl, h.entered.valid h.entered.cs, h.entered.valid h.entered.ss,
      h.entered.eip_le, hlimit, hpresent, hbusy, h.dr7, hjumped, hkeep, h.frame, fun hram hm hapart => ?memory,
      fun hram hm hapart => ?descriptors⟩
    case memory =>
      intro new old oldByte newByte
      have hw : PlainRam w.s := ⟨hram, hm⟩
      obtain ⟨hregs, heip, hflags, hsels, hldt⟩ := h.resumed hw hapart
      obtain ⟨hsavedRegs, hsavedSels, hsavedEip, hsavedFlags⟩ := h.saved hw hapart
      exact ⟨hregs, heip, hflags, hsels, hldt, h.pdbr hw, h.tlb hw, h.pendingDbg hw hapart, hsavedRegs, hsavedSels, hsavedEip,
        hsavedFlags, h.valueAt_link hw hapart, h.busy hw hapart, h.free hw hapart,
        fun a hsaved hold hnew hlink => h.byteAt_untouched hw ⟨hsaved, hold, hnew, hlink⟩⟩
    case descriptors =>
      have hx : PlainRam x.s := h.plainRam ⟨hram, hm⟩
      have hloaded (r : SegReg) (hnull : isNull (v.s.seg r).selector = false) := h.entered.loaded hx hapart hnull
      refine ⟨hloaded .cs ?_, hloaded .ss ?_, hloaded, fun r => h.entered.seg_invalid, h.entered.ldt_invalid,
        h.entered.ldt_descriptor hx hapart⟩
      · rw [h.entered.selector_segs]
        exact h.entered.cs
      · rw [h.entered.selector_segs]
        exact h.entered.ss

end Sys2Proof.Machine
end

section
/-! The obligations about CLI and STI and about the I/O permission map (O31, O36): the test of CPL against IOPL, and the walk over
the ports of an access. -/

namespace Sys2Proof.Machine

open Sys2Proof

-- One theorem after another, so that no more of them wait for each other than the memory limit has threads for.
set_option Elab.async false

/-! ### CPL and IOPL (45 R202) -/

/-- The processor grants I/O and the change of IF without asking further: real-address mode, or CPL at or below IOPL. -/
def State.IoFree (s : State) : Prop := s.cr0.pe = false ∨ s.cpl.toNat ≤ s.flags.iopl.toNat

theorem ioFree_iff {s : State} : s.IoFree ↔ (!s.cr0.pe || s.cpl.ule s.flags.iopl) = true := by
  rw [Bool.or_eq_true, Bool.not_eq_true', BitVec.ule_iff_toNat_le, State.IoFree]

theorem not_ioFree {s : State} (hpe : s.cr0.pe = true) (hiopl : s.flags.iopl.toNat < s.cpl.toNat) : ¬ s.IoFree := by
  rintro (hreal | hle)
  · rw [hpe] at hreal
    cases hreal
  · omega

theorem check_ok {c : Bool} (h : c = true) (e : Exc) (w : Work) : check c e w = .ok () w := check_eq_ok.2 ⟨h, rfl⟩

theorem check_raises {c : Bool} (h : ¬ c = true) (e : Exc) (w : Work) : check c e w = .error (.exc e) w :=
  (run_check c e w).trans (if_neg h)

theorem ioplSensitive_ok {w : Work} (h : w.s.IoFree) : ioplSensitive w = .ok () w :=
  (bind_of_ok (run_st w) _).trans (check_ok (ioFree_iff.1 h) _ w)

theorem ioplSensitive_raises {w : Work} (h : ¬ w.s.IoFree) : ioplSensitive w = .error (.exc (.gp 0)) w :=
  (bind_of_ok (run_st w) _).trans (check_raises (fun hc => h (ioFree_iff.2 hc)) _ w)

section Sensitive

variable {s : State} {f : State → State}

/-- CLI or STI where allowed. -/
theorem run_ioplSensitive_completes (ready : Ready s) (h : s.IoFree) (heip : (f s).eip = s.eip := by rfl)
    (hinsn : (f s).insn = s.insn := by rfl) : run (ioplSensitive >>= fun _ => upd f) s = .next (s.completed (f s)) :=
  run_completes ready (bind_of_ok (ioplSensitive_ok (w := s.work) h) _) heip hinsn

/-- CLI or STI elsewhere. -/
theorem run_ioplSensitive_raises (ready : Ready s) (h : ¬ s.IoFree) :
    run (ioplSensitive >>= fun _ => upd f) s = raiseExc 6 s.faulting (.gp 0) :=
  run_raises_first ready (ioplSensitive_raises (w := s.work) h)

end Sensitive

/-- Settles O31: the test of CPL against IOPL comes first, and the change of IF is all that follows. -/
theorem cliSti : Obligations.CliSti := fun _ ready =>
  ⟨fun hfree => ⟨run_ioplSensitive_completes ready hfree, run_ioplSensitive_completes ready hfree⟩,
    fun hpe hiopl => ⟨run_ioplSensitive_raises ready (not_ioFree hpe hiopl), run_ioplSensitive_raises ready (not_ioFree hpe hiopl)⟩⟩

/-! ### The same work for each element of a list -/

section Each

variable {α : Type} {f : α → M Unit} {w : Work}

theorem each_ok {l : List α} (h : ∀ a ∈ l, f a w = .ok () w) : each f l w = .ok () w := by
  induction l with
  | nil => rfl
  | cons a t ih =>
    rw [List.forall_mem_cons] at h
    exact (bind_of_ok h.1 _).trans (ih h.2)

/-- Tests that all raise the same: the first that fails ends them. -/
theorem each_raises {P : α → Prop} {x : Stop} (hok : ∀ a, P a → f a w = .ok () w) (herr : ∀ a, ¬ P a → f a w = .error x w)
    {l : List α} (h : ¬ ∀ a ∈ l, P a) : each f l w = .error x w := by
  induction l with
  | nil => exact absurd nofun h
  | cons a t ih =>
    rw [List.forall_mem_cons, not_and] at h
    by_cases ha : P a
    · exact (bind_of_ok (hok a ha) _).trans (ih (h ha))
    · exact bind_of_error (herr a ha) _

end Each

/-! ### The I/O permission map (45 R203, R204) -/

/-- Where the map begins in the TSS. -/
def State.ioMapBase (s : State) : Nat := (s.valueAt (s.tr.base + 0x66#32) 2).toNat

/-- Port `p` has a 0 bit in the map, at or below the limit of the TSS. -/
def State.PortPermits (s : State) (p : Nat) : Prop :=
  s.ioMapBase + p / 8 ≤ s.tr.limit.toNat ∧
    bit (s.valueAt (s.tr.base + BitVec.ofNat 32 (s.ioMapBase + p / 8)) 1) (p % 8) = false

/-- The map begins within the TSS and permits every port of an access. -/
def State.MapPermits (s : State) (port : BitVec 16) (n : Nat) : Prop :=
  s.ioMapBase < s.tr.limit.toNat ∧ ∀ j, j < n → s.PortPermits (port.toNat + j)

theorem ioPermission_free {w : Work} (h : w.s.IoFree) (port : BitVec 16) (n : Nat) : ioPermission port n w = .ok () w := by
  rw [ioPermission, M.run_bind, run_st]
  exact congrFun (if_pos (ioFree_iff.1 h)) w

section Map

variable {w : Work} {port : BitVec 16} {n : Nat} (hram : AllRam w.s)
include hram

theorem portPermitted_ok {p : Nat} (h : w.s.PortPermits p) : portPermitted w.s.ioMapBase p w = .ok () w := by
  obtain ⟨hlimit, hbit⟩ := h
  simp only [portPermitted, M.run_bind, run_st, decide_eq_true hlimit, run_check_true, linRead_ram hram _ Nat.one_ne_zero,
    hbit, Bool.not_false]

theorem portPermitted_raises {p : Nat} (h : ¬ w.s.PortPermits p) :
    portPermitted w.s.ioMapBase p w = .error (.exc (.gp 0)) w := by
  simp only [portPermitted, M.run_bind, run_st]
  by_cases hlimit : w.s.ioMapBase + p / 8 ≤ w.s.tr.limit.toNat
  · have hbit : bit (w.s.valueAt (w.s.tr.base + BitVec.ofNat 32 (w.s.ioMapBase + p / 8)) 1) (p % 8) = true :=
      Bool.eq_true_of_not_eq_false fun hclear => h ⟨hlimit, hclear⟩
    simp only [decide_eq_true hlimit, run_check_true, linRead_ram hram _ Nat.one_ne_zero, hbit, Bool.not_true, run_check_false]
  · simp only [decide_eq_false hlimit, run_check_false]

/-- Where I/O is not free, what is left to test is the place of the map and its bits. -/
theorem ioPermission_mapped (hfree : ¬ w.s.IoFree) (htr : w.s.tr.valid = true) :
    ioPermission port n w = (check (decide (w.s.ioMapBase < w.s.tr.limit.toNat)) (.gp 0) >>= fun _ =>
      each (fun i => portPermitted w.s.ioMapBase (port.toNat + i)) (List.range n)) w := by
  rw [ioPermission, M.run_bind, run_st]
  refine (congrFun (if_neg fun h => hfree (ioFree_iff.2 h)) w).trans ?_
  rw [bind_of_ok (need_ok htr _ w)]
  exact bind_of_ok (linRead_ram hram _ two_ne_zero false) _

theorem ioPermission_permitted (hfree : ¬ w.s.IoFree) (htr : w.s.tr.valid = true) (h : w.s.MapPermits port n) :
    ioPermission port n w = .ok () w := by
  obtain ⟨hbase, hports⟩ := h
  rw [ioPermission_mapped hram hfree htr, bind_of_ok (check_ok (decide_eq_true hbase) _ w)]
  exact each_ok fun j hj => portPermitted_ok hram (hports j (List.mem_range.1 hj))

theorem ioPermission_denied (hfree : ¬ w.s.IoFree) (htr : w.s.tr.valid = true) (h : ¬ w.s.MapPermits port n) :
    ioPermission port n w = .error (.exc (.gp 0)) w := by
  rw [ioPermission_mapped hram hfree htr]
  by_cases hbase : w.s.ioMapBase < w.s.tr.limit.toNat
  · rw [bind_of_ok (check_ok (decide_eq_true hbase) _ w)]
    exact each_raises (P := fun j => w.s.PortPermits (port.toNat + j)) (fun j => portPermitted_ok hram)
      (fun j => portPermitted_raises hram) fun hports => h ⟨hbase, fun j hj => hports j (List.mem_range.2 hj)⟩
  · exact bind_of_error (check_raises (fun hc => hbase (of_decide_eq_true hc)) _ w) _

end Map

/-- Settles O36: I/O is free, or else the map permits the access or does not. -/
theorem ioPermissionMap : Obligations.IoPermissionMap := by
  intro s port n hram htr mapbase permits free
  refine ⟨fun h => ?_, ioPermission_denied (w := s.work) hram (htr := htr)⟩
  by_cases hfree : s.IoFree
  · exact ioPermission_free (w := s.work) hfree port n
  · exact ioPermission_permitted (w := s.work) hram hfree htr (h.resolve_left hfree)

end Sys2Proof.Machine
end

section
/-! The obligation about IN and OUT (O35): accesses of aligned ports, and what the two instructions leave. -/

namespace Sys2Proof.Machine

open Sys2Proof

-- One theorem after another, so that no more of them wait for each other than the memory limit has threads for.
set_option Elab.async false

/-! ### Aligned ports (45 R200) -/

/-- What a device answers is a free value: of the world, at most what is left of its answers changes. -/
theorem deviceIn_ok (w : Work) :
    ∃ x e, deviceIn w = .ok x { w with s := { w.s with env := e } } ∧ e.bus = w.s.env.bus := by
  unfold deviceIn
  simp only [M.run_bind, run_st]
  cases w.s.env.devIn with
  | nil => exact ⟨_, _, rfl, rfl⟩
  | cons v t => exact ⟨_, _, rfl, rfl⟩

/-- The world after one more device access has been recorded (log 14). -/
def Env.recorded (e : Env) (b : BusEvent) : Env := { e with bus := e.bus ++ [b] }

section Aligned

variable {port : BitVec 16} {n : Nat}

/-- An aligned access does not run past port FFFFH. -/
theorem aligned_port_fits (hn : n = 1 ∨ n = 2 ∨ n = 4) (h : port.toNat % n = 0) : port.toNat + n ≤ 2 ^ 16 := by
  have hlt := port.isLt
  rcases hn with rfl | rfl | rfl <;> omega

variable (hn : n = 1 ∨ n = 2 ∨ n = 4) (h : port.toNat % n = 0) (w : Work)
include hn h

theorem ioRead_aligned : ∃ x e, ioRead port n w = .ok (lowBytes n x) { w with s := { w.s with env := e } } ∧
    e.bus = w.s.env.bus ++ [.ioRead port n (lowBytes n x)] := by
  obtain ⟨x, e, hdevice, hbus⟩ := deviceIn_ok w
  refine ⟨x, e.recorded (.ioRead port n (lowBytes n x)), ?_, congrArg (· ++ _) hbus⟩
  rw [ioRead, bind_of_ok (need_ok (decide_eq_true (aligned_port_fits hn h)) _ w), if_pos h, portRead, bind_of_ok hdevice]
  rfl

theorem ioWrite_aligned (v : BitVec 32) :
    ioWrite port n v w = .ok () { w with s := { w.s with env := w.s.env.recorded (.ioWrite port n (lowBytes n v)) } } := by
  rw [ioWrite, bind_of_ok (need_ok (decide_eq_true (aligned_port_fits hn h)) _ w), if_pos h]
  rfl

end Aligned

/-! ### Register operands (10 R16) -/

/-- A write of a register operand changes general registers alone. -/
theorem Place.set_same (p : Place) (s : State) (v : BitVec 32) : p.set s v = { s with gpr := (p.set s v).gpr } := by
  cases p <;> rfl

theorem Place.set_gpr_congr {s t : State} (p : Place) (h : t.gpr = s.gpr) (v : BitVec 32) :
    (p.set t v).gpr = (p.set s v).gpr := by
  cases p with
  | reg8 r => simp only [Place.set, State.setReg8, State.setReg, State.reg, h]
  | reg z r => simp only [Place.set, State.setRegv, State.setReg, State.reg, h]
  | mem g off z => exact h

theorem Place.value_congr {s t : State} (p : Place) (h : t.gpr = s.gpr) : p.value t = p.value s := by
  cases p with
  | reg8 r => simp only [Place.value, State.reg8, State.reg, h]
  | reg z r => simp only [Place.value, State.regv, State.reg, h]
  | mem g off z => rfl

/-! ### The instructions (45 R205, R206) -/

section Instructions

variable {s : State} {i : Instr} {port : BitVec 16}

theorem exec_in {dst : Place} (h : inForm s i = some (port, dst)) : exec i s = run (inBody port dst) s ∧ dst.isMem = false := by
  unfold inForm at h
  split at h <;> cases h <;> exact ⟨rfl, rfl⟩

theorem exec_out {src : Place} (h : outForm s i = some (port, src)) :
    exec i s = run (outBody port src) s ∧ src.isMem = false := by
  unfold outForm at h
  split at h <;> cases h <;> exact ⟨rfl, rfl⟩

/-- The end of a meaning that reads and then replaces a register operand, or none. -/
theorem run_reads_ends {u : State} {w : Work} {body : M Unit} (ready : Ready s) (hreads : ReadsW s.work w)
    (hbody : body s.work = .ok () { w with s := u }) (hu : u = { w.s with gpr := u.gpr }) :
    ∃ t, run body s = .next t ∧ Ends s u t ∧ t.gpr = u.gpr ∧ t.flags = { s.flags with rf := false } ∧ KeepsSystem s t ∧
      (Memory.wf s.mem = true → FrameExcept s t []) := by
  have hstate := hreads.acc.state
  have hflags : u.flags = s.flags := (congrArg State.flags hu).trans hstate.flags
  obtain ⟨t, hrun, hends⟩ := run_ends ready hreads.acc hbody (congrArg State.eip hu :) (congrArg State.insn hu :)
  refine ⟨t, hrun, hends, hends.gpr, by rw [hends.flags, hflags], hends.keepsSystem (hstate.keepsSystem_of ?_),
    fun hm => (hreads.frame hm).of_mem_eq (hends.mem.trans (congrArg State.mem hu :))⟩
  rw [hu]

theorem exec_in_ends {dst : Place} (hform : inForm s i = some (port, dst)) (ready : Ready s) {w1 w2 : Work} {v : BitVec 32}
    (hfree : ioPermission port dst.width.bytes s.work = .ok () w1) (hread : ioRead port dst.width.bytes w1 = .ok v w2) :
    ∃ t, exec i s = .next t ∧ Ends s (dst.set w2.s v) t ∧ t.gpr = (dst.set s v).gpr ∧
      t.flags = { s.flags with rf := false } ∧ KeepsSystem s t ∧ (Memory.wf s.mem = true → FrameExcept s t []) := by
  obtain ⟨hexec, hreg⟩ := exec_in hform
  have hreads : ReadsW s.work w2 :=
    reads_rel.trans _ _ _ ((ioPermission_reads _ _).ok hfree) ((ioRead_reads _ _).ok hread)
  have hbody : inBody port dst s.work = .ok () { w2 with s := dst.set w2.s v } :=
    (bind_of_ok hfree _).trans ((bind_of_ok hread _).trans ((Place.run_of_not_mem w2 hreg).2.2 v))
  obtain ⟨t, hrun, hends, hgpr, hrest⟩ := run_reads_ends ready hreads hbody (dst.set_same w2.s v)
  exact ⟨t, hexec.trans hrun, hends, hgpr.trans (dst.set_gpr_congr hreads.acc.state.gpr v), hrest⟩

theorem exec_out_ends {src : Place} (hform : outForm s i = some (port, src)) (ready : Ready s) {w1 w2 : Work}
    (hfree : ioPermission port src.width.bytes s.work = .ok () w1)
    (hwrite : ioWrite port src.width.bytes (src.value s) w1 = .ok () w2) :
    ∃ t, exec i s = .next t ∧ Ends s w2.s t ∧ t.gpr = s.gpr ∧ t.flags = { s.flags with rf := false } ∧ KeepsSystem s t ∧
      (Memory.wf s.mem = true → FrameExcept s t []) := by
  obtain ⟨hexec, hreg⟩ := exec_out hform
  have hfirst := (ioPermission_reads _ _).ok hfree
  have hreads : ReadsW s.work w2 := reads_rel.trans _ _ _ hfirst ((ioWrite_reads _ _ _).ok hwrite)
  have hsrc : src.read w1 = .ok (src.value s) w1 := by
    rw [(Place.run_of_not_mem w1 hreg).2.1, src.value_congr (s := s) hfirst.acc.state.gpr]
  have hbody : outBody port src s.work = .ok () w2 := (bind_of_ok hfree _).trans ((bind_of_ok hsrc _).trans hwrite)
  obtain ⟨t, hrun, hends, hgpr, hrest⟩ := run_reads_ends (u := w2.s) ready hreads hbody rfl
  exact ⟨t, hexec.trans hrun, hends, hgpr.trans hreads.acc.state.gpr, hrest⟩

end Instructions

/-- Settles O35: permission, the port and the accumulator in their order, none of which touches memory or anything else; an
aligned port is one access. -/
theorem portIo : Obligations.PortIo :=
  ⟨fun _ _ _ _ hform ready _ _ _ hfree hread => exec_in_ends hform ready hfree hread,
    fun _ _ _ _ hform ready _ _ hfree hwrite => exec_out_ends hform ready hfree hwrite,
    fun w _ _ v hn h => ⟨ioRead_aligned hn h w, ioWrite_aligned hn h w v⟩⟩

end Sys2Proof.Machine
end

section
/-! The obligation about the elements of INS and OUTS (O34). -/

namespace Sys2Proof.Machine

open Sys2Proof

-- One theorem after another, so that no more of them wait for each other than the memory limit has threads for.
set_option Elab.async false

/-! ### The bytes of a value (20 R62) -/

theorem getLsbD_byteOf (v : BitVec 32) (i j : Nat) : (byteOf v i).getLsbD j = (decide (j < 8) && v.getLsbD (8 * i + j)) :=
  BitVec.getLsbD_extractLsb' ..

theorem getLsbD_ofBytes_cons (b : Byte) (t : List Byte) (j : Nat) : (ofBytes (b :: t)).getLsbD j =
    (decide (j < 32) && !decide (j < 8) && (ofBytes t).getLsbD (j - 8) || decide (j < 32) && b.getLsbD j) := by
  rw [ofBytes, BitVec.getLsbD_or, BitVec.getLsbD_shiftLeft, BitVec.getLsbD_setWidth]

/-- The lowest byte is the first. -/
theorem byteOf_ofBytes_zero (b : Byte) (t : List Byte) : byteOf (ofBytes (b :: t)) 0 = b := by
  refine BitVec.eq_of_getLsbD_eq fun j hj => ?_
  have hlt : j < 32 := by omega
  rw [getLsbD_byteOf, Nat.mul_zero, Nat.zero_add, getLsbD_ofBytes_cons]
  simp [hj, hlt]

/-- The others are those of the rest, as far as a doubleword goes. -/
theorem byteOf_ofBytes_succ (b : Byte) (t : List Byte) {i : Nat} (hi : i < 3) :
    byteOf (ofBytes (b :: t)) (i + 1) = byteOf (ofBytes t) i := by
  refine BitVec.eq_of_getLsbD_eq fun j hj => ?_
  have hlt : 8 * (i + 1) + j < 32 := by omega
  have hge : ¬ 8 * (i + 1) + j < 8 := by omega
  have hsub : 8 * (i + 1) + j - 8 = 8 * i + j := by omega
  have hb : b.getLsbD (8 * (i + 1) + j) = false := BitVec.getLsbD_of_ge b _ (by omega)
  rw [getLsbD_byteOf, getLsbD_ofBytes_cons, getLsbD_byteOf, hsub, hb]
  simp [hlt, hge]

/-- Up to four bytes are got back from their value. -/
theorem toBytes_ofBytes {n : Nat} {l : List Byte} (hl : l.length = n) (hn : n ≤ 4) : toBytes n (ofBytes l) = l := by
  induction l generalizing n with
  | nil => subst hl; rfl
  | cons b t ih =>
    subst hl
    rw [toBytes, List.length_cons, List.range_succ_eq_map, List.map_cons, List.map_map, byteOf_ofBytes_zero]
    rw [List.length_cons] at hn
    refine congrArg (b :: ·) (Eq.trans (List.map_congr_left fun i hi => ?_) (ih rfl (by omega)))
    have hi := List.mem_range.1 hi
    exact byteOf_ofBytes_succ b t (by omega)

theorem toBytes_lowBytes {n : Nat} (hn : n ≤ 4) (v : BitVec 32) : toBytes n (lowBytes n v) = toBytes n v :=
  toBytes_ofBytes (length_toBytes n v) hn

theorem lowBytes_valueAt (s : State) (a : BitVec 32) {n : Nat} (hn : n ≤ 4) : lowBytes n (s.valueAt a n) = s.valueAt a n := by
  rw [lowBytes, State.valueAt, toBytes_ofBytes (by rw [List.length_map, length_span]) hn]

/-! ### Elements (45 R207, R208) -/

/-- A store leaves the registers, so an index moves after it as before. -/
theorem State.stepIndex_store (s : State) (a : BitVec 32) (n : Nat) (v : BitVec 32) (r : Reg) (k : Nat) :
    let t := (s.store a n v).stepIndex r k
    t.gpr = (s.stepIndex r k).gpr ∧ t.flags = s.flags ∧ t.env = s.env := by
  obtain ⟨m, l, hstore⟩ := s.store_same a n v
  rw [hstore]
  exact ⟨rfl, rfl, rfl⟩

section Elements

variable {w : Work} {n : Nat} (hn : n = 1 ∨ n = 2 ∨ n = 4) (hfree : w.s.IoFree) (h : w.s.dx.toNat % n = 0)
include hn hfree h

/-- The element of INS: what the device answers is stored and the index moves. -/
theorem insElement_flat (hflat : FlatAccess w.s .es (w.s.index .edi) n true) :
    ∃ x e, e.bus = w.s.env.bus ++ [.ioRead w.s.dx n (lowBytes n x)] ∧ insElement n w = .ok () { w with
      s := (({ w.s with env := e } : State).store (w.s.segs.es.base + w.s.index .edi) n (lowBytes n x)).stepIndex .edi n } := by
  obtain ⟨x, e, hread, hbus⟩ := ioRead_aligned hn h w
  have hmap : e.physMap = w.s.env.physMap := ((ioRead_accesses _ _).ok hread).state.map
  have hplain : PlainMemory { w.s with env := e } (w.s.segs.es.base + w.s.index .edi) n := fun p hp => by
    rw [State.kindAt, hmap]
    exact hflat.plain p hp
  have hstore := physWriteAt_plain (w := { w with s := { w.s with env := e } }) hplain
    (span_ne_nil _ (by omega : 1 ≤ n)) (lowBytes n x)
  rw [storeAt_span] at hstore
  refine ⟨x, e, hbus, ?_⟩
  rw [insElement, bind_of_ok (run_st w), bind_of_ok (ioPermission_free hfree _ _), bind_of_ok (segCheck_ok hflat.segment),
    bind_of_ok (linAccess_flat hflat.paging _ _ _ _), bind_of_ok (noteData_off hflat.breakpoints _ _ _), bind_of_ok hread]
  exact bind_of_ok hstore _

/-- The element of OUTS: what memory holds goes to the port and the index moves. -/
theorem outsElement_flat (hflat : FlatAccess w.s (w.s.dataSeg .ds) (w.s.index .esi) n false) :
    outsElement n w = .ok () { w with s := ({ w.s with env := w.s.env.recorded (.ioWrite w.s.dx n
      (w.s.valueAt ((w.s.seg (w.s.dataSeg .ds)).base + w.s.index .esi) n)) } : State).stepIndex .esi n } := by
  have hread := flatRead w (w.s.dataSeg .ds) (w.s.index .esi) n (by omega) (by omega) hflat
  have hwrite := ioWrite_aligned hn h w (w.s.valueAt ((w.s.seg (w.s.dataSeg .ds)).base + w.s.index .esi) n)
  rw [lowBytes_valueAt w.s _ (by omega)] at hwrite
  rw [outsElement, bind_of_ok (run_st w), bind_of_ok (ioPermission_free hfree _ _), bind_of_ok hread]
  exact bind_of_ok hwrite _

end Elements

/-- Settles O34: an aligned port is one access, plain memory gives or takes the element's bytes, and the index moves. -/
theorem portStringElements : Obligations.PortStringElements := by
  intro s n hn hm hfree h
  have hn4 : n ≤ 4 := by omega
  refine ⟨fun hflat => ?_, fun hflat => ⟨_, outsElement_flat (w := s.work) hn hfree h hflat, rfl, rfl, rfl, rfl⟩⟩
  obtain ⟨x, e, hbus, helement⟩ := insElement_flat (w := s.work) hn hfree h hflat
  have hm' : Memory.wf ({ s with env := e } : State).mem = true := hm
  obtain ⟨hgpr, hflags, henv⟩ := ({ s with env := e } : State).stepIndex_store (s.segs.es.base + s.index .edi) n (lowBytes n x)
    .edi n
  refine ⟨x, _, helement, hgpr, hflags, (congrArg Env.bus henv).trans hbus, fun j hj => ?_, fun a ha => ?_⟩
  · have hbytes := State.map_byteAt_store hm' (s.segs.es.base + s.index .edi) (by omega : n ≤ 2 ^ 32) (lowBytes n x)
    rw [toBytes_lowBytes hn4, span, toBytes, List.map_map] at hbytes
    exact List.map_inj_left.1 hbytes j (List.mem_range.2 hj)
  · exact State.byteAt_store_other hm' ha

end Sys2Proof.Machine
end

section
/-! The obligation about MOVS, INS and OUTS, alone and with REP (O32): what an element may change, and how the instruction ends. -/

namespace Sys2Proof.Machine

open Sys2Proof

-- One theorem after another, so that no more of them wait for each other than the memory limit has threads for.
set_option Elab.async false

/-! ### What a string instruction may change -/

/-- What an access may change, and general registers. -/
def StringW (w u : Work) : Prop := AccessesW w { u with s := { u.s with gpr := w.s.gpr } }

section StringW

variable {w u : Work} {s t : State}

theorem AccessesW.string (h : AccessesW w u) : StringW w u := by
  have hu : { u with s := { u.s with gpr := w.s.gpr } } = u := by rw [← h.state.gpr]
  rw [StringW, hu]
  exact h

theorem StringW.of_accesses {v : Work} (h : AccessesW w v) (hu : StringW v u) : StringW w u := by
  rw [StringW, h.state.gpr] at hu
  exact accesses_rel.trans _ _ _ h hu

theorem StringW.eip (h : StringW w u) : u.s.eip = w.s.eip := h.state.eip
theorem StringW.flags (h : StringW w u) : u.s.flags = w.s.flags := h.state.flags
theorem StringW.insn (h : StringW w u) : u.s.insn = w.s.insn := h.state.insn

theorem StringW.waiting (h : StringW w u) : u.waiting = w.waiting := (congrArg Work.waiting h.same :)
theorem StringW.jumped (h : StringW w u) : u.jumped = w.jumped := (congrArg Work.jumped h.same :)
theorem StringW.repeating (h : StringW w u) : u.repeating = w.repeating := (congrArg Work.repeating h.same :)
theorem StringW.keepRf (h : StringW w u) : u.keepRf = w.keepRf := (congrArg Work.keepRf h.same :)

theorem StringW.as (h : StringW w u) : u.s.as = w.s.as := by
  have hcr0 : u.s.cr0 = w.s.cr0 := h.state.cr0
  have hsegs : u.s.segs = w.s.segs := h.state.segs
  simp only [State.as, State.defaultSize, hcr0, hsegs, h.insn]

theorem StringW.keepsSystem (h : StringW s.work u) : KeepsSystem s u.s := h.state.keepsSystem_of rfl

end StringW

/-! ### Elements (45 R207, R208; 48 R268) -/

/-- `m` is an element: it accesses memory and ports, and moves index registers but not the count. -/
def IsElement (m : M Unit) : Prop := ∀ w u, m w = .ok () u → StringW w u ∧ u.s.reg .ecx = w.s.reg .ecx

theorem IsElement.bind {α : Type} {x : M α} {f : α → M Unit} (hx : Within AccessesW x) (hf : ∀ a, IsElement (f a)) :
    IsElement (x >>= f) := by
  intro w u hxf
  obtain ⟨a, v, hxa, hfa⟩ := bind_eq_ok.1 hxf
  have hacc := hx.ok hxa
  obtain ⟨hstring, hecx⟩ := hf a v u hfa
  refine ⟨hstring.of_accesses hacc, hecx.trans ?_⟩
  rw [State.reg, hacc.state.gpr, State.reg]

theorem IsElement.upd {f : State → State} (hf : ∀ s, f s = { s with gpr := (f s).gpr })
    (hecx : ∀ s, (f s).reg .ecx = s.reg .ecx) : IsElement (upd f) := by
  intro w u h
  cases h
  refine ⟨?_, hecx w.s⟩
  rw [StringW, hf w.s]
  exact accesses_rel.refl w

theorem State.reg_stepIndex_ne (s : State) {r q : Reg} (h : q ≠ r) (n : Nat) : (s.stepIndex r n).reg q = s.reg q :=
  State.reg_setReg_ne s _ h

theorem stepIndex_isElement {r : Reg} (hr : .ecx ≠ r) (n : Nat) : IsElement (upd fun t => t.stepIndex r n) :=
  .upd (fun _ => rfl) fun s => s.reg_stepIndex_ne hr n

theorem movsElement_isElement (n : Nat) : IsElement (movsElement n) :=
  .bind (within_st accesses_rel) fun _ => .bind (memProbe_accesses _ _ _ _) fun _ => .bind (memRead_accesses _ _ _) fun _ =>
    .bind (memWrite_accesses _ _ _ _) fun _ => .upd (fun _ => rfl) fun s =>
      ((s.stepIndex .esi n).reg_stepIndex_ne (r := .edi) (by decide) n).trans (s.reg_stepIndex_ne (by decide) n)

theorem insElement_isElement (n : Nat) : IsElement (insElement n) :=
  .bind (within_st accesses_rel) fun _ => .bind (ioPermission_accesses _ _) fun _ => .bind (segCheck_accesses _ _ _ _) fun _ =>
    .bind (linAccess_accesses _ _ _ _) fun _ => .bind (noteData_accesses _ _ _) fun _ => .bind (ioRead_accesses _ _) fun _ =>
      .bind (physWriteAt_accesses _ _) fun _ => stepIndex_isElement (by decide) n

theorem outsElement_isElement (n : Nat) : IsElement (outsElement n) :=
  .bind (within_st accesses_rel) fun _ => .bind (ioPermission_accesses _ _) fun _ => .bind (memRead_accesses _ _ _) fun _ =>
    .bind (ioWrite_accesses _ _ _) fun _ => stepIndex_isElement (by decide) n

theorem exec_string {s : State} {i : Instr} {element : M Unit} (h : stringElement s i = some element) :
    exec i s = runWith false true (repeated element) s ∧ IsElement element := by
  unfold stringElement at h
  split at h <;> cases h
  case h_1 | h_2 => exact ⟨rfl, movsElement_isElement _⟩
  case h_3 | h_4 => exact ⟨rfl, insElement_isElement _⟩
  case h_5 | h_6 => exact ⟨rfl, outsElement_isElement _⟩

/-! ### The count (45 R209; 48 R269) -/

/-- The count less one. -/
def State.countDown (s : State) : State := s.setRegv s.as .ecx (s.as.add (s.index .ecx) (-1))

theorem State.countDown_eq {s t : State} (has : t.as = s.as) (hecx : t.reg .ecx = s.reg .ecx) (h : s.index .ecx ≠ 0) :
    t.countDown = t.setRegv s.as .ecx (s.index .ecx - 1) := by
  have hindex : t.index .ecx = s.index .ecx := by rw [State.index, State.regv, has, hecx, State.index, State.regv]
  have hpos : 1 ≤ (s.index .ecx).toNat := Nat.one_le_iff_ne_zero.2 fun h0 => h (BitVec.eq_of_toNat_eq h0)
  rw [State.countDown, has, hindex, Size.add, ← BitVec.sub_eq_add_neg]
  exact congrArg _ (Size.trunc_sub (Size.trunc_idem _ _) (n := 1) hpos)

section Repeated

variable {element : M Unit} {w v : Work}

theorem repeated_once (h : w.s.insn.rep = false) : repeated element w = element w := by
  rw [repeated, bind_of_ok (run_st w)]
  exact congrFun (if_pos (by rw [h]; rfl)) w

theorem repeated_none (h : w.s.insn.rep = true) (h0 : w.s.index .ecx = 0) : repeated element w = .ok () w := by
  rw [repeated, bind_of_ok (run_st w)]
  refine (congrFun (if_neg (by rw [h]; exact Bool.false_ne_true)) w).trans ?_
  exact congrFun (if_pos h0) w

/-- One element of several: it is done, and the count goes down. -/
theorem repeated_counts (h : w.s.insn.rep = true) (h0 : w.s.index .ecx ≠ 0) (he : element w = .ok () v) :
    repeated element w = (if w.s.index .ecx = 1 then pure () else mark fun u => { u with repeating := true } : M Unit)
      { v with s := v.s.countDown } := by
  rw [repeated, bind_of_ok (run_st w)]
  refine (congrFun (if_neg (by rw [h]; exact Bool.false_ne_true)) w).trans ((congrFun (if_neg h0) w).trans ?_)
  exact (bind_of_ok he _).trans (bind_of_ok (run_upd _ v) _)

end Repeated

/-! ### The end (45 R209) -/

section Ends

variable {s : State} {w : Work}

theorem prefixesOk_string (hlock : s.insn.lock = false) (hrepne : s.insn.repne = false) :
    prefixesOk false true s.work = .ok () s.work := by
  simp [prefixesOk, State.work, Work.start, hlock, hrepne]

/-- The end of an instruction with elements to come: it stays where it is and keeps RF (log 40). -/
theorem finish_repeating (hw : w.waiting = false) (hr : w.repeating = true) (s : State) :
    ∃ v pd ld e, finish s w = .ok () v ∧ v.s = { w.s with pendingDbg := pd, lateDbg := ld, env := e } := by
  obtain ⟨pd, ld, e, htraps, -⟩ := collectTraps_ok s.flags.tf (bit s.dr7 8 || bit s.dr7 9) w
  exact ⟨_, pd, ld, e, by simpa [finish, hw, hr] using htraps, rfl⟩

/-- Running a meaning to its end, whatever prefixes it allows. -/
theorem runWith_next {lockable repeatable : Bool} {body : M Unit} {v : Work}
    (hp : prefixesOk lockable repeatable s.work = .ok () s.work) (hb : body s.work = .ok () w) (hf : finish s w = .ok () v) :
    runWith lockable repeatable body s = .next (endStep v.s) := by
  rw [runWith_eq hp, bind_of_ok hb, hf]
  rfl

variable {body : M Unit} (hp : prefixesOk false true s.work = .ok () s.work) (hstring : StringW s.work w)
include hp hstring

/-- The end of a string instruction with no elements to come. -/
theorem runWith_stringEnds (hb : body s.work = .ok () w) (room : s.eip.toNat + s.insn.len < 2 ^ 32) :
    ∃ t, runWith false true body s = .next t ∧ Ends s w.s t ∧ KeepsSystem s t ∧
      (w.hitOn = 0 → w.hitOff = 0 → t = s.completed w.s) := by
  have heip : w.s.eip = s.eip := hstring.eip
  have hinsn : w.s.insn = s.insn := hstring.insn
  have hnext : w.s.nextEip = s.nextEip := by rw [State.nextEip, heip, hinsn, State.nextEip]
  obtain ⟨v, hfinish, hends, hexact⟩ := finish_next (s := s) hstring.waiting hstring.jumped hstring.repeating hstring.keepRf
    (by rw [heip, hinsn]; exact room)
  rw [hnext] at hends hexact
  exact ⟨_, runWith_next hp hb hfinish, hends, Ends.keepsSystem hends hstring.keepsSystem, hexact⟩

/-- The end of one element with more to come. -/
theorem runWith_stringRepeats (hb : body s.work = .ok () { w with repeating := true }) :
    ∃ t, runWith false true body s = .next t ∧ t.eip = s.eip ∧ t.gpr = w.s.gpr ∧ t.mem = w.s.mem ∧ t.flags = s.flags ∧
      KeepsSystem s t := by
  obtain ⟨v, pd, ld, e, hfinish, hv⟩ :=
    finish_repeating (w := { w with repeating := true }) hstring.waiting rfl s
  have hkeeps := hstring.keepsSystem
  refine ⟨_, runWith_next hp hb hfinish, ?_⟩
  rw [hv]
  refine ⟨hstring.eip, rfl, rfl, hstring.flags, ?_⟩
  rw [KeepsSystem] at hkeeps
  rw [hkeeps]
  rfl

end Ends

/-- Settles O32: an element changes no more than accesses do and the general registers, the count apart, and the count decides
whether the instruction comes to its end. -/
theorem stringCompletes : Obligations.StringCompletes := by
  intro s i element hform hlock hrepne room
  obtain ⟨hexec, helement⟩ := exec_string hform
  have hp := prefixesOk_string hlock hrepne
  rw [hexec]
  refine ⟨fun hrep h0 => ?zero, fun w hw => ?_⟩
  case zero =>
    obtain ⟨t, hrun, -, -, hexact⟩ := runWith_stringEnds hp (accesses_rel.refl s.work).string
      (repeated_none (w := s.work) (element := element) hrep h0) room
    exact hrun.trans (congrArg _ (hexact rfl rfl))
  obtain ⟨hstring, hecx⟩ := helement _ _ hw
  have hcount (h0 : s.index .ecx ≠ 0) := State.countDown_eq (s := s) hstring.as hecx h0
  have hcounted : StringW s.work { w with s := w.s.countDown } := hstring
  refine ⟨fun hrep => ?once, fun hrep h1 => ?last, fun hrep h0 h1 => ?more⟩
  case once =>
    obtain ⟨t, hrun, hends, hkeeps, -⟩ := runWith_stringEnds hp hstring ((repeated_once (w := s.work) hrep).trans hw) room
    exact ⟨t, hrun, hends, hkeeps⟩
  case last =>
    have h0 : s.index .ecx ≠ 0 := by rw [h1]; decide
    have hbody := (repeated_counts (w := s.work) hrep h0 hw).trans (congrFun (if_pos h1) _)
    obtain ⟨t, hrun, hends, hkeeps, -⟩ := runWith_stringEnds hp hcounted hbody room
    refine ⟨t, hrun, ?_, hkeeps⟩
    rw [hcount h0, h1] at hends
    exact hends
  case more =>
    have hbody := (repeated_counts (w := s.work) hrep h0 hw).trans (congrFun (if_neg h1) _)
    obtain ⟨t, hrun, heip, hgpr, hmem, hflags, hkeeps⟩ := runWith_stringRepeats hp hcounted hbody
    exact ⟨t, hrun, heip, hcount h0 ▸ hgpr, hmem, hflags, hkeeps⟩

end Sys2Proof.Machine
end

section
/-! The obligation about BOUND (O58). -/

namespace Sys2Proof.Machine

open Sys2Proof

-- One theorem after another, so that no more of them wait for each other than the memory limit has threads for.
set_option Elab.async false

/-- What BOUND does with the bounds that it has read. -/
def boundTest (z : Size) (index : BitVec 32) (bounds : BitVec 32 × BitVec 32) : M Unit :=
  check ((z.sext bounds.1).sle (z.sext index) && (z.sext index).sle (z.sext bounds.2)) .br

/-- BOUND of the index in `r`, once its operand is known to be memory. -/
def boundBody (s : State) (r : Reg) (m : Mem) : M Unit :=
  memRead2 (s.dataSeg (defaultSeg m)) (effAddr s m) s.os.bytes s.os.bytes >>= boundTest s.os (s.reg r)

theorem exec_bound (r : Reg) (rm : RM Reg) (s : State) : exec (.bound r rm) s = run (needMem rm >>= boundBody s r) s := rfl

theorem boundTest_inside {z : Size} {index lo hi : BitVec 32} {w : Work}
    (h : (z.sext lo).toInt ≤ (z.sext index).toInt ∧ (z.sext index).toInt ≤ (z.sext hi).toInt) :
    boundTest z index (lo, hi) w = .ok () w := by
  rw [boundTest, BitVec.sle_iff_toInt_le.2 h.1, BitVec.sle_iff_toInt_le.2 h.2]
  rfl

theorem boundTest_outside {z : Size} {index lo hi : BitVec 32} {w : Work}
    (h : ¬ ((z.sext lo).toInt ≤ (z.sext index).toInt ∧ (z.sext index).toInt ≤ (z.sext hi).toInt)) :
    boundTest z index (lo, hi) w = .error (.exc .br) w := by
  have hfails : ((z.sext lo).sle (z.sext index) && (z.sext index).sle (z.sext hi)) = false := by
    rwa [Bool.eq_false_iff, ne_eq, Bool.and_eq_true, BitVec.sle_iff_toInt_le, BitVec.sle_iff_toInt_le]
  rw [boundTest, hfails]
  rfl

/-- Settles O58: the bounds are read (`memRead2_reads`), and the test of the index decides. -/
theorem boundCompletes : Obligations.BoundCompletes := by
  refine fun s r ready => ⟨fun q => run_needMem_raises ready rfl, fun m lo hi w hread => ?_⟩
  intro inside
  have hreads : ReadsW s.work w := (memRead2_reads _ _ _ _).ok hread
  have hbody : (needMem (.mem m) >>= boundBody s r) s.work = boundTest s.os (s.reg r) (lo, hi) w :=
    (bind_of_ok (run_needMem_mem m s.work) _).trans (bind_of_ok hread _)
  rw [exec_bound]
  refine ⟨fun hin => ?inside, fun hout => run_raises ready (hbody.trans (boundTest_outside hout))⟩
  case inside =>
    obtain ⟨t, hrun, hends⟩ := run_ends ready hreads.acc (hbody.trans (boundTest_inside hin))
    refine ⟨t, hrun, hends, hends.gpr.trans hreads.acc.state.gpr, hends.flags.trans ?_,
      hends.keepsSystem hreads.acc.state.keepsSystem, fun hm => (hreads.frame hm).of_mem_eq hends.mem⟩
    rw [hreads.acc.state.flags]
    rfl

end Sys2Proof.Machine
end

section
/-! How a delivery treats the bookkeeping that tells how an instruction ends: its accesses are the processor's own, so they meet
no data breakpoint (61 R322). -/

namespace Sys2Proof.Machine

open Sys2Proof

-- One theorem after another, so that no more of them wait for each other than the memory limit has threads for.
set_option Elab.async false

/-- What a part of a delivery does with the bookkeeping: the instruction neither waits nor repeats by it, and where the accesses
are the processor's own no data breakpoint is met. -/
structure DeliversW (w v : Work) : Prop where
  waiting : v.waiting = w.waiting
  repeating : v.repeating = w.repeating
  unmet : w.quiet = true → v.quiet = true ∧ v.hitOn = w.hitOn ∧ v.hitOff = w.hitOff

theorem delivers_rel : StepRel DeliversW where
  refl _ := ⟨rfl, rfl, fun hquiet => ⟨hquiet, rfl, rfl⟩⟩
  trans _ _ _ h1 h2 := by
    refine ⟨h2.waiting.trans h1.waiting, h2.repeating.trans h1.repeating, fun hquiet => ?_⟩
    obtain ⟨hquiet1, hon1, hoff1⟩ := h1.unmet hquiet
    obtain ⟨hquiet2, hon2, hoff2⟩ := h2.unmet hquiet1
    exact ⟨hquiet2, hon2.trans hon1, hoff2.trans hoff1⟩

/-- A change of the state alone. -/
theorem DeliversW.of_state (w : Work) (s : State) : DeliversW w { w with s := s } :=
  ⟨rfl, rfl, fun hquiet => ⟨hquiet, rfl, rfl⟩⟩

/-! ### Parts of a meaning -/

section Delivers

variable {α β : Type}

/-- `m` treats the bookkeeping as a part of a delivery does. -/
def Delivers (m : M α) : Prop := Within DeliversW m

theorem Delivers.pure {a : α} : Delivers (pure a : M α) := within_pure delivers_rel a

theorem Delivers.bind {x : M α} {f : α → M β} (hx : Delivers x) (hf : ∀ a, Delivers (f a)) : Delivers (x >>= f) :=
  within_bind delivers_rel hx hf

theorem Delivers.ite {c : Prop} [Decidable c] {x y : M α} (hx : Delivers x) (hy : Delivers y) :
    Delivers (if c then x else y) := within_ite hx hy

theorem Delivers.st : Delivers st := within_st delivers_rel

theorem Delivers.get : Delivers (get : M Work) := within_get delivers_rel

theorem Delivers.upd {f : State → State} : Delivers (upd f) := fun w => .of_state w _

/-- A change of other bookkeeping. -/
theorem Delivers.mark {f : Work → Work}
    (h : ∀ w, DeliversW w (f w) := by exact fun _ => ⟨rfl, rfl, fun hquiet => ⟨hquiet, rfl, rfl⟩⟩) : Delivers (mark f) :=
  within_mark h

theorem Delivers.check {c : Bool} {e : Exc} : Delivers (check c e) := within_check delivers_rel c e

theorem Delivers.need {c : Bool} {r : Refusal} : Delivers (need c r) := within_need delivers_rel c r

theorem Delivers.raise {e : Exc} : Delivers (raise e : M α) := within_raise delivers_rel e

theorem Delivers.refuse {r : Refusal} : Delivers (refuse r : M α) := within_refuse delivers_rel r

theorem Delivers.shutdown : Delivers (shutdown : M α) := fun w => delivers_rel.refl w

theorem Delivers.each {f : α → M Unit} (hf : ∀ a, Delivers (f a)) {l : List α} : Delivers (each f l) :=
  within_each delivers_rel hf l

theorem Delivers.gather {f : α → M β} (hf : ∀ a, Delivers (f a)) {l : List α} : Delivers (gather f l) :=
  within_gather delivers_rel hf l

theorem Delivers.attempt {m : M α} (h : Delivers m) : Delivers (attempt m) := within_attempt h

theorem Delivers.extBit : Delivers extBit := fun w => delivers_rel.refl w

theorem Delivers.selCode {sel : BitVec 16} : Delivers (selCode sel) := .bind .extBit fun _ => .pure

theorem Delivers.checkSel {c : Bool} {k : CodeExc} {sel : BitVec 16} : Delivers (checkSel c k sel) :=
  .bind .selCode fun _ => .check

theorem Delivers.raiseFirst (l : List (Option Exc)) : Delivers (raiseFirst l) := by
  induction l with
  | nil => exact .pure
  | cons o t ih =>
    cases o with
    | none => exact ih
    | some e => exact .raise

theorem Delivers.draw : Delivers draw := by
  intro w
  obtain ⟨v, e, hdraw, -⟩ := draw_ok w
  rw [hdraw]
  exact .of_state w _

theorem Delivers.draw16 : Delivers draw16 := .bind .draw fun _ => .pure

theorem Delivers.drawBit : Delivers drawBit := .bind .draw fun _ => .pure

end Delivers

/-! ### Physical and linear accesses (20 R60, R84-R94) -/

theorem deviceIn_delivers : Delivers deviceIn := by
  refine .bind .st fun s => ?_
  cases s.env.devIn with
  | nil => exact .bind .upd fun _ => .pure
  | cons v t => exact .bind .upd fun _ => .pure

theorem physReadByte_delivers (pa : BitVec 32) : Delivers (physReadByte pa) := by
  refine .bind .st fun s => ?_
  cases s.kindAt pa with
  | ram | rom => exact .pure
  | device => exact .bind deviceIn_delivers fun _ => .bind .upd fun _ => .pure
  | nothing => exact .refuse

theorem physWriteByte_delivers (pa : BitVec 32) (v : Byte) : Delivers (physWriteByte pa v) := by
  refine .bind .st fun s => ?_
  cases s.kindAt pa with
  | ram | device => exact .upd
  | rom => exact .pure
  | nothing => exact .refuse

theorem physReadAt_delivers (pas : List (BitVec 32)) : Delivers (physReadAt pas) :=
  .bind .st fun _ => .ite (.bind deviceIn_delivers fun _ => .bind .upd fun _ => .pure)
    (.bind (.gather physReadByte_delivers) fun _ => .pure)

theorem physWriteAt_delivers (pas : List (BitVec 32)) (v : BitVec 32) : Delivers (physWriteAt pas v) :=
  .bind .st fun _ => .ite .upd (.bind (.each fun _ => physWriteByte_delivers _ _) fun _ => .upd)

theorem setBits_delivers (pa : BitVec 32) (mask : Byte) : Delivers (setBits pa mask) :=
  .bind (physReadByte_delivers pa) fun _ => .bind (physWriteByte_delivers pa _) fun _ => .mark

theorem pageWalk_delivers (la : BitVec 32) (write user : Bool) : Delivers (pageWalk la write user) :=
  .bind .st fun _ => .bind (physReadAt_delivers _) fun _ => .bind .check fun _ => .bind (physReadAt_delivers _) fun _ =>
    .bind .check fun _ => .bind .check fun _ => .pure

theorem lookOrWalk_delivers (la : BitVec 32) (write user : Bool) (l : List TlbEntry) :
    Delivers (lookOrWalk la write user l) := by
  induction l with
  | nil => exact pageWalk_delivers la write user
  | cons e rest ih =>
    exact .bind .st fun _ => .ite ih <| .bind (.ite .pure .drawBit) fun _ => .ite (.bind .check fun _ => .pure) ih

theorem translate_delivers (la : BitVec 32) (write user : Bool) : Delivers (translate la write user) :=
  .bind .st fun _ => .ite (lookOrWalk_delivers _ _ _ _) .pure

theorem enterTlb_delivers (e : TlbEntry) : Delivers (enterTlb e) :=
  .bind .st fun _ => .bind (.ite .drawBit .pure) fun _ => .ite .pure .upd

theorem commitXlat_delivers (x : Xlat) : Delivers (commitXlat x) := by
  unfold commitXlat
  extract_lets fill entry
  have hFill : ∀ u, Delivers (fill u) := by
    intro u
    dsimp only [fill]
    cases x.fill with
    | none => exact .pure
    | some e => exact enterTlb_delivers e
  have hEntry : ∀ u, Delivers (entry u) := fun u => .ite (hFill u) (.bind (setBits_delivers _ _) hFill)
  exact .ite (.bind (setBits_delivers _ _) hEntry) (hEntry ())

theorem translateAll_delivers (la : BitVec 32) (n : Nat) (write user : Bool) : Delivers (translateAll la n write user) :=
  .bind (translate_delivers _ _ _) fun _ => .ite (.bind (translate_delivers _ _ _) fun _ => .pure) .pure

theorem linProbe_delivers (la : BitVec 32) (n : Nat) (write user : Bool) : Delivers (linProbe la n write user) :=
  .bind (translateAll_delivers _ _ _ _) fun _ => .pure

theorem linAccess_delivers (la : BitVec 32) (n : Nat) (write user : Bool) : Delivers (linAccess la n write user) :=
  .bind (translateAll_delivers _ _ _ _) fun _ => .bind (.each commitXlat_delivers) fun _ => .pure

theorem linRead_delivers (la : BitVec 32) (n : Nat) (user : Bool) : Delivers (linRead la n user) :=
  .bind (linAccess_delivers _ _ _ _) fun _ => physReadAt_delivers _

theorem linWrite_delivers (la : BitVec 32) (n : Nat) (v : BitVec 32) (user : Bool) : Delivers (linWrite la n v user) :=
  .bind (linAccess_delivers _ _ _ _) fun _ => physWriteAt_delivers _ _

/-! ### The stack and descriptors (20 R70, R77; 48 R234) -/

/-- The processor's own accesses are not noted (61 R322). -/
theorem noteData_delivers (la : BitVec 32) (k : Nat) (write : Bool) : Delivers (noteData la k write) := by
  intro w
  have hacc := noteData_accesses la k write w
  refine ⟨?_, ?_, fun hquiet => ?_⟩
  · rw [hacc.same]
  · rw [hacc.same]
  · rw [noteData_quiet hquiet]
    exact ⟨hquiet, rfl, rfl⟩

theorem segCheck_delivers (r : SegReg) (off : BitVec 32) (n : Nat) (write : Bool) : Delivers (segCheck r off n write) :=
  .bind .st fun _ => .bind .extBit fun _ => .bind (.bind .extBit fun _ => .pure) fun _ => .bind .check fun _ =>
    .bind .check fun _ => .bind .check fun _ => .pure

theorem memWrite_delivers (r : SegReg) (off : BitVec 32) (n : Nat) (v : BitVec 32) : Delivers (memWrite r off n v) :=
  .bind (segCheck_delivers _ _ _ _) fun _ => .bind .st fun _ => .bind (linAccess_delivers _ _ _ _) fun _ =>
    .bind (noteData_delivers _ _ _) fun _ => physWriteAt_delivers _ _

theorem push_delivers (v : BitVec 32) (n : Nat) : Delivers (push v n) :=
  .bind .st fun _ => .bind .need fun _ => .bind (memWrite_delivers _ _ _ _) fun _ => .upd

theorem pushSel_delivers (sel : BitVec 16) (n : Nat) : Delivers (pushSel sel n) :=
  .bind (.ite .draw16 .pure) fun _ => push_delivers _ _

theorem readDescAt_delivers (la : BitVec 32) : Delivers (readDescAt la) :=
  .bind (linRead_delivers _ _ _) fun _ => .bind (linRead_delivers _ _ _) fun _ => .pure

theorem fetchDesc_delivers (sel : BitVec 16) (k : CodeExc) : Delivers (fetchDesc sel k) := by
  refine .bind (.bind .st fun s => ?read) fun o => ?found
  case read =>
    cases descAddr s sel with
    | none => exact .pure
    | some la => exact .bind (readDescAt_delivers la) fun _ => .pure
  case found =>
    cases o with
    | some d => exact .pure
    | none => exact .bind .selCode fun _ => .raise

theorem setAccessed_delivers (sel : BitVec 16) (d : Desc) : Delivers (setAccessed sel d) :=
  .ite .pure <| .bind .st fun _ => .bind (linAccess_delivers _ _ _ _) fun _ => setBits_delivers _ _

theorem loadCs_delivers (sel : BitVec 16) (pl : BitVec 2) (d : Desc) (eip : BitVec 32) : Delivers (loadCs sel pl d eip) :=
  .bind (setAccessed_delivers sel d) fun _ => .bind .upd fun _ => .mark

theorem loadCsReal_delivers (sel : BitVec 16) (eip : BitVec 32) : Delivers (loadCsReal sel eip) :=
  .bind .upd fun _ => .bind .upd fun _ => .mark

theorem innerStack_delivers (npl : BitVec 2) (count : Nat) : Delivers (innerStack npl count) :=
  .bind (.bind .st fun _ => .bind .need fun _ => .bind .checkSel fun _ => .bind (linRead_delivers _ _ _) fun _ =>
    .bind (linRead_delivers _ _ _) fun _ => .pure) fun ⟨_, _⟩ => .bind .checkSel fun _ =>
      .bind (fetchDesc_delivers _ _) fun _ => .bind .checkSel fun _ => .bind .checkSel fun _ => .bind .checkSel fun _ =>
        .bind .checkSel fun _ => .bind .checkSel fun _ => .pure

theorem enterStack_delivers (npl : BitVec 2) (d : Desc) (nss : BitVec 16) (nesp : BitVec 32) :
    Delivers (enterStack npl d nss nesp) := .bind (setAccessed_delivers nss d) fun _ => .bind .upd fun _ => .upd

/-! ### The task switch (44 R192) -/

theorem TaskItem.load_delivers (kind : SwitchKind) (v : BitVec 32) (i : TaskItem) : Delivers (i.load kind v) := by
  cases i with
  | flags => exact .bind .need fun _ => .upd
  | ldt | eip | gpr r | sel r =>
    rw [TaskItem.load]
    exact .upd

theorem loadItem_delivers (kind : SwitchKind) (i : TaskItem) : Delivers (loadItem kind i) := by
  refine .bind .st fun _ => .bind (.attempt (linRead_delivers _ _ _)) fun r => ?_
  cases r with
  | ok v => exact .bind (i.load_delivers kind v) fun _ => .pure
  | error e => exact .bind .draw fun _ => .bind (i.load_delivers kind _) fun _ => .pure

theorem switchDirectory_delivers : Delivers switchDirectory := by
  refine .bind .st fun _ => .ite (.bind (.attempt (linRead_delivers _ _ _)) fun r => ?_) .pure
  cases r with
  | ok v => exact .bind .upd fun _ => .pure
  | error e => exact .pure

theorem loadTask_delivers (kind : SwitchKind) : Delivers (loadTask kind) :=
  .bind .upd fun _ => .bind switchDirectory_delivers fun _ => .bind (.gather (loadItem_delivers kind)) fun _ => .raiseFirst _

theorem loadTaskLdt_delivers : Delivers loadTaskLdt :=
  .bind .st fun _ => .ite .pure <| .bind .checkSel fun _ => .bind (fetchDesc_delivers _ _) fun _ => .bind .checkSel fun _ =>
    .bind .checkSel fun _ => .upd

theorem loadTaskCs_delivers : Delivers loadTaskCs :=
  .bind .st fun _ => .bind .checkSel fun _ => .bind (fetchDesc_delivers _ _) fun _ => .bind .checkSel fun _ =>
    .bind .checkSel fun _ => .bind .checkSel fun _ => .bind .checkSel fun _ => .bind (setAccessed_delivers _ _) fun _ => .upd

theorem loadTaskSs_delivers : Delivers loadTaskSs :=
  .bind .st fun _ => .bind .checkSel fun _ => .bind (fetchDesc_delivers _ _) fun _ => .bind .checkSel fun _ =>
    .bind .checkSel fun _ => .bind .checkSel fun _ => .bind .checkSel fun _ => .bind (setAccessed_delivers _ _) fun _ => .upd

theorem loadTaskData_delivers (r : SegReg) : Delivers (loadTaskData r) :=
  .bind .st fun _ => .ite .pure <| .bind (fetchDesc_delivers _ _) fun _ => .bind .checkSel fun _ => .bind .checkSel fun _ =>
    .bind .checkSel fun _ => .bind (setAccessed_delivers _ _) fun _ => .upd

theorem enterTask_delivers (kind : SwitchKind) : Delivers (enterTask kind) :=
  .bind (loadTask_delivers kind) fun _ => .bind loadTaskLdt_delivers fun _ => .bind loadTaskCs_delivers fun _ =>
    .bind loadTaskSs_delivers fun _ => .bind (.each loadTaskData_delivers) fun _ => .bind .st fun _ => .bind .extBit fun _ =>
      .bind .check fun _ => .bind (linRead_delivers _ _ _) fun _ => .ite .upd .pure

theorem saveTask_delivers (eipSave : BitVec 32) (fl : Flags) : Delivers (saveTask eipSave fl) :=
  .bind .st fun _ => .bind (linWrite_delivers _ _ _ _) fun _ => .bind (linWrite_delivers _ _ _ _) fun _ =>
    .bind (.each fun _ => linWrite_delivers _ _ _ _) fun _ => .each fun _ => linWrite_delivers _ _ _ _

theorem changeAccess_delivers (sel : BitVec 16) (f : Byte → Byte) : Delivers (changeAccess sel f) :=
  .bind .st fun _ => .bind (linAccess_delivers _ _ _ _) fun _ => .bind (physReadByte_delivers _) fun _ =>
    physWriteByte_delivers _ _

theorem probeSwitch_delivers (kind : SwitchKind) (nsel : BitVec 16) (d : Desc) : Delivers (probeSwitch kind nsel d) := by
  refine .bind .st fun s => .bind (linProbe_delivers _ _ _ _) fun _ => .bind (linProbe_delivers _ _ _ _) fun _ => ?_
  extract_lets old new
  have hOld : ∀ u, Delivers (old u) := fun _ => .ite .pure (linProbe_delivers _ _ _ _)
  have hNew : ∀ u, Delivers (new u) := fun u => .ite (hOld u) (.bind (linProbe_delivers _ _ _ _) hOld)
  exact .ite (.bind (linProbe_delivers _ _ _ _) hNew) (hNew ())

variable (kind : SwitchKind) (nsel : BitVec 16) (d : Desc) (eipSave : BitVec 32) (fl : Flags)

theorem leaveTask_delivers : Delivers (leaveTask kind nsel d eipSave fl) := by
  refine .bind .st fun _ => .bind .need fun _ => .bind .checkSel fun _ => .bind .checkSel fun _ => .bind .checkSel fun _ =>
    .bind (probeSwitch_delivers _ _ _) fun _ => .bind .need fun _ => .bind (saveTask_delivers _ _) fun _ => ?_
  extract_lets ended commit enterNew
  have hEnded : ∀ u, Delivers (ended u) := fun _ => .bind .mark fun _ => .upd
  have hCommit : ∀ u, Delivers (commit u) := fun _ =>
    .bind .upd fun _ => .ite (.bind (linWrite_delivers _ _ _ _) hEnded) (hEnded ())
  have hEnterNew : ∀ u, Delivers (enterNew u) := fun _ =>
    .ite (hCommit ()) (.bind (changeAccess_delivers _ _) hCommit)
  exact .ite (hEnterNew ()) (.bind (changeAccess_delivers _ _) hEnterNew)

theorem switchThroughGate_delivers : Delivers (switchThroughGate kind nsel eipSave fl) :=
  .bind .checkSel fun _ => .bind (fetchDesc_delivers _ _) fun _ => .bind .need fun _ => .bind .checkSel fun _ =>
    .bind .get fun _ => .ite .upd (.bind (leaveTask_delivers _ _ _ _ _) fun _ => enterTask_delivers _)

end Sys2Proof.Machine
end

section
/-! The obligation about INT n, INT 3 and INTO (O52). -/

namespace Sys2Proof.Machine

open Sys2Proof

-- One theorem after another, so that no more of them wait for each other than the memory limit has threads for.
set_option Elab.async false

/-! ### A delivery and its bookkeeping (60 R287) -/

theorem pushErr_delivers (err : ErrCode) : Delivers (pushErr err) := by
  cases err with
  | none => exact .pure
  | word c => exact .bind .draw16 fun _ => push_delivers _ _
  | page c => exact .bind .draw fun _ => push_delivers _ _

section Gates

variable (g t : Desc) (tsel : BitVec 16) (toff : BitVec 32) (image : Flags) (err : ErrCode) (ret : BitVec 32)

theorem enterSame_delivers : Delivers (enterSame tsel t toff image err ret) :=
  .bind .st fun _ => .bind .extBit fun _ => .bind .check fun _ => .bind .check fun _ => .bind (push_delivers _ _) fun _ =>
    .bind (pushSel_delivers _ _) fun _ => .bind (push_delivers _ _) fun _ => .bind (pushErr_delivers _) fun _ =>
      loadCs_delivers _ _ _ _

theorem enterInner_delivers : Delivers (enterInner tsel t toff image err ret) :=
  .bind .st fun _ => .bind .extBit fun _ => .bind (innerStack_delivers _ _) fun ⟨_, _, _⟩ => .bind .check fun _ =>
    .bind (enterStack_delivers _ _ _ _) fun _ => .bind (pushSel_delivers _ _) fun _ => .bind (push_delivers _ _) fun _ =>
      .bind (push_delivers _ _) fun _ => .bind (pushSel_delivers _ _) fun _ => .bind (push_delivers _ _) fun _ =>
        .bind (pushErr_delivers _) fun _ => loadCs_delivers _ _ _ _

theorem enterGate_delivers : Delivers (enterGate g image err ret) := by
  refine .bind .st fun _ => .bind .extBit fun _ => .bind .check fun _ => .bind (fetchDesc_delivers _ _) fun _ =>
    .bind .checkSel fun _ => .bind .checkSel fun _ => .bind .checkSel fun _ => ?_
  extract_lets flags
  have hFlags : ∀ u, Delivers (flags u) := fun _ => .upd
  exact .ite (.bind (enterInner_delivers _ _ _ _ _ _) hFlags) (.bind (enterSame_delivers _ _ _ _ _ _) hFlags)

theorem enterTaskGate_delivers : Delivers (enterTaskGate g image err ret) :=
  .bind (switchThroughGate_delivers _ _ _ _) fun _ => .bind (pushErr_delivers _) fun _ => .bind .st fun _ =>
    .bind .extBit fun _ => .check

end Gates

section Delivery

variable (vec : Byte) (fault : Bool) (err : ErrCode) (soft : Bool) (ret : BitVec 32)

theorem deliverProtected_delivers : Delivers (deliverProtected vec fault err soft ret) :=
  .bind .st fun _ => .bind .extBit fun _ => .bind .check fun _ => .bind .need fun _ => .bind (readDescAt_delivers _) fun _ =>
    .bind .need fun _ => .bind .check fun _ => .bind .check fun _ => .bind .check fun _ =>
      .ite (enterTaskGate_delivers _ _ _ _) (enterGate_delivers _ _ _ _)

theorem deliverReal_delivers : Delivers (deliverReal vec ret) := by
  refine .bind .st fun _ => ?_
  extract_lets lim inside v rest
  have hRest : ∀ u, Delivers (rest u) := fun _ => .ite (.bind .need fun _ => .bind (physReadAt_delivers _) fun _ =>
    .bind (push_delivers _ _) fun _ => .bind (push_delivers _ _) fun _ => .bind (push_delivers _ _) fun _ =>
      .bind .upd fun _ => loadCsReal_delivers _ _) .shutdown
  exact .ite (hRest ()) (.bind .upd hRest)

/-- A delivery in the mode that `pe` gives, but for its end. -/
def deliverIn (pe : Bool) : M Unit := if pe then deliverProtected vec fault err soft ret else deliverReal vec ret

/-- The end of a delivery: nothing is being delivered any more, and EIP is set. -/
def endDelivery : M Unit := upd (fun s => { s with delivering := .none, prefetch := Prefetch.empty }) >>= fun _ =>
  mark fun w => { w with quiet := false, jumped := true }

theorem deliver_eq (w : Work) : deliver vec fault err soft ret w =
    (deliverIn vec fault err soft ret w.s.cr0.pe >>= fun _ => endDelivery) { w with quiet := true } := by
  rw [deliver, bind_of_ok (run_mark _ w), bind_of_ok (run_st _)]
  dsimp only
  cases w.s.cr0.pe <;> rfl

theorem deliverIn_delivers (pe : Bool) : Delivers (deliverIn vec fault err soft ret pe) :=
  .ite (deliverProtected_delivers _ _ _ _ _) (deliverReal_delivers _ _)

end Delivery

/-- The bookkeeping of an instruction that a delivery has ended, with no data breakpoint met. -/
structure Delivered (w : Work) : Prop where
  waiting : w.waiting = false
  jumped : w.jumped = true
  repeating : w.repeating = false
  hitOn : w.hitOn = 0
  hitOff : w.hitOff = 0

theorem deliver_delivered {s : State} {vec : Byte} {fault : Bool} {err : ErrCode} {soft : Bool} {ret : BitVec 32} {w : Work}
    (h : deliver vec fault err soft ret s.work = .ok () w) : Delivered w := by
  rw [deliver_eq] at h
  obtain ⟨_, v, hin, hend⟩ := bind_eq_ok.1 h
  cases hend
  have hdelivers := (deliverIn_delivers _ _ _ _ _ _).ok hin
  obtain ⟨-, hon, hoff⟩ := hdelivers.unmet rfl
  exact ⟨hdelivers.waiting, rfl, hdelivers.repeating, hon, hoff⟩

/-! ### The instructions (46 R215-R218) -/

/-- The end of an instruction that began in `s` and whose delivery has left `w`: RF stays as a task switch loaded it
(61 R327). -/
def State.deliveredTo (s : State) (w : Work) : State :=
  { s.completedAt w.s w.s.eip with flags := { w.s.flags with rf := if w.keepRf then w.s.flags.rf else false } }

theorem finish_delivered {w : Work} (h : Delivered w) (s : State) :
    ∃ v, finish s w = .ok () v ∧ endStep v.s = s.deliveredTo w := by
  cases hkeep : w.keepRf with
  | false =>
    obtain ⟨v, hfinish, -, hend⟩ := finish_jump (s := s) h.waiting h.jumped h.repeating hkeep
    refine ⟨v, hfinish, (hend h.hitOn h.hitOff).trans ?_⟩
    rw [State.deliveredTo, hkeep]
    rfl
  | true =>
    obtain ⟨pd, ld, env, htraps, -, hexact⟩ := collectTraps_ok s.flags.tf (bit s.dr7 8 || bit s.dr7 9) w
    obtain ⟨rfl, rfl, rfl⟩ := hexact h.hitOn h.hitOff
    have hfinish : finish s w = collectTraps s.flags.tf (bit s.dr7 8 || bit s.dr7 9) w := by
      simp [finish, h.waiting, h.jumped, h.repeating, hkeep]
    refine ⟨_, hfinish.trans htraps, ?_⟩
    rw [State.deliveredTo, hkeep]
    rfl

theorem exec_into (s : State) : exec .into s = run (if s.flags.of then softInt 4 else pure ()) s := rfl

/-- The three instructions are software interrupts of their vector. -/
theorem exec_softInt {s : State} {i : Instr} {vec : Byte}
    (hi : i = .intImm8 vec ∨ (i = .int3 ∧ vec = 3) ∨ (i = .into ∧ vec = 4 ∧ s.flags.of = true)) :
    exec i s = run (softInt vec) s := by
  obtain rfl | ⟨rfl, rfl⟩ | ⟨rfl, rfl, hof⟩ := hi
  · rfl
  · rfl
  · rw [exec_into, if_pos hof]

theorem exec_into_goesOn {s : State} (ready : Ready s) (hof : s.flags.of = false) : exec .into s = .next (s.completed s) := by
  rw [exec_into, if_neg (ne_true_of_eq_false hof)]
  exact run_completes ready rfl

/-- A delivery that goes through, the offset that it saves being there. -/
theorem softInt_ok {s : State} {vec : Byte} {w : Work} (ready : Ready s)
    (h : deliver vec false .none true s.nextEip ({ s with delivering := .benign } : State).work = .ok () w) :
    softInt vec s.work = .ok () w := (bind_of_ok h fun _ => needNext s).trans (needNext_ok ready.room w)

/-- Settles O52: the three instructions are `softInt` of their vector (`exec_softInt`), and a delivery meets no data breakpoint
(`deliver_delivered`), so that the end is exact (`finish_delivered`). -/
theorem softwareInterrupts : Obligations.SoftwareInterrupts := by
  refine fun s i vec ready hi => ⟨fun w hdeliver => ?delivers, exec_into_goesOn ready⟩
  obtain ⟨v, hfinish, hend⟩ := finish_delivered (deliver_delivered hdeliver) s
  refine ⟨s.deliveredTo w, ?_, rfl⟩
  rw [exec_softInt hi, ← hend]
  exact runWith_ok ready (softInt_ok ready hdeliver) hfinish

end Sys2Proof.Machine
end

section
/-! IRET (46 R220, R221): its end and the flags that it loads. -/

namespace Sys2Proof.Machine

open Sys2Proof

-- One theorem after another, so that no more of them wait for each other than the memory limit has threads for.
set_option Elab.async false

/-! ### The flags (46 R221) -/

/-- The flags that an IRET at level `cpl` makes of the image `v`. -/
def State.returnedFlags (s : State) (v : BitVec 32) (cpl : BitVec 2) : Flags :=
  { Flags.ofBits v with
    iopl := if cpl = 0 then v.extractLsb' 12 2 else s.flags.iopl
    if_ := if cpl.toNat ≤ s.flags.iopl.toNat then bit v 9 else s.flags.if_
    rf := if s.os = .w32 then bit v 16 else s.flags.rf
    vm := s.flags.vm }

theorem loadFlags_protected (s : State) (v : BitVec 32) :
    loadFlags v s.os true s.cpl s.flags.iopl s.flags = s.returnedFlags v s.cpl := by
  cases hos : s.os <;> simp [loadFlags, State.returnedFlags, Flags.ofBits, BitVec.ule, hos]

theorem loadFlags_real (s : State) (v : BitVec 32) :
    loadFlags v s.os false 0 s.flags.iopl s.flags = s.returnedFlags v 0 := by
  cases hos : s.os <;> simp [loadFlags, State.returnedFlags, Flags.ofBits, hos]

/-! ### The end (46 R220; 60 R279) -/

/-- The end of an IRET: the service of an NMI has ended, and RF stays as loaded (61 R327). -/
def endService : M Unit := upd (fun s => { s with nmiInService := false }) >>= fun _ => mark fun w => { w with keepRf := true }

/-- The end of an IRET that takes its flags from the stack. -/
def endReturn (load : Flags → Flags) : M Unit := upd (fun s => { s with flags := load s.flags }) >>= fun _ => endService

/-- How an IRET goes on (46 R220). -/
theorem runsTo_iret (s : State) : RunsTo .iret s ((if !s.cr0.pe then iretReal >>= fun _ => endService
    else if s.flags.nt then switchBack s.nextEip s.flags >>= fun _ => endService
    else iretStack >>= fun _ => endService) s.work) := ⟨iretBody, rfl, rfl⟩

section Modes

variable {s : State}

theorem runsTo_iretReal (hpe : s.cr0.pe = false) : RunsTo .iret s ((iretReal >>= fun _ => endService) s.work) := by
  have hruns := runsTo_iret s
  rw [hpe] at hruns
  exact hruns

theorem runsTo_iretStack (hpe : s.cr0.pe = true) (hnt : s.flags.nt = false) :
    RunsTo .iret s ((iretStack >>= fun _ => endService) s.work) := by
  have hruns := runsTo_iret s
  rw [hpe, hnt] at hruns
  exact hruns

theorem runsTo_switchBack (hpe : s.cr0.pe = true) (hnt : s.flags.nt = true) :
    RunsTo .iret s ((switchBack s.nextEip s.flags >>= fun _ => endService) s.work) := by
  have hruns := runsTo_iret s
  rw [hpe, hnt] at hruns
  exact hruns

end Modes

theorem endService_ok (w : Work) :
    endService w = .ok () { w with s := { w.s with nmiInService := false }, keepRf := true } := rfl

/-- As `State.systemIn`, with the service of an NMI taken from `s` too. -/
def State.unserved (x s t : State) : State := { x.systemIn s t with nmiInService := s.nmiInService }

/-- What an IRET that returns has left at its end. -/
structure Returned (s : State) (w : Work) (f : Flags) (t : State) : Prop where
  eip : t.eip = w.s.eip
  segs : t.segs = w.s.segs
  gpr : t.gpr = w.s.gpr
  cpl : t.cpl = w.s.cpl
  mem : t.mem = w.s.mem
  flags : t.flags = f
  service : t.nmiInService = false
  tables : TablesOnly s t
  system : KeepsSystem s { t with segs := s.segs, cpl := s.cpl, nmiInService := s.nmiInService }

/-- The end of an IRET that takes its flags from the stack. -/
theorem RunsTo.returns {s : State} {w : Work} {load : Flags → Flags} (h : RunsTo .iret s (endReturn load w)) (ready : Ready s)
    (hw : MovesW s.work w) (hjumped : w.jumped = true) :
    ∃ t, exec .iret s = .next t ∧ Returned s w (load s.flags) t := by
  obtain ⟨hwaiting, -, hrepeating, -⟩ := hw.transfers.jumped hjumped
  obtain ⟨t, hexec, hends, hflags⟩ := RunsTo.switches h ready ⟨hwaiting, hjumped, hrepeating, rfl⟩
  have hmoved := congrArg (State.unserved · s t) hw.transfers.state.same
  have hsystem : KeepsSystem s { t with segs := s.segs, cpl := s.cpl, nmiInService := s.nmiInService } :=
    (congrArg (State.unserved · s t) hends.1).trans hmoved
  refine ⟨t, hexec, hends.eip, hends.segs, hends.gpr, hends.cpl, hends.mem, hflags.trans (congrArg load hw.transfers.flags),
    congrArg State.nmiInService hends.1, fun hm a => ?_, hsystem⟩
  exact (congrArg (· ||| _) (hends.byteAt a)).trans (hw.tables hm a)

end Sys2Proof.Machine
end

section
/-! IRET in protected mode with NT = 0: the return to the same level and to an outer one (46 R220; 43 R181-R183). -/

namespace Sys2Proof.Machine

open Sys2Proof

-- One theorem after another, so that no more of them wait for each other than the memory limit has threads for.
set_option Elab.async false

/-! ### The stages (46 R220) -/

/-- The load of the flags of a return from `s`. -/
def iretFlags (s : State) (fl : BitVec 32) : M Unit :=
  upd fun t => { t with flags := loadFlags fl s.os true s.cpl s.flags.iopl t.flags }

/-- A return to the same level. -/
def iretSame (s : State) (roff fl : BitVec 32) (rcs : BitVec 16) (c : Desc) : M Unit :=
  check (roff.ule c.effLimit) (.gp 0) >>= fun _ => loadCs rcs (selRpl rcs) c roff >>= fun _ =>
    stackDrop (BitVec.ofNat 32 (3 * s.os.bytes)) >>= fun _ => iretFlags s fl

/-- A return to an outer level. -/
def iretOuter (s : State) (roff fl : BitVec 32) (rcs : BitVec 16) (c : Desc) : M Unit :=
  roomAbove (5 * s.os.bytes) >>= fun _ => stackRead (3 * s.os.bytes) s.os.bytes >>= fun resp =>
    stackRead (4 * s.os.bytes) s.os.bytes >>= fun ss => returnSs (lo16 ss) (selRpl rcs) >>= fun d =>
      check (roff.ule c.effLimit) (.gp 0) >>= fun _ => returnOuter rcs (lo16 ss) c d roff resp 0 >>= fun _ => iretFlags s fl

/-- IRET would go to virtual 8086 mode (93 U25). -/
def State.returnsToV86 (s : State) (fl : BitVec 32) : Bool := s.os == .w32 && bit fl 17 && s.cpl == 0

theorem iretStack_eq (s : State) : iretStack s.work =
    (roomAbove (3 * s.os.bytes) >>= fun _ => stackRead 0 s.os.bytes >>= fun roff =>
      stackRead s.os.bytes s.os.bytes >>= fun cs => stackRead (2 * s.os.bytes) s.os.bytes >>= fun fl =>
        need (!s.returnsToV86 fl) .virtual8086 >>= fun _ => returnCs (lo16 cs) >>= fun c =>
          if selRpl (lo16 cs) = s.cpl then iretSame s roff fl (lo16 cs) c else iretOuter s roff fl (lo16 cs) c) s.work := rfl

/-- What is done after two meanings that come to the same. -/
theorem bind_congr_run {α β : Type} {x y : M α} {w : Work} (h : x w = y w) (f : α → M β) : (x >>= f) w = (y >>= f) w := by
  rw [M.run_bind, h, M.run_bind]

/-! ### The return to the same level (43 R181) -/

theorem State.setSp_trunc (s : State) (v : BitVec 32) : s.setSp (s.stackSize.trunc v) = s.setSp v := by
  rw [State.setSp, State.setRegv, Size.merge_of_trunc]
  rfl

theorem os_bytes_le (s : State) : 1 ≤ s.os.bytes ∧ s.os.bytes ≤ 4 := by
  have hbytes := os_bytes s
  omega

section Stages

variable {s : State} {w v : Work} {rcs : BitVec 16} {roff fl : BitVec 32} {c : Desc}

/-- What the load of CS and the release of `k` bytes of the stack leave. -/
structure ReturnedSame (s : State) (cs : Seg) (roff k : BitVec 32) (u : Work) : Prop where
  moves : MovesW s.work u
  eip : u.s.eip = roff
  jumped : u.jumped = true
  cpl : u.s.cpl = s.cpl
  segs : u.s.segs = { s.segs with cs := cs }
  gpr : u.s.gpr = (s.setSp (s.sp + k)).gpr

theorem loadCs_drops (hw : ReadsW s.work w) (hv : setAccessed rcs c w = .ok () v) (k : BitVec 32) :
    ∃ u x, loadCs rcs (selRpl rcs) c roff w = .ok () x ∧ stackDrop k x = .ok () u ∧
      ReturnedSame s (c.toSeg rcs) roff k u := by
  have hload := loadCs_ok hv (selRpl rcs) roff
  rw [withRpl_selRpl] at hload
  have hacc : Accesses s v.s := (hw.tests.acc.state).trans ((setAccessed_accesses rcs c).ok hv).state
  have hmoves := moves_rel.trans _ _ _ hw.tests.moves ((loadCs_moves _ _ _ _).ok hload)
  have hss : v.s.segs.ss = s.segs.ss := congrArg SegRegs.ss hacc.segs
  refine ⟨_, _, hload, rfl, moves_rel.trans _ _ _ hmoves (stackDrop_moves k _), rfl, rfl, hacc.cpl, ?_, ?_⟩
  · rw [← hacc.segs]
    rfl
  · refine (State.setSp_congr (s := s) (t := (v.atCode (c.toSeg rcs) roff).s) hacc.gpr hss _).trans ?_
    have hsize : (v.atCode (c.toSeg rcs) roff).s.stackSize = s.stackSize := State.stackSize_congr hss
    have hsp : (v.atCode (c.toSeg rcs) roff).s.sp = s.sp := State.sp_congr hacc.gpr hss
    rw [hsize, hsp, Size.add, State.setSp_trunc]

/-- A return to the same level: the offset is tested, then CS and the stack pointer are loaded. -/
theorem RunsTo.iretSame (h : RunsTo .iret s ((iretSame s roff fl rcs c >>= fun _ => endService) w)) (ready : Ready s)
    (hw : ReadsW s.work w) :
    (c.effLimit.toNat < roff.toNat → exec .iret s = raiseExc 6 (rollback s w) (.gp 0)) ∧
    (roff.toNat ≤ c.effLimit.toNat → ∀ v, setAccessed rcs c w = .ok () v →
      ∃ t, exec .iret s = .next t ∧ t.eip = roff ∧ t.segs = { s.segs with cs := c.toSeg rcs } ∧
        t.gpr = (s.setSp (s.sp + BitVec.ofNat 32 (3 * s.os.bytes))).gpr ∧ t.nmiInService = false ∧
        KeepsSystem s { t with segs := s.segs, nmiInService := s.nmiInService } ∧ TablesOnly s t ∧
        t.flags = s.returnedFlags fl s.cpl) := by
  simp only [Machine.iretSame, bind_assoc] at h
  have hwithin := RunsTo.checked h ready ule_iff
  refine ⟨fun hlimit => hwithin.1 (Nat.not_le.2 hlimit), fun hlimit v hv => ?_⟩
  have hrest := hwithin.2 hlimit
  obtain ⟨u, x, hload, hdrop, hsame⟩ := loadCs_drops hw hv (BitVec.ofNat 32 (3 * s.os.bytes))
  rw [bind_of_ok hload, bind_of_ok hdrop] at hrest
  obtain ⟨t, hexec, hreturned⟩ := RunsTo.returns hrest ready hsame.moves hsame.jumped
  have hcpl : t.cpl = s.cpl := hreturned.cpl.trans hsame.cpl
  exact ⟨t, hexec, hreturned.eip.trans hsame.eip, hreturned.segs.trans hsame.segs, hreturned.gpr.trans hsame.gpr,
    hreturned.service, hcpl ▸ hreturned.system, hreturned.tables, hreturned.flags.trans (loadFlags_protected s fl)⟩

/-! ### The return to an outer level (43 R183) -/

/-- An item of a frame in plain memory, read after accesses that have left memory as it was. -/
theorem stackRead_item {n m j k : Nat} (hw : ReadsW s.work w) (hkept : MemKeptW s.work w)
    (hflat : FlatAccess s .ss s.sp m false) (hn : 1 ≤ n) (hn4 : n ≤ 4) (hj : j = n * k) (hm : j + n ≤ m) :
    stackRead j n w = .ok (s.stackItem n k) w := by
  have hsame : Unstored s w.s := ⟨hw.acc.state, fun a => by rw [State.byteAt, (hkept hflat.paging).2]; rfl⟩
  rw [(hflat.stack_of_accesses hw.acc.state).stackRead hn hn4 hm, ← hsame.stackItem, hj]
  rfl

/-- A return to an outer level, its frame in plain memory: SS is tested, then the offset, then both segments are loaded. -/
theorem RunsTo.iretOuter (h : RunsTo .iret s ((iretOuter s roff fl rcs c >>= fun _ => endService) w)) (ready : Ready s)
    (hw : ReadsW s.work w) (hkept : MemKeptW s.work w) :
    let n := s.os.bytes
    let rss := lo16 (s.stackItem n 4)
    (limitOk s.segs.ss s.sp (5 * n) = false → exec .iret s = raiseExc 6 (rollback s w) (.ss 0)) ∧
    (FlatAccess s .ss s.sp (5 * n) false →
      (∀ e x, returnSs rss (selRpl rcs) w = .error (.exc e) x → exec .iret s = raiseExc 6 (rollback s x) e) ∧
      ∀ d x, returnSs rss (selRpl rcs) w = .ok d x →
        (c.effLimit.toNat < roff.toNat → exec .iret s = raiseExc 6 (rollback s x) (.gp 0)) ∧
        (roff.toNat ≤ c.effLimit.toNat → ∀ v, returnOuter rcs rss c d roff (s.stackItem n 3) 0 x = .ok () v →
          ∃ t, exec .iret s = .next t ∧ Outward s t (selRpl rcs) (c.toSeg rcs) (d.toSeg rss) (s.stackItem n 3) ∧
            t.eip = roff ∧ t.nmiInService = false ∧ t.flags = s.returnedFlags fl s.cpl ∧ TablesOnly s t ∧
            KeepsSystem s { t with segs := s.segs, cpl := s.cpl, nmiInService := s.nmiInService })) := by
  intro n rss
  have hn : 1 ≤ n ∧ n ≤ 4 := os_bytes_le s
  simp only [Machine.iretOuter, bind_assoc] at h
  have hroom := RunsTo.roomed h ready hw.acc
  refine ⟨hroom.1, fun hflat => ?_⟩
  have hitem (j k : Nat) (hj : j = n * k) (hm : j + n ≤ 5 * n) : stackRead j n w = .ok (s.stackItem n k) w :=
    stackRead_item hw hkept hflat hn.1 hn.2 hj hm
  have hrest := hroom.2 hflat.segment.2.2
  rw [bind_of_ok (hitem (3 * n) 3 (by omega) (by omega)), bind_of_ok (hitem (4 * n) 4 (by omega) (by omega))] at hrest
  have hss := hrest.stage ready
  refine ⟨hss.1, fun d x hx => ?_⟩
  have hwithin := (hss.2 d x hx).checked ready ule_iff
  refine ⟨fun hlimit => hwithin.1 (Nat.not_le.2 hlimit), fun hlimit v hv => ?_⟩
  have hx' : ReadsW s.work x := reads_rel.trans _ _ _ hw ((returnSs_descReads _ _).ok hx).reads
  have hend := hwithin.2 hlimit
  rw [bind_of_ok hv] at hend
  obtain ⟨v1, v2, houter⟩ := returnOuter_eq_ok hv
  obtain ⟨t, hexec, hreturned⟩ := RunsTo.returns hend ready
    (moves_rel.trans _ _ _ hx'.tests.moves ((returnOuter_moves _ _ _ _ _ _ _).ok hv)) houter.jumped
  refine ⟨t, hexec, ⟨hreturned.cpl.trans houter.cpl, ?_, ?_⟩, hreturned.eip.trans houter.eip, hreturned.service,
    hreturned.flags.trans (loadFlags_protected s fl), hreturned.tables, hreturned.system⟩
  · rw [hreturned.segs, houter.segs, hx'.acc.state.segs]
    rfl
  · rw [hreturned.gpr, houter.gpr, State.stackSize_congr (congrArg SegRegs.ss hreturned.segs)]
    simp only [State.setRegv, State.setReg, State.reg, hx'.acc.state.gpr]
    rw [show s.stackItem n 3 + 0 = s.stackItem n 3 from BitVec.add_zero _]
    rfl

end Stages

/-! ### The checks of CS and SS (43 R181, R183) -/

/-- Two tests of a selector with one exception are one test, whatever follows. -/
theorem checkSel_both {α : Type} (a b : Bool) (k : CodeExc) (sel : BitVec 16) (f : Unit → M α) :
    (checkSel a k sel >>= fun _ => checkSel b k sel >>= f) = checkSel (a && b) k sel >>= f := by
  have hunit := congrArg (· >>= f) (checkSel_and a b k sel pure)
  simpa only [bind_assoc, pure_bind] using hunit

theorem returnCs_checks (w : Work) (rcs : BitVec 16) :
    ChecksDescriptor (returnCs rcs w) w rcs .gp
      [(w.s.cpl.toNat ≤ (selRpl rcs).toNat, .gp (w.code rcs)), (isNull rcs = false, .gp (w.code rcs))]
      (fun c => [(c.isCode = true, .gp (w.code rcs)), (c.p = true, .np (w.code rcs)),
        (if c.ec then c.dpl.toNat ≤ (selRpl rcs).toNat else c.dpl = selRpl rcs, .gp (w.code rcs))])
      fun c v => returnCs rcs w = .ok c v := by
  refine firstFailure_checkSel rfl (accesses_rel.refl w) rfl decide_eq_true_iff.symm fun _ ho => ?_
  refine firstFailure_checkSel ho (accesses_rel.refl w) rfl (by simp) fun _ ho => ?_
  refine firstFailure_fetchDesc ho fun d u _ hacc ho => ?_
  refine firstFailure_checkSel ho hacc rfl Iff.rfl fun _ ho => ?_
  refine firstFailure_checkSel ho hacc rfl Iff.rfl fun _ ho => ?_
  rw [checkSel_both] at ho
  exact firstFailure_checkSel ho hacc rfl codeLevel_iff.symm fun _ ho => ho

theorem returnSs_checks (w : Work) (rss : BitVec 16) (pl : BitVec 2) :
    ChecksDescriptor (returnSs rss pl w) w rss .gp [(isNull rss = false, .gp (w.code rss))]
      (fun d => [(d.isWritableData = true, .gp (w.code rss)), (d.p = true, .ss (w.code rss)),
        (d.dpl = pl, .gp (w.code rss)), (selRpl rss = d.dpl, .gp (w.code rss))])
      fun d v => returnSs rss pl w = .ok d v := by
  refine firstFailure_checkSel rfl (accesses_rel.refl w) rfl (by simp) fun _ ho => ?_
  refine firstFailure_fetchDesc ho fun d u _ hacc ho => ?_
  refine firstFailure_checkSel ho hacc rfl Iff.rfl fun _ ho => ?_
  refine firstFailure_checkSel ho hacc rfl Iff.rfl fun _ ho => ?_
  refine firstFailure_checkSel ho hacc rfl beq_iff_eq.symm fun _ ho => ?_
  exact firstFailure_checkSel ho hacc rfl beq_iff_eq.symm fun _ ho => ho

end Sys2Proof.Machine
end

section
/-! The obligation about IRET (O57): its frame in protected mode and in real-address mode, and the return to a nested task. -/

namespace Sys2Proof.Machine

open Sys2Proof

-- One theorem after another, so that no more of them wait for each other than the memory limit has threads for.
set_option Elab.async false

variable {s : State}

/-! ### The frame in protected mode (46 R220) -/

theorem iret_protected (ready : Ready s) (hpe : s.cr0.pe = true) (hnt : s.flags.nt = false) :
    let n := s.os.bytes
    let rcs := lo16 (s.stackItem n 1)
    let roff := s.stackItem n 0
    let fl := s.stackItem n 2
    (limitOk s.segs.ss s.sp (3 * n) = false → exec .iret s = raiseExc 6 (rollback s s.work) (.ss 0)) ∧
    (FlatAccess s .ss s.sp (3 * n) false → s.returnsToV86 fl = false →
      (∀ e w, returnCs rcs s.work = .error (.exc e) w → exec .iret s = raiseExc 6 (rollback s w) e) ∧
      ∀ c w, returnCs rcs s.work = .ok c w →
        (selRpl rcs = s.cpl → RunsTo .iret s ((iretSame s roff fl rcs c >>= fun _ => endService) w)) ∧
        (selRpl rcs ≠ s.cpl → RunsTo .iret s ((iretOuter s roff fl rcs c >>= fun _ => endService) w))) := by
  intro n rcs roff fl
  have hn : 1 ≤ n ∧ n ≤ 4 := os_bytes_le s
  have hruns := runsTo_iretStack hpe hnt
  rw [bind_congr_run (iretStack_eq s)] at hruns
  simp only [bind_assoc] at hruns
  have hroom := RunsTo.roomed hruns ready (accesses_rel.refl s.work)
  refine ⟨hroom.1, fun hflat hv86 => ?_⟩
  have hrest := hroom.2 hflat.segment.2.2
  have hitem (j k : Nat) (hj : j = n * k) (hm : j + n ≤ 3 * n) : stackRead j n s.work = .ok (s.stackItem n k) s.work :=
    stackRead_item (reads_rel.refl _) (memKept_rel.refl _) hflat hn.1 hn.2 hj hm
  rw [bind_of_ok (hitem 0 0 (by omega) (by omega)), bind_of_ok (hitem n 1 (by omega) (by omega)),
    bind_of_ok (hitem (2 * n) 2 (by omega) (by omega)), hv86, Bool.not_false, bind_of_ok (run_need_true _ _)] at hrest
  have hchecked := hrest.stage ready
  refine ⟨hchecked.1, fun c w hc => ⟨fun hsame => ?_, fun houter => ?_⟩⟩
  · have hend := hchecked.2 c w hc
    rwa [if_pos hsame] at hend
  · have hend := hchecked.2 c w hc
    rwa [if_neg houter] at hend

theorem returnsToV86_eq_false {fl : BitVec 32} (h : ¬ (s.os = .w32 ∧ bit fl 17 = true ∧ s.cpl = 0)) :
    s.returnsToV86 fl = false := by
  rw [Bool.eq_false_iff]
  simpa [State.returnsToV86, and_assoc] using h

/-! ### The frame in real-address mode (46 R220) -/

/-- The stack with `k` bytes released. -/
def State.released (s : State) (k : Nat) : State := s.setSp (s.sp + BitVec.ofNat 32 k)

theorem Size.merge_self (z : Size) (v : BitVec 32) : z.merge v v = v := by
  cases z with
  | w16 =>
    rw [Size.merge, BitVec.extractLsb'_append_extractLsb'_eq_extractLsb' (by omega)]
    exact BitVec.extractLsb'_eq_self
  | w32 => rfl

theorem State.released_zero (s : State) : s.released 0 = s := by
  have hsp : s.sp + BitVec.ofNat 32 0 = s.stackSize.trunc (s.reg .esp) := BitVec.add_zero _
  rw [State.released, hsp, State.setSp_trunc, State.setSp, State.setRegv, Size.merge_self]
  rfl

theorem State.released_sp {k : Nat} (h : s.sp.toNat + k < 2 ^ s.stackSize.bits) :
    (s.released k).sp = s.sp + BitVec.ofNat 32 k := by
  have hbits : 2 ^ s.stackSize.bits ≤ 2 ^ 32 := by cases s.stackSize <;> decide
  apply BitVec.eq_of_toNat_eq
  rw [State.released, State.sp_setSp, Size.toNat_trunc, BitVec.toNat_add, BitVec.toNat_ofNat]
  rw [Nat.mod_eq_of_lt (by omega), Nat.mod_eq_of_lt (by omega)]

section Frame

variable {n m k : Nat} (hflat : FlatAccess s .ss s.sp m false) (hn : 1 ≤ n) (hn4 : n ≤ 4) (hk : n * k + n ≤ m)
  (hroom : s.sp.toNat + n * k < 2 ^ s.stackSize.bits)
include hflat hn hn4 hk hroom

/-- An item of a frame in plain memory is on top when the items before it are released. -/
theorem stackRead_released : stackRead 0 n (s.released (n * k)).work = .ok (s.stackItem n k) (s.released (n * k)).work := by
  have hsp := State.released_sp hroom
  have hpart := hflat.part hn hk
  rw [← hsp] at hpart
  have hitem : FlatAccess (s.released (n * k)) .ss (s.released (n * k)).sp n false :=
    ⟨hpart.paging, hpart.breakpoints, hpart.segment, hpart.plain⟩
  have haddr : s.segs.ss.base + (s.released (n * k)).sp + BitVec.ofNat 32 0 =
      s.segs.ss.base + s.sp + BitVec.ofNat 32 (n * k) := by
    rw [hsp, BitVec.add_assoc s.segs.ss.base s.sp]
    exact BitVec.add_zero _
  exact (hitem.stackRead (w := (s.released (n * k)).work) hn hn4 (by omega)).trans
    (congrArg (fun a => EStateM.Result.ok (s.valueAt a n) (s.released (n * k)).work) haddr)

theorem pop_released :
    pop n (s.released (n * k)).work = .ok (s.stackItem n k) (s.released (n * (k + 1))).work := by
  have hdrop : (s.released (n * k)).setSp ((s.released (n * k)).stackSize.add (s.released (n * k)).sp (BitVec.ofNat 32 n)) =
      s.released (n * (k + 1)) := by
    rw [Size.add, State.setSp_trunc, State.released_sp hroom, BitVec.add_assoc, ← BitVec.ofNat_add]
    exact s.setSp_setSp _ _
  rw [← hdrop]
  exact bind_of_ok (stackRead_released hflat hn hn4 hk hroom) _

end Frame

/-- The work after an IRET in real-address mode, but for its end. -/
def State.returnedReal (s : State) (n : Nat) : Work :=
  Work.atCode (s.released (n * 3)).work (s.segs.cs.realLoaded (lo16 (s.stackItem n 1))) (s.stackItem n 0)

theorem iretReal_ok (hflat : FlatAccess s .ss s.sp (3 * s.os.bytes) false)
    (hroom : s.sp.toNat + 3 * s.os.bytes ≤ 2 ^ s.stackSize.bits)
    (hoff : (s.stackItem s.os.bytes 0).toNat ≤ s.segs.cs.limit.toNat) :
    (iretReal >>= fun _ => endService) s.work =
      endReturn (loadFlags (s.stackItem s.os.bytes 2) s.os false 0 s.flags.iopl) (s.returnedReal s.os.bytes) := by
  have hn := os_bytes_le s
  have hip := pop_released (k := 0) hflat hn.1 hn.2 (by omega) (by omega)
  have hcs := pop_released (k := 1) hflat hn.1 hn.2 (by omega) (by omega)
  have hfl := pop_released (k := 2) hflat hn.1 hn.2 (by omega) (by omega)
  rw [Nat.mul_zero, State.released_zero] at hip
  have hule : (s.stackItem s.os.bytes 0).ule s.segs.cs.limit = true := ule_iff.2 hoff
  have hcheck : check ((s.stackItem s.os.bytes 0).ule s.segs.cs.limit) (.gp 0) (s.released (s.os.bytes * 3)).work =
      .ok () (s.released (s.os.bytes * 3)).work := check_eq_ok.2 ⟨hule, rfl⟩
  simp only [iretReal, bind_assoc]
  exact (bind_of_ok (run_st s.work) _).trans <| (bind_of_ok hip _).trans <| (bind_of_ok hcs _).trans <|
    (bind_of_ok hfl _).trans <| (bind_of_ok (run_extBit _) _).trans <| (bind_of_ok hcheck _).trans <|
      bind_of_ok (loadCsReal_ok _ _ _) _

theorem State.returnedReal_moves (s : State) (n : Nat) : MovesW s.work (s.returnedReal n) :=
  ⟨accesses_rel.refl s.work, fun _ _ => rfl⟩

/-- IRET in real-address mode. -/
theorem iret_real (ready : Ready s) (hpe : s.cr0.pe = false) (hflat : FlatAccess s .ss s.sp (3 * s.os.bytes) false)
    (hroom : s.sp.toNat + 3 * s.os.bytes ≤ 2 ^ s.stackSize.bits)
    (hoff : (s.stackItem s.os.bytes 0).toNat ≤ s.segs.cs.limit.toNat) :
    ∃ t, exec .iret s = .next t ∧ t.eip = s.stackItem s.os.bytes 0 ∧
      t.segs = { s.segs with cs := s.segs.cs.realLoaded (lo16 (s.stackItem s.os.bytes 1)) } ∧
      t.gpr = (s.setSp (s.sp + BitVec.ofNat 32 (3 * s.os.bytes))).gpr ∧ t.mem = s.mem ∧ t.nmiInService = false ∧
      KeepsSystem s { t with segs := s.segs, nmiInService := s.nmiInService } ∧
      t.flags = s.returnedFlags (s.stackItem s.os.bytes 2) 0 := by
  have hruns := runsTo_iretReal hpe
  rw [iretReal_ok hflat hroom hoff] at hruns
  obtain ⟨t, hexec, hreturned⟩ := RunsTo.returns hruns ready (s.returnedReal_moves _) rfl
  have hcpl : t.cpl = s.cpl := hreturned.cpl
  refine ⟨t, hexec, hreturned.eip, hreturned.segs, ?_, hreturned.mem, hreturned.service, hcpl ▸ hreturned.system,
    hreturned.flags.trans (loadFlags_real s _)⟩
  rw [Nat.mul_comm]
  exact hreturned.gpr

/-! ### The return to a nested task (44 R191) -/

/-- What IRET makes of the descriptor that the back link names. -/
def resumeTask (bsel : BitVec 16) (eipSave : BitVec 32) (fl : Flags) (d : Desc) : M Unit :=
  need (!(!d.s && (d.typ == 1 || d.typ == 3))) .format286 >>= fun _ => checkSel (!d.s && d.typ == 0xB) .ts bsel >>= fun _ =>
    taskSwitch .iret bsel d eipSave fl

theorem switchBack_eq (eipSave : BitVec 32) (fl : Flags) : switchBack eipSave fl =
    (st >>= fun s => need s.tr.valid .taskRegister >>= fun _ => linRead s.tr.base 2 false >>= fun b =>
      checkSel (!isNull (lo16 b) && !selTi (lo16 b)) .ts (lo16 b) >>= fun _ =>
        fetchDesc (lo16 b) .ts >>= resumeTask (lo16 b) eipSave fl) := rfl

section Nested

variable {bsel : BitVec 16} {eipSave : BitVec 32} {fl : Flags} {d : Desc} {u : Work}

theorem resumeTask_286 (hs : d.s = false) (htyp : d.typ = 1 ∨ d.typ = 3) :
    resumeTask bsel eipSave fl d u = .error (.refuse .format286) u := by
  obtain h | h := htyp <;> simp [resumeTask, run_need, hs, h]

theorem resumeTask_busy (hs : d.s = false) (htyp : d.typ = 0xB) :
    resumeTask bsel eipSave fl d u = taskSwitch .iret bsel d eipSave fl u := by
  simp [resumeTask, run_need, run_checkSel, hs, htyp]

theorem resumeTask_other (h : ¬ (d.s = false ∧ (d.typ = 1 ∨ d.typ = 3 ∨ d.typ = 0xB))) :
    resumeTask bsel eipSave fl d u = .error (.exc (.ts (u.code bsel))) u := by
  have h286 : (!(!d.s && (d.typ == 1 || d.typ == 3))) = true := by
    cases hs : d.s with
    | true => rfl
    | false => simp_all
  have hbusy : (!d.s && d.typ == 0xB) = false := by
    cases hs : d.s with
    | true => rfl
    | false => simp_all
  rw [resumeTask, h286, hbusy, bind_of_ok (run_need_true _ u), M.run_bind, run_checkSel]
  rfl

/-- IRET with NT = 1. -/
theorem iret_nested (ready : Ready s) (hpe : s.cr0.pe = true) (hnt : s.flags.nt = true) (htr : s.tr.valid = true)
    {link : BitVec 32} {w : Work} (hlink : linRead s.tr.base 2 false s.work = .ok link w) :
    let sel := lo16 link
    let raises (w : Work) : Prop := exec .iret s = raiseExc 6 (rollback s w) (.ts (sel &&& 0xFFFC#16))
    (isNull sel = true ∨ selTi sel = true → raises w) ∧
    ∀ d u, isNull sel = false → selTi sel = false → fetchDesc sel .ts w = .ok d u →
      (d.s = false → d.typ = 1 ∨ d.typ = 3 → exec .iret s = .refused .format286) ∧
      (¬ (d.s = false ∧ (d.typ = 1 ∨ d.typ = 3 ∨ d.typ = 0xB)) → raises u) ∧
      (d.s = false → d.typ = 0xB → ∀ v, taskSwitch .iret sel d s.nextEip s.flags u = .ok () v →
        ∃ t, exec .iret s = .next t ∧ Switched s { v.s with nmiInService := false } t) := by
  intro sel raises
  have hw : AccessesW s.work w := (linRead_accesses _ _ _).ok hlink
  have hruns := runsTo_switchBack hpe hnt
  simp only [switchBack_eq, bind_assoc] at hruns
  have hvalid : need s.work.s.tr.valid .taskRegister s.work = .ok () s.work := need_eq_ok.2 ⟨htr, rfl⟩
  rw [bind_of_ok (run_st _), bind_of_ok hvalid] at hruns
  have hlinked := (hruns.stage ready).2 link w hlink
  have hglobal := hlinked.tested (p := isNull sel = false ∧ selTi sel = false) ready hw (by simp [sel])
  refine ⟨fun hfails => hglobal.1 ?_, fun d u hnull hti hd => ?_⟩
  · rintro ⟨hnull, hti⟩
    simp [hnull, hti] at hfails
  have hu : AccessesW s.work u := accesses_rel.trans _ _ _ hw ((fetchDesc_accesses _ _).ok hd)
  have hnamed := ((hglobal.2 ⟨hnull, hti⟩).stage ready).2 d u hd
  refine ⟨fun hs htyp => ?format286, fun hother => ?other, fun hs htyp v hv => ?busy⟩
  case format286 =>
    rw [bind_of_error (resumeTask_286 hs htyp)] at hnamed
    exact hnamed.refused ready
  case other =>
    rw [bind_of_error (resumeTask_other hother), hu.code_work] at hnamed
    exact hnamed.raises ready
  case busy =>
    rw [bind_of_ok ((resumeTask_busy hs htyp).trans hv), endService_ok] at hnamed
    obtain ⟨hwaiting, hjumped, hrepeating, -⟩ :=
      taskSwitch_switched _ _ _ _ _ hv (by rw [hu.same]; rfl) (by rw [hu.same]; rfl)
    exact hnamed.switches ready ⟨hwaiting, hjumped, hrepeating, rfl⟩

end Nested

/-- Settles O57: the frame is popped in real-address mode (`iret_real`), checked and followed to the same level
(`RunsTo.iretSame`) or an outer one (`RunsTo.iretOuter`) in protected mode (`iret_protected`), and with NT = 1 the back link
names the task (`iret_nested`). -/
theorem iretCompletes : Obligations.IretCompletes := by
  refine ⟨fun s ready hm hmode hflat => ?frame, fun s ready hpe hnt hlimit => (iret_protected ready hpe hnt).1 hlimit,
    returnCs_checks, returnSs_checks, fun s ready hpe hnt htr link w hlink => iret_nested ready hpe hnt htr hlink⟩
  intro n frame rcs flags
  refine ⟨fun hpe hroom hoff => iret_real ready hpe hflat hroom hoff, ?_⟩
  intro raises
  have hprotected (hpe : s.cr0.pe = true) (hv86 : ¬ (s.os = .w32 ∧ bit (frame 2) 17 = true ∧ s.cpl = 0)) :=
    (iret_protected ready hpe (hmode.resolve_right (ne_false_of_eq_true hpe))).2 hflat (returnsToV86_eq_false hv86)
  refine ⟨fun hpe hv86 => (hprotected hpe hv86).1, fun hpe hv86 c w hc => ?_⟩
  obtain ⟨hsame, houter⟩ := (hprotected hpe hv86).2 c w hc
  have hw : DescReadsW s.work w := (returnCs_descReads rcs).ok hc
  have hsameLevel := fun hrpl => (hsame hrpl).iretSame ready hw.reads
  have houterLevel := fun hrpl => (houter hrpl).iretOuter ready hw.reads hw.kept
  exact ⟨fun hrpl => (hsameLevel hrpl).1, fun hrpl => (hsameLevel hrpl).2, fun hrpl => (houterLevel hrpl).1,
    fun hrpl => (houterLevel hrpl).2⟩

end Sys2Proof.Machine
end

section
/-! The obligation about LOCK where it is not allowed (O8): every meaning begins with the test of the prefixes, and the fetch
raises #UD itself before an opcode that the specification leaves outside. -/

namespace Sys2Proof.Machine

open Sys2Proof

-- One theorem after another, so that no more of them wait for each other than the memory limit has threads for.
set_option Elab.async false

/-- Every instruction but the prefixes runs a meaning that takes LOCK exactly where 47 R230 allows it; only the string
instructions take REP. -/
theorem exec_eq_runWith {i : Instr} (h : isPfx i = false) (s : State) :
    ∃ (repeatable : Bool) (body : M Unit), exec i s = runWith (lockable i) repeatable body s := by
  cases i with
  | lock | rep | repne | segEs | segCs | segSs | segDs | segFs | segGs | opSize | addrSize => cases h
  | movsb | movsv | insb | insv | outsb | outsv => exact ⟨true, _, rfl⟩
  | _ => exact ⟨false, _, rfl⟩

/-- The test of LOCK is the first of a meaning (log 40). -/
theorem prefixesOk_lock {s : State} (h : s.insn.lock = true) (repeatable : Bool) :
    prefixesOk false repeatable s.work = .error (.exc .ud) s.work := by
  simp [prefixesOk, State.work, Work.start, h]

theorem runWith_lock {s : State} (h : s.insn.lock = true) (repeatable : Bool) (body : M Unit) :
    runWith false repeatable body s = raiseExc 6 s.faulting .ud := by
  rw [runWith, bind_of_error (prefixesOk_lock h repeatable), settle, rollback_work]

/-- No hazard where neither PE nor PG has just changed (70 R343, R344). -/
theorem hazardStop_none {s : State} (hpe : s.prefetch.pe = false) (hpg : s.prefetch.pg = false) (jmp ident : Bool) :
    hazardStop s jmp ident = none := by
  simp [hazardStop, hpe, hpg]

/-- LOCK before an instruction that the specification leaves outside (30 R120). -/
theorem outsideInstr_lock {α : Type} {w : Work} (hlock : w.s.insn.lock = true) (hpe : w.s.prefetch.pe = false)
    (hpg : w.s.prefetch.pg = false) (name : String) (ident : Bool) :
    (outsideInstr name ident : M α) w = .error (.exc .ud) w := by
  rw [outsideInstr, bind_of_ok (run_st w), if_pos hlock, hazardStop_none hpe hpg]
  rfl

theorem fetchInstr_outside {w : Work} {bytes : List Byte} {name : String} (h : decode w.s.os w.s.as bytes = .outside name)
    (fuel : Nat) (ident : Bool) : fetchInstr (fuel + 1) bytes ident w = outsideInstr name ident w := by
  rw [fetchInstr, bind_of_ok (run_st w), h]

/-- An exception of the fetch is raised with the instruction rolled back. -/
theorem runInstr_fetch_raises {s : State} {ident : Bool} {e : Exc} {w : Work}
    (h : fetchInstr 16 [] ident s.work = .error (.exc e) w) (ex : Instr → State → Host.Outcome State Fault Refusal)
    (fuel : Nat) : runInstr ex (fuel + 1) ident s = raiseExc 6 (rollback s w) e := by
  rw [runInstr, h]
  rfl

/-- Settles O8: every meaning begins with the test of LOCK (`exec_eq_runWith`, `runWith_lock`), and so does what the fetch makes
of an opcode outside the specification (`outsideInstr_lock`). -/
theorem lockRaisesUd : Obligations.LockRaisesUd := by
  refine ⟨fun i s hlock hnot hi => ?meaning, fun w bytes fuel ident name hout hlock hpe hpg => ?outside,
    fun s fuel ident w hfetch => runInstr_fetch_raises hfetch exec fuel⟩
  case meaning =>
    obtain ⟨repeatable, body, hexec⟩ := exec_eq_runWith hi s
    rw [hexec, hnot]
    exact runWith_lock hlock repeatable body
  case outside => exact (fetchInstr_outside hout fuel ident).trans (outsideInstr_lock hlock hpe hpg name ident)

end Sys2Proof.Machine
end

section
/-! The obligation about XCHG (O26): a read, a write of the register's value and a write of the register. -/

namespace Sys2Proof.Machine

open Sys2Proof

-- One theorem after another, so that no more of them wait for each other than the memory limit has threads for.
set_option Elab.async false

theorem isMem_place8 (s : State) (rm : RM Reg8) : (place8 s rm).isMem = isMem rm := by
  cases rm <;> rfl

theorem isMem_placev (s : State) (z : Size) (rm : RM Reg) : (placev s z rm).isMem = isMem rm := by
  cases rm <;> rfl

/-- The three forms run one meaning; its second operand is a register, and LOCK is allowed where the first is memory. -/
theorem exec_xchg {s : State} {i : Instr} {dst reg : Place} (h : xchgForm s i = some (dst, reg)) :
    exec i s = runWith dst.isMem false (xchgBody dst reg) s ∧ reg.isMem = false := by
  cases i with
  | xchgRm8R8 rm r =>
    cases h
    rw [isMem_place8]
    exact ⟨rfl, rfl⟩
  | xchgRmR rm r =>
    cases h
    rw [isMem_placev]
    exact ⟨rfl, rfl⟩
  | xchgEaxR r =>
    cases h
    exact ⟨rfl, rfl⟩
  | _ => cases h

/-- The operand has been read when the register is, and that has not changed it. -/
theorem xchgBody_ok {s : State} {dst reg : Place} {a : BitVec 32} {w1 w2 w3 : Work} (hreg : reg.isMem = false)
    (hprobe : dst.probe s.work = .ok () w1) (hread : dst.read w1 = .ok a w2) (hgpr : w2.s.gpr = s.gpr)
    (hwrite : dst.write (reg.value s) w2 = .ok () w3) :
    xchgBody dst reg s.work = .ok () { w3 with s := reg.set w3.s a } := by
  have hvalue : reg.read w2 = .ok (reg.value s) w2 := by
    rw [(Place.run_of_not_mem w2 hreg).2.1, reg.value_congr hgpr]
  rw [xchgBody, bind_of_ok hprobe, bind_of_ok hread, bind_of_ok hvalue, bind_of_ok hwrite]
  exact (Place.run_of_not_mem w3 hreg).2.2 a

/-- The end of a meaning that reads, writes an operand and then replaces a register operand, or none. -/
theorem runWith_writes_ends {lockable repeatable : Bool} {s u : State} {p : Place} {x : BitVec 32} {w v : Work} {body : M Unit}
    (ready : ReadyFor lockable s) (hreads : ReadsW s.work w) (hwrite : p.write x w = .ok () v)
    (hbody : body s.work = .ok () { v with s := u }) (hu : u = { v.s with gpr := u.gpr }) :
    ∃ t, runWith lockable repeatable body s = .next t ∧ Ends s u t ∧ t.gpr = u.gpr ∧
      t.flags = { s.flags with rf := false } ∧ KeepsSystem s t ∧ (Memory.wf s.mem = true → FrameExcept s t (p.stores w)) := by
  have hacc := accesses_rel.trans _ _ _ hreads.acc (Place.write_eq_ok hwrite).1
  have hstate := hacc.state
  have hsame := hacc.same
  obtain ⟨t, hrun, hends, -⟩ := runWith_ends (repeatable := repeatable) ready hbody (congrArg Work.waiting hsame :)
    (congrArg Work.jumped hsame :) (congrArg Work.repeating hsame :) (congrArg Work.keepRf hsame :)
    ((congrArg State.eip hu).trans hstate.eip) ((congrArg State.insn hu).trans hstate.insn)
  have hflags : u.flags = s.flags := (congrArg State.flags hu).trans hstate.flags
  refine ⟨t, hrun, hends, hends.gpr, by rw [hends.flags, hflags], hends.keepsSystem (hstate.keepsSystem_of ?_), fun hm => ?_⟩
  · rw [hu]
  · have hframe := Place.write_frame hwrite (hreads.acc.state.wf hm)
    exact ((hreads.frame hm).weaken.trans hframe hreads.acc.state.cr0).of_mem_eq
      (hends.mem.trans (congrArg State.mem hu :))

/-- Settles O26: the three forms run `xchgBody`, whose parts are the given ones and a write of a register (`xchgBody_ok`). -/
theorem xchgCompletes : Obligations.XchgCompletes := by
  intro s i dst reg hform ready w1 a w2 w3 hprobe hread hwrite
  obtain ⟨hexec, hreg⟩ := exec_xchg hform
  have hreads : ReadsW s.work w2 := reads_rel.trans _ _ _ (dst.probe_reads.ok hprobe) (dst.read_reads.ok hread)
  have hread_gpr : w2.s.gpr = s.gpr := hreads.acc.state.gpr
  have hwrite_gpr : w3.s.gpr = (dst.set s (reg.value s)).gpr :=
    (Place.write_eq_ok hwrite).2.trans (dst.set_gpr_congr hread_gpr _)
  have hbody := xchgBody_ok hreg hprobe hread hread_gpr hwrite
  obtain ⟨t, hrun, hends, hgpr, hrest⟩ := runWith_writes_ends ready hreads hwrite hbody (reg.set_same w3.s a)
  exact ⟨t, hexec.trans hrun, hends, hgpr.trans (reg.set_gpr_congr hwrite_gpr a), hrest⟩

end Sys2Proof.Machine
end

section
/-! The obligation about WAIT and ESC (O60). -/

namespace Sys2Proof.Machine

open Sys2Proof

-- One theorem after another, so that no more of them wait for each other than the memory limit has threads for.
set_option Elab.async false

/-! ### The delivery of an exception (60 R296) -/

theorem Exc.note_eip (e : Exc) (s : State) : (e.note s).eip = s.eip := by
  cases e <;> rfl

theorem Exc.note_delivering (e : Exc) (s : State) : (e.note s).delivering = s.delivering := by
  cases e <;> rfl

/-- An exception that no other one is being delivered before, and whose own delivery goes through. -/
theorem raiseExc_delivers {s : State} {e : Exc} {w : Work} (hnone : s.delivering = .none)
    (h : deliver e.vector true e.err false s.eip (Work.start { e.note s with delivering := e.cls } true) = .ok () w)
    (fuel : Nat) : raiseExc (fuel + 1) s e = .next (endStep w.s) := by
  have hfirst : (e.note s).delivering = .none := (e.note_delivering s).trans hnone
  rw [← e.note_eip s] at h
  simp [raiseExc, hfirst, isDouble, h]

/-! ### ESC (47 R224, R225) -/

section Esc

variable {s : State} (opc reg : BitVec 3) (rm : RM Reg)

/-- The meaning of ESC. -/
def escBody (s : State) : M Unit := check (!s.cr0.em && !s.cr0.ts) .nm >>= fun _ => refuse .coprocessor

theorem exec_esc : exec (.esc opc reg rm) s = run (escBody s) s := rfl

theorem exec_esc_raises (ready : Ready s) (h : s.cr0.em = true ∨ s.cr0.ts = true) :
    exec (.esc opc reg rm) s = raiseExc 6 s.faulting .nm := by
  have hfails : (!s.cr0.em && !s.cr0.ts) = false := by
    obtain h | h := h <;> simp [h]
  rw [exec_esc, escBody, hfails]
  exact run_raises_first ready rfl

/-- With no other exception on its way, #NM enters its handler. -/
theorem exec_esc_delivers (ready : Ready s) (hflags : s.cr0.em = true ∨ s.cr0.ts = true) (hnone : s.delivering = .none)
    {w : Work} (h : deliver 7 true .none false s.eip (Work.start { s.faulting with delivering := .benign } true) = .ok () w) :
    exec (.esc opc reg rm) s = .next (endStep w.s) :=
  (exec_esc_raises opc reg rm ready hflags).trans (raiseExc_delivers (s := s.faulting) (e := .nm) hnone h 5)

theorem exec_esc_refused (ready : Ready s) (hem : s.cr0.em = false) (hts : s.cr0.ts = false) :
    exec (.esc opc reg rm) s = .refused .coprocessor := by
  have hbody : escBody s s.work = .error (.refuse .coprocessor) s.work := by simp [escBody, hem, hts]
  exact run_refused ready hbody

end Esc

/-! ### WAIT (47 R226) -/

section Wait

variable {s : State}

/-- What WAIT does when TS does not stop it. -/
def waitPins (s : State) : M Unit :=
  if s.env.busy then mark fun w => { w with waiting := true } else check (s.cr0.em || !s.env.error) .mf

/-- The meaning of WAIT. -/
def waitBody (s : State) : M Unit := check (!(s.cr0.mp && s.cr0.ts)) .nm >>= fun _ => waitPins s

theorem exec_wait (s : State) : exec .wait s = run (waitBody s) s := rfl

theorem exec_wait_raises_nm (ready : Ready s) (hmp : s.cr0.mp = true) (hts : s.cr0.ts = true) :
    exec .wait s = raiseExc 6 s.faulting .nm := by
  rw [exec_wait, waitBody, hmp, hts]
  exact run_raises_first ready rfl

theorem waitBody_eq (h : s.cr0.mp = false ∨ s.cr0.ts = false) : waitBody s s.work = waitPins s s.work := by
  have hpasses : (!(s.cr0.mp && s.cr0.ts)) = true := by
    obtain h | h := h <;> simp [h]
  rw [waitBody, hpasses]
  exact bind_of_ok (run_check_true _ _) _

theorem waitPins_busy (h : s.env.busy = true) : waitPins s s.work = .ok () { s.work with waiting := true } := by
  rw [waitPins, if_pos h, run_mark]

theorem waitPins_raises (hidle : s.env.busy = false) (hem : s.cr0.em = false) (herror : s.env.error = true) :
    waitPins s s.work = .error (.exc .mf) s.work := by
  simp [waitPins, hidle, hem, herror]

theorem waitPins_goesOn (hidle : s.env.busy = false) (h : s.cr0.em = true ∨ s.env.error = false) :
    waitPins s s.work = .ok () s.work := by
  have hpasses : (s.cr0.em || !s.env.error) = true := by
    obtain h | h := h <;> simp [h]
  rw [waitPins, if_neg (ne_true_of_eq_false hidle), hpasses, run_check_true]

/-- An instruction that waits has not ended (log 38). -/
theorem finish_waiting (s : State) {w : Work} (h : w.waiting = true) : finish s w = .ok () w := by
  simp [finish, h]

theorem exec_wait_waits (ready : Ready s) (hbody : waitBody s s.work = .ok () { s.work with waiting := true }) :
    exec .wait s = .next s.faulting := by
  rw [exec_wait]
  exact runWith_ok ready hbody (finish_waiting s rfl)

theorem exec_wait_raises_mf (ready : Ready s) (hbody : waitBody s s.work = .error (.exc .mf) s.work) :
    exec .wait s = raiseExc 6 s.faulting .mf := by
  rw [exec_wait, run_raises ready hbody, rollback_work]

theorem exec_wait_goesOn (ready : Ready s) (hbody : waitBody s s.work = .ok () s.work) :
    exec .wait s = .next (s.completed s) := by
  rw [exec_wait]
  exact run_completes ready hbody

end Wait

/-- Settles O60: ESC and WAIT begin with the test of their flags, and the pins decide how WAIT goes on (`waitPins_busy`,
`waitPins_raises`, `waitPins_goesOn`). -/
theorem waitEsc : Obligations.WaitEsc := by
  refine fun s ready => ⟨fun opc reg rm => ⟨fun hflags => ⟨exec_esc_raises opc reg rm ready hflags,
    fun _ hnone hdeliver => exec_esc_delivers opc reg rm ready hflags hnone hdeliver⟩,
    exec_esc_refused opc reg rm ready⟩, exec_wait_raises_nm ready, fun hflags => ?pins⟩
  case pins =>
    have hbody := waitBody_eq hflags
    exact ⟨fun hbusy => exec_wait_waits ready (hbody.trans (waitPins_busy hbusy)),
      fun hidle hem herror => exec_wait_raises_mf ready (hbody.trans (waitPins_raises hidle hem herror)),
      fun hidle hgoes => exec_wait_goesOn ready (hbody.trans (waitPins_goesOn hidle hgoes))⟩

end Sys2Proof.Machine
end

section
/-! Addition, subtraction and shifts as arithmetic (O15, O16, O17). -/

namespace Sys2Proof.Machine

open Sys2Proof

/-- One more bit flips the parity of the number of bits set. -/
theorem even_ones_succ (f : Nat → Bool) (k : Nat) :
    decide (((List.range (k + 1)).filter f).length % 2 = 0) =
      (decide (((List.range k).filter f).length % 2 = 0) ^^ f k) := by
  rw [List.range_succ, List.filter_append, List.length_append, Bool.eq_iff_iff]
  cases h : f k
  · simp [h]
  · simp [h]
    omega

/-- PF tells whether the low byte has an even number of bits set (48 R233). -/
theorem parity_setWidth {n : Nat} (r : BitVec n) :
    parity (r.setWidth 8) = decide (((List.range 8).filter r.getLsbD).length % 2 = 0) := by
  have low : ∀ i, i < 8 → (r.setWidth 8).getLsbD i = r.getLsbD i := fun i hi => by simp [hi]
  simp only [parity, low 0 (by omega), low 1 (by omega), low 2 (by omega), low 3 (by omega), low 4 (by omega),
    low 5 (by omega), low 6 (by omega), low 7 (by omega), even_ones_succ]
  simp

/-- ZF, SF and PF are those of the result, at every width of an operand (48 R233). -/
theorem resultFlags_arith {n : Nat} (r : BitVec n) (cf af of : Bool) :
    ((resultFlags r cf af of).zf = true ↔ r = 0) ∧ (resultFlags r cf af of).sf = r.msb ∧
      ((resultFlags r cf af of).pf = true ↔ ((List.range 8).filter r.getLsbD).length % 2 = 0) := by
  refine ⟨by simp [resultFlags], rfl, ?_⟩
  simp only [resultFlags, parity_setWidth, decide_eq_true_eq]

theorem Width.eight_le_bits (w : Width) : 8 ≤ w.bits := by cases w <;> decide

/-! ### Addition -/

theorem toNat_addWith {n : Nat} (hn : 0 < n) (a b : BitVec n) (c : Bool) :
    (addWith a b c).1.toNat = (a.toNat + b.toNat + c.toNat) % 2 ^ n := by
  have hc : c.toNat < 2 ^ n := lt_of_lt_of_le (Bool.toNat_lt c) (Nat.le_self_pow (by omega) 2)
  simp only [addWith, BitVec.toNat_add, BitVec.toNat_ofNat, Nat.mod_eq_of_lt hc, Nat.mod_add_mod]

/-- AF is the carry out of bit 3. -/
theorem af_addWith {n : Nat} (hn : 4 < n) (a b : BitVec n) (c : Bool) :
    (addWith a b c).2.af = true ↔ 16 ≤ a.toNat % 16 + b.toNat % 16 + c.toNat := by
  have carry : (addWith a b c).2.af = BitVec.carry 4 a b c := by
    have bit4 : (addWith a b c).1.getLsbD 4 = (a.getLsbD 4 ^^ (b.getLsbD 4 ^^ BitVec.carry 4 a b c)) := by
      rw [← BitVec.getLsbD_add_add_bool hn]
      have carryIn : BitVec.ofNat n c.toNat = (BitVec.ofBool c).setWidth n := by
        apply BitVec.eq_of_toNat_eq
        simp
      rw [← carryIn, addWith]
    change (a ^^^ b ^^^ (addWith a b c).1).getLsbD 4 = _
    rw [BitVec.getLsbD_xor, BitVec.getLsbD_xor, bit4]
    cases a.getLsbD 4 <;> cases b.getLsbD 4 <;> simp
  rw [carry, BitVec.carry, decide_eq_true_iff]

/-- The sum is the exact one, or the exact one less `2^n`. -/
theorem toNat_addWith_cases {n : Nat} (hn : 0 < n) (a b : BitVec n) (c : Bool) :
    (addWith a b c).1.toNat = a.toNat + b.toNat + c.toNat ∨
      (addWith a b c).1.toNat + 2 ^ n = a.toNat + b.toNat + c.toNat := by
  have ha := a.isLt
  have hb := b.isLt
  have hc := Bool.toNat_le c
  rw [toNat_addWith hn]
  by_cases h : a.toNat + b.toNat + c.toNat < 2 ^ n
  · exact .inl (Nat.mod_eq_of_lt h)
  · rw [Nat.mod_eq_sub_mod (by omega), Nat.mod_eq_of_lt (by omega)]
    omega

/-- OF says that the sum of the signed values does not fit: the operands have one sign and the result the other. -/
theorem of_addWith {n : Nat} (hn : 0 < n) (a b : BitVec n) (c : Bool) :
    (addWith a b c).2.of = true ↔ (addWith a b c).1.toInt ≠ a.toInt + b.toInt + (c.toNat : Int) := by
  obtain ⟨k, rfl⟩ : ∃ k, n = k + 1 := ⟨n - 1, by omega⟩
  have flag : (addWith a b c).2.of = ((a.msb ^^ (addWith a b c).1.msb) && (b.msb ^^ (addWith a b c).1.msb)) := by
    change ((a ^^^ (addWith a b c).1) &&& (b ^^^ (addWith a b c).1)).msb = _
    rw [BitVec.msb_and, BitVec.msb_xor, BitVec.msb_xor]
  have sum := toNat_addWith_cases hn a b c
  have ha := a.isLt
  have hb := b.isLt
  have hr := (addWith a b c).1.isLt
  have hc := Bool.toNat_le c
  have half : (2 : Nat) ^ (k + 1) = 2 * 2 ^ k := by ring
  have halfInt : ((2 ^ (k + 1) : Nat) : Int) = 2 * (2 ^ k : Nat) := by push_cast; ring
  rw [flag]
  simp only [BitVec.toInt_eq_msb_cond, BitVec.msb_eq_decide, Nat.add_sub_cancel, halfInt]
  generalize (addWith a b c).1.toNat = r at *
  generalize a.toNat = x at *
  generalize b.toNat = y at *
  generalize c.toNat = z at *
  rw [half] at *
  generalize (2 : Nat) ^ k = p at *
  by_cases h1 : p ≤ x <;> by_cases h2 : p ≤ y <;> by_cases h3 : p ≤ r <;> simp [h1, h2, h3] <;> omega

/-- Settles O15: result and carries as in `toNat_addWith`, `af_addWith`, `of_addWith`; the rest is of the result alone. -/
theorem addArithmetic : Obligations.AddArithmetic := by
  intro w a b c
  have h8 := w.eight_le_bits
  exact ⟨toNat_addWith (by omega) a b c, decide_eq_true_iff, af_addWith (by omega) a b c, of_addWith (by omega) a b c,
    resultFlags_arith ..⟩

/-! ### Subtraction: the addition that gives the minuend back -/

theorem addWith_subWith {n : Nat} (a b : BitVec n) (c : Bool) : (addWith (subWith a b c).1 b c).1 = a := by
  simp only [addWith, subWith]
  ring

/-- The borrow out of bit 3 is the carry of the addition that undoes the subtraction, and so is signed overflow. -/
theorem subWith_flags {n : Nat} (a b : BitVec n) (c : Bool) :
    (subWith a b c).2.af = (addWith (subWith a b c).1 b c).2.af ∧
      (subWith a b c).2.of = (addWith (subWith a b c).1 b c).2.of := by
  have back := addWith_subWith a b c
  constructor
  · change (a ^^^ b ^^^ (subWith a b c).1).getLsbD 4 =
      ((subWith a b c).1 ^^^ b ^^^ (addWith (subWith a b c).1 b c).1).getLsbD 4
    rw [back, BitVec.xor_assoc, BitVec.xor_comm a, BitVec.xor_comm b]
  · change ((a ^^^ b) &&& (a ^^^ (subWith a b c).1)).msb =
      (((subWith a b c).1 ^^^ (addWith (subWith a b c).1 b c).1) &&& (b ^^^ (addWith (subWith a b c).1 b c).1)).msb
    rw [back, BitVec.and_comm, BitVec.xor_comm a, BitVec.xor_comm a]

/-- The difference with the subtrahend added gives the minuend, or the minuend and `2^n`. -/
theorem toNat_subWith_cases {n : Nat} (hn : 0 < n) (a b : BitVec n) (c : Bool) :
    a.toNat = (subWith a b c).1.toNat + b.toNat + c.toNat ∨
      a.toNat + 2 ^ n = (subWith a b c).1.toNat + b.toNat + c.toNat := by
  have sum := toNat_addWith_cases hn (subWith a b c).1 b c
  rwa [addWith_subWith] at sum

theorem toNat_subWith {n : Nat} (hn : 0 < n) (a b : BitVec n) (c : Bool) :
    ((subWith a b c).1.toNat : Int) = (a.toNat - b.toNat - c.toNat : Int) % 2 ^ n := by
  have hr : ((subWith a b c).1.toNat : Int) < 2 ^ n := by exact_mod_cast (subWith a b c).1.isLt
  obtain h | h := toNat_subWith_cases hn a b c
  · rw [show (a.toNat - b.toNat - c.toNat : Int) = (subWith a b c).1.toNat by omega, Int.emod_eq_of_lt (by omega) hr]
  · have back : (a.toNat - b.toNat - c.toNat : Int) = (subWith a b c).1.toNat - 2 ^ n := by
      have := congrArg (Nat.cast : Nat → Int) h
      push_cast at this
      linarith
    rw [back, Int.sub_emod_right, Int.emod_eq_of_lt (by omega) hr]

/-- Settles O16: the difference `r` is the number with `r + b + c = a` modulo `2^W`, so that AF and OF are those of this
addition. -/
theorem subArithmetic : Obligations.SubArithmetic := by
  intro w a b c
  have h8 := w.eight_le_bits
  obtain ⟨haf, hof⟩ := subWith_flags a b c
  refine ⟨toNat_subWith (by omega) a b c, decide_eq_true_iff, ?_, ?_, resultFlags_arith ..⟩
  · obtain ⟨k, hk⟩ : ∃ k, 2 ^ w.bits = 16 * k := pow_dvd_pow 2 (show 4 ≤ w.bits by omega)
    have diff := toNat_subWith_cases (by omega) a b c
    have hc := Bool.toNat_le c
    change (subWith a b c).2.af = true ↔ _
    rw [haf, af_addWith (by omega)]
    rw [hk] at diff
    omega
  · rw [hof, of_addWith (by omega), addWith_subWith]
    omega

/-! ### Shifts -/

/-- Settles O17: the library's values of the three shifts; each flag is the branch of the definition that the count selects. -/
theorem shiftArithmetic : Obligations.ShiftArithmetic := by
  intro w a c u h1 h31
  refine ⟨?_, ?_, ?_, ?_, ?_, ?_⟩
  · exact (BitVec.toNat_shiftLeft ..).trans (by rw [Nat.shiftLeft_eq])
  · exact (BitVec.toNat_ushiftRight ..).trans (Nat.shiftRight_eq_div_pow ..)
  · exact (BitVec.toInt_sshiftRight ..).trans (Int.shiftRight_eq_div_pow ..)
  · intro hc
    simp [ShiftOp.apply, resultFlags, hc]
  · intro hc
    simp [ShiftOp.apply, resultFlags, show ¬ c ≤ w.bits by omega]
  · rintro rfl
    simp [ShiftOp.apply, resultFlags]

end Sys2Proof.Machine
end

section
/-! The obligations about instructions that read operands and write one, with the flags: two-operand and one-operand arithmetic
and logic, shifts, bit tests and MOV (O18, O19, O20, O23, O24, O25). -/

namespace Sys2Proof.Machine

open Sys2Proof

-- One theorem after another, so that no more of them wait for each other than the memory limit has threads for.
set_option Elab.async false

/-! ### Reads and one write -/

/-- After reads and a write of an operand: what has changed but general registers is an access, the bytes stored are the
operand's, and a register operand has its value. -/
theorem Place.write_after {p : Place} {x : BitVec 32} {w0 w v : Work} (hreads : ReadsW w0 w) (hwrite : p.write x w = .ok () v) :
    AccessesW w0 { v with s := { v.s with gpr := w0.s.gpr } } ∧
      (Memory.wf w0.s.mem = true → FrameExcept w0.s v.s (p.stores w)) ∧ v.s.gpr = (p.set w0.s x).gpr := by
  obtain ⟨hacc, hgpr⟩ := Place.write_eq_ok hwrite
  have hread_gpr : w.s.gpr = w0.s.gpr := hreads.acc.state.gpr
  rw [hread_gpr] at hacc
  refine ⟨accesses_rel.trans _ _ _ hreads.acc hacc, fun hm => ?_, hgpr.trans (p.set_gpr_congr hread_gpr x)⟩
  exact (hreads.frame hm).weaken.trans (Place.write_frame hwrite (hreads.acc.state.wf hm)) hreads.acc.state.cr0

/-- The end of a meaning that accesses memory and changes general registers, flags and the world besides. -/
theorem runWith_stores_ends {lockable repeatable : Bool} {s u : State} {v : Work} {body : M Unit} {stored : List (BitVec 32)}
    (ready : ReadyFor lockable s) (hacc : AccessesW s.work { v with s := { v.s with gpr := s.gpr } })
    (hframe : Memory.wf s.mem = true → FrameExcept s v.s stored) (hbody : body s.work = .ok () { v with s := u })
    (hu : u = { v.s with gpr := u.gpr, flags := u.flags, env := u.env }) :
    ∃ t, runWith lockable repeatable body s = .next t ∧ Ends s u t ∧ t.gpr = u.gpr ∧ t.flags = { u.flags with rf := false } ∧
      KeepsSystem s t ∧ (Memory.wf s.mem = true → FrameExcept s t stored) := by
  have hsame := hacc.same
  obtain ⟨t, hrun, hends, -⟩ := runWith_ends (repeatable := repeatable) ready hbody (congrArg Work.waiting hsame :)
    (congrArg Work.jumped hsame :) (congrArg Work.repeating hsame :) (congrArg Work.keepRf hsame :)
    ((congrArg State.eip hu).trans hacc.state.eip) ((congrArg State.insn hu).trans hacc.state.insn)
  refine ⟨t, hrun, hends, hends.gpr, hends.flags, hends.keepsSystem (hacc.state.keepsSystem_of ?_),
    fun hm => (hframe hm).of_mem_eq (hends.mem.trans (congrArg State.mem hu :))⟩
  rw [hu]

/-- Reads alone are accesses that leave the general registers. -/
theorem ReadsW.acc_gpr {w0 v : Work} (h : ReadsW w0 v) : AccessesW w0 { v with s := { v.s with gpr := w0.s.gpr } } := by
  have hgpr : v.s.gpr = w0.s.gpr := h.acc.state.gpr
  rw [← hgpr]
  exact h.acc

theorem isMem_reg8 (r : Reg8) : (Place.reg8 r).isMem = false := rfl

theorem isMem_reg (z : Size) (r : Reg) : (Place.reg z r).isMem = false := rfl

/-! ### Two operands (48 R242-R251) -/

section Alu

variable {s : State} {i : Instr} {op : AluOp} {dst : Place} {src : Src}

/-- Every form runs one meaning; LOCK is allowed where it writes memory. -/
theorem exec_alu (h : aluForm s i = some (op, dst, src)) : exec i s = runAlu op dst.isMem dst src.read s := by
  have lockable : ∃ m, m = dst.isMem ∧ exec i s = runAlu op m dst src.read s := by
    unfold aluForm at h
    split at h <;> cases h <;> refine ⟨_, ?_, rfl⟩ <;> simp only [isMem_place8, isMem_placev, isMem_reg8, isMem_reg]
  obtain ⟨m, rfl, hexec⟩ := lockable
  exact hexec

/-- The result of an operation with the flags of `s`, AF of a logical operation being `af`. -/
def aluResult (op : AluOp) (dst : Place) (s : State) (a b : BitVec 32) (af : Bool) : BitVec 32 × Status :=
  dst.width.binary (fun x y => op.apply x y s.flags.cf af) a b

/-- The meaning as a chain of its parts. -/
theorem aluBody_eq (op : AluOp) (dst : Place) (src : M (BitVec 32)) : aluBody op dst src =
    (if op.writes then dst.probe else pure ()) >>= fun _ => dst.read >>= fun a => src >>= fun b => st >>= fun s =>
      (if op.isLogic then drawBit else pure false) >>= fun af =>
        (if op.writes then dst.write (aluResult op dst s a b af).1 else pure ()) >>= fun _ =>
          setStatus (aluResult op dst s a b af).2 := by
  rw [aluBody]
  cases op.writes <;> rfl

/-- What the parts of the meaning leave is what it leaves, with the flags of the result. -/
theorem aluBody_ok {a b : BitVec 32} {af : Bool} {w1 w2 w3 w4 w5 : Work}
    (hprobe : (if op.writes then dst.probe else pure ()) s.work = .ok () w1) (hdst : dst.read w1 = .ok a w2)
    (hsrc : src.read w2 = .ok b w3) (haf : (if op.isLogic then drawBit else pure false) w3 = .ok af w4)
    (hflags : w3.s.flags = s.flags)
    (hwrite : (if op.writes then dst.write (aluResult op dst s a b af).1 else pure ()) w4 = .ok () w5) :
    aluBody op dst src.read s.work =
      .ok () { w5 with s := { w5.s with flags := w5.s.flags.withStatus (aluResult op dst s a b af).2 } } := by
  have hresult : aluResult op dst w3.s a b af = aluResult op dst s a b af := by rw [aluResult, hflags, aluResult]
  rw [aluBody_eq, bind_of_ok hprobe, bind_of_ok hdst, bind_of_ok hsrc, bind_of_ok (run_st w3), bind_of_ok haf, hresult,
    bind_of_ok hwrite]
  rfl

/-- AF of a logical operation is a free bit; no other operation draws. -/
theorem logicBit_ok (op : AluOp) (w : Work) : ∃ af e, (if op.isLogic then drawBit else pure false) w =
    .ok af { w with s := { w.s with env := e } } ∧ Drawn w.s.env e ∧ (op.isLogic = false → e = w.s.env) := by
  cases hlogic : op.isLogic with
  | true =>
    obtain ⟨af, e, hdraw, hdrawn⟩ := drawBit_ok w
    exact ⟨af, e, hdraw, hdrawn, nofun⟩
  | false => exact ⟨false, w.s.env, rfl, Drawn.refl _, fun _ => rfl⟩

theorem logicBit_reads (op : AluOp) : Within ReadsW (if op.isLogic then drawBit else pure false) :=
  within_ite drawBit_reads (within_pure reads_rel false)

theorem Src.read_reads (src : Src) : Within ReadsW src.read := by
  cases src with
  | place p => exact p.read_reads
  | imm v => exact within_pure reads_rel v

/-- A register source, or an immediate value, is read without anything else. -/
theorem Src.read_of_not_mem (w : Work) (h : src.isMem = false) : src.read w = .ok (src.value w.s) w := by
  cases src with
  | place p => exact (Place.run_of_not_mem w h).2.1
  | imm v => rfl

/-- The destination with the result, where the operation writes one. -/
def AluOp.store (op : AluOp) (dst : Place) (s : State) (x : BitVec 32) : State := if op.writes then dst.set s x else s

theorem AluOp.store_same (op : AluOp) (dst : Place) (s : State) (x : BitVec 32) :
    op.store dst s x = { s with gpr := (op.store dst s x).gpr } := by
  rw [AluOp.store]
  split
  · exact dst.set_same s x
  · rfl

theorem AluOp.store_env (op : AluOp) (dst : Place) (s : State) (x : BitVec 32) (e : Env) :
    op.store dst { s with env := e } x = { op.store dst s x with env := e } := by
  rw [AluOp.store, AluOp.store]
  split
  · cases dst <;> rfl
  · rfl

/-- A register destination is checked and written without anything else. -/
theorem AluOp.run_register (op : AluOp) (h : dst.isMem = false) (x : BitVec 32) (w : Work) :
    (if op.writes then dst.probe else pure ()) w = .ok () w ∧
      (if op.writes then dst.write x else pure ()) w = .ok () { w with s := op.store dst w.s x } := by
  obtain ⟨hprobe, -, hwrite⟩ := Place.run_of_not_mem w h
  rw [AluOp.store]
  split
  · exact ⟨hprobe, hwrite x⟩
  · exact ⟨rfl, rfl⟩

/-- Settles O18: no part of `aluBody` but the draw of AF does more than read or write a register. -/
theorem aluRegister : Obligations.AluRegister := by
  intro s i op dst src hform hdst hsrc ready
  obtain ⟨af, e, haf, hdrawn, hsame⟩ := logicBit_ok op s.work
  refine ⟨af, e, hdrawn, hsame, ?_⟩
  let x := (aluResult op dst s (dst.value s) (src.value s) af).1
  have hstore := op.store_same dst s x
  have hwrite : (if op.writes then dst.write x else pure ()) { s.work with s := { s with env := e } } =
      .ok () { s.work with s := { op.store dst s x with env := e } } := by
    rw [← op.store_env]
    exact (op.run_register hdst x _).2
  have hbody := aluBody_ok (op.run_register hdst x s.work).1 (Place.run_of_not_mem s.work hdst).2.1
    (src.read_of_not_mem s.work hsrc) haf rfl hwrite
  have hflags : (op.store dst s x).flags = s.flags := (congrArg State.flags hstore :)
  rw [exec_alu hform, runAlu, hdst, Bool.and_false]
  refine (run_completes ready hbody (congrArg State.eip hstore :) (congrArg State.insn hstore :)).trans ?_
  rw [hflags]
  rfl

/-- Settles O19: reads, then one write or none (`aluBody_ok`), then the flags. -/
theorem aluCompletes : Obligations.AluCompletes := by
  intro s i op dst src hform ready w1 a w2 b w3 af w4 hprobe hdst hsrc haf r w5 hwrite
  have hprobes : Within ReadsW (if op.writes then dst.probe else pure ()) :=
    within_ite dst.probe_reads (within_pure reads_rel ())
  have hreads3 : ReadsW s.work w3 :=
    reads_rel.trans _ _ _ (reads_rel.trans _ _ _ (hprobes.ok hprobe) (dst.read_reads.ok hdst)) (src.read_reads.ok hsrc)
  have hreads : ReadsW s.work w4 := reads_rel.trans _ _ _ hreads3 ((logicBit_reads op).ok haf)
  obtain ⟨hacc, hframe, hgpr⟩ : AccessesW s.work { w5 with s := { w5.s with gpr := s.gpr } } ∧
      (Memory.wf s.mem = true → FrameExcept s w5.s (if op.writes then dst.stores w4 else [])) ∧
      w5.s.gpr = (if op.writes then dst.set s r.1 else s).gpr := by
    cases hw : op.writes with
    | true =>
      rw [hw] at hwrite
      exact Place.write_after hreads hwrite
    | false =>
      rw [hw] at hwrite
      cases hwrite
      exact ⟨hreads.acc_gpr, hreads.frame, hreads.acc.state.gpr⟩
  have hbody := aluBody_ok hprobe hdst hsrc haf hreads3.acc.state.flags hwrite
  have hflags : w5.s.flags = s.flags := hacc.state.flags
  rw [hflags] at hbody
  obtain ⟨t, hrun, hends, htgpr, -, hrest⟩ :=
    runWith_stores_ends (repeatable := false) ready hacc hframe hbody rfl
  exact ⟨t, (exec_alu hform).trans hrun, hends, htgpr.trans hgpr, hrest⟩

end Alu

/-! ### One operand (48 R252-R255) -/

section Unary

variable {s : State} {i : Instr} {op : UnOp} {dst : Place}

/-- The meaning of each one-operand operation. -/
def UnOp.body (op : UnOp) (dst : Place) : M Unit :=
  match op with
  | .inc => incBody dst
  | .dec => decBody dst
  | .not => notBody dst
  | .neg => negBody dst

theorem exec_unary (h : unaryForm s i = some (op, dst)) : exec i s = runWith dst.isMem false (op.body dst) s := by
  have lockable : ∃ m, m = dst.isMem ∧ exec i s = runWith m false (op.body dst) s := by
    unfold unaryForm at h
    split at h <;> cases h <;> refine ⟨_, ?_, rfl⟩ <;> simp only [isMem_place8, isMem_placev, isMem_reg]
  obtain ⟨m, rfl, hexec⟩ := lockable
  exact hexec

/-- An addition or subtraction of a constant, at each width of the operand. -/
theorem Width.unary_add_one (w : Width) (a : BitVec 32) :
    w.unary (fun x => addWith x 1 false) a = w.binary (fun x y => addWith x y false) a 1 := by
  cases w <;> rfl

theorem Width.unary_sub_one (w : Width) (a : BitVec 32) :
    w.unary (fun x => subWith x 1 false) a = w.binary (fun x y => subWith x y false) a 1 := by
  cases w <;> rfl

theorem Width.unary_neg (w : Width) (a : BitVec 32) :
    w.unary (fun x => subWith 0 x false) a = w.binary (fun x y => subWith x y false) 0 a := by
  cases w <;> rfl

/-- The complement is the exclusive or with ones. -/
theorem Width.unary_not (w : Width) (a : BitVec 32) :
    (w.unary (fun x => logicResult (~~~x) false) a).1 =
      (w.binary (fun x y => (x ^^^ y, resultFlags x false false false)) a (BitVec.allOnes 32)).1 := by
  have ones {n : Nat} (x : BitVec n) : ~~~x = x ^^^ BitVec.allOnes n := by simp
  cases w
  · exact congrArg (BitVec.setWidth 32) (ones (a.setWidth 8))
  · exact congrArg (BitVec.setWidth 32) (ones (a.setWidth 16))
  · exact ones a

/-- Check, read and write leave what the meaning leaves, with the flags of the operation. -/
theorem UnOp.body_ok {a : BitVec 32} {w1 w2 w3 : Work} (hprobe : dst.probe s.work = .ok () w1) (hread : dst.read w1 = .ok a w2)
    (f : Flags) (hwrite : dst.write (op.apply dst.width f a).1 w2 = .ok () w3) (hflags : w3.s.flags = f) :
    op.body dst s.work = .ok () { w3 with s := { w3.s with flags := (op.apply dst.width f a).2 } } := by
  subst hflags
  have parts {g : {n : Nat} → BitVec n → BitVec n × Status} (flags : Status → M Unit) (v : BitVec 32)
      (hv : (dst.width.unary g a).1 = v) (hw : dst.write v w2 = .ok () w3) :
      unaryBody dst g flags s.work = flags (dst.width.unary g a).2 w3 := by
    subst hv
    exact (bind_of_ok hprobe _).trans ((bind_of_ok hread _).trans (bind_of_ok hw _))
  cases op with
  | inc =>
    refine (parts setStatusKeepCf _ ?_ hwrite).trans ?_
    · rw [Width.unary_add_one]
      rfl
    · rw [Width.unary_add_one]
      rfl
  | dec =>
    refine (parts setStatusKeepCf _ ?_ hwrite).trans ?_
    · rw [Width.unary_sub_one]
      rfl
    · rw [Width.unary_sub_one]
      rfl
  | not => exact parts (fun _ => pure ()) _ (Width.unary_not _ _) hwrite
  | neg =>
    refine (parts setStatus _ ?_ hwrite).trans ?_
    · rw [Width.unary_neg]
      rfl
    · rw [Width.unary_neg]
      rfl

/-- Settles O20: the checks, a read, a write and the flags (`UnOp.body_ok`). -/
theorem unaryCompletes : Obligations.UnaryCompletes := by
  intro s i op dst hform ready w1 a w2 hprobe hread r w3 hwrite
  have hreads : ReadsW s.work w2 := reads_rel.trans _ _ _ (dst.probe_reads.ok hprobe) (dst.read_reads.ok hread)
  obtain ⟨hacc, hframe, hgpr⟩ := Place.write_after hreads hwrite
  have hbody := UnOp.body_ok hprobe hread s.flags hwrite hacc.state.flags
  obtain ⟨t, hrun, hends, htgpr, -, hrest⟩ := runWith_stores_ends (repeatable := false) ready hacc hframe hbody rfl
  exact ⟨t, (exec_unary hform).trans hrun, hends, htgpr.trans hgpr, hrest⟩

end Unary

/-! ### Shifts (48 R258-R261) -/

section Shift

variable {s : State} {i : Instr} {op : ShiftOp} {dst : Place} {count : Byte}

theorem exec_shift (h : shiftForm s i = some (op, dst, count)) : exec i s = run (shiftBody op dst count) s := by
  unfold shiftForm at h
  split at h <;> cases h <;> rfl

/-- After the checks and the read, a count of 0 is the end; any other draws, writes and sets the flags. -/
theorem shiftBody_read {a : BitVec 32} {w1 w2 : Work} (hprobe : dst.probe s.work = .ok () w1) (hread : dst.read w1 = .ok a w2) :
    (count.toNat % 32 = 0 → shiftBody op dst count s.work = .ok () w2) ∧
      (count.toNat % 32 ≠ 0 → ∀ u w3, drawStatus w2 = .ok u w3 →
        let r := dst.width.unary (fun x => op.apply x (count.toNat % 32) u) a
        ∀ w4, dst.write r.1 w3 = .ok () w4 →
          shiftBody op dst count s.work = .ok () { w4 with s := { w4.s with flags := w4.s.flags.withStatus r.2 } }) := by
  rw [shiftBody, bind_of_ok hprobe, bind_of_ok hread]
  constructor
  · intro h0
    simp only [h0, if_pos]
    rfl
  · intro h0 u w3 hdraw r w4 hwrite
    simp only [if_neg h0]
    rw [bind_of_ok hdraw, bind_of_ok hwrite]
    rfl

theorem drawStatus_reads : Within ReadsW drawStatus := within_bind reads_rel draw_reads fun _ => within_pure reads_rel _

/-- Settles O23, from the two ways in which the meaning goes on after its read (`shiftBody_read`). -/
theorem shiftCompletes : Obligations.ShiftCompletes := by
  intro s i op dst count hform ready w1 a w2 hprobe hread c
  have hreads : ReadsW s.work w2 := reads_rel.trans _ _ _ (dst.probe_reads.ok hprobe) (dst.read_reads.ok hread)
  obtain ⟨hzero, hshift⟩ := shiftBody_read (op := op) (count := count) hprobe hread
  rw [exec_shift hform, run]
  constructor
  · intro h0
    obtain ⟨t, hrun, hends, hgpr, hflags, hrest⟩ :=
      run_reads_ends (u := w2.s) ready hreads (hzero h0) rfl
    exact ⟨t, hrun, hends, hgpr.trans hreads.acc.state.gpr, hflags, hrest⟩
  · intro h0 u w3 hdraw r w4 hwrite
    have hdrawn : ReadsW s.work w3 := reads_rel.trans _ _ _ hreads (drawStatus_reads.ok hdraw)
    obtain ⟨hacc, hframe, hgpr⟩ := Place.write_after hdrawn hwrite
    have hbody := hshift h0 u w3 hdraw w4 hwrite
    have hflags : w4.s.flags = s.flags := hacc.state.flags
    rw [hflags] at hbody
    obtain ⟨t, hrun, hends, htgpr, -, hrest⟩ := runWith_stores_ends (repeatable := false) ready hacc hframe hbody rfl
    exact ⟨t, hrun, hends, htgpr.trans hgpr, hrest⟩

end Shift

/-! ### Bit tests (48 R262-R265) -/

section Bits

variable {s : State} {i : Instr} {op : BitOp} {dst : Place} {offset : BitVec 32}

theorem isMem_bitPlace (s : State) (rm : RM Reg) (offset : BitVec 32) : (bitPlace s rm offset).isMem = isMem rm := by
  cases rm <;> rfl

theorem exec_bit (h : bitForm s i = some (op, dst, offset)) : exec i s = runWith dst.isMem false (bitBody op dst offset) s := by
  have lockable : ∃ m, m = dst.isMem ∧ exec i s = runWith m false (bitBody op dst offset) s := by
    unfold bitForm at h
    split at h <;> cases h <;> refine ⟨_, ?_, rfl⟩ <;> simp only [isMem_bitPlace, isMem_placev]
  obtain ⟨m, rfl, hexec⟩ := lockable
  exact hexec

/-- The item with its selected bit changed, CF with the bit of before, the other flags free. -/
theorem bitBody_ok {v : BitVec 32} {w1 w2 w3 : Work} (hprobe : dst.probe s.work = .ok () w1) (hread : dst.read w1 = .ok v w2)
    (hwrite : dst.write (op.apply v (offset.toNat % dst.width.bits)) w2 = .ok () w3) :
    ∃ (u : Status) (e : Env), Drawn w3.s.env e ∧ bitBody op dst offset s.work = .ok () { w3 with
      s := { w3.s with
        flags := w3.s.flags.withStatus { u with cf := bit v (offset.toNat % dst.width.bits) }, env := e } } := by
  obtain ⟨u, e, hdraw, hdrawn⟩ := drawStatus_ok w3
  refine ⟨u, e, hdrawn, ?_⟩
  rw [bitBody, bind_of_ok hprobe, bind_of_ok hread]
  dsimp only []
  rw [bind_of_ok hwrite, bind_of_ok hdraw]
  rfl

/-- The bit that the operation changes. -/
def BitOp.newBit (op : BitOp) (old : Bool) : Bool :=
  match op with
  | .bts => true
  | .btr => false
  | .btc => !old

/-- The mask has the selected bit alone, so that the operation changes this bit and keeps the others. -/
theorem BitOp.bit_apply (op : BitOp) (v : BitVec 32) {k j : Nat} (hj : j < 32) :
    bit (op.apply v k) j = if j = k then op.newBit (bit v k) else bit v j := by
  have mask : (1#32 <<< k).getLsbD j = decide (j = k) := by
    rw [← BitVec.twoPow_eq, BitVec.getLsbD_twoPow, Bool.eq_iff_iff]
    simp only [Bool.and_eq_true, decide_eq_true_eq]
    omega
  have value : bit (op.apply v k) j = (match op with
      | .bts => bit v j || decide (j = k)
      | .btr => bit v j && !decide (j = k)
      | .btc => bit v j ^^ decide (j = k)) := by
    cases op <;> simp only [bit, BitOp.apply, BitVec.getLsbD_or, BitVec.getLsbD_and, BitVec.getLsbD_xor, BitVec.getLsbD_not,
      mask, hj, decide_true, Bool.true_and]
  rw [value]
  by_cases h : j = k
  · subst h
    cases op <;> simp [BitOp.newBit]
  · cases op <;> simp [h]

theorem Width.bits_le (w : Width) : w.bits ≤ 32 := by cases w <;> decide

/-- Settles O24: the checks, a read, a write and the flags (`bitBody_ok`); what the write changes of the item is
`BitOp.bit_apply`. -/
theorem bitTestCompletes : Obligations.BitTestCompletes := by
  intro s i op dst offset hform ready w1 v w2 hprobe hread k w3 hwrite
  have hreads : ReadsW s.work w2 := reads_rel.trans _ _ _ (dst.probe_reads.ok hprobe) (dst.read_reads.ok hread)
  obtain ⟨hacc, hframe, hgpr⟩ := Place.write_after hreads hwrite
  obtain ⟨u, e, hdrawn, hbody⟩ := bitBody_ok hprobe hread hwrite
  have hflags : w3.s.flags = s.flags := hacc.state.flags
  rw [hflags] at hbody
  obtain ⟨t, hrun, hends, htgpr, -, hkeeps, htframe⟩ := runWith_stores_ends (repeatable := false) ready hacc hframe hbody rfl
  refine ⟨t, u, e, (exec_bit hform).trans hrun, hdrawn, hends, htgpr.trans hgpr, hkeeps, htframe, fun j hj => ?_⟩
  exact op.bit_apply v (Nat.lt_of_lt_of_le hj dst.width.bits_le)

end Bits

/-! ### MOV (48 R236-R239) -/

/-- The forms read their source, if it is an operand, and write the destination. -/
theorem exec_mov {s : State} {i : Instr} {dst : Place} {src : Src} (h : movForm s i = some (dst, src)) :
    exec i s = run (src.read >>= dst.write) s := by
  unfold movForm at h
  split at h <;> cases h <;> rfl

/-- Settles O25: a read and a write. -/
theorem movCompletes : Obligations.MovCompletes := by
  intro s i dst src hform ready v w1 w2 hread hwrite
  have hreads : ReadsW s.work w1 := src.read_reads.ok hread
  obtain ⟨hacc, hframe, hgpr⟩ := Place.write_after hreads hwrite
  obtain ⟨t, hrun, hends, htgpr, hflags, hrest⟩ := runWith_stores_ends (u := w2.s) (repeatable := false) ready hacc hframe
    ((bind_of_ok hread dst.write).trans hwrite) rfl
  have hsame : w2.s.flags = s.flags := hacc.state.flags
  rw [hsame] at hflags
  exact ⟨t, (exec_mov hform).trans hrun, hends, htgpr.trans hgpr, hflags, hrest⟩

end Sys2Proof.Machine
end

section
/-! The obligations about DIV and IDIV (O21, O22). -/

namespace Sys2Proof.Machine

open Sys2Proof

-- One theorem after another, so that no more of them wait for each other than the memory limit has threads for.
set_option Elab.async false

/-! ### The law of division (48 R256, R257) -/

/-- A quotient and a remainder of the sign of the dividend are those of the division rounded toward zero. -/
theorem tdiv_tmod_of_law {n v q r : Int} (hv : v ≠ 0) (law : n = q * v + r) (small : |r| < |v|)
    (sign : r = 0 ∨ (0 < r ↔ 0 < n)) : n.tdiv v = q ∧ n.tmod v = r := by
  have hsmall : |r| < (v.natAbs : Int) := by rwa [Int.natCast_natAbs]
  obtain ⟨hlow, hhigh⟩ := abs_lt.1 hsmall
  have hlaw : r + v * q = n := by rw [law]; ring
  by_cases hn : 0 < n
  · exact (Int.tdiv_tmod_unique hn.le hv).2 ⟨hlaw, by omega, hhigh⟩
  · exact (Int.tdiv_tmod_unique' (by omega) hv).2 ⟨hlaw, hlow, by omega⟩

/-! ### The divisor (48 R232) -/

/-- No bit of the value lies beyond the width. -/
def Width.Fits (w : Width) (v : BitVec 32) : Prop := ∀ j, w.bits ≤ j → v.getLsbD j = false

theorem getLsbD_ofBytes_of_ge (l : List Byte) {j : Nat} (h : 8 * l.length ≤ j) : (ofBytes l).getLsbD j = false := by
  induction l generalizing j with
  | nil => exact BitVec.getLsbD_zero
  | cons b t ih =>
    rw [List.length_cons] at h
    rw [getLsbD_ofBytes_cons, ih (by omega), BitVec.getLsbD_of_ge b j (by omega)]
    simp

theorem linAccess_length {la : BitVec 32} {n : Nat} {write user : Bool} {w u : Work} {pas : List (BitVec 32)}
    (h : linAccess la n write user w = .ok pas u) : pas.length = n := by
  obtain ⟨x, v, -, hpas⟩ := linAccess_eq_ok h
  obtain ⟨-, rfl⟩ | ⟨hlt, y, z, -, rfl⟩ := hpas
  · exact length_span _ _
  · rw [List.length_append, length_span, length_span]
    omega

theorem gather_length {α β : Type} {f : α → M β} {l : List α} {bs : List β} {w u : Work} (h : gather f l w = .ok bs u) :
    bs.length = l.length := by
  induction l generalizing bs w with
  | nil =>
    cases h
    rfl
  | cons a t ih =>
    obtain ⟨b, w1, -, h⟩ := bind_eq_ok.1 h
    obtain ⟨l, w2, hl, h⟩ := bind_eq_ok.1 h
    cases h
    rw [List.length_cons, List.length_cons, ih hl]

theorem getLsbD_lowBytes_of_ge (n : Nat) (v : BitVec 32) {j : Nat} (h : 8 * n ≤ j) : (lowBytes n v).getLsbD j = false :=
  getLsbD_ofBytes_of_ge _ (by rwa [toBytes, List.length_map, List.length_range])

/-- A read of physical memory gives no more bits than it reads. -/
theorem physReadAt_bits {pas : List (BitVec 32)} {d : BitVec 32} {w u : Work} (h : physReadAt pas w = .ok d u) {j : Nat}
    (hj : 8 * pas.length ≤ j) : d.getLsbD j = false := by
  rw [physReadAt, bind_of_ok (run_st w)] at h
  split at h
  · obtain ⟨v, w1, -, h⟩ := bind_eq_ok.1 h
    obtain ⟨-, w2, -, h⟩ := bind_eq_ok.1 h
    cases h
    exact getLsbD_lowBytes_of_ge _ _ hj
  · obtain ⟨bs, w1, hbs, h⟩ := bind_eq_ok.1 h
    cases h
    exact getLsbD_ofBytes_of_ge bs (by rwa [gather_length hbs])

/-- An operand is read zero-extended. -/
theorem Place.read_fits {p : Place} {d : BitVec 32} {w u : Work} (h : p.read w = .ok d u) : p.width.Fits d := by
  intro j hj
  cases p with
  | reg8 r =>
    cases h
    rw [BitVec.getLsbD_setWidth, BitVec.getLsbD_of_ge (w.s.reg8 r) j hj, Bool.and_false]
  | reg z r =>
    cases h
    cases z with
    | w16 =>
      change (w.s.reg r &&& 0xFFFF#32).getLsbD j = false
      have hmask : (0xFFFF#32).getLsbD j = false := by
        rw [show 0xFFFF#32 = (BitVec.allOnes 16).setWidth 32 from rfl, BitVec.getLsbD_setWidth,
          BitVec.getLsbD_of_ge (BitVec.allOnes 16) j hj, Bool.and_false]
      rw [BitVec.getLsbD_and, hmask, Bool.and_false]
    | w32 => exact BitVec.getLsbD_of_ge _ j hj
  | mem g off width =>
    obtain ⟨la, w1, -, h⟩ := bind_eq_ok.1 h
    obtain ⟨s, w2, -, h⟩ := bind_eq_ok.1 h
    obtain ⟨pas, w3, hpas, h⟩ := bind_eq_ok.1 h
    obtain ⟨-, w4, -, h⟩ := bind_eq_ok.1 h
    refine physReadAt_bits h ?_
    rw [linAccess_length hpas]
    cases width <;> exact hj

/-- The signed value of an operand is 0 only where the operand is. -/
theorem Width.toInt_eq_zero {w : Width} {d : BitVec 32} (h : w.Fits d) : w.toInt d = 0 ↔ d = 0 := by
  have zero {n : Nat} (x : BitVec n) : x.toInt = 0 ↔ x = 0 := by
    rw [← BitVec.toInt_inj]
    simp
  have narrow (k : Nat) (hk : ∀ j, k ≤ j → d.getLsbD j = false) : (d.setWidth k).toInt = 0 ↔ d = 0 := by
    rw [zero]
    constructor
    · intro hz
      refine BitVec.eq_of_getLsbD_eq fun j _ => ?_
      by_cases hlt : j < k
      · have hbit := congrArg (·.getLsbD j) hz
        simpa [hlt] using hbit
      · simp [hk j (by omega)]
    · rintro rfl
      simp
  cases w with
  | w8 => exact narrow 8 h
  | w16 => exact narrow 16 h
  | w32 => exact zero d

/-! ### The meaning (48 R256, R257) -/

section Divide

variable {s : State} {i : Instr} {signed : Bool} {src : Place}

/-- The dividend as a number. -/
def divNumber (s : State) (w : Width) (signed : Bool) : Int :=
  if signed then (dividend s w true).toInt else (dividend s w false).toNat

/-- The divisor as a number. -/
def Width.divisor (w : Width) (signed : Bool) (d : BitVec 32) : Int := if signed then w.toInt d else d.toNat

/-- The quotient can be stored in the width. -/
def Width.HoldsQuotient (w : Width) (signed : Bool) (q : Int) : Prop :=
  if signed then -2 ^ (w.bits - 1) ≤ q ∧ q < 2 ^ (w.bits - 1) else q < 2 ^ w.bits

/-- DIV and IDIV. -/
def divideBody (signed : Bool) (src : Place) : M Unit := if signed then idivBody src else divBody src

theorem exec_div (h : divForm s i = some (signed, src)) : exec i s = run (divideBody signed src) s := by
  unfold divForm at h
  split at h <;> cases h <;> rfl

/-- The dividend is in general registers. -/
theorem dividend_congr {s t : State} (h : t.gpr = s.gpr) (w : Width) (signed : Bool) :
    dividend t w signed = dividend s w signed := by
  have hreg (r : Reg) : t.reg r = s.reg r := congrArg (Gpr.get · r) h
  cases w with
  | w8 => rw [dividend, dividend, hreg]
  | w16 | w32 => rw [dividend, dividend, hreg, hreg]

theorem storeDiv_same (w : Width) (q r : BitVec 32) (s : State) :
    storeDiv w q r s = { s with gpr := (storeDiv w q r s).gpr } := by
  cases w <;> rfl

theorem storeDiv_gpr_congr {s t : State} (h : t.gpr = s.gpr) (w : Width) (q r : BitVec 32) :
    (storeDiv w q r t).gpr = (storeDiv w q r s).gpr := by
  cases w with
  | w8 => exact Place.set_gpr_congr (.reg8 .ah) (Place.set_gpr_congr (.reg8 .al) h q) r
  | w16 => exact Place.set_gpr_congr (.reg .w16 .edx) (Place.set_gpr_congr (.reg .w16 .eax) h q) r
  | w32 => exact Place.set_gpr_congr (.reg .w32 .edx) (Place.set_gpr_congr (.reg .w32 .eax) h q) r

theorem storeDiv_env (w : Width) (q r : BitVec 32) (s : State) (e : Env) :
    storeDiv w q r { s with env := e } = { storeDiv w q r s with env := e } := by
  cases w <;> rfl

/-- Once the divisor has been read, one test decides between the divide error and the stores. -/
theorem divideBody_read {d : BitVec 32} {w : Work} (hread : src.read s.work = .ok d w) (hgpr : w.s.gpr = s.gpr) :
    let n := divNumber s src.width signed
    let v := src.width.divisor signed d
    ∃ c : Bool, (c = true ↔ v ≠ 0 ∧ src.width.HoldsQuotient signed (n.tdiv v)) ∧
      divideBody signed src s.work = (check c .de >>= fun _ =>
        upd (storeDiv src.width (BitVec.ofInt 32 (n.tdiv v)) (BitVec.ofInt 32 (n.tmod v))) >>= fun _ => freeStatus) w := by
  have hfits := Place.read_fits hread
  cases signed with
  | true =>
    let q := (divNumber s src.width true).tdiv (src.width.toInt d)
    refine ⟨d != 0 && decide (-2 ^ (src.width.bits - 1) ≤ q) && decide (q < 2 ^ (src.width.bits - 1)), ?_, ?_⟩
    · simp only [q, Width.divisor, Width.HoldsQuotient, if_true, ne_eq, Width.toInt_eq_zero hfits, Bool.and_eq_true,
        bne_iff_ne, decide_eq_true_eq, and_assoc]
    · refine (bind_of_ok hread _).trans ((bind_of_ok (run_st w) _).trans ?_)
      rw [dividend_congr hgpr]
      rfl
  | false =>
    have hquot : ((dividend s src.width false).toNat : Int).tdiv d.toNat =
      ((dividend s src.width false).toNat / d.toNat : Nat) := (Int.ofNat_tdiv ..).symm
    have hrem : ((dividend s src.width false).toNat : Int).tmod d.toNat =
      ((dividend s src.width false).toNat % d.toNat : Nat) := (Int.ofNat_tmod ..).symm
    refine ⟨d != 0 && decide ((dividend s src.width false).toNat / d.toNat < 2 ^ src.width.bits), ?_, ?_⟩
    · have hzero : ((d.toNat : Int) = 0) ↔ d = 0 := by
        rw [Int.natCast_eq_zero, ← BitVec.toNat_inj]
        rfl
      have hcast (a : Nat) : ((a : Int) < 2 ^ src.width.bits) ↔ a < 2 ^ src.width.bits := by exact_mod_cast Iff.rfl
      simp only [Width.divisor, Width.HoldsQuotient, divNumber, Bool.false_eq_true, if_false, ne_eq, hzero, Bool.and_eq_true,
        bne_iff_ne, decide_eq_true_eq, hquot, hcast]
    · refine (bind_of_ok hread _).trans ((bind_of_ok (run_st w) _).trans ?_)
      simp only [Width.divisor, divNumber, Bool.false_eq_true, if_false, hquot, hrem, BitVec.ofInt_natCast]
      rw [dividend_congr hgpr]
      rfl

/-- Settles O21: the law of division fixes the quotient and the remainder that are stored. -/
theorem divideCompletes : Obligations.DivideCompletes := by
  intro s i signed src hform ready d w1 hread n v q r hv law small sign hsigned hunsigned
  have hreads : ReadsW s.work w1 := src.read_reads.ok hread
  have hgpr : w1.s.gpr = s.gpr := hreads.acc.state.gpr
  obtain ⟨c, hc, hbody⟩ := divideBody_read (signed := signed) hread hgpr
  obtain ⟨hq, hr⟩ : n.tdiv v = q ∧ n.tmod v = r := tdiv_tmod_of_law hv law small sign
  change c = true ↔ v ≠ 0 ∧ src.width.HoldsQuotient signed (n.tdiv v) at hc
  change divideBody signed src s.work = (check c .de >>= fun _ =>
    upd (storeDiv src.width (BitVec.ofInt 32 (n.tdiv v)) (BitVec.ofInt 32 (n.tmod v))) >>= fun _ => freeStatus) w1 at hbody
  rw [hq, hr] at hbody
  have hfits : c = true := by
    refine hc.2 ⟨hv, ?_⟩
    rw [hq, Width.HoldsQuotient]
    split
    · exact hsigned ‹_›
    · exact hunsigned (by simpa using ‹¬signed = true›)
  rw [hfits] at hbody
  obtain ⟨u, e, hfree, hdrawn⟩ :=
    freeStatus_ok { w1 with s := storeDiv src.width (BitVec.ofInt 32 q) (BitVec.ofInt 32 r) w1.s }
  have hstore := storeDiv_same src.width (BitVec.ofInt 32 q) (BitVec.ofInt 32 r) w1.s
  have hflags : (storeDiv src.width (BitVec.ofInt 32 q) (BitVec.ofInt 32 r) w1.s).flags = s.flags :=
    (congrArg State.flags hstore :).trans hreads.acc.state.flags
  have hworld : (storeDiv src.width (BitVec.ofInt 32 q) (BitVec.ofInt 32 r) w1.s).env = w1.s.env :=
    (congrArg State.env hstore :)
  have hdrawn' : Drawn w1.s.env e := by
    rw [← hworld]
    exact hdrawn
  have hwork := hbody.trans hfree
  dsimp only [] at hwork
  rw [hflags] at hwork
  obtain ⟨t, hrun, hends, htgpr, -, hkeeps, hframe⟩ := runWith_stores_ends (repeatable := false) ready hreads.acc_gpr
    hreads.frame hwork (by rw [hstore])
  refine ⟨t, u, e, (exec_div hform).trans hrun, hdrawn', ?_, htgpr.trans (storeDiv_gpr_congr hgpr _ _ _), hkeeps, hframe⟩
  rw [storeDiv_env]
  exact hends

end Divide

/-! ### What an exception leaves of an instruction (60 R278) -/

/-- The bits set in tables change memory and the record of stored bytes alone. -/
theorem replay_same (s : State) (l : List (BitVec 32 × Byte)) : ∃ m p, replay s l = { s with mem := m, prefetch := p } := by
  induction l generalizing s with
  | nil => exact ⟨_, _, rfl⟩
  | cons c t ih =>
    obtain ⟨m, p, h⟩ := ih _
    refine ⟨m, p, h.trans ?_⟩
    unfold State.putByte
    split <;> rfl

/-- After accesses alone, of the registers and of what is pending nothing but the prefixes has changed. -/
theorem rollback_same {s : State} {w : Work} (h : AccessesW s.work w) :
    rollback s w = { s with
      mem := (rollback s w).mem, prefetch := (rollback s w).prefetch, tlb := (rollback s w).tlb, env := (rollback s w).env,
      insn := Insn.empty } := by
  have hcommitted : w.committed = false := (congrArg Work.committed h.same :)
  have hdelivering : w.s.delivering = s.delivering := h.state.delivering
  obtain ⟨m, p, hreplay⟩ := replay_same s w.sticky
  simp only [rollback, hcommitted, Bool.false_eq_true, if_false, hdelivering, hreplay]

/-- Settles O22: where `divideBody_read` stores nothing, the divisor is 0 or the quotient does not fit. -/
theorem divideError : Obligations.DivideError := by
  intro s i signed src hform ready d w1 hread n v lo hi hbad
  have hreads : ReadsW s.work w1 := src.read_reads.ok hread
  have hback := rollback_same hreads.acc
  obtain ⟨c, hc, hbody⟩ := divideBody_read (signed := signed) hread hreads.acc.state.gpr
  change c = true ↔ v ≠ 0 ∧ src.width.HoldsQuotient signed (n.tdiv v) at hc
  have hnot : c = false := by
    rw [← Bool.not_eq_true, hc]
    rintro ⟨hv, hholds⟩
    cases signed with
    | true =>
      obtain ⟨hlow, hhigh⟩ := hholds
      obtain hbad | hbad | hbad := hbad
      · exact hv hbad
      · exact absurd hlow (Int.not_le.2 hbad)
      · exact absurd hhigh (Int.not_lt.2 hbad)
    | false =>
      have hpos : 0 ≤ n.tdiv v := Int.tdiv_nonneg (Int.natCast_nonneg _) (Int.natCast_nonneg _)
      obtain hbad | hbad | hbad := hbad
      · exact hv hbad
      · exact absurd hpos (Int.not_le.2 hbad)
      · exact absurd (show n.tdiv v < 2 ^ src.width.bits from hholds) (Int.not_lt.2 hbad)
  rw [hnot] at hbody
  refine ⟨(exec_div hform).trans (run_raises ready (hbody.trans rfl)), fun hreg => ?_, ?_, ?_, ?_, ?_⟩
  · have hwork := hread.symm.trans (Place.run_of_not_mem s.work hreg).2.1
    cases hwork
    exact rollback_work s
  · rw [hback]
    rfl
  all_goals rw [hback]

end Sys2Proof.Machine
end

section
/-! The obligations about PUSH, PUSHF, POP and POPF (O27, O28). -/

namespace Sys2Proof.Machine

open Sys2Proof

-- One theorem after another, so that no more of them wait for each other than the memory limit has threads for.
set_option Elab.async false

/-! ### PUSH (48 R240, 45 R212, 42 R158) -/

/-- A push changes no byte but those that it stores. -/
theorem push_frame {v : BitVec 32} {n : Nat} {w u : Work} (h : push v n w = .ok () u) (hm : Memory.wf w.s.mem = true) :
    FrameExcept w.s u.s (storedAt w .ss (w.s.pushAddr n) n) := by
  obtain ⟨s, w1, hst, h⟩ := bind_eq_ok.1 h
  cases hst
  obtain ⟨_, w2, hneed, h⟩ := bind_eq_ok.1 h
  obtain ⟨_, rfl⟩ := need_eq_ok.1 hneed
  obtain ⟨_, w3, hwrite, h⟩ := bind_eq_ok.1 h
  cases h
  exact (memWrite_frame hwrite hm).of_mem_eq rfl

/-- The end of a meaning that reads and then pushes. -/
theorem run_pushes_ends {s : State} {v : BitVec 32} {n : Nat} {w1 w : Work} {body : M Unit} (ready : Ready s)
    (hreads : ReadsW s.work w1) (hpush : push v n w1 = .ok () w) (hbody : body s.work = .ok () w) :
    ∃ t, run body s = .next t ∧ Ends s w.s t ∧ t.gpr = (s.setSp (s.pushAddr n)).gpr ∧
      t.flags = { s.flags with rf := false } ∧ KeepsSystem s t ∧
      (Memory.wf s.mem = true → FrameExcept s t (storedAt w1 .ss (s.pushAddr n) n)) := by
  have hpushed := push_pushed hpush
  have hss : w1.s.segs.ss = s.segs.ss := hreads.acc.stack.ss
  have hgpr1 : w1.s.gpr = s.gpr := hreads.acc.state.gpr
  have haddr : w1.s.pushAddr n = s.pushAddr n := State.pushAddr_congr hgpr1 hss n
  have hacc : StacksW s.work w := stacks_rel.trans _ _ _ hreads.acc.stack hpushed.stack
  have hframe (hm : Memory.wf s.mem = true) : FrameExcept s w.s (storedAt w1 .ss (s.pushAddr n) n) := by
    rw [← haddr]
    exact (hreads.frame hm).weaken.trans (push_frame hpush (hreads.acc.state.wf hm)) hreads.acc.state.cr0
  obtain ⟨t, hrun, hends, hgpr, hflags, hrest⟩ :=
    runWith_stores_ends (u := w.s) (repeatable := false) ready hacc hframe hbody rfl
  have hsame : w.s.flags = s.flags := hacc.state.flags
  rw [hsame] at hflags
  refine ⟨t, hrun, hends, (hgpr.trans hpushed.gpr).trans ?_, hflags, hrest⟩
  rw [haddr]
  exact State.setSp_congr hgpr1 hss _

theorem exec_pushSeg {i : Instr} {r : SegReg} (h : pushSegForm i = some r) (s : State) : exec i s = run (pushSegBody r) s := by
  unfold pushSegForm at h
  split at h <;> cases h <;> rfl

theorem os_bytes_eq_four (s : State) : s.os.bytes = 4 ↔ s.os = .w32 := by
  cases s.os <;> decide

/-- The selector is pushed below the upper word that has been drawn for it. -/
theorem pushSegBody_ok {s : State} {r : SegReg} {u : BitVec 16} {w1 w : Work}
    (hdraw : (if s.os = .w32 then draw16 else pure 0#16) s.work = .ok u w1)
    (hpush : push (u ++ (s.seg r).selector) s.os.bytes w1 = .ok () w) : pushSegBody r s.work = .ok () w := by
  refine (bind_of_ok (run_st s.work) _).trans ?_
  have hdraw4 : (if s.os.bytes = 4 then draw16 else pure 0#16) s.work = .ok u w1 := by
    simp only [os_bytes_eq_four]
    exact hdraw
  have hsel : pushSel (s.seg r).selector s.os.bytes s.work = .ok () w := by
    unfold pushSel
    rw [← hpush]
    cases hos : s.os <;> rw [hos] at hdraw4 <;> exact bind_of_ok hdraw4 _
  exact hsel

/-- Settles O27: one push, of a segment register's selector after the draw of its upper word (`run_pushes_ends`). -/
theorem pushCompletes : Obligations.PushCompletes := by
  refine ⟨fun s i v hform ready w hpush => ?_, fun s i r hform ready u w1 w hdraw hpush => ?_⟩
  · have hexec : exec i s = run (push v s.os.bytes) s := by
      obtain ⟨r, rfl, rfl⟩ | ⟨rfl, rfl⟩ := hform <;> rfl
    rw [hexec]
    exact run_pushes_ends ready (reads_rel.refl _) hpush hpush
  · have hreads : Within ReadsW (if s.os = .w32 then draw16 else pure 0#16) :=
      within_ite draw16_reads (within_pure reads_rel _)
    rw [exec_pushSeg hform]
    exact run_pushes_ends ready (hreads.ok hdraw) hpush (pushSegBody_ok hdraw hpush)

/-! ### POP (48 R241, 45 R213) -/

section Pop

variable {s : State} {v : BitVec 32} {w : Work}

/-- The stack pointer of before a POP, moved up. -/
def State.afterPop (s : State) : BitVec 32 := s.stackSize.add s.sp (BitVec.ofNat 32 s.os.bytes)

theorem pop_ok (hread : stackRead 0 s.os.bytes s.work = .ok v w) :
    pop s.os.bytes s.work = .ok v { w with s := w.s.setSp s.afterPop } := by
  have hacc := (stackRead_reads 0 s.os.bytes).ok hread
  have hss : w.s.segs.ss = s.segs.ss := hacc.acc.stack.ss
  have hsp : w.s.stackSize.add w.s.sp (BitVec.ofNat 32 s.os.bytes) = s.afterPop := by
    rw [State.stackSize_congr hss, State.sp_congr (s := s) hacc.acc.state.gpr hss, State.afterPop]
  refine (bind_of_ok hread _).trans ?_
  change EStateM.Result.ok v { w with s := w.s.setSp (w.s.stackSize.add w.s.sp (BitVec.ofNat 32 s.os.bytes)) } = _
  rw [hsp]

/-- POP of a general register: the register is written after the stack pointer. -/
theorem popR_ends (ready : Ready s) (r : Reg) (hread : stackRead 0 s.os.bytes s.work = .ok v w) :
    ∃ t, exec (.popR r) s = .next t ∧ Ends s ((w.s.setSp s.afterPop).setRegv s.os r v) t ∧
      t.gpr = ((s.setSp s.afterPop).setRegv s.os r v).gpr ∧ t.flags = { s.flags with rf := false } ∧ KeepsSystem s t ∧
      (Memory.wf s.mem = true → FrameExcept s t []) := by
  have hreads := (stackRead_reads 0 s.os.bytes).ok hread
  have hss : w.s.segs.ss = s.segs.ss := hreads.acc.stack.ss
  obtain ⟨t, hrun, hends, hgpr, hrest⟩ := run_reads_ends (u := (w.s.setSp s.afterPop).setRegv s.os r v) ready hreads
    (bind_of_ok (pop_ok hread) (Place.reg s.os r).write) rfl
  exact ⟨t, hrun, hends, hgpr.trans (Place.set_gpr_congr (.reg s.os r)
    (State.setSp_congr hreads.acc.state.gpr hss s.afterPop) v), hrest⟩

/-- The end of an instruction that goes on to the next one and keeps RF (61 R327). -/
theorem finish_next_keepRf {u : State} {w : Work} (hw : w.waiting = false) (hj : w.jumped = false) (hr : w.repeating = false)
    (hk : w.keepRf = true) (room : w.s.eip.toNat + w.s.insn.len < 2 ^ 32) (hu : w.s = { u with flags := w.s.flags }) :
    ∃ v, finish s w = .ok () v ∧ (endStep v.s).flags = w.s.flags ∧
      EndsAt s u w.s.nextEip { endStep v.s with flags := { u.flags with rf := false } } := by
  obtain ⟨pd, ld, e, htraps, hdrawn, -⟩ := collectTraps_ok s.flags.tf (bit s.dr7 8 || bit s.dr7 9)
    { w with s := { w.s with eip := w.s.nextEip } }
  refine ⟨{ w with s := { w.s with eip := w.s.nextEip, pendingDbg := pd, lateDbg := ld, env := e } }, ?_, rfl, ?_, ?_⟩
  · simpa [finish, hw, hj, hr, hk, eipNext_ok room] using htraps
  · rw [hu]
    rfl
  · have henv : w.s.env = u.env := (congrArg State.env hu :)
    rw [← henv]
    exact hdrawn

/-- The flags that POPF makes of the image `v` (45 R213). -/
def State.poppedFlags (s : State) (v : BitVec 32) : Flags :=
  { Flags.ofBits v with
    iopl := if s.cr0.pe = false ∨ s.cpl = 0 then v.extractLsb' 12 2 else s.flags.iopl
    if_ := if s.cr0.pe = false ∨ s.cpl.toNat ≤ s.flags.iopl.toNat then bit v 9 else s.flags.if_
    rf := if s.os = .w32 then bit v 16 else s.flags.rf
    vm := s.flags.vm }

theorem loadFlags_popped (s : State) (v : BitVec 32) :
    loadFlags v s.os s.cr0.pe s.cpl s.flags.iopl s.flags = s.poppedFlags v := by
  cases hpe : s.cr0.pe <;> cases hos : s.os <;> simp [loadFlags, State.poppedFlags, Flags.ofBits, BitVec.ule, hpe, hos]

/-- What POPF makes of the state before its end: the stack pointer moved up and the flags loaded. -/
theorem popf_ends (ready : Ready s) (hread : stackRead 0 s.os.bytes s.work = .ok v w) :
    ∃ t, exec .popf s = .next t ∧ t.flags = s.poppedFlags v ∧
      Ends s (w.s.setSp s.afterPop) { t with flags := { s.flags with rf := false } } ∧
      t.gpr = (s.setSp s.afterPop).gpr ∧ KeepsSystem s t ∧ (Memory.wf s.mem = true → FrameExcept s t []) := by
  have hreads := (stackRead_reads 0 s.os.bytes).ok hread
  have hstate := hreads.acc.state
  have hsame := hreads.acc.same
  have hflags : w.s.flags = s.flags := hstate.flags
  let u := w.s.setSp s.afterPop
  let w' : Work := { w with s := { u with flags := s.poppedFlags v }, keepRf := true }
  have hbody : (pop s.os.bytes >>= fun v =>
      upd (fun t => { t with flags := loadFlags v s.os s.cr0.pe s.cpl s.flags.iopl t.flags }) >>= fun _ =>
        mark fun w => { w with keepRf := true }) s.work = .ok () w' := by
    refine (bind_of_ok (pop_ok hread) _).trans ?_
    change EStateM.Result.ok () { w with
      s := { u with flags := loadFlags v s.os s.cr0.pe s.cpl s.flags.iopl w.s.flags }, keepRf := true } = _
    rw [hflags, loadFlags_popped]
  have hnext : w'.s.nextEip = s.nextEip :=
    congrArg₂ (fun e (p : Insn) => e + BitVec.ofNat 32 p.len) hstate.eip hstate.insn
  obtain ⟨x, hfinish, hloaded, hends⟩ := finish_next_keepRf (s := s) (u := u) (w := w') (congrArg Work.waiting hsame :)
    (congrArg Work.jumped hsame :) (congrArg Work.repeating hsame :) rfl
    (by rw [show w'.s.eip = s.eip from hstate.eip, show w'.s.insn = s.insn from hstate.insn]; exact ready.room) rfl
  rw [hnext, show u.flags = s.flags from hflags] at hends
  have hkeeps := Ends.keepsSystem hends (hstate.keepsSystem_of rfl)
  refine ⟨endStep x.s, runWith_ok ready hbody hfinish, hloaded, hends, ?_, ?_, fun hm => ?_⟩
  · exact (Ends.gpr hends).trans (State.setSp_congr hstate.gpr hreads.acc.stack.ss _)
  · exact congrArg (fun y : State => { y with flags := x.s.flags }) hkeeps
  · exact (hreads.frame hm).of_mem_eq (Ends.mem hends :)

end Pop

/-- Settles O28: `popR_ends` and `popf_ends`. -/
theorem popCompletes : Obligations.PopCompletes :=
  ⟨fun _ r ready _ _ hread => popR_ends ready r hread, fun _ ready _ _ hread => popf_ends ready hread⟩

end Sys2Proof.Machine
end

section
/-! The obligations about encoded words, NOP, the direction flag and the element of MOVS (O5, O29, O30, O33). -/

namespace Sys2Proof.Machine

open Sys2Proof

-- One theorem after another, so that no more of them wait for each other than the memory limit has threads for.
set_option Elab.async false

/-- Settles O5: the decoder runs on each of the eight words. -/
theorem decodeWords : Obligations.DecodeWords := ⟨rfl, rfl, rfl, rfl, rfl, rfl, rfl, rfl⟩

/-! ### NOP (48 R235) -/

/-- A register that takes its own value keeps it. -/
theorem State.setReg_reg (s : State) (r : Reg) : s.setReg r (s.reg r) = s := by
  cases r <;> rfl

theorem State.setRegv_regv (s : State) (z : Size) (r : Reg) : s.setRegv z r (s.regv z r) = s := by
  rw [State.setRegv, State.regv, Size.merge_of_trunc, Size.merge_self, State.setReg_reg]

theorem exec_nop {s : State} (ready : Ready s) : exec .nop s = .next (s.completed s) :=
  run_completes (body := pure ()) ready rfl

/-- The exchange of a register with itself writes it twice with its own value. -/
theorem exec_xchg_eax {s : State} (ready : Ready s) : exec (.xchgEaxR .eax) s = .next (s.completed s) := by
  refine run_completes (body := xchgBody (.reg s.os .eax) (.reg s.os .eax)) ready ?_
  have hbody := xchgBody_ok (s := s) (reg := .reg s.os .eax) (dst := .reg s.os .eax) (w1 := s.work) (w2 := s.work) rfl rfl rfl rfl
    rfl
  refine hbody.trans ?_
  change EStateM.Result.ok () { s.work with
    s := (s.setRegv s.os .eax (s.regv s.os .eax)).setRegv s.os .eax (s.regv s.os .eax) } = _
  rw [State.setRegv_regv, State.setRegv_regv]

/-- Settles O29: at every operand and address size one byte; no part of the meaning changes anything. -/
theorem nopDoesNothing : Obligations.NopDoesNothing := by
  refine ⟨fun os as => ?_, fun s ready => ⟨exec_nop ready, (exec_xchg_eax ready).trans (exec_nop ready).symm⟩⟩
  cases os <;> cases as <;> exact ⟨rfl, rfl⟩

/-! ### The direction flag (48 R266, R267) -/

theorem Size.trunc_add (z : Size) (a b : BitVec 32) : z.trunc (z.add a b) = z.add a b := Size.trunc_idem z (a + b)

/-- Settles O30: one change of DF and nothing else, and the step that the sign of `n` by DF gives. -/
theorem directionFlag : Obligations.DirectionFlag := by
  refine ⟨fun os as => ?_, fun s ready => ⟨?_, ?_⟩, fun s r n => ?_⟩
  · cases os <;> cases as <;> exact ⟨rfl, rfl⟩
  · exact run_completes (body := upd fun t => { t with flags := { t.flags with df := false } }) ready rfl
  · exact run_completes (body := upd fun t => { t with flags := { t.flags with df := true } }) ready rfl
  · exact (State.regv_setRegv s s.as r _).trans (Size.trunc_add s.as _ _)

/-! ### The element of MOVS (48 R268) -/

/-- In plain memory the element is one store of what the source holds, and the steps of both indexes. -/
theorem movsElement_flat {w : Work} {n : Nat} (hn : 1 ≤ n) (hn4 : n ≤ 4)
    (hsrc : FlatAccess w.s (w.s.dataSeg .ds) (w.s.index .esi) n false) (hdst : FlatAccess w.s .es (w.s.index .edi) n true) :
    movsElement n w = .ok () { w with s := ((w.s.store (w.s.segs.es.base + w.s.index .edi) n
      (w.s.valueAt ((w.s.seg (w.s.dataSeg .ds)).base + w.s.index .esi) n)).stepIndex .esi n).stepIndex .edi n } := by
  have hread := flatRead w (w.s.dataSeg .ds) (w.s.index .esi) n hn hn4 hsrc
  have hwrite := hdst.dataWrite hn (w.s.valueAt ((w.s.seg (w.s.dataSeg .ds)).base + w.s.index .esi) n)
  rw [storeAt_span] at hwrite
  have hwritten := (bind_of_ok (segCheck_ok hdst.segment) fun la => dataWrite la n _).trans hwrite
  have hprobe : memProbe .es (w.s.index .edi) n true w = .ok () w := by
    rw [memProbe, bind_of_ok (run_st w), bind_of_ok (segCheck_ok hdst.segment)]
    exact linProbe_flat hdst.paging _ _ _ _
  rw [movsElement, bind_of_ok (run_st w), bind_of_ok hprobe, bind_of_ok hread]
  exact bind_of_ok hwritten _

/-- Settles O33: the element's bytes are those of the source before the store, and no other byte is stored. -/
theorem movsElementCopies : Obligations.MovsElement := by
  intro s n hn hm hsrc hdst src dst
  have hn4 : n ≤ 4 := by omega
  obtain ⟨m, l, hstore⟩ := s.store_same dst n (s.valueAt src n)
  refine ⟨_, movsElement_flat (w := s.work) (by omega) hn4 hsrc hdst, ?_, ?_, ?_, ?_, fun j hj => ?_, fun a ha => ?_⟩
  case refine_5 =>
    have hvalue : toBytes n (s.valueAt src n) = (span src n).map s.byteAt :=
      toBytes_ofBytes (by rw [List.length_map, length_span]) hn4
    have hbytes := (State.map_byteAt_store hm dst (by omega : n ≤ 2 ^ 32) (s.valueAt src n)).trans hvalue
    rw [span, span, List.map_map, List.map_map] at hbytes
    exact List.map_inj_left.1 hbytes j (List.mem_range.2 hj)
  case refine_6 => exact State.byteAt_store_other hm ha
  all_goals
    simp only [State.work, Work.start]
    rw [hstore]
    rfl

end Sys2Proof.Machine
end

section
/-! The obligations about near JMP, CALL and RET (O37, O39). -/

namespace Sys2Proof.Machine

open Sys2Proof

-- One theorem after another, so that no more of them wait for each other than the memory limit has threads for.
set_option Elab.async false

/-! ### Coming to the end -/

/-- The prefixes of an instruction are in order and its meaning stops. -/
theorem run_stops {s : State} {body : M Unit} {x : Stop} {w : Work} (hp : prefixesOk false false s.work = .ok () s.work)
    (hbody : body s.work = .error x w) : run body s = settle s (.error x w) := by
  rw [run, runWith_eq hp, bind_of_error hbody]

/-- The end of a near transfer: what the accesses and the stack pointer's move have left, at the target. -/
theorem run_jumps_ends {s : State} {v : Work} {target : BitVec 32} {body : M Unit} {stored : List (BitVec 32)} (ready : Ready s)
    (hacc : StacksW s.work v) (hframe : Memory.wf s.mem = true → FrameExcept s v.s stored)
    (hbody : body s.work = .ok () (v.jumpedTo target)) :
    ∃ t, run body s = .next t ∧ EndsAt s { v.s with prefetch := Prefetch.empty } target t ∧ t.gpr = v.s.gpr ∧
      t.flags = { s.flags with rf := false } ∧ KeepsSystem s t ∧ (Memory.wf s.mem = true → FrameExcept s t stored) := by
  have hsame := hacc.same
  obtain ⟨t, hrun, hends, -⟩ := runWith_jumps (repeatable := false) ready hbody (congrArg Work.waiting hsame :) rfl
    (congrArg Work.repeating hsame :) (congrArg Work.keepRf hsame :)
  have hend : EndsAt s { v.s with prefetch := Prefetch.empty } target t := hends
  have hflags : v.s.flags = s.flags := hacc.state.flags
  have hkept : KeepsSystem s v.s := hacc.state.keepsSystem_of rfl
  have hkeeps : KeepsSystem s { v.s with prefetch := Prefetch.empty } :=
    (congrArg (fun x : State => { x with prefetch := Prefetch.empty }) hkept :)
  refine ⟨t, hrun, hend, hend.gpr, hend.flags.trans (by rw [hflags]), ?_, fun hm => (hframe hm).of_mem_eq hend.mem⟩
  have hwhole := hend.1
  rw [show ({ v.s with prefetch := Prefetch.empty } : State) = _ from hkeeps] at hwhole
  rw [hwhole]
  rfl

/-! ### The target (48 R270) -/

theorem checkTarget_within {target : BitVec 32} {w : Work} (h : target.toNat ≤ w.s.segs.cs.limit.toNat) :
    checkTarget target w = .ok () w :=
  (bind_of_ok (run_st w) _).trans (check_ok (by rw [BitVec.ule_eq_decide]; exact decide_eq_true h) _ w)

theorem checkTarget_beyond {target : BitVec 32} {w : Work} (h : w.s.segs.cs.limit.toNat < target.toNat) :
    checkTarget target w = .error (.exc (.gp 0)) w :=
  (bind_of_ok (run_st w) _).trans (check_raises (by rw [BitVec.ule_eq_decide]; simpa using h) _ w)

/-- The meaning of a near transfer whose target is read from an operand: the operand, then the transfer. -/
def viaOperand (near : BitVec 32 → M Unit) (rm : RM Reg) : M Unit :=
  st >>= fun s => (placev s s.os rm).read >>= near

theorem viaOperand_read {near : BitVec 32 → M Unit} {rm : RM Reg} {w w1 : Work} {v : BitVec 32}
    (hread : (placev w.s w.s.os rm).read w = .ok v w1) : viaOperand near rm w = near v w1 :=
  (bind_of_ok (run_st w) _).trans (bind_of_ok hread near)

/-! ### JMP (48 R271) -/

/-- In its relative forms and its register form JMP is a jump to its target. -/
theorem exec_jmp {s : State} {i : Instr} {target : BitVec 32} (h : jumpTarget s i = some target) :
    ∃ body, exec i s = run body s ∧ body s.work = jmpNear target s.work := by
  cases i with
  | jmpRel8 rel =>
    cases h
    exact ⟨jmpRelBody (sext8 rel), rfl, rfl⟩
  | jmpRel rel =>
    cases h
    exact ⟨jmpRelBody (s.os.sext rel), rfl, rfl⟩
  | jmpRm rm =>
    cases rm with
    | reg r =>
      cases h
      exact ⟨viaOperand jmpNear (.reg r), rfl, viaOperand_read (w := s.work) rfl⟩
    | mem m => cases h
  | _ => cases h

/-- Settles O37: the limit check, then the jump (`jmpNear_within`, `jmpNear_beyond`). -/
theorem jumpNear : Obligations.JumpNear := by
  refine ⟨fun s i target hform ready => ?direct, fun s m ready v w hread => ?memory⟩
  case direct =>
    obtain ⟨body, hexec, hbody⟩ := exec_jmp hform
    rw [hexec]
    refine ⟨fun hle => ?_, fun hlt => run_raises ready (hbody.trans (jmpNear_beyond hlt))⟩
    obtain ⟨t, hrun, -, hend⟩ := runWith_jumps (repeatable := false) ready
      (hbody.trans (jmpNear_within (w := s.work) hle)) rfl rfl rfl rfl
    exact hrun.trans (congrArg _ (hend rfl rfl))
  case memory =>
    have hreads : ReadsW s.work w := (Place.read_reads _).ok hread
    have hbody : viaOperand jmpNear (.mem m) s.work = jmpNear v w := viaOperand_read (w := s.work) hread
    have hlimit : w.s.segs.cs.limit = s.segs.cs.limit := congrArg (fun g => g.cs.limit) hreads.acc.state.segs
    rw [← hlimit]
    refine ⟨fun hle => ?_, fun hlt => run_raises ready (hbody.trans (jmpNear_beyond hlt))⟩
    obtain ⟨t, hrun, hends, hgpr, hrest⟩ :=
      run_jumps_ends ready hreads.acc_gpr hreads.frame (hbody.trans (jmpNear_within hle))
    exact ⟨t, hrun, hends, hgpr.trans hreads.acc.state.gpr, hrest⟩

/-! ### CALL (48 R273) -/

/-- In its relative form and its register form CALL is a call of its target. -/
theorem exec_call {s : State} {i : Instr} {target : BitVec 32} (h : callTarget s i = some target) :
    ∃ body, exec i s = run body s ∧ body s.work = callNear target s.work := by
  cases i with
  | callRel rel =>
    cases h
    exact ⟨relTarget (s.os.sext rel) >>= callNear, rfl, rfl⟩
  | callRm rm =>
    cases rm with
    | reg r =>
      cases h
      exact ⟨viaOperand callNear (.reg r), rfl, viaOperand_read (w := s.work) rfl⟩
    | mem m => cases h
  | _ => cases h

section Call

variable {s : State} {target : BitVec 32} {w0 : Work} (hreads : ReadsW s.work w0)
include hreads

theorem callNear_beyond (h : s.segs.cs.limit.toNat < target.toNat) :
    callNear target w0 = .error (.exc (.gp 0)) w0 := by
  have hsegs : w0.s.segs = s.segs := hreads.acc.state.segs
  exact bind_of_error (checkTarget_beyond (by rwa [hsegs])) _

/-- Within the limit the offset after the instruction is pushed before anything else. -/
theorem callNear_within (h : target.toNat ≤ s.segs.cs.limit.toNat) :
    callNear target w0 = (push s.nextEip s.os.bytes >>= fun _ => jumpTo target >>= fun _ => needNext w0.s) w0 := by
  have hsegs : w0.s.segs = s.segs := hreads.acc.state.segs
  have hnext : w0.s.nextEip = s.nextEip := hreads.acc.state.nextEip
  have hos : w0.s.os = s.os := hreads.acc.state.os
  refine (bind_of_ok (checkTarget_within (by rwa [hsegs])) _).trans ((bind_of_ok (run_st w0) _).trans ?_)
  rw [hnext, hos]

theorem callNear_pushed (h : target.toNat ≤ s.segs.cs.limit.toNat) {w : Work}
    (hpush : push s.nextEip s.os.bytes w0 = .ok () w) :
    callNear target w0 = needNext w0.s (w.jumpedTo target) :=
  (callNear_within hreads h).trans (bind_of_ok hpush _)

theorem callNear_raises (h : target.toNat ≤ s.segs.cs.limit.toNat) {w : Work} {x : Stop}
    (hpush : push s.nextEip s.os.bytes w0 = .error x w) : callNear target w0 = .error x w :=
  (callNear_within hreads h).trans (bind_of_error hpush _)

/-- A call that goes through. -/
theorem run_call_ends (ready : Ready s) {body : M Unit} (hbody : body s.work = callNear target w0)
    (h : target.toNat ≤ s.segs.cs.limit.toNat) {w : Work} (hpush : push s.nextEip s.os.bytes w0 = .ok () w) :
    ∃ t, run body s = .next t ∧ EndsAt s { w.s with prefetch := Prefetch.empty } target t ∧
      t.gpr = (s.setSp (s.pushAddr s.os.bytes)).gpr ∧ t.flags = { s.flags with rf := false } ∧ KeepsSystem s t ∧
      (Memory.wf s.mem = true → FrameExcept s t (storedAt w0 .ss (s.pushAddr s.os.bytes) s.os.bytes)) := by
  have hpushed := push_pushed hpush
  have hss : w0.s.segs.ss = s.segs.ss := hreads.acc.stack.ss
  have hgpr : w0.s.gpr = s.gpr := hreads.acc.state.gpr
  have haddr : w0.s.pushAddr s.os.bytes = s.pushAddr s.os.bytes := State.pushAddr_congr hgpr hss _
  have hframe (hm : Memory.wf s.mem = true) : FrameExcept s w.s (storedAt w0 .ss (s.pushAddr s.os.bytes) s.os.bytes) := by
    rw [← haddr]
    exact (hreads.frame hm).weaken.trans (push_frame hpush (hreads.acc.state.wf hm)) hreads.acc.state.cr0
  have hroom : w0.s.eip.toNat + w0.s.insn.len < 2 ^ 32 := by
    rw [show w0.s.eip = s.eip from hreads.acc.state.eip, show w0.s.insn = s.insn from hreads.acc.state.insn]
    exact ready.room
  have hjumped : body s.work = .ok () (w.jumpedTo target) :=
    hbody.trans ((callNear_pushed hreads h hpush).trans (needNext_ok hroom _))
  obtain ⟨t, hrun, hends, htgpr, hrest⟩ :=
    run_jumps_ends ready (stacks_rel.trans _ _ _ hreads.acc.stack hpushed.stack) hframe hjumped
  refine ⟨t, hrun, hends, (htgpr.trans hpushed.gpr).trans ?_, hrest⟩
  rw [haddr]
  exact State.setSp_congr hgpr hss _

/-- A call that ends at offset FFFFFFFFH: what its push raises, else a refusal (93 U39). -/
theorem run_call_past (past : EndsPast s) {body : M Unit} (hbody : body s.work = callNear target w0)
    (h : target.toNat ≤ s.segs.cs.limit.toNat) :
    (∀ e w, push s.nextEip s.os.bytes w0 = .error (.exc e) w → run body s = raiseExc 6 (rollback s w) e) ∧
      ∀ w, push s.nextEip s.os.bytes w0 = .ok () w → run body s = .refused .eipWrap := by
  have hp : prefixesOk false false s.work = .ok () s.work := prefixesOk_endsPast past
  have hpast : 2 ^ 32 ≤ w0.s.eip.toNat + w0.s.insn.len := by
    rw [show w0.s.eip = s.eip from hreads.acc.state.eip, show w0.s.insn = s.insn from hreads.acc.state.insn]
    exact past.past
  exact ⟨fun e w hpush => run_stops hp (hbody.trans (callNear_raises hreads h hpush)),
    fun w hpush => run_stops hp (hbody.trans ((callNear_pushed hreads h hpush).trans (needNext_past hpast _)))⟩

end Call

/-! ### RET (48 R274) -/

theorem exec_ret {s : State} {i : Instr} {count : BitVec 16} (h : (i = .ret ∧ count = 0) ∨ i = .retImm16 count) :
    exec i s = run (retBody count) s := by
  obtain ⟨rfl, rfl⟩ | rfl := h <;> rfl

/-- After its read a return checks the target, then releases the stack and jumps. -/
theorem retBody_read {s : State} {count : BitVec 16} {v : BitVec 32} {w : Work}
    (hread : stackRead 0 s.os.bytes s.work = .ok v w) : retBody count s.work = (checkTarget v >>= fun _ =>
      stackDrop (BitVec.ofNat 32 s.os.bytes + count.setWidth 32) >>= fun _ => jumpTo v) w :=
  (bind_of_ok (run_st s.work) _).trans (bind_of_ok hread _)

theorem run_ret {s : State} (ready : Ready s) (count : BitVec 16) {v : BitVec 32} {w : Work}
    (hread : stackRead 0 s.os.bytes s.work = .ok v w) :
    let k := BitVec.ofNat 32 s.os.bytes + count.setWidth 32
    (v.toNat ≤ s.segs.cs.limit.toNat → ∃ t, run (retBody count) s = .next t ∧
      EndsAt s { w.s.setSp (s.stackSize.add s.sp k) with prefetch := Prefetch.empty } v t ∧
      t.gpr = (s.setSp (s.stackSize.add s.sp k)).gpr ∧ t.flags = { s.flags with rf := false } ∧ KeepsSystem s t ∧
      (Memory.wf s.mem = true → FrameExcept s t [])) ∧
    (s.segs.cs.limit.toNat < v.toNat → run (retBody count) s = raiseExc 6 (rollback s w) (.gp 0)) := by
  intro k
  have hreads : ReadsW s.work w := (stackRead_reads 0 s.os.bytes).ok hread
  have hss : w.s.segs.ss = s.segs.ss := hreads.acc.stack.ss
  have hsegs : w.s.segs = s.segs := hreads.acc.state.segs
  have hgpr : w.s.gpr = s.gpr := hreads.acc.state.gpr
  have hread := retBody_read (count := count) hread
  rw [← hsegs]
  refine ⟨fun hle => ?_, fun hlt => run_raises ready (hread.trans (bind_of_error (checkTarget_beyond hlt) _))⟩
  have hsp : w.s.stackSize.add w.s.sp k = s.stackSize.add s.sp k := by
    rw [State.stackSize_congr hss, State.sp_congr hgpr hss]
  have hbody : retBody count s.work =
      .ok () (Work.jumpedTo { w with s := w.s.setSp (s.stackSize.add s.sp k) } v) := by
    refine hread.trans ((bind_of_ok (checkTarget_within hle) _).trans ?_)
    rw [← hsp]
    rfl
  obtain ⟨t, hrun, hends, htgpr, hrest⟩ := run_jumps_ends ready
    (v := { w with s := w.s.setSp (s.stackSize.add s.sp k) }) hreads.acc_gpr
    (fun hm => (hreads.frame hm).of_mem_eq rfl) hbody
  exact ⟨t, hrun, hends, htgpr.trans (State.setSp_congr hgpr hss _), hrest⟩

/-- Settles O39: the calls by `run_call_ends` and `run_call_past`, the returns by `run_ret`. -/
theorem callRet : Obligations.CallRet := by
  have operand {s : State} {m : Mem} {v : BitVec 32} {w : Work} (hread : (placev s s.os (.mem m)).read s.work = .ok v w) :
      viaOperand callNear (.mem m) s.work = callNear v w := viaOperand_read (w := s.work) hread
  refine ⟨fun s i target hform ready => ?direct, fun s i target hform past hle => ?past,
    fun s m past v w1 hread hle => ?memoryPast, fun s m ready v w1 hread => ?memory, fun s i count hform ready v w hread => ?ret⟩
  case direct =>
    obtain ⟨body, hexec, hbody⟩ := exec_call hform
    rw [hexec]
    exact ⟨fun hlt => run_raises ready (hbody.trans (callNear_beyond (reads_rel.refl _) hlt)),
      fun hle w hpush => run_call_ends (reads_rel.refl _) ready hbody hle hpush⟩
  case past =>
    obtain ⟨body, hexec, hbody⟩ := exec_call hform
    rw [hexec]
    exact run_call_past (reads_rel.refl _) past hbody hle
  case memoryPast => exact run_call_past ((Place.read_reads _).ok hread) past (operand hread) hle
  case memory =>
    have hreads : ReadsW s.work w1 := (Place.read_reads _).ok hread
    exact ⟨fun hlt => run_raises ready ((operand hread).trans (callNear_beyond hreads hlt)),
      fun hle w hpush => run_call_ends hreads ready (operand hread) hle hpush⟩
  case ret =>
    rw [exec_ret hform]
    exact run_ret ready count hread

end Sys2Proof.Machine
end

section
/-! What a delivery keeps of what an exception has noted before it: CR2 and DR6 (60 R312; 61 R323). -/

namespace Sys2Proof.Machine

open Sys2Proof

-- One theorem after another, so that no more of them wait for each other than the memory limit has threads for.
set_option Elab.async false

/-- CR2 and DR6 are as before. -/
structure NotesW (w v : Work) : Prop where
  cr2 : v.s.cr2 = w.s.cr2
  dr6 : v.s.dr6 = w.s.dr6

theorem notes_rel : StepRel NotesW where
  refl _ := ⟨rfl, rfl⟩
  trans _ _ _ h1 h2 := ⟨h2.cr2.trans h1.cr2, h2.dr6.trans h1.dr6⟩

/-! ### Parts of a meaning -/

/-- `m` keeps what has been noted, whether it ends well or not. -/
def Notes {α : Type} (m : M α) : Prop := Within NotesW m

section Notes

variable {α β : Type}

theorem Within.notes {m : M α} (h : Within AccessesW m) : Notes m := fun w => ⟨(h w).state.cr2, (h w).state.dr6⟩

theorem Notes.pure {a : α} : Notes (pure a : M α) := within_pure notes_rel a

theorem Notes.bind {x : M α} {f : α → M β} (hx : Notes x) (hf : ∀ a, Notes (f a)) : Notes (x >>= f) :=
  within_bind notes_rel hx hf

theorem Notes.ite {c : Prop} [Decidable c] {x y : M α} (hx : Notes x) (hy : Notes y) : Notes (if c then x else y) :=
  within_ite hx hy

theorem Notes.st : Notes st := within_st notes_rel

theorem Notes.get : Notes (get : M Work) := within_get notes_rel

theorem Notes.upd {f : State → State} (hcr2 : ∀ s, (f s).cr2 = s.cr2 := by intro _; rfl)
    (hdr6 : ∀ s, (f s).dr6 = s.dr6 := by intro _; rfl) : Notes (upd f) := fun w => ⟨hcr2 w.s, hdr6 w.s⟩

theorem Notes.mark {f : Work → Work} (h : ∀ w, (f w).s = w.s := by intro _; rfl) : Notes (mark f) :=
  within_mark fun w => ⟨congrArg State.cr2 (h w), congrArg State.dr6 (h w)⟩

theorem Notes.check {c : Bool} {e : Exc} : Notes (check c e) := within_check notes_rel c e

theorem Notes.need {c : Bool} {r : Refusal} : Notes (need c r) := within_need notes_rel c r

theorem Notes.shutdown : Notes (shutdown : M α) := fun w => notes_rel.refl w

theorem Notes.checkSel {c : Bool} {k : CodeExc} {sel : BitVec 16} : Notes (checkSel c k sel) := (checkSel_accesses c k sel).notes

theorem Notes.raiseFirst (l : List (Option Exc)) : Notes (raiseFirst l) := by
  induction l with
  | nil => exact .pure
  | cons o t ih =>
    cases o with
    | none => exact ih
    | some e => exact within_raise notes_rel e

end Notes

/-! ### The stack and CS -/

theorem push_notes (v : BitVec 32) (n : Nat) : Notes (push v n) :=
  .bind .st fun _ => .bind .need fun _ => .bind (memWrite_accesses _ _ _ _).notes fun _ => .upd

theorem pushSel_notes (sel : BitVec 16) (n : Nat) : Notes (pushSel sel n) :=
  .bind (.ite draw16_accesses.notes .pure) fun _ => push_notes _ _

theorem pushErr_notes (err : ErrCode) : Notes (pushErr err) := by
  cases err with
  | none => exact .pure
  | word c => exact .bind draw16_accesses.notes fun _ => push_notes _ _
  | page c => exact .bind draw_accesses.notes fun _ => push_notes _ _

theorem loadCs_notes (sel : BitVec 16) (pl : BitVec 2) (d : Desc) (eip : BitVec 32) : Notes (loadCs sel pl d eip) :=
  .bind (setAccessed_accesses sel d).notes fun _ => .bind .upd fun _ => .mark

theorem loadCsReal_notes (sel : BitVec 16) (eip : BitVec 32) : Notes (loadCsReal sel eip) :=
  .bind .upd fun _ => .bind .upd fun _ => .mark

theorem enterStack_notes (npl : BitVec 2) (d : Desc) (nss : BitVec 16) (nesp : BitVec 32) : Notes (enterStack npl d nss nesp) :=
  .bind (setAccessed_accesses nss d).notes fun _ => .bind .upd fun _ => .upd

/-! ### The task switch (44 R192) -/

theorem TaskItem.load_notes (kind : SwitchKind) (v : BitVec 32) (i : TaskItem) : Notes (i.load kind v) := by
  cases i with
  | flags => exact .bind .need fun _ => .upd
  | ldt | eip | gpr r | sel r =>
    rw [TaskItem.load]
    exact .upd

theorem loadItem_notes (kind : SwitchKind) (i : TaskItem) : Notes (loadItem kind i) := by
  refine .bind .st fun _ => .bind (within_attempt (linRead_accesses _ _ _).notes) fun r => ?_
  cases r with
  | ok v => exact .bind (i.load_notes kind v) fun _ => .pure
  | error e => exact .bind draw_accesses.notes fun _ => .bind (i.load_notes kind _) fun _ => .pure

theorem switchDirectory_notes : Notes switchDirectory := by
  refine .bind .st fun _ => .ite (.bind (within_attempt (linRead_accesses _ _ _).notes) fun r => ?_) .pure
  cases r with
  | ok v => exact .bind .upd fun _ => .pure
  | error e => exact .pure

theorem loadTask_notes (kind : SwitchKind) : Notes (loadTask kind) :=
  .bind .upd fun _ => .bind switchDirectory_notes fun _ =>
    .bind (within_gather notes_rel (loadItem_notes kind) _) fun _ => .raiseFirst _

theorem loadTaskLdt_notes : Notes loadTaskLdt :=
  .bind .st fun _ => .ite .pure <| .bind .checkSel fun _ => .bind (fetchDesc_accesses _ _).notes fun _ =>
    .bind .checkSel fun _ => .bind .checkSel fun _ => .upd

theorem loadTaskCs_notes : Notes loadTaskCs :=
  .bind .st fun _ => .bind .checkSel fun _ => .bind (fetchDesc_accesses _ _).notes fun _ => .bind .checkSel fun _ =>
    .bind .checkSel fun _ => .bind .checkSel fun _ => .bind .checkSel fun _ =>
        .bind (setAccessed_accesses _ _).notes fun _ => .upd

theorem loadTaskSs_notes : Notes loadTaskSs :=
  .bind .st fun _ => .bind .checkSel fun _ => .bind (fetchDesc_accesses _ _).notes fun _ => .bind .checkSel fun _ =>
    .bind .checkSel fun _ => .bind .checkSel fun _ => .bind .checkSel fun _ =>
        .bind (setAccessed_accesses _ _).notes fun _ => .upd

theorem loadTaskData_notes (r : SegReg) : Notes (loadTaskData r) :=
  .bind .st fun _ => .ite .pure <| .bind (fetchDesc_accesses _ _).notes fun _ => .bind .checkSel fun _ => .bind .checkSel fun _ =>
    .bind .checkSel fun _ =>
        .bind (setAccessed_accesses _ _).notes fun _ => .upd

theorem enterTask_notes (kind : SwitchKind) : Notes (enterTask kind) :=
  .bind (loadTask_notes kind) fun _ => .bind loadTaskLdt_notes fun _ => .bind loadTaskCs_notes fun _ =>
    .bind loadTaskSs_notes fun _ => .bind (within_each notes_rel loadTaskData_notes _) fun _ => .bind .st fun _ =>
      .bind extBit_accesses.notes fun _ => .bind .check fun _ => .bind (linRead_accesses _ _ _).notes fun _ => .ite .upd .pure

section Switch

variable (kind : SwitchKind) (nsel : BitVec 16) (d : Desc) (eipSave : BitVec 32) (fl : Flags)

theorem leaveTask_notes : Notes (leaveTask kind nsel d eipSave fl) := by
  refine .bind .st fun _ => .bind .need fun _ => .bind .checkSel fun _ => .bind .checkSel fun _ => .bind .checkSel fun _ =>
    .bind (probeSwitch_accesses _ _ _).notes fun _ => .bind .need fun _ => .bind (saveTask_accesses _ _).notes fun _ => ?_
  extract_lets ended commit enterNew
  have hEnded : ∀ u, Notes (ended u) := fun _ => .bind .mark fun _ => .upd
  have hCommit : ∀ u, Notes (commit u) := fun _ =>
    .bind .upd fun _ => .ite (.bind (linWrite_accesses _ _ _ _).notes hEnded) (hEnded ())
  have hEnterNew : ∀ u, Notes (enterNew u) := fun _ =>
    .ite (hCommit ()) (.bind (changeAccess_accesses _ _).notes hCommit)
  exact .ite (hEnterNew ()) (.bind (changeAccess_accesses _ _).notes hEnterNew)

theorem switchThroughGate_notes : Notes (switchThroughGate kind nsel eipSave fl) :=
  .bind .checkSel fun _ => .bind (fetchDesc_accesses _ _).notes fun _ => .bind .need fun _ => .bind .checkSel fun _ =>
    .bind .get fun _ => .ite .upd (.bind (leaveTask_notes _ _ _ _ _) fun _ => enterTask_notes _)

end Switch

/-! ### Gates and deliveries (60 R287-R297) -/

section Gates

variable (g t : Desc) (tsel : BitVec 16) (toff : BitVec 32) (image : Flags) (err : ErrCode) (ret : BitVec 32)

theorem enterSame_notes : Notes (enterSame tsel t toff image err ret) :=
  .bind .st fun _ => .bind extBit_accesses.notes fun _ => .bind .check fun _ => .bind .check fun _ =>
    .bind (push_notes _ _) fun _ => .bind (pushSel_notes _ _) fun _ => .bind (push_notes _ _) fun _ =>
      .bind (pushErr_notes _) fun _ => loadCs_notes _ _ _ _

theorem enterInner_notes : Notes (enterInner tsel t toff image err ret) :=
  .bind .st fun _ => .bind extBit_accesses.notes fun _ => .bind (innerStack_accesses _ _).notes fun ⟨_, _, _⟩ =>
    .bind .check fun _ => .bind (enterStack_notes _ _ _ _) fun _ => .bind (pushSel_notes _ _) fun _ =>
      .bind (push_notes _ _) fun _ => .bind (push_notes _ _) fun _ => .bind (pushSel_notes _ _) fun _ =>
        .bind (push_notes _ _) fun _ => .bind (pushErr_notes _) fun _ => loadCs_notes _ _ _ _

theorem enterGate_notes : Notes (enterGate g image err ret) := by
  refine .bind .st fun _ => .bind extBit_accesses.notes fun _ => .bind .check fun _ =>
    .bind (fetchDesc_accesses _ _).notes fun _ => .bind .checkSel fun _ => .bind .checkSel fun _ => .bind .checkSel fun _ => ?_
  extract_lets flags
  have hFlags : ∀ u, Notes (flags u) := fun _ => .upd
  exact .ite (.bind (enterInner_notes _ _ _ _ _ _) hFlags) (.bind (enterSame_notes _ _ _ _ _ _) hFlags)

theorem enterTaskGate_notes : Notes (enterTaskGate g image err ret) :=
  .bind (switchThroughGate_notes _ _ _ _) fun _ => .bind (pushErr_notes _) fun _ => .bind .st fun _ =>
    .bind extBit_accesses.notes fun _ => .check

end Gates

section Delivery

variable (vec : Byte) (fault : Bool) (err : ErrCode) (soft : Bool) (ret : BitVec 32)

theorem deliverProtected_notes : Notes (deliverProtected vec fault err soft ret) :=
  .bind .st fun _ => .bind extBit_accesses.notes fun _ => .bind .check fun _ => .bind .need fun _ =>
    .bind (readDescAt_accesses _).notes fun _ => .bind .need fun _ => .bind .check fun _ => .bind .check fun _ =>
      .bind .check fun _ => .ite (enterTaskGate_notes _ _ _ _) (enterGate_notes _ _ _ _)

theorem deliverReal_notes : Notes (deliverReal vec ret) := by
  refine .bind .st fun _ => ?_
  extract_lets lim inside v rest
  have hRest : ∀ u, Notes (rest u) := fun _ => .ite (.bind .need fun _ => .bind (physRead_accesses _ _).notes fun _ =>
    .bind (push_notes _ _) fun _ => .bind (push_notes _ _) fun _ => .bind (push_notes _ _) fun _ =>
      .bind .upd fun _ => loadCsReal_notes _ _) .shutdown
  exact .ite (hRest ()) (.bind .upd hRest)

theorem deliver_notes : Notes (deliver vec fault err soft ret) := by
  intro w
  rw [deliver_eq]
  have hin (pe : Bool) : Notes (deliverIn vec fault err soft ret pe) :=
    .ite (deliverProtected_notes _ _ _ _ _) (deliverReal_notes _ _)
  have hend : Notes endDelivery := .bind .upd fun _ => .mark
  have hquiet : NotesW w { w with quiet := true } := ⟨rfl, rfl⟩
  exact notes_rel.trans _ _ _ hquiet ((hin w.s.cr0.pe).bind (fun _ => hend) { w with quiet := true })

end Delivery

end Sys2Proof.Machine
end

section
/-! The obligation about the delivery of an exception, double faults and shutdown (O55). -/

namespace Sys2Proof.Machine

open Sys2Proof

-- One theorem after another, so that no more of them wait for each other than the memory limit has threads for.
set_option Elab.async false

/-- The pairs of classes that make a double fault (60 R296, Table 9-4). -/
theorem isDouble_of {first second : Delivering} (h : (first = .contributory ∧ second = .contributory) ∨
    (first = .pageFault ∧ (second = .contributory ∨ second = .pageFault))) : isDouble first second = true ∧ first ≠ .double := by
  obtain ⟨rfl, rfl⟩ | ⟨rfl, rfl | rfl⟩ := h <;> exact ⟨rfl, nofun⟩

/-- A second exception that makes a double fault, which is delivered instead. -/
theorem raiseExc_double {s : State} {e : Exc} {w : Work} (hdouble : isDouble s.delivering e.cls = true)
    (hfirst : s.delivering ≠ .double)
    (h : deliver 8 false (.word 0) false s.eip (Work.start { e.note s with delivering := .double } true) = .ok () w)
    (fuel : Nat) : raiseExc (fuel + 1) s e = .next (endStep w.s) := by
  rw [← e.note_eip s] at h
  simp only [raiseExc, e.note_delivering, hdouble, if_true, if_neg hfirst, h]

/-- An exception while a double fault is being delivered. -/
theorem raiseExc_shutsDown {s : State} (h : s.delivering = .double) (e : Exc) (fuel : Nat) :
    raiseExc (fuel + 1) s e = .next (shutDown (e.note s)) := by
  simp [raiseExc, e.note_delivering, h]

/-- A shut-down processor takes the inputs of the step and nothing else. -/
theorem step_shutDown {s : State} (h : s.inShutdown = true) (hreset : (nextInput s).reset = false) :
    step s = .next (takeInput s) := by
  have hshut : (takeInput s).inShutdown = true := (takeInput_steady s).inShutdown.trans h
  simp [step, processorStep, hreset, hshut]

/-- Settles O55: the branches of `raiseExc`; a delivery keeps what the exception has noted (`deliver_notes`). -/
theorem doubleFaultShutdown : Obligations.DoubleFaultShutdown := by
  refine ⟨fun s e n w hnone hdeliver => ?_, fun s e n w hpair hdeliver => ?_, fun s e n h => raiseExc_shutsDown h e n,
    fun s h hreset => step_shutDown h hreset⟩
  · have hnotes : NotesW _ w := (deliver_notes _ _ _ _ _).ok hdeliver
    refine ⟨raiseExc_delivers hnone hdeliver n, ?_, ?_⟩
    · rintro la c rfl
      exact hnotes.cr2
    · rintro b rfl
      exact hnotes.dr6
  · obtain ⟨hdouble, hfirst⟩ := isDouble_of hpair
    exact raiseExc_double hdouble hfirst hdeliver n

end Sys2Proof.Machine
end

section
/-! The obligation about what comes first at a boundary, and about data breakpoints and traps (O56). -/

namespace Sys2Proof.Machine

open Sys2Proof

-- One theorem after another, so that no more of them wait for each other than the memory limit has threads for.
set_option Elab.async false

/-! ### Bits of breakpoints (10 R50; 61 R320) -/

theorem bit_or (a b : BitVec 32) (n : Nat) : bit (a ||| b) n = (bit a n || bit b n) := BitVec.getLsbD_or

theorem bit_bitMask_eq (b : Bool) {i : Nat} (hi : i < 32) (n : Nat) : bit (bitMask b i) n = (b && decide (n = i)) := by
  cases b with
  | false => simp [bit, bitMask]
  | true =>
    rw [bit, bitMask, if_pos rfl, ← BitVec.twoPow_eq, BitVec.getLsbD_twoPow, Bool.eq_iff_iff]
    simp only [Bool.and_eq_true, decide_eq_true_eq, true_and]
    omega

/-- `dbgBits` has the bits of the breakpoints for which `p` holds, and no other. -/
theorem bit_dbgBits_iff {p : Nat → Bool} {n : Nat} : bit (dbgBits p) n = true ↔ n < 4 ∧ p n = true := by
  refine ⟨bit_dbgBits, fun ⟨hn, hp⟩ => ?_⟩
  simp only [dbgBits, bit_or, bit_bitMask_eq _ (show 0 < 32 by decide), bit_bitMask_eq _ (show 1 < 32 by decide),
    bit_bitMask_eq _ (show 2 < 32 by decide), bit_bitMask_eq _ (show 3 < 32 by decide)]
  obtain rfl | rfl | rfl | rfl : n = 0 ∨ n = 1 ∨ n = 2 ∨ n = 3 := by omega
  all_goals simp [hp]

/-- A bit beyond those of the breakpoints is 0. -/
theorem bit_dbgBits_high {p : Nat → Bool} {n : Nat} (hn : 4 ≤ n) : bit (dbgBits p) n = false := by
  rw [← Bool.not_eq_true, bit_dbgBits_iff]
  omega

theorem dbgBits_eq_zero {p : Nat → Bool} (h : ∀ n, n < 4 → p n = false) : dbgBits p = 0 := by
  simp [dbgBits, h 0, h 1, h 2, h 3, bitMask]

theorem dbgBits_ne_zero {p : Nat → Bool} {n : Nat} (hn : n < 4) (h : p n = true) : dbgBits p ≠ 0 := by
  intro hzero
  have hbit : bit (dbgBits p) n = true := bit_dbgBits_iff.2 ⟨hn, h⟩
  rw [hzero] at hbit
  simp [bit] at hbit

/-- The enables are the low eight bits of DR7. -/
theorem dr7Enabled_low {dr7 : BitVec 32} (h : dr7.extractLsb' 0 8 = 0) {n : Nat} (hn : n < 4) : dr7Enabled dr7 n = false := by
  have low (i : Nat) (hi : i < 8) : bit dr7 i = false := by
    have hbit := congrArg (·.getLsbD i) h
    simpa [BitVec.getLsbD_extractLsb', hi, bit] using hbit
  rw [dr7Enabled, low _ (by omega), low _ (by omega)]
  rfl

theorem breakpointsDefined_iff {defined : BitVec 32 → Nat → Bool} {s : State} :
    breakpointsDefined defined s = true ↔ ∀ n, n < 4 → dr7Enabled s.dr7 n = true → defined s.dr7 n = true := by
  simp only [breakpointsDefined, List.all_eq_true, Bool.or_eq_true, Bool.not_eq_true', ← Bool.not_eq_true, ← imp_iff_not_or]
  refine ⟨fun h n hn => h n ?_, fun h n hn => h n ?_⟩
  · simp only [List.mem_cons, List.not_mem_nil, or_false]
    omega
  · simp only [List.mem_cons, List.not_mem_nil, or_false] at hn
    omega

/-- The encodings that the test at a boundary takes (log 45). -/
theorem fetchDefined_iff {dr7 : BitVec 32} {n : Nat} :
    fetchDefined dr7 n = true ↔ dr7Rw dr7 n ≠ 2 ∧ (dr7Rw dr7 n = 0 → dr7Len dr7 n = 0) := by
  rw [fetchDefined, Bool.and_eq_true, bne_iff_ne, Bool.not_eq_true', ← Bool.not_eq_true, Bool.and_eq_true, beq_iff_eq,
    bne_iff_ne, not_and, not_not]

/-- The breakpoints that an access evaluates (61 R322). -/
def Evaluated (dr7 : BitVec 32) (write : Bool) (n : Nat) : Prop := dr7Rw dr7 n = 3 ∨ (dr7Rw dr7 n = 1 ∧ write = true)

theorem evaluated_iff {dr7 : BitVec 32} {write : Bool} {n : Nat} :
    (dr7Rw dr7 n == 3 || (write && dr7Rw dr7 n == 1)) = true ↔ Evaluated dr7 write n := by
  simp [Evaluated, and_comm]

/-- The encodings that the comparison at an access takes (log 45). -/
theorem accessDefined_iff {dr7 : BitVec 32} {write : Bool} {n : Nat} :
    accessDefined write dr7 n = true ↔ dr7Rw dr7 n ≠ 2 ∧ (Evaluated dr7 write n → dr7Len dr7 n ≠ 2) := by
  rw [accessDefined, Bool.and_eq_true, Bool.not_eq_true', ← Bool.not_eq_true, Bool.and_eq_true, evaluated_iff, not_and]
  simp

/-! ### Data breakpoints (61 R322) -/

/-- The field of breakpoint `n` and the `k` bytes at `la` have a byte in common. -/
def FieldMet (s : State) (la : BitVec 32) (k n : Nat) : Prop :=
  let len := lenBytes (dr7Len s.dr7 n)
  ∃ a ∈ span la k, a ∈ span (s.drAddr n &&& ~~~(BitVec.ofNat 32 (len - 1))) len

theorem fieldMeets_iff {s : State} {la : BitVec 32} {k n : Nat} : fieldMeets s n la k = true ↔ FieldMet s la k n := by
  simp [fieldMeets, FieldMet]

/-- An enabled breakpoint of an encoding that the access takes matches where it is evaluated and its field met. -/
theorem dataMatch_iff {s : State} {la : BitVec 32} {k n : Nat} {write : Bool} (h : accessDefined write s.dr7 n = true) :
    dataMatch s la k write n = true ↔ Evaluated s.dr7 write n ∧ FieldMet s la k n := by
  rw [dataMatch, Bool.and_eq_true, Bool.and_eq_true, evaluated_iff, fieldMeets_iff]
  refine ⟨fun ⟨⟨_, heval⟩, hmet⟩ => ⟨heval, hmet⟩, fun ⟨heval, hmet⟩ => ⟨⟨?_, heval⟩, hmet⟩⟩
  obtain ⟨hrw, hlen⟩ := accessDefined_iff.1 h
  have hnonzero : dr7Rw s.dr7 n ≠ 0 := by
    obtain heval | ⟨heval, -⟩ := heval <;> rw [heval] <;> decide
  simp only [dr7Defined, Bool.and_eq_true, bne_iff_ne]
  exact ⟨⟨hrw, hlen heval⟩, by rw [beq_eq_false_iff_ne.2 hnonzero]; rfl⟩

section NoteData

variable {w : Work} (hquiet : w.quiet = false) (la : BitVec 32) (k : Nat) (write : Bool)
include hquiet

/-- An access of the program tests the encodings, then notes what it meets. -/
theorem noteData_eq : noteData la k write w =
    (need (breakpointsDefined (accessDefined write) w.s) .breakpointEncoding >>= fun _ => mark fun w' => { w' with
      hitOn := w'.hitOn ||| dbgBits fun n => dr7Enabled w.s.dr7 n && dataMatch w.s la k write n
      hitOff := w'.hitOff ||| dbgBits fun n => !dr7Enabled w.s.dr7 n && dataMatch w.s la k write n }) w := by
  refine (bind_of_ok (run_get w) _).trans ?_
  rw [hquiet]
  rfl

theorem noteData_refused (h : ∃ n, n < 4 ∧ dr7Enabled w.s.dr7 n = true ∧
      (dr7Rw w.s.dr7 n = 2 ∨ (Evaluated w.s.dr7 write n ∧ dr7Len w.s.dr7 n = 2))) :
    noteData la k write w = .error (.refuse .breakpointEncoding) w := by
  have hundefined : breakpointsDefined (accessDefined write) w.s = false := by
    rw [← Bool.not_eq_true, breakpointsDefined_iff]
    intro hall
    obtain ⟨n, hn, hon, hbad⟩ := h
    obtain ⟨hrw, hlen⟩ := accessDefined_iff.1 (hall n hn hon)
    obtain hbad | ⟨heval, hbad⟩ := hbad
    · exact hrw hbad
    · exact hlen heval hbad
  rw [noteData_eq hquiet, hundefined]
  rfl

theorem noteData_notes (h : ∀ n, n < 4 → dr7Enabled w.s.dr7 n = true →
      dr7Rw w.s.dr7 n ≠ 2 ∧ (Evaluated w.s.dr7 write n → dr7Len w.s.dr7 n ≠ 2)) :
    ∃ on off, noteData la k write w = .ok () { w with hitOn := on, hitOff := off } ∧ ∀ n, n < 4 →
      (bit on n = true ↔ bit w.hitOn n = true ∨
        (dr7Enabled w.s.dr7 n = true ∧ Evaluated w.s.dr7 write n ∧ FieldMet w.s la k n)) := by
  have hdefined : breakpointsDefined (accessDefined write) w.s = true :=
    breakpointsDefined_iff.2 fun n hn hon => accessDefined_iff.2 (h n hn hon)
  refine ⟨w.hitOn ||| dbgBits fun n => dr7Enabled w.s.dr7 n && dataMatch w.s la k write n,
    w.hitOff ||| dbgBits fun n => !dr7Enabled w.s.dr7 n && dataMatch w.s la k write n, ?_, fun n hn => ?_⟩
  · rw [noteData_eq hquiet, hdefined]
    rfl
  · rw [bit_or, Bool.or_eq_true, bit_dbgBits_iff, Bool.and_eq_true]
    refine or_congr Iff.rfl ⟨fun ⟨_, hon, hmatch⟩ => ⟨hon, ?_⟩, fun ⟨hon, hmet⟩ => ⟨hn, hon, ?_⟩⟩
    · exact (dataMatch_iff (breakpointsDefined_iff.1 hdefined n hn hon)).1 hmatch
    · exact (dataMatch_iff (breakpointsDefined_iff.1 hdefined n hn hon)).2 hmet

end NoteData

/-! ### The end of an instruction (61 R322, R324) -/

/-- The traps that are due at the end whatever the accesses have met. -/
def dueTraps (tf : Bool) (s : State) : BitVec 32 := s.pendingDbg ||| s.lateDbg ||| (if tf then 0x4000#32 else 0)

/-- When the enabled breakpoints met are reported: at once, one instruction later, or not at all. -/
def Reported (exact : Bool) (due met pd ld : BitVec 32) : Prop :=
  (pd = due ||| met ∧ ld = 0) ∨ (exact = false ∧ ((pd = due ∧ ld = met) ∨ (pd = due ∧ ld = 0)))

theorem run_upd_same {f : State → State} {w : Work} (h : f w.s = w.s) : upd f w = .ok () w := by
  rw [run_upd, h]

/-- With no disabled breakpoint met the traps of an instruction are the due ones and, as `Reported` says, those met. -/
theorem collectTraps_reports (tf exact : Bool) {w : Work} (hoff : w.hitOff = 0) :
    ∃ pd ld e, collectTraps tf exact w = .ok () { w with s := { w.s with pendingDbg := pd, lateDbg := ld, env := e } } ∧
      Drawn w.s.env e ∧ Reported exact (dueTraps tf w.s) w.hitOn pd ld := by
  let v : Work := { w with s := { w.s with pendingDbg := dueTraps tf w.s, lateDbg := 0 } }
  have hbits : disabledBits w = .ok 0 w := by
    rw [disabledBits, bind_of_ok (run_get w), if_pos hoff]
    rfl
  have hzero (x : BitVec 32) : x ||| 0 = x := BitVec.or_zero
  have hquiet : upd (fun s => if s.pendingDbg = 0 ∨ s.intShadow = true then s
      else { s with pendingDbg := s.pendingDbg ||| 0 }) v = .ok () v :=
    run_upd_same (ite_eq_left_iff.2 fun _ => congrArg (fun x => { v.s with pendingDbg := x }) (hzero v.s.pendingDbg))
  have hstart : collectTraps tf exact w = (if w.hitOn = 0 then pure ()
      else if exact = true then upd fun s => { s with pendingDbg := s.pendingDbg ||| (w.hitOn ||| 0) }
      else draw >>= fun x => if bit x 0 = true then upd fun s => { s with pendingDbg := s.pendingDbg ||| (w.hitOn ||| 0) }
        else if bit x 1 = true then upd fun s => { s with lateDbg := w.hitOn ||| 0 } else pure ()) v := by
    rw [collectTraps, bind_of_ok hbits]
    exact (bind_of_ok (run_upd _ w) _).trans ((bind_of_ok hquiet _).trans (bind_of_ok (run_get v) _))
  rw [hstart, hzero]
  by_cases hnone : w.hitOn = 0
  · rw [if_pos hnone]
    refine ⟨_, _, w.s.env, rfl, Drawn.refl _, .inl ⟨?_, rfl⟩⟩
    rw [hnone, hzero]
  · rw [if_neg hnone]
    cases exact with
    | true => exact ⟨_, _, w.s.env, rfl, Drawn.refl _, .inl ⟨rfl, rfl⟩⟩
    | false =>
      obtain ⟨x, e, hdraw, hdrawn⟩ := draw_ok v
      rw [if_neg Bool.false_ne_true, bind_of_ok hdraw]
      by_cases h0 : bit x 0 = true
      · rw [if_pos h0]
        exact ⟨_, _, e, rfl, hdrawn, .inl ⟨rfl, rfl⟩⟩
      · rw [if_neg h0]
        by_cases h1 : bit x 1 = true
        · rw [if_pos h1]
          exact ⟨_, _, e, rfl, hdrawn, .inr ⟨rfl, .inl ⟨rfl, rfl⟩⟩⟩
        · rw [if_neg h1]
          exact ⟨_, _, e, rfl, hdrawn, .inr ⟨rfl, .inr ⟨rfl, rfl⟩⟩⟩

/-- The end changes EIP and the flags, draws, and reports traps. -/
theorem finish_reports (s : State) {w : Work} (hoff : w.hitOff = 0) (hw : w.waiting = false)
    (hnext : w.jumped = true ∨ w.repeating = true ∨ w.s.eip.toNat + w.s.insn.len < 2 ^ 32) :
    ∃ v, finish s w = .ok () v ∧ v.s = { w.s with
        eip := v.s.eip, flags := v.s.flags, pendingDbg := v.s.pendingDbg, lateDbg := v.s.lateDbg, env := v.s.env } ∧
      Drawn w.s.env v.s.env ∧
      Reported (bit s.dr7 8 || bit s.dr7 9) (dueTraps s.flags.tf w.s) w.hitOn v.s.pendingDbg v.s.lateDbg := by
  have hstart : ∃ e rf, finish s w = collectTraps s.flags.tf (bit s.dr7 8 || bit s.dr7 9)
      { w with s := { w.s with eip := e, flags := { w.s.flags with rf := rf } } } := by
    have hroom : w.jumped = false → w.repeating = false → w.s.eip.toNat + w.s.insn.len < 2 ^ 32 := by
      intro hj hr
      simpa [hj, hr] using hnext
    refine ⟨if w.jumped || w.repeating then w.s.eip else w.s.nextEip, (w.keepRf || w.repeating) && w.s.flags.rf, ?_⟩
    obtain ⟨t, _, _, _, jumped, keepRf, waiting, repeating⟩ := w
    obtain rfl : waiting = false := hw
    cases jumped <;> cases repeating <;> cases keepRf
    all_goals
      simp only [finish, M.run_bind, run_get, Bool.or_false, Bool.or_true, Bool.false_eq_true, if_false, if_true,
        eipNext_ok (hroom _ _), run_upd]
      rfl
  obtain ⟨e, f, hfinish⟩ := hstart
  obtain ⟨pd, ld, env, htraps, hdrawn, hreported⟩ := collectTraps_reports s.flags.tf (bit s.dr7 8 || bit s.dr7 9)
    (w := { w with s := { w.s with eip := e, flags := { w.s.flags with rf := f } } }) hoff
  exact ⟨_, hfinish.trans htraps, rfl, hdrawn, hreported⟩

end Sys2Proof.Machine
end

section
/-! What the processor does at a boundary (60 R283): one rule per outcome of `boundary`, and
the obligation about what comes first (O56). -/

namespace Sys2Proof.Machine

open Sys2Proof

-- One theorem after another, so that no more of them wait for each other than the memory limit has threads for.
set_option Elab.async false

/-! ### The input of a step without writes of other masters -/

theorem takeInput_eq {s : State} (h : (nextInput s).writes = []) : takeInput s = { s with env := (takeInput s).env } := by
  have hwrites (t : State) : masterWrites t (nextInput s).writes = t := by rw [h]; rfl
  rw [takeInput, hwrites]

theorem takeInput_intr (s : State) : (takeInput s).env.intr = (nextInput s).intr := by
  rw [takeInput, masterWrites_env]

theorem nextInput_none {s : State} (h : s.env.inputs = []) :
    (nextInput s).reset = false ∧ (nextInput s).nmi = false ∧ (nextInput s).intr = s.env.intr ∧
      (nextInput s).writes = [] := by
  rw [nextInput, h]
  exact ⟨rfl, rfl, rfl, rfl⟩

/-- The state at a boundary out of the shadow of MOV SS, after the inputs have been taken. -/
theorem sample_takeInput {s : State} (hwrites : (nextInput s).writes = []) (hshadow : s.intShadow = false) (nmi : Bool) :
    sample nmi (takeInput s) = { s with
      intShadow := false
      stiShadow := false
      pendingNmi := s.pendingNmi || (nmi && !s.nmiInService)
      env := (takeInput s).env } := by
  rw [takeInput_eq hwrites, sample]
  simp only [hshadow, Bool.false_eq_true, if_false]

/-! ### The step by what the boundary answers -/

section AtBoundary

variable {s : State} (hreset : (nextInput s).reset = false) (hdown : s.inShutdown = false) (hshadow : s.intShadow = false)
  (hwrites : (nextInput s).writes = [])
include hreset hdown hshadow hwrites


/-- Not reset, not shut down, and with nothing written beyond memory the step does what comes first at the boundary. -/
theorem step_atBoundary : step s =
    match boundary false s.stiShadow (Work.start (sample (nextInput s).nmi (takeInput s)) false) with
    | .ok (.event vec fault taskTrap) w => deliverEvent vec fault taskTrap w.s
    | .ok .idle w => .next w.s
    | .ok .instruction w =>
      match chooseSizes w with
      | .ok _ v => runInstr exec 16 true v.s
      | .error e v => settle (takeInput s) (.error e v)
    | .error e w => settle (takeInput s) (.error e w) := by
  have hdown' : (takeInput s).inShutdown = false := (congrArg State.inShutdown (takeInput_eq hwrites) :).trans hdown
  have hshadow' : (takeInput s).intShadow = false := (congrArg State.intShadow (takeInput_eq hwrites) :).trans hshadow
  have hsti : (takeInput s).stiShadow = s.stiShadow := (congrArg State.stiShadow (takeInput_eq hwrites) :)
  have hinside : outsideWrite (nextInput s) = none := by rw [outsideWrite, hwrites]; rfl
  rw [step, processorStep, hreset, hdown', hshadow', hsti, hinside]
  rfl

theorem step_event {vec : Byte} {fault taskTrap : Bool} {u : State}
    (h : boundary false s.stiShadow (Work.start (sample (nextInput s).nmi (takeInput s)) false) =
      .ok (.event vec fault taskTrap) (Work.start u false)) :
    step s = deliverEvent vec fault taskTrap u := by
  rw [step_atBoundary hreset hdown hshadow hwrites, h]
  rfl

theorem step_idle {w : Work}
    (h : boundary false s.stiShadow (Work.start (sample (nextInput s).nmi (takeInput s)) false) = .ok .idle w) :
    step s = .next w.s := by
  rw [step_atBoundary hreset hdown hshadow hwrites, h]

theorem step_instruction {w v : Work}
    (h : boundary false s.stiShadow (Work.start (sample (nextInput s).nmi (takeInput s)) false) = .ok .instruction w)
    (hsizes : chooseSizes w = .ok () v) : step s = runInstr exec 16 true v.s := by
  rw [step_atBoundary hreset hdown hshadow hwrites, h]
  dsimp only
  rw [hsizes]

theorem step_boundaryRefused {r : Refusal} {w : Work}
    (h : boundary false s.stiShadow (Work.start (sample (nextInput s).nmi (takeInput s)) false) = .error (.refuse r) w) :
    step s = .refused r := by
  rw [step_atBoundary hreset hdown hshadow hwrites, h]
  rfl

end AtBoundary

/-! ### What comes first (60 R283 B3-B7) -/

section Boundary

variable {t : State} (sti : Bool)

theorem boundary_trap (h : t.pendingDbg ≠ 0) :
    boundary false sti (Work.start t false) = .ok (.event 1 false (bit t.pendingDbg 15))
      (Work.start { t with dr6 := t.dr6 ||| t.pendingDbg, pendingDbg := 0, halted := false } false) := by
  rw [boundary, bind_of_ok (run_st _)]
  exact congrFun (if_pos h) _

/-- What comes after the debug exceptions: an NMI, INTR, or the next instruction. -/
def belowBreakpoints (sti : Bool) (s : State) : M Action :=
  if s.pendingNmi = true then do
    upd fun s => { s with pendingNmi := false, nmiInService := true, halted := false }
    pure (.event 2 false false)
  else
    match (if s.flags.if_ = true then s.env.intr else none) with
    | some vec => do
      let held ← (if sti then drawBit else pure false)
      if held then pure (if s.halted then .idle else .instruction)
      else do
        upd fun s => { s with halted := false }
        pure (.event vec false false)
    | none => pure (if s.halted then .idle else .instruction)

/-- The instruction breakpoints are asked: one is enabled, RF is clear, and the processor runs (61 R321). -/
def State.watched (s : State) : Bool := !s.halted && !s.flags.rf && s.dr7.extractLsb' 0 8 != 0

/-- The instruction breakpoints at CS:EIP among those for which `p` holds. -/
def State.breakpointsAt (s : State) (p : Nat → Bool) : BitVec 32 :=
  dbgBits fun n => p n && fetchMatch s (s.segs.cs.base + s.eip) n

/-- With no debug trap due the instruction breakpoints are asked, then the NMI, INTR, and what is left. -/
theorem boundary_noTrap (htrap : t.pendingDbg = 0) : boundary false sti (Work.start t false) =
    (need (!t.watched || breakpointsDefined fetchDefined t) .breakpointEncoding >>= fun _ =>
      if (t.watched && t.breakpointsAt (dr7Enabled t.dr7) != 0) = true then do
        let v ← (if t.breakpointsAt (fun n => !dr7Enabled t.dr7 n) = 0 then pure 0 else draw)
        upd fun s => { s with
          dr6 := s.dr6 ||| t.breakpointsAt (dr7Enabled t.dr7) ||| (t.breakpointsAt (fun n => !dr7Enabled t.dr7 n) &&& v) }
        pure (.event 1 true false)
      else belowBreakpoints sti t) (Work.start t false) := by
  rw [boundary, bind_of_ok (run_st _)]
  refine (congrFun (if_neg (not_not.2 htrap)) _).trans ?_
  simp only [Work.start, State.watched, State.breakpointsAt, belowBreakpoints, Bool.not_false, Bool.and_true]
  rfl

/-- With no breakpoint asked the next in order are. -/
theorem boundary_unwatched (htrap : t.pendingDbg = 0) (hwatch : t.watched = false) :
    boundary false sti (Work.start t false) = belowBreakpoints sti t (Work.start t false) := by
  rw [boundary_noTrap sti htrap, hwatch]
  rfl

theorem boundary_undefined (htrap : t.pendingDbg = 0) (hwatch : t.watched = true)
    (hbad : breakpointsDefined fetchDefined t = false) :
    boundary false sti (Work.start t false) = .error (.refuse .breakpointEncoding) (Work.start t false) := by
  rw [boundary_noTrap sti htrap, hwatch, hbad]
  rfl

theorem boundary_breakpoint (htrap : t.pendingDbg = 0) (hwatch : t.watched = true)
    (hdefined : breakpointsDefined fetchDefined t = true) (hon : t.breakpointsAt (dr7Enabled t.dr7) ≠ 0)
    (hoff : t.breakpointsAt (fun n => !dr7Enabled t.dr7 n) = 0) :
    boundary false sti (Work.start t false) = .ok (.event 1 true false)
      (Work.start { t with dr6 := t.dr6 ||| t.breakpointsAt (dr7Enabled t.dr7) } false) := by
  have hnone : t.dr6 ||| t.breakpointsAt (dr7Enabled t.dr7) ||| (0 &&& 0) = t.dr6 ||| t.breakpointsAt (dr7Enabled t.dr7) :=
    BitVec.or_zero
  rw [boundary_noTrap sti htrap, hwatch, hdefined, Bool.or_true, bind_of_ok (run_need_true _ _), Bool.true_and,
    bne_iff_ne.2 hon, if_pos rfl, hoff, if_pos rfl]
  exact congrArg (fun d => EStateM.Result.ok (Action.event 1 true false) (Work.start { t with dr6 := d } false)) hnone

variable {sti}

theorem belowBreakpoints_nmi (h : t.pendingNmi = true) : belowBreakpoints sti t (Work.start t false) = .ok (.event 2 false false)
    (Work.start { t with pendingNmi := false, nmiInService := true, halted := false } false) := by
  rw [belowBreakpoints, if_pos h]
  rfl

theorem belowBreakpoints_intr {vec : Byte} (hnmi : t.pendingNmi = false) (hif : t.flags.if_ = true)
    (hintr : t.env.intr = some vec)
    (hsti : sti = false) : belowBreakpoints sti t (Work.start t false) = .ok (.event vec false false)
      (Work.start { t with halted := false } false) := by
  rw [belowBreakpoints, if_neg (Bool.eq_false_iff.1 hnmi), if_pos hif, hintr, hsti]
  rfl

theorem belowBreakpoints_none (hnmi : t.pendingNmi = false) (hintr : t.flags.if_ = true → t.env.intr = none) (w : Work) :
    belowBreakpoints sti t w = .ok (if t.halted = true then .idle else .instruction) w := by
  have hgo : (if t.flags.if_ = true then t.env.intr else none) = none := by
    rw [ite_eq_right_iff]
    exact hintr
  rw [belowBreakpoints, hnmi, if_neg Bool.false_ne_true, hgo]
  rfl

end Boundary

theorem chooseSizes_same {w : Work} (h : w.s.prefetch.resized = false) : chooseSizes w = .ok () w := by
  rw [chooseSizes, bind_of_ok (run_st w), h]
  rfl

/-! ### Instruction breakpoints (61 R321) -/

theorem bit_breakpointsAt_iff {t : State} {p : Nat → Bool} {n : Nat} :
    bit (t.breakpointsAt p) n = true ↔ n < 4 ∧ p n = true ∧ fetchMatch t (t.segs.cs.base + t.eip) n = true := by
  rw [State.breakpointsAt, bit_dbgBits_iff, Bool.and_eq_true]

/-- A breakpoint that matches a fetch is one of execution at that address, of the encodings taken. -/
theorem fetchMatch_imp {t : State} {la : BitVec 32} {n : Nat} (h : fetchMatch t la n = true) :
    dr7Rw t.dr7 n = 0 ∧ t.drAddr n = la := by
  rw [fetchMatch, Bool.and_eq_true, Bool.and_eq_true, beq_iff_eq, beq_iff_eq] at h
  exact ⟨h.1.2, h.2⟩

theorem fetchMatch_iff {t : State} {la : BitVec 32} {n : Nat} (h : fetchDefined t.dr7 n = true) :
    fetchMatch t la n = true ↔ dr7Rw t.dr7 n = 0 ∧ t.drAddr n = la := by
  refine ⟨fetchMatch_imp, fun ⟨hrw, hla⟩ => ?_⟩
  have hlen : dr7Len t.dr7 n = 0 := (fetchDefined_iff.1 h).2 hrw
  rw [fetchMatch, dr7Defined, hrw, hlen, hla, beq_self_eq_true la]
  rfl

theorem watched_of_enabled {t : State} (hrun : t.halted = false) (hrf : t.flags.rf = false) {n : Nat} (hn : n < 4)
    (hon : dr7Enabled t.dr7 n = true) : t.watched = true := by
  rw [State.watched, hrun, hrf]
  refine bne_iff_ne.2 fun hzero => ?_
  rw [dr7Enabled_low hzero hn] at hon
  exact Bool.false_ne_true hon

theorem watched_none {t : State} (h : t.dr7.extractLsb' 0 8 = 0) : t.watched = false := by
  rw [State.watched, bne_eq_false_iff_eq.2 h, Bool.and_false]

/-! ### Recognition -/

/-- What a boundary asks of `u` is as in `s`, but for the NMI and INTR. -/
structure AskedAs (s u : State) : Prop where
  trap : u.pendingDbg = s.pendingDbg
  dr6 : u.dr6 = s.dr6
  watched : u.watched = s.watched
  defined : breakpointsDefined fetchDefined u = breakpointsDefined fetchDefined s
  on : u.breakpointsAt (dr7Enabled u.dr7) = s.breakpointsAt (dr7Enabled s.dr7)
  off : u.breakpointsAt (fun n => !dr7Enabled u.dr7 n) = s.breakpointsAt (fun n => !dr7Enabled s.dr7 n)
  ints : u.flags.if_ = s.flags.if_
  halted : u.halted = s.halted
  resized : u.prefetch.resized = s.prefetch.resized

section Recognised

variable {s : State} (hreset : (nextInput s).reset = false) (hdown : s.inShutdown = false) (hshadow : s.intShadow = false)
  (hwrites : (nextInput s).writes = [])

include hshadow hwrites in
theorem sample_askedAs (nmi : Bool) : AskedAs s (sample nmi (takeInput s)) := by
  rw [sample_takeInput hwrites hshadow]
  exact ⟨rfl, rfl, rfl, rfl, rfl, rfl, rfl, rfl, rfl⟩

include hshadow hwrites in
theorem sample_pendingNmi (nmi : Bool) :
    (sample nmi (takeInput s)).pendingNmi = (s.pendingNmi || (nmi && !s.nmiInService)) := by
  rw [sample_takeInput hwrites hshadow]

include hreset hdown hshadow hwrites

theorem step_trap (htrap : s.pendingDbg ≠ 0) : step s = deliverEvent 1 false (bit s.pendingDbg 15)
    { sample (nextInput s).nmi (takeInput s) with dr6 := s.dr6 ||| s.pendingDbg, pendingDbg := 0, halted := false } := by
  have hu := sample_askedAs hshadow hwrites (nextInput s).nmi
  rw [step_event hreset hdown hshadow hwrites (boundary_trap _ (hu.trap ▸ htrap)), hu.trap, hu.dr6]

theorem step_undefinedBreakpoint (htrap : s.pendingDbg = 0) (hrun : s.halted = false) (hrf : s.flags.rf = false)
    (hbad : ∃ n, n < 4 ∧ dr7Enabled s.dr7 n = true ∧ (dr7Rw s.dr7 n = 2 ∨ (dr7Rw s.dr7 n = 0 ∧ dr7Len s.dr7 n ≠ 0))) :
    step s = .refused .breakpointEncoding := by
  obtain ⟨n, hn, hon, hbad⟩ := hbad
  have hundefined : breakpointsDefined fetchDefined s = false := by
    rw [← Bool.not_eq_true, breakpointsDefined_iff]
    intro hall
    obtain ⟨hrw, hlen⟩ := fetchDefined_iff.1 (hall n hn hon)
    obtain hbad | ⟨hexec, hbad⟩ := hbad
    · exact hrw hbad
    · exact hbad (hlen hexec)
  have hu := sample_askedAs hshadow hwrites (nextInput s).nmi
  exact step_boundaryRefused hreset hdown hshadow hwrites (boundary_undefined _ (hu.trap.trans htrap)
    (hu.watched.trans (watched_of_enabled hrun hrf hn hon)) (hu.defined.trans hundefined))

theorem step_breakpoint (htrap : s.pendingDbg = 0) (hrun : s.halted = false) (hrf : s.flags.rf = false)
    (hdefined : ∀ n, n < 4 → dr7Enabled s.dr7 n = true → fetchDefined s.dr7 n = true)
    (hhit : ∃ n, n < 4 ∧ dr7Enabled s.dr7 n = true ∧ dr7Rw s.dr7 n = 0 ∧ s.drAddr n = s.segs.cs.base + s.eip)
    (hmiss : ∀ n, n < 4 → dr7Enabled s.dr7 n = false → ¬ (dr7Rw s.dr7 n = 0 ∧ s.drAddr n = s.segs.cs.base + s.eip)) :
    ∃ d, step s = deliverEvent 1 true false { sample (nextInput s).nmi (takeInput s) with dr6 := d } ∧
      (∀ n, 4 ≤ n → bit d n = bit s.dr6 n) ∧ ∀ n, n < 4 → (bit d n = true ↔ bit s.dr6 n = true ∨
        (dr7Enabled s.dr7 n = true ∧ dr7Rw s.dr7 n = 0 ∧ s.drAddr n = s.segs.cs.base + s.eip)) := by
  obtain ⟨n, hn, hon, hat⟩ := hhit
  have hsome : s.breakpointsAt (dr7Enabled s.dr7) ≠ 0 :=
    dbgBits_ne_zero hn (Bool.and_eq_true_iff.2 ⟨hon, (fetchMatch_iff (hdefined n hn hon)).2 hat⟩)
  have hnone : s.breakpointsAt (fun n => !dr7Enabled s.dr7 n) = 0 := by
    refine dbgBits_eq_zero fun n hn => ?_
    rw [Bool.and_eq_false_imp, Bool.not_eq_true']
    exact fun hdisabled => Bool.eq_false_iff.2 fun hmatch => hmiss n hn hdisabled (fetchMatch_imp hmatch)
  have hu := sample_askedAs hshadow hwrites (nextInput s).nmi
  have hboundary := boundary_breakpoint s.stiShadow (hu.trap.trans htrap)
    (hu.watched.trans (watched_of_enabled hrun hrf hn hon)) (hu.defined.trans (breakpointsDefined_iff.2 hdefined))
    (hu.on ▸ hsome) (hu.off.trans hnone)
  rw [hu.dr6, hu.on] at hboundary
  refine ⟨s.dr6 ||| s.breakpointsAt (dr7Enabled s.dr7), step_event hreset hdown hshadow hwrites hboundary,
    fun n hn => ?_, fun n hn => ?_⟩
  · rw [bit_or, State.breakpointsAt, bit_dbgBits_high hn, Bool.or_false]
  · rw [bit_or, Bool.or_eq_true]
    refine or_congr Iff.rfl (bit_breakpointsAt_iff.trans ⟨fun ⟨_, hon, hmatch⟩ => ⟨hon, fetchMatch_imp hmatch⟩,
      fun ⟨hon, hat⟩ => ⟨hn, hon, (fetchMatch_iff (hdefined n hn hon)).2 hat⟩⟩)

theorem step_nmi (htrap : s.pendingDbg = 0) (hoff : s.dr7.extractLsb' 0 8 = 0)
    (hnmi : s.pendingNmi = true ∨ ((nextInput s).nmi = true ∧ s.nmiInService = false)) :
    step s = deliverEvent 2 false false
      { sample (nextInput s).nmi (takeInput s) with pendingNmi := false, nmiInService := true, halted := false } := by
  have hu := sample_askedAs hshadow hwrites (nextInput s).nmi
  have hpending : (sample (nextInput s).nmi (takeInput s)).pendingNmi = true := by
    rw [sample_pendingNmi hshadow hwrites, Bool.or_eq_true, Bool.and_eq_true, Bool.not_eq_true']
    exact hnmi
  have hboundary := (boundary_unwatched s.stiShadow (hu.trap.trans htrap) (hu.watched.trans (watched_none hoff))).trans
    (belowBreakpoints_nmi hpending)
  exact step_event hreset hdown hshadow hwrites hboundary

theorem step_intr {vec : Byte} (htrap : s.pendingDbg = 0) (hoff : s.dr7.extractLsb' 0 8 = 0) (hnmi : s.pendingNmi = false)
    (hnone : (nextInput s).nmi = false) (hif : s.flags.if_ = true) (hintr : (nextInput s).intr = some vec)
    (hsti : s.stiShadow = false) : step s = deliverEvent vec false false
      { sample (nextInput s).nmi (takeInput s) with halted := false } := by
  have hu := sample_askedAs hshadow hwrites (nextInput s).nmi
  have hpending : (sample (nextInput s).nmi (takeInput s)).pendingNmi = false := by
    rw [sample_pendingNmi hshadow hwrites, hnmi, hnone]
    rfl
  have hboundary := (boundary_unwatched s.stiShadow (hu.trap.trans htrap) (hu.watched.trans (watched_none hoff))).trans
    (belowBreakpoints_intr hpending (hu.ints.trans hif) ((takeInput_intr s).trans hintr) hsti)
  exact step_event hreset hdown hshadow hwrites hboundary

section Nothing

variable (htrap : s.pendingDbg = 0) (hoff : s.dr7.extractLsb' 0 8 = 0) (hnmi : s.pendingNmi = false)
  (hnone : (nextInput s).nmi = false) (hintr : s.flags.if_ = true → (nextInput s).intr = none)
include htrap hoff hnmi hnone hintr

omit hreset hdown in
/-- With nothing to come first the processor stays halted or runs the next instruction. -/
theorem boundary_none : boundary false s.stiShadow (Work.start (sample (nextInput s).nmi (takeInput s)) false) =
    .ok (if s.halted = true then .idle else .instruction) (Work.start (sample (nextInput s).nmi (takeInput s)) false) := by
  have hu := sample_askedAs hshadow hwrites (nextInput s).nmi
  have hpending : (sample (nextInput s).nmi (takeInput s)).pendingNmi = false := by
    rw [sample_pendingNmi hshadow hwrites, hnmi, hnone]
    rfl
  rw [← hu.halted]
  exact (boundary_unwatched s.stiShadow (hu.trap.trans htrap) (hu.watched.trans (watched_none hoff))).trans
    (belowBreakpoints_none hpending (fun h => (takeInput_intr s).trans (hintr (hu.ints ▸ h))) _)

theorem step_halted (hhalted : s.halted = true) : step s = .next (sample false (takeInput s)) := by
  have hboundary := boundary_none hshadow hwrites htrap hoff hnmi hnone hintr
  rw [hhalted] at hboundary
  exact (step_idle hreset hdown hshadow hwrites hboundary).trans (by rw [hnone]; rfl)

theorem step_runs (hhalted : s.halted = false) {v : Work}
    (hsizes : chooseSizes (Work.start (sample false (takeInput s)) false) = .ok () v) : step s = runInstr exec 16 true v.s := by
  have hboundary := boundary_none hshadow hwrites htrap hoff hnmi hnone hintr
  rw [hhalted] at hboundary
  exact step_instruction hreset hdown hshadow hwrites hboundary (by rw [hnone]; exact hsizes)

theorem step_runs_same (hhalted : s.halted = false) (hresized : s.prefetch.resized = false) :
    step s = runInstr exec 16 true (sample false (takeInput s)) :=
  step_runs hreset hdown hshadow hwrites htrap hoff hnmi hnone hintr hhalted
    (chooseSizes_same ((sample_askedAs hshadow hwrites false).resized.trans hresized))

end Nothing

end Recognised

/-- Settles O56: one rule for each thing that may come first (`step_trap` to `step_halted`), with `noteData` and `finish`. -/
theorem interruptRecognition : Obligations.InterruptRecognition := by
  unfold Obligations.InterruptRecognition
  refine ⟨?_, ?_, ?_, ?_⟩
  · intro s vec hinputs hvec hdown hshadow hsti htrap hoff hnmi
    obtain ⟨hreset, hnone, hintr, hwrites⟩ := nextInput_none hinputs
    have hevent (hif : s.flags.if_ = true) :=
      step_intr hreset hdown hshadow hwrites htrap hoff hnmi hnone hif (hintr.trans hvec) hsti
    rw [hnone] at hevent
    refine ⟨hevent, fun hif hrun => ?_⟩
    have hmasked : s.flags.if_ = true → (nextInput s).intr = none := by simp [hif]
    cases hhalted : s.halted with
    | true => exact step_halted hreset hdown hshadow hwrites htrap hoff hnmi hnone hmasked hhalted
    | false =>
      exact step_runs_same hreset hdown hshadow hwrites htrap hoff hnmi hnone hmasked hhalted
        (hrun.resolve_left (Bool.eq_false_iff.1 hhalted))
  · intro s hreset hwrites hdown hshadow u at_
    refine ⟨fun hservice => ?_, step_trap hreset hdown hshadow hwrites, step_undefinedBreakpoint hreset hdown hshadow hwrites,
      fun htrap hrun hrf hdefined => step_breakpoint hreset hdown hshadow hwrites htrap hrun hrf fun n hn hon =>
        fetchDefined_iff.2 (hdefined n hn hon), step_nmi hreset hdown hshadow hwrites⟩
    refine (sample_pendingNmi hshadow hwrites (nextInput s).nmi).trans ?_
    rw [hservice, Bool.not_true, Bool.and_false, Bool.or_false]
  · intro w la k write hquiet evaluated
    exact ⟨noteData_refused hquiet la k write, noteData_notes hquiet la k write⟩
  · intro s w hoff hw hnext due
    obtain ⟨v, hfinish, hstate, hdrawn, hreported⟩ := finish_reports s hoff hw hnext
    refine ⟨v, hfinish, hstate, hdrawn, fun hexact => ?_, fun hle hge => ?_⟩
    · obtain hnow | ⟨hinexact, -⟩ := hreported
      · exact hnow
      · rw [Bool.or_eq_false_iff] at hinexact
        simp [hinexact] at hexact
    · exact hreported.imp_right And.right

end Sys2Proof.Machine
end

section
/-! The obligation that the step runs what the bytes at CS:EIP decode to (O6). -/

namespace Sys2Proof.Machine

open Sys2Proof

-- One theorem after another, so that no more of them wait for each other than the memory limit has threads for.
set_option Elab.async false

/-! ### The fetch of an instruction in plain memory (30 R115, R116) -/

/-- The bytes at CS:EIP, in RAM and within the limit of CS, are `bytes`, with paging off, no prefixes yet and nothing
prefetched. -/
structure PlainCode (s : State) (bytes : List Byte) : Prop where
  paging : s.cr0.pg = false
  prefetch : s.prefetch = Prefetch.empty
  insn : s.insn = Insn.empty
  short : bytes.length ≤ 15
  room : s.eip.toNat + bytes.length ≤ 2 ^ 32
  code : ∀ j, j < bytes.length →
    limitOk s.segs.cs (s.eip + BitVec.ofNat 32 j) 1 = true ∧
    s.kindAt (s.segs.cs.base + (s.eip + BitVec.ofNat 32 j)) = .ram ∧
    some (s.byteAt (s.segs.cs.base + (s.eip + BitVec.ofNat 32 j))) = bytes[j]?

theorem codeByte_plain {w : Work} (hpaging : w.s.cr0.pg = false) (hprefetch : w.s.prefetch = Prefetch.empty) {la : BitVec 32}
    (hram : w.s.kindAt la = .ram) : codeByte la w = .ok (w.s.byteAt la) w := by
  have hfresh : codeByteAt la w = .ok (w.s.byteAt la) w := by
    rw [codeByteAt, bind_of_ok (run_st w), hprefetch]
    exact (bind_of_ok (run_need_true _ w) _).trans ((physReadByte_mem la w).2 hram)
  rw [codeByte, bind_of_ok (run_st w), bind_of_ok (linAccess_flat hpaging la 1 false _)]
  simpa [span] using hfresh

theorem fetchByte_plain {w : Work} {bytes : List Byte} (h : PlainCode w.s bytes) {k : Nat} (hk : k < bytes.length) :
    fetchByte k w = .ok (bytes[k], true) w := by
  obtain ⟨hlimit, hram, hbyte⟩ := h.code k hk
  have hroom := h.room
  have hinside : decide (w.s.eip.toNat + k < 2 ^ 32) = true := decide_eq_true (by omega)
  have hvalue : w.s.byteAt (w.s.segs.cs.base + (w.s.eip + BitVec.ofNat 32 k)) = bytes[k] := by
    rw [List.getElem?_eq_getElem hk] at hbyte
    exact Option.some.inj hbyte
  have hfresh (la : BitVec 32) :
      (w.s.prefetch.maps.isEmpty && (w.s.prefetch.stored.isEmpty || !w.s.cr0.pg) && (goneAt w.s la).isEmpty) = true := by
    rw [goneAt, h.prefetch]
    rfl
  rw [fetchByte, bind_of_ok (run_st w), hinside, bind_of_ok (run_need_true _ w), hlimit, bind_of_ok (run_check_true _ w)]
  refine (congrFun (if_pos (hfresh _)) w).trans ?_
  rw [bind_of_ok (codeByte_plain h.paging h.prefetch hram), hvalue]
  rfl

/-- Bytes are fetched until the decoder knows the instruction. -/
theorem fetchInstr_plain {w : Work} {bytes : List Byte} {i : Instr} (h : PlainCode w.s bytes)
    (hdecode : decode w.s.os w.s.as bytes = .ok i bytes.length)
    (hmore : ∀ k, k < bytes.length → decode w.s.os w.s.as (bytes.take k) = .more) {fuel k : Nat} (hk : k ≤ bytes.length)
    (hfuel : bytes.length - k < fuel) : fetchInstr fuel (bytes.take k) true w = .ok (i, bytes.length, true) w := by
  induction fuel generalizing k with
  | zero => omega
  | succ fuel ih =>
    rw [fetchInstr, bind_of_ok (run_st w)]
    obtain rfl | hlt := Nat.eq_or_lt_of_le hk
    · rw [List.take_length, hdecode]
      rfl
    · have hlen : w.s.insn.len + (bytes.take k).length = k := by
        rw [h.insn, List.length_take, Nat.min_eq_left hk]
        exact Nat.zero_add k
      have hshort : decide (k < 15) = true := decide_eq_true (by have := h.short; omega)
      rw [hmore k hlt]
      dsimp only
      rw [hlen, hshort, bind_of_ok (run_check_true _ w), bind_of_ok (fetchByte_plain h hlt)]
      dsimp only
      rw [← List.take_succ_eq_append_getElem hlt]
      exact ih hlt (by omega)

theorem takeInput_kindAt (s : State) (a : BitVec 32) : (takeInput s).kindAt a = s.kindAt a := by
  rw [State.kindAt, takeInput, masterWrites_env]
  rfl

theorem PlainCode.sample {s : State} {bytes : List Byte} (h : PlainCode s bytes) (hwrites : (nextInput s).writes = [])
    (hshadow : s.intShadow = false) : PlainCode (sample false (takeInput s)) bytes := by
  rw [sample_takeInput hwrites hshadow]
  refine ⟨h.paging, h.prefetch, h.insn, h.short, h.room, fun j hj => ?_⟩
  obtain ⟨hlimit, hram, hbyte⟩ := h.code j hj
  exact ⟨hlimit, (takeInput_kindAt s _).trans hram, hbyte⟩

/-! ### Running it -/

theorem isPfx_of_prefixForm {p q : Insn} {i : Instr} (h : prefixForm p i = some q) : isPfx i = true := by
  cases i with
  | lock | rep | repne | segEs | segCs | segSs | segDs | segFs | segGs | opSize | addrSize => rfl
  | _ => cases h

section Fetched

variable {s : State} {ident same : Bool} {i : Instr} {n : Nat} {w : Work}
  (hfetch : fetchInstr 16 [] ident s.work = .ok (i, n, same) w)
include hfetch

theorem runInstr_exec (hpfx : isPfx i = false) (hhazard : hazardStop w.s (isJmp i) same = none) (fuel : Nat) :
    runInstr exec (fuel + 1) ident s = exec i (beginInstr w.s n) := by
  rw [runInstr]
  change (match fetchInstr 16 [] ident s.work with | .ok (i, n, same) w => _ | .error e w => _) = _
  rw [hfetch]
  dsimp only
  rw [hpfx, if_neg Bool.false_ne_true, hhazard]

theorem runInstr_prefix {p : Insn} (hp : prefixForm w.s.insn i = some p) (fuel : Nat) :
    runInstr exec (fuel + 1) ident s = runInstr exec fuel same { w.s with insn := { p with len := w.s.insn.len + 1 } } := by
  rw [runInstr]
  change (match fetchInstr 16 [] ident s.work with | .ok (i, n, same) w => _ | .error e w => _) = _
  rw [hfetch]
  dsimp only
  rw [if_pos (isPfx_of_prefixForm hp), prefixesRecorded i w.s p hp]

end Fetched

/-- The sizes that decode the bytes after a change of PE are free (70 R344; log 16). -/
theorem chooseSizes_draws {w : Work} (h : w.s.prefetch.resized = true) : ∃ old e, Drawn w.s.env e ∧
    chooseSizes w = .ok () { w with s := { w.s with env := e, insn := { w.s.insn with stale := old } } } := by
  obtain ⟨old, e, hdraw, hdrawn⟩ := drawBit_ok w
  refine ⟨old, e, hdrawn, ?_⟩
  rw [chooseSizes, bind_of_ok (run_st w), if_pos h, bind_of_ok hdraw]
  rfl

/-- Where nothing comes first the step is the run of the instruction, its sizes chosen. -/
theorem step_quiet {s : State} (hquiet : QuietBoundary s) (hints : s.flags.if_ = true → s.env.intr = none) {v : Work}
    (hsizes : chooseSizes (sample false (takeInput s)).work = .ok () v) : step s = runInstr exec 16 true v.s := by
  obtain ⟨hreset, hnone, hintr, hwrites⟩ := nextInput_none hquiet.inputs
  exact step_runs hreset hquiet.shutdown hquiet.shadow hwrites hquiet.debug hquiet.breakpoints hquiet.nmi hnone
    (fun hif => hintr.trans (hints hif)) hquiet.halted hsizes

theorem step_quiet_same {s : State} (hquiet : QuietBoundary s) (hints : s.flags.if_ = true → s.env.intr = none)
    (hresized : s.prefetch.resized = false) : step s = runInstr exec 16 true (sample false (takeInput s)) := by
  obtain ⟨-, -, -, hwrites⟩ := nextInput_none hquiet.inputs
  exact step_quiet hquiet hints (chooseSizes_same ((sample_askedAs hquiet.shadow hwrites false).resized.trans hresized))

/-- Settles O6: a quiet boundary answers the next instruction, and in plain memory its fetch ends with its last byte. -/
theorem stepRunsDecoded : Obligations.StepRunsDecoded := by
  unfold Obligations.StepRunsDecoded
  refine ⟨fun s hquiet hints => ?_, fun s fuel ident i n same w hfetch =>
    ⟨fun hpfx hhazard => runInstr_exec hfetch hpfx hhazard fuel, fun p hp => runInstr_prefix hfetch hp fuel⟩, ?_⟩
  · obtain ⟨-, -, -, hwrites⟩ := nextInput_none hquiet.inputs
    refine ⟨step_quiet_same hquiet hints, fun hresized => ?_⟩
    have hsame := sample_askedAs hquiet.shadow hwrites false
    obtain ⟨old, e, hdrawn, hsizes⟩ :=
      chooseSizes_draws (w := (sample false (takeInput s)).work) (hsame.resized.trans hresized)
    refine ⟨old, e, hdrawn, (step_quiet hquiet hints hsizes).trans ?_⟩
    have hinsn : (sample false (takeInput s)).insn = s.insn := by rw [sample_takeInput hwrites hquiet.shadow]
    rw [← hinsn]
    rfl
  · intro s i bytes hquiet hints hpaging hprefetch hinsn hpfx hdecode hmore hshort hroom hcode
    obtain ⟨-, -, -, hwrites⟩ := nextInput_none hquiet.inputs
    have hplain : PlainCode (sample false (takeInput s)) bytes :=
      PlainCode.sample ⟨hpaging, hprefetch, hinsn, hshort, hroom, hcode⟩ hwrites hquiet.shadow
    have hos : (sample false (takeInput s)).os = s.os := by rw [sample_takeInput hwrites hquiet.shadow]; rfl
    have has : (sample false (takeInput s)).as = s.as := by rw [sample_takeInput hwrites hquiet.shadow]; rfl
    have hfetch : fetchInstr 16 [] true (sample false (takeInput s)).work =
        .ok (i, bytes.length, true) (sample false (takeInput s)).work :=
      fetchInstr_plain (w := (sample false (takeInput s)).work) (k := 0) hplain (by rw [← hdecode, ← hos, ← has]; rfl)
        (fun k hk => by rw [← hmore k hk, ← hos, ← has]; rfl) (Nat.zero_le _) (by omega)
    have hhazard : hazardStop (sample false (takeInput s)) (isJmp i) true = none :=
      hazardStop_none (congrArg Prefetch.pe hplain.prefetch) (congrArg Prefetch.pg hplain.prefetch) _ _
    rw [step_quiet_same hquiet hints (by rw [hprefetch]; rfl)]
    exact runInstr_exec hfetch hpfx hhazard _

end Sys2Proof.Machine
end

section
/-! The obligation about a delivery in real-address mode (O53). -/

namespace Sys2Proof.Machine

open Sys2Proof

-- One theorem after another, so that no more of them wait for each other than the memory limit has threads for.
set_option Elab.async false

/-! ### Pushes on a stack of 64 KB in plain memory (48 R234) -/

/-- Real-address mode with a stack of 64 KB, in plain memory. -/
structure RealStack (s : State) : Prop where
  plain : PlainRam s
  real : s.cr0.pe = false
  valid : s.segs.ss.valid = true
  narrow : s.segs.ss.db = false
  up : s.segs.ss.expandDown = false
  limit : s.segs.ss.limit = 0xFFFF#32

section RealStack

variable {s : State} (h : RealStack s)
include h

theorem RealStack.stackSize : s.stackSize = .w16 := by
  rw [State.stackSize, h.narrow]
  rfl

theorem RealStack.sp_lt : s.sp.toNat < 2 ^ 16 := by
  rw [← s.trunc_sp, h.stackSize, Size.toNat_trunc]
  exact Nat.mod_lt _ (by decide)

theorem RealStack.pushed (v : BitVec 32) (n : Nat) : RealStack (s.pushed v n) := by
  have hcr0 : (s.pushed v n).cr0 = s.cr0 := by
    obtain ⟨m, st, heq⟩ := s.pushed_same v n
    rw [heq]
  have hss : (s.pushed v n).segs.ss = s.segs.ss := congrArg _ (s.pushed_segs v n)
  exact ⟨⟨h.plain.ram.pushed v n, State.wf_pushed h.plain.wf v n⟩, hcr0 ▸ h.real, hss ▸ h.valid, hss ▸ h.narrow,
    hss ▸ h.up, hss ▸ h.limit⟩

/-- The segment lets a push through where the stack pointer does not wrap. -/
theorem RealStack.allows {n : Nat} (hn : n ≤ s.sp.toNat) : SegmentAllows s .ss (s.pushAddr n) n true := by
  have hlt := h.sp_lt
  have haddr : (s.pushAddr n).toNat = s.sp.toNat - n := by
    rw [s.pushAddr_eq hn, BitVec.toNat_sub, BitVec.toNat_ofNat]
    omega
  refine ⟨h.valid, fun hpe => absurd (hpe.symm.trans h.real) (by decide), ?_⟩
  have hlimit : limitOk s.segs.ss (s.pushAddr n) n = true := by
    rw [limitOk, h.up, h.limit, if_neg Bool.false_ne_true, decide_eq_true_eq, haddr, show (0xFFFF#32).toNat = 0xFFFF from rfl]
    omega
  exact hlimit

end RealStack

theorem push_real {w : Work} (h : RealStack w.s) (hquiet : w.quiet = true) {n : Nat} (hn : 1 ≤ n) (hroom : n ≤ w.s.sp.toNat)
    (v : BitVec 32) : push v n w = .ok () { w with s := w.s.pushed v n } := by
  have hlt := h.sp_lt
  have hwrap : noWrap w.s.stackSize (w.s.pushAddr n) n = true := by
    rw [noWrap, h.stackSize, decide_eq_true_eq, w.s.pushAddr_eq hroom, BitVec.toNat_sub, BitVec.toNat_ofNat]
    simp only [Size.bits]
    omega
  have hwrite : memWrite .ss (w.s.pushAddr n) n v w =
      .ok () { w with s := w.s.store ((w.s.seg .ss).base + w.s.pushAddr n) n v } := by
    rw [memWrite, bind_of_ok (segCheck_ok (h.allows hroom)), dataWrite, bind_of_ok (run_st w),
      bind_of_ok (linAccess_flat h.plain.ram.paging _ n true _), bind_of_ok (noteData_quiet hquiet _ n true)]
    exact physWriteAt_ram h.plain.ram.ram (Nat.one_le_iff_ne_zero.1 hn) v
  rw [push, bind_of_ok (run_st w), hwrap, bind_of_ok (run_need_true _ w), bind_of_ok hwrite]
  rfl

/-- Three items of a word. -/
def State.pushedThree (s : State) (a b c : BitVec 32) : State := ((s.pushed a 2).pushed b 2).pushed c 2

theorem State.pushedThree_same (s : State) (a b c : BitVec 32) : ∃ g m st, s.pushedThree a b c = { s with
    gpr := g, mem := m, prefetch := { s.prefetch with stored := st } } := by
  obtain ⟨m, st, ha⟩ := s.pushed_same a 2
  obtain ⟨m', st', hb⟩ := (s.pushed a 2).pushed_same b 2
  obtain ⟨m'', st'', hc⟩ := ((s.pushed a 2).pushed b 2).pushed_same c 2
  exact ⟨_, m'', st'', by rw [State.pushedThree, hc, hb, ha]⟩

section Three

variable {s : State} (h : RealStack s) (hroom : 6 ≤ s.sp.toNat) (a b c : BitVec 32)
include h hroom

theorem pushedThree_onTop : OnTop 2 s (s.pushedThree a b c) [lowBytes 2 c, lowBytes 2 b, lowBytes 2 a] := by
  have hfirst := (OnTop.nil 2 s).pushed h.plain (by decide) (by decide) (by simp only [List.length_nil]; omega) a
  have hsecond := hfirst.pushed (h.pushed a 2).plain (by decide) (by simp)
    (by simp only [List.length_cons, List.length_nil]; omega) b
  exact hsecond.pushed ((h.pushed a 2).pushed b 2).plain (by decide) (by simp)
    (by simp only [List.length_cons, List.length_nil]; omega) c

theorem push_three {w : Work} (hw : w.s = s) (hquiet : w.quiet = true) {α : Type} (f : Unit → M α) :
    (push a 2 >>= fun _ => push b 2 >>= fun _ => push c 2 >>= f) w = f () { w with s := s.pushedThree a b c } := by
  subst hw
  have hsp : (w.s.pushed a 2).sp.toNat = w.s.sp.toNat - 2 := by
    rw [w.s.pushed_sp a (by omega), BitVec.toNat_sub_of_le (by rw [BitVec.le_def]; show 2 ≤ _; omega)]
    rfl
  have hsp' : ((w.s.pushed a 2).pushed b 2).sp.toNat = w.s.sp.toNat - 4 := by
    rw [(w.s.pushed a 2).pushed_sp b (by omega), BitVec.toNat_sub_of_le (by rw [BitVec.le_def]; show 2 ≤ _; omega), hsp]
    show _ - 2 = _
    omega
  rw [bind_of_ok (push_real h hquiet (by decide) (by omega) a),
    bind_of_ok (push_real (w := { w with s := w.s.pushed a 2 }) (h.pushed a 2) hquiet (by decide) (by dsimp only; omega) b),
    bind_of_ok (push_real (w := { w with s := (w.s.pushed a 2).pushed b 2 }) ((h.pushed a 2).pushed b 2) hquiet (by decide)
      (by dsimp only; omega) c)]
  rfl

end Three

/-! ### The delivery (60 R297) -/

/-- `u` with CS:IP of a table entry, and IF and TF clear. -/
def State.enteredReal (u : State) (entry : BitVec 32) : State :=
  { u.setSeg .cs (u.segs.cs.realLoaded (hi16 entry)) with
    flags := { u.flags with if_ := false, tf := false }
    eip := (lo16 entry).setWidth 32
    prefetch := Prefetch.empty }

theorem enterReal_ok (entry : BitVec 32) (w : Work) :
    ((upd fun s => { s with flags := { s.flags with if_ := false, tf := false } }) >>= fun _ =>
      loadCsReal (hi16 entry) ((lo16 entry).setWidth 32)) w = .ok () { w with s := w.s.enteredReal entry, jumped := true } :=
  (bind_of_ok (run_upd _ w) _).trans (loadCsReal_ok _ _ _)

/-- The frame of a delivery in real-address mode. -/
def State.pushedRealFrame (s : State) (ret : BitVec 32) : State :=
  s.pushedThree s.flags.toBits (s.segs.cs.selector.setWidth 32) ret

/-- A vector within the table: the frame is pushed and the entry's handler entered. -/
theorem deliverReal_ok {w : Work} (h : RealStack w.s) (hquiet : w.quiet = true) (hroom : 6 ≤ w.s.sp.toNat)
    (hstale : w.s.idtStale = false) {vec : Byte} (hinside : 4 * vec.toNat + 3 ≤ w.s.idtr.limit.toNat) (ret : BitVec 32) :
    deliverReal vec ret w = .ok () { w with
      s := (w.s.pushedRealFrame ret).enteredReal (w.s.valueAt (w.s.idtr.base + (vec.setWidth 32 <<< 2)) 4)
      jumped := true } := by
  have hread : physRead (w.s.idtr.base + (vec.setWidth 32 <<< 2)) 4 w =
      .ok (w.s.valueAt (w.s.idtr.base + (vec.setWidth 32 <<< 2)) 4) w :=
    physReadAt_ram (fun p _ => h.plain.ram.ram p) (span_ne_nil _ (by decide))
  rw [deliverReal, bind_of_ok (run_st w)]
  simp only [decide_eq_true hinside, if_true, if_pos hinside, hstale, Bool.not_false]
  refine (bind_of_ok (run_need_true _ w) _).trans ((bind_of_ok hread _).trans ?_)
  exact (push_three h hroom _ _ _ rfl hquiet _).trans (enterReal_ok (w.s.valueAt (w.s.idtr.base + (vec.setWidth 32 <<< 2)) 4)
    { w with s := w.s.pushedRealFrame ret })

/-- A delivery in real-address mode is that of `deliverReal`, without data breakpoints. -/
theorem deliver_real {w : Work} (h : RealStack w.s) (hroom : 6 ≤ w.s.sp.toNat) (hstale : w.s.idtStale = false) {vec : Byte}
    (hinside : 4 * vec.toNat + 3 ≤ w.s.idtr.limit.toNat) (fault soft : Bool) (err : ErrCode) (ret : BitVec 32) :
    ∃ v, deliver vec fault err soft ret w = .ok () v ∧ v.s =
      { (w.s.pushedRealFrame ret).enteredReal (w.s.valueAt (w.s.idtr.base + (vec.setWidth 32 <<< 2)) 4) with
        delivering := .none } := by
  have hreal := deliverReal_ok (w := { w with quiet := true }) h rfl hroom hstale hinside ret
  rw [deliver, bind_of_ok (run_mark _ w), bind_of_ok (run_st _), if_neg (by rw [h.real]; exact Bool.false_ne_true),
    bind_of_ok hreal]
  exact ⟨_, rfl, rfl⟩

theorem pushedRealFrame_onTop {s : State} (h : RealStack s) (hroom : 6 ≤ s.sp.toNat) (ret : BitVec 32) :
    OnTop 2 s (s.pushedRealFrame ret) [lowBytes 2 ret, lowBytes 2 (s.segs.cs.selector.setWidth 32), lowBytes 2 s.flags.toBits] :=
  pushedThree_onTop h hroom _ _ ret

/-- A frame pushed changes no register but the stack pointer. -/
theorem pushedRealFrame_keeps (s : State) (ret : BitVec 32) :
    (s.pushedRealFrame ret).flags = s.flags ∧ (s.pushedRealFrame ret).cpl = s.cpl := by
  obtain ⟨g, m, st, hsame⟩ := s.pushedThree_same s.flags.toBits (s.segs.cs.selector.setWidth 32) ret
  rw [State.pushedRealFrame, hsame]
  exact ⟨rfl, rfl⟩

theorem lo16_setWidth_eq (v : BitVec 32) : (lo16 v).setWidth 32 = v &&& 0xFFFF#32 := by
  ext i hi
  interval_cases i <;> simp [lo16]

/-- Settles O53: the three pushes go through on a stack of 64 KB, and `OnTop` says what they leave. -/
theorem realModeDelivery : Obligations.RealModeDelivery := by
  unfold Obligations.RealModeDelivery
  intro w vec fault soft err ret hram hreal hvalid hstale hwf hinside hnarrow hup hlimit hroom
  have h : RealStack w.s := ⟨⟨hram, hwf⟩, hreal, hvalid, hnarrow, hup, hlimit⟩
  obtain ⟨v, hdeliver, hv⟩ := deliver_real h hroom hstale hinside fault soft err ret
  extract_lets entry sp top
  have htop := pushedRealFrame_onTop h hroom ret
  obtain ⟨hflags, hcpl⟩ := pushedRealFrame_keeps w.s ret
  generalize w.s.pushedRealFrame ret = u at hv htop hflags hcpl
  replace htop := htop.congr (congrArg State.mem hv :) (congrArg State.gpr hv :) (congrArg (fun s : State => s.segs.ss) hv :)
  have hsp : v.s.sp = sp := htop.sp
  have hss : v.s.segs.ss = w.s.segs.ss := htop.ss
  have item (k : Nat) (x : BitVec 32) (hk : [lowBytes 2 ret, lowBytes 2 (w.s.segs.cs.selector.setWidth 32),
      lowBytes 2 w.s.flags.toBits][k]? = some x) : v.s.valueAt (top + BitVec.ofNat 32 (2 * k)) 2 = x := by
    rw [← htop.items k x hk, State.stackItem, hsp, hss]
  refine ⟨v, hdeliver, ?_, (congrArg (fun s : State => s.segs.cs.selector) hv :),
    (congrArg (fun s : State => s.segs.cs.base) hv :), ?_, hsp, ?_, (item 1 _ rfl).trans (lowBytes_two_setWidth _),
    (item 2 _ rfl).trans (lowBytes_two _), ?_,
    (congrArg State.delivering hv :), (congrArg State.cpl hv :).trans hcpl⟩
  · exact (congrArg State.eip hv :).trans (lo16_setWidth_eq entry)
  · exact (congrArg State.flags hv :).trans (congrArg (fun f : Flags => { f with if_ := false, tf := false }) hflags)
  · rw [← lowBytes_two, ← item 0 _ rfl]
    exact congrArg (v.s.valueAt · 2) (BitVec.add_zero top).symm
  · intro a ha
    refine htop.bytes a ?_
    rwa [hsp, hss]

end Sys2Proof.Machine
end

section
/-! The checks of a delivery in protected mode (60 R287-R292; 43 R175, R176): the first clauses of the obligation about gates
(O54). -/

namespace Sys2Proof.Machine

open Sys2Proof

-- One theorem after another, so that no more of them wait for each other than the memory limit has threads for.
set_option Elab.async false

/-! ### The stack of an inner level (43 R175, R176) -/

section InnerStack

variable {w : Work} {pl : BitVec 2}

theorem tssStack_short (htr : w.s.tr.valid = true) (h : w.s.tr.limit.toNat < 8 * pl.toNat + 11) :
    tssStack pl w = .error (.exc (.ts (w.code w.s.tr.selector))) w := by
  have hshort : decide (8 * pl.toNat + 11 ≤ w.s.tr.limit.toNat) = false := decide_eq_false (Nat.not_le.2 h)
  rw [tssStack, bind_of_ok (run_st w), htr, bind_of_ok (run_need_true _ w), hshort]
  exact bind_of_error (run_checkSel false .ts w.s.tr.selector w) _

theorem tssStack_ram (htr : w.s.tr.valid = true) (hram : AllRam w.s) (h : 8 * pl.toNat + 11 ≤ w.s.tr.limit.toNat) :
    tssStack pl w = .ok (w.s.tssSs pl, w.s.tssEsp pl) w := by
  rw [tssStack, bind_of_ok (run_st w), htr, bind_of_ok (run_need_true _ w), decide_eq_true h]
  refine (bind_of_ok (run_checkSel true .ts w.s.tr.selector w) _).trans ?_
  rw [bind_of_ok (linRead_ram hram _ (by decide) false), bind_of_ok (linRead_ram hram _ (by decide) false)]
  rfl

/-- The checks of the stack segment that the TSS names. -/
theorem innerStack_checks {count : Nat} {nss : BitVec 16} {nesp : BitVec 32} {v : Work}
    (h : tssStack pl w = .ok (nss, nesp) v) :
    ChecksDescriptor (innerStack pl count w) v nss .ts [(isNull nss = false, .ts (w.code nss))]
      (fun d => [(selRpl nss = pl, .ts (w.code nss)), (d.isWritableData = true, .ts (w.code nss)),
        (d.dpl = pl, .ts (w.code nss)), (d.p = true, .ss (w.code nss)),
        (roomBelow (d.toSeg nss) nesp 4 count = true, .ss (w.code nss))])
      fun d u => innerStack pl count w = .ok (d, nss, nesp) u := by
  have hv : AccessesW w v := (tssStack_accesses pl).ok h
  refine firstFailure_checkSel (bind_of_ok h _) hv rfl (by simp) fun _ ho => ?_
  refine firstFailure_fetchDesc ho fun d u _ hacc ho => ?_
  have hu : AccessesW w u := accesses_rel.trans _ _ _ hv hacc
  refine firstFailure_checkSel ho hu rfl beq_iff_eq.symm fun _ ho => ?_
  refine firstFailure_checkSel ho hu rfl Iff.rfl fun _ ho => ?_
  refine firstFailure_checkSel ho hu rfl beq_iff_eq.symm fun _ ho => ?_
  refine firstFailure_checkSel ho hu rfl Iff.rfl fun _ ho => ?_
  exact firstFailure_checkSel ho hu rfl Iff.rfl fun _ ho => ho

end InnerStack

/-! ### Entry through an interrupt or trap gate (60 R289-R292) -/

/-- The frame of an entry from `s`, the same at every level. -/
def pushEntry (s : State) (image : Flags) (err : ErrCode) (ret : BitVec 32) : M Unit :=
  push image.toBits 4 >>= fun _ => pushSel s.segs.cs.selector 4 >>= fun _ => push ret 4 >>= fun _ => pushErr err

/-- The end of an entry to the level `pl` from `s`. -/
def enterHandler (s : State) (g t : Desc) (pl : BitVec 2) (image : Flags) (err : ErrCode) (ret : BitVec 32) : M Unit :=
  pushEntry s image err ret >>= fun _ => loadCs g.gateSel pl t g.gateOffset

/-- An entry from `s` to an inner level once it has the inner stack `q`. -/
def entryOnto (s : State) (x : BitVec 16) (g t : Desc) (image : Flags) (err : ErrCode) (ret : BitVec 32)
    (q : Desc × BitVec 16 × BitVec 32) : M Unit :=
  check (g.gateOffset.ule t.effLimit) (.gp x) >>= fun _ => enterStack t.dpl q.1 q.2.1 q.2.2 >>= fun _ =>
    pushSel s.segs.ss.selector 4 >>= fun _ => push (s.reg .esp) 4 >>= fun _ => enterHandler s g t t.dpl image err ret

/-- The flags on entry through the gate `g` (60 R293). -/
def setEntryFlags (g : Desc) : M Unit := upd fun s => { s with flags := entryFlags (g.typ == 0xE) s.flags }

/-- An entry through the gate `g` from level `cpl` once the descriptor `t` of its target is read. -/
def entryTarget (cpl : BitVec 2) (g : Desc) (image : Flags) (err : ErrCode) (ret : BitVec 32) (t : Desc) : M Unit :=
  checkSel t.isCode .gp g.gateSel >>= fun _ => checkSel (t.dpl.ule cpl) .gp g.gateSel >>= fun _ =>
    checkSel t.p .np g.gateSel >>= fun _ =>
      if (!t.ec && t.dpl.ult cpl) = true then
        enterInner g.gateSel t g.gateOffset image err ret >>= fun _ => setEntryFlags g
      else enterSame g.gateSel t g.gateOffset image err ret >>= fun _ => setEntryFlags g

section Entry

variable (g t : Desc) (image : Flags) (err : ErrCode) (ret : BitVec 32) (w : Work)

theorem enterSame_eq : enterSame g.gateSel t g.gateOffset image err ret w =
    (check (roomBelow w.s.segs.ss w.s.sp 4 (3 + err.count)) (.ss w.extCode) >>= fun _ =>
      check (g.gateOffset.ule t.effLimit) (.gp w.extCode) >>= fun _ => enterHandler w.s g t w.s.cpl image err ret) w := by
  rw [enterSame, bind_of_ok (run_st w), bind_of_ok (run_extBit w)]
  simp only [enterHandler, pushEntry, bind_assoc]
  rfl

theorem enterInner_eq : enterInner g.gateSel t g.gateOffset image err ret w =
    (innerStack t.dpl (5 + err.count) >>= entryOnto w.s w.extCode g t image err ret) w := by
  rw [enterInner, bind_of_ok (run_st w), bind_of_ok (run_extBit w)]
  unfold entryOnto
  simp only [enterHandler, pushEntry, bind_assoc]
  rfl

theorem enterGate_eq : enterGate g image err ret w = (check (!isNull g.gateSel) (.gp w.extCode) >>= fun _ =>
    fetchDesc g.gateSel .gp >>= entryTarget w.s.cpl g image err ret) w := by
  rw [enterGate, bind_of_ok (run_st w), bind_of_ok (run_extBit w)]
  rfl

theorem levelUle_iff {a b : BitVec 2} : a.ule b = true ↔ a.toNat ≤ b.toNat := decide_eq_true_iff

theorem isInner_iff {t : Desc} {cpl : BitVec 2} :
    (!t.ec && t.dpl.ult cpl) = true ↔ t.ec = false ∧ t.dpl.toNat < cpl.toNat := by
  simp [BitVec.ult]

/-- At the same level the room on the stack and the gate's offset are tested (60 R291). -/
theorem enterSame_checks {o : EStateM.Result Stop Work Unit} {u : Work} (hacc : AccessesW w u)
    (ho : o = (enterSame g.gateSel t g.gateOffset image err ret >>= fun _ => setEntryFlags g) u) :
    FirstFailure o u [(roomBelow w.s.segs.ss w.s.sp 4 (3 + err.count) = true, .ss w.extCode),
      (g.gateOffset.toNat ≤ t.effLimit.toNat, .gp w.extCode)] True := by
  have hext : u.extCode = w.extCode := by rw [Work.extCode, Work.extCode, hacc.ext]
  rw [M.run_bind, enterSame_eq, ← M.run_bind, hext, hacc.state.segs, hacc.state.sp] at ho
  simp only [bind_assoc] at ho
  refine firstFailure_check ho Iff.rfl fun _ ho => ?_
  exact firstFailure_check ho ule_iff.symm fun _ _ => trivial

/-- At an inner level its stack is found and checked, then the gate's offset tested (60 R292). -/
theorem enterInner_checks {o : EStateM.Result Stop Work Unit} {u : Work} (hacc : AccessesW w u)
    (ho : o = (enterInner g.gateSel t g.gateOffset image err ret >>= fun _ => setEntryFlags g) u) :
    (∀ e v, innerStack t.dpl (5 + err.count) u = .error e v → o = .error e v) ∧
      ∀ q v, innerStack t.dpl (5 + err.count) u = .ok q v → t.effLimit.toNat < g.gateOffset.toNat →
        o = .error (.exc (.gp w.extCode)) v := by
  have hext : u.extCode = w.extCode := by rw [Work.extCode, Work.extCode, hacc.ext]
  rw [M.run_bind, enterInner_eq, ← M.run_bind, hext, bind_assoc] at ho
  refine ⟨fun e v hinner => ho.trans (bind_of_error hinner _), fun q v hinner hlimit => ?_⟩
  have hbeyond : g.gateOffset.ule t.effLimit = false := decide_eq_false (Nat.not_le.2 hlimit)
  rw [ho, bind_of_ok hinner, entryOnto, hbeyond]
  rfl

/-- The checks of the target that a gate names, and what follows them at the same level and at an inner one. -/
theorem enterGate_checks : ChecksDescriptor (enterGate g image err ret w) w g.gateSel .gp
    [(isNull g.gateSel = false, .gp w.extCode)]
    (fun t => [(t.isCode = true, .gp (w.code g.gateSel)), (t.dpl.toNat ≤ w.s.cpl.toNat, .gp (w.code g.gateSel)),
      (t.p = true, .np (w.code g.gateSel))])
    fun t u =>
      (¬ (t.ec = false ∧ t.dpl.toNat < w.s.cpl.toNat) → FirstFailure (enterGate g image err ret w) u
        [(roomBelow w.s.segs.ss w.s.sp 4 (3 + err.count) = true, .ss w.extCode),
          (g.gateOffset.toNat ≤ t.effLimit.toNat, .gp w.extCode)] True) ∧
      (t.ec = false ∧ t.dpl.toNat < w.s.cpl.toNat →
        (∀ e v, innerStack t.dpl (5 + err.count) u = .error e v → enterGate g image err ret w = .error e v) ∧
        ∀ q v, innerStack t.dpl (5 + err.count) u = .ok q v → t.effLimit.toNat < g.gateOffset.toNat →
          enterGate g image err ret w = .error (.exc (.gp w.extCode)) v) := by
  refine firstFailure_check (enterGate_eq g image err ret w) (by simp) fun _ ho => ?_
  refine firstFailure_fetchDesc ho fun t u hfetch hacc ho => ?_
  refine firstFailure_checkSel ho hacc rfl Iff.rfl fun _ ho => ?_
  refine firstFailure_checkSel ho hacc rfl levelUle_iff.symm fun _ ho => ?_
  refine firstFailure_checkSel ho hacc rfl Iff.rfl fun _ ho => ⟨fun hsame => ?_, fun hinner => ?_⟩
  · exact enterSame_checks g t image err ret w hacc (ho.trans (congrFun (if_neg fun h => hsame (isInner_iff.1 h)) u))
  · exact enterInner_checks g t image err ret w hacc (ho.trans (congrFun (if_pos (isInner_iff.2 hinner)) u))

end Entry

/-! ### The table entry (60 R287, R288) -/

/-- The delivery from the table entry `g` that has been read, from `s`. -/
def throughEntry (s : State) (code : BitVec 16) (fault : Bool) (err : ErrCode) (soft : Bool) (ret : BitVec 32)
    (g : Desc) : M Unit :=
  need (!(!g.s && (g.typ == 6 || g.typ == 7))) .format286 >>= fun _ =>
    check (!g.s && (g.typ == 5 || g.typ == 0xE || g.typ == 0xF)) (.gp code) >>= fun _ =>
      check (!soft || s.cpl.ule g.dpl) (.gp code) >>= fun _ => check g.p (.np code) >>= fun _ =>
        if g.typ = 5 then enterTaskGate g { s.flags with rf := s.flags.rf || fault } err ret
        else enterGate g { s.flags with rf := s.flags.rf || fault } err ret

/-- The error code of an exception about the entry of vector `vec`. -/
def vectorCode (vec : Byte) (ext : Bool) : BitVec 16 := BitVec.ofNat 16 (8 * vec.toNat + 2 + ext.toNat)

theorem vectorCode_eq (vec : Byte) (w : Work) : (vec.setWidth 16 <<< 3) + 2#16 + w.extCode = vectorCode vec w.ext := by
  apply BitVec.eq_of_toNat_eq
  have hvec := vec.isLt
  rw [vectorCode, Work.extCode]
  cases w.ext <;> simp [Nat.shiftLeft_eq] <;> omega

section Deliver

variable {w : Work} {vec : Byte} {fault soft : Bool} {err : ErrCode} {ret : BitVec 32} (hpe : w.s.cr0.pe = true)
include hpe

theorem deliver_stops {e : Stop} {u : Work} (h : deliverProtected vec fault err soft ret { w with quiet := true } = .error e u) :
    deliver vec fault err soft ret w = .error e u := by
  rw [deliver_eq, hpe]
  exact bind_of_error h _

theorem deliver_ends {u : Work} (h : deliverProtected vec fault err soft ret { w with quiet := true } = .ok () u) :
    deliver vec fault err soft ret w = .ok ()
      { u with s := { u.s with delivering := .none, prefetch := Prefetch.empty }, quiet := false, jumped := true } := by
  rw [deliver_eq, hpe]
  exact bind_of_ok h _

end Deliver

theorem deliverProtected_beyond {w : Work} {vec : Byte} (h : ¬ 8 * vec.toNat + 7 ≤ w.s.idtr.limit.toNat) (fault soft : Bool)
    (err : ErrCode) (ret : BitVec 32) :
    deliverProtected vec fault err soft ret w = .error (.exc (.gp (vectorCode vec w.ext))) w := by
  rw [deliverProtected, bind_of_ok (run_st w), bind_of_ok (run_extBit w), decide_eq_false h, ← vectorCode_eq]
  rfl

theorem deliverProtected_inside {w u : Work} {vec : Byte} {g : Desc} (h : 8 * vec.toNat + 7 ≤ w.s.idtr.limit.toNat)
    (hstale : w.s.idtStale = false) (hread : readDescAt (w.s.idtr.base + (vec.setWidth 32 <<< 3)) w = .ok g u)
    (fault soft : Bool) (err : ErrCode) (ret : BitVec 32) :
    deliverProtected vec fault err soft ret w = throughEntry w.s (vectorCode vec w.ext) fault err soft ret g u := by
  rw [deliverProtected, bind_of_ok (run_st w), bind_of_ok (run_extBit w), decide_eq_true h, ← vectorCode_eq]
  refine (bind_of_ok (run_check_true _ w) _).trans ?_
  rw [hstale]
  exact (bind_of_ok (run_need_true _ w) _).trans (bind_of_ok hread _)

section ThroughEntry

variable {s : State} {code : BitVec 16} {fault soft : Bool} {err : ErrCode} {ret : BitVec 32} {g : Desc} {u : Work}

/-- The gate is one of the 80386. -/
def IsGate (g : Desc) : Prop := g.s = false ∧ g.typ ∈ [5#4, 0xE#4, 0xF#4]

theorem throughEntry_286 (h : g.s = false) (htyp : g.typ = 6 ∨ g.typ = 7) :
    throughEntry s code fault err soft ret g u = .error (.refuse .format286) u := by
  have hold : (!(!g.s && (g.typ == 6 || g.typ == 7))) = false := by
    rw [h]
    obtain htyp | htyp := htyp <;> rw [htyp] <;> rfl
  rw [throughEntry, hold]
  rfl

theorem throughEntry_noGate (h : ¬ (g.s = false ∧ g.typ ∈ [5#4, 6#4, 7#4, 0xE#4, 0xF#4])) :
    throughEntry s code fault err soft ret g u = .error (.exc (.gp code)) u := by
  have hnew : (!(!g.s && (g.typ == 6 || g.typ == 7))) = true := by
    rw [Bool.not_eq_true', ← Bool.not_eq_true]
    intro hold
    simp only [Bool.and_eq_true, Bool.not_eq_true', Bool.or_eq_true, beq_iff_eq] at hold
    exact h ⟨hold.1, by obtain htyp | htyp := hold.2 <;> simp [htyp]⟩
  have hnone : (!g.s && (g.typ == 5 || g.typ == 0xE || g.typ == 0xF)) = false := by
    rw [← Bool.not_eq_true]
    intro hgate
    simp only [Bool.and_eq_true, Bool.not_eq_true', Bool.or_eq_true, beq_iff_eq] at hgate
    exact h ⟨hgate.1, by obtain (htyp | htyp) | htyp := hgate.2 <;> simp [htyp]⟩
  rw [throughEntry, hnew, bind_of_ok (run_need_true _ u), hnone]
  rfl

/-- What is left to test of a gate: its DPL, for a software interrupt, and whether it is present. -/
theorem throughEntry_gate (h : IsGate g) : throughEntry s code fault err soft ret g u =
    (check (!soft || s.cpl.ule g.dpl) (.gp code) >>= fun _ => check g.p (.np code) >>= fun _ =>
      if g.typ = 5 then enterTaskGate g { s.flags with rf := s.flags.rf || fault } err ret
      else enterGate g { s.flags with rf := s.flags.rf || fault } err ret) u := by
  obtain ⟨hs, htyp⟩ := h
  have hnew : (!(!g.s && (g.typ == 6 || g.typ == 7))) = true := by
    simp only [List.mem_cons, List.not_mem_nil, or_false] at htyp
    obtain htyp | htyp | htyp := htyp <;> rw [hs, htyp] <;> rfl
  have hgate : (!g.s && (g.typ == 5 || g.typ == 0xE || g.typ == 0xF)) = true := by
    simp only [List.mem_cons, List.not_mem_nil, or_false] at htyp
    obtain htyp | htyp | htyp := htyp <;> rw [hs, htyp] <;> rfl
  rw [throughEntry, hnew, bind_of_ok (run_need_true _ u), hgate, bind_of_ok (run_check_true _ u)]

/-- A software interrupt may go through the gate, or the delivery is none (60 R288). -/
theorem mayEnter_iff : (!soft || s.cpl.ule g.dpl) = true ↔ (soft = true → s.cpl.toNat ≤ g.dpl.toNat) := by
  cases soft <;> simp [BitVec.ule]

theorem throughEntry_forbidden (h : IsGate g) (hopen : ¬ (soft = true → s.cpl.toNat ≤ g.dpl.toNat)) :
    throughEntry s code fault err soft ret g u = .error (.exc (.gp code)) u := by
  rw [throughEntry_gate h, Bool.eq_false_iff.2 (mayEnter_iff.not.2 hopen)]
  rfl

theorem throughEntry_absent (h : IsGate g) (hopen : soft = true → s.cpl.toNat ≤ g.dpl.toNat) (hp : g.p = false) :
    throughEntry s code fault err soft ret g u = .error (.exc (.np code)) u := by
  rw [throughEntry_gate h, mayEnter_iff.2 hopen, bind_of_ok (run_check_true _ u), hp]
  rfl

theorem throughEntry_enters (h : IsGate g) (hopen : soft = true → s.cpl.toNat ≤ g.dpl.toNat) (hp : g.p = true) :
    throughEntry s code fault err soft ret g u =
      (if g.typ = 5 then enterTaskGate g { s.flags with rf := s.flags.rf || fault } err ret
      else enterGate g { s.flags with rf := s.flags.rf || fault } err ret) u := by
  rw [throughEntry_gate h, mayEnter_iff.2 hopen, bind_of_ok (run_check_true _ u), hp, bind_of_ok (run_check_true _ u)]

end ThroughEntry

/-! ### The error code and the task gate (60 R294, R295) -/

theorem pushErr_stack (err : ErrCode) : Within StacksW (pushErr err) := by
  cases err with
  | none => exact within_pure stacks_rel ()
  | word c => exact within_bind stacks_rel draw16_accesses.stack fun _ => push_stack _ 4
  | page c => exact within_bind stacks_rel draw_accesses.stack fun _ => push_stack _ 4

/-- The items that the push of an error code makes: its undefined bits are free. -/
def ErrItems : ErrCode → List (BitVec 32) → Prop
  | .none, l => l = []
  | .word c, l => ∃ v, l = [v] ∧ lo16 v = c
  | .page c, l => ∃ v, l = [v] ∧ v &&& 7#32 = c.setWidth 32

theorem ErrItems.length {err : ErrCode} {l : List (BitVec 32)} (h : ErrItems err l) : l.length = err.count := by
  cases err with
  | none => rw [show l = [] from h]; rfl
  | word c | page c =>
    obtain ⟨v, rfl, -⟩ := h
    rfl

theorem accesses_drawn {s : State} {e : Env} (h : Drawn s.env e) : Accesses s { s with env := e } :=
  accesses_env _ _ (by rw [h])

/-- The defined bits of a page fault's error code (60 R312). -/
theorem pageCode_low (x : BitVec 32) (c : BitVec 3) : ((x &&& 0xFFFFFFF8#32) ||| c.setWidth 32) &&& 7#32 = c.setWidth 32 := by
  ext i hi
  interval_cases i <;> simp

theorem pushErr_onTop {err : ErrCode} {s : State} {w u : Work} {l : List (BitVec 32)} (h : pushErr err w = .ok () u)
    (hw : PlainRam w.s) (hl : l.length < 1000) (hroom : 4 * (l.length + err.count) ≤ s.sp.toNat) (htop : OnTop 4 s w.s l) :
    ∃ m, ErrItems err m ∧ OnTop 4 s u.s (m ++ l) := by
  cases err with
  | none =>
    cases h
    exact ⟨[], rfl, htop⟩
  | word c =>
    obtain ⟨x, e, hdraw, hdrawn⟩ := draw16_ok w
    obtain ⟨htop', -⟩ := push_onTop (s := s) ((bind_of_ok hdraw _).symm.trans h) ((accesses_drawn hdrawn).plainRam hw)
      (.inr rfl) hl hroom (htop.congr rfl rfl rfl)
    rw [lowBytes_four] at htop'
    exact ⟨[x ++ c], ⟨_, rfl, BitVec.extractLsb'_append_eq_right⟩, htop'⟩
  | page c =>
    obtain ⟨x, e, hdraw, hdrawn⟩ := draw_ok w
    obtain ⟨htop', -⟩ := push_onTop (s := s) ((bind_of_ok hdraw _).symm.trans h) ((accesses_drawn hdrawn).plainRam hw)
      (.inr rfl) hl hroom (htop.congr rfl rfl rfl)
    rw [lowBytes_four] at htop'
    exact ⟨[(x &&& 0xFFFFFFF8#32) ||| c.setWidth 32], ⟨_, rfl, pageCode_low x c⟩, htop'⟩

section TaskGate

variable {g : Desc} {image : Flags} {err : ErrCode} {ret : BitVec 32} {u v x : Work}

theorem enterTaskGate_stops {e : Stop} (h : switchThroughGate .call g.gateSel ret image u = .error e v) :
    enterTaskGate g image err ret u = .error e v := bind_of_error h _

/-- The new task begins within its code segment, the error code on its stack. -/
theorem enterTaskGate_ends (h : switchThroughGate .call g.gateSel ret image u = .ok () v) (hpush : pushErr err v = .ok () x)
    (hlimit : v.s.eip.toNat ≤ v.s.segs.cs.limit.toNat) : enterTaskGate g image err ret u = .ok () x := by
  have hstack : StacksW v x := (pushErr_stack err).ok hpush
  have heip : x.s.eip = v.s.eip := hstack.state.eip
  have hwithin : x.s.eip.ule x.s.segs.cs.limit = true := by
    rw [ule_iff, heip, hstack.segs]
    exact hlimit
  rw [enterTaskGate, bind_of_ok h, bind_of_ok hpush, bind_of_ok (run_st x), bind_of_ok (run_extBit x), hwithin]
  rfl

end TaskGate

end Sys2Proof.Machine
end

section
/-! What an entry through an interrupt or trap gate leaves, and the obligation about gates (O54). -/

namespace Sys2Proof.Machine

open Sys2Proof

-- One theorem after another, so that no more of them wait for each other than the memory limit has threads for.
set_option Elab.async false

/-! ### What an entry may change (60 R291-R293) -/

/-- What an entry through a gate may change: CPL, CS and SS, EIP, the flags, the stack pointer, and what an access touches. -/
def GateEntersW (w v : Work) : Prop := v.s = { w.s with
  cpl := v.s.cpl, segs := { w.s.segs with cs := v.s.segs.cs, ss := v.s.segs.ss }, eip := v.s.eip, flags := v.s.flags,
  gpr := { w.s.gpr with esp := v.s.gpr.esp }, mem := v.s.mem, tlb := v.s.tlb, prefetch := v.s.prefetch, env := v.s.env }

theorem gateEnters_rel : StepRel GateEntersW where
  refl _ := rfl
  trans _ _ w h1 h2 := h2.trans (congrArg (fun x : State => { x with
    cpl := w.s.cpl, segs := { x.segs with cs := w.s.segs.cs, ss := w.s.segs.ss }, eip := w.s.eip, flags := w.s.flags,
    gpr := { x.gpr with esp := w.s.gpr.esp }, mem := w.s.mem, tlb := w.s.tlb, prefetch := w.s.prefetch, env := w.s.env }) h1)

theorem AccessesW.gateEnters {w v : Work} (h : AccessesW w v) : GateEntersW w v := by
  have hacc := h.state
  refine hacc.same.trans ?_
  rw [hacc.cpl, hacc.segs, hacc.eip, hacc.flags, hacc.gpr]

/-- `m` changes the work only as an entry may. -/
def GateEnters {α : Type} (m : M α) : Prop := Within GateEntersW m

section GateEnters

variable {α β : Type}

theorem Within.gateEnters {m : M α} (h : Within AccessesW m) : GateEnters m := fun w => (h w).gateEnters

theorem GateEnters.bind {m : M α} {f : α → M β} (h : GateEnters m) (hf : ∀ a, GateEnters (f a)) : GateEnters (m >>= f) :=
  within_bind gateEnters_rel h hf

theorem GateEnters.pure {a : α} : GateEnters (pure a : M α) := within_pure gateEnters_rel a
theorem GateEnters.st : GateEnters st := within_st gateEnters_rel
theorem GateEnters.need {c : Bool} {r : Refusal} : GateEnters (need c r) := within_need gateEnters_rel c r
theorem GateEnters.check {c : Bool} {e : Exc} : GateEnters (check c e) := within_check gateEnters_rel c e
theorem GateEnters.checkSel {c : Bool} {k : CodeExc} {sel : BitVec 16} : GateEnters (checkSel c k sel) :=
  (checkSel_accesses c k sel).gateEnters
theorem GateEnters.ite {c : Prop} [Decidable c] {x y : M α} (hx : GateEnters x) (hy : GateEnters y) :
    GateEnters (if c then x else y) := within_ite hx hy
theorem GateEnters.upd {f : State → State} (h : ∀ w, GateEntersW w { w with s := f w.s }) : GateEnters (upd f) := within_upd h
theorem GateEnters.mark {f : Work → Work} (h : ∀ w, GateEntersW w (f w)) : GateEnters (mark f) := within_mark h

end GateEnters

theorem push_gateEnters (v : BitVec 32) (n : Nat) : GateEnters (push v n) :=
  .bind .st fun _ => .bind .need fun _ => .bind (memWrite_accesses _ _ _ _).gateEnters fun _ => .upd fun _ => rfl

theorem pushSel_gateEnters (sel : BitVec 16) (n : Nat) : GateEnters (pushSel sel n) :=
  .bind (.ite draw16_accesses.gateEnters .pure) fun _ => push_gateEnters _ n

theorem pushErr_gateEnters (err : ErrCode) : GateEnters (pushErr err) := by
  cases err with
  | none => exact .pure
  | word c => exact .bind draw16_accesses.gateEnters fun _ => push_gateEnters _ 4
  | page c => exact .bind draw_accesses.gateEnters fun _ => push_gateEnters _ 4

theorem enterStack_gateEnters (pl : BitVec 2) (d : Desc) (nss : BitVec 16) (nesp : BitVec 32) :
    GateEnters (enterStack pl d nss nesp) :=
  .bind (setAccessed_accesses nss d).gateEnters fun _ => .bind (.upd fun _ => rfl) fun _ => .upd fun _ => rfl

theorem loadCs_gateEnters (sel : BitVec 16) (pl : BitVec 2) (d : Desc) (eip : BitVec 32) : GateEnters (loadCs sel pl d eip) :=
  .bind (setAccessed_accesses sel d).gateEnters fun _ => .bind (.upd fun _ => rfl) fun _ => .mark fun _ => rfl

section Enters

variable (s : State) (g t : Desc) (pl : BitVec 2) (image : Flags) (err : ErrCode) (ret : BitVec 32)

theorem enterHandler_gateEnters : GateEnters (enterHandler s g t pl image err ret) :=
  .bind (.bind (push_gateEnters _ 4) fun _ => .bind (pushSel_gateEnters _ 4) fun _ => .bind (push_gateEnters _ 4) fun _ =>
    pushErr_gateEnters err) fun _ => loadCs_gateEnters _ _ _ _

theorem enterSame_gateEnters : GateEnters (enterSame g.gateSel t g.gateOffset image err ret) := by
  intro w
  rw [enterSame_eq]
  exact GateEnters.bind .check (fun _ => .bind .check fun _ => enterHandler_gateEnters _ _ _ _ _ _ _) w

theorem enterInner_gateEnters : GateEnters (enterInner g.gateSel t g.gateOffset image err ret) := by
  intro w
  rw [enterInner_eq]
  exact GateEnters.bind (innerStack_accesses _ _).gateEnters (fun q => .bind .check fun _ =>
    .bind (enterStack_gateEnters _ _ _ _) fun _ => .bind (pushSel_gateEnters _ 4) fun _ =>
      .bind (push_gateEnters _ 4) fun _ => enterHandler_gateEnters _ _ _ _ _ _ _) w

theorem setEntryFlags_gateEnters : GateEnters (setEntryFlags g) := .upd fun _ => rfl

theorem enterGate_gateEnters : GateEnters (enterGate g image err ret) := by
  intro w
  rw [enterGate_eq]
  exact GateEnters.bind .check (fun _ => .bind (fetchDesc_accesses _ _).gateEnters fun t => .bind .checkSel fun _ =>
    .bind .checkSel fun _ => .bind .checkSel fun _ =>
      .ite (.bind (enterInner_gateEnters _ _ _ _ _) fun _ => setEntryFlags_gateEnters g)
        (.bind (enterSame_gateEnters _ _ _ _ _) fun _ => setEntryFlags_gateEnters g)) w

end Enters

/-! ### The frame on the stack (60 R291, R292, R295) -/

theorem pushEntry_stack (s : State) (image : Flags) (err : ErrCode) (ret : BitVec 32) :
    Within StacksW (pushEntry s image err ret) :=
  within_bind stacks_rel (push_stack _ 4) fun _ => within_bind stacks_rel (pushSel_stack _ 4) fun _ =>
    within_bind stacks_rel (push_stack _ 4) fun _ => pushErr_stack err

/-- The items that an entry pushes in plain memory, the top one first. -/
theorem pushEntry_onTop {p s : State} {image : Flags} {err : ErrCode} {ret : BitVec 32} {w u : Work} {l : List (BitVec 32)}
    (h : pushEntry s image err ret w = .ok () u) (hw : PlainRam w.s) (hl : l.length < 900)
    (hroom : 4 * (3 + err.count + l.length) ≤ p.sp.toNat) (htop : OnTop 4 p w.s l) :
    ∃ (m : List (BitVec 32)) (x : BitVec 16), ErrItems err m ∧
      OnTop 4 p u.s (m ++ ret :: (x ++ s.segs.cs.selector) :: image.toBits :: l) := by
  obtain ⟨_, w1, himage, h1⟩ := bind_eq_ok.1 h
  obtain ⟨_, w2, hcs, h2⟩ := bind_eq_ok.1 h1
  obtain ⟨_, w3, hret, herr⟩ := bind_eq_ok.1 h2
  obtain ⟨htop1, hw1⟩ := push_onTop himage hw (.inr rfl) (by omega) (by omega) htop
  obtain ⟨x, htop2, hw2⟩ := pushSel_onTop hcs hw1 (.inr rfl) (by simp only [List.length_cons]; omega)
    (by simp only [List.length_cons]; omega) htop1
  obtain ⟨htop3, hw3⟩ := push_onTop hret hw2 (.inr rfl) (by simp only [List.length_cons]; omega)
    (by simp only [List.length_cons]; omega) htop2
  obtain ⟨m, hm, htop4⟩ := pushErr_onTop herr hw3 (by simp only [List.length_cons]; omega)
    (by simp only [List.length_cons]; omega) htop3
  simp only [lowBytes_four] at htop4
  exact ⟨m, x, hm, htop4⟩

/-- What the handler entered finds on its stack: the error code if any, the return offset, CS and the flags. -/
def EntryItems (y : State) (cs : BitVec 16) (image : Flags) (err : ErrCode) (ret : BitVec 32) : Prop :=
  y.stackItem 4 err.count = ret ∧ lo16 (y.stackItem 4 (err.count + 1)) = cs ∧
    y.stackItem 4 (err.count + 2) = image.toBits ∧
    match err with
    | .none => True
    | .word c => lo16 (y.stackItem 4 0) = c
    | .page c => y.stackItem 4 0 &&& 7#32 = c.setWidth 32

theorem lo16_append (x sel : BitVec 16) : lo16 (x ++ sel) = sel := BitVec.extractLsb'_append_eq_right

/-- The items below the error code. -/
theorem OnTop.item_below {p y : State} {m l : List (BitVec 32)} (h : OnTop 4 p y (m ++ l)) (k : Nat) {v : BitVec 32}
    (hk : l[k]? = some v) : y.stackItem 4 (m.length + k) = v :=
  h.items _ v (by rw [List.getElem?_append_right (Nat.le_add_right _ _), Nat.add_sub_cancel_left, hk])

theorem OnTop.entry_items {p y : State} {x cs : BitVec 16} {image : Flags} {err : ErrCode} {ret : BitVec 32}
    {m l : List (BitVec 32)} (hm : ErrItems err m) (h : OnTop 4 p y (m ++ ret :: (x ++ cs) :: image.toBits :: l)) :
    EntryItems y cs image err ret := by
  unfold EntryItems
  rw [← hm.length]
  refine ⟨h.item_below 0 rfl, (congrArg lo16 (h.item_below 1 rfl)).trans (lo16_append x cs), h.item_below 2 rfl, ?_⟩
  cases err with
  | none => trivial
  | word c =>
    obtain ⟨v, rfl, hv⟩ := hm
    exact (congrArg lo16 (h.items 0 _ rfl)).trans hv
  | page c =>
    obtain ⟨v, rfl, hv⟩ := hm
    exact (congrArg (· &&& 7#32) (h.items 0 _ rfl)).trans hv

/-! ### The stages of an entry that goes through -/

/-- The handler of `g`'s target `t` is entered at level `pl`: the frame is pushed from `w`, and CS loaded. -/
structure HandlerEntered (s : State) (g t : Desc) (pl : BitVec 2) (image : Flags) (err : ErrCode) (ret : BitVec 32)
    (w v w1 w2 : Work) : Prop where
  pushed : pushEntry s image err ret w = .ok () w1
  accessed : setAccessed g.gateSel t w1 = .ok () w2
  end_ : v = w2.atCode (t.toSeg (withRpl g.gateSel pl)) g.gateOffset

section Handler

variable {s : State} {g t : Desc} {pl : BitVec 2} {image : Flags} {err : ErrCode} {ret : BitVec 32} {w v w1 w2 : Work}

theorem enterHandler_eq_ok (h : enterHandler s g t pl image err ret w = .ok () v) :
    ∃ w1 w2, HandlerEntered s g t pl image err ret w v w1 w2 := by
  obtain ⟨_, w1, hpushed, hload⟩ := bind_eq_ok.1 h
  obtain ⟨_, w2, hset, -⟩ := bind_eq_ok.1 hload
  cases (loadCs_ok hset pl g.gateOffset).symm.trans hload
  exact ⟨w1, w2, hpushed, hset, rfl⟩

variable (h : HandlerEntered s g t pl image err ret w v w1 w2)
include h

theorem HandlerEntered.stacks : StacksW w w2 :=
  stacks_rel.trans _ _ _ ((pushEntry_stack s image err ret).ok h.pushed) ((setAccessed_accesses _ _).ok h.accessed).stack

theorem HandlerEntered.cpl : v.s.cpl = w.s.cpl := by
  rw [h.end_]
  exact h.stacks.cpl

theorem HandlerEntered.segs : v.s.segs = { w.s.segs with cs := t.toSeg (withRpl g.gateSel pl) } := by
  rw [h.end_, ← h.stacks.segs]
  rfl

theorem HandlerEntered.eip : v.s.eip = g.gateOffset := by
  rw [h.end_]
  rfl

theorem HandlerEntered.flags : v.s.flags = w.s.flags := by
  rw [h.end_]
  exact h.stacks.state.flags

theorem HandlerEntered.jumped : v.jumped = true := by
  rw [h.end_]
  rfl

/-- The stack of the handler in plain memory, its code segment accessed before. -/
theorem HandlerEntered.onTop {p y : State} {l : List (BitVec 32)} (hw : PlainRam w.s) (hta : t.a = true) (hl : l.length < 900)
    (hroom : 4 * (3 + err.count + l.length) ≤ p.sp.toNat) (htop : OnTop 4 p w.s l) (hmem : y.mem = v.s.mem)
    (hgpr : y.gpr = v.s.gpr) (hss : y.segs.ss = v.s.segs.ss) :
    ∃ (m : List (BitVec 32)) (x : BitVec 16), ErrItems err m ∧
      OnTop 4 p y (m ++ ret :: (x ++ s.segs.cs.selector) :: image.toBits :: l) := by
  obtain ⟨m, x, hm, hframe⟩ := pushEntry_onTop h.pushed hw hl hroom htop
  have hset := h.accessed
  rw [setAccessed, if_pos hta] at hset
  cases hset
  rw [h.end_] at hmem hgpr hss
  exact ⟨m, x, hm, hframe.congr hmem hgpr hss⟩

end Handler

/-- The stages of an entry to an inner level that goes through. -/
structure EnteredInner (g t : Desc) (image : Flags) (err : ErrCode) (ret : BitVec 32) (w v : Work) (d : Desc) (nss : BitVec 16)
    (nesp : BitVec 32) (w1 w2 w3 w4 w5 w6 : Work) : Prop where
  inner : innerStack t.dpl (5 + err.count) w = .ok (d, nss, nesp) w1
  within : g.gateOffset.toNat ≤ t.effLimit.toNat
  accessedSs : setAccessed nss d w1 = .ok () w2
  pushedSs : pushSel w.s.segs.ss.selector 4 (w2.onStack (d.toSeg nss) t.dpl nesp) = .ok () w3
  pushedEsp : push (w.s.reg .esp) 4 w3 = .ok () w4
  handler : HandlerEntered w.s g t t.dpl image err ret w4 v w5 w6

theorem enterInner_eq_ok {g t : Desc} {image : Flags} {err : ErrCode} {ret : BitVec 32} {w v : Work}
    (h : enterInner g.gateSel t g.gateOffset image err ret w = .ok () v) :
    ∃ d nss nesp w1 w2 w3 w4 w5 w6, EnteredInner g t image err ret w v d nss nesp w1 w2 w3 w4 w5 w6 := by
  rw [enterInner_eq] at h
  obtain ⟨⟨d, nss, nesp⟩, w1, hinner, h1⟩ := bind_eq_ok.1 h
  obtain ⟨_, w1', hwithin, h2⟩ := bind_eq_ok.1 h1
  obtain ⟨hlimit, rfl⟩ := check_eq_ok.1 hwithin
  obtain ⟨_, w2', henter, h3⟩ := bind_eq_ok.1 h2
  obtain ⟨_, w2, hset, -⟩ := bind_eq_ok.1 henter
  cases (enterStack_ok hset t.dpl nesp).symm.trans henter
  obtain ⟨_, w3, hss, h4⟩ := bind_eq_ok.1 h3
  obtain ⟨_, w4, hesp, h5⟩ := bind_eq_ok.1 h4
  obtain ⟨w5, w6, hhandler⟩ := enterHandler_eq_ok h5
  exact ⟨d, nss, nesp, w1', w2, w3, w4, w5, w6, hinner, ule_iff.1 hlimit, hset, hss, hesp, hhandler⟩

theorem enterSame_eq_ok {g t : Desc} {image : Flags} {err : ErrCode} {ret : BitVec 32} {w v : Work}
    (h : enterSame g.gateSel t g.gateOffset image err ret w = .ok () v) :
    g.gateOffset.toNat ≤ t.effLimit.toNat ∧ ∃ w1 w2, HandlerEntered w.s g t w.s.cpl image err ret w v w1 w2 := by
  rw [enterSame_eq] at h
  obtain ⟨_, w1, hroom, h1⟩ := bind_eq_ok.1 h
  obtain ⟨-, rfl⟩ := check_eq_ok.1 hroom
  obtain ⟨_, w2, hwithin, h2⟩ := bind_eq_ok.1 h1
  obtain ⟨hlimit, rfl⟩ := check_eq_ok.1 hwithin
  exact ⟨ule_iff.1 hlimit, enterHandler_eq_ok h2⟩

section EnteredInner

variable {g t : Desc} {image : Flags} {err : ErrCode} {ret : BitVec 32} {w v : Work} {d : Desc} {nss : BitVec 16}
  {nesp : BitVec 32} {w1 w2 w3 w4 w5 w6 : Work} (h : EnteredInner g t image err ret w v d nss nesp w1 w2 w3 w4 w5 w6)
include h

theorem EnteredInner.accesses : AccessesW w w2 :=
  accesses_rel.trans _ _ _ ((innerStack_accesses _ _).ok h.inner) ((setAccessed_accesses _ _).ok h.accessedSs)

theorem EnteredInner.stacks : StacksW (w2.onStack (d.toSeg nss) t.dpl nesp) w4 :=
  stacks_rel.trans _ _ _ ((pushSel_stack _ _).ok h.pushedSs) ((push_stack _ _).ok h.pushedEsp)

theorem EnteredInner.cpl : v.s.cpl = t.dpl := h.handler.cpl.trans h.stacks.cpl

theorem EnteredInner.segs : v.s.segs = { w.s.segs with cs := t.toSeg (withRpl g.gateSel t.dpl), ss := d.toSeg nss } := by
  rw [h.handler.segs, h.stacks.segs, ← h.accesses.state.segs]
  rfl

theorem EnteredInner.flags : v.s.flags = w.s.flags :=
  h.handler.flags.trans (h.stacks.state.flags.trans h.accesses.state.flags)

/-- The inner stack in plain memory, the code segment accessed before. -/
theorem EnteredInner.frame {y : State} (hw : PlainRam w.s) (hta : t.a = true) (hmem : y.mem = v.s.mem) (hgpr : y.gpr = v.s.gpr)
    (hss : y.segs.ss = v.s.segs.ss) (hroom : 4 * (5 + err.count) ≤ (y.stackSize.trunc (w.s.tssEsp t.dpl)).toNat) :
    EntryItems y w.s.segs.cs.selector image err ret ∧ OnInnerStack w.s y t.dpl (5 + err.count) ∧
      y.stackItem 4 (err.count + 3) = w.s.reg .esp ∧ lo16 (y.stackItem 4 (err.count + 4)) = w.s.segs.ss.selector ∧
      ∀ a, a ∉ span (y.segs.ss.base + y.sp) (4 * (5 + err.count)) → y.byteAt a ||| 1#8 = w.s.byteAt a ||| 1#8 := by
  obtain ⟨rfl, rfl, rfl, hdesc⟩ := innerStack_eq_ok hw.ram h.inner
  have hplain2 : PlainRam w2.s := ((setAccessed_accesses _ _).ok h.accessedSs).state.plainRam hw
  have hsize : y.stackSize = (w2.onStack (d.toSeg (w1.s.tssSs t.dpl)) t.dpl (w1.s.tssEsp t.dpl)).s.stackSize :=
    State.stackSize_congr (hss.trans ((congrArg SegRegs.ss h.handler.segs :).trans h.stacks.ss))
  have hsp := Work.sp_onStack w2 (d.toSeg (w1.s.tssSs t.dpl)) t.dpl (w1.s.tssEsp t.dpl)
  rw [← hsize] at hsp
  rw [← hsp] at hroom
  obtain ⟨x', htop1, hplain3⟩ := pushSel_onTop h.pushedSs ⟨hplain2.ram.of_same rfl rfl, hplain2.wf⟩ (.inr rfl) (by decide)
    (by simp only [List.length_nil]; omega) (.nil 4 _)
  obtain ⟨htop2, hplain4⟩ := push_onTop h.pushedEsp hplain3 (.inr rfl) (by simp)
    (by simp only [List.length_cons, List.length_nil]; omega) htop1
  simp only [lowBytes_four] at htop2
  obtain ⟨m, x, hm, htop⟩ := h.handler.onTop hplain4 hta (by simp) (by simp only [List.length_cons, List.length_nil]; omega) htop2
    hmem hgpr hss
  have htotal : 4 * (m ++ ret :: (x ++ w1.s.segs.cs.selector) :: image.toBits ::
      [w1.s.reg .esp, x' ++ w1.s.segs.ss.selector]).length = 4 * (5 + err.count) := by
    simp only [List.length_append, List.length_cons, List.length_nil, hm.length]
    omega
  have hesp := htop.item_below 3 rfl
  have hold := htop.item_below 4 rfl
  rw [hm.length] at hesp hold
  refine ⟨htop.entry_items hm, ⟨⟨d, hdesc, htop.ss⟩, ?_⟩, hesp, (congrArg lo16 hold).trans (lo16_append _ _), fun a ha => ?_⟩
  · rw [htop.sp, htotal, BitVec.sub_add_cancel, hsp]
  · rw [← htotal] at ha
    rw [htop.bytes a ha]
    exact setAccessed_byteAt hw.ram hw.wf h.accessedSs a

end EnteredInner

/-! ### An entry that goes through -/

/-- The target of an entry that goes through, and the entry at the same or at an inner level. -/
theorem enterGate_eq_ok {g : Desc} {image : Flags} {err : ErrCode} {ret : BitVec 32} {w v : Work}
    (h : enterGate g image err ret w = .ok () v) :
    ∃ t u x, isNull g.gateSel = false ∧ fetchDesc g.gateSel .gp w = .ok t u ∧ t.isCode = true ∧ t.p = true ∧
      t.dpl.toNat ≤ w.s.cpl.toNat ∧ v = { x with s := { x.s with flags := entryFlags (g.typ == 0xE) x.s.flags } } ∧
      ((t.ec = false ∧ t.dpl.toNat < w.s.cpl.toNat) ∧ enterInner g.gateSel t g.gateOffset image err ret u = .ok () x ∨
        ¬ (t.ec = false ∧ t.dpl.toNat < w.s.cpl.toNat) ∧ enterSame g.gateSel t g.gateOffset image err ret u = .ok () x) := by
  rw [enterGate_eq] at h
  obtain ⟨_, w1, hnull, h1⟩ := bind_eq_ok.1 h
  obtain ⟨hsel, rfl⟩ := check_eq_ok.1 hnull
  obtain ⟨t, u, hfetch, h2⟩ := bind_eq_ok.1 h1
  obtain ⟨_, w2, htype, h3⟩ := bind_eq_ok.1 h2
  obtain ⟨hcode, rfl⟩ := checkSel_eq_ok htype
  obtain ⟨_, w3, hlevel, h4⟩ := bind_eq_ok.1 h3
  obtain ⟨hdpl, rfl⟩ := checkSel_eq_ok hlevel
  obtain ⟨_, w4, hpresent, h5⟩ := bind_eq_ok.1 h4
  obtain ⟨hp, rfl⟩ := checkSel_eq_ok hpresent
  rw [Bool.not_eq_true'] at hsel
  by_cases hinner : (!t.ec && t.dpl.ult w1.s.cpl) = true
  · rw [if_pos hinner] at h5
    obtain ⟨_, x, henter, hend⟩ := bind_eq_ok.1 h5
    cases hend
    exact ⟨t, w4, x, hsel, hfetch, hcode, hp, levelUle_iff.1 hdpl, rfl, .inl ⟨isInner_iff.1 hinner, henter⟩⟩
  · rw [if_neg hinner] at h5
    obtain ⟨_, x, henter, hend⟩ := bind_eq_ok.1 h5
    cases hend
    exact ⟨t, w4, x, hsel, hfetch, hcode, hp, levelUle_iff.1 hdpl, rfl, .inr ⟨fun hi => hinner (isInner_iff.2 hi), henter⟩⟩

/-- A descriptor in plain memory is read without effect. -/
theorem fetchDesc_unchanged {sel : BitVec 16} {k : CodeExc} {d : Desc} {w u : Work} (h : fetchDesc sel k w = .ok d u)
    (hram : AllRam w.s) : u = w := (fetchDesc_eq_ok hram h).1

/-- An entry at the same level leaves its frame on the stack (60 R291). -/
theorem HandlerEntered.frame_same {g t : Desc} {image : Flags} {err : ErrCode} {ret : BitVec 32} {w x w1 w2 : Work} {y : State}
    (h : HandlerEntered w.s g t w.s.cpl image err ret w x w1 w2) (hw : PlainRam w.s) (hta : t.a = true)
    (hroom : 4 * (3 + err.count) ≤ w.s.sp.toNat) (hmem : y.mem = x.s.mem) (hgpr : y.gpr = x.s.gpr)
    (hss : y.segs.ss = x.s.segs.ss) :
    EntryItems y w.s.segs.cs.selector image err ret ∧ y.sp = w.s.sp - BitVec.ofNat 32 (4 * (3 + err.count)) ∧
      ∀ a, a ∉ span (w.s.segs.ss.base + y.sp) (4 * (3 + err.count)) → y.byteAt a = w.s.byteAt a := by
  obtain ⟨m, x', hm, htop⟩ := h.onTop hw hta (by simp) (by simpa using hroom) (.nil 4 w.s) hmem hgpr hss
  have htotal : 4 * (m ++ [ret, x' ++ w.s.segs.cs.selector, image.toBits]).length = 4 * (3 + err.count) := by
    simp only [List.length_append, List.length_cons, List.length_nil, hm.length]
    omega
  refine ⟨htop.entry_items hm, htotal ▸ htop.sp, fun a ha => htop.bytes a ?_⟩
  rwa [htotal, htop.ss]

/-- The clause of `Obligations.GateEntry` on an entry that goes through. -/
theorem enterGate_entered {w v : Work} {g : Desc} {image : Flags} {err : ErrCode} {ret : BitVec 32}
    (h : enterGate g image err ret w = .ok () v) :
    ∃ (t : Desc) (u : Work), isNull g.gateSel = false ∧ fetchDesc g.gateSel .gp w = .ok t u ∧ t.isCode = true ∧
      t.p = true ∧ t.dpl.toNat ≤ w.s.cpl.toNat ∧ g.gateOffset.toNat ≤ t.effLimit.toNat ∧
      let inner := t.ec = false ∧ t.dpl.toNat < w.s.cpl.toNat
      (inner → v.s.cpl = t.dpl) ∧ (¬ inner → v.s.cpl = w.s.cpl ∧ v.s.segs = { w.s.segs with cs := v.s.segs.cs }) ∧
      v.s.segs.cs = t.toSeg (withRpl g.gateSel v.s.cpl) ∧ v.s.eip = g.gateOffset ∧
      v.s.flags = entryFlags (g.typ == 0xE) w.s.flags ∧ v.jumped = true ∧
      (AllRam w.s → Memory.wf w.s.mem = true → t.a = true →
        (¬ inner → 4 * (3 + err.count) ≤ w.s.sp.toNat → EntryItems v.s w.s.segs.cs.selector image err ret ∧
          v.s.sp = w.s.sp - BitVec.ofNat 32 (4 * (3 + err.count)) ∧
          ∀ a, a ∉ span (w.s.segs.ss.base + v.s.sp) (4 * (3 + err.count)) → v.s.byteAt a = w.s.byteAt a) ∧
        (inner → 4 * (5 + err.count) ≤ (v.s.stackSize.trunc (w.s.tssEsp t.dpl)).toNat →
          EntryItems v.s w.s.segs.cs.selector image err ret ∧ OnInnerStack w.s v.s t.dpl (5 + err.count) ∧
          v.s.stackItem 4 (err.count + 3) = w.s.reg .esp ∧ lo16 (v.s.stackItem 4 (err.count + 4)) = w.s.segs.ss.selector ∧
          ∀ a, a ∉ span (v.s.segs.ss.base + v.s.sp) (4 * (5 + err.count)) →
            v.s.byteAt a ||| 1#8 = w.s.byteAt a ||| 1#8)) := by
  obtain ⟨t, u, x, hsel, hfetch, hcode, hp, hdpl, rfl, ⟨hinner, henter⟩ | ⟨hsame, henter⟩⟩ := enterGate_eq_ok h
  all_goals have hacc : Accesses w.s u.s := ((fetchDesc_accesses g.gateSel .gp).ok hfetch).state
  · obtain ⟨d, nss, nesp, w1, w2, w3, w4, w5, w6, hentered⟩ := enterInner_eq_ok henter
    refine ⟨t, u, hsel, hfetch, hcode, hp, hdpl, hentered.within, fun _ => hentered.cpl, fun hn => absurd hinner hn, ?_,
      hentered.handler.eip, congrArg (entryFlags (g.typ == 0xE)) (hentered.flags.trans hacc.flags), hentered.handler.jumped,
      fun hram hm hta => ⟨fun hn => absurd hinner hn, fun _ hroom => ?_⟩⟩
    · refine (congrArg SegRegs.cs hentered.segs :).trans ?_
      exact congrArg (fun pl => t.toSeg (withRpl g.gateSel pl)) hentered.cpl.symm
    · obtain rfl := fetchDesc_unchanged hfetch hram
      exact hentered.frame ⟨hram, hm⟩ hta rfl rfl rfl hroom
  · obtain ⟨hlimit, w1, w2, hentered⟩ := enterSame_eq_ok henter
    have hcpl : x.s.cpl = w.s.cpl := hentered.cpl.trans hacc.cpl
    have hsegs : x.s.segs = { w.s.segs with cs := x.s.segs.cs } := by
      rw [hentered.segs, hacc.segs]
    refine ⟨t, u, hsel, hfetch, hcode, hp, hdpl, hlimit, fun hi => absurd hi hsame, fun _ => ⟨hcpl, hsegs⟩, ?_,
      hentered.eip, congrArg (entryFlags (g.typ == 0xE)) (hentered.flags.trans hacc.flags), hentered.jumped,
      fun hram hm hta => ⟨fun _ hroom => ?_, fun hi => absurd hi hsame⟩⟩
    · refine (congrArg SegRegs.cs hentered.segs :).trans ?_
      exact congrArg (fun pl => t.toSeg (withRpl g.gateSel pl)) hentered.cpl.symm
    · obtain rfl := fetchDesc_unchanged hfetch hram
      exact hentered.frame_same ⟨hram, hm⟩ hta hroom rfl rfl rfl

/-! ### The delivery (60 R287, R288, R294) -/

/-- The error code of a task gate's delivery lies on the new task's stack (60 R294). -/
theorem pushErr_alone {err : ErrCode} {v x : Work} (h : pushErr err v = .ok () x) (hv : PlainRam v.s) (hroom : 4 ≤ v.s.sp.toNat) :
    (∀ c, err = .word c → lo16 (x.s.stackItem 4 0) = c ∧ x.s.sp = v.s.sp - 4#32) ∧
      ∀ c, err = .page c → x.s.stackItem 4 0 &&& 7#32 = c.setWidth 32 ∧ x.s.sp = v.s.sp - 4#32 := by
  refine ⟨fun c herr => ?_, fun c herr => ?_⟩
  all_goals
    subst herr
    obtain ⟨m, ⟨b, rfl, hb⟩, htop⟩ := pushErr_onTop (s := v.s) (l := []) h hv (by decide) hroom (.nil 4 v.s)
    rw [htop.items 0 b rfl]
    exact ⟨hb, htop.sp⟩

/-- The clause of `Obligations.GateEntry` on a table entry that has been read. -/
theorem deliver_throughEntry {w u : Work} {vec : Byte} {fault soft : Bool} {err : ErrCode} {ret : BitVec 32} {g : Desc}
    (hpe : w.s.cr0.pe = true) (hinside : 8 * vec.toNat + 7 ≤ w.s.idtr.limit.toNat) (hstale : w.s.idtStale = false)
    (hread : readDescAt (w.s.idtr.base + (vec.setWidth 32 <<< 3)) { w with quiet := true } = .ok g u) :
    (∀ e v, throughEntry w.s (vectorCode vec w.ext) fault err soft ret g u = .error e v →
      deliver vec fault err soft ret w = .error e v) ∧
    ∀ v, throughEntry w.s (vectorCode vec w.ext) fault err soft ret g u = .ok () v → deliver vec fault err soft ret w =
      .ok () { v with s := { v.s with delivering := .none, prefetch := Prefetch.empty }, quiet := false, jumped := true } := by
  have hentry := deliverProtected_inside (w := { w with quiet := true }) hinside hstale hread fault soft err ret
  exact ⟨fun e v h => deliver_stops hpe (hentry.trans h), fun v h => deliver_ends hpe (hentry.trans h)⟩

/-- Settles O54: the checks in their order, and the stages of an entry that goes through (`enterGate_entered`). -/
theorem gateEntry : Obligations.GateEntry := by
  unfold Obligations.GateEntry
  refine ⟨fun w vec fault soft err ret hpe => ?idt, fun w g image err ret => enterGate_checks g image err ret w,
    fun w pl count htr => ⟨fun hshort => bind_of_error (tssStack_short htr hshort) _, fun hram => tssStack_ram htr hram,
      fun nss nesp v h => innerStack_checks h⟩, fun w v g image err ret h => ?entered⟩
  case idt =>
    intro q code stops ends inside
    refine ⟨fun hbeyond => deliver_stops hpe (deliverProtected_beyond (w := q) hbeyond fault soft err ret), ?_⟩
    intro hinside hstale g u hread image gate open_
    obtain ⟨hstops, hends⟩ :=
      deliver_throughEntry (fault := fault) (soft := soft) (err := err) (ret := ret) hpe hinside hstale hread
    refine ⟨fun hs htyp => hstops _ _ (throughEntry_286 hs htyp), fun hno => hstops _ _ (throughEntry_noGate hno),
      fun hgate hno => hstops _ _ (throughEntry_forbidden hgate fun h => hno ⟨hgate, h⟩),
      fun ⟨hgate, hopen⟩ hp => hstops _ _ (throughEntry_absent hgate hopen hp), fun ⟨hgate, hopen⟩ hp htyp => ?_,
      fun ⟨hgate, hopen⟩ hp htyp e v h => ?_, fun ⟨hgate, hopen⟩ hp htyp v x h hpush hlimit => ⟨?_, fun herr => ?_,
        fun hram hm hroom => pushErr_alone hpush ⟨hram, hm⟩ hroom⟩⟩
    · have henters :=
        throughEntry_enters (s := w.s) (code := code) (fault := fault) (err := err) (ret := ret) (u := u) hgate hopen hp
      rw [if_neg htyp] at henters
      exact ⟨fun e v h => hstops e v (henters.trans h), fun v h => hends v (henters.trans h)⟩
    · refine hstops e v ((throughEntry_enters hgate hopen hp).trans ?_)
      rw [if_pos htyp]
      exact enterTaskGate_stops h
    · refine hends x ((throughEntry_enters hgate hopen hp).trans ?_)
      rw [if_pos htyp]
      exact enterTaskGate_ends h hpush hlimit
    · subst herr
      cases hpush
      rfl
  case entered =>
    have hchanged : GateEntersW w v := Within.ok (enterGate_gateEnters g image err ret) h
    obtain ⟨t, u, hsel, hfetch, hcode, hp, hdpl, hlimit, hinner, hsame, hcs, heip, hflags, hjumped, hframe⟩ := enterGate_entered h
    exact ⟨t, u, hsel, hfetch, hcode, hp, hdpl, hlimit, hinner, hsame, hcs, heip, hflags, hjumped, hchanged, hframe⟩

end Sys2Proof.Machine
end
